-- ==== Sys2Proof/Word.lean ====
section
/-! DEFINITION. The word types of the FDX-4096 and the sparse table type (spec/01 R6, R14, R21). -/

namespace Sys2Proof

/-- One byte of memory. -/
abbrev Byte := BitVec 8

/-- One 32-bit element of a tile register or tile (R142, R150). -/
abbrev Word32 := BitVec 32

/-- One scalar register or instruction word (R170, R181). -/
abbrev Word64 := BitVec 64

/-- A register number s0 to s31 or t0 to t31 (R170, R142). -/
abbrev Reg := BitVec 5

/-- A logical core index, row * 64 + col (R14). -/
abbrev CoreIx := BitVec 12

/-- A sparse table: keys strictly rising, no entry equal to the table's default. -/
abbrev Tab (α : Type) := List (Nat × α)

end Sys2Proof
end

