-- ==== Sys2Proof/Syntax.lean ====
section
/-! DEFINITION. The commands of the block and their operands (spec/opcode_table.json; operand layouts by the rules each
type names). -/

namespace Sys2Proof

/-- A context of a logical core: the issuer of a program instruction (R170). -/
structure Hart where
  core : CoreIx
  ctx : BitVec 2
  deriving DecidableEq, Repr

/-- The fields of a matrix instruction word (R189). -/
structure MatWord where
  acc : Bool
  endF : Bool
  lm1 : BitVec 4
  target : BitVec 3
  sp : Reg
  sd : Reg
  km1 : BitVec 12
  deriving DecidableEq, Repr

/-- The fields of a vector instruction word, and of CKCMP (R194). -/
structure VecWord where
  etype : BitVec 2
  nm1 : BitVec 12
  ns : Bool
  d : Reg
  ak : BitVec 3
  a : Reg
  bk : BitVec 3
  b : Reg
  ck : BitVec 3
  c : Reg
  lw : BitVec 4
  pop : Bool
  acc : Bool
  tol : BitVec 4
  deriving DecidableEq, Repr

/-- The fields of a semaphore instruction word (R198). -/
structure SemWord where
  sd : Reg
  sa : Reg
  sem : BitVec 6
  vr : Bool
  sb : Reg
  imm : BitVec 16
  deriving DecidableEq, Repr

/-- A flit: the header fields of R243 and the 64 data bytes of its two words, each with the pattern by which its stored
code differs from the valid codeword (R242, R278). -/
structure Flit where
  vc : BitVec 3
  dkind : BitVec 2
  dest : BitVec 12
  skind : BitVec 2
  src : BitVec 12
  op : BitVec 4
  last : Bool
  wen : BitVec 2
  sem : BitVec 6
  addr : BitVec 17
  route : BitVec 2
  payload : List Byte
  err0 : BitVec 288
  err1 : BitVec 288
  deriving DecidableEq, Repr

/-- One cycle of a bank's port: the masters that request it, and for each the context that issued its request, in two bits (R40, R44). -/
structure PortCycle where
  masters : BitVec 5
  issuers : BitVec 10
  deriving DecidableEq, Repr

/-- The pair of a join: the reduction group, and the words of the local granule that the join finds uncorrectable (R261, R264). -/
structure JoinPair where
  group : BitVec 3
  lost : BitVec 2
  deriving DecidableEq, Repr

/-- What the receiving router finds of a header's check bits (R245). -/
inductive HeaderState where
  | clean | corrected | uncorrectable
  deriving DecidableEq, Repr

/-- A unit that captures in a quench or injects into the network (R586, R276). -/
inductive UnitId where
  | core (c : CoreIx)
  | site (s : Fin 36)
  | hid
  deriving DecidableEq, Repr

/-- A Jukuval frame: addresses and the message header of R382 and R383, with its payload. -/
structure Frame where
  bytes : List Byte
  deriving DecidableEq, Repr

/-- What is measured at one feed: voltage in mV and current in mA (R532). -/
structure Feed where
  mv : Nat
  ma : Nat
  deriving DecidableEq, Repr

/-- A scratchpad column that the boot self-test finds failing: its site, bank, macro, segment and column (R51, R53). -/
structure FailedColumn where
  col : Nat
  prow : Nat
  bank : Nat
  mac : Nat
  seg : Nat
  column : Nat
  deriving DecidableEq, Repr

/-- What the module meets at a boot (R603). -/
structure BootInputs where
  /-- The first check of R550 that the boot flash's image fails, where the model does not hold the image; 0 for none. -/
  imageCheck : Nat := 0
  /-- Sites that fail self-test: field column and physical row. -/
  failedSites : List (Nat × Nat) := []
  failedColumns : List FailedColumn := []
  /-- Fields with a failed link stage, and fields whose supervisor does not start its shim (R57, R604). -/
  failedLinks : List Nat := []
  failedShims : List Nat := []
  /-- Sites whose stack fails training, and sites whose I/O die fails its self-test. -/
  failedStacks : List Nat := []
  failedDies : List Nat := []
  deriving DecidableEq, Repr

/-- The commands of spec/opcode_table.json, one constructor for each row. -/
inductive Instr where
  /-- POWER_ON (R603): Both 54 V feeds come into range and the module boots in its fixed order: boot chain, flash mount, self-tests, column maps, interleave. -/
  | powerOn (p : BootInputs)
  /-- MODULE_RESET (R608): Module reset in is held asserted for at least 10 µs; the event buffer is flushed and the boot chain runs again. -/
  | moduleReset (p : BootInputs)
  /-- CONVENTIONAL_RESET (R608): PERST#, hot reset or link-down resets the PCI Express side; the session, rings and window are closed and running work continues. -/
  | conventionalReset
  /-- FUNCTION_LEVEL_RESET (R608): An FLR closes the session, rings and window as a conventional reset does, within 100 ms. -/
  | functionLevelReset
  /-- READY (R603): Boot completes, DEVSTATE becomes READY, STATE_CHANGE is set and MSI-X vector 0 is raised. -/
  | ready
  /-- BOOT_TIMEOUT (R604): READY is not reached 30 s after t = 0, and the device enters SAFE. -/
  | bootTimeout
  /-- LINK_DEGRADED (R473): The PCI Express link trains below x16 at 64 GT/s, or later retrains, and the new width and speed are recorded. -/
  | linkDegraded (width speed : Nat)
  /-- POWER_STATE_D3HOT (R475): The host places the function in D3hot; doorbells and BAR2 writes are then discarded and completions are held. -/
  | powerStateD3hot
  /-- POWER_STATE_D0 (R475): The host writes D0; held completions and interrupts are written in order. -/
  | powerStateD0
  /-- MSIX_UNMASK (R498): Unmasking a vector that has its pending bit set sends its message. -/
  | msixUnmask (vector : Fin 256)
  /-- DOORBELL (R481): A write of SQ_PI submits entries to a ring. -/
  | doorbell (ring : Fin 64) (value : BitVec 32) (width : Nat)
  /-- CQ_CI_WRITE (R481): A write of CQ_CI returns completion entries to the device. -/
  | cqCiWrite (ring : Fin 64) (value : BitVec 32) (width : Nat)
  /-- RING0_ENABLE (R514): ENABLE is written from 0 to 1; the bases are checked and ring 0 is created. -/
  | ring0Enable (value : Word64)
  /-- RING0_DISABLE (R514): ENABLE is written from 1 to 0; ring 0 stops fetching and is removed once its taken commands have completed. -/
  | ring0Disable (value : Word64)
  /-- FLAG_CLEAR (R508): A write of 1 to a W1C flag clears it and its COUNT, unless hardware sets the flag in the same cycle. -/
  | flagClear (offset : BitVec 25) (value : Word64) (width : Nat)
  /-- MACBASE_WRITE (R515): A write of MACBASE is checked; a zero value takes every UP or TRAINING port to DOWN. -/
  | macbaseWrite (value : Word64)
  /-- PCAP_WRITE (R529): A write of PCAP sets the power cap and clears every step record. -/
  | pcapWrite (value : Word64)
  /-- REGISTER_WRITE (R507): A write to any other BAR0 register is applied, or refused by range, session, state, width or base. -/
  | registerWrite (offset : BitVec 25) (value : Word64) (width : Nat)
  /-- BAR2_READ (R478): A host read through the BAR2 window is admitted against the window job context's regions or refused. -/
  | bar2Read (offset : Nat) (len : Nat)
  /-- BAR2_WRITE (R478): A host write through the BAR2 window is admitted by region kind and commit window, or discarded. -/
  | bar2Write (offset : Nat) (data : List Byte)
  /-- HELLO (R558): The mailbox takes a HELLO, which draws a fresh device nonce as the live challenge of the named principal. -/
  | hello
  /-- RESPONSE (R558): The mailbox takes a RESPONSE, whose MAC is checked against the live challenge; a session opens when it matches. -/
  | response
  /-- CLOSE (R561): The mailbox takes a CLOSE, which ends the session: rings 1 to 63 are removed and ring 0 loses its role. -/
  | close
  /-- CLAIM (R564): The mailbox takes a CLAIM, which opens an unauthenticated Owner session while slot 0 is empty. -/
  | claim
  /-- RECOVER (R553): The mailbox takes a RECOVER; the boot ROM reads a replacement image from host memory, verifies it and writes it to boot flash. -/
  | recover
  /-- CHALLENGE_EXPIRY (R558): A live challenge expires 10 s after its CHALLENGE reply. -/
  | challengeExpiry (principal : Fin 16)
  /-- LOCK_EXPIRY (R560): The 60 s session lock expires and the AUTH count returns to zero. -/
  | lockExpiry
  /-- SQ_FETCH (R483): The device visits a ring that holds entries and has CQ room, reserves CQ entries and fetches up to 16 SQ entries. -/
  | sqFetch (ring : Fin 64) (failed : Bool)
  /-- COMPLETION_ENTRY (R485): A finished command's completion entry is written in SQ order, once every earlier completion of its ring has been written. -/
  | completionEntry (ring : Fin 64)
  /-- CTIME_EXPIRY (R499): The coalescing time of the oldest pending completion expires and the ring's vector is raised. -/
  | ctimeExpiry (ring : Fin 64)
  /-- CQ_FULL (R500): A ring is unable to fetch for want of CQ room in every cycle of a 100 µs interval. -/
  | cqFull (ring : Fin 64)
  /-- RING_CREATE (R480): The command creates ring pair 1 to 63 with a role, a vector and sizes. -/
  | ringCreate (ring : Fin 64)
  /-- RING_DELETE (R495): The command stops a ring's fetches and removes the ring after its taken commands complete. -/
  | ringDelete (ring : Fin 64)
  /-- WINDOW_SET (R477): The command sets the BAR2 window base and the job context the window serves. -/
  | windowSet (ring : Fin 64)
  /-- FIRMWARE_UPDATE (R554): The command stages, verifies and writes a new firmware image to the boot flash. -/
  | firmwareUpdate (ring : Fin 64)
  /-- KEY_PROVISION (R565): The command sets or erases a key store slot. -/
  | keyProvision (ring : Fin 64)
  /-- SECURITY_VERSION (R556): The command blows security version fuses up to a new value. -/
  | securityVersion (ring : Fin 64)
  /-- ATTEST (R566): The command writes a signed attestation report, and optionally the endorsement record. -/
  | attest (ring : Fin 64)
  /-- JOB_LOAD (R309): The command checks a job manifest and loads its rectangle and stack regions into an EMPTY job context. -/
  | jobLoad (ring : Fin 64)
  /-- JOB_EMPTY (R310): The command idles a job context's cores and streams, removes its regions and empties it. -/
  | jobEmpty (ring : Fin 64)
  /-- JOB_FABRIC (R392): The command binds a job context to a fabric group, with a bucket size and owned ranges. -/
  | jobFabric (ring : Fin 64)
  /-- FABRIC_GROUP (R391): The command loads a fabric group record. -/
  | fabricGroup (ring : Fin 64)
  /-- LAYOUT_LOAD (R314): The command copies a layout manifest into a slot and checks it whole. -/
  | layoutLoad (ring : Fin 64)
  /-- LAYOUT_DROP (R312): The command empties an inactive layout slot. -/
  | layoutDrop (ring : Fin 64)
  /-- PHASE_SWITCH (R334): The command checks, optionally re-shards, writes ring entries, re-arms streams, loads images and makes the target slot active. -/
  | phaseSwitch (ring : Fin 64)
  /-- JOB_RUN (R493): The command starts the loaded contexts of a LOADED job context, reloading first if needed. -/
  | jobRun (ring : Fin 64)
  /-- JOB_STOP (R493): The command halts a job context's contexts, stops its streams, waits for them to drain, and returns it to LOADED. -/
  | jobStop (ring : Fin 64)
  /-- STEP (R343): The command checks a step block and queues the step to open. -/
  | step (ring : Fin 64)
  /-- SNAPSHOT (R446): The command orders a snapshot of one level, optionally with a maximum interval. -/
  | snapshot (ring : Fin 64)
  /-- RESTORE (R456): The command fetches, checks and writes a snapshot into the job context's own or adopted extents. -/
  | restore (ring : Fin 64)
  /-- TOKEN_PUT (R496): The command copies bytes from host memory into stack memory or a scratchpad window. -/
  | tokenPut (ring : Fin 64)
  /-- TOKEN_GET (R497): The command copies bytes from stack memory or scratchpad to host memory. -/
  | tokenGet (ring : Fin 64)
  /-- COUNTER_READ (R578): The command samples counter sets to host memory, optionally resetting them. -/
  | counterRead (ring : Fin 64)
  /-- TRACE_CONFIG (R583): The command sets which trace records are created. -/
  | traceConfig (ring : Fin 64)
  /-- EVENT_READ (R599): The command copies event log slots to host memory. -/
  | eventRead (ring : Fin 64)
  /-- EVENT_CLEAR (R600): The command erases the event log and writes LOG_CLEARED. -/
  | eventClear (ring : Fin 64)
  /-- CPER_READ (R491): The command copies the CPER ring to host memory. -/
  | cperRead (ring : Fin 64)
  /-- REPAIR_READ (R491): The command copies the repair record store to host memory. -/
  | repairRead (ring : Fin 64)
  /-- QUENCH (R494): The command starts the whole-device quench. -/
  | quench (ring : Fin 64)
  /-- QUENCH_RELEASE (R494): The command ends the quench, resumes injection and returns QUENCHED job contexts to LOADED. -/
  | quenchRelease (ring : Fin 64)
  /-- QUENCH_READ (R591): The command copies a range of the quench snapshot to host memory. -/
  | quenchRead (ring : Fin 64)
  /-- QUENCH_CAPTURE (R586): A core, site or the HID spur receives the quench order, stops injection, sends MARKERs and records its state. -/
  | quenchCapture (unit : UnitId)
  /-- QUENCHED (R588): Every channel has its MARKER, or 10 ms pass; the quench completes and DEVSTATE QUENCHED is set. -/
  | quenched (timedOut : Bool)
  /-- NOP (R185): The context executes a NOP, which has no effect. -/
  | nop (h : Hart)
  /-- HALT (R185): The context executes HALT and becomes IDLE. -/
  | halt (h : Hart)
  /-- FENCE (R187): The context waits until its earlier instructions to the masked units have completed. -/
  | fence (h : Hart) (imm : BitVec 32)
  /-- SETRANK (R185): The context sets its issue rank. -/
  | setrank (h : Hart) (imm : BitVec 32)
  /-- MFS (R188): The context reads a special register into a scalar register. -/
  | mfs (h : Hart) (sd : Reg) (imm : BitVec 32)
  /-- ADD (R185): Scalar register addition. -/
  | add (h : Hart) (sd sa sb : Reg)
  /-- SUB (R185): Scalar register subtraction. -/
  | sub (h : Hart) (sd sa sb : Reg)
  /-- AND (R185): Scalar bitwise AND. -/
  | and (h : Hart) (sd sa sb : Reg)
  /-- OR (R185): Scalar bitwise OR. -/
  | or (h : Hart) (sd sa sb : Reg)
  /-- XOR (R185): Scalar bitwise XOR. -/
  | xor (h : Hart) (sd sa sb : Reg)
  /-- SLL (R185): Scalar shift left. -/
  | sll (h : Hart) (sd sa sb : Reg)
  /-- SRL (R185): Scalar logical shift right. -/
  | srl (h : Hart) (sd sa sb : Reg)
  /-- SRA (R185): Scalar arithmetic shift right. -/
  | sra (h : Hart) (sd sa sb : Reg)
  /-- MUL (R185): Scalar multiply giving the low 64 bits. -/
  | mul (h : Hart) (sd sa sb : Reg)
  /-- SLT (R185): Scalar signed set-less-than. -/
  | slt (h : Hart) (sd sa sb : Reg)
  /-- SLTU (R185): Scalar unsigned set-less-than. -/
  | sltu (h : Hart) (sd sa sb : Reg)
  /-- ADDI (R185): Scalar add of a sign-extended immediate. -/
  | addi (h : Hart) (sd sa : Reg) (imm : BitVec 32)
  /-- ANDI (R185): Scalar AND with an immediate. -/
  | andi (h : Hart) (sd sa : Reg) (imm : BitVec 32)
  /-- ORI (R185): Scalar OR with an immediate. -/
  | ori (h : Hart) (sd sa : Reg) (imm : BitVec 32)
  /-- XORI (R185): Scalar XOR with an immediate. -/
  | xori (h : Hart) (sd sa : Reg) (imm : BitVec 32)
  /-- SLLI (R185): Scalar shift left by an immediate. -/
  | slli (h : Hart) (sd sa : Reg) (imm : BitVec 32)
  /-- SRLI (R185): Scalar logical shift right by an immediate. -/
  | srli (h : Hart) (sd sa : Reg) (imm : BitVec 32)
  /-- SRAI (R185): Scalar arithmetic shift right by an immediate. -/
  | srai (h : Hart) (sd sa : Reg) (imm : BitVec 32)
  /-- LIH (R185): Load of an immediate into the high half of a scalar register. -/
  | lih (h : Hart) (sd sa : Reg) (imm : BitVec 32)
  /-- SLD (R185): Scalar load of 8 bytes from the own window. -/
  | sld (h : Hart) (sd sa : Reg) (imm : BitVec 32)
  /-- SST (R185): Scalar store of 8 bytes to the own window. -/
  | sst (h : Hart) (sa sb : Reg) (imm : BitVec 32)
  /-- BEQ (R185): Branch if equal. -/
  | beq (h : Hart) (sa sb : Reg) (offset : BitVec 32)
  /-- BNE (R185): Branch if not equal. -/
  | bne (h : Hart) (sa sb : Reg) (offset : BitVec 32)
  /-- BLT (R185): Branch if signed less than. -/
  | blt (h : Hart) (sa sb : Reg) (offset : BitVec 32)
  /-- BGE (R185): Branch if signed greater than or equal. -/
  | bge (h : Hart) (sa sb : Reg) (offset : BitVec 32)
  /-- BLTU (R185): Branch if unsigned less than. -/
  | bltu (h : Hart) (sa sb : Reg) (offset : BitVec 32)
  /-- BGEU (R185): Branch if unsigned greater than or equal. -/
  | bgeu (h : Hart) (sa sb : Reg) (offset : BitVec 32)
  /-- JAL (R185): Jump and link. -/
  | jal (h : Hart) (sd : Reg) (offset : BitVec 32)
  /-- JR (R186): Jump to a register target. -/
  | jr (h : Hart) (sa : Reg)
  /-- PROGRAM_ILLEGAL (R208): A context decodes an illegal word and enters FAULTED; the supervisor halts the job context, which becomes FAILED. -/
  | programIllegal (h : Hart) (word : Word64)
  /-- MMUL (R113): The matrix engine runs a matrix-multiply instruction through staged accumulation into the tile. -/
  | mmul (h : Hart) (w : MatWord)
  /-- DRAIN (R123): The matrix engine drains the tile in progress through the drain path to its target. -/
  | drain (h : Hart) (w : MatWord)
  /-- SPILL (R132): The matrix engine checks the tile and stores or adds it into an FP64 spill buffer. -/
  | spill (h : Hart) (w : MatWord)
  /-- RESUME (R134): The matrix engine opens a tile from a spill buffer. -/
  | resume (h : Hart) (w : MatWord)
  /-- TILE_VERDICT (R128): The drain path reaches its checksum verdict and releases or withholds the tile. -/
  | tileVerdict (core : CoreIx)
  /-- CHAIN_STEP (R138): A CHAIN_ADD core, once its incoming sum is signalled, adds its own tile and releases the sum onward. -/
  | chainStep (core : CoreIx) (entry : Fin 4)
  /-- VECTOR_ADD (R156): Elementwise vector ADD. -/
  | vectorAdd (h : Hart) (w : VecWord)
  /-- VECTOR_SUB (R156): Elementwise vector SUB. -/
  | vectorSub (h : Hart) (w : VecWord)
  /-- VECTOR_MUL (R156): Elementwise vector MUL. -/
  | vectorMul (h : Hart) (w : VecWord)
  /-- FMA (R156): Elementwise vector fused multiply-add. -/
  | fma (h : Hart) (w : VecWord)
  /-- MIN (R156): Elementwise vector minimum. -/
  | min (h : Hart) (w : VecWord)
  /-- MAX (R156): Elementwise vector maximum. -/
  | max (h : Hart) (w : VecWord)
  /-- ABS (R156): Elementwise vector absolute value. -/
  | abs (h : Hart) (w : VecWord)
  /-- NEG (R156): Elementwise vector negation. -/
  | neg (h : Hart) (w : VecWord)
  /-- CMPEQ (R156): Vector equality comparison to a mask. -/
  | cmpeq (h : Hart) (w : VecWord)
  /-- CMPNE (R156): Vector inequality comparison to a mask. -/
  | cmpne (h : Hart) (w : VecWord)
  /-- CMPLT (R156): Vector less-than comparison to a mask. -/
  | cmplt (h : Hart) (w : VecWord)
  /-- CMPLE (R156): Vector less-or-equal comparison to a mask. -/
  | cmple (h : Hart) (w : VecWord)
  /-- SEL (R156): Vector select by mask. -/
  | sel (h : Hart) (w : VecWord)
  /-- VECTOR_AND (R156): Vector bitwise AND on I32. -/
  | vectorAnd (h : Hart) (w : VecWord)
  /-- VECTOR_OR (R156): Vector bitwise OR on I32. -/
  | vectorOr (h : Hart) (w : VecWord)
  /-- VECTOR_XOR (R156): Vector bitwise XOR on I32. -/
  | vectorXor (h : Hart) (w : VecWord)
  /-- IOTA (R156): Vector index sequence plus a scalar. -/
  | iota (h : Hart) (w : VecWord)
  /-- CVT_BF (R158): Conversion of F32 to BF16 pairs, RNE or stochastic. -/
  | cvtBf (h : Hart) (w : VecWord)
  /-- CVT_HF (R158): Conversion of F32 to FP16 pairs. -/
  | cvtHf (h : Hart) (w : VecWord)
  /-- CVT_FB (R158): Conversion of BF16 pairs to F32. -/
  | cvtFb (h : Hart) (w : VecWord)
  /-- CVT_FH (R158): Conversion of FP16 pairs to F32. -/
  | cvtFh (h : Hart) (w : VecWord)
  /-- CVT_FI (R158): Conversion of F32 to I32. -/
  | cvtFi (h : Hart) (w : VecWord)
  /-- CVT_IF (R158): Conversion of I32 to F32. -/
  | cvtIf (h : Hart) (w : VecWord)
  /-- CVT_WB (R168): Conversion of a W48 pair to BF16 pairs. -/
  | cvtWb (h : Hart) (w : VecWord)
  /-- RSUM (R163): Segment sum reduction by the fixed tree. -/
  | rsum (h : Hart) (w : VecWord)
  /-- RSUMSQ (R163): Segment sum-of-squares reduction. -/
  | rsumsq (h : Hart) (w : VecWord)
  /-- RMAX (R163): Segment maximum reduction. -/
  | rmax (h : Hart) (w : VecWord)
  /-- RMIN (R163): Segment minimum reduction. -/
  | rmin (h : Hart) (w : VecWord)
  /-- RARGMAX (R164): Segment index of the largest element. -/
  | rargmax (h : Hart) (w : VecWord)
  /-- RARGMIN (R164): Segment index of the smallest element. -/
  | rargmin (h : Hart) (w : VecWord)
  /-- COMPRESS (R165): Packs the active elements and writes their count. -/
  | compress (h : Hart) (w : VecWord)
  /-- EXPAND (R165): Scatters packed elements to the active positions. -/
  | expand (h : Hart) (w : VecWord)
  /-- EXP2 (R166): Special function base-2 exponential. -/
  | exp2 (h : Hart) (w : VecWord)
  /-- LOG2 (R166): Special function base-2 logarithm. -/
  | log2 (h : Hart) (w : VecWord)
  /-- RCP (R166): Special function reciprocal. -/
  | rcp (h : Hart) (w : VecWord)
  /-- RSQRT (R166): Special function reciprocal square root. -/
  | rsqrt (h : Hart) (w : VecWord)
  /-- TANH (R166): Special function hyperbolic tangent. -/
  | tanh (h : Hart) (w : VecWord)
  /-- WFMA (R168): W48 fused multiply-add for updates. -/
  | wfma (h : Hart) (w : VecWord)
  /-- WADD (R168): W48 addition for updates. -/
  | wadd (h : Hart) (w : VecWord)
  /-- PACK (R160): Block writer from F32 to a block format in the own banks. -/
  | pack (h : Hart) (w : VecWord)
  /-- PACK_W (R160): Block writer from a W48 pair to a block format. -/
  | packW (h : Hart) (w : VecWord)
  /-- UNPACK (R162): Reads a block format into an F32 group. -/
  | unpack (h : Hart) (w : VecWord)
  /-- VLD (R159): Vector load of 4-byte elements from the own banks. -/
  | vld (h : Hart) (w : VecWord)
  /-- VLD_H (R159): Vector load of EXT16 elements. -/
  | vldH (h : Hart) (w : VecWord)
  /-- VST (R159): Vector store of 4-byte elements to the own banks. -/
  | vst (h : Hart) (w : VecWord)
  /-- VST_H (R159): Vector store of EXT16 elements. -/
  | vstH (h : Hart) (w : VecWord)
  /-- TQPOP (R152): Frees the context's head tile queue entry without reading it. -/
  | tqpop (h : Hart)
  /-- SFETCH (R225): Bellows fetch of a 1 KiB descriptor block into half of the stream slots. -/
  | sfetch (h : Hart) (sa : Reg) (half : Bool)
  /-- DESCRIPTOR_BLOCK_ACCEPTED (R225): A fetched descriptor block is checked whole and its 16 streams become ARMED or UNSET. -/
  | descriptorBlockAccepted (core : CoreIx)
  /-- SSTART (R227): Starts the named streams from row 0. -/
  | sstart (h : Hart) (sa : Reg)
  /-- SSTOP (R227): Stops the named streams at their next granule. -/
  | sstop (h : Hart) (sa : Reg)
  /-- SREARM (R227): Re-arms a stream with a new end and count. -/
  | srearm (h : Hart) (sa sb : Reg) (str : BitVec 5)
  /-- SSTAT (R229): Reads a stream's state word into a register. -/
  | sstat (h : Hart) (sd : Reg) (str : BitVec 5)
  /-- STREAM_GRANULE (R230): The stream engine moves one outbound granule, one inbound write or one request in a cycle. -/
  | streamGranule (core : CoreIx) (str : BitVec 5)
  /-- STREAM_CHUNK_COMPLETE (R233): A chunk meets its completion condition; the completion increment is made and the stream may become DONE. -/
  | streamChunkComplete (core : CoreIx) (str : BitVec 5)
  /-- SEMWAIT (R198): Waits until a semaphore's value is at least v, then subtracts v. -/
  | semwait (h : Hart) (w : SemWord)
  /-- WAITER_SERVED (R200): A listed SEMWAIT or stream EMPTY wait is satisfied once increments raise the semaphore. -/
  | waiterServed (core : CoreIx) (sem : BitVec 6)
  /-- SEMTRY (R200): Subtracts v without waiting, if it can. -/
  | semtry (h : Hart) (w : SemWord)
  /-- SEMSIG (R199): Adds v to an own semaphore. -/
  | semsig (h : Hart) (w : SemWord)
  /-- SEMSIGR (R202): Sends an increment to a semaphore of another core. -/
  | semsigr (h : Hart) (w : SemWord)
  /-- SEMSET (R200): Sets a semaphore's value. -/
  | semset (h : Hart) (w : SemWord)
  /-- SEMREAD (R198): Reads a semaphore's value into a register. -/
  | semread (h : Hart) (w : SemWord)
  /-- CKMARK (R463): Sets the replay mark and, when clean, copies a clean mark to the supervisor. -/
  | ckmark (h : Hart)
  /-- CKWAIT (R205): Waits for every sampled check of the context's released work, then returns the FAIL count. -/
  | ckwait (h : Hart) (sd : Reg)
  /-- NFREAD (R205): Reads, and optionally clears, the context's NONFINITE count. -/
  | nfread (h : Hart) (sd : Reg) (clr : Bool)
  /-- CKCMP (R206): Compares two F32 groups within a tolerance and counts the failures. -/
  | ckcmp (h : Hart) (w : VecWord)
  /-- STARVATION_GUARD (R41): A bank port refuses a non-owner for 256 cycles and then grants it. -/
  | starvationGuard (core : CoreIx) (bank : Fin 4) (write : Bool) (requests : PortCycle)
  /-- SCRUBBER (R47): The bank scrubber goes 4,095 cycles without an idle read cycle and takes the port. -/
  | scrubber (core : CoreIx) (bank : Fin 4) (requests : PortCycle)
  /-- ISSUE_GUARD (R178): A shared unit refuses a ready head for 4,096 cycles and then takes it ahead of rank. -/
  | issueGuard (core : CoreIx) (unit : Fin 4) (ready : BitVec 4)
  /-- ROUTER_AGE_GRANT (R251): A flit waits 1,024 cycles at its buffer head and is then granted ahead of round-robin. -/
  | routerAgeGrant (router : CoreIx) (out : Fin 4) (f : Flit)
  /-- FLIT_FORWARD (R248): A router receives a flit and routes it, correcting or discarding its header and absorbing flits for out-of-service cores. -/
  | flitForward (router : CoreIx) (link : Fin 6) (hdr : HeaderState) (f : Flit)
  /-- WRITE (R244): A WRITE flit writes its enabled words into a core's window, then its LAST increment. -/
  | write (f : Flit)
  /-- ADD32 (R136): An ADD32 flit is added in arrival order into bank D. -/
  | add32 (f : Flit)
  /-- SEMINC (R202): A SEMINC flit increments a semaphore of the destination core. -/
  | seminc (f : Flit)
  /-- RED (R260): A RED flit lands in a ring member's landing area or an I/O site's window. -/
  | red (f : Flit)
  /-- RCREDIT (R260): An RCREDIT flit returns landing credits to a ring sender. -/
  | rcredit (f : Flit)
  /-- STRICT (R400): A STRICT granule is added into the exact accumulators at an I/O die site, and a completed slot is written into its chunk. -/
  | strict (f : Flit)
  /-- RING_JOIN (R261): Once both granules of pair k are present, the join adds them and sends the sum onward. -/
  | ringJoin (core : CoreIx) (pair : JoinPair)
  /-- MARKER (R587): A quench MARKER arrives on a channel, closing that channel's count; it may trigger capture. -/
  | marker (unit : UnitId) (chan : Nat)
  /-- NET_BACKPRESSURE (R276): An injector is refused credit for every cycle of 100 µs. -/
  | netBackpressure (unit : UnitId) (vc : BitVec 3)
  /-- READ (R288): A stack site serves a READ request, returning data flits or a failure record. -/
  | read (f : Flit)
  /-- STACK_WRITE (R288): A stack site accepts, or refuses, a WRITE request. -/
  | stackWrite (f : Flit)
  /-- STACK_WRITE_DATA (R288): A SITE_DATA flit of a write arrives and is written; the last sends the completion record. -/
  | stackWriteData (f : Flit)
  /-- TEMPER (R299): A stack site accepts a TEMPER request into its temper unit queue. -/
  | temper (f : Flit)
  /-- TEMPER_SHARE_DONE (R304): A temper unit finishes its share and delivers its result record. -/
  | temperShareDone (site : Fin 36)
  /-- REFRESH (R293): A bank's refresh interval falls due and per-bank refresh is issued. -/
  | refresh (site : Fin 36) (bank : Nat)
  /-- PATROL_SCRUB (R295): The patrol scrubber reads and corrects a stack word. -/
  | patrolScrub (site : Fin 36) (word : Nat)
  /-- STACK_FENCED (R284): A stack fails to answer within 100 µs, or exceeds its error count, and is fenced at run time. -/
  | stackFenced (site : Fin 36)
  /-- GATHER (R396): An I/O die site takes a GATHER request and sends GATHER-REQ. -/
  | gather (f : Flit)
  /-- CONTRIB_OPEN (R398): An I/O die site queues, or rejects, a contribution open. -/
  | contribOpen (f : Flit)
  /-- PUBLISH (R407): An I/O die site accepts or refuses a publication request and sends SHARD-PUT. -/
  | publish (f : Flit)
  /-- SITE_DATA (R289): A completion record arrives at a core and is consumed by the stream engine, which may fault the stream. -/
  | siteData (f : Flit)
  /-- MICROBATCH_REPLAY (R367): Once the drain ends, buckets are retracted, images reloaded and OPEN delivered again. -/
  | microbatchReplay (job : Fin 8)
  /-- FRAME_RECEIVED (R377): A port receives an IEEE 802.3 frame and discards it or hands its message to the transport. -/
  | frameReceived (port : Fin 144) (frame : Frame)
  /-- ACK (R385): An ACK message acknowledges, and names NAKs. -/
  | ack (port : Fin 144) (frame : Frame)
  /-- HEARTBEAT (R379): A HEARTBEAT message arrives, counting towards a port coming UP and giving CREDIT. -/
  | heartbeat (port : Fin 144) (frame : Frame)
  /-- MEMBERSHIP (R394): A MEMBERSHIP message is applied or refused. -/
  | membership (port : Fin 144) (frame : Frame)
  /-- GATHER_DATA (R396): GATHER-DATA arrives and is written to the requester with a completion record. -/
  | gatherData (port : Fin 144) (frame : Frame)
  /-- REDUCED (R404): A REDUCED data chunk or summary arrives; data is placed, or for the norm bucket the decision is taken. -/
  | reduced (port : Fin 144) (frame : Frame)
  /-- BUCKET_TABLE_ENTRY (R404): A held summary's chunks have all been written; the bucket table entry is written and q_b is added. -/
  | bucketTableEntry (job : Fin 8) (bucket : Nat)
  /-- PERMUTE (R409): An arriving PERMUTE is written into the tensor's IN sequence. -/
  | permute (port : Fin 144) (frame : Frame)
  /-- PARTNER_PUT (R452): An arriving PARTNER-PUT is written into a partner or restore region. -/
  | partnerPut (port : Fin 144) (frame : Frame)
  /-- PARTNER_GET (R453): An arriving PARTNER-GET is answered from a partner copy. -/
  | partnerGet (port : Fin 144) (frame : Frame)
  /-- APPLIED (R407): An APPLIED acknowledgement arrives for a SHARD-PUT, PERMUTE or PARTNER-PUT. -/
  | applied (port : Fin 144) (frame : Frame)
  /-- CONTRIB (R401): A chunk completes at an I/O die site and is sent as CONTRIB, or dropped between steps. -/
  | contrib (site : Fin 36) (chunk : Nat)
  /-- CONFIRM (R433): The HID orders CONFIRM for a bucket once its checks have reported, and the site sends it. -/
  | confirm (job : Fin 8)
  /-- RETRANSMIT (R385): RTO expires, or a NAK names a message, and the message is retransmitted. -/
  | retransmit (site : Fin 36) (conn : Nat) (seq : Nat)
  /-- ACK_TIMER (R385): The ACK delay or the 8 µs gap timer expires and an ACK, with NAKs, is sent. -/
  | ackTimer (site : Fin 36) (conn : Nat)
  /-- HEARTBEAT_INTERVAL (R386): The heartbeat interval expires and each site sends HEARTBEAT on its UP ports. -/
  | heartbeatInterval (site : Fin 36)
  /-- PORT_DOWN (R379): A port loses alignment, exceeds the FEC limit or hears silence, and goes DOWN. -/
  | portDown (port : Fin 144) (cause : Fin 4)
  /-- PORT_RETRAIN (R379): A DOWN port retrains once a second. -/
  | portRetrain (port : Fin 144)
  /-- FABRIC_BACKPRESSURE (R412): A connection is held for credit for every cycle of 100 µs. -/
  | fabricBackpressure (site : Fin 36)
  /-- FABRIC_STALL (R406): The norm summary is outstanding for a further second. -/
  | fabricStall (site : Fin 36)
  /-- IO_DIE_FENCED (R462): An I/O die is fenced at run time, and bound job contexts fail. -/
  | ioDieFenced (site : Fin 36)
  /-- STEP_OPEN (R344): A queued step opens once R344 allows, and OPEN records are delivered. -/
  | stepOpen (job : Fin 8)
  /-- BACKWARD_DONE (R350): Every bucket is sent and confirmed, or missed, and the NONFINITE counts of contexts 0 and 1 are read. -/
  | backwardDone (job : Fin 8)
  /-- NORM_CONTRIBUTION (R353): The HID sends the module's norm contribution and its CONFIRM. -/
  | normContribution (job : Fin 8)
  /-- COMMITTED (R361): Every owned publication is acknowledged; the commit checks pass, V = n and RESULT is written. -/
  | committed (job : Fin 8)
  /-- SKIPPED (R358): The zeroing of a SKIP ends; DECISION and RESULT are written and the command completes. -/
  | skipped (job : Fin 8)
  /-- CORE_FENCED (R59): A site is fenced; its engines stop and the supervisor shifts the column or takes the core out of service. -/
  | coreFenced (column : Fin 512) (prow : Fin 9) (cause : Fin 16)
  /-- COLUMN_SHIFTED (R60): Once the drain ends, links are re-pointed, state copied, programs loaded and contexts resumed. -/
  | columnShifted (column : Fin 512)
  /-- SHIFT_ABANDONED (R61): The drain exceeds 5 ms and the shift is abandoned. -/
  | shiftAbandoned (column : Fin 512)
  /-- LINK_STAGE_FAILED (R57): A link stage fails at run time and its field goes out of service. -/
  | linkStageFailed (field : Fin 64)
  /-- FALLBACK_APPLIED (R328): After the drain, a variant's ring entries and image are put in force. -/
  | fallbackApplied (job : Fin 8)
  /-- SAMPLED_CHECK_VERDICT (R420): A checker finishes a sampled check and gives a verdict. -/
  | sampledCheckVerdict (check : Nat) (verdict : Fin 4)
  /-- CHECK_TIMEOUT (R422): A sampled check has no verdict after TIMEOUT and is abandoned. -/
  | checkTimeout (check : Nat)
  /-- CLASSIFICATION_RESULT (R426): A repeat or a checker recomputation ends and the failure is classified. -/
  | classificationResult (core : CoreIx) (outcome : Fin 4)
  /-- STRESS_TEST_START (R437): After the 100 ms gap, the next spare site begins its stress test. -/
  | stressTestStart (field : Fin 64)
  /-- STRESS_TEST_END (R437): A 500 ms stress test ends and its results are judged. -/
  | stressTestEnd (field : Fin 64) (passed : Bool)
  /-- RISK_ESTIMATE (R439): Every 100 ms the HID computes the risk estimate and orders snapshots. -/
  | riskEstimate
  /-- SNAPSHOT_START (R448): A pending snapshot starts once no step is committing, and capture begins. -/
  | snapshotStart (job : Fin 8)
  /-- RESTORE_DONE (R456): The restore's data is fetched and written and its digest verified; the job context returns to LOADED. -/
  | restoreDone (job : Fin 8)
  /-- SENSOR_SAMPLE (R535): Every 10 µs the temperature sensors are read and the thermal and SAFE limits applied. -/
  | sensorSample (values : List Int)
  /-- POWER_SAMPLE (R530): A 10 µs power sample may engage the fast limit. -/
  | powerSample (mw : Nat) (feedA feedB : Feed)
  /-- POWER_WINDOW (R529): A 1 ms power average lowers or raises a half's demand, or steps the held limit. -/
  | powerWindow (mw lowMv : Nat)
  /-- OP_CHANGED (R527): A half's operating-point change completes. -/
  | opChanged (half : Fin 2)
  /-- FIELD_BANK (R538): A field stays hot for 1 ms and enters the bank state. -/
  | fieldBank (field : Fin 64)
  /-- FIELD_ACTIVE (R538): A field stays cool for 100 ms and leaves the bank state. -/
  | fieldActive (field : Fin 64)
  /-- FIELD_COLD_ORDER (R539): After 10 ms in the bank state, the cold state is ordered or refused. -/
  | fieldColdOrder (field : Fin 64)
  /-- FIELD_COLD (R539): After the route pause, the field powers off. -/
  | fieldCold (field : Fin 64)
  /-- COLD_RETURN (R540): A cold field stays cool for 1 s and powers on again. -/
  | coldReturn (field : Fin 64)
  /-- ROUTE_CHANGED (R271): The wafer drains during a route pause, the new maps are written and injection resumes. -/
  | routeChanged (field : Fin 64)
  /-- ROUTE_CHANGE_ABANDONED (R272): A route pause does not drain within 2 ms and is abandoned. -/
  | routeChangeAbandoned (field : Fin 64)
  /-- SUPPLY_DROOP (R533): A feed or a field supply droops. -/
  | supplyDroop (source : Fin 66) (mv : Nat)
  /-- FEED_FAULT (R534): A feed is out of range for 20 µs and the device enters SAFE. -/
  | feedFault (feed : Fin 2) (mv : Nat)
  /-- PLL_UNLOCK (R541): A field PLL loses lock for 1 µs and the field goes out of service. -/
  | pllUnlock (field : Fin 64)
  /-- FIRMWARE_FAULT (R547): An untrusted component misses the 1 s watchdog and the device enters SAFE. -/
  | firmwareFault (processor : Fin 65)
  /-- TIMESYNC (R582): Every 1 ms the trace port sends a TIMESYNC record. -/
  | timesync
  /-- TRACE_SLOT (R582): Every 0.5 ns the trace port sends one record slot: the next queued record, a DROP record, ALIGN on every 65,536th slot, or IDLE. -/
  | traceSlot
  /-- MCTP_MESSAGE (R501): The board management port receives an MCTP control or PLDM request over SMBus and answers it. -/
  | mctpMessage (message : List Byte)
  /-- FLASH_SNAPSHOT_DONE (R454): A level-2 snapshot finishes writing to the module checkpoint flash and completes. -/
  | flashSnapshotDone (job : Fin 8)
  /-- PARTNER_SLOT_COPIED (R452): The HID's copy of a verified partner generation into a flash partner slot completes, and the slot then holds that generation. -/
  | partnerSlotCopied (job : Fin 8) (slot : Fin 3)
  /-- EVENT_LOG_FLUSH (R597): Buffered event records, and updated repeat counts, are written from the HID buffer to the flash log within their 10 ms or 1 s bound. -/
  | eventLogFlush
  /-- SUPERVISOR_REFRESH (R519): The HID refreshes its copy of each field supervisor's state, and sets SUPOK to 0 after three missed refreshes. -/
  | supervisorRefresh (field : Fin 64)
  /-- SNAPSHOT_INTERVAL (R446): The maximum interval set by a SNAPSHOT command passes with no snapshot of that level completing, and the device orders one. -/
  | snapshotInterval (job : Fin 8) (level : Fin 4)
  /-- DRAIN_LIMIT_EXCEEDED (R368): The drain of a micro-batch replay or of a fallback variant exceeds the R61 limit, and the step or job context fails. -/
  | drainLimitExceeded (job : Fin 8)
  deriving DecidableEq, Repr

end Sys2Proof
end

