-- ==== Sys2Proof/Decode.lean ====
section
/-! DEFINITION. The command that a word of spec/opcode_table.json spells. The table gives no row any bits, so no word
spells a command. -/

namespace Sys2Proof

/-- Commands reach the block by register accesses, rings, frames and pins, none of which the table encodes as a word. -/
def decodeTableWord (_nbits _w : Nat) : Option Instr := none

end Sys2Proof
end

