-- ==== Sys2Proof/Config.lean ====
section
/-! DEFINITION. What an implementation fixes, and the free values: constants without a body, of which nothing is known
but what a definition that uses them keeps (spec/05 R166, spec/18, spec/09 R294). -/

namespace Sys2Proof

/-- A special-function result that R166 leaves within 2 ulp: function number and operand bits. Free value. DESIGN CHOICE (assumption log 11). -/
opaque Config.sfu : Nat → Word32 → Word32

/-- A fresh device nonce (R558): 48 bytes by the number of nonces drawn before. Free value. DESIGN CHOICE (assumption log 12). -/
opaque Config.nonce : Nat → List Byte

/-- HMAC-SHA-384 (R558): key and message. Free function. DESIGN CHOICE (assumption log 12). -/
opaque Config.hmac : List Byte → List Byte → List Byte

/-- SHA-384 (R551, R567). Free function. DESIGN CHOICE (assumption log 12). -/
opaque Config.sha384 : List Byte → List Byte

/-- AES key unwrap of R565: key-encryption key and wrapped key; none where the unwrap fails. Free function. DESIGN CHOICE (assumption log 12). -/
opaque Config.unwrap : List Byte → List Byte → Option (List Byte)

/-- Verification of a firmware image's signatures (R549, R550). Free function. DESIGN CHOICE (assumption log 12). -/
opaque Config.imageSigned : List Byte → Bool

/-- The device's attestation signature over a message (R567). Free function. DESIGN CHOICE (assumption log 12). -/
opaque Config.sign : List Byte → List Byte

/-- The key digests fused at manufacture: RSA and SLH-DSA (R550). Free values. DESIGN CHOICE (assumption log 12). -/
opaque Config.rsaDigest : List Byte
opaque Config.slhDigest : List Byte

/-- SHA-384 of the boot ROM (R552). Free value. DESIGN CHOICE (assumption log 12). -/
opaque Config.romDigest : List Byte

/-- What the boot flash holds after a write that failed, by the number of free values read before (R555). Free value. DESIGN CHOICE (assumption log 13). -/
opaque Config.flashAfter : Nat → List Byte

/-- The endorsement record after its serial number: keys and signatures (R568). Free value. DESIGN CHOICE (assumption log 21). -/
opaque Config.certChain : List Byte

/-- The device's serial number (R509). Free value. DESIGN CHOICE (assumption log 21). -/
opaque Config.serial : Nat

/-- The stepping code (R509). Free value. DESIGN CHOICE (assumption log 21). -/
opaque Config.stepping : Nat

/-- Row-hammer thresholds of a stack site's mode registers: the initial one above the least, and the maximum above that (R294). Free value. DESIGN CHOICE (assumption log 18). -/
opaque Config.rfmThresholds : Nat → Nat × Nat

/-- Whether the second read of a sampled stack word differs from the first, by the number of free values read before (R424). Free
value. DESIGN CHOICE (assumption log 29). -/
opaque Config.misread : Nat → Bool

/-- The bank of a stack that a local granule lies in: the fixed function of R285. Free function. DESIGN CHOICE (assumption log 18). -/
opaque Config.stackBank : Nat → Nat

/-- The device's reply to an MCTP message, from its sensor readings: what the standards of R501 fix. Free function. DESIGN CHOICE (assumption log 20). -/
opaque Config.mctpReply : List Int → List Byte → List Byte

/-- The completion status of a host read that failed for a stream, by the sequence number of its event (R474). Free value. DESIGN CHOICE (assumption log 17). -/
opaque Config.accessStatus : Nat → Nat

/-- A byte of memory that the manual calls undefined: the number of free values read before, and the address (R457). Free
value. DESIGN CHOICE (assumption log 19). -/
opaque Config.undefinedByte : Nat → Nat → Byte

/-- A measured quantity that nothing in the model computes, read for the n-th time. Free value. DESIGN CHOICE (assumption log 3). -/
opaque Config.measured : Nat → Nat

end Sys2Proof
end

