-- ==== Sys2Proof/Machine/Map.lean ====
section
/-! DEFINITION. Sparse tables in one canonical form: reading, writing, and the form itself. -/

namespace Sys2Proof.Machine

/-- The entry of a table at a key, or the default where none is listed. -/
def Tab.get {α : Type} (d : α) : Tab α → Nat → α
  | [], _ => d
  | (k, v) :: r, i => if k = i then v else Tab.get d r i

/-- Put an entry into a table, keeping the keys rising. -/
def Tab.put {α : Type} (i : Nat) (v : α) : Tab α → Tab α
  | [] => [(i, v)]
  | (k, w) :: r =>
    if i < k then (i, v) :: (k, w) :: r
    else if k = i then (i, v) :: r
    else (k, w) :: Tab.put i v r

/-- Take every entry at a key out of a table. -/
def Tab.del {α : Type} (i : Nat) : Tab α → Tab α
  | [] => []
  | (k, w) :: r => if k = i then Tab.del i r else (k, w) :: Tab.del i r

/-- Write one entry; writing the default removes the entry. -/
def Tab.set {α : Type} [DecidableEq α] (d : α) (l : Tab α) (i : Nat) (v : α) : Tab α :=
  if v = d then Tab.del i l else Tab.put i v l

/-- Write consecutive entries from a key on. -/
def Tab.setRange {α : Type} [DecidableEq α] (d : α) (l : Tab α) (i : Nat) : List α → Tab α
  | [] => l
  | v :: r => Tab.setRange d (Tab.set d l i v) (i + 1) r

/-- Consecutive entries from a key on. -/
def Tab.getRange {α : Type} (d : α) (l : Tab α) (i n : Nat) : List α :=
  (List.range n).map (fun j => Tab.get d l (i + j))

/-- Every key of a table is at least a bound and the keys rise strictly, and no entry is the default. -/
def Tab.wfFrom {α : Type} [DecidableEq α] (d : α) : Nat → Tab α → Bool
  | _, [] => true
  | b, (k, v) :: r => decide (b ≤ k) && decide (v ≠ d) && Tab.wfFrom d (k + 1) r

/-- The canonical form of a table. -/
def Tab.wf {α : Type} [DecidableEq α] (d : α) (l : Tab α) : Bool := Tab.wfFrom d 0 l

/-- The quotient rounded up. -/
def ceilDiv (a b : Nat) : Nat := (a + b - 1) / b

end Sys2Proof.Machine
end

