-- ==== Sys2Proof/Machine/Numeric.lean ====
section
/-! DEFINITION. The number formats, exact values and single roundings of spec/03. -/

namespace Sys2Proof.Machine

/-- An exact finite value: (-1)^neg * m * 2^e. A zero keeps its sign (R71). -/
structure Dy where
  neg : Bool
  m : Nat
  e : Int
  deriving DecidableEq, Repr

/-- A decoded number: finite, infinite or not a number. -/
inductive FV where
  | fin (d : Dy)
  | inf (neg : Bool)
  | nan
  deriving DecidableEq, Repr

/-- A binary float format: fraction bits, exponent of the smallest normal, largest finite code, sign position. -/
structure Fmt where
  frac : Nat
  emin : Int
  maxCode : Nat
  sign : Nat
  deriving DecidableEq, Repr

def fmtE4M3 : Fmt := ⟨3, -6, 0x7E, 7⟩
def fmtE5M2 : Fmt := ⟨2, -14, 0x7B, 7⟩
def fmtE3M2 : Fmt := ⟨2, -2, 0x1F, 5⟩
def fmtE2M3 : Fmt := ⟨3, 0, 0x1F, 5⟩
def fmtE2M1 : Fmt := ⟨1, 0, 0x7, 3⟩
def fmtBF16 : Fmt := ⟨7, -126, 0x7F7F, 15⟩
def fmtFP16 : Fmt := ⟨10, -14, 0x7BFF, 15⟩
def fmtFP24 : Fmt := ⟨15, -126, 0x7F7FFF, 23⟩
def fmtFP32 : Fmt := ⟨23, -126, 0x7F7FFFFF, 31⟩
def fmtW48 : Fmt := ⟨39, -126, 0x7F7FFFFFFFFF, 47⟩
def fmtFP64 : Fmt := ⟨52, -1022, 0x7FEFFFFFFFFFFFFF, 63⟩

/-- The value n/d * 2^k as a fraction. -/
def scaleFrac (n d : Nat) (k : Int) : Nat × Nat :=
  if 0 ≤ k then (n * 2 ^ k.toNat, d) else (n, d * 2 ^ (-k).toNat)

/-- The exponent of the largest power of two not above n/d * 2^e, for n and d not zero (R80). -/
def floorLog2 (n d : Nat) (e : Int) : Int :=
  let l : Int := (Nat.log2 n : Int) - (Nat.log2 d : Int) + e
  let p := scaleFrac n d (e - l)
  if p.2 ≤ p.1 then l else l - 1

/-- How a write rounds: to nearest with ties to even, or by the random value r (R85, R86). -/
abbrev Rnd := Option Nat

/-- Whether a remainder rem of D at quotient k rounds up. -/
def roundsUp (rnd : Rnd) (k rem D : Nat) : Bool :=
  match rnd with
  | none => decide (D < 2 * rem) || (decide (2 * rem = D) && decide (k % 2 = 1))
  | some r => decide (65536 ≤ rem * 65536 / D + r)

/-- The code of the magnitude n/d * 2^e in a format, the exponent unbounded above (R82, R85, R86). -/
def roundMag (f : Fmt) (rnd : Rnd) (n d : Nat) (e : Int) : Nat :=
  if n = 0 then 0 else
  let ex := max (floorLog2 n d e) f.emin
  let p := scaleFrac n d (e - (ex - f.frac))
  let k := p.1 / p.2
  let k' := if roundsUp rnd k (p.1 % p.2) p.2 then k + 1 else k
  (ex - f.emin).toNat * 2 ^ f.frac + k'

/-- The code with its sign. -/
def withSign (f : Fmt) (neg : Bool) (code : Nat) : Nat :=
  if neg then code + 2 ^ f.sign else code

/-- The canonical quiet NaN of a format (R94). -/
def Fmt.nan (f : Fmt) : Nat := f.maxCode + 1 + 2 ^ (f.frac - 1)

/-- Infinity of a format. -/
def Fmt.inf (f : Fmt) (neg : Bool) : Nat := withSign f neg (f.maxCode + 1)

/-- The value of a magnitude code of a format. -/
def decodeMag (f : Fmt) (neg : Bool) (code : Nat) : Dy :=
  let ef := code / 2 ^ f.frac
  let m := code % 2 ^ f.frac
  if ef = 0 then ⟨neg, m, f.emin - f.frac⟩
  else ⟨neg, m + 2 ^ f.frac, f.emin + ef - 1 - f.frac⟩

/-- The value of a code of a wide format (R90). -/
def decodeWide (f : Fmt) (code : Nat) : FV :=
  let neg := decide (code / 2 ^ f.sign % 2 = 1)
  let mag := code % 2 ^ f.sign
  if mag ≤ f.maxCode then .fin (decodeMag f neg mag)
  else if mag = f.maxCode + 1 then .inf neg
  else .nan

/-- The zero of a sign. -/
def Dy.zero (neg : Bool) : Dy := ⟨neg, 0, 0⟩

/-- The value as an integer multiple of 2^e, for e not above the value's own exponent. -/
def Dy.toIntAt (a : Dy) (e : Int) : Int :=
  let n : Nat := a.m * 2 ^ (a.e - e).toNat
  if a.neg then -(n : Int) else n

/-- An integer multiple of 2^e as a value; zero takes the given sign. -/
def Dy.ofInt (n : Int) (e : Int) (zneg : Bool) : Dy :=
  if n = 0 then ⟨zneg, 0, e⟩ else ⟨decide (n < 0), n.natAbs, e⟩

/-- The exact sum; a zero sum is negative only when both operands are. -/
def Dy.add (a b : Dy) : Dy :=
  let e := min a.e b.e
  Dy.ofInt (a.toIntAt e + b.toIntAt e) e (a.neg && b.neg)

def Dy.mul (a b : Dy) : Dy := ⟨a.neg != b.neg, a.m * b.m, a.e + b.e⟩
def Dy.negate (a : Dy) : Dy := { a with neg := !a.neg }
def Dy.abs (a : Dy) : Dy := { a with neg := false }
def Dy.sub (a b : Dy) : Dy := a.add b.negate

/-- Numeric comparison; the zeros are equal. -/
def Dy.lt (a b : Dy) : Bool :=
  let e := min a.e b.e
  decide (a.toIntAt e < b.toIntAt e)

def Dy.le (a b : Dy) : Bool := !(b.lt a)

/-- 2^k. -/
def Dy.pow2 (k : Int) : Dy := ⟨false, 1, k⟩

def FV.negate : FV → FV
  | .fin d => .fin d.negate
  | .inf n => .inf (!n)
  | .nan => .nan

def FV.add : FV → FV → FV
  | .nan, _ => .nan
  | _, .nan => .nan
  | .inf a, .inf b => if a = b then .inf a else .nan
  | .inf a, .fin _ => .inf a
  | .fin _, .inf b => .inf b
  | .fin a, .fin b => .fin (a.add b)

def FV.mul : FV → FV → FV
  | .nan, _ => .nan
  | _, .nan => .nan
  | .inf a, .inf b => .inf (a != b)
  | .inf a, .fin d => if d.m = 0 then .nan else .inf (a != d.neg)
  | .fin d, .inf b => if d.m = 0 then .nan else .inf (d.neg != b)
  | .fin a, .fin b => .fin (a.mul b)

/-- Ordered comparison; false when either is NaN. -/
def FV.lt : FV → FV → Bool
  | .nan, _ => false
  | _, .nan => false
  | .inf a, .inf b => a && !b
  | .inf a, .fin _ => a
  | .fin _, .inf b => !b
  | .fin a, .fin b => a.lt b

def FV.isNan : FV → Bool
  | .nan => true
  | _ => false

def FV.neg : FV → Bool
  | .fin d => d.neg
  | .inf n => n
  | .nan => false

/-- Numeric equality; the zeros are equal and NaN equals nothing. -/
def FV.eq (a b : FV) : Bool := !a.isNan && !b.isNan && !(a.lt b) && !(b.lt a)

def FV.isFinite : FV → Bool
  | .fin _ => true
  | _ => false

/-- IEEE 754 minimum and maximum with -0 below +0 and NaN canonical (R156). -/
def FV.minimum (a b : FV) : FV :=
  if a.isNan || b.isNan then .nan
  else if a.lt b then a else if b.lt a then b else if a.neg then a else b

def FV.maximum (a b : FV) : FV :=
  if a.isNan || b.isNan then .nan
  else if a.lt b then b else if b.lt a then a else if a.neg then b else a

/-- Rounding with overflow to infinity: the vector engine's FP32 arithmetic (R157). -/
def FV.toIeee (f : Fmt) : FV → Nat
  | .nan => f.nan
  | .inf n => f.inf n
  | .fin d =>
    let c := roundMag f none d.m 1 d.e
    if f.maxCode < c then f.inf d.neg else withSign f d.neg c

/-- Rounding a finite value with saturation (R93): the code, and whether it saturated. -/
def Dy.toSat (f : Fmt) (rnd : Rnd) (d : Dy) : Nat × Bool :=
  let c := roundMag f rnd d.m 1 d.e
  if f.maxCode < c then (withSign f d.neg f.maxCode, true) else (withSign f d.neg c, false)

/-- Rounding with saturation of finite values; non-finite values are kept (R92, R94). -/
def FV.toSat (f : Fmt) (rnd : Rnd) : FV → Nat × Bool
  | .nan => (f.nan, false)
  | .inf n => (f.inf n, false)
  | .fin d => d.toSat f rnd

/-- The finite value that saturating rounding leaves. -/
def Dy.roundSat (f : Fmt) (d : Dy) : Dy × Bool :=
  let c := roundMag f none d.m 1 d.e
  if f.maxCode < c then (decodeMag f d.neg f.maxCode, true) else (decodeMag f d.neg c, false)

/-- A finite FP32 code as a value; the non-finite ones do not occur where this is used (R95). -/
def dyOfF32 (w : Word32) : Dy :=
  match decodeWide fmtFP32 w.toNat with
  | .fin d => d
  | .inf n => decodeMag fmtFP32 n fmtFP32.maxCode
  | .nan => decodeMag fmtFP32 false fmtFP32.maxCode

def f32 (w : Word32) : FV := decodeWide fmtFP32 w.toNat

def f32One : Word32 := 0x3F800000#32

/-- The saturating FP32 rounding of a finite value as an element. -/
def dyToF32 (d : Dy) : Word32 × Bool :=
  let p := d.toSat fmtFP32 none
  (BitVec.ofNat 32 p.1, p.2)

/-! ### Format codes (R67 to R69) -/

/-- Element formats of a format code (R67). -/
inductive Elem where
  | e4m3 | e5m2 | e3m2 | e2m3 | e2m1 | int8 | bf16 | fp16 | fp32 | w48 | fp64
  deriving DecidableEq, Repr

def elemOf : Nat → Option Elem
  | 0 => some .e4m3 | 1 => some .e5m2 | 2 => some .e3m2 | 3 => some .e2m3
  | 4 => some .e2m1 | 5 => some .int8 | 8 => some .bf16 | 9 => some .fp16
  | 10 => some .fp32 | 11 => some .w48 | 12 => some .fp64
  | _ => none

def Elem.isBlock : Elem → Bool
  | .e4m3 | .e5m2 | .e3m2 | .e2m3 | .e2m1 | .int8 => true
  | _ => false

/-- Bits of one element in its element plane (R73, R221). -/
def Elem.bits : Elem → Nat
  | .e4m3 | .e5m2 | .int8 => 8
  | .e3m2 | .e2m3 => 6
  | .e2m1 => 4
  | .bf16 | .fp16 => 16
  | .fp32 | .w48 => 32
  | .fp64 => 64

/-- The float format of an element; INT8 is read apart. -/
def Elem.fmt : Elem → Fmt
  | .e4m3 => fmtE4M3
  | .e5m2 => fmtE5M2
  | .e3m2 => fmtE3M2
  | .e2m3 => fmtE2M3
  | .e2m1 => fmtE2M1
  | .int8 => ⟨6, 0, 127, 7⟩
  | .bf16 => fmtBF16
  | .fp16 => fmtFP16
  | .fp32 => fmtFP32
  | .w48 => fmtW48
  | .fp64 => fmtFP64

/-- emax of R70. -/
def Elem.emax : Elem → Int
  | .e4m3 => 8
  | .e5m2 => 15
  | .e3m2 => 4
  | .e2m3 => 2
  | .e2m1 => 2
  | _ => 0

/-- A decoded format code (R67). -/
structure FmtCode where
  elem : Elem
  scale : Nat
  block : Nat
  tscale : Bool
  stoch : Bool
  deriving DecidableEq, Repr

/-- Where an item that carries a format code stands (R68). -/
structure FmtUse where
  update : Bool := false
  publish : Bool := false
  spill : Bool := false
  written : Bool := true
  deriving DecidableEq, Repr

/-- A format code as R68 and R69 judge it; none when it is illegal. -/
def parseFmt (u : FmtUse) (c : Nat) : Option FmtCode :=
  match elemOf (c / 4096 % 16) with
  | none => none
  | some el =>
    let sc := c / 1024 % 4
    let bl := c / 256 % 4
    let ts := decide (c / 128 % 2 = 1)
    let ro := c / 32 % 4
    let lo := c % 32
    if lo ≠ 0 then none
    else if 1 < ro then none
    else if el.isBlock && (sc = 0 || sc = 3) then none
    else if !el.isBlock && (sc ≠ 0 || bl ≠ 0 || ts) then none
    else if u.written && ro = 1 && !(el = .bf16 || u.publish) then none
    else if el = .w48 && !u.update then none
    else if el = .fp64 && !u.spill then none
    else some ⟨el, sc, 16 * 2 ^ bl, ts, decide (ro = 1) && u.written⟩

/-! ### Narrow elements and scales (R70 to R76) -/

/-- The value of an element code and whether it is a special code (R70, R72). -/
def decodeElem (el : Elem) (c : Nat) : Dy × Bool :=
  match el with
  | .int8 =>
    if 128 ≤ c then (⟨true, 256 - c, -6⟩, decide (c = 128)) else (⟨false, c, -6⟩, false)
  | _ =>
    let f := el.fmt
    let neg := decide (c / 2 ^ f.sign % 2 = 1)
    let mag := c % 2 ^ f.sign
    if f.maxCode < mag then (decodeMag f neg f.maxCode, true) else (decodeMag f neg mag, false)

/-- The value of a BF16 or FP16 matrix operand (R94). -/
def decodeWideOperand (f : Fmt) (c : Nat) : Dy × Bool :=
  match decodeWide f c with
  | .fin d => (d, false)
  | .inf n => (decodeMag f n f.maxCode, true)
  | .nan => (decodeMag f false f.maxCode, true)

/-- The value of a scale code and whether it is special (R74, R75). -/
def decodeScale (kind c : Nat) : Dy × Bool :=
  if kind = 1 then
    if c = 255 then (Dy.pow2 127, true) else (Dy.pow2 ((c : Int) - 127), false)
  else
    let e := c / 8 % 32
    let m := c % 8
    if e = 0 then (⟨false, m, -17⟩, false) else (⟨false, m + 8, (e : Int) - 18⟩, false)

/-- Whether a per-tensor scale is finite and positive (R76). -/
def goodTScale (w : Word32) : Bool :=
  match f32 w with
  | .fin d => !d.neg && decide (d.m ≠ 0)
  | _ => false

/-! ### Stochastic rounding (R86, R87) -/

def mix64 (x : Word64) : Word64 :=
  let a := (x ^^^ (x >>> 30)) * 0xBF58476D1CE4E5B9#64
  let b := (a ^^^ (a >>> 27)) * 0x94D049BB133111EB#64
  b ^^^ (b >>> 31)

/-- The 16-bit random value of one element (R87). -/
def randomOf (step tensor row col : Nat) : Nat :=
  let k := (row % 64) * 64 + col % 64
  let key0 : Word64 := (BitVec.ofNat 64 (step % 2 ^ 32) <<< 32) ||| BitVec.ofNat 64 (tensor % 2 ^ 32)
  let key1 : Word64 := (BitVec.ofNat 64 (row / 64 % 65536) <<< 48) |||
    (BitVec.ofNat 64 (col / 64 % 65536) <<< 32) ||| BitVec.ofNat 64 (k % 4096)
  (mix64 ((key0 ^^^ mix64 key1) + 0x9E3779B97F4A7C15#64) >>> 48).toNat

/-! ### Writing a block (R79 to R84) -/

/-- The result of one block: scale code, element codes, saturated elements, whether the scale was clamped. -/
structure BlockOut where
  scale : Nat
  elems : List Nat
  sat : Nat
  clamped : Bool
  deriving DecidableEq, Repr

/-- r_t of R79: the FP32 value nearest 1 / S_t, at most the largest finite one. -/
def recipTScale (st : Word32) : Dy :=
  let d := dyOfF32 st
  let c := roundMag fmtFP32 none 1 d.m (-d.e)
  decodeMag fmtFP32 false (if fmtFP32.maxCode < c then fmtFP32.maxCode else c)

/-- y of R79 for one input, and whether the product saturated. The product is rounded to FP32 for FP32 inputs. -/
def blockY (rt : Option Dy) (w48 : Bool) (x : Dy) : Dy × Bool :=
  match rt with
  | none => (x, false)
  | some r => if w48 then (x.mul r, false) else (x.mul r).roundSat fmtFP32

/-- The largest magnitude of a list. -/
def amaxOf (ys : List Dy) : Dy :=
  ys.foldl (fun a y => if a.lt y.abs then y.abs else a) (Dy.zero false)

/-- The smallest UE5M3 code whose value is not below n/d * 2^e (R81). -/
def ue5m3Ceil (n d : Nat) (e : Int) : Nat :=
  let ex := max (floorLog2 n d e) (-14)
  let p := scaleFrac n d (e - (ex - 3))
  let k := if p.1 % p.2 = 0 then p.1 / p.2 else p.1 / p.2 + 1
  (ex + 14).toNat * 8 + k

/-- The scale code of a block and whether it was clamped (R80, R81, R83). -/
def blockScale (kind : Nat) (el : Elem) (amax : Dy) : Nat × Bool :=
  if amax.m = 0 then (0, false)
  else if kind = 1 then
    let x := floorLog2 amax.m 1 amax.e - el.emax + 127
    if x < 0 then (0, true) else if 254 < x then (254, true) else (x.toNat, false)
  else
    let mx := decodeMag el.fmt false el.fmt.maxCode
    let c := ue5m3Ceil amax.m mx.m (amax.e - mx.e)
    if 255 < c then (255, true) else (c, false)

/-- INT8 has no negative zero and no sign bit apart: the zero of any sign is 0. -/
def blockZero (el : Elem) (neg : Bool) : Nat := if el = Elem.int8 then 0 else withSign el.fmt neg 0

/-- One element of a block (R82, R83); the random value only for stochastic writes. -/
def blockElem (el : Elem) (sc : Dy) (rnd : Rnd) (y : Dy) : Nat × Bool :=
  if sc.m = 0 then (blockZero el y.neg, false)
  else
    let c := roundMag el.fmt rnd y.m sc.m (y.e - sc.e)
    let sat := decide (el.fmt.maxCode < c)
    let c' := if sat then el.fmt.maxCode else c
    if el = Elem.int8 then (if y.neg then (256 - c') % 256 else c', sat)
    else (withSign el.fmt y.neg c', sat)

/-- One block of finite or non-finite inputs with their random values (R79 to R84). An element whose product and whose
quotient both saturate counts once (R102). -/
def writeBlock (fc : FmtCode) (rt : Option Dy) (w48 : Bool) (xs : List (FV × Nat)) : BlockOut :=
  let fin := xs.filterMap (fun p => match p.1 with
    | .fin d => some d
    | _ => none)
  let prods := fin.map (blockY rt w48)
  let ys := prods.map (·.1)
  let one (v : Nat) (d : Dy × Bool) (x : Nat) : Nat × Bool :=
    let r := blockElem fc.elem (decodeScale fc.scale v).1 (if fc.stoch then some x else none) d.1
    (r.1, r.2 || d.2)
  if fin.length = xs.length then
    let sc := blockScale fc.scale fc.elem (amaxOf ys)
    if (amaxOf ys).m = 0 then
      ⟨0, ys.map (fun y => blockZero fc.elem y.neg), 0, false⟩
    else
      let es := List.zipWith (one sc.1) prods (xs.map (·.2))
      ⟨sc.1, es.map (·.1), (es.filter (·.2)).length, sc.2⟩
  else
    let sc := if fc.scale = 1 then 254 else 255
    let es := xs.map (fun p => match p.1 with
      | .nan => (blockZero fc.elem false, true)
      | .inf n =>
        (if fc.elem = Elem.int8 then (if n then 129 else 127) else withSign fc.elem.fmt n fc.elem.fmt.maxCode, true)
      | .fin d => one sc (blockY rt w48 d) p.2)
    ⟨sc, es.map (·.1), (es.filter (·.2)).length, true⟩

/-! ### Packing of elements into bytes (R73) -/

/-- The code of element i in a plane of bits-wide elements that starts at the first byte of the list. -/
def unpackCode (bits : Nat) (bytes : List Byte) (i : Nat) : Nat :=
  let bit := bits * i
  let b0 := (bytes.getD (bit / 8) 0).toNat
  let b1 := (bytes.getD (bit / 8 + 1) 0).toNat
  (b0 + 256 * b1) / 2 ^ (bit % 8) % 2 ^ bits

/-- The little-endian number of a list of bytes (R6). -/
def leNat : List Byte → Nat
  | [] => 0
  | b :: r => b.toNat + 256 * leNat r

/-- n little-endian bytes of a number. -/
def leBytes : Nat → Nat → List Byte
  | 0, _ => []
  | n + 1, v => BitVec.ofNat 8 (v % 256) :: leBytes n (v / 256)

/-- Elements of a width packed into bytes, the first in the lowest bits (R73). -/
def packCodes (bits : Nat) (codes : List Nat) : List Byte :=
  let v := codes.foldr (fun c acc => c % 2 ^ bits + 2 ^ bits * acc) 0
  leBytes (bits * codes.length / 8) v

/-- The fixed adder tree of R128 and R163 over a list whose nodes may be absent: f joins two present children. -/
def treeStep {α : Type} (f : α → α → α) : List α → List α
  | [] => []
  | [a] => [a]
  | a :: b :: r => f a b :: treeStep f r

/-- The value at the root of the fixed tree, with fuel for its depth. -/
def treeRoot {α : Type} (f : α → α → α) (d : α) : Nat → List α → α
  | 0, l => l.headD d
  | n + 1, l =>
    match l with
    | [] => d
    | [a] => a
    | _ => treeRoot f d n (treeStep f l)

end Sys2Proof.Machine
end

