-- ==== Sys2Proof/Machine/StateCore.lean ====
section
/-! DEFINITION. The state of one logical core: contexts, matrix engine, tile queue, tile registers, semaphores, streams,
router join (spec/02, 04, 05, 06, 07, 08). -/

namespace Sys2Proof.Machine

/-- The state of a context (R173). -/
inductive CtxState where
  | idle | running | halted | faulted
  deriving DecidableEq, Repr

/-- Why a running context's head has not gone on (R187, R198, R205). -/
inductive HeadWait where
  | none
  | sem (sem : Nat) (v : Nat)
  deriving DecidableEq, Repr

/-- The replay mark of a context: its PC and s1 to s31 (R205, R207). -/
structure Mark where
  pc : Nat := 0
  regs : Tab Word64 := []
  deriving DecidableEq, Repr

/-- A context's clean mark, as the field supervisor holds it (R463). -/
structure CleanMark where
  pc : Nat := 0
  regs : Tab Word64 := []
  tileOrdinal : Nat := 0
  vecOrdinal : Nat := 0
  deriving DecidableEq, Repr

/-- One hardware context (R170). -/
structure Ctx where
  st : CtxState := .idle
  pc : Nat := 0
  regs : Tab Word64 := []
  rank : Nat := 0
  codeBase : Nat := 0
  codeLen : Nat := 0
  mark : Mark := {}
  /-- The context was loaded by an image (R212). -/
  enabled : Bool := false
  clean : CleanMark := {}
  nonfinite : Nat := 0
  firstNonfinite : Bool := false
  wait : HeadWait := .none
  /-- Sampled checks: FAIL verdicts since the previous CKWAIT (R205, R423). -/
  ckFails : Nat := 0
  /-- Tiles opened and vector instructions taken since the step's opening (R416). -/
  tileOrdinal : Nat := 0
  vecOrdinal : Nat := 0
  /-- A condition under which a clean mark of the context may not be used (R464). -/
  replayUnsafe : Bool := false
  /-- Consecutive refusals of the context's ready head by each shared unit (R178). -/
  refused : Tab Nat := []
  deriving DecidableEq, Repr

/-- The tile in progress in the array (R119, R120); element lists run in row-major order, empty where all are zero. -/
structure Tile where
  owner : Nat := 0
  t : List Word32 := []
  stA : Word32 := 0
  stB : Word32 := 0
  c : List Word32 := []
  u : List Word32 := []
  d : List Word32 := []
  z : List Word32 := []
  /-- Blocks, and elements of K of wide pairs, since the lanes were set (R122). -/
  blocks : Nat := 0
  wideK : Nat := 0
  /-- Instructions logged for the tile (R419). -/
  log : List Nat := []
  /-- The sampled check of the tile, where its draw picked it (R416, R419). -/
  check : Option Nat := none
  deriving DecidableEq, Repr

/-- The targets of a drained tile (R126, R191). -/
inductive Target where
  | queue
  | remoteAdd (core off sem : Nat)
  | remotePut (core off sem : Nat)
  | chainQueue (isem ioff : Nat)
  | chainPut (isem ioff core off sem : Nat)
  | spill (local_ : Bool) (addr : Nat) (add : Bool)
  deriving DecidableEq, Repr

/-- The drain buffer (R123, R124, R130). -/
structure Drain where
  tile : Tile
  target : Target
  pc : Nat
  /-- The tile queue entry reserved for the tile (R125, R153). -/
  entry : Option Nat := none
  /-- Held after a FAIL verdict until the integrity subsystem releases it (R130). -/
  failed : Bool := false
  /-- A spill to stack memory that has passed its check: held until its last granule is with the local port (R124, R133). -/
  spilled : Bool := false
  deriving DecidableEq, Repr

/-- A matrix instruction in the engine's next place, with the registers it has read (R175, R179). -/
structure MatNext where
  ctx : Nat
  pc : Nat
  op : Nat
  w : MatWord
  regs : Tab Word64
  deriving DecidableEq, Repr

/-- The states of a tile queue entry (R150). -/
inductive TqState where
  | free | reserved | ready | sending
  deriving DecidableEq, Repr

/-- One tile queue entry (R150 to R154). -/
structure TqEntry where
  st : TqState := .free
  owner : Nat := 0
  /-- The order of verdicts (R151). -/
  order : Nat := 0
  data : List Word32 := []
  /-- The chain step the entry waits for (R138). -/
  chain : Option Target := none
  deriving DecidableEq, Repr

/-- One semaphore (R199, R201). -/
structure Sem where
  value : Nat := 0
  overflow : Bool := false
  /-- SEM_OVERFLOW has been recorded in this step (R201). -/
  reported : Bool := false
  deriving DecidableEq, Repr

/-- One waiter of a semaphore (R200, R232). -/
inductive Waiter where
  | ctx (c : Nat)
  | stream (n : Nat)
  deriving DecidableEq, Repr

/-- The states of a stream (R226). -/
inductive StreamState where
  | unset | armed | running | done | stopped | held | faulted
  deriving DecidableEq, Repr

/-- A descriptor as the engine keeps it (R219, R220, R218). -/
structure Desc where
  kind : Nat := 0
  flags : Nat := 0
  fmt : Nat := 0
  tensor : Nat := 0
  srcMode : Nat := 0
  src : Nat := 0
  dstMode : Nat := 0
  dst : Nat := 0
  rowLen : Nat := 0
  rows : Nat := 0
  sStride : Nat := 0
  dStride : Nat := 0
  chunk : Nat := 0
  slots : Nat := 0
  site : Nat := 0
  fullSem : Nat := 0
  emptySem : Nat := 0
  sSlotStride : Nat := 0
  dSlotStride : Nat := 0
  version : Nat := 0
  deriving DecidableEq, Repr

/-- One outstanding request of a stream (R231). -/
structure Request where
  site : Nat
  addr : Nat
  len : Nat
  doff : Nat
  tag : Nat
  /-- The chunk the request belongs to. -/
  chunk : Nat
  /-- The first byte of the row, its length, and where its bytes land (R231). -/
  rowStart : Nat
  rowBytes : Nat
  land : Nat
  /-- Granules still expected. -/
  left : Nat
  deriving DecidableEq, Repr

/-- One stream (R226 to R229). -/
structure Stream where
  st : StreamState := .unset
  desc : Desc := {}
  ctx : Nat := 0
  cause : Nat := 0
  chunks : Nat := 0
  lastVer : Nat := 0
  /-- The row and the byte in it that the engine moves next (R230). -/
  row : Nat := 0
  byte : Nat := 0
  /-- The EMPTY wait of the current chunk: not reached, listed, or served (R232). -/
  emptyListed : Bool := false
  emptyServed : Bool := false
  reqs : List Request := []
  /-- CONTRIB granule sequence number (R259). -/
  seq : Nat := 0
  /-- Expected version of a GATHER in this run (R240). -/
  expect : Option Nat := none
  /-- CONTRIB: bytes of the granule that is being packed (R259). -/
  part : List Byte := []
  /-- Stopped while granules are in flight: the contexts that stopped it, and 4 for the supervisor (R187, R227). -/
  stopping : List Nat := []
  deriving DecidableEq, Repr

/-- A ring entry of the router (R258). -/
structure RingEntry where
  role : Nat := 0
  strict : Bool := false
  skd : Nat := 0
  succ : Nat := 0
  scred : Nat := 0
  landLen : Nat := 0
  landOff : Nat := 0
  deriving DecidableEq, Repr

/-- The state of one group's join at one core (R259 to R263). -/
structure Join where
  /-- Landed granules held: sequence number and slot, oldest first. -/
  landed : List (Nat × Nat) := []
  /-- Local granules held in the injection queue: sequence number and data. -/
  locals : List (Nat × List Byte) := []
  /-- Slot the next landed granule takes. -/
  nextSlot : Nat := 0
  freed : Nat := 0
  credits : Nat := 0
  /-- Pairs summed since the step's opening (R416). -/
  pairs : Nat := 0
  /-- The source of landed flits, to which RCREDIT goes (R260). -/
  pred : Nat := 0
  deriving DecidableEq, Repr

/-- The last granted master and the refusal runs of one bank port (R40, R41). -/
structure Port where
  last : Nat := 0
  waits : Tab Nat := []
  deriving DecidableEq, Repr

/-- One scrubber (R47). -/
structure Scrub where
  pos : Nat := 0
  idle : Nat := 0
  deriving DecidableEq, Repr

/-- A descriptor block that an SFETCH has asked for and that is not yet checked (R225). -/
structure Fetch where
  ctx : Nat
  pc : Nat
  half : Bool
  loc : Bool
  addr : Nat
  deriving DecidableEq, Repr

/-- What a core's own transfer with stack memory is for: a descriptor block (R224), the buffer of a RESUME (R134), the old
values of a SPILL that adds, or the new values of a SPILL (R133). -/
inductive CoreWork where
  | block | resume | spillRead | spillWrite
  deriving DecidableEq, Repr

/-- A transfer of a core's engines with stack memory: its outstanding requests and the bytes that have come (R133, R225). -/
structure CoreXfer where
  work : CoreWork
  ctx : Nat
  pc : Nat
  addr : Nat
  reqs : List Request
  data : List Byte := []
  bad : Bool := false
  /-- The instruction word of a RESUME, for the log of its tile (R419). -/
  word : Word64 := 0
  deriving DecidableEq, Repr

/-- One logical core on its site. -/
structure Core where
  ctxs : Tab Ctx := []
  tregs : Tab Word32 := []
  tile : Option Tile := none
  drain : Option Drain := none
  /-- The tile that holds at its cycle C, and the instruction in the next place (R124, R175, R177). -/
  atC : Option Drain := none
  matNext : Option MatNext := none
  /-- The matrix engine is stopped after a FAIL verdict (R130). -/
  stopped : Bool := false
  tq : Tab TqEntry := []
  tqOrder : Nat := 0
  sems : Tab Sem := []
  /-- Waiter list of each semaphore in the order taken: semaphore, waiter, v (R200). -/
  waiters : List (Nat × Waiter × Nat) := []
  streams : Tab Stream := []
  fetch : Option Fetch := none
  xfers : List CoreXfer := []
  /-- The stream that the engine served last (R230). -/
  served : Nat := 31
  /-- The stream engine is held (R236). -/
  held : Bool := false
  rings : Tab RingEntry := []
  joins : Tab Join := []
  /-- Semaphore values and router ordinals at the core's latest clean mark (R463, R466). -/
  cleanSems : Tab Nat := []
  cleanAdds : Nat := 0
  cleanPairs : Tab Nat := []
  /-- Device time of the core's latest clean mark (R471). -/
  cleanTime : Nat := 0
  /-- Bank D adds since the step's opening (R416). -/
  addOrdinal : Nat := 0
  /-- The next granule that a copy of sampled work takes in the core's share of its checker's area (R418). -/
  checkPos : Nat := 0
  ports : Tab Port := []
  scrubs : Tab Scrub := []
  /-- Corrected-symbol counts per bank (R45). -/
  corrected : Tab Nat := []
  /-- The last context each shared unit took; and one more than the context whose head a unit takes next, 0 for none (R178). -/
  lastTaken : Tab Nat := []
  turn : Tab Nat := []
  /-- The half's cycle count when CYCLE was last zero (R188). -/
  cycleBase : Nat := 0
  /-- LAST_CLEAN, and the steps in flight during which a sampled check has passed, or a check has failed (R435). -/
  lastClean : Nat := 0
  passedSteps : List Nat := []
  failedSteps : List Nat := []
  /-- Lane FAIL verdicts in this step (R426). -/
  laneFails : Nat := 0
  /-- Next write transfer tag of the stream engine (R287). -/
  nextTag : Nat := 0
  deriving DecidableEq, Repr

end Sys2Proof.Machine
end

