-- ==== Sys2Proof/Machine/EventCodes.lean ====
section
/-! DEFINITION. The event codes of the manual and their severities (spec/19 R594, R601, and the event tables). -/

namespace Sys2Proof.Machine

/-- The events of this manual. -/
inductive EventKind where
  | coreFenced
  | columnShifted
  | coreOutOfService
  | shiftAbandoned
  | linkStageFailed
  | tileCheckFailed
  | tileCheckNearMiss
  | flitHeaderBad
  | flitUncorrectable
  | flitUnexpected
  | checkTransient
  | checkPermanent
  | checkUnresolved
  | sampledCheckFailed
  | sampledCheckNearMiss
  | checkSkipped
  | integrityReplay
  | contaminationWindow
  | stressTestFailed
  | stackMiscorrection
  | riskChanged
  | cperDropped
  | opChanged
  | powerCapped
  | supplyDroop
  | feedFault
  | thermalThrottle
  | fieldBank
  | fieldActive
  | fieldCold
  | thermalCritical
  | sensorFault
  | pllUnlock
  | routeChanged
  | routeChangeAbandoned
  | routeImpossible
  | fieldKeptWarm
  | portDown
  | portUp
  | sitePortsLost
  | peerUnreachable
  | membershipApplied
  | membershipRefused
  | bucketMissed
  | fabricStall
  | fabricBackpressure
  | shardPutRefused
  | contribDropped
  | reducedDiscarded
  | memberLost
  | accessUnmapped
  | spadCorrected
  | spadUncorrectable
  | columnRecorded
  | repairStoreLimit
  | repairRecordIgnored
  | streamUncorrectable
  | stackCorrected
  | stackUncorrectable
  | stackFenced
  | rowHammerBlock
  | stackAccessRefused
  | regwriteRefused
  | sessionOpened
  | sessionFailed
  | sessionLocked
  | sessionClosed
  | linkDegraded
  | hostAccessError
  | bar2Refused
  | doorbellInvalid
  | ringError
  | commandRefused
  | commandState
  | cqFull
  | firmwareUpdated
  | firmwareRejected
  | secverRaised
  | keyChanged
  | firmwareFault
  | recoveryEntered
  | tileDiscarded
  | matrixStateError
  | programIllegal
  | programStateError
  | semOverflow
  | imageRejected
  | streamFault
  | gatherVersionMismatch
  | ringMismatch
  | netBackpressure
  | temperRejected
  | numericSaturation
  | nonfiniteRaised
  | layoutRejected
  | fallbackApplied
  | fallbackExhausted
  | phaseSwitched
  | stepCommitted
  | stepSkipped
  | stepVersionReplay
  | microbatchDropped
  | updateFault
  | commitInterrupted
  | snapshotTaken
  | snapshotFailed
  | restoreDone
  | restoreFailed
  | coreReplay
  | coreDeathReplay
  | jobRestarted
  | quenched
  | quenchReleased
  | logCleared
  | logFull
  deriving DecidableEq, Repr

/-- CODE of an event (R594). -/
def EventKind.code : EventKind → Nat
  | .coreFenced => 0x1301
  | .columnShifted => 0x1302
  | .coreOutOfService => 0x1303
  | .shiftAbandoned => 0x1304
  | .linkStageFailed => 0x1305
  | .tileCheckFailed => 0x1401
  | .tileCheckNearMiss => 0x1402
  | .flitHeaderBad => 0x1801
  | .flitUncorrectable => 0x1802
  | .flitUnexpected => 0x1803
  | .checkTransient => 0x1D01
  | .checkPermanent => 0x1D02
  | .checkUnresolved => 0x1D03
  | .sampledCheckFailed => 0x1D04
  | .sampledCheckNearMiss => 0x1D05
  | .checkSkipped => 0x1D06
  | .integrityReplay => 0x1D07
  | .contaminationWindow => 0x1D08
  | .stressTestFailed => 0x1D09
  | .stackMiscorrection => 0x1D0A
  | .riskChanged => 0x1D0B
  | .cperDropped => 0x1D0C
  | .opChanged => 0x2701
  | .powerCapped => 0x2702
  | .supplyDroop => 0x2703
  | .feedFault => 0x2704
  | .thermalThrottle => 0x2705
  | .fieldBank => 0x2706
  | .fieldActive => 0x2707
  | .fieldCold => 0x2708
  | .thermalCritical => 0x2709
  | .sensorFault => 0x270A
  | .pllUnlock => 0x270B
  | .routeChanged => 0x2801
  | .routeChangeAbandoned => 0x2802
  | .routeImpossible => 0x2803
  | .fieldKeptWarm => 0x2A11
  | .portDown => 0x3C01
  | .portUp => 0x3C02
  | .sitePortsLost => 0x3C03
  | .peerUnreachable => 0x3C04
  | .membershipApplied => 0x3C05
  | .membershipRefused => 0x3C06
  | .bucketMissed => 0x3C07
  | .fabricStall => 0x3C08
  | .fabricBackpressure => 0x3C09
  | .shardPutRefused => 0x3C0A
  | .contribDropped => 0x3C0B
  | .reducedDiscarded => 0x3C0C
  | .memberLost => 0x3E01
  | .accessUnmapped => 0x4101
  | .spadCorrected => 0x4201
  | .spadUncorrectable => 0x4202
  | .columnRecorded => 0x4203
  | .repairStoreLimit => 0x4204
  | .repairRecordIgnored => 0x4205
  | .streamUncorrectable => 0x4701
  | .stackCorrected => 0x4901
  | .stackUncorrectable => 0x4902
  | .stackFenced => 0x4903
  | .rowHammerBlock => 0x4904
  | .stackAccessRefused => 0x4905
  | .regwriteRefused => 0x5001
  | .sessionOpened => 0x5E01
  | .sessionFailed => 0x5E02
  | .sessionLocked => 0x5E03
  | .sessionClosed => 0x5E04
  | .linkDegraded => 0x5F01
  | .hostAccessError => 0x5F02
  | .bar2Refused => 0x5F03
  | .doorbellInvalid => 0x5F04
  | .ringError => 0x5F05
  | .commandRefused => 0x5F06
  | .commandState => 0x5F07
  | .cqFull => 0x5F08
  | .firmwareUpdated => 0x6E01
  | .firmwareRejected => 0x6E02
  | .secverRaised => 0x6E03
  | .keyChanged => 0x6E04
  | .firmwareFault => 0x6E05
  | .recoveryEntered => 0x6E06
  | .tileDiscarded => 0x7401
  | .matrixStateError => 0x7402
  | .programIllegal => 0x7601
  | .programStateError => 0x7602
  | .semOverflow => 0x7603
  | .imageRejected => 0x7604
  | .streamFault => 0x7701
  | .gatherVersionMismatch => 0x7702
  | .ringMismatch => 0x7801
  | .netBackpressure => 0x7802
  | .temperRejected => 0x7901
  | .numericSaturation => 0x7A01
  | .nonfiniteRaised => 0x7A02
  | .layoutRejected => 0x7A11
  | .fallbackApplied => 0x7A12
  | .fallbackExhausted => 0x7A13
  | .phaseSwitched => 0x7A14
  | .stepCommitted => 0x7B01
  | .stepSkipped => 0x7B02
  | .stepVersionReplay => 0x7B03
  | .microbatchDropped => 0x7B04
  | .updateFault => 0x7B05
  | .commitInterrupted => 0x7B06
  | .snapshotTaken => 0x7E01
  | .snapshotFailed => 0x7E02
  | .restoreDone => 0x7E03
  | .restoreFailed => 0x7E04
  | .coreReplay => 0x7E05
  | .coreDeathReplay => 0x7E06
  | .jobRestarted => 0x7E07
  | .quenched => 0x7F01
  | .quenchReleased => 0x7F02
  | .logCleared => 0xF001
  | .logFull => 0xF002

/-- Severity of an event (R601). -/
def EventKind.severity : EventKind → Nat
  | .coreFenced => 2
  | .columnShifted => 1
  | .coreOutOfService => 3
  | .shiftAbandoned => 2
  | .linkStageFailed => 3
  | .tileCheckFailed => 3
  | .tileCheckNearMiss => 1
  | .flitHeaderBad => 2
  | .flitUncorrectable => 3
  | .flitUnexpected => 2
  | .checkTransient => 2
  | .checkPermanent => 3
  | .checkUnresolved => 2
  | .sampledCheckFailed => 2
  | .sampledCheckNearMiss => 1
  | .checkSkipped => 1
  | .integrityReplay => 2
  | .contaminationWindow => 3
  | .stressTestFailed => 3
  | .stackMiscorrection => 2
  | .riskChanged => 1
  | .cperDropped => 2
  | .opChanged => 0
  | .powerCapped => 1
  | .supplyDroop => 2
  | .feedFault => 3
  | .thermalThrottle => 2
  | .fieldBank => 1
  | .fieldActive => 0
  | .fieldCold => 1
  | .thermalCritical => 3
  | .sensorFault => 2
  | .pllUnlock => 3
  | .routeChanged => 1
  | .routeChangeAbandoned => 2
  | .routeImpossible => 3
  | .fieldKeptWarm => 2
  | .portDown => 2
  | .portUp => 0
  | .sitePortsLost => 3
  | .peerUnreachable => 2
  | .membershipApplied => 0
  | .membershipRefused => 2
  | .bucketMissed => 2
  | .fabricStall => 2
  | .fabricBackpressure => 1
  | .shardPutRefused => 3
  | .contribDropped => 2
  | .reducedDiscarded => 2
  | .memberLost => 3
  | .accessUnmapped => 2
  | .spadCorrected => 0
  | .spadUncorrectable => 3
  | .columnRecorded => 1
  | .repairStoreLimit => 2
  | .repairRecordIgnored => 2
  | .streamUncorrectable => 3
  | .stackCorrected => 0
  | .stackUncorrectable => 3
  | .stackFenced => 3
  | .rowHammerBlock => 1
  | .stackAccessRefused => 1
  | .regwriteRefused => 1
  | .sessionOpened => 0
  | .sessionFailed => 2
  | .sessionLocked => 2
  | .sessionClosed => 0
  | .linkDegraded => 2
  | .hostAccessError => 3
  | .bar2Refused => 1
  | .doorbellInvalid => 1
  | .ringError => 3
  | .commandRefused => 1
  | .commandState => 1
  | .cqFull => 1
  | .firmwareUpdated => 1
  | .firmwareRejected => 2
  | .secverRaised => 1
  | .keyChanged => 1
  | .firmwareFault => 3
  | .recoveryEntered => 2
  | .tileDiscarded => 2
  | .matrixStateError => 3
  | .programIllegal => 3
  | .programStateError => 3
  | .semOverflow => 2
  | .imageRejected => 2
  | .streamFault => 3
  | .gatherVersionMismatch => 2
  | .ringMismatch => 3
  | .netBackpressure => 1
  | .temperRejected => 2
  | .numericSaturation => 1
  | .nonfiniteRaised => 2
  | .layoutRejected => 2
  | .fallbackApplied => 2
  | .fallbackExhausted => 3
  | .phaseSwitched => 0
  | .stepCommitted => 0
  | .stepSkipped => 2
  | .stepVersionReplay => 2
  | .microbatchDropped => 2
  | .updateFault => 3
  | .commitInterrupted => 3
  | .snapshotTaken => 0
  | .snapshotFailed => 2
  | .restoreDone => 0
  | .restoreFailed => 3
  | .coreReplay => 2
  | .coreDeathReplay => 2
  | .jobRestarted => 2
  | .quenched => 2
  | .quenchReleased => 1
  | .logCleared => 1
  | .logFull => 3

end Sys2Proof.Machine
end

