-- ==== Sys2Proof/Machine/StateJob.lean ====
section
/-! DEFINITION. Job contexts, layouts and their tables as the device keeps them (spec/10). -/

namespace Sys2Proof.Machine

/-- The state of a job context, as DEVSTATE encodes it (R510). -/
inductive JobState where
  | empty | loaded | running | quenched | restoring | failed
  deriving DecidableEq, Repr

/-- A rectangle of logical cores (R315). -/
structure Rect where
  row0 : Nat := 0
  col0 : Nat := 0
  rowsM1 : Nat := 0
  colsM1 : Nat := 0
  deriving DecidableEq, Repr

/-- A stack region entry (R291). -/
structure MemRegion where
  base : Nat
  granules : Nat
  kind : Nat
  job : Nat
  deriving DecidableEq, Repr

/-- A region entry of a layout (R315). -/
structure Region where
  rect : Rect
  image : Nat
  strict : Bool
  deriving DecidableEq, Repr

/-- A tensor entry (R318). -/
structure Tensor where
  tensor : Nat
  fmt : Nat
  producer : Nat
  rows : Nat
  cols : Nat
  kind : Nat
  policy : Nat
  bucket : Nat
  addr : Nat
  deriving DecidableEq, Repr

/-- A group entry with its member list (R321). -/
structure Group where
  group : Nat
  strict : Bool
  site : Nat
  landLen : Nat
  landOff : Nat
  members : List Nat
  deriving DecidableEq, Repr

/-- A stream table entry (R323). -/
structure StreamEntry where
  core : Nat
  stream : Nat
  count : Nat
  endWord : Nat
  deriving DecidableEq, Repr

/-- One ring-entry patch of a fallback variant (R326). -/
structure Patch where
  core : Nat
  group : Nat
  entry : Nat
  deriving DecidableEq, Repr

/-- A fallback entry (R325). -/
structure Fallback where
  region : Nat
  trigger : Nat
  id : Nat
  image : Nat
  rect : Rect
  patches : List Patch
  deriving DecidableEq, Repr

/-- An image directory entry (R324). -/
structure ImageEntry where
  offset : Nat
  size : Nat
  deriving DecidableEq, Repr

/-- A re-shard entry (R337). -/
structure Reshard where
  out : Bool
  tensor : Nat
  addr : Nat
  bytes : Nat
  deriving DecidableEq, Repr

/-- A layout manifest as checked (R313). -/
structure Layout where
  phase : Nat := 0
  mode : Nat := 0
  regions : List Region := []
  groups : List Group := []
  tensors : List Tensor := []
  streams : List StreamEntry := []
  fallbacks : List Fallback := []
  images : List ImageEntry := []
  reshards : List Reshard := []
  deriving DecidableEq, Repr

/-- A layout slot: where the manifest stands in the layout store, and the manifest (R311). -/
structure Slot where
  granule : Nat
  granules : Nat
  layout : Layout
  deriving DecidableEq, Repr

/-- A running PHASE_SWITCH (R334). -/
structure Switch where
  slot : Nat
  ring : Nat
  taking : Nat
  started : Nat
  /-- Variants chosen in R333: region and index in the fallback table. -/
  variants : List (Nat × Nat)
  /-- The reshard flag, and when the re-shard ended (R338, R339). -/
  reshard : Bool := false
  reshardEnd : Option Nat := none
  /-- PERMUTE blocks without an APPLIED, by tensor and offset (R338, R409). -/
  outLeft : List (Nat × Nat) := []
  /-- IN bytes not yet written: tensor, first offset and the offset behind the last (R409). -/
  inLeft : List (Nat × Nat × Nat) := []
  deriving DecidableEq, Repr

/-- The state of a step (R349). -/
inductive StepState where
  | waiting | open_ | backwardDone | normKnown | committed | skipped
  deriving DecidableEq, Repr

/-- A bucket's summary as a site holds it (R404). -/
structure Summary where
  ntok : Nat
  chunks : Nat
  bytes : Nat
  deriving DecidableEq, Repr

/-- What the norm bucket's summary brings (R353, R404). -/
structure NormIn where
  sumsq : Nat
  nonfin : Nat
  gtokens : Nat
  missed : List Nat
  deriving DecidableEq, Repr

/-- One owned bucket of a step (R347, R352). -/
structure OwnedBucket where
  bucket : Nat
  gaddr : Nat
  strict : Bool := false
  /-- Data chunks of REDUCED landed so far. -/
  landed : Nat := 0
  summary : Option Summary := none
  /-- The bucket accumulator A_b at 2^-320 (R352). -/
  acc : Nat := 0
  /-- The entry of the bucket table is on its way; it has been written (R347). -/
  writing : Bool := false
  written : Bool := false
  published : Bool := false
  deriving DecidableEq, Repr

/-- Contribution progress of one bucket of a step (R350, R402, R433). -/
structure SentBucket where
  bucket : Nat
  /-- Bytes the module contributes to the bucket. -/
  bytes : Nat
  /-- Chunks sent: offset, site, length. -/
  chunks : List (Nat × Nat × Nat) := []
  confirmed : Bool := false
  missed : Bool := false
  /-- The number of the next check when the last chunk was sent. -/
  mark : Nat := 0
  deriving DecidableEq, Repr

/-- An owned range of buckets (R392). -/
structure OwnedRange where
  first : Nat
  count : Nat
  base : Nat
  site : Nat
  deriving DecidableEq, Repr

/-- A step in flight or waiting to open (R342 to R350). -/
structure StepRun where
  n : Nat
  temper : Bool
  noclip : Bool
  osem : Nat
  dsem : Nat
  noff : Nat
  tau : Nat
  tokens : Nat
  btab : Nat
  btabn : Nat
  result : Nat
  /-- The taking of its command: ring and taking number. -/
  ring : Nat
  taking : Nat
  st : StepState := .waiting
  gver : Nat := 0
  replays : Nat := 0
  integrityReplays : Nat := 0
  deathReplays : Nat := 0
  dropped : Bool := false
  missedSelf : Bool := false
  fallback : Bool := false
  openedAt : Nat := 0
  /-- NONFINITE counts of contexts 0 and 1 read at BACKWARD_DONE (R350). -/
  nonfin01 : Nat := 0
  owned : List OwnedBucket := []
  sentBuckets : List SentBucket := []
  normSent : Bool := false
  /-- The module accumulator M summed over the sites, at 2^-1074 (R352). -/
  normM : Nat := 0
  siteNonfin : Nat := 0
  commit : Bool := false
  reason : Nat := 0
  sumsq : Nat := 0
  norm : Nat := 0
  clip : Nat := 0
  nonfin : Nat := 0
  gtokens : Nat := 0
  normIn : Option NormIn := none
  /-- A pass replay took place during the step (R374, R470). -/
  passReplayed : Bool := false
  /-- The micro-batch is being replayed (R401). -/
  again : Bool := false
  /-- Extents into which REDUCED data was placed, zeroed on a SKIP (R358). -/
  placed : List (Nat × Nat) := []
  /-- The first temper command reported to the HID with a STATUS other than DONE or a SPECIAL above zero: site and
  status (R361). -/
  temperBad : Option (Nat × Nat) := none
  /-- Saturation counts (R103): those of routers and sites at the opening, and those of the cores' sets that have been
  reset since: SAT_ELEMENT, SAT_SCALE, SPECIAL_INPUT. -/
  satBase : Nat × Nat × Nat := (0, 0, 0)
  satKept : Nat × Nat × Nat := (0, 0, 0)
  deriving DecidableEq, Repr

/-- A running restore (R455, R456): what it names, and the pieces of the snapshot fetched so far. -/
structure RestoreRun where
  mode : Nat
  source : Nat
  owner : Nat
  generation : Nat
  extents : List (Nat × Nat × Nat)
  ring : Nat
  taking : Nat
  got : List (Nat × List Byte) := []
  /-- A fetch was answered with UNKNOWN or RANGE (R457). -/
  failed : Bool := false
  deriving DecidableEq, Repr

/-- A drain that is running, and what it is for (R60, R328, R367, R370). -/
inductive DrainFor where
  | replay | integrity | fallback | shift | drop | classify
  deriving DecidableEq, Repr

/-- One job context (R307). -/
structure Job where
  st : JobState := .empty
  fy0 : Nat := 0
  fx0 : Nat := 0
  fh : Nat := 0
  fw : Nat := 0
  /-- The manifest's stack region entries, in entry order (R291, R308). -/
  regions : List MemRegion := []
  lstore : Nat := 0
  lsgran : Nat := 0
  slots : Tab (Option Slot) := []
  active : Option Nat := none
  switch : Option Switch := none
  /-- Variants in force: region and index in the fallback table (R327). -/
  variants : List (Nat × Nat) := []
  /-- Variants chosen and not yet in force: region and index in the fallback table (R327, R328). -/
  wanted : List (Nat × Nat) := []
  /-- When the drain that is running began (R339). -/
  drainStart : Nat := 0
  /-- A PHASE_SWITCH has completed since the job context last left RUNNING or was loaded (R493). -/
  switchFresh : Bool := false
  /-- The parameter version V (R340). -/
  version : Nat := 0
  /-- The previous STEP's number, or the VERSION that a restore brought (R343, R456); MFS STEP (R188). -/
  lastStep : Option Nat := none
  mfsStep : Nat := 0
  steps : List StepRun := []
  draining : Option DrainFor := none
  /-- The JOB_STOP being carried out: ring and taking number (R493). -/
  stopping : Option (Nat × Nat) := none
  fgroup : Option Nat := none
  /-- Bucket size in units of 4 MiB (R392). -/
  zunit : Nat := 8
  owned : List OwnedRange := []
  restore : Option RestoreRun := none
  /-- The last step's micro-batch was dropped; the contexts stay halted until the next step opens (R370). -/
  dropped : Bool := false
  /-- EN and RATE as latched when a step opened (R516). -/
  latched : Option (Bool × Nat) := none
  /-- The lost core whose work is to be done again when the drain ends (R465). -/
  lost : Option Nat := none
  /-- The tensor, expected and received version of the fault that the drain is for (R375). -/
  failVersion : Option (Nat × Nat × Nat) := none
  deriving DecidableEq, Repr

end Sys2Proof.Machine
end

