-- ==== Sys2Proof/Machine/StateModule.lean ====
section
/-! DEFINITION. The module's state outside the cores: network, wafer and repair, sites and stacks, fabric, host interface,
registers, security, clocks, integrity, recovery, observability (spec/01, 02, 08, 09, 12 to 20). -/

namespace Sys2Proof.Machine

/-! ### Observability (spec/19) -/

/-- One counter set (R570, R573). -/
structure CounterSet where
  epoch : Nat := 0
  vals : Tab Nat := []
  deriving DecidableEq, Repr

/-- One record of the event log (R594). -/
structure Record where
  time : Nat
  seq : Nat
  kind : EventKind
  skind : Nat
  source : Nat
  last : Nat
  rep : Nat
  payload : List Byte
  deriving DecidableEq, Repr

/-- Trace configuration and queue (R583, R584). -/
structure Trace where
  types : Nat := 0
  enable : Bool := false
  ctxMask : Nat := 0
  rect : Rect := {}
  sources : Nat := 0
  queue : List (Nat × Nat) := []
  dropPending : Nat := 0
  slot : Nat := 0
  syncDue : Bool := false
  /-- The 16-byte record that the port sent in the last slot. -/
  lastSent : Nat := 0
  deriving DecidableEq, Repr

/-- What one unit captured in a quench (R586, R587, R592, R593). -/
structure Capture where
  time : Nat
  /-- The CAUSE byte: 1 ORDER, or 2 MARKER with its link. -/
  cause : Nat
  /-- The unit's own part of its record. -/
  record : List Byte
  /-- The unit's inbound links at its capture. -/
  links : List Nat
  /-- Channels on which the MARKER has arrived; flits counted before it, and their first headers, by channel. -/
  markers : List Nat := []
  counts : Tab Nat := []
  headers : Tab (List Nat) := []
  deriving DecidableEq, Repr

/-- The quench (R585 to R593). -/
structure Quench where
  active : Bool := false
  complete : Bool := false
  /-- Fields whose supervisor has the QUENCH message of the active quench (R29, R585). -/
  reached : List Nat := []
  /-- A quench has occurred since the last reset (R591). -/
  everDone : Bool := false
  cause : Nat := 0
  started : Nat := 0
  completed : Nat := 0
  incomplete : Nat := 0
  cores : Tab (Option Capture) := []
  sites : Tab (Option Capture) := []
  hid : Option Capture := none
  jobsBefore : Tab Nat := []
  opWest : Nat := 0
  opEast : Nat := 0
  netMode : Bool := false
  powers : Tab Nat := []
  /-- The taking of the QUENCH command: ring and number. -/
  cmd : Option (Nat × Nat) := none
  deriving DecidableEq, Repr

/-- The observability state. -/
structure Obs where
  cores : Tab CounterSet := []
  routers : Tab CounterSet := []
  sites : Tab CounterSet := []
  jobs : Tab CounterSet := []
  /-- The event log with what the HID buffer holds, and the log as the flash holds it, oldest first (R597). -/
  log : List Record := []
  flash : List Record := []
  nextSeq : Nat := 0
  full : Bool := false
  lost : Tab Nat := []
  /-- The flash is mounted (R597, R603). -/
  flashReady : Bool := false
  trDrop : Nat := 0
  trace : Trace := {}
  quench : Quench := {}
  deriving DecidableEq, Repr

/-! ### Network (spec/08) -/

/-- A flit between its injection and its delivery: the router that holds it, and the input whose buffer it stands in
(R248, R252): 0 north, 1 east, 2 south, 3 west, 4 attach, 5 local injection. DESIGN CHOICE (assumption log 10). -/
structure Flight where
  at_ : Nat
  flit : Flit
  link : Nat := 5
  /-- The receiver of an east or west input: 0, 1 and 2 for a sender one physical row north, level and one row south (R38). -/
  recv : Nat := 1
  /-- The flit stands in the seam FIFO before the receiver (R266). -/
  seam : Bool := false
  /-- The cycle count of the router's half since which the flit heads its buffer (R251). -/
  since : Nat := 0
  /-- The tile queue entry that holds the flit until its injection (R126, R150). -/
  entry : Option Nat := none
  deriving DecidableEq, Repr

/-- Network state common to all routers. -/
structure Net where
  /-- Flits in injection queues, attach queues, seam FIFOs and input buffers, each buffer's oldest first. -/
  flights : List Flight := []
  /-- Flits that stand at their producers, in order: their injection queue is full, or injection is stopped (R252, R271,
  R276, R590). -/
  waiting : List Flight := []
  expansive : Bool := false
  /-- Cold-field map and out-of-service map, as every router holds them (R268). -/
  cold : List Nat := []
  oos : List Nat := []
  /-- A route pause: the field, whether it goes cold, when it began (R271). -/
  pause : Option (Nat × Bool × Nat) := none
  /-- Fields out of service under R57 whose route pause waits for the end of another (R272). -/
  pauseNext : List Nat := []
  /-- Injection stopped at every router (R586, R271). -/
  stopped : Bool := false
  /-- Last VC granted per router output, and the last input served per router output and VC (R251). -/
  lastGrant : Tab Nat := []
  lastInput : Tab Nat := []
  deriving DecidableEq, Repr

/-! ### Wafer and repair (spec/02) -/

/-- The states of a site (R36). -/
inductive SiteState where
  | inService | spare | spareTesting | fenced
  deriving DecidableEq, Repr

/-- A column shift under way (R60). -/
structure Shift where
  row : Nat
  started : Nat
  /-- The fence has cause ROUTER: the drain lasts a fixed 20 µs. -/
  router : Bool := false
  /-- When step 3's drain ended; none before (R60, R66). -/
  drained : Option Nat := none
  deriving DecidableEq, Repr

/-- The message classes of the management mesh, most urgent first (R28). -/
inductive MeshClass where
  | quench | fault | thermal | command | report
  deriving DecidableEq, Repr

def MeshClass.value : MeshClass → Nat
  | .quench => 0 | .fault => 1 | .thermal => 2 | .command => 3 | .report => 4

/-- What a field supervisor is told over the management mesh (R25, R28): quench its field, a core of it is lost, enter or leave
the bank state, start a job context, return an event towards the HID. -/
inductive MeshMsg where
  | quench
  | lost (core : Nat)
  | bank
  | wake
  | start (job : Nat)
  | report (kind : EventKind) (fields : List (Nat × Nat))
  deriving DecidableEq, Repr

def MeshMsg.cls : MeshMsg → MeshClass
  | .quench => .quench
  | .lost _ => .fault
  | .bank => .thermal
  | .wake => .thermal
  | .start _ => .command
  | .report _ _ => .report

structure Wafer where
  /-- Site states by column * 9 + physical row; default by row (R36). -/
  sites : Tab (Option SiteState) := []
  /-- Physical row from which each field column is shifted (R58). -/
  shifted : Tab (Option Nat) := []
  shifts : Tab (Option Shift) := []
  /-- Fields out of service for a failed link stage (R57). -/
  linkOut : List Nat := []
  /-- Repair store: records in store order (R54). -/
  store : List Word64 := []
  /-- Sites fenced with cause ROUTER, by column * 9 + physical row: their routers do not forward (R26, R59). -/
  deadRouters : List Nat := []
  /-- Fields whose supervisor does not answer (R519, R604). -/
  deadSups : List Nat := []
  /-- Corrected words seen since boot: site * 4 + bank and the 288-bit column place (R53). -/
  tally : List (Nat × Nat × Nat) := []
  /-- Redundant columns used by fuses: column key and mask (R52). -/
  fuses : Tab Nat := []
  deriving DecidableEq, Repr

/-! ### Sites (spec/09, 12) -/

/-- The states of a stack site (R283). -/
inductive StackState where
  | online | fencedBoot | fencedRun
  deriving DecidableEq, Repr

/-- A write request at a stack site that still expects data (R288). -/
structure OpenWrite where
  src : Nat
  /-- The requester is an I/O die site (R397). -/
  fromSite : Bool := false
  tag : Nat
  addr : Nat
  len : Nat
  ctx : Nat
  done : Nat
  refused : Bool
  uncorrectable : Bool
  deriving DecidableEq, Repr

/-- What a share of a TEMPER command has done so far. -/
structure TShare where
  elems : Nat := 0
  sat : Nat := 0
  scales : Nat := 0
  special : Nat := 0
  bad : Bool := false
  deriving DecidableEq, Repr

/-- A TEMPER command held by a unit (R299, R303). -/
structure TemperCmd where
  core : Nat
  job : Nat
  alg : Nat
  flags : Nat
  rsem : Nat
  step : Nat
  paddr : Nat
  roff : Nat
  started : Nat
  /-- The place of its next granule among those of its share, and what the share has done before it (R305). -/
  next : Nat := 0
  share : TShare := {}
  deriving DecidableEq, Repr

structure StackSite where
  st : StackState := .online
  temp : Int := 0
  /-- The stack has been at 95 °C and not below 90 °C since (R537); the cycle of its last admission from the mesh. -/
  hot : Bool := false
  lastAdmit : Option Nat := none
  writes : List OpenWrite := []
  /-- READ requests accepted behind their source's open WRITEs to the same 4 KiB granule, with the tags of those (R290). -/
  held : List (Flit × List Nat) := []
  temper : List TemperCmd := []
  /-- READ requests served (R424). -/
  reads : Nat := 0
  /-- Uncorrectable words in the running second: pseudo-channel and time (R284). -/
  unc : List (Nat × Nat) := []
  /-- Activation counts per bank, and banks that take no activation (R294). -/
  acts : Tab Nat := []
  blocked : List Nat := []
  /-- The 100 µs interval of the last ROW_HAMMER_BLOCK (R294). -/
  rfmInterval : Option Nat := none
  deriving DecidableEq, Repr

/-! ### Fabric (spec/12) -/

/-- The states of a fabric port (R379). -/
inductive PortState where
  | dark | down | training | up | fenced
  deriving DecidableEq, Repr

/-- A fabric port: its state, its run of HEARTBEATs, and when the last one came (R379). -/
structure FPort where
  st : PortState := .down
  beats : Nat := 0
  beatAt : Nat := 0
  deriving DecidableEq, Repr

/-- A message of a Jukuval connection (R383). -/
structure Msg where
  seq : Nat
  typ : Nat
  tag : Nat
  obj : Nat
  offset : Nat
  count : Nat
  version : Nat
  mflags : Nat
  status : Nat
  rtype : Nat
  payload : List Byte
  sends : Nat := 0
  deriving DecidableEq, Repr

/-- A connection of a site with a server (R383 to R385). -/
structure Conn where
  group : Nat
  site : Nat
  server : Nat
  nextSeq : Nat := 0
  /-- The next sequence number expected from the server. -/
  expect : Nat := 0
  /-- The server's CREDIT; none until a message has arrived from it (R385). -/
  credit : Option Nat := none
  /-- Messages that arrived ahead of a gap, with their port, and whether the zero fields of their headers are zero. -/
  held : List (Nat × Msg × Bool) := []
  /-- Messages that wait for credit, oldest first. -/
  queue : List Msg := []
  unacked : List Msg := []
  sinceAck : Nat := 0
  /-- The CREDIT that the device last sent (R384). -/
  sentCredit : Nat := 512
  deriving DecidableEq, Repr

/-- A fabric group (R391). -/
structure FGroup where
  member : Nat := 0
  members : Nat := 0
  epoch : Nat := 0
  live : List Nat := []
  servers : List Nat := []
  deriving DecidableEq, Repr

/-- A GATHER that an I/O die site has sent on (R396). -/
structure GatherReq where
  core : Nat
  ctx : Nat
  tag : Nat
  obj : Nat
  plane : Nat
  offset : Nat
  len : Nat
  doff : Nat
  version : Nat
  deriving DecidableEq, Repr

/-- A PUBLISH that an I/O die site is carrying out (R407). -/
structure PublishReq where
  core : Nat
  job : Nat
  step : Nat
  bucket : Nat
  obj : Nat
  plane : Nat
  final : Bool
  doff : Nat
  rsem : Nat
  /-- Offsets of SHARD-PUT messages that have no APPLIED with OK yet, and how many were sent. -/
  left : List Nat
  sent : Nat
  deriving DecidableEq, Repr

/-- A contribution stream opened at a site by a CONTRIB_OPEN (R398). -/
structure ContribOpen where
  core : Nat
  ctx : Nat
  group : Nat
  job : Nat
  tensor : Nat
  offset : Nat
  bytes : Nat
  seen : Nat := 0
  deriving DecidableEq, Repr

/-- A chunk being formed at a site (R400, R401): its first byte in the tensor's outbound bytes, and its bytes. -/
structure Chunk where
  job : Nat
  group : Nat
  tensor : Nat
  offset : Nat
  strict : Bool
  data : List Byte
  /-- Bytes not yet present. -/
  left : Nat
  bad : Bool := false
  deriving DecidableEq, Repr

/-- One element of an exact accumulator: an integer at 2^-149, and flags (R400). -/
structure ExactElem where
  sum : Int := 0
  pinf : Bool := false
  ninf : Bool := false
  nan : Bool := false
  deriving DecidableEq, Repr

/-- A slot of 16 exact accumulators (R400). -/
structure ExactSlot where
  job : Nat
  group : Nat
  tensor : Nat
  offset : Nat
  count : Nat
  bad : Bool
  elems : List ExactElem
  deriving DecidableEq, Repr

/-- A granule that stands in a slot of a sender's window (R399). -/
structure LandedGranule where
  core : Nat
  group : Nat
  strict : Bool
  data : List Byte
  /-- A word of the granule was not delivered (R429). -/
  bad : Bool
  deriving DecidableEq, Repr

/-- What an I/O die site does once its requests to stack memory have completed (R397). -/
inductive IoWork where
  /-- The bytes of a publication have been read (R407). -/
  | publish (q : PublishReq)
  /-- A chunk of reduced data has been written: job context, step, bucket (R404). -/
  | reduced (job step bucket : Nat)
  /-- An entry of the bucket table has been written (R347). -/
  | entry (job step bucket : Nat)
  /-- Bytes of a re-shard have been written, for the message of a server (R409). -/
  | permuteIn (group server job : Nat) (m : Msg)
  /-- A block of a re-shard has been read: fabric group, tensor, offset (R409). -/
  | permuteOut (group tensor offset : Nat)
  /-- Bytes of a region have been written, for the message of a server (R410). -/
  | partnerPut (group server : Nat) (m : Msg)
  /-- Bytes of a partner copy have been written, for the message of a server (R452). -/
  | partnerCopy (group server job : Nat) (m : Msg)
  /-- Bytes that a server has asked for have been read (R410, R453). -/
  | partnerGet (group server : Nat) (m : Msg)
  deriving DecidableEq, Repr

/-- A READ or WRITE that an I/O die site has sent to a stack site (R397). -/
structure IoReq where
  /-- Its request number, 16 bits. -/
  no : Nat
  xfer : Nat
  write : Bool
  /-- Granules, and those that have arrived. -/
  len : Nat
  got : Nat := 0
  /-- Where its bytes stand in the transfer, how many they are, and the bytes of its first granule before them. -/
  off : Nat
  bytes : Nat
  skip : Nat
  deriving DecidableEq, Repr

/-- Requests that belong together. -/
structure IoXfer where
  id : Nat
  work : IoWork
  data : List Byte
  /-- Requests without their end. -/
  left : Nat
  /-- The first status other than OK; 3 where a word was not delivered. -/
  bad : Nat := 0
  deriving DecidableEq, Repr

structure IoSite where
  fenced : Bool := false
  gathers : List GatherReq := []
  publishes : List PublishReq := []
  opens : List ContribOpen := []
  chunks : List Chunk := []
  slots : List ExactSlot := []
  /-- Granules in the landing store, oldest first (R399). -/
  landing : List LandedGranule := []
  /-- Requests to stack memory without their end, what they belong to, and the numbers given out last (R397). -/
  reqs : List IoReq := []
  xfers : List IoXfer := []
  nextReq : Nat := 0
  nextXfer : Nat := 0
  /-- Slots of a sender's window freed and not yet returned, by group * 4096 + core (R399). -/
  freed : Tab Nat := []
  /-- The site that sends for this one while it has no UP port (R381). -/
  forwardTo : Option Nat := none
  nextTag : Nat := 0
  deriving DecidableEq, Repr

structure Fabric where
  ports : Tab FPort := []
  groups : Tab (Option FGroup) := []
  conns : List Conn := []
  sites : Tab IoSite := []
  deriving DecidableEq, Repr

/-! ### Host interface (spec/15, 16) -/

/-- A fetched submission entry (R487). -/
structure Entry where
  opcode : Nat
  flags : Nat
  cid : Nat
  job : Nat
  block : Nat
  blen : Nat
  arg0 : Nat
  arg1 : Nat
  /-- The entry breaks R487. -/
  bad : Bool
  deriving DecidableEq, Repr

/-- A command taken from a ring, with its outcome once it has one (R484, R485). -/
structure Taken where
  id : Nat
  entry : Entry
  status : Option Nat := none
  result0 : Nat := 0
  result1 : Nat := 0
  evseq : Nat := 0
  /-- It has been taken but waits before it begins (R484). -/
  waits : Bool := false
  deriving DecidableEq, Repr

/-- A ring pair (R479 to R486). -/
structure Ring where
  role : Nat := 0
  job : Nat := 0xFF
  vector : Nat := 1
  sqLog : Nat := 4
  cqLog : Nat := 4
  ccount : Nat := 0
  ctime : Nat := 0
  sqBase : Nat := 0
  cqBase : Nat := 0
  error : Bool := false
  sqPi : Nat := 0
  sqCi : Nat := 0
  cqPi : Nat := 0
  cqCi : Nat := 0
  phase : Bool := true
  fetched : List Entry := []
  taken : List Taken := []
  pendingInts : Nat := 0
  deleting : Bool := false
  /-- The taking of the RING_DELETE that waits: ring 0's taking number. -/
  deleteBy : Option Nat := none
  deriving DecidableEq, Repr

/-- A TOKEN_PUT into a core's window whose flits have not all come to it: its ring, the taking, the core, and its status (R497). -/
structure TokenRun where
  ring : Nat
  id : Nat
  core : Nat
  status : Nat
  deriving DecidableEq, Repr

structure HostIf where
  d3hot : Bool := false
  width : Nat := 16
  speed : Nat := 640
  /-- Rings; none where a ring does not exist (R479). -/
  rings : Tab (Option Ring) := []
  /-- The BAR2 window: its base and the job context it serves (R477). -/
  windowBase : Nat := 0
  windowJob : Option Nat := none
  bar2Refused : Nat := 0
  /-- WRITEs of host memory whose data the HID still expects from cores (R20). -/
  spurWrites : List OpenWrite := []
  tokens : List TokenRun := []
  /-- Unmasked MSI-X vectors, pending bits and messages sent per vector (R498). -/
  unmasked : List Nat := []
  msixPending : List Nat := []
  msixSent : Tab Nat := []
  /-- The completion data of the last BAR read, as the host receives it; none for Unsupported Request. -/
  readData : Option (List Byte) := none
  readPoisoned : Bool := false
  /-- Host addresses whose reads fail (R474), as pairs of base and length. -/
  hostFail : List (Nat × Nat) := []
  /-- Words of host memory that the device has written poisoned (R497). -/
  hostPoison : List Nat := []
  /-- MSI-X table: message address, data and control as written, by 4-byte index (R504). -/
  msixTable : Tab Nat := []
  /-- The last MCTP reply (R501). -/
  mctpReply : List Byte := []
  /-- The ring visited last (R483); ring 0 is visited first. -/
  lastRing : Nat := 63
  /-- The number of the next command taken from a ring. -/
  nextId : Nat := 0
  deriving DecidableEq, Repr

/-- The module's state of DEVSTATE (R510). -/
inductive DevState where
  | boot | ready | safe
  deriving DecidableEq, Repr

structure Regs where
  st : DevState := .boot
  safeCause : Nat := 0
  /-- Flags of R511: flag set and count, by flag number. -/
  flags : Tab Nat := []
  /-- For each flag, one more than the device time of its last set (R508). -/
  flagTime : Tab Nat := []
  opWest : Nat := 0
  opEast : Nat := 0
  pcap : Nat := 32000
  tthrottle : Nat := 95
  macBase : Nat := 0
  etherType : Nat := 0x88B5
  rto : Nat := 40
  hbInt : Nat := 100
  timeout : Nat := 1000
  rate : Nat := 6
  enable : Bool := true
  /-- Full scales of the risk inputs (R517). -/
  fsLink : Nat := 10000
  fsCsym : Nat := 1000
  fsReplay : Nat := 16
  fsNear : Nat := 64
  fsDroop : Nat := 8
  fsTherm : Nat := 15
  snapInt3 : Nat := 1800
  snapInt2 : Nat := 600
  risk : Nat := 0
  largest : Nat := 0
  /-- Ring 0 set-up registers (R513). -/
  r0SqBase : Nat := 0
  r0CqBase : Nat := 0
  r0Cfg : Nat := 0x0000_0000_0104_0400
  /-- Low halves of 64-bit registers held for the write of the high half, by offset (R505). -/
  lowHeld : Tab (Option Nat) := []
  /-- Field windows as the last refresh left them (R519). -/
  fields : Tab (List Byte) := []
  missedRefresh : Tab Nat := []
  /-- Mailbox (R512). -/
  mboxReq : List Byte := []
  mboxRep : List Byte := []
  qlen : Nat := 0
  rlen : Nat := 0
  mboxBusy : Bool := false
  alert : Bool := false
  powerGood : Bool := false
  deriving DecidableEq, Repr

/-! ### Security (spec/18) -/

structure KeySlot where
  role : Nat
  jobs : Nat
  key : List Byte
  deriving DecidableEq, Repr

structure Session where
  principal : Nat
  role : Nat
  jobs : Nat
  claim : Bool
  /-- The session secret SK and the key-encryption key KEK (R559). -/
  sk : List Byte
  kek : List Byte
  deriving DecidableEq, Repr

structure Challenge where
  devNonce : List Byte
  deriving DecidableEq, Repr

structure Sec where
  keys : Tab (Option KeySlot) := []
  session : Option Session := none
  challenges : Tab (Option Challenge) := []
  auths : Nat := 0
  locked : Bool := false
  nonces : Nat := 0
  secver : Nat := 0
  bootCount : Nat := 0
  fwTrust : Nat := 0
  fwUntrust : Nat := 0
  mr : List (List Byte) := []
  recovery : Bool := false
  /-- The image in the boot flash, and the SECVER of the running image (R548, R554, R567). -/
  image : List Byte := []
  imgSecver : Nat := 0
  /-- What the self-tests of this boot find (R603). -/
  tests : BootInputs := {}
  deriving DecidableEq, Repr

/-! ### Clocks, power and thermal (spec/17) -/

/-- One half's operating point and its demands (R525 to R530). -/
structure Half where
  op : Nat := 5
  power : Nat := 0
  thermal : Nat := 0
  /-- Who forces OP5: fields kept warm (R539), or 64 for SAFE (R542). -/
  forced : List Nat := []
  /-- The point that a running change goes to, and the demand that governs it. -/
  changing : Option Nat := none
  reason : Nat := 0
  /-- When the running change was ordered (R527). -/
  orderedAt : Nat := 0
  lastDone : Option Nat := none
  /-- Since when the half's hottest sensor has stayed below Tt - 5. -/
  coolSince : Option Nat := none
  /-- Core clock cycles in tenths (R188). -/
  cycles : Nat := 0
  /-- Step records by the point lowered from, in mW, and the lowering whose record waits for its second average (R529). -/
  records : Tab (Option Int) := []
  noting : Option (Nat × Nat) := none
  deriving DecidableEq, Repr

/-- The power states of a field (R519, R538 to R541). -/
inductive FieldPower where
  | active | bank | cold | outOfService
  deriving DecidableEq, Repr

/-- Clock, power and thermal state (R521 to R542). -/
structure Clk where
  halves : Tab Half := []
  fields : Tab FieldPower := []
  /-- When a field entered its state, and when its cold state was ordered. -/
  since : Tab Nat := []
  ordered : Tab (Option Nat) := []
  /-- Fields whose cold orders wait for the end of a running switch, in order (R336). -/
  deferred : List Nat := []
  lockLost : List Nat := []
  /-- Sensor readings in 1/16 °C: 4 f + k for the fields, 256 + s for the sites, 292 for the HID (R535). -/
  sensors : Tab Int := []
  ignored : List Nat := []
  /-- Since when a field's hottest sensor has stayed at Tt + 5 or above, below Tt - 5, and below Tt - 10 (R538 to R540). -/
  hotAt : Tab (Option Nat) := []
  coolAt : Tab (Option Nat) := []
  chillAt : Tab (Option Nat) := []
  /-- Since when a limit of R542 has been exceeded: wafer, other parts, feed current. -/
  hotWafer : Option Nat := none
  hotParts : Option Nat := none
  overCurrent : Option Nat := none
  /-- Feed voltages in mV, and the last power sample in mW. -/
  feedA : Nat := 54000
  feedB : Nat := 54000
  power : Nat := 0
  /-- The lower feed voltage and the power averaged over the last 1 ms window (R529, R532). -/
  lowMv : Nat := 54000
  avg : Nat := 0
  /-- The last droop (R533). -/
  lastDroop : Option Nat := none
  /-- Contexts that resume when their field leaves the bank state, as 4 * core + context (R538). -/
  halted : List Nat := []
  /-- Feed currents in mA. -/
  feedAI : Nat := 0
  feedBI : Nat := 0
  /-- The fast limit and the held limit: its level, what each step saved, the step that waits, its last change (R530, R531). -/
  fast : Bool := false
  held : Nat := 0
  heldSaved : List Int := []
  heldNoting : Option Nat := none
  heldLast : Nat := 0
  deriving DecidableEq, Repr

/-! ### Integrity (spec/13) -/

/-- A sampled check without a verdict (R419 to R422). -/
structure Check where
  id : Nat
  kind : Nat
  producer : Nat
  ctx : Nat
  checker : Nat
  job : Nat
  step : Nat
  /-- The producer has released the work (R205, R422). -/
  released : Bool
  /-- Context 2 work drawn during a commit window (R431). -/
  update : Bool
  /-- Where its copies begin in the producer's share of the check area, and how many granules they have (R418, R427). -/
  start : Nat := 0
  granules : Nat := 0
  deriving DecidableEq, Repr

/-- A running classification (R426, R427). -/
structure Classing where
  core : Nat
  kind : Nat
  ctx : Nat
  checker : Nat
  job : Nat
  lane : Bool
  deriving DecidableEq, Repr

/-- A CPER record (R441, R442). -/
structure Cper where
  bytes : List Byte
  deriving DecidableEq, Repr

structure Integ where
  checks : List Check := []
  nextCheck : Nat := 0
  classings : List Classing := []
  /-- Router fault times per core within the last second (R429). -/
  routerFaults : Tab (List Nat) := []
  stress : Tab (Option Nat) := []
  stressNext : Tab Nat := []
  cper : List Cper := []
  /-- Events of the health inputs of the last 60 s: input, source, time (R439). -/
  health : List (Nat × Nat × Nat) := []
  deriving DecidableEq, Repr

/-! ### Recovery (spec/14) -/

/-- A partner copy as it arrives in a PARTNER region (R452): extents received, and whether its digest has verified. -/
structure PartnerCopy where
  owner : Nat
  generation : Nat
  got : List (Nat × Nat) := []
  complete : Bool := false
  deriving DecidableEq, Repr

/-- A snapshot held in the module flash: a level-2 snapshot, or a partner slot (R452, R454). -/
structure FlashSnap where
  job : Nat
  owner : Nat
  generation : Nat
  version : Nat
  bytes : List Byte
  deriving DecidableEq, Repr

/-- A snapshot that runs (R447, R448): its whole image as captured, and the offsets not yet acknowledged. -/
structure SnapRun where
  level : Nat
  generation : Nat
  version : Nat
  started : Nat
  bytes : List Byte
  left : List Nat
  /-- SNAPSHOT commands that complete with it: ring and taking. -/
  by_ : List (Nat × Nat)
  deriving DecidableEq, Repr

/-- A pending order (R447). -/
structure SnapOrder where
  level : Nat
  by_ : List (Nat × Nat) := []
  deriving DecidableEq, Repr

/-- Recovery state. Tables keyed by job context, or by 4 * job context + level. -/
structure Recov where
  orders : Tab (List SnapOrder) := []
  running : Tab (Option SnapRun) := []
  flash : List FlashSnap := []
  partner : Tab (Option PartnerCopy) := []
  /-- Partner slots of the flash, by 3 * job context + slot. -/
  slots : Tab (Option FlashSnap) := []
  /-- The slot that the HID is copying a partner generation into. -/
  copying : Tab (Option Nat) := []
  generation : Tab Nat := []
  maxInterval : Tab Nat := []
  /-- For a level whose threshold the estimate has reached, one more than the time of its last order (R445). -/
  reached : Tab Nat := []
  deriving DecidableEq, Repr

end Sys2Proof.Machine
end

