-- ==== Sys2Proof/Machine/State.lean ====
section
/-! DEFINITION. The state of the block, its reasons to stop, and its state right after reset. -/

namespace Sys2Proof.Machine

/-- Faults. The block takes every command of its table; no meaning raises a fault. -/
inductive Fault where
  /-- Reserved for a command whose effect the spec leaves undefined; raised by nothing. Safe. -/
  | undefinedEffect
  deriving DecidableEq, Repr

/-- Refusals. -/
inductive Refusal where
  /-- A command that has no meaning in the model; raised by exec's own arms alone. Safe. -/
  | notModelled (mnemonic : String)
  deriving DecidableEq, Repr

/-- Everything the spec gives the module, and the commands that wait. -/
structure State where
  /-- The commands that wait, first in first out. -/
  pending : List Instr := []
  /-- Device time in ns (R511). -/
  time : Nat := 0
  /-- The counter that fresh free values are read at; the model's own. -/
  freeIndex : Nat := 0
  /-- The build: 0 M24, 1 M30, 2 M18 (R1, R2). -/
  build : Nat := 0
  /-- Every addressed byte of the module and of host memory by its device address (R21). -/
  mem : List Host.Cell := []
  /-- How stored words differ from the codeword of their bytes, by device address / 32 (R278). -/
  codeErr : Tab (BitVec 288) := []
  /-- The interleave list of stack sites (R285). -/
  interleave : List Nat := []
  cores : Tab Core := []
  net : Net := {}
  wafer : Wafer := {}
  stackSites : Tab StackSite := []
  jobs : Tab Job := []
  fabric : Fabric := {}
  host : HostIf := {}
  regs : Regs := {}
  sec : Sec := {}
  clk : Clk := {}
  integ : Integ := {}
  recov : Recov := {}
  obs : Obs := {}
  /-- The messages that stand at each field supervisor, in the order of their arrival (R28). -/
  mesh : Tab (List MeshMsg) := []
  deriving DecidableEq, Repr

/-- The module just powered: in BOOT, nothing run yet (R603, R608).
DESIGN CHOICE where the spec states no value (assumption log 1). -/
def State.reset : State := {}

end Sys2Proof.Machine
end

