-- ==== Sys2Proof/Machine/WordCode.lean ====
section
/-! DEFINITION. The word code WC288 (spec/09 R278 to R281), CRC-32 of IEEE 802.3 and the CRC-8 of R54.
A stored word is kept as its data bytes beside the pattern by which its 288 bits differ from the valid codeword of
those bytes; the syndromes depend on that pattern alone. -/

namespace Sys2Proof.Machine

/-- Multiplication by x in GF(2^8) with polynomial 0x11D (R278). -/
def gfX (a : Byte) : Byte :=
  if a.getMsbD 0 then (a <<< 1) ^^^ 0x1D#8 else a <<< 1

/-- Multiplication in GF(2^8), by fuel over the bits of the first factor. -/
def gfMulAux : Nat → Byte → Byte → Byte
  | 0, _, _ => 0
  | n + 1, a, b => (if a.getLsbD 0 then b else 0) ^^^ gfMulAux n (a >>> 1) (gfX b)

def gfMul (a b : Byte) : Byte := gfMulAux 8 a b

/-- α^i with α = 0x02. -/
def gfPow : Nat → Byte
  | 0 => 1
  | n + 1 => gfX (gfPow n)

/-- The exponent of x at which stored symbol j stands (R279). -/
def symbolPower (j : Nat) : Nat := if j < 32 then j + 4 else j - 32

/-- Symbol j of a 288-bit pattern. -/
def symbolOf (e : BitVec 288) (j : Nat) : Byte := (e >>> (8 * j)).setWidth 8

/-- A pattern with one symbol. -/
def symbolAt (v : Byte) (j : Nat) : BitVec 288 := (v.setWidth 288) <<< (8 * j)

/-- Syndrome S_k of a pattern (R280). -/
def syndrome (e : BitVec 288) (k : Nat) : Byte :=
  (List.range 36).foldl (fun a j => a ^^^ gfMul (symbolOf e j) (gfPow (k * symbolPower j))) 0

/-- The outcomes of a decoder (R280). -/
inductive WcOutcome where
  | clean | corrected | poisoned | uncorrectable
  deriving DecidableEq, Repr

/-- The pattern of a poisoned word (R281). -/
def poisonPattern : BitVec 288 := symbolAt 0xFF 34 ||| symbolAt 0xFF 35

/-- The stored symbol at coefficient x^i (R279). -/
def symbolAtPower (i : Nat) : Nat := if i < 4 then i + 32 else i - 4

/-- The outcome of decoding a pattern, and the pattern left in the delivered word (R280). -/
def wcDecode (e : BitVec 288) : WcOutcome × BitVec 288 :=
  if e = 0 then (.clean, e) else
  let s0 := syndrome e 0
  let s1 := syndrome e 1
  let s2 := syndrome e 2
  let s3 := syndrome e 3
  if s0 = 0 ∧ s1 = 0 ∧ s2 = 0 ∧ s3 = 0 then (.clean, e)
  else
    match (List.range 36).find? (fun i =>
      decide (s0 ≠ 0 ∧ s1 = gfMul s0 (gfPow i) ∧ s2 = gfMul s1 (gfPow i) ∧ s3 = gfMul s2 (gfPow i))) with
    | some i => (.corrected, e ^^^ symbolAt s0 (symbolAtPower i))
    | none =>
      let p := poisonPattern
      if s0 = syndrome p 0 ∧ s1 = syndrome p 1 ∧ s2 = syndrome p 2 ∧ s3 = syndrome p 3 then (.poisoned, e)
      else (.uncorrectable, e)

/-- The check symbols of 32 data bytes: the remainder of d(x) x^4 by g(x) (R278). The state holds x^3 down to x^0. -/
def wcParity (data : List Byte) : List Byte :=
  let g : List Byte := [64, 120, 54, 15]
  let r := data.reverse.foldl (fun (st : Byte × Byte × Byte × Byte) d =>
    let f := d ^^^ st.1
    (st.2.1 ^^^ gfMul f (g.getD 3 0), st.2.2.1 ^^^ gfMul f (g.getD 2 0),
      st.2.2.2 ^^^ gfMul f (g.getD 1 0), gfMul f (g.getD 0 0))) (0, 0, 0, 0)
  [r.2.2.2, r.2.2.1, r.2.1, r.1]

/-- One bit step of the reflected CRC-32. -/
def crc32Bit (c : Word32) : Word32 :=
  if c.getLsbD 0 then (c >>> 1) ^^^ 0xEDB88320#32 else c >>> 1

def crc32Byte (c : Word32) (b : Byte) : Word32 :=
  let x := c ^^^ b.setWidth 32
  crc32Bit (crc32Bit (crc32Bit (crc32Bit (crc32Bit (crc32Bit (crc32Bit (crc32Bit x)))))))

/-- CRC-32 of IEEE 802.3 (R211, R308, R313). -/
def crc32 (bs : List Byte) : Word32 := (bs.foldl crc32Byte 0xFFFFFFFF#32) ^^^ 0xFFFFFFFF#32

/-- One bit step of the CRC-8 with polynomial 0x07. -/
def crc8Bit (c : Byte) : Byte := if c.getMsbD 0 then (c <<< 1) ^^^ 0x07#8 else c <<< 1

def crc8Byte (c b : Byte) : Byte :=
  let x := c ^^^ b
  crc8Bit (crc8Bit (crc8Bit (crc8Bit (crc8Bit (crc8Bit (crc8Bit (crc8Bit x)))))))

/-- CHECK of a repair record: CRC-8 over bits [63:8], taken from bit 63 down (R54). -/
def repairCheck (w : Word64) : Byte :=
  (List.range 7).foldl (fun c i => crc8Byte c ((w >>> (56 - 8 * i)).setWidth 8)) 0

end Sys2Proof.Machine
end

