-- ==== Sys2Proof/Machine/Ops.lean ====
section
/-! DEFINITION. The named operations over the state: tables of units, the address map, memory and its word code, counters,
events and semaphores' plain parts (spec/01, 02, 09, 19). -/

namespace Sys2Proof.Machine

/-! ### Bytes of a fixed number -/

/-- The first n bytes, with zeros behind where there are fewer. DESIGN CHOICE (assumption log 12). -/
def fit (n : Nat) (b : List Byte) : List Byte := (b ++ List.replicate (n - b.length) 0).take n

/-- The 48 bytes of SHA-384 and of HMAC-SHA-384 (R549, R558). -/
def sha48 (b : List Byte) : List Byte := fit 48 (Config.sha384 b)
def hmac48 (key b : List Byte) : List Byte := fit 48 (Config.hmac key b)

/-! ### Units -/

def State.core (s : State) (i : Nat) : Core := Tab.get {} s.cores i
def State.setCore (s : State) (i : Nat) (c : Core) : State := { s with cores := Tab.set {} s.cores i c }
def State.modCore (s : State) (i : Nat) (f : Core → Core) : State := s.setCore i (f (s.core i))

def State.job (s : State) (j : Nat) : Job := Tab.get {} s.jobs j
def State.putJob (s : State) (j : Nat) (v : Job) : State := { s with jobs := Tab.set {} s.jobs j v }

def State.stack (s : State) (i : Nat) : StackSite := Tab.get {} s.stackSites i
def State.setStack (s : State) (i : Nat) (v : StackSite) : State :=
  { s with stackSites := Tab.set {} s.stackSites i v }
def State.modStack (s : State) (i : Nat) (f : StackSite → StackSite) : State := s.setStack i (f (s.stack i))

def Core.ctx (c : Core) (i : Nat) : Ctx := Tab.get {} c.ctxs i
def Core.setCtx (c : Core) (i : Nat) (v : Ctx) : Core := { c with ctxs := Tab.set {} c.ctxs i v }
def Core.sem (c : Core) (i : Nat) : Sem := Tab.get {} c.sems i
def Core.setSem (c : Core) (i : Nat) (v : Sem) : Core := { c with sems := Tab.set {} c.sems i v }
def Core.stream (c : Core) (i : Nat) : Stream := Tab.get {} c.streams i
def Core.setStream (c : Core) (i : Nat) (v : Stream) : Core := { c with streams := Tab.set {} c.streams i v }
def Core.entry (c : Core) (i : Nat) : TqEntry := Tab.get {} c.tq i
def Core.setEntry (c : Core) (i : Nat) (v : TqEntry) : Core := { c with tq := Tab.set {} c.tq i v }
def Core.ring (c : Core) (i : Nat) : RingEntry := Tab.get {} c.rings i
def Core.join (c : Core) (i : Nat) : Join := Tab.get {} c.joins i
def Core.setJoin (c : Core) (i : Nat) (v : Join) : Core := { c with joins := Tab.set {} c.joins i v }

def State.ctx (s : State) (c k : Nat) : Ctx := (s.core c).ctx k
def State.modCtx (s : State) (c k : Nat) (f : Ctx → Ctx) : State :=
  s.modCore c (fun x => x.setCtx k (f (x.ctx k)))
def State.modStream (s : State) (c n : Nat) (f : Stream → Stream) : State :=
  s.modCore c (fun x => x.setStream n (f (x.stream n)))

/-! ### The wafer (R12 to R16) -/

def coreRow (i : Nat) : Nat := i / 64
def coreCol (i : Nat) : Nat := i % 64

/-- The field fy * 8 + fx of a core (R14). -/
def fieldOf (i : Nat) : Nat := (coreRow i / 8) * 8 + coreCol i / 8

def fieldCores (f : Nat) : List Nat := (List.range 4096).filter (fun c => fieldOf c = f)

/-- 0 for the west half, 1 for the east half (R12, R14). -/
def halfOf (i : Nat) : Nat := if coreCol i ≤ 31 then 0 else 1
def halfOfField (f : Nat) : Nat := if f % 8 ≤ 3 then 0 else 1

/-- The core at edge position e of an edge: north, east, south, west (R15). -/
def edgeCore (edge e : Nat) : Nat :=
  match edge with
  | 0 => e
  | 1 => e * 64 + 63
  | 2 => 63 * 64 + (63 - e)
  | _ => (63 - e) * 64

/-- Whether a site of the build carries an I/O die (R3, R34). -/
def isIoSite (build s : Nat) : Bool :=
  match build with
  | 0 => decide (s % 3 = 1)
  | 1 => decide (s % 6 = 4)
  | _ => decide (s % 2 = 1)

/-- The build code (R2). -/
def State.buildCode (s : State) : Nat := min s.build 2 + 1

def State.isIo (s : State) (i : Nat) : Bool := decide (i < 36) && isIoSite s.build i
def State.isStack (s : State) (i : Nat) : Bool := decide (i < 36) && !isIoSite s.build i

/-- The job context whose rectangle holds a core (R307). -/
def Job.holdsField (j : Job) (f : Nat) : Bool :=
  j.st != .empty && decide (j.fy0 ≤ f / 8 ∧ f / 8 < j.fy0 + j.fh ∧ j.fx0 ≤ f % 8 ∧ f % 8 < j.fx0 + j.fw)

def Job.holds (j : Job) (c : Nat) : Bool := j.holdsField (fieldOf c)

def State.jobOf (s : State) (c : Nat) : Option Nat :=
  (List.range 8).find? (fun j => (s.job j).holds c)

/-- Logical cores of a job context's rectangle (R316). -/
def Job.cores (j : Job) : List Nat := (List.range 4096).filter (fun c => j.holds c)

/-- A core out of service: in the out-of-service map, which holds every core of a cold field, or in a field that R57 has
taken out of service (R57, R268). -/
def State.coreOut (s : State) (c : Nat) : Bool := s.net.oos.contains c || s.wafer.linkOut.contains (fieldOf c)

def Rect.holds (r : Rect) (c : Nat) : Bool :=
  decide (r.row0 ≤ coreRow c ∧ coreRow c ≤ r.row0 + r.rowsM1 ∧ r.col0 ≤ coreCol c ∧ coreCol c ≤ r.col0 + r.colsM1)

/-! ### Where a logical core sits (R36, R58) -/

/-- The field column of a core: field * 8 + column in the field. -/
def columnOf (c : Nat) : Nat := fieldOf c * 8 + coreCol c % 8

def State.shiftRow (s : State) (col : Nat) : Option Nat := Tab.get none s.wafer.shifted col

/-- The physical row of a core (R58). -/
def State.physRow (s : State) (c : Nat) : Nat :=
  let i := coreRow c % 8
  match s.shiftRow (columnOf c) with
  | none => i
  | some f => if i < f then i else i + 1

/-- The logical core of a local row of a column. -/
def coreAt (col i : Nat) : Nat :=
  let f := col / 8
  (f / 8 * 8 + i) * 64 + (f % 8 * 8 + col % 8)

/-- The logical core that a site hosts. -/
def State.coreOfSite (s : State) (col prow : Nat) : Option Nat :=
  ((List.range 8).map (fun i => coreAt col i)).find? (fun c => s.physRow c = prow)

/-- The state of a site (R36). -/
def State.siteState (s : State) (col prow : Nat) : SiteState :=
  match Tab.get none s.wafer.sites (col * 9 + prow) with
  | some x => x
  | none => if prow = 8 then (if (s.shiftRow col).isSome then .inService else .spare) else .inService

def State.setSite (s : State) (col prow : Nat) (x : SiteState) : State :=
  { s with wafer := { s.wafer with sites := Tab.set none s.wafer.sites (col * 9 + prow) (some x) } }

/-- The site of a logical core is fenced, and no other has taken its place (R59). -/
def State.siteFenced (s : State) (c : Nat) : Bool := s.siteState (columnOf c) (s.physRow c) = .fenced

/-- The router of a logical core is off: its field is cold or out of service, or its site is fenced with cause ROUTER (R26). -/
def State.routerOff (s : State) (c : Nat) : Bool :=
  s.net.cold.contains (fieldOf c) || s.wafer.linkOut.contains (fieldOf c) ||
  s.wafer.deadRouters.contains (columnOf c * 9 + s.physRow c)

/-! ### The address map (R21 to R23, R48, R49, R285) -/

def stackGiB72 : Nat := 72 * 2 ^ 30
def spadBase : Nat := 0x4000_0000_0000
def siteBase : Nat := 0x5000_0000_0000
def hostBase : Nat := 0x8000_0000_0000

/-- The bytes of scratchpad in a window. -/
def spadBytes : Nat := 0x60_0000

def windowAddr (c off : Nat) : Nat := spadBase + c * 2 ^ 23 + off

/-- The populated stack range (R22, R285). -/
def State.stackEnd (s : State) : Nat := s.interleave.length * stackGiB72

def State.inStack (s : State) (a n : Nat) : Bool := decide (a + n ≤ s.stackEnd)
def inHost (a n : Nat) : Bool := decide (hostBase ≤ a ∧ a + n ≤ 2 ^ 48)

/-- The bank of a window offset: 0 to 3 for A to D (R48). -/
def bankOf (off : Nat) : Nat :=
  if off < 0x20_0000 then 0 else if off < 0x40_0000 then 1 else if off < 0x50_0000 then 2 else 3

/-- An extent of a window within the four banks. -/
def inSpad (off n : Nat) : Bool := decide (off + n ≤ spadBytes)

/-- An extent within one bank. -/
def inOneBank (off n : Nat) : Bool :=
  decide (off + n ≤ spadBytes) && (decide (n = 0) || decide (bankOf off = bankOf (off + n - 1)))

def inBank (b off n : Nat) : Bool := inOneBank off n && decide (bankOf off = b)

/-- The stack site of a stack address (R285). -/
def State.stackOf (s : State) (a : Nat) : Nat :=
  s.interleave.getD (a / 4096 % (max 1 s.interleave.length)) 0

/-- The pseudo-channel of a stack address (R285). -/
def pseudoOf (a : Nat) : Nat := a / 64 % 64

/-! ### Bytes of memory -/

/-- The canonical form of memory: addresses rise strictly, and no entry is the 0 that an unlisted address reads as. -/
def Memory.wf (m : List Host.Cell) : Bool := Tab.wf 0 m

/-- A little-endian field of a byte list. -/
def fieldAt (bs : List Byte) (off n : Nat) : Nat := leNat ((bs.drop off).take n)

/-- One byte as it reads; a byte nothing has written reads 0 (R603). DESIGN CHOICE for host memory (assumption log 4). -/
def State.byte (s : State) (a : Nat) : Byte := Tab.get 0 s.mem a
def State.bytes (s : State) (a n : Nat) : List Byte := Tab.getRange 0 s.mem a n
def State.num (s : State) (a n : Nat) : Nat := leNat (s.bytes a n)

/-- The words of 32 bytes that an extent touches. -/
def wordsOf (a n : Nat) : List Nat :=
  if n = 0 then [] else (List.range ((a + n - 1) / 32 + 1 - a / 32)).map (fun i => a / 32 + i)

/-- A stored pattern's part over the data symbols of a word. -/
def dataBytes (e : BitVec 288) : List Byte := (List.range 32).map (fun j => symbolOf e j)

def clearErr (e : Tab (BitVec 288)) : List Nat → Tab (BitVec 288)
  | [] => e
  | w :: r => clearErr (Tab.set 0 e w 0) r

/-- Store bytes. Every word touched is written whole with a fresh code (R39, R43). -/
def State.store (s : State) (a : Nat) (bs : List Byte) : State :=
  { s with
    mem := Tab.setRange 0 s.mem a bs
    codeErr := clearErr s.codeErr (wordsOf a bs.length) }

/-- Store bytes of host memory, which carries no word code. -/
def State.storeHost (s : State) (a : Nat) (bs : List Byte) : State :=
  { s with
    mem := Tab.setRange 0 s.mem a bs
    host := { s.host with hostPoison := s.host.hostPoison.filter (fun w => !(wordsOf a bs.length).contains w) } }

/-- Words of host memory written poisoned (R497). -/
def State.poisonHost (s : State) (a n : Nat) : State :=
  { s with host := { s.host with
    hostPoison := s.host.hostPoison ++ (wordsOf a n).filter (fun w => !s.host.hostPoison.contains w) } }

/-- Host memory that answers reads (R474). -/
def State.hostOk (s : State) (a n : Nat) : Bool :=
  !(s.host.hostFail.any (fun r => decide (r.1 < a + n ∧ a < r.1 + r.2))) &&
  (wordsOf a n).all (fun w => !s.host.hostPoison.contains w)

/-- Write words poisoned (R281). -/
def poisonWords (e : Tab (BitVec 288)) : List Nat → Tab (BitVec 288)
  | [] => e
  | w :: r => poisonWords (Tab.set 0 e w poisonPattern) r

def State.poison (s : State) (a n : Nat) : State :=
  { s with codeErr := poisonWords s.codeErr (wordsOf a n) }

/-- What the decoders find in the words of an extent: the words corrected, and the first word that is not delivered. -/
structure ReadCheck where
  corrected : List Nat
  bad : Option Nat
  deriving DecidableEq, Repr

def State.errOf (s : State) (w : Nat) : BitVec 288 := Tab.get 0 s.codeErr w

def State.checkWords (s : State) : List Nat → ReadCheck
  | [] => ⟨[], none⟩
  | w :: r =>
    let q := s.checkWords r
    match (wcDecode (s.errOf w)).1 with
    | .clean => q
    | .corrected => { q with corrected := w :: q.corrected }
    | _ => { q with bad := some w }

/-- A byte as the decoder of its word delivers it (R280). -/
def State.deliveredByte (s : State) (a : Nat) : Byte :=
  s.byte a ^^^ symbolOf (wcDecode (s.errOf (a / 32))).2 (a % 32)

def State.delivered (s : State) (a n : Nat) : List Byte :=
  (List.range n).map (fun i => s.deliveredByte (a + i))

/-! ### The ranges that registers, counters and the recorder keep to -/

/-- The registers that a host sets hold values of their ranges, and no COUNT passes its field (R508, R512 to R515). -/
structure RegsOk (g : Regs) : Prop where
  opWest : g.opWest ≤ 5
  opEast : g.opEast ≤ 5
  pcap : 8000 ≤ g.pcap ∧ g.pcap ≤ 32000
  tthrottle : 70 ≤ g.tthrottle ∧ g.tthrottle ≤ 105
  macBase : g.macBase = 0 ∨ (g.macBase / 2 ^ 40 % 2 = 0 ∧ g.macBase / 2 ^ 41 % 2 = 1 ∧ g.macBase % 2 ^ 8 = 0)
  etherType : 0x600 ≤ g.etherType
  rto : 5 ≤ g.rto ∧ g.rto ≤ 10000
  hbInt : 10 ≤ g.hbInt ∧ g.hbInt ≤ 10000
  timeout : 100 ≤ g.timeout ∧ g.timeout ≤ 65535
  rate : g.rate ≤ 12
  scales : 1 ≤ g.fsLink ∧ 1 ≤ g.fsCsym ∧ 1 ≤ g.fsReplay ∧ 1 ≤ g.fsNear ∧ 1 ≤ g.fsDroop
  therm : 1 ≤ g.fsTherm ∧ g.fsTherm ≤ 63
  snap3 : g.snapInt3 = 0 ∨ (60 ≤ g.snapInt3 ∧ g.snapInt3 ≤ 86400)
  snap2 : g.snapInt2 = 0 ∨ (60 ≤ g.snapInt2 ∧ g.snapInt2 ≤ 86400)
  counts : ∀ n, Tab.get 0 g.flags n ≤ 0xFFFF

/-- No counter of a table of counter sets passes 2^48 - 1 (R570). -/
def SetsOk (l : Tab CounterSet) : Prop := ∀ i w, Tab.get 0 (Tab.get {} l i).vals w ≤ 2 ^ 48 - 1

/-- A log holds at most 1,048,576 records, whose sequence numbers rise and are all given out (R597, R598). -/
structure LogOk (l : List Record) (next : Nat) : Prop where
  room : l.length ≤ 1048576
  rising : (l.map (·.seq)).Pairwise (· < ·)
  given : ∀ r ∈ l, r.seq < next

/-- What the recorder and the counters hold is in range (R570, R584, R597, R598). -/
structure ObsOk (o : Obs) : Prop where
  log : LogOk o.log o.nextSeq
  flash : LogOk o.flash o.nextSeq
  full : o.full = false → o.log.length ≤ 1048575
  queue : o.trace.queue.length ≤ 65536
  cores : SetsOk o.cores
  routers : SetsOk o.routers
  sites : SetsOk o.sites
  jobs : SetsOk o.jobs

/-! ### Counters (R570 to R575) -/

/-- A counter stops at 2^48 - 1 (R570). -/
def satAdd48 (a n : Nat) : Nat := min (a + n) (2 ^ 48 - 1)

def CounterSet.bump (c : CounterSet) (w n : Nat) : CounterSet :=
  { c with vals := Tab.set 0 c.vals w (satAdd48 (Tab.get 0 c.vals w) n) }

/-- A reset adds one to EPOCH and sets every VALUE to zero (R576). -/
def CounterSet.reset (c : CounterSet) : CounterSet := ⟨(c.epoch + 1) % 65536, []⟩

def State.bumpCore (s : State) (i w n : Nat) : State :=
  { s with obs := { s.obs with cores := Tab.set {} s.obs.cores i ((Tab.get {} s.obs.cores i).bump w n) } }

def State.bumpRouter (s : State) (i w n : Nat) : State :=
  { s with obs := { s.obs with routers := Tab.set {} s.obs.routers i ((Tab.get {} s.obs.routers i).bump w n) } }

def State.bumpSite (s : State) (i w n : Nat) : State :=
  { s with obs := { s.obs with sites := Tab.set {} s.obs.sites i ((Tab.get {} s.obs.sites i).bump w n) } }

def State.bumpJob (s : State) (i w n : Nat) : State :=
  { s with obs := { s.obs with jobs := Tab.set {} s.obs.jobs i ((Tab.get {} s.obs.jobs i).bump w n) } }

def State.resetRouterSet (s : State) (i : Nat) : State :=
  { s with obs := { s.obs with routers := Tab.set {} s.obs.routers i ((Tab.get {} s.obs.routers i).reset) } }

def State.resetCoreSet (s : State) (i : Nat) : State :=
  { s with obs := { s.obs with cores := Tab.set {} s.obs.cores i ((Tab.get {} s.obs.cores i).reset) } }

/-! ### The health monitor's inputs (R439) -/

def hSymbols : Nat := 0
def hReplays : Nat := 1
def hLink : Nat := 3
def hDroop : Nat := 4
def hNear : Nat := 5

/-- An event of a health input, with a number for its source; what is older than 60 s falls out. -/
def State.health (s : State) (input source : Nat) : State :=
  { s with integ := { s.integ with
    health := s.integ.health.filter (fun x => decide (s.time < x.2.2 + 60 * 10 ^ 9)) ++ [(input, source, s.time)] } }

/-! ### Flags and the device vector (R498, R502, R508, R511) -/

/-- Hardware sets a W1C flag: it is set, and COUNT grows once a cycle of the device clock (R508). -/
def State.raiseFlag (s : State) (n : Nat) : State :=
  if Tab.get 0 s.regs.flagTime n = s.time + 1 then s
  else
    { s with regs := { s.regs with
      flags := Tab.set 0 s.regs.flags n (min (Tab.get 0 s.regs.flags n + 1) 0xFFFF)
      flagTime := Tab.set 0 s.regs.flagTime n (s.time + 1) } }

/-- An MSI-X vector is raised: its message is sent, or its pending bit set where it is masked or the function is in D3hot
(R475, R498). -/
def State.raiseVector (s : State) (v : Nat) : State :=
  if s.host.unmasked.contains v && !s.host.d3hot then
    { s with host := { s.host with msixSent := Tab.set 0 s.host.msixSent v (Tab.get 0 s.host.msixSent v + 1) } }
  else if s.host.msixPending.contains v then s
  else { s with host := { s.host with msixPending := v :: s.host.msixPending } }

/-- A flag that raises vector 0: once for each cycle in which one of them is set (R511). -/
def State.raiseDevice (s : State) (n : Nat) : State :=
  let again := decide (Tab.get 0 s.regs.flagTime 0 = s.time + 1) || decide (Tab.get 0 s.regs.flagTime 1 = s.time + 1)
  if again then s.raiseFlag n else (s.raiseFlag n).raiseVector 0

/-- Flag numbers in the order of R511, and DONE of the mailbox (R512). -/
def flagState : Nat := 0
def flagRing : Nat := 1
def flagAlert : Nat := 2
def flagRisk : Nat := 3
def flagLog : Nat := 4
def flagDone : Nat := 5

/-- The hottest of some sensors that are not ignored, in 1/16 °C (R535). -/
def State.hottestOf (s : State) (ks : List Nat) : Int :=
  (ks.filter (fun k => !s.clk.ignored.contains k)).foldl (fun a k => max a (Tab.get 0 s.clk.sensors k)) (-640)

/-- A feed voltage in range (R532). -/
def feedOk (mv : Nat) : Bool := decide (48000 ≤ mv ∧ mv ≤ 58000)

/-- The alert output: SAFE, or a sensor beyond its critical threshold (R501, R502, R542). -/
def State.alertNow (s : State) : Bool :=
  decide (s.regs.st = .safe) || decide (16 * ((s.regs.tthrottle : Int) + 15) ≤ s.hottestOf (List.range 256)) ||
  decide (16 * 105 ≤ s.hottestOf ((List.range 37).map (256 + ·))) ||
  !feedOk s.clk.feedA || !feedOk s.clk.feedB || decide (320000 ≤ s.clk.feedAI ∨ 320000 ≤ s.clk.feedBI)

/-- ALERT is set when the output becomes asserted. -/
def State.updateAlert (s : State) : State :=
  let a := s.alertNow
  let s1 : State := { s with regs := { s.regs with alert := a } }
  if a && !s.regs.alert then s1.raiseFlag flagAlert else s1

/-- STATE of DEVSTATE changes (R510, R511). -/
def State.setDev (s : State) (d : DevState) : State :=
  (({ s with regs := { s.regs with st := d } }).raiseDevice flagState).updateAlert

/-! ### Job contexts -/

/-- A change of a JOBSTATE sets STATE_CHANGE (R511). -/
def State.setJob (s : State) (j : Nat) (v : Job) : State :=
  if v.st = (s.job j).st then s.putJob j v else (s.putJob j v).raiseDevice flagState
def State.modJob (s : State) (j : Nat) (f : Job → Job) : State := s.setJob j (f (s.job j))

/-! ### Events (R594 to R598) -/

/-- Who records an event: SKIND and SOURCE (R594). -/
inductive Src where
  | core (i : Nat)
  | site (i : Nat)
  | hid
  | field (i : Nat)
  | port (i : Nat)
  deriving DecidableEq, Repr

def Src.kind : Src → Nat
  | .core _ => 0 | .site _ => 1 | .hid => 2 | .field _ => 3 | .port _ => 4

def Src.num : Src → Nat
  | .core i => i | .site i => i | .hid => 0 | .field i => i | .port i => i

/-- Payload items as (size, value), packed by R595. -/
def packItems : List Byte → List (Nat × Nat) → List Byte
  | acc, [] => acc ++ List.replicate (28 - acc.length) 0
  | acc, (n, v) :: r =>
    let al := if n = 8 then 4 else max n 1
    let pad := (al - acc.length % al) % al
    packItems (acc ++ List.replicate pad 0 ++ leBytes n v) r

/-- The bytes an event's payload holds. DEDUCED (assumption log 16). -/
def payload (items : List (Nat × Nat)) : List Byte := packItems [] items

/-- Capacity of the event log (R598). -/
def logCapacity : Nat := 1048575

/-- Whether an event repeats the last record of the log (R596). -/
def Record.same (r : Record) (k : EventKind) (src : Src) (p : List Byte) : Bool :=
  decide (r.kind = k) && decide (r.skind = src.kind) && decide (r.source = src.num) && decide (r.payload = p)

/-- Record an event (R594 to R598). -/
def State.event (s : State) (k : EventKind) (src : Src) (items : List (Nat × Nat)) : State :=
  let o := s.obs
  if o.full then
    { s with obs := { o with lost := Tab.set 0 o.lost k.severity (Tab.get 0 o.lost k.severity + 1) } }
  else
    let p := payload items
    match o.log.getLast? with
    | some r =>
      if r.same k src p then
        let r' := { r with rep := min (r.rep + 1) 0xFFFFFFFF, last := s.time }
        { s with obs := { o with log := o.log.dropLast ++ [r'] } }
      else if o.log.length = logCapacity then
        let full : Record := ⟨s.time, o.nextSeq, .logFull, 2, 0, s.time, 0, payload []⟩
        let s' := { s with obs := { o with
          log := o.log ++ [full]
          nextSeq := o.nextSeq + 1
          full := true
          lost := Tab.set 0 o.lost k.severity (Tab.get 0 o.lost k.severity + 1) } }
        s'.raiseFlag flagLog
      else
        { s with obs := { o with
          log := o.log ++ [⟨s.time, o.nextSeq, k, src.kind, src.num, s.time, 0, p⟩]
          nextSeq := o.nextSeq + 1 } }
    | none =>
      { s with obs := { o with
        log := [⟨s.time, o.nextSeq, k, src.kind, src.num, s.time, 0, p⟩]
        nextSeq := o.nextSeq + 1 } }

/-! ### Trace records (R580, R581, R584) -/

/-- A trace record is queued where the configuration selects its type, source and context (R583, R584). -/
def State.trace (s : State) (typ : Nat) (src : Src) (ctx : Nat) (pay : Nat) : State :=
  let t := s.obs.trace
  let wanted := t.enable && decide (t.types / 2 ^ typ % 2 = 1) &&
    (match src with
     | .core i => t.rect.holds i && decide (t.ctxMask / 2 ^ ctx % 2 = 1)
     | .site i => decide (t.sources / 2 ^ i % 2 = 1)
     | .hid => decide (t.sources / 2 ^ 36 % 2 = 1)
     | .field _ => decide (t.sources / 2 ^ 37 % 2 = 1)
     | .port _ => false)
  if !wanted then s
  else
    let hi := typ * 2 ^ 60 + src.kind * 2 ^ 57 + src.num * 2 ^ 45 + ctx * 2 ^ 43 + s.time % 2 ^ 43
    if 65536 ≤ t.queue.length then
      { s with obs := { s.obs with
        trDrop := s.obs.trDrop + 1
        trace := { t with dropPending := t.dropPending + 1 } } }
    else
      { s with obs := { s.obs with trace := { t with queue := t.queue ++ [(hi, pay)] } } }

/-- Record an event and its trace record (R581 type EVENT). -/
def State.record (s : State) (k : EventKind) (src : Src) (items : List (Nat × Nat)) : State :=
  (s.event k src items).trace 7 src 0
    (k.code * 2 ^ 48 + k.severity * 2 ^ 46 + s.obs.nextSeq % 2 ^ 46)

/-- The sequence number of the last record written, for EVSEQ (R488). -/
def State.lastSeq (s : State) : Nat :=
  match s.obs.log.getLast? with
  | some r => r.seq
  | none => 0

/-- ACCESS_UNMAPPED (R24): requester kind, requester, address, 1 for a write. -/
def State.unmapped (s : State) (src : Src) (addr : Nat) (write : Bool) : State :=
  s.record .accessUnmapped src [(1, src.kind), (2, src.num), (8, addr), (1, if write then 1 else 0)]

end Sys2Proof.Machine
end

