-- ==== Sys2Proof/Machine/Flags.lean ====
section
/-! DEFINITION. Saturating counts and sticky bits: semaphores, NONFINITE counts, special-value counters, and the register
flags that clear by writing one (spec/03 R100, R105, spec/06 R199 to R201, spec/16 R508). -/

namespace Sys2Proof.Machine

/-- MFS STEP of the job context that owns a core; zero where none does (R188). -/
def State.stepOf (s : State) (c : Nat) : Nat :=
  match s.jobOf c with
  | some j => (s.job j).mfsStep
  | none => 0

/-- Add to a semaphore, saturating with the sticky overflow bit (R199 to R201); the first overflow in a step is recorded. -/
def State.semAdd (s : State) (c sem v : Nat) : State :=
  let x := (s.core c).sem sem
  if 65535 < x.value + v then
    let s1 := s.modCore c (fun k => k.setSem sem ⟨65535, true, true⟩)
    if x.reported then s1 else s1.record .semOverflow (.core c) [(2, c), (1, sem), (4, s.stepOf c)]
  else s.modCore c (fun k => k.setSem sem { x with value := x.value + v })

/-- SEMSET (R200). -/
def State.semPut (s : State) (c sem v : Nat) : State :=
  s.modCore c (fun k => k.setSem sem { k.sem sem with value := v })

/-- Take v from a semaphore that holds at least v. -/
def State.semTake (s : State) (c sem v : Nat) : State :=
  s.modCore c (fun k => k.setSem sem { k.sem sem with value := (k.sem sem).value - v })

/-- A semaphore increment made by the block itself, with its trace record (R581 type SEM). -/
def State.semInc (s : State) (c sem v how : Nat) : State :=
  let t := s.semAdd c sem v
  t.trace 5 (.core c) 0 (sem * 2 ^ 58 + ((t.core c).sem sem).value * 2 ^ 42 + how * 2 ^ 40)

/-- Whether a semaphore has a waiter listed (R200). -/
def Core.hasWaiter (k : Core) (sem : Nat) : Bool := k.waiters.any (fun w => w.1 = sem)

/-- Counter words of a CORE set (R574). -/
def matSatWord (ctx : Nat) : Nat := 64 * ctx + 52
def matSpecialWord (ctx : Nat) : Nat := 64 * ctx + 53
def vecSatWord (ctx : Nat) : Nat := 64 * ctx + 54
def vecScaleWord (ctx : Nat) : Nat := 64 * ctx + 55
def vecSpecialWord (ctx : Nat) : Nat := 64 * ctx + 56
def vecNonfiniteWord (ctx : Nat) : Nat := 64 * ctx + 57
def checkPassedWord (ctx : Nat) : Nat := 64 * ctx + 58
def checkNearWord (ctx : Nat) : Nat := 64 * ctx + 59
def checkFailedWord (ctx : Nat) : Nat := 64 * ctx + 60
def skippedWord : Nat := 276

/-- n non-finite values written by a context at an instruction address (R105, R107). The event carries MFS STEP, the number of the
step that opened last, whichever step the instruction works for. DESIGN CHOICE (assumption log 73). -/
def State.countNonfinite (s : State) (c k pc n : Nat) : State :=
  if n = 0 then s
  else
    let x := s.ctx c k
    let s1 := (s.modCtx c k (fun y =>
      { y with nonfinite := min (y.nonfinite + n) 0xFFFFFFFF, firstNonfinite := true })).bumpCore c (vecNonfiniteWord k) n
    if x.firstNonfinite then s1
    else s1.record .nonfiniteRaised (.core c) [(2, c), (1, k), (4, pc), (4, s.stepOf c)]

/-- The steps of a job context that are in flight (R349). -/
def Job.flying (j : Job) : List Nat := (j.steps.filter (fun r => r.st ≠ .waiting)).map (·.n)

def addSteps (l : List Nat) (ns : List Nat) : List Nat := l ++ ns.filter (fun n => !l.contains n)

/-- A sampled check of a core has passed, or a check has failed, during the steps in flight (R435). -/
def State.noteCheck (s : State) (c : Nat) (failed : Bool) : State :=
  let ns := match s.jobOf c with
    | some j => (s.job j).flying
    | none => []
  s.modCore c (fun x =>
    if failed then { x with failedSteps := addSteps x.failedSteps ns }
    else { x with passedSteps := addSteps x.passedSteps ns })

/-! ### Sampled checks without a verdict (R422, R443) -/

def State.checkById (s : State) (id : Nat) : Option Check := s.integ.checks.find? (fun c => c.id = id)

/-- A check that is not made: counted and recorded with the rule that gives the cause (R443).
DESIGN CHOICE: the cause is the number of the rule (assumption log 15). -/
def State.checkSkipped (s : State) (c rule : Nat) : State :=
  (s.bumpCore c skippedWord 1).record .checkSkipped (.core c) [(2, rule)]

/-- Drop a check without a verdict. -/
def State.dropCheck (s : State) (id : Nat) : State :=
  { s with integ := { s.integ with checks := s.integ.checks.filter (fun c => c.id ≠ id) } }

/-- The checks that a core makes are abandoned: it goes out of service, or its area is taken (R422, R427). -/
def State.abandonChecks (s : State) (checker : Nat) : State :=
  (s.integ.checks.filter (fun q => q.checker = checker)).foldl (fun a q => (a.dropCheck q.id).checkSkipped q.producer 422) s

/-! ### Saturation totals (R100, R103) -/

def sat3 (a b : Nat × Nat × Nat) : Nat × Nat × Nat := (a.1 + b.1, a.2.1 + b.2.1, a.2.2 + b.2.2)

/-- SAT_ELEMENT, SAT_SCALE and SPECIAL_INPUT of a CORE set (R574). -/
def satOfCore (x : CounterSet) : Nat × Nat × Nat :=
  (List.range 4).foldl (fun a k =>
    let v (w : Nat) : Nat := Tab.get 0 x.vals w
    sat3 a (v (matSatWord k) + v (vecSatWord k), v (vecScaleWord k), v (matSpecialWord k) + v (vecSpecialWord k))) (0, 0, 0)

/-- The totals of a job context's CORE sets. -/
def State.satCores (s : State) (j : Nat) : Nat × Nat × Nat :=
  (s.job j).cores.foldl (fun a c => sat3 a (satOfCore (Tab.get {} s.obs.cores c))) (0, 0, 0)

/-- SAT_ELEMENT of one router, and of those of a job context (R575). -/
def State.satRouter (s : State) (c : Nat) : Nat × Nat × Nat := (Tab.get 0 (Tab.get {} s.obs.routers c).vals 11, 0, 0)
def State.satRouters (s : State) (j : Nat) : Nat × Nat × Nat :=
  (s.job j).cores.foldl (fun a c => sat3 a (s.satRouter c)) (0, 0, 0)

/-- Counts that the steps of a job context in flight keep beside the counters: what a temper unit or an exact accumulator, which
serves any job context, counts in work of this one, and what a counter holds when it is reset (R103). -/
def State.keepSat (s : State) (j : Nat) (t : Nat × Nat × Nat) : State :=
  s.modJob j (fun x => { x with steps := x.steps.map (fun r =>
    if r.st = .waiting then r else { r with satKept := sat3 r.satKept t }) })

/-- A CORE set or a ROUTER set is reset: the steps in flight keep its counts (R103, R573, R576). -/
def State.resetCoreKept (s : State) (c : Nat) : State :=
  match s.jobOf c with
  | some j => (s.keepSat j (satOfCore (Tab.get {} s.obs.cores c))).resetCoreSet c
  | none => s.resetCoreSet c

def State.resetRouterKept (s : State) (c : Nat) : State :=
  match s.jobOf c with
  | some j => (s.keepSat j (s.satRouter c)).resetRouterSet c
  | none => s.resetRouterSet c

/-- NUMERIC_SATURATION at the end of a step, each total saturating (R103). -/
def State.saturation (s : State) (j : Nat) (r : StepRun) : State :=
  let t := sat3 (sat3 r.satKept (s.satCores j)) (s.satRouters j)
  let cap (n : Nat) : Nat := min n (2 ^ 64 - 1)
  let d : Nat × Nat × Nat := (cap (t.1 - r.satBase.1), cap (t.2.1 - r.satBase.2.1), cap (t.2.2 - r.satBase.2.2))
  if d = (0, 0, 0) then s
  else s.record .numericSaturation .hid [(4, r.n), (8, d.1), (8, d.2.1), (8, d.2.2)]

/-- Write-one-to-clear: the bits a write leaves set (R508). -/
def w1c (old written : Nat) : Nat :=
  (BitVec.ofNat 64 old &&& ~~~(BitVec.ofNat 64 written)).toNat

end Sys2Proof.Machine
end

