-- ==== Sys2Proof/Machine/Program.lean ====
section
/-! DEFINITION. Instruction words: their fields, legality and decoding into commands (spec/06 R181 to R198, R205). -/

namespace Sys2Proof.Machine

/-! ### Encoders -/

/-- A word from its CLASS, OP and class fields (R181). -/
def mkWord (cls op : Nat) (rest : Nat) : Word64 := BitVec.ofNat 64 (cls * 2 ^ 60 + op * 2 ^ 54 + rest)

/-- R-form (R184). -/
def wordR (op : Nat) (sd sa sb : Reg) : Word64 :=
  mkWord 0 op (sd.toNat * 2 ^ 49 + sa.toNat * 2 ^ 44 + sb.toNat * 2 ^ 39)

/-- I-form (R184); also SST, whose SB stands in its R-form place. -/
def wordI (op : Nat) (sd sa : Reg) (imm : BitVec 32) : Word64 :=
  mkWord 0 op (sd.toNat * 2 ^ 49 + sa.toNat * 2 ^ 44 + imm.toNat)

/-- B-form (R184), and SST, which holds SB and IMM (R185). -/
def wordB (op : Nat) (sd sa sb : Reg) (off : BitVec 32) : Word64 :=
  mkWord 0 op (sd.toNat * 2 ^ 49 + sa.toNat * 2 ^ 44 + sb.toNat * 2 ^ 39 + off.toNat)

/-- Matrix class (R189). -/
def wordM (op : Nat) (w : MatWord) : Word64 :=
  mkWord 2 op (w.acc.toNat * 2 ^ 53 + w.endF.toNat * 2 ^ 52 + w.lm1.toNat * 2 ^ 48 + w.target.toNat * 2 ^ 45 +
    w.sp.toNat * 2 ^ 40 + w.sd.toNat * 2 ^ 35 + w.km1.toNat * 2 ^ 23)

/-- Vector class and CKCMP (R194). -/
def wordV (cls op : Nat) (w : VecWord) : Word64 :=
  mkWord cls op (w.etype.toNat * 2 ^ 52 + w.nm1.toNat * 2 ^ 40 + w.ns.toNat * 2 ^ 39 + w.d.toNat * 2 ^ 34 +
    w.ak.toNat * 2 ^ 31 + w.a.toNat * 2 ^ 26 + w.bk.toNat * 2 ^ 23 + w.b.toNat * 2 ^ 18 + w.ck.toNat * 2 ^ 15 +
    w.c.toNat * 2 ^ 10 + w.lw.toNat * 2 ^ 6 + w.pop.toNat * 2 ^ 5 + w.acc.toNat * 2 ^ 4 + w.tol.toNat)

/-- Stream class (R197). -/
def wordS (op : Nat) (sd sa sb : Reg) (str : BitVec 5) (half : Bool) : Word64 :=
  mkWord 4 op (sd.toNat * 2 ^ 49 + sa.toNat * 2 ^ 44 + sb.toNat * 2 ^ 39 + str.toNat * 2 ^ 34 + half.toNat * 2 ^ 33)

/-- Semaphore class (R198). -/
def wordP (op : Nat) (w : SemWord) : Word64 :=
  mkWord 5 op (w.sd.toNat * 2 ^ 49 + w.sa.toNat * 2 ^ 44 + w.sem.toNat * 2 ^ 38 + w.vr.toNat * 2 ^ 37 +
    w.sb.toNat * 2 ^ 32 + w.imm.toNat * 2 ^ 16)

/-- Check class other than CKCMP (R205). -/
def wordC (op : Nat) (sd : Reg) (clr : Bool) : Word64 :=
  mkWord 6 op (sd.toNat * 2 ^ 49 + clr.toNat * 2 ^ 33)

/-! ### Legality (R182) -/

/-- The vector operations (R196). -/
inductive VOp where
  | add | sub | mul | fma | min | max | abs | neg | cmpeq | cmpne | cmplt | cmple | sel | and | or | xor | iota
  | cvtBf | cvtHf | cvtFb | cvtFh | cvtFi | cvtIf | cvtWb | rsum | rsumsq | rmax | rmin | rargmax | rargmin
  | compress | expand | exp2 | log2 | rcp | rsqrt | tanh | wfma | wadd | pack | packW | unpack
  | vld | vldH | vst | vstH | ckcmp
  deriving DecidableEq, Repr

/-- OP of a vector operation (R196, R205). -/
def VOp.code : VOp → Nat
  | .add => 0 | .sub => 1 | .mul => 2 | .fma => 3 | .min => 4 | .max => 5 | .abs => 6 | .neg => 7
  | .cmpeq => 8 | .cmpne => 9 | .cmplt => 10 | .cmple => 11 | .sel => 12 | .and => 13 | .or => 14 | .xor => 15
  | .iota => 16 | .cvtBf => 0x11 | .cvtHf => 0x12 | .cvtFb => 0x13 | .cvtFh => 0x14 | .cvtFi => 0x15
  | .cvtIf => 0x16 | .cvtWb => 0x17 | .rsum => 0x18 | .rsumsq => 0x19 | .rmax => 0x1A | .rmin => 0x1B
  | .rargmax => 0x1C | .rargmin => 0x1D | .compress => 0x1E | .expand => 0x1F | .exp2 => 0x20 | .log2 => 0x21
  | .rcp => 0x22 | .rsqrt => 0x23 | .tanh => 0x24 | .wfma => 0x28 | .wadd => 0x29 | .pack => 0x2C
  | .packW => 0x2D | .unpack => 0x2E | .vld => 0x30 | .vldH => 0x31 | .vst => 0x32 | .vstH => 0x33 | .ckcmp => 0x10

/-- How an operation uses one operand field. -/
inductive OpUse where
  /-- Not used: kind and register zero. -/
  | none
  /-- Any kind of R146. -/
  | any
  /-- Any kind but QUEUE. -/
  | noQueue
  /-- GROUP only. -/
  | group
  /-- SCALAR only. -/
  | scalar
  /-- GROUP or SCALAR. -/
  | groupScalar
  /-- "parameters at c": SCALAR, base register 1 to 28 (R195). -/
  | params
  /-- A count register in the register field, the kind zero (COMPRESS, EXPAND). -/
  | count
  deriving DecidableEq, Repr

/-- The operand uses a, b, c of an operation (R196, R206, R168). -/
def VOp.uses : VOp → OpUse × OpUse × OpUse
  | .add | .sub | .mul | .min | .max | .cmpeq | .cmpne | .cmplt | .cmple | .and | .or | .xor => (.any, .any, .none)
  | .fma | .sel => (.any, .any, .any)
  | .abs | .neg => (.any, .none, .none)
  | .iota => (.scalar, .none, .none)
  | .cvtBf => (.any, .none, .params)
  | .cvtHf | .cvtFb | .cvtFh | .cvtFi | .cvtIf => (.any, .none, .none)
  | .cvtWb => (.group, .none, .params)
  | .rsum | .rsumsq | .rmax | .rmin | .rargmax | .rargmin => (.any, .none, .none)
  | .compress | .expand => (.any, .count, .any)
  | .exp2 | .log2 | .rcp | .rsqrt | .tanh => (.any, .none, .none)
  | .wfma => (.group, .noQueue, .groupScalar)
  | .wadd => (.group, .none, .groupScalar)
  | .pack => (.any, .none, .params)
  | .packW => (.group, .none, .params)
  | .unpack => (.none, .none, .params)
  | .vld | .vldH => (.none, .scalar, .none)
  | .vst | .vstH => (.group, .scalar, .none)
  | .ckcmp => (.group, .group, .noQueue)

/-- Element types an operation takes: F32, B16X2, I32 (R196). -/
def VOp.types : VOp → List Nat
  | .add | .sub | .mul | .fma | .min | .max | .abs | .neg | .cmpeq | .cmpne | .cmplt | .cmple => [0, 1, 2]
  | .sel | .compress | .expand | .vld | .vldH | .vst | .vstH => [0, 1, 2]
  | .and | .or | .xor | .iota => [2]
  | _ => [0]

def OpUse.ok (u : OpUse) (kind reg : Nat) : Bool :=
  match u with
  | .none => decide (kind = 0 ∧ reg = 0)
  | .any => decide (kind ≤ 4) && (decide (kind ≠ 4) || decide (reg = 0))
  | .noQueue => decide (kind ≤ 3)
  | .group => decide (kind = 0)
  | .scalar => decide (kind = 1)
  | .groupScalar => decide (kind ≤ 1)
  | .params => decide (kind = 1 ∧ 1 ≤ reg ∧ reg ≤ 28)
  | .count => decide (kind = 0)

/-- The reductions, whose D may name a scalar register (R163, R164, R196). -/
def VOp.isReduction : VOp → Bool
  | .rsum | .rsumsq | .rmax | .rmin | .rargmax | .rargmin => true
  | _ => false

def VOp.isW48Src : VOp → Bool
  | .wfma | .wadd | .cvtWb | .packW => true
  | _ => false

/-- Whether W is used: by a PERROW or PERCOL operand, a reduction, or the positions of a write that may be stochastic (R146, R161,
R163). UNPACK, which writes no narrow format, never uses it (R162). -/
def vecUsesW (o : VOp) (w : VecWord) : Bool :=
  o.isReduction || decide (w.ak.toNat = 2 ∨ w.ak.toNat = 3 ∨ w.bk.toNat = 2 ∨ w.bk.toNat = 3 ∨
    w.ck.toNat = 2 ∨ w.ck.toNat = 3) || decide (o.uses.2.2 = OpUse.params ∧ o ≠ .unpack)

/-- Registers of a group of n elements that starts at tb (R143). -/
def groupFits (tb n : Nat) : Bool := decide (1 ≤ n ∧ n ≤ 4096 ∧ tb + ceilDiv n 1024 ≤ 32)

/-- Whether an operand of a kind stays within t31 (R143, R146). -/
def operandFits (kind reg n W : Nat) : Bool :=
  match kind with
  | 0 => groupFits reg n
  | 2 => groupFits reg (ceilDiv n W)
  | 3 => groupFits reg (min n W)
  | _ => true

/-- The number of destination elements (R158, R163, R196). -/
def VOp.destCount (o : VOp) (n W : Nat) : Nat :=
  match o with
  | .cvtBf | .cvtHf | .cvtWb => ceilDiv n 2
  | _ => if o.isReduction then ceilDiv n W else n

/-- The number of elements operand a holds (R158). -/
def VOp.srcCount (o : VOp) (n : Nat) : Nat :=
  match o with
  | .cvtFb | .cvtFh => ceilDiv n 2
  | _ => n

/-- Whether the destination is a group of tile registers for a count n (R163, R196). -/
def VOp.destGroup (o : VOp) (n W : Nat) : Bool :=
  match o with
  | .pack | .packW | .vst | .vstH | .ckcmp => false
  | _ => if o.isReduction then decide (W < n) else true

/-- Whether every register of an instruction with count n exists (R143, R146, R195). -/
def vecFits (o : VOp) (w : VecWord) (n : Nat) : Bool :=
  let W := 2 ^ w.lw.toNat
  let u := o.uses
  let a := if u.1 = OpUse.none then true
    else if o.isW48Src then groupFits w.a.toNat n && groupFits (w.a.toNat + ceilDiv n 1024) n
    else operandFits w.ak.toNat w.a.toNat (o.srcCount n) W
  let b := if u.2.1 = OpUse.none || u.2.1 = OpUse.count then true else operandFits w.bk.toNat w.b.toNat n W
  let c := if u.2.2 = OpUse.none || u.2.2 = OpUse.params then true else operandFits w.ck.toNat w.c.toNat n W
  let d := if o.destGroup n W then
      (if o = .wfma || o = .wadd then groupFits w.d.toNat n && groupFits (w.d.toNat + ceilDiv n 1024) n
       else groupFits w.d.toNat (o.destCount n W))
    else true
  decide (1 ≤ n ∧ n ≤ 4096) && a && b && c && d

/-- Registers a group covers, base and number, and the width in bits of its element type. -/
abbrev Span := Nat × Nat × Nat

def Span.disjoint (a b : Span) : Bool := decide (a.1 + a.2.1 ≤ b.1 ∨ b.1 + b.2.1 ≤ a.1)

/-- Two spans name the same base register and the same element type width (R148). -/
def Span.same (a b : Span) : Bool := decide (a.1 = b.1 ∧ a.2.2 = b.2.2)

/-- Source spans of an instruction of count n; the two groups of a W48 pair are one span, named by its base (R146, R148, R195). -/
def vecSources (o : VOp) (w : VecWord) (n : Nat) : List Span :=
  let W := 2 ^ w.lw.toNat
  let sp (kind reg m : Nat) : List Span :=
    match kind with
    | 0 => [(reg, ceilDiv m 1024, 32)]
    | 2 => [(reg, ceilDiv (ceilDiv m W) 1024, 32)]
    | 3 => [(reg, ceilDiv (min m W) 1024, 32)]
    | _ => []
  let u := o.uses
  (if u.1 = OpUse.none then []
   else if o.isW48Src then [(w.a.toNat, 2 * ceilDiv n 1024, 48)]
   else sp w.ak.toNat w.a.toNat (o.srcCount n)) ++
  (if u.2.1 = OpUse.none || u.2.1 = OpUse.count then [] else sp w.bk.toNat w.b.toNat n) ++
  (if u.2.2 = OpUse.none || u.2.2 = OpUse.params then [] else sp w.ck.toNat w.c.toNat n)

/-- Destination spans (R148). -/
def vecDests (o : VOp) (w : VecWord) (n : Nat) : List Span :=
  let W := 2 ^ w.lw.toNat
  if !o.destGroup n W then []
  else if o = .wfma || o = .wadd then [(w.d.toNat, 2 * ceilDiv n 1024, 48)]
  else [(w.d.toNat, ceilDiv (o.destCount n W) 1024, 32)]

/-- Whether the overlaps of destination and sources are those R148 allows. -/
def vecOverlapOk (o : VOp) (w : VecWord) (n : Nat) : Bool :=
  let strict := decide (o = .expand ∨ o = .unpack ∨ o = .cvtFb ∨ o = .cvtFh)
  (vecDests o w n).all (fun d => (vecSources o w n).all (fun s => d.disjoint s || (!strict && d.same s)))

/-- The even counts of R158: no register range, so a state error of R209 and not a matter of the word (R196; DEDUCED, assumption
log 60). -/
def evenCount (o : VOp) (n : Nat) : Bool :=
  match o with
  | .cvtBf | .cvtHf | .cvtFb | .cvtFh | .cvtWb => decide (n % 2 = 0)
  | _ => true

/-- Legality of a vector-class word or CKCMP by its own bits (R182, R194, R196). -/
def vecLegal (o : VOp) (w : VecWord) : Bool :=
  let u := o.uses
  let nq := (if w.ak = 4 then 1 else 0) + (if w.bk = 4 then 1 else 0) + (if w.ck = 4 then 1 else 0)
  u.1.ok w.ak.toNat w.a.toNat && u.2.1.ok w.bk.toNat w.b.toNat && u.2.2.ok w.ck.toNat w.c.toNat &&
  o.types.contains w.etype.toNat &&
  decide (nq ≤ 1) && (!w.pop || decide (nq = 1)) &&
  (!w.acc || decide (o = .rsum ∨ o = .rsumsq ∨ o = .rmax ∨ o = .rmin)) &&
  (decide (o = .ckcmp) || decide (w.tol = 0)) &&
  decide (w.lw.toNat ≤ 12) && (vecUsesW o w || decide (w.lw = 0)) &&
  (decide (o ≠ .pack ∧ o ≠ .packW ∧ o ≠ .vst ∧ o ≠ .vstH) || decide (w.d = 0)) &&
  (if w.ns then decide (w.nm1.toNat < 32)
   else vecFits o w (w.nm1.toNat + 1) && vecOverlapOk o w (w.nm1.toNat + 1))

/-- Legality of an MMUL word (R189). -/
def matLegalMmul (w : MatWord) : Bool :=
  decide (1 ≤ w.sp.toNat ∧ w.sp.toNat ≤ 28) &&
  (if w.endF then
    match w.target.toNat with
    | 0 => decide (w.sd = 0)
    | 1 | 2 => decide (w.sd ≠ 0)
    | 3 => decide (1 ≤ w.sd.toNat ∧ w.sd.toNat ≤ 30)
    | _ => false
   else decide (w.target = 0 ∧ w.sd = 0))

/-- Legality of a DRAIN word (R189). -/
def matLegalDrain (w : MatWord) : Bool :=
  decide (w.acc = false ∧ w.endF = false ∧ w.lm1 = 0 ∧ w.sp = 0 ∧ w.km1 = 0) &&
  (match w.target.toNat with
   | 0 => decide (w.sd = 0)
   | 1 | 2 => decide (w.sd ≠ 0)
   | 3 => decide (1 ≤ w.sd.toNat ∧ w.sd.toNat ≤ 30)
   | _ => false)

/-- Legality of a SPILL word (R189). -/
def matLegalSpill (w : MatWord) : Bool :=
  decide (w.endF = false ∧ w.lm1 = 0 ∧ w.target = 0 ∧ w.sd = 0 ∧ w.km1 = 0 ∧ w.sp ≠ 0)

/-- Legality of a RESUME word (R189). -/
def matLegalResume (w : MatWord) : Bool := (matLegalSpill w) && !w.acc

/-- The semaphore operations (R198). -/
inductive POp where
  | wait | try_ | sig | sigr | set | read
  deriving DecidableEq, Repr

def POp.code : POp → Nat
  | .wait => 0 | .try_ => 1 | .sig => 2 | .sigr => 3 | .set => 4 | .read => 5

/-- Legality of a semaphore word (R198). -/
def semLegal (o : POp) (w : SemWord) : Bool :=
  (decide (o = .try_ ∨ o = .read) || decide (w.sd = 0)) &&
  (decide (o = .sigr) || decide (w.sa = 0)) &&
  (match o with
   | .read => decide (w.vr = false ∧ w.sb = 0 ∧ w.imm = 0)
   | .set => if w.vr then decide (w.imm = 0) else decide (w.sb = 0)
   | _ => if w.vr then decide (w.imm = 0) else decide (w.sb = 0) && decide (w.imm ≠ 0))

/-- The special registers that MFS reads (R188). -/
def legalMfs (imm : BitVec 32) : Bool := decide (imm.toNat ≤ 8)

def legalShift (imm : BitVec 32) : Bool := decide (imm.toNat ≤ 63)

/-! ### Decoding (R181 to R198, R205) -/

def fieldOfWord (w : Word64) (lo n : Nat) : Nat := w.toNat / 2 ^ lo % 2 ^ n

def regAt (w : Word64) (lo : Nat) : Reg := BitVec.ofNat 5 (fieldOfWord w lo 5)

def immOf (w : Word64) : BitVec 32 := BitVec.ofNat 32 (w.toNat % 2 ^ 32)

def matOf (w : Word64) : MatWord where
  acc := decide (fieldOfWord w 53 1 = 1)
  endF := decide (fieldOfWord w 52 1 = 1)
  lm1 := BitVec.ofNat 4 (fieldOfWord w 48 4)
  target := BitVec.ofNat 3 (fieldOfWord w 45 3)
  sp := regAt w 40
  sd := regAt w 35
  km1 := BitVec.ofNat 12 (fieldOfWord w 23 12)

def vecOf (w : Word64) : VecWord where
  etype := BitVec.ofNat 2 (fieldOfWord w 52 2)
  nm1 := BitVec.ofNat 12 (fieldOfWord w 40 12)
  ns := decide (fieldOfWord w 39 1 = 1)
  d := regAt w 34
  ak := BitVec.ofNat 3 (fieldOfWord w 31 3)
  a := regAt w 26
  bk := BitVec.ofNat 3 (fieldOfWord w 23 3)
  b := regAt w 18
  ck := BitVec.ofNat 3 (fieldOfWord w 15 3)
  c := regAt w 10
  lw := BitVec.ofNat 4 (fieldOfWord w 6 4)
  pop := decide (fieldOfWord w 5 1 = 1)
  acc := decide (fieldOfWord w 4 1 = 1)
  tol := BitVec.ofNat 4 (fieldOfWord w 0 4)

def semOf (w : Word64) : SemWord where
  sd := regAt w 49
  sa := regAt w 44
  sem := BitVec.ofNat 6 (fieldOfWord w 38 6)
  vr := decide (fieldOfWord w 37 1 = 1)
  sb := regAt w 32
  imm := BitVec.ofNat 16 (fieldOfWord w 16 16)

/-- A command if its word repeats the one read, and the word is legal: no bit of the word is dropped. -/
def ifWord (w back : Word64) (legal : Bool) (i : Instr) : Option Instr :=
  if back = w && legal then some i else none

/-- Decoding of the control class (R185). -/
def decodeControl (h : Hart) (w : Word64) : Option Instr :=
  let op := fieldOfWord w 54 6
  let sd := regAt w 49
  let sa := regAt w 44
  let sb := regAt w 39
  let imm := immOf w
  let r (i : Instr) := ifWord w (wordR op sd sa sb) true i
  let im (i : Instr) (ok : Bool) := ifWord w (wordI op sd sa imm) ok i
  let br (i : Instr) := ifWord w (wordB op 0 sa sb imm) true i
  match op with
  | 0x00 => ifWord w 0 true (.nop h)
  | 0x01 => ifWord w (mkWord 0 1 0) true (.halt h)
  | 0x02 => ifWord w (wordI op 0 0 imm) (decide (imm.toNat < 16)) (.fence h imm)
  | 0x03 => ifWord w (wordI op 0 0 imm) (decide (imm.toNat < 4)) (.setrank h imm)
  | 0x04 => ifWord w (wordI op sd 0 imm) (legalMfs imm) (.mfs h sd imm)
  | 0x08 => r (.add h sd sa sb)
  | 0x09 => r (.sub h sd sa sb)
  | 0x0A => r (.and h sd sa sb)
  | 0x0B => r (.or h sd sa sb)
  | 0x0C => r (.xor h sd sa sb)
  | 0x0D => r (.sll h sd sa sb)
  | 0x0E => r (.srl h sd sa sb)
  | 0x0F => r (.sra h sd sa sb)
  | 0x10 => r (.mul h sd sa sb)
  | 0x11 => r (.slt h sd sa sb)
  | 0x12 => r (.sltu h sd sa sb)
  | 0x18 => im (.addi h sd sa imm) true
  | 0x19 => im (.andi h sd sa imm) true
  | 0x1A => im (.ori h sd sa imm) true
  | 0x1B => im (.xori h sd sa imm) true
  | 0x1C => im (.slli h sd sa imm) (legalShift imm)
  | 0x1D => im (.srli h sd sa imm) (legalShift imm)
  | 0x1E => im (.srai h sd sa imm) (legalShift imm)
  | 0x1F => im (.lih h sd sa imm) true
  | 0x20 => im (.sld h sd sa imm) true
  | 0x21 => ifWord w (wordB op 0 sa sb imm) true (.sst h sa sb imm)
  | 0x28 => br (.beq h sa sb imm)
  | 0x29 => br (.bne h sa sb imm)
  | 0x2A => br (.blt h sa sb imm)
  | 0x2B => br (.bge h sa sb imm)
  | 0x2C => br (.bltu h sa sb imm)
  | 0x2D => br (.bgeu h sa sb imm)
  | 0x2E => ifWord w (wordB op sd 0 0 imm) true (.jal h sd imm)
  | 0x2F => ifWord w (wordB op 0 sa 0 0) true (.jr h sa)
  | _ => none

/-- Decoding of the matrix class (R189). -/
def decodeMatrix (h : Hart) (w : Word64) : Option Instr :=
  let op := fieldOfWord w 54 6
  let x := matOf w
  let b := wordM op x
  match op with
  | 0 => ifWord w b (matLegalMmul x) (.mmul h x)
  | 1 => ifWord w b (matLegalDrain x) (.drain h x)
  | 2 => ifWord w b (matLegalSpill x) (.spill h x)
  | 3 => ifWord w b (matLegalResume x) (.resume h x)
  | _ => none

/-- The vector operation of an OP, and the command it makes (R196). -/
def vecCommand (h : Hart) (x : VecWord) : Nat → Option (VOp × Instr)
  | 0x00 => some (.add, .vectorAdd h x) | 0x01 => some (.sub, .vectorSub h x) | 0x02 => some (.mul, .vectorMul h x)
  | 0x03 => some (.fma, .fma h x) | 0x04 => some (.min, .min h x) | 0x05 => some (.max, .max h x)
  | 0x06 => some (.abs, .abs h x) | 0x07 => some (.neg, .neg h x) | 0x08 => some (.cmpeq, .cmpeq h x)
  | 0x09 => some (.cmpne, .cmpne h x) | 0x0A => some (.cmplt, .cmplt h x) | 0x0B => some (.cmple, .cmple h x)
  | 0x0C => some (.sel, .sel h x) | 0x0D => some (.and, .vectorAnd h x) | 0x0E => some (.or, .vectorOr h x)
  | 0x0F => some (.xor, .vectorXor h x) | 0x10 => some (.iota, .iota h x) | 0x11 => some (.cvtBf, .cvtBf h x)
  | 0x12 => some (.cvtHf, .cvtHf h x) | 0x13 => some (.cvtFb, .cvtFb h x) | 0x14 => some (.cvtFh, .cvtFh h x)
  | 0x15 => some (.cvtFi, .cvtFi h x) | 0x16 => some (.cvtIf, .cvtIf h x) | 0x17 => some (.cvtWb, .cvtWb h x)
  | 0x18 => some (.rsum, .rsum h x) | 0x19 => some (.rsumsq, .rsumsq h x) | 0x1A => some (.rmax, .rmax h x)
  | 0x1B => some (.rmin, .rmin h x) | 0x1C => some (.rargmax, .rargmax h x) | 0x1D => some (.rargmin, .rargmin h x)
  | 0x1E => some (.compress, .compress h x) | 0x1F => some (.expand, .expand h x) | 0x20 => some (.exp2, .exp2 h x)
  | 0x21 => some (.log2, .log2 h x) | 0x22 => some (.rcp, .rcp h x) | 0x23 => some (.rsqrt, .rsqrt h x)
  | 0x24 => some (.tanh, .tanh h x) | 0x28 => some (.wfma, .wfma h x) | 0x29 => some (.wadd, .wadd h x)
  | 0x2C => some (.pack, .pack h x) | 0x2D => some (.packW, .packW h x) | 0x2E => some (.unpack, .unpack h x)
  | 0x30 => some (.vld, .vld h x) | 0x31 => some (.vldH, .vldH h x) | 0x32 => some (.vst, .vst h x)
  | 0x33 => some (.vstH, .vstH h x)
  | _ => none

/-- Decoding of the vector class (R194, R196). -/
def decodeVector (h : Hart) (w : Word64) : Option Instr :=
  let op := fieldOfWord w 54 6
  let x := vecOf w
  if op = 0x38 then ifWord w (mkWord 3 0x38 0) true (.tqpop h)
  else match vecCommand h x op with
    | some (o, i) => ifWord w (wordV 3 op x) (vecLegal o x) i
    | none => none

/-- Decoding of the stream class (R197). -/
def decodeStream (h : Hart) (w : Word64) : Option Instr :=
  let op := fieldOfWord w 54 6
  let sd := regAt w 49
  let sa := regAt w 44
  let sb := regAt w 39
  let str := BitVec.ofNat 5 (fieldOfWord w 34 5)
  let half := decide (fieldOfWord w 33 1 = 1)
  match op with
  | 0 => ifWord w (wordS op 0 sa 0 0 half) true (.sfetch h sa half)
  | 1 => ifWord w (wordS op 0 sa 0 0 false) true (.sstart h sa)
  | 2 => ifWord w (wordS op 0 sa 0 0 false) true (.sstop h sa)
  | 3 => ifWord w (wordS op 0 sa sb str false) true (.srearm h sa sb str)
  | 4 => ifWord w (wordS op sd 0 0 str false) true (.sstat h sd str)
  | _ => none

/-- Decoding of the semaphore class (R198). -/
def decodeSem (h : Hart) (w : Word64) : Option Instr :=
  let op := fieldOfWord w 54 6
  let x := semOf w
  let b := wordP op x
  match op with
  | 0 => ifWord w b (semLegal .wait x) (.semwait h x)
  | 1 => ifWord w b (semLegal .try_ x) (.semtry h x)
  | 2 => ifWord w b (semLegal .sig x) (.semsig h x)
  | 3 => ifWord w b (semLegal .sigr x) (.semsigr h x)
  | 4 => ifWord w b (semLegal .set x) (.semset h x)
  | 5 => ifWord w b (semLegal .read x) (.semread h x)
  | _ => none

/-- Decoding of the check class (R205). -/
def decodeCheck (h : Hart) (w : Word64) : Option Instr :=
  let op := fieldOfWord w 54 6
  let sd := regAt w 49
  let clr := decide (fieldOfWord w 33 1 = 1)
  let x := vecOf w
  match op with
  | 0x00 => ifWord w (wordC op 0 false) true (.ckmark h)
  | 0x01 => ifWord w (wordC op sd false) true (.ckwait h sd)
  | 0x02 => ifWord w (wordC op sd clr) true (.nfread h sd clr)
  | 0x10 => ifWord w (wordV 6 op x) (vecLegal .ckcmp x) (.ckcmp h x)
  | _ => none

/-- The command that an instruction word of a context spells; none where the word is illegal (R182). -/
def decodeProgram (h : Hart) (w : Word64) : Option Instr :=
  match fieldOfWord w 60 4 with
  | 0 => decodeControl h w
  | 2 => decodeMatrix h w
  | 3 => decodeVector h w
  | 4 => decodeStream h w
  | 5 => decodeSem h w
  | 6 => decodeCheck h w
  | _ => none

/-- Whether a word is legal (R182). -/
def legalWord (w : Word64) : Bool := (decodeProgram ⟨0, 0⟩ w).isSome

end Sys2Proof.Machine
end

