-- ==== Sys2Proof/Machine/Operands.lean ====
section
/-! DEFINITION. Operand forms: scalar registers, vector operand kinds, W48 pairs, matrix parameter, target and buffer
registers (spec/06 R171, R190 to R192, R195, spec/05 R146, R161, R167). -/

namespace Sys2Proof.Machine

/-- The bytes of FP32 elements (R80). -/
def bytesOfWords (l : List Word32) : List Byte := l.flatMap (fun w => leBytes 4 w.toNat)

/-- A scalar register; s0 reads as zero (R171). -/
def Ctx.reg (x : Ctx) (r : Nat) : Word64 := if r = 0 then 0 else Tab.get 0 x.regs r

/-- A write of a scalar register; a write to s0 is discarded (R171). -/
def Ctx.setReg (x : Ctx) (r : Nat) (v : Word64) : Ctx :=
  if r = 0 then x else { x with regs := Tab.set 0 x.regs r v }

/-- Element m of the group at tb (R143). -/
def Core.groupElem (c : Core) (tb m : Nat) : Word32 := Tab.get 0 c.tregs (1024 * tb + m)

/-- Element m of an operand of a kind (R146); q is the head entry's tile for QUEUE. -/
def operandElem (c : Core) (x : Ctx) (q : List Word32) (etype W kind reg m : Nat) : Word32 :=
  match kind with
  | 0 => c.groupElem reg m
  | 1 =>
    let v := (x.reg reg).setWidth 32
    if etype = 1 then BitVec.ofNat 32 (v.toNat % 65536 * 65537) else v
  | 2 => c.groupElem reg (m / W)
  | 3 => c.groupElem reg (m % W)
  | _ => q.getD m 0

/-- A W48 element from its FP32 plane and extension (R97, R167). -/
def w48Code (hi lo : Word32) : Nat := hi.toNat * 65536 + lo.toNat % 65536

def w48Elem (c : Core) (tb n m : Nat) : Nat :=
  w48Code (c.groupElem tb m) (c.groupElem (tb + ceilDiv n 1024) m)

/-- The two elements that hold a W48 code (R167). -/
def w48Split (code : Nat) : Word32 × Word32 := (BitVec.ofNat 32 (code / 65536), BitVec.ofNat 32 (code % 65536))

/-- The head entry of a context: its oldest READY entry (R151). -/
def Core.headEntry (c : Core) (k : Nat) : Option Nat :=
  ((List.range 4).filter (fun e => (c.entry e).st = .ready && (c.entry e).owner = k)).foldl
    (fun (b : Option Nat) e => match b with
      | none => some e
      | some f => if (c.entry e).order < (c.entry f).order then some e else some f) none

/-- A matrix operand or block-format parameter register (R190). -/
structure OperandReg where
  fmt : Nat
  soff : Nat
  eoff : Nat
  zeroOk : Bool
  deriving DecidableEq, Repr

def operandReg (v : Word64) : OperandReg :=
  ⟨v.toNat / 2 ^ 48, v.toNat / 2 ^ 23 % 2 ^ 23, v.toNat % 2 ^ 23, decide (v.toNat / 2 ^ 46 % 4 = 0)⟩

/-- The position registers of a stochastic write (R161): step, tensor, row and column of element 0. -/
structure RandomPos where
  step : Nat
  tensor : Nat
  row : Nat
  col : Nat
  ok : Bool
  deriving DecidableEq, Repr

def randomPos (a b : Word64) : RandomPos :=
  ⟨a.toNat / 2 ^ 32, a.toNat % 2 ^ 32, b.toNat / 2 ^ 22 % 2 ^ 22, b.toNat % 2 ^ 22, decide (b.toNat / 2 ^ 44 = 0)⟩

/-- The random value of element m (R161, R87). -/
def RandomPos.at_ (p : RandomPos) (W m : Nat) : Nat := randomOf p.step p.tensor (p.row + m / W) (p.col + m % W)

/-- A buffer address register (R192): LOCAL, ADDR, and whether its zero fields are zero. -/
def bufferReg (v : Word64) : Bool × Nat × Bool :=
  let loc := decide (v.toNat / 2 ^ 63 = 1)
  let addr := v.toNat % 2 ^ 48
  (loc, addr, decide (v.toNat / 2 ^ 48 % 2 ^ 15 = 0) && (!loc || decide (addr / 2 ^ 23 = 0)))

/-- A target register (R191): core, area offset, semaphore, and whether its zero fields are zero. -/
def targetReg (v : Word64) : Nat × Nat × Nat × Bool :=
  let n := v.toNat
  (n % 4096, n / 2 ^ 16 % 2 ^ 23, n / 2 ^ 40 % 64,
    decide (n / 2 ^ 46 = 0 ∧ n / 2 ^ 39 % 2 = 0 ∧ n / 2 ^ 12 % 16 = 0))

/-- The chain register SD + 1 (R191): ONWARD, ISEM, IOFF, and whether its zero fields are zero. -/
def chainReg (v : Word64) : Nat × Nat × Nat × Bool :=
  let n := v.toNat
  (n / 2 ^ 46 % 4, n / 2 ^ 40 % 64, n / 2 ^ 16 % 2 ^ 23,
    decide (n / 2 ^ 48 = 0 ∧ n / 2 ^ 39 % 2 = 0 ∧ n % 65536 = 0))

end Sys2Proof.Machine
end

