-- ==== Sys2Proof/Machine/Desc.lean ====
section
/-! DEFINITION. The fields of a descriptor, where its rows lie, and how far a stream has come (spec/07 R217 to R223, R227,
R233). -/

namespace Sys2Proof.Machine

/-! ### Fields (R217 to R220) -/

def dkNone : Nat := 0
def dkLocal : Nat := 1
def dkPush : Nat := 2
def dkLoad : Nat := 3
def dkStore : Nat := 4
def dkGather : Nat := 5
def dkContrib : Nat := 6

/-- The modes of an end (R218). -/
def modeOwn : Nat := 0
def modeFar : Nat := 1
def modeRel : Nat := 2
def modeAbs : Nat := 3

/-- The fields of a 64-byte descriptor (R219). -/
def descOf (bs : List Byte) : Desc where
  kind := fieldAt bs 0 1
  flags := fieldAt bs 1 1
  fmt := fieldAt bs 2 2
  tensor := fieldAt bs 4 4
  srcMode := fieldAt bs 8 8 / 2 ^ 62
  src := fieldAt bs 8 8 % 2 ^ 48
  dstMode := fieldAt bs 16 8 / 2 ^ 62
  dst := fieldAt bs 16 8 % 2 ^ 48
  rowLen := fieldAt bs 24 4
  rows := fieldAt bs 28 4
  sStride := fieldAt bs 32 4
  dStride := fieldAt bs 36 4
  chunk := fieldAt bs 40 2
  slots := fieldAt bs 42 1
  site := fieldAt bs 43 1
  fullSem := fieldAt bs 44 1
  emptySem := fieldAt bs 45 1
  sSlotStride := fieldAt bs 48 4
  dSlotStride := fieldAt bs 52 4
  version := fieldAt bs 56 4

/-- FLAGS (R220). -/
def Desc.persist (d : Desc) : Bool := decide (d.flags / 128 % 2 = 1)
def Desc.pri (d : Desc) : Bool := decide (d.flags / 64 % 2 = 1)
def Desc.raw (d : Desc) : Bool := decide (d.flags / 32 % 2 = 1)
def Desc.rearmDst (d : Desc) : Bool := decide (d.flags / 16 % 2 = 1)
def Desc.plane (d : Desc) : Nat := d.flags / 4 % 4
def Desc.full (d : Desc) : Bool := decide (d.flags / 2 % 2 = 1)
def Desc.empty (d : Desc) : Bool := decide (d.flags % 2 = 1)

def Desc.sSlots (d : Desc) : Nat := d.slots / 16 + 1
def Desc.dSlots (d : Desc) : Nat := d.slots % 16 + 1

/-- The format of a descriptor's rows (R221, R223); none where it is illegal. -/
def Desc.fmtCode (d : Desc) : Option FmtCode := parseFmt { update := true, written := false } d.fmt

/-- Row length in bits (R221). -/
def Desc.rowBits (d : Desc) : Nat :=
  if d.raw then d.rowLen * 8
  else
    match d.fmtCode with
    | none => 0
    | some f =>
      match d.plane with
      | 0 => d.rowLen * f.elem.bits
      | 1 => d.rowLen / f.block * 8
      | _ => d.rowLen * 16

/-- Row bytes RB. -/
def Desc.rb (d : Desc) : Nat := d.rowBits / 8

/-- Chunks of the stream, and the chunk of a row (R222). -/
def Desc.chunks (d : Desc) : Nat := ceilDiv d.rows d.chunk

/-- The position of row r at an end (R222). -/
def rowPos (base stride slots slotStride chunk r : Nat) : Nat :=
  if slots ≤ 1 then base + r * stride
  else base + (r / chunk % slots) * slotStride + r % chunk * stride

def Desc.srcPos (d : Desc) (r : Nat) : Nat := rowPos d.src d.sStride d.sSlots d.sSlotStride d.chunk r
def Desc.dstPos (d : Desc) (r : Nat) : Nat := rowPos (d.dst) d.dStride d.dSlots d.dSlotStride d.chunk r

/-! ### Progress (R217, R227, R233) -/

/-- Chunks whose condition of R217 is met: every row moved and nothing of them outstanding. -/
def Stream.metChunks (x : Stream) : Nat :=
  let d := x.desc
  let issued :=
    if d.kind = dkContrib && !(decide (d.rows ≤ x.row) && x.part.isEmpty) then 64 * x.seq / (d.rb * d.chunk)
    else if d.rows ≤ x.row then d.chunks
    else x.row / d.chunk
  x.reqs.foldl (fun m r => min m r.chunk) issued

/-- Nothing of a stream is in flight, and every chunk that has come whole is counted (R227, R233). -/
def Stream.quiet (x : Stream) : Bool := x.reqs.isEmpty && decide (x.metChunks ≤ x.chunks)

/-- A stopping stream is STOPPED once it is quiet (R227). -/
def Stream.settle (x : Stream) : Stream :=
  if !x.stopping.isEmpty && x.quiet then { x with st := .stopped, stopping := [] } else x

end Sys2Proof.Machine
end

