-- ==== Sys2Proof/Machine/JobOps.lean ====
section
/-! DEFINITION. Shared operations on job contexts and their commands: statuses, completions, deliveries, halts, stops and
failures (spec/06 R210, spec/07 R234 to R237, spec/11 R345, R372 to R374, spec/15 R485 to R493). -/

namespace Sys2Proof.Machine

/-! ### Statuses (R490) -/

def stDone : Nat := 0x00
def stReplayed : Nat := 0x01
def stDegraded : Nat := 0x02
def stState : Nat := 0x10
def stMalformed : Nat := 0x11
def stDenied : Nat := 0x12
def stUnsupported : Nat := 0x13
def stQuench : Nat := 0x14
def stFault : Nat := 0x15
def stSkipped : Nat := 0x16
def stResource : Nat := 0x20

/-- The code of a job context's state (R510). -/
def JobState.code : JobState → Nat
  | .empty => 0 | .loaded => 1 | .running => 2 | .quenched => 3 | .restoring => 4 | .failed => 5

/-! ### Rings -/

def State.ring (s : State) (r : Nat) : Option Ring := Tab.get none s.host.rings r
def State.setRing (s : State) (r : Nat) (x : Ring) : State :=
  { s with host := { s.host with rings := Tab.set none s.host.rings r (some x) } }

def finishTaken (id st r0 r1 ev : Nat) : List Taken → List Taken
  | [] => []
  | t :: l =>
    if t.id = id && t.status = none
    then { t with status := some st, result0 := r0, result1 := r1, evseq := ev, waits := false } :: l
    else t :: finishTaken id st r0 r1 ev l

/-- Give a taken command its status; a status other than the three DONE ones is recorded (R489, R488). -/
def State.finish (s : State) (ring id st r0 r1 : Nat) : State :=
  match s.ring ring with
  | none => s
  | some x =>
    match x.taken.find? (fun t => t.id = id && t.status = none) with
    | none => s
    | some t =>
      let s1 :=
        if st ≤ 2 then s
        else if st = stState then
          s.record .commandState .hid [(1, ring), (2, t.entry.cid), (1, t.entry.opcode),
            (1, if t.entry.job < 8 then (s.job t.entry.job).st.code else 0xFF)]
        else s.record .commandRefused .hid [(1, ring), (2, t.entry.cid), (1, t.entry.opcode), (1, st)]
      let ev := if st ≤ 2 then 0 else s1.lastSeq % 2 ^ 32
      s1.setRing ring { x with taken := finishTaken id st r0 r1 ev x.taken }

/-- Finish every unfinished command of a job context on one ring that a predicate picks. -/
def State.finishOn (s : State) (ring st : Nat) (p : Taken → Bool) : State :=
  match s.ring ring with
  | none => s
  | some x => (x.taken.filter (fun t => t.status = none && p t)).foldl (fun a t => a.finish ring t.id st 0 0) s

def State.finishAll (s : State) (st : Nat) (p : Taken → Bool) : State :=
  (List.range 64).foldl (fun a r => a.finishOn r st p) s

/-- Whether a core can be delivered to: in service and not in a cold field. -/
def State.reachable (s : State) (c : Nat) : Bool := !s.coreOut c

/-- An extent lies in mapped addresses: populated stack memory, host memory, a site's window, or banks A to D of an in-service
core (R21, R23, R49). -/
def State.mapped (s : State) (a n : Nat) : Bool :=
  s.inStack a n || inHost a n || decide (siteBase ≤ a ∧ a + n ≤ siteBase + 36 * 2 ^ 24) ||
  (decide (spadBase ≤ a ∧ a < spadBase + 4096 * 2 ^ 23) && inSpad ((a - spadBase) % 2 ^ 23) n &&
    s.reachable ((a - spadBase) / 2 ^ 23))

/-- An access outside the mapped addresses is recorded beside the failure of what made it (R23, R24). -/
def State.noteAccess (s : State) (src : Src) (a n : Nat) (write : Bool) : State :=
  if s.mapped a n then s else s.unmapped src a write

/-! ### Steps (R345) -/

def StepState.code : StepState → Nat
  | .waiting => 0 | .open_ => 1 | .backwardDone => 2 | .normKnown => 3 | .committed => 4 | .skipped => 5

def StepRun.published (r : StepRun) : Nat := (r.owned.filter (·.published)).length

/-- One 64-byte step record (R345). -/
def stepRecord (kind outcome : Nat) (j version : Nat) (r : StepRun) : List Byte :=
  let d := kind ≠ 1
  let v (x : Nat) : Nat := if d then x else 0
  leBytes 1 kind ++ leBytes 1 outcome ++
  leBytes 1 (if d && !r.commit && r.reason ≠ 0 then r.reason else 0) ++ leBytes 1 j ++
  leBytes 4 r.n ++ leBytes 4 r.gver ++ leBytes 4 r.replays ++
  leBytes 4 (v r.sumsq) ++ leBytes 4 (v r.norm) ++ leBytes 4 (v r.clip) ++ leBytes 4 (v (min r.nonfin 0xFFFFFFFF)) ++
  leBytes 8 (v r.gtokens) ++ leBytes 4 r.owned.length ++
  leBytes 4 (if kind = 3 then r.published else 0) ++ leBytes 4 (if kind = 3 then version else 0) ++
  leBytes 1 (if kind = 3 then r.st.code else 0) ++ leBytes 11 0

/-- A step leaves the job context: RESULT is written and its command completes (R345, R372 to R374). What a reset has
taken from its ring is discarded (R609). -/
def State.endStep (s : State) (j : Nat) (r : StepRun) (st : Nat) : State :=
  let s0 := if r.st = .waiting then s else s.saturation j r
  let s1 := s0.modJob j (fun x => { x with steps := x.steps.filter (fun q => q.n ≠ r.n) })
  let held := (s.ring r.ring).any (fun x => x.taken.any (fun t => t.id = r.taking))
  let s2 := if r.st = .waiting || !held then s1
    else s1.storeHost r.result (stepRecord 3 st j (s1.job j).version r)
  s2.finish r.ring r.taking st 0 0

/-- The status of a step in flight when its job context fails (R210, R373). -/
def State.abortSteps (s : State) (j st : Nat) (p : StepRun → Bool) : State :=
  ((s.job j).steps.filter p).foldl (fun a r => a.endStep j r st) s

/-! ### Halts and stops of cores (R174, R227, R236, R237, R310) -/

/-- A context halts at its instruction boundary and leaves every waiter list (R174). -/
def Core.haltCtx (c : Core) (k : Nat) : Core :=
  let x := c.ctx k
  if x.st = .running then
    { c.setCtx k { x with st := .halted, wait := .none } with
      waiters := c.waiters.filter (fun w => w.2.1 ≠ Waiter.ctx k) }
  else c

def Core.haltAll (c : Core) : Core := (((c.haltCtx 0).haltCtx 1).haltCtx 2).haltCtx 3

/-- HALTED contexts resume at their PC (R174). -/
def Core.resumeCtx (c : Core) (k : Nat) : Core :=
  let x := c.ctx k
  if x.st = .halted then c.setCtx k { x with st := .running } else c

def Core.resumeAll (c : Core) : Core := (((c.resumeCtx 0).resumeCtx 1).resumeCtx 2).resumeCtx 3

/-- The stream engine holds: RUNNING streams become HELD (R236). -/
def Core.hold (c : Core) : Core :=
  { c with
    held := true
    streams := c.streams.map (fun p => (p.1, if p.2.st = .running then { p.2 with st := .held } else p.2)) }

/-- The hold ends: HELD streams become RUNNING where they stopped (R236). -/
def Core.unhold (c : Core) : Core :=
  { c with
    held := false
    streams := c.streams.map (fun p => (p.1, if p.2.st = .held then { p.2 with st := .running } else p.2)) }

/-- One stream stops with nothing of it in flight; its listed EMPTY wait is withdrawn (R227, R232, R237). -/
def Core.stopStream (c : Core) (n : Nat) : Core :=
  let x := c.stream n
  if x.st = .running || x.st = .held then
    { c.setStream n { x with st := .stopped, emptyListed := false, reqs := [], stopping := [] } with
      waiters := c.waiters.filter (fun w => w.2.1 ≠ Waiter.stream n) }
  else c

/-- SSTOP: the stream issues no more, and is STOPPED once nothing of it is in flight and the chunks that have come whole are
counted (R227, R233). -/
def Core.sstop (c : Core) (by_ n : Nat) : Core :=
  let x := c.stream n
  if x.st = .running || x.st = .held then
    if x.quiet then c.stopStream n
    else
      { c.setStream n { x with emptyListed := false, stopping := by_ :: x.stopping } with
        waiters := c.waiters.filter (fun w => w.2.1 ≠ Waiter.stream n) }
  else c

def Core.stopStreams (c : Core) (p : Stream → Bool) : Core :=
  (List.range 32).foldl (fun a n => if p (a.stream n) then a.stopStream n else a) c

/-- Apply a change to every core of a job context's rectangle. -/
def State.modCores (s : State) (cs : List Nat) (f : Core → Core) : State :=
  cs.foldl (fun a c => a.modCore c f) s

/-- A core in a field that is in the bank state: nothing of it runs (R538). -/
def State.banked (s : State) (c : Nat) : Bool := decide (Tab.get .active s.clk.fields (fieldOf c) = .bank)

/-- Contexts of these cores no longer resume when their fields leave the bank state. -/
def State.forgetHalted (s : State) (cs : List Nat) : State :=
  { s with clk := { s.clk with halted := s.clk.halted.filter (fun x => !cs.contains (x / 4)) } }

/-- The contexts of a core that are in a state, as 4 * core + context. -/
def State.ctxsIn (s : State) (c : Nat) (st : CtxState) : List Nat :=
  ((List.range 4).filter (fun k => (s.ctx c k).st = st)).map (fun k => 4 * c + k)

/-- A cause of R236 keeps a core's stream engine held: its field is in the bank state, the device is quenched, or its job
context is halted by its supervisors. -/
def State.keptHeld (s : State) (c : Nat) : Bool :=
  s.banked c || s.obs.quench.active || (s.jobOf c).any (fun j => (s.job j).st = .failed || (s.job j).draining.isSome)

/-- One cause of a hold has ended: the hold ends where no other stands (R236). -/
def State.releaseHold (s : State) (c : Nat) : State := if s.keptHeld c then s else s.modCore c Core.unhold

/-- HALTED contexts of a core resume and its hold ends; in the bank state they resume when the field leaves it. -/
def State.startCore (s : State) (c : Nat) : State :=
  if s.banked c then
    { s with clk := { s.clk with
      halted := s.clk.halted ++ (s.ctxsIn c .halted).filter (fun x => !s.clk.halted.contains x) } }
  else (s.modCore c Core.resumeAll).releaseHold c

/-- The supervisors halt every context of a job context and its stream engines hold (R60, R210, R236). -/
def State.haltJob (s : State) (j : Nat) : State :=
  (s.modCores (s.job j).cores (fun c => c.haltAll.hold)).forgetHalted (s.job j).cores

/-- The contexts of a job context resume and the holds end. -/
def State.resumeJob (s : State) (j : Nat) : State :=
  ((s.job j).cores.filter (fun c => s.reachable c)).foldl State.startCore s

/-- A job context becomes FAILED and its running commands complete with a status (R210). -/
def State.failJobWith (s : State) (j st : Nat) : State :=
  let s1 := s.haltJob j
  let s2 := s1.abortSteps j st (fun _ => true)
  let s3 := s2.finishAll st (fun t => t.entry.job = j && t.entry.opcode ≠ 0x19)
  s3.modJob j (fun x => { x with
    st := .failed
    active := if x.switch.isSome then none else x.active
    switch := none
    draining := none
    stopping := none
    restore := none })

def State.failJob (s : State) (j : Nat) : State := s.failJobWith j stFault

/-- The job context of a core fails after a program fault (R210). -/
def State.failJobOf (s : State) (c : Nat) : State :=
  match s.jobOf c with
  | some j => s.failJob j
  | none => s

end Sys2Proof.Machine
end

