-- ==== Sys2Proof/Machine/NetOps.lean ====
section
/-! DEFINITION. Flits, routes, injection and delivery: what every unit that sends over the wafer network shares
(spec/08). -/

namespace Sys2Proof.Machine

/-! ### Flits (R243) -/

def opWrite : Nat := 0
def opAdd32 : Nat := 1
def opSeminc : Nat := 2
def opRed : Nat := 3
def opStrict : Nat := 4
def opRcredit : Nat := 5
def opSiteReq : Nat := 6
def opSiteData : Nat := 7
def opMarker : Nat := 8

/-- Kinds of an end of a flit (R243). -/
def kCore : Nat := 0
def kSite : Nat := 1
def kHid : Nat := 2

/-- A flit of TC-B or TC-R with both words enabled and no error. -/
def mkFlit (vc dkind dest skind src op addr : Nat) (pay : List Byte) : Flit where
  vc := BitVec.ofNat 3 vc
  dkind := BitVec.ofNat 2 dkind
  dest := BitVec.ofNat 12 dest
  skind := BitVec.ofNat 2 skind
  src := BitVec.ofNat 12 src
  op := BitVec.ofNat 4 op
  last := false
  wen := 3
  sem := 0
  addr := BitVec.ofNat 17 addr
  route := 0
  payload := pay ++ List.replicate (64 - pay.length) 0
  err0 := 0
  err1 := 0

end Sys2Proof.Machine

namespace Sys2Proof

open Sys2Proof.Machine

/-- The 23-bit transfer tag of a flit to a site (R243). -/
def Flit.tag (f : Flit) : Nat := f.sem.toNat * 2 ^ 17 + f.addr.toNat
def Flit.withTag (f : Flit) (t : Nat) : Flit :=
  { f with sem := BitVec.ofNat 6 (t / 2 ^ 17), addr := BitVec.ofNat 17 t }

/-- One little-endian field of a flit's payload. -/
def Flit.field (f : Flit) (off n : Nat) : Nat := leNat ((f.payload.drop off).take n)

/-- The receiving unit of a flit. -/
def Flit.unit (f : Flit) : Src :=
  if f.dkind.toNat = kCore then .core f.dest.toNat
  else if f.dkind.toNat = kSite then .site f.dest.toNat
  else .hid

/-- The unit that has sent a flit. -/
def Flit.sender (f : Flit) : Src :=
  if f.skind.toNat = kCore then .core f.src.toNat
  else if f.skind.toNat = kSite then .site f.src.toNat
  else .hid

/-- The number by which a request names its peer: a site, or 36 for the HID (R20). -/
def Flit.peer (f : Flit) : Nat := if f.skind.toNat = kHid then 36 else f.src.toNat

/-- The 64-bit header (R243). -/
def Flit.header (f : Flit) : Nat :=
  f.vc.toNat * 2 ^ 61 + f.dkind.toNat * 2 ^ 59 + f.dest.toNat * 2 ^ 47 + f.skind.toNat * 2 ^ 45 + f.src.toNat * 2 ^ 33 +
  f.op.toNat * 2 ^ 29 + (if f.last then 2 ^ 28 else 0) + f.wen.toNat * 2 ^ 26 + f.sem.toNat * 2 ^ 20 +
  f.addr.toNat * 2 ^ 3 + f.route.toNat * 2

/-- The flit with one increment of a semaphore behind it (R243). -/
def Flit.withLast (f : Flit) (sem : Nat) : Flit := { f with last := true, sem := BitVec.ofNat 6 sem }

/-- The flit with one word poisoned (R281). -/
def Flit.poisonWord (f : Flit) (i : Nat) : Flit :=
  if i = 0 then { f with err0 := poisonPattern } else { f with err1 := poisonPattern }

end Sys2Proof

namespace Sys2Proof.Machine

/-- Whether the payload's words are delivered: their decoded bytes, or the word that is not delivered (R246, R280). -/
def flitWord (f : Flit) (i : Nat) : Option (List Byte × Bool) :=
  let e := if i = 0 then f.err0 else f.err1
  match (wcDecode e).1 with
  | .clean => some ((f.payload.drop (32 * i)).take 32, false)
  | .corrected =>
    some (((f.payload.drop (32 * i)).take 32).zipWith (· ^^^ ·) (dataBytes (wcDecode e).2), true)
  | _ => none

/-- The payload of a flit whose words are both delivered. -/
def flitPayload (f : Flit) : Option (List Byte) :=
  match flitWord f 0, flitWord f 1 with
  | some a, some b => some (a.1 ++ b.1)
  | _, _ => none

/-! ### Attach positions (R248, R249) -/

/-- On the north and south edges an attach link that enters an unused site goes on to the next router of the column (R37). -/
def State.edgeEntry (s : State) (c : Nat) : Nat → Nat
  | 0 => c
  | n + 1 =>
    if !s.siteFenced c then c else if coreRow c < 32 then s.edgeEntry (c + 64) n else s.edgeEntry (c - 64) n

/-- The router at which an attach position of a site enters the mesh. -/
def State.attachRouter (s : State) (site i : Nat) : Nat :=
  let c := edgeCore (site / 9) (7 * (site % 9) + i)
  if coreRow c = 0 || coreRow c = 63 then s.edgeEntry c 7 else c

/-- The edge core of attach position 7p + j of a site, or the next whose core is not in a cold field (R248). -/
def State.attachCore (s : State) (site j : Nat) : Nat :=
  let pos := (List.range 7).map (fun i => s.attachRouter site ((j + i) % 7))
  (pos.find? (fun c => !s.net.cold.contains (fieldOf c))).getD (pos.headD 0)

/-- The attach core of the HID's spur. -/
def hidCore : Nat := 63

/-- The core at which a flit leaves the mesh or is delivered (R248). -/
def State.routeTarget (s : State) (f : Flit) : Nat :=
  if f.dkind.toNat = kCore then f.dest.toNat
  else if f.dkind.toNat = kSite then
    s.attachCore f.dest.toNat (if f.skind.toNat = kCore then f.src.toNat % 7 else 0)
  else hidCore

/-! ### Channels of a quench (R586, R587) -/

/-- What a unit has captured in the quench. -/
def State.captureOf (s : State) (u : Src) : Option Capture :=
  match u with
  | .core i => Tab.get none s.obs.quench.cores i
  | .site i => Tab.get none s.obs.quench.sites i
  | .hid => s.obs.quench.hid
  | _ => none

def State.setCapture (s : State) (u : Src) (c : Capture) : State :=
  let q := s.obs.quench
  match u with
  | .core i => { s with obs := { s.obs with quench := { q with cores := Tab.set none q.cores i (some c) } } }
  | .site i => { s with obs := { s.obs with quench := { q with sites := Tab.set none q.sites i (some c) } } }
  | .hid => { s with obs := { s.obs with quench := { q with hid := some c } } }
  | _ => s

/-- A unit that has captured injects nothing until the quench ends (R586, R590). -/
def State.injectionStopped (s : State) (u : Src) : Bool :=
  s.net.stopped || (s.obs.quench.active && (s.captureOf u).isSome)

/-- The number of a channel: inbound link, VC, and 0 for the main class or 1 for the detour class. -/
def channelOf (link vc : Nat) (detour : Bool) : Nat := 2 * (8 * link + vc) + (if detour then 1 else 0)

/-- A flit counted on its channel: the first four headers are kept. -/
def Capture.count (c : Capture) (link : Nat) (f : Flit) : Capture :=
  let k := 8 * link + f.vc.toNat
  let hs := Tab.get [] c.headers k
  if c.markers.contains (channelOf link f.vc.toNat (decide (f.route ≠ 0))) then c
  else { c with
    counts := Tab.set 0 c.counts k (Tab.get 0 c.counts k + 1)
    headers := if hs.length < 4 then Tab.set [] c.headers k (hs ++ [f.header]) else c.headers }

/-- A flit arrives at a unit on an inbound link: between the unit's capture and its channel's MARKER it is counted. -/
def State.arrive (s : State) (u : Src) (link : Nat) (f : Flit) : State :=
  if s.obs.quench.active && !s.obs.quench.complete then
    match s.captureOf u with
    | some c => s.setCapture u (c.count link f)
    | none => s
  else s

/-! ### Routing (R248, R270) -/

def fieldRow (f : Nat) : Nat := f / 8
def fieldCol (f : Nat) : Nat := f % 8

/-- One hop along a row or a column towards a coordinate. -/
def hop (i d : Nat) (row : Bool) : Nat :=
  if row then (if coreRow i < d then i + 64 else i - 64)
  else (if coreCol i < d then i + 1 else i - 1)

/-- The first cold field ahead of a router in a field column, moving towards a row (R270). -/
def State.coldAhead (s : State) (i dr fc : Nat) : Option Nat :=
  let fr := coreRow i / 8
  let rows := if coreRow i ≤ dr then (List.range 8).filter (fun r => decide (fr ≤ r ∧ r ≤ dr / 8))
    else ((List.range 8).filter (fun r => decide (dr / 8 ≤ r ∧ r ≤ fr))).reverse
  (rows.map (fun r => r * 8 + fc)).find? (fun f => s.net.cold.contains f)

/-- The next router of a flit and its ROUTE field (R248, R270); none at the target. -/
def State.normalHop (s : State) (i t route : Nat) : Option (Nat × Nat) :=
  let dr := coreRow t
  let dc := coreCol t
  let cold (c : Nat) : Bool := s.net.cold.contains (fieldOf c)
  if i = t then none
  else if coreCol i ≠ dc then
    let n := hop i dc false
    if !cold n then some (n, route)
    else
      let fy := fieldRow (fieldOf n)
      let north := decide (dr < 8 * fy) || (decide (dr ≤ 8 * fy + 7) && decide (fy ≠ 0))
      some (if north then i - 64 else i + 64, if route = 0 then 1 else route)
  else
    let n := hop i dr true
    if !cold n then some (n, route)
    else
      let fx := fieldCol (fieldOf n)
      let pc := if fx = 0 then 8 else 8 * fx - 1
      some (hop i pc false, 2)

def State.routeStep (s : State) (i t route : Nat) : Option (Nat × Nat) :=
  if i = t then none
  else if route = 2 then
    match s.coldAhead i (coreRow t) (coreCol t / 8) with
    | none => s.normalHop i t 1
    | some f =>
      let fx := fieldCol f
      let pc := if fx = 0 then 8 else 8 * fx - 1
      if coreCol i ≠ pc then some (hop i pc false, 2)
      else some (hop i (coreRow t) true, 2)
  else s.normalHop i t route

/-- The link stages of fenced sites pass north and south links through: a flit in a column goes on to the next router (R37). -/
def State.passSites (s : State) (i t : Nat) : Nat → Nat → Nat
  | 0, n => n
  | k + 1, n =>
    if coreCol n ≠ coreCol i || n = t || !s.siteFenced n || coreRow n = 0 || coreRow n = 63 then n
    else s.passSites i t k (if i < n then n + 64 else n - 64)

/-- The next router of a flit and its ROUTE field; none at the target (R37, R248, R270). -/
def State.nextHop (s : State) (i t route : Nat) : Option (Nat × Nat) :=
  (s.routeStep i t route).map (fun q => (s.passSites i t 64 q.1, q.2))

/-- The input of a router by which a flit comes from another. -/
def linkFrom (r n : Nat) : Nat :=
  if coreCol r = coreCol n then (if n < r then 2 else 0) else if r < n then 3 else 1

/-- A flit as its next router would hold it: behind the seam FIFO where it crosses the seam, and in the receiver of its sender's
physical row (R38, R266). -/
def State.hopFlight (s : State) (r : Nat) (q : Nat × Nat) (f : Flit) : Flight :=
  let across := decide (coreCol r ≠ coreCol q.1)
  { at_ := q.1
    flit := { f with route := BitVec.ofNat 2 q.2 }
    link := linkFrom r q.1
    recv := if across then s.physRow r + 1 - s.physRow q.1 else 1
    seam := decide (coreCol r / 32 ≠ coreCol q.1 / 32) }

/-! ### Buffers and credits (R38, R252, R266) -/

/-- A flit stands in a detour buffer where its ROUTE is other than NORMAL (R270). -/
def Flight.detour (x : Flight) : Bool := decide (x.flit.route ≠ 0)

/-- Two flits stand in one buffer: input, receiver, VC and class, or the same of the seam FIFO. -/
def Flight.sameBuffer (x y : Flight) : Bool :=
  decide (x.at_ = y.at_ ∧ x.link = y.link ∧ x.recv = y.recv ∧ x.seam = y.seam ∧ x.flit.vc = y.flit.vc) &&
  decide (x.detour = y.detour)

/-- Slots of a buffer: the seam FIFO, the local injection queue, an input receiver. -/
def Flight.slots (x : Flight) : Nat :=
  if x.seam then (if x.detour then 4 else 64) else if x.link = 5 || x.detour then 4 else 12

/-- The buffer that a flit would enter has a free slot: its sender holds a credit. -/
def hasSlot (l : List Flight) (x : Flight) : Bool := decide ((l.filter x.sameBuffer).length < x.slots)

/-- A flit is the oldest of its buffer: routers never reorder flits within one VC and class (R252). -/
def headsBuffer (l : List Flight) (x : Flight) : Bool := decide (l.find? x.sameBuffer = some x)

/-- The next flit of a buffer comes to its head. -/
def restamp (x : Flight) (cycle : Nat) : List Flight → List Flight
  | [] => []
  | y :: r => if x.sameBuffer y then { y with since := cycle } :: r else y :: restamp x cycle r

/-- Cycles of the core clock of a router's half (R188). -/
def State.routerCycle (s : State) (r : Nat) : Nat := (Tab.get {} s.clk.halves (halfOf r)).cycles / 10

/-- A half's clock stands still from stop edge 400, or 10,400 where the point is raised, for 2,000 cycles of the 200 MHz half
reference (R527). -/
def Half.clockStopped (x : Half) (now : Nat) : Bool :=
  match x.changing with
  | none => false
  | some n =>
    let edge := x.orderedAt + (if n < x.op then 52000 else 2000)
    decide (edge ≤ now ∧ now < edge + 10000)

/-- The clock of a router's half stands still: nothing moves in it (R267). -/
def State.clockStopped (s : State) (r : Nat) : Bool := (Tab.get {} s.clk.halves (halfOf r)).clockStopped s.time

/-- A flit takes the last place of its buffer. -/
def State.enter (s : State) (x : Flight) : State :=
  { s with net := { s.net with flights := s.net.flights ++ [{ x with since := s.routerCycle x.at_ }] } }

/-- A flit leaves its buffer, and its slot is free. -/
def State.leave (s : State) (x : Flight) : State :=
  { s with net := { s.net with flights := restamp x (s.routerCycle x.at_) (s.net.flights.erase x) } }

/-- Flits that stand at a router, in all receivers of an input, of one VC and class. -/
def State.occupancy (s : State) (r link vc : Nat) (detour : Bool) : Nat :=
  (s.net.flights.filter (fun x => x.at_ = r && x.link = link && !x.seam && x.flit.vc.toNat = vc && x.detour = detour)).length

/-! ### Drains (R60, R271) -/

/-- A flit that a core of a job context has injected, or that goes to one. -/
def Job.carries (j : Job) (f : Flit) : Bool :=
  (decide (f.skind.toNat = kCore) && j.holds f.src.toNat) || (decide (f.dkind.toNat = kCore) && j.holds f.dest.toNat)

/-- Nothing of a job context is in flight, and none of its streams awaits a granule. DEDUCED: the two totals of R60 step 3 are
equal then, and the wait of R237 has ended (assumption log 10). -/
def State.jobQuiet (s : State) (j : Nat) : Bool :=
  s.net.flights.all (fun x => !(s.job j).carries x.flit) &&
  s.net.waiting.all (fun x => !(decide (x.flit.skind.toNat = kCore) && (s.job j).holds x.flit.src.toNat)) &&
  s.cores.all (fun p => !(s.job j).holds p.1 ||
    (p.2.streams.all (fun q => q.2.reqs.isEmpty) && p.2.xfers.all (fun x => x.reqs.isEmpty)))

/-- The drain of a shift has ended: for cause ROUTER after 20 µs, else when the lost core's job context is quiet (R60). -/
def State.shiftDrained (s : State) (col : Nat) (sh : Shift) : Option Nat :=
  match sh.drained with
  | some t => some t
  | none =>
    if sh.router then (if sh.started + 20000 ≤ s.time then some (sh.started + 20000) else none)
    else
      match s.jobOf (coreAt col sh.row) with
      | none => some s.time
      | some j => if s.jobQuiet j then some s.time else none

/-- Note the end of every drain that has ended. -/
def State.noteDrains (s : State) : State :=
  { s with wafer := { s.wafer with
    shifts := s.wafer.shifts.map (fun p => (p.1, p.2.map (fun sh => { sh with drained := s.shiftDrained p.1 sh }))) } }

/-! ### Injection (R250, R252, R276) -/

/-- Step 4 of a shift re-points links of a core's column or of a neighbouring one (R26, R60). -/
def State.repointing (s : State) (c : Nat) : Bool :=
  let cols := [columnOf c] ++ (if coreCol c = 0 then [] else [columnOf (c - 1)]) ++
    (if coreCol c = 63 then [] else [columnOf (c + 1)])
  cols.any (fun k => (Tab.get none s.wafer.shifts k).any (fun sh => sh.drained.isSome))

/-- The next granule of a request comes from a peer at a window granule. -/
def Request.awaits (r : Request) (peer granule : Nat) : Bool :=
  r.site = peer && decide (0 < r.left) && decide (r.doff / 64 + (r.len - r.left) = granule)

/-- The outstanding request of a stream whose next granule arrives from a peer at a window granule. -/
def Core.requestAt (c : Core) (peer granule : Nat) : Option (Nat × Request) :=
  (List.range 32).findSome? (fun n => ((c.stream n).reqs.find? (fun r => r.awaits peer granule)).map (fun r => (n, r)))

/-- The same of a core's own transfers with stack memory (R133, R224). -/
def Core.xferAt (c : Core) (peer granule : Nat) : Option (CoreXfer × Request) :=
  c.xfers.findSome? (fun x => (x.reqs.find? (fun r => r.awaits peer granule)).map (fun r => (x, r)))

/-- Sites and the HID hold deliveries for a job context that drains (R60 step 2): WRITEs that no request of a stream awaits
(R234, R236). -/
def State.heldBack (s : State) (f : Flit) : Bool :=
  decide (f.skind.toNat ≠ kCore ∧ f.dkind.toNat = kCore ∧ f.op.toNat = opWrite) &&
  !((s.core f.dest.toNat).requestAt f.peer f.addr.toNat).isSome &&
  !((s.core f.dest.toNat).xferAt f.peer f.addr.toNat).isSome &&
  (s.jobOf f.dest.toNat).any (fun j => (s.job j).draining.isSome)

/-- A flit at its producer may enter the network now: no pause, quench or re-pointing stops its injector (R26), its router and
its clock run, and its queue has a free slot. -/
def State.mayInject (s : State) (x : Flight) : Bool :=
  !s.injectionStopped x.flit.sender && !(decide (x.link = 5) && s.repointing x.at_) && !s.heldBack x.flit &&
  !s.routerOff x.at_ && !s.clockStopped x.at_ && hasSlot s.net.flights x

/-- One flit enters its injection queue, or the attach buffer of an edge router, where it may. -/
def State.admitOne (s : State) (x : Flight) : State :=
  if s.mayInject x then
    let t := ({ s with net := { s.net with waiting := s.net.waiting.erase x } }).enter { x with entry := none }
    if x.link = 4 then t.arrive (.core x.at_) 4 x.flit else t
  else s

/-- A flit that a tile queue entry, or the drain buffer (4), has given its core's local port has not been injected. -/
def State.stillSends (s : State) (c e : Nat) : Bool := s.net.waiting.any (fun x => x.at_ = c && x.entry = some e)

/-- A SENDING entry becomes FREE once its last flit has been injected (R126, R150), and the drain buffer once the last granule of
a spill has been (R124). -/
def State.freeSent (s : State) (c : Nat) : State :=
  let s1 := (List.range 4).foldl (fun a e =>
    if ((a.core c).entry e).st = .sending && !a.stillSends c e then a.modCore c (fun k => k.setEntry e {}) else a) s
  if (s1.core c).drain.any (fun d => d.spilled) && (s1.core c).xfers.all (fun x => x.work ≠ .spillRead) && !s1.stillSends c 4
  then s1.modCore c (fun k => { k with drain := none }) else s1

/-- What waits at the producers of a router enters its queues, in order, as far as there is room. -/
def State.admitAt (s : State) (r : Nat) : State :=
  ((s.net.waiting.filter (fun x => x.at_ = r)).foldl State.admitOne s).freeSent r

/-- Flits leave the seam FIFOs of a router's inputs for its receivers, in order, as far as there is room (R266, R267). -/
def State.pullSeam (s : State) (r : Nat) : State :=
  if s.clockStopped r then s
  else
    (s.net.flights.filter (fun x => x.at_ = r && x.seam)).foldl (fun a x =>
      if hasSlot a.net.flights { x with seam := false } then (a.leave x).enter { x with seam := false } else a) s

/-- A router's queues and receivers take what waits before them. -/
def State.refill (s : State) (r : Nat) : State := (s.pullSeam r).admitAt r

/-- Injection resumes everywhere: what waited leaves in order (R271 step 5, R590). -/
def State.admitAll (s : State) : State := s.net.waiting.foldl (fun a x => a.admitAt x.at_) s

/-- A flit to an out-of-service core is absorbed and counted at the router that holds it (R250). -/
def State.absorbAt (s : State) (router : Nat) : State := s.bumpRouter router 10 1

/-- The router's map holds a flit's destination core (R250, R268). -/
def State.toLost (s : State) (f : Flit) : Bool := decide (f.dkind.toNat = kCore) && s.net.oos.contains f.dest.toNat

/-- A flit comes to the injection queue of a router, of its local port or its attach link; one to an out-of-service core is
absorbed there (R250). -/
def State.offer (s : State) (entry : Option Nat) (at_ : Nat) (f : Flit) : State :=
  if s.toLost f then s.absorbAt at_
  else
    let x : Flight := { at_ := at_, flit := f, link := if f.skind.toNat = kCore then 5 else 4, entry := entry }
    { s with net := { s.net with waiting := s.net.waiting ++ [x] } }

/-- Inject flits at a router in order; each waits at its producer where it must (R252). -/
def State.injectAll (s : State) (entry : Option Nat) (at_ : Nat) (fs : List Flit) : State :=
  (fs.foldl (fun a f => a.offer entry at_ f) s).admitAt at_

def State.inject (s : State) (at_ : Nat) (f : Flit) : State := s.injectAll none at_ [f]

/-- A core's local port takes a flit of a VC now: nothing of that VC waits, its queue has a free slot, and its injector is not
stopped (R252). -/
def State.portOpen (s : State) (c vc : Nat) : Bool :=
  s.mayInject { at_ := c, flit := mkFlit vc kCore c kCore c opWrite 0 [], link := 5 } &&
  s.net.waiting.all (fun x => !(x.at_ = c && x.link = 5 && decide (x.flit.vc.toNat = vc)))

def State.sendFromCore (s : State) (c : Nat) (f : Flit) : State := s.inject c f

/-- A site sends a flit for core d through attach position 7p + (d mod 7), and any other through 7p (R249). -/
def State.sendFromSite (s : State) (site : Nat) (f : Flit) : State :=
  s.inject (s.attachCore site (if f.dkind.toNat = kCore then f.dest.toNat % 7 else 0)) f

def State.sendAllFromSite (s : State) (site : Nat) (fs : List Flit) : State :=
  fs.foldl (fun a f => a.sendFromSite site f) s

/-- A site sends through its attaches, the HID through its spur (R249). -/
def State.sendFrom (s : State) (u : Src) (f : Flit) : State :=
  match u with
  | .core c => s.sendFromCore c f
  | .site i => s.sendFromSite i f
  | _ => s.inject hidCore f

/-! ### Arrival at a unit -/

/-- The attach link of a site by which a flit reaches it; the HID has one. -/
def State.attachLink (s : State) (f : Flit) : Nat :=
  if f.dkind.toNat = kSite then
    ((List.range 7).find? (fun i => s.attachRouter f.dest.toNat i = s.routeTarget f)).getD 0
  else 0

/-- No WRITE from the HID to a core is on its way. -/
def State.spurQuiet (s : State) (core : Nat) : Bool :=
  let ours (x : Flight) : Bool :=
    decide (x.flit.skind.toNat = kHid ∧ x.flit.dkind.toNat = kCore ∧ x.flit.dest.toNat = core ∧ x.flit.op.toNat = opWrite)
  s.net.flights.all (fun x => !ours x) && s.net.waiting.all (fun x => !ours x)

/-- A TOKEN_PUT completes once every byte has come to its core (R497). -/
def State.settleTokens (s : State) : State :=
  (s.host.tokens.filter (fun t => s.spurQuiet t.core)).foldl (fun a t =>
    ({ a with host := { a.host with tokens := a.host.tokens.erase t } }).finish t.ring t.id t.status 0 0) s

/-- The flit as it stands at the router that serves its unit, the oldest of its buffer, with that router's clock running: order
per source, destination and VC holds (R274). -/
def State.arrival (s : State) (f : Flit) : Option Flight :=
  if s.clockStopped (s.routeTarget f) then none
  else s.net.flights.find? (fun x => x.at_ = s.routeTarget f && x.flit = f && !x.seam && headsBuffer s.net.flights x)

/-- A flit that reaches its unit leaves the network; one that has not reached it stays, and the unit does nothing. -/
def State.take (s : State) (f : Flit) : Option State :=
  (s.arrival f).map (fun x =>
    let t := (s.leave x).refill x.at_
    (if f.dkind.toNat = kCore then t else t.arrive f.unit (s.attachLink f) f).noteDrains.settleTokens)

/-- What a unit does with a flit that has reached it. -/
def State.onArrival (s : State) (f : Flit) (g : State → State) : State :=
  match s.take f with
  | none => s
  | some t => g t

/-! ### Unexpected flits (R612) -/

/-- The counter ABSORBED of a unit (R575). -/
def State.countAbsorbed (s : State) (u : Src) : State :=
  match u with
  | .core i => s.bumpRouter i 10 1
  | .site i => s.bumpSite i (if s.isIo i then 33 else 68) 1
  | _ => s

/-- A flit with no action at its unit is absorbed, counted and recorded (R612). -/
def State.unexpected (s : State) (f : Flit) : State :=
  (s.countAbsorbed f.unit).record .flitUnexpected f.unit
    [(1, f.unit.kind), (2, f.unit.num), (1, f.op.toNat), (1, f.vc.toNat), (1, f.skind.toNat), (2, f.src.toNat)]

/-- A flit absorbed at a fenced site's local port is counted in the fence event (R59). -/
def countInFence (r : Record) : Record :=
  { r with payload := payload [(1, fieldAt r.payload 0 1), (8, fieldAt r.payload 4 8 + 1)] }

def countLast (p : Record → Bool) (g : Record → Record) : List Record → List Record
  | [] => []
  | r :: l => if p r && !l.any p then g r :: l else r :: countLast p g l

def State.countFenced (s : State) (c : Nat) : State :=
  let p (r : Record) : Bool := decide (r.kind = .coreFenced ∧ r.skind = 0 ∧ r.source = c)
  { s with obs := { s.obs with log := countLast p countInFence s.obs.log } }

/-- A flit of an operation reaches its unit: absorbed at a lost core (R59, R250), without an action elsewhere (R612). -/
def State.atCore (s : State) (f : Flit) (op : Nat) (g : State → Nat → State) : State :=
  if f.op.toNat ≠ op then s
  else
    s.onArrival f (fun t =>
      let c := f.dest.toNat
      if f.dkind.toNat ≠ kCore then t.unexpected f
      else if t.toLost f then t.absorbAt c
      else if t.siteFenced c then t.countFenced c
      else g t c)

/-! ### Requests and completion records of sites (R289, R396) -/

/-- A flit of the bulk channel (R254: VC7) from a core to a peer: a site, or the HID (36). -/
def peerFlit (c peer op : Nat) (pay : List Byte) : Flit :=
  if peer = 36 then mkFlit 7 kHid 0 kCore c op 0 pay else mkFlit 7 kSite peer kCore c op 0 pay

/-- A request flit to a site or the HID. -/
def siteReqFlit (c peer : Nat) (pay : List Byte) : Flit := peerFlit c peer opSiteReq pay

/-- The payload of a READ or WRITE request (R287). -/
def stackRequest (opc ctx len addr doff tag : Nat) : List Byte :=
  leBytes 1 opc ++ leBytes 1 ctx ++ leBytes 2 len ++ leBytes 4 0 ++ leBytes 8 addr ++ leBytes 4 doff ++ leBytes 4 tag

/-- A completion record (R289, R396). -/
def completionRecord (status ctx len id addr version : Nat) : List Byte :=
  leBytes 1 status ++ leBytes 1 ctx ++ leBytes 2 len ++ leBytes 4 id ++ leBytes 8 addr ++ leBytes 4 version ++
    leBytes 12 0

/-- A data flit of a WRITE request, by its transfer tag (R288). -/
def writeDataFlit (c peer tag : Nat) (pay : List Byte) : Flit := (peerFlit c peer opSiteData pay).withTag tag

/-- A completion record for the core that has sent the request. -/
def completionFlit (site core status ctx len id addr version : Nat) : Flit :=
  mkFlit 7 kCore core kSite site opSiteData 0 (completionRecord status ctx len id addr version)

/-- Granules as WRITE flits from a site into a core's window, in ascending order. -/
def granuleFlits (site core off : Nat) (g : Nat) : List Byte → Nat → List Flit
  | _, 0 => []
  | bs, n + 1 =>
    mkFlit 7 kCore core kSite site opWrite (off / 64 + g) (bs.take 64) :: granuleFlits site core off (g + 1) (bs.drop 64) n

/-! ### Deliveries (R234) -/

/-- Granules of a delivery: an offset in the window and the bytes from it to the granule's end. -/
def deliveryParts (off : Nat) : List Byte → Nat → List (Nat × List Byte)
  | _, 0 => []
  | bs, n + 1 =>
    if bs.isEmpty then []
    else
      let k := 64 - off % 64
      (off, bs.take k) :: deliveryParts (off + k) (bs.drop k) n

/-- A WRITE flit of a delivery: the words that its bytes fill are enabled. -/
def deliveryFlit (skind src core : Nat) (p : Nat × List Byte) : Flit :=
  let o := p.1 % 64
  { mkFlit 7 kCore core skind src opWrite (p.1 / 64) (List.replicate o 0 ++ p.2) with
    wen := if o < 32 then (if o + p.2.length ≤ 32 then 1 else 3) else 2 }

/-- The flits of a delivery: its bytes in order, and one increment with the last (R234). -/
def deliveryFlits (u : Src) (core off : Nat) (bs : List Byte) (sem : Option Nat) : List Flit :=
  let fs := (deliveryParts off bs (bs.length / 64 + 2)).map (deliveryFlit (if u.kind = 1 then kSite else kHid) u.num core)
  match sem, fs.getLast? with
  | some m, some f => fs.dropLast ++ [f.withLast m]
  | _, _ => fs

/-- A delivery from a site or the HID: its bytes travel as WRITE flits into the window, then one increment (R234, R244). -/
def State.deliver (s : State) (u : Src) (c off : Nat) (bs : List Byte) (sem : Option Nat) : State :=
  (deliveryFlits u c off bs sem).foldl (fun a f => a.sendFrom u f) s

end Sys2Proof.Machine
end

