-- ==== Sys2Proof/Machine/FabricOps.lean ====
section
/-! DEFINITION. What the I/O die sites and the transport share: ports, connections, messages sent, owned ranges, and the
messages by which contributions are confirmed and retracted (spec/12). -/

namespace Sys2Proof.Machine

/-! ### Regions of stack memory (R291) -/

/-- An entry of KIND 0 is unused and holds nothing. -/
def MemRegion.holds (r : MemRegion) (a n : Nat) : Bool :=
  decide (r.kind ≠ 0 ∧ r.base ≤ a ∧ a + n ≤ r.base + r.granules * 4096)

/-- Kinds of region (R291). -/
def rkOwned : Nat := 1
def rkPartner : Nat := 2
def rkStaging : Nat := 3
def rkOffload : Nat := 4
def rkSpill : Nat := 5

/-- The region of a job context that holds a whole extent. -/
def Job.regionOf (j : Job) (a n : Nat) : Option MemRegion := j.regions.find? (fun r => r.holds a n)

def Job.inKind (j : Job) (k a n : Nat) : Bool := j.regions.any (fun r => r.kind = k && r.holds a n)

/-- The region table of every site, by job context and manifest entry (R291). -/
def State.regionTable (s : State) : List MemRegion :=
  (List.range 8).flatMap (fun j => (s.job j).regions)

/-- An entry's 16 bytes (R291). -/
def MemRegion.toBytes (r : MemRegion) : List Byte :=
  leBytes 8 r.base ++ leBytes 4 r.granules ++ leBytes 1 r.kind ++ leBytes 1 r.job ++ leBytes 2 0

/-- Whether a commit window of a job context is open (R341). -/
def Job.commitOpen (j : Job) : Bool :=
  j.steps.any (fun r => r.st = .normKnown && r.commit) || j.steps.all (fun r => r.st = .waiting)

/-! ### Ports (R376 to R381) -/

def State.ioSite (s : State) (i : Nat) : IoSite := Tab.get {} s.fabric.sites i
def State.setIoSite (s : State) (i : Nat) (x : IoSite) : State :=
  { s with fabric := { s.fabric with sites := Tab.set {} s.fabric.sites i x } }
def State.modIoSite (s : State) (i : Nat) (f : IoSite → IoSite) : State := s.setIoSite i (f (s.ioSite i))

def State.port (s : State) (p : Nat) : FPort := Tab.get {} s.fabric.ports p
def State.setPort (s : State) (p : Nat) (x : FPort) : State :=
  { s with fabric := { s.fabric with ports := Tab.set {} s.fabric.ports p x } }

/-- The state of a port (R378). -/
def State.portState (s : State) (p : Nat) : PortState :=
  if !s.isIo (p / 4) then .dark
  else if (s.ioSite (p / 4)).fenced then .fenced
  else (s.port p).st

/-- The UP ports of a site, ascending (R380). -/
def State.upPorts (s : State) (site : Nat) : List Nat :=
  ((List.range 4).map (fun j => 4 * site + j)).filter (fun p => s.portState p = .up)

/-- I/O die sites of the build, ascending. -/
def State.ioSites (s : State) : List Nat := (List.range 36).filter (fun i => s.isIo i)

/-- The site whose ports send for a site: itself, or the next with an UP port; a fenced die sends nothing (R19, R381). -/
def State.sender (s : State) (site : Nat) : Option Nat :=
  if (s.ioSite site).fenced then none else ((List.range 36).map (fun i => (site + i) % 36)).find? (fun i => s.isIo i && !(s.upPorts i).isEmpty)

/-- Counter words of an I/O die site's port (R411, R575). -/
def portWord (p k : Nat) : Nat := 8 * (p % 4) + k
def State.bumpPort (s : State) (p k n : Nat) : State := s.bumpSite (p / 4) (portWord p k) n
def cFramesTx : Nat := 0
def cFramesRx : Nat := 1
def cRetransmitted : Nat := 2
def cFcsError : Nat := 3
def cDiscarded : Nat := 4
def cPayloadCorrected : Nat := 7

def State.discard (s : State) (p : Nat) : State := s.bumpPort p cDiscarded 1

/-! ### Messages (R387 to R390) -/

def mAck : Nat := 0x01
def mHeartbeat : Nat := 0x02
def mMembership : Nat := 0x03
def mGatherReq : Nat := 0x10
def mGatherData : Nat := 0x11
def mContrib : Nat := 0x20
def mConfirm : Nat := 0x21
def mRetract : Nat := 0x22
def mReduced : Nat := 0x23
def mShardPut : Nat := 0x30
def mPermute : Nat := 0x31
def mPartnerPut : Nat := 0x32
def mPartnerGet : Nat := 0x33
def mApplied : Nat := 0x34

/-- A message with every field zero but its type. -/
def msg (typ : Nat) : Msg where
  seq := 0
  typ := typ
  tag := 0
  obj := 0
  offset := 0
  count := 0
  version := 0
  mflags := 0
  status := 0
  rtype := 0
  payload := []

/-- Bytes 0x00 to 0x0F of the message header, over which R380 takes its CRC. -/
def Msg.head (m : Msg) : List Byte := leBytes 4 m.tag ++ leBytes 4 m.obj ++ leBytes 8 m.offset

/-- The bucket tag (R388). -/
def bucketTag (job step bucket : Nat) : Nat := job * 2 ^ 21 + (step % 2) * 2 ^ 20 + bucket
def normBucket : Nat := 0xFFFFF

/-! ### Connections (R383 to R385) -/

def Conn.isOn (c : Conn) (site g server : Nat) : Bool :=
  decide (c.site = site) && decide (c.group = g) && decide (c.server = server)

def State.conn (s : State) (site g server : Nat) : Conn :=
  (s.fabric.conns.find? (fun c => c.isOn site g server)).getD { group := g, site := site, server := server }

def putConn (x : Conn) : List Conn → List Conn
  | [] => [x]
  | c :: r => if c.isOn x.site x.group x.server then x :: r else c :: putConn x r

def State.setConn (s : State) (x : Conn) : State :=
  { s with fabric := { s.fabric with conns := putConn x s.fabric.conns } }

/-- Serial arithmetic: a precedes b (R383). -/
def seqBefore (a b : Nat) : Bool :=
  let d := (b + 2 ^ 32 - a % 2 ^ 32) % 2 ^ 32
  decide (1 ≤ d ∧ d < 2 ^ 31)

/-- The site whose ports send for a site is noted; SITE_PORTS_LOST where another takes them over (R381). -/
def State.noteSender (s : State) (site w : Nat) : State :=
  if w = site then
    if (s.ioSite site).forwardTo = none then s else s.modIoSite site (fun x => { x with forwardTo := none })
  else if (s.ioSite site).forwardTo = some w then s
  else (s.modIoSite site (fun x => { x with forwardTo := some w })).record .sitePortsLost (.site site) [(1, site), (1, w)]

/-- A frame leaves on the port of R380 for its t-th sending, from the site itself or from the one that sends for it (R381).
DESIGN CHOICE: its way over the wafer network, whose form the spec does not give (assumption log 62). -/
def State.sendFrame (s : State) (site : Nat) (head : List Byte) (t : Nat) : State :=
  match s.sender site with
  | none => s
  | some w =>
    let l := s.upPorts w
    (s.noteSender site w).bumpPort (l.getD (((crc32 head).toNat + t) % (max 1 l.length)) (4 * w)) cFramesTx 1

/-- An outgoing message carries the connection's ACK and CREDIT (R383 to R385). -/
def Conn.acked (c : Conn) : Conn := { c with sinceAck := 0, sentCredit := (c.expect + 512) % 2 ^ 32 }

/-- Messages that a site has sent and not seen acknowledged (R385). -/
def State.unackedAt (s : State) (site : Nat) : Nat :=
  ((s.fabric.conns.filter (fun c => c.site = site)).map (fun c => c.unacked.length)).foldl (· + ·) 0

/-- Send the messages of a connection's queue that credit and the site's limit allow (R384, R385). -/
def State.pumpConn (s : State) (site g server : Nat) : Nat → State
  | 0 => s
  | n + 1 =>
    let c := s.conn site g server
    match c.queue, c.credit with
    | m :: r, some cr =>
      if seqBefore c.nextSeq cr && decide (s.unackedAt site < 4096) && (s.sender site).isSome then
        let m' := { m with seq := c.nextSeq, sends := 1 }
        let c' := { c.acked with
          queue := r
          nextSeq := (c.nextSeq + 1) % 2 ^ 32
          unacked := c.unacked ++ [m'] }
        ((s.setConn c').sendFrame site m.head 0).pumpConn site g server n
      else s
    | _, _ => s

/-- Hand a sequenced message to the connection with a server. -/
def State.sendTo (s : State) (site g server : Nat) (m : Msg) : State :=
  let c := s.conn site g server
  (s.setConn { c with queue := c.queue ++ [m] }).pumpConn site g server (c.queue.length + 1)

def State.group (s : State) (g : Nat) : Option FGroup := Tab.get none s.fabric.groups g

/-- The server of a key (R393). -/
def FGroup.server (x : FGroup) (key : Nat) : Nat := key % max 1 x.servers.length

/-- Send a message to the server its key names (R393). -/
def State.sendMsg (s : State) (site g key : Nat) (m : Msg) : State :=
  match s.group g with
  | none => s
  | some x => s.sendTo site g (x.server key) m

/-- The key of R393 for messages without a bucket tag. -/
def objKey (obj offset : Nat) : Nat := (obj + offset / 4096) % 2 ^ 32

/-- The lowest-numbered I/O die site that has an UP port (R403). -/
def State.firstUpSite (s : State) : Nat :=
  (s.ioSites.find? (fun i => !(s.upPorts i).isEmpty)).getD (s.ioSites.headD 0)

/-! ### Owned ranges (R392, R394) -/

/-- Bucket size Z in bytes. -/
def Job.z (j : Job) : Nat := j.zunit * 4 * 2 ^ 20

def OwnedRange.overlaps (z : Nat) (a b : OwnedRange) : Bool :=
  decide (a.first < b.first + b.count ∧ b.first < a.first + a.count) ||
  decide (a.base < b.base + b.count * z ∧ b.base < a.base + a.count * z)

/-- One range by itself meets R392 and R462. -/
def State.rangeOk (s : State) (j : Job) (r : OwnedRange) : Bool :=
  decide (1 ≤ r.count ∧ r.first + r.count ≤ normBucket ∧ r.base % 4096 = 0) &&
  j.inKind rkStaging r.base (r.count * j.z) && s.isIo r.site && !(s.ioSite r.site).fenced

def disjointRanges (z : Nat) : List OwnedRange → Bool
  | [] => true
  | r :: l => l.all (fun q => !r.overlaps z q) && disjointRanges z l

/-- Owned ranges as a whole meet R392. -/
def State.rangesOk (s : State) (j : Job) (rs : List OwnedRange) : Bool :=
  decide (rs.length ≤ 256) && rs.all (fun r => s.rangeOk j r) && disjointRanges j.z rs

/-- One 16-byte range of a record; none where a zero field is not zero (R392). -/
def parseRange (bs : List Byte) : Option OwnedRange :=
  let w := leNat (bs.take 4)
  if w / 2 ^ 20 % 16 ≠ 0 then none
  else some ⟨w % 2 ^ 20, leNat ((bs.drop 4).take 4), leNat ((bs.drop 8).take 8), w / 2 ^ 24⟩

def parseRanges : List Byte → Nat → Option (List OwnedRange)
  | _, 0 => some []
  | bs, n + 1 =>
    match parseRange (bs.take 16), parseRanges (bs.drop 16) n with
    | some r, some l => some (r :: l)
    | _, _ => none

def OwnedRange.toBytes (r : OwnedRange) : List Byte :=
  leBytes 4 (r.first + r.site * 2 ^ 24) ++ leBytes 4 r.count ++ leBytes 8 r.base

/-- Where the reduced data of an owned bucket is placed (R392). -/
def Job.bucketAddr (j : Job) (b : Nat) : Option Nat :=
  (j.owned.find? (fun r => decide (r.first ≤ b ∧ b < r.first + r.count))).map (fun r => r.base + (b - r.first) * j.z)

/-! ### Buckets of a layout (R348) -/

/-- The outbound bytes of a GRADIENT tensor (R348). KIND and class of a tensor entry as R318 gives them. -/
def Tensor.outbound (t : Tensor) (strict : Bool) : Nat := t.rows * t.cols * (if strict then 4 else 2)

/-! ### Steps of a job context -/

def Job.step (j : Job) (n : Nat) : Option StepRun := j.steps.find? (fun r => r.n = n)

def putStep (x : StepRun) : List StepRun → List StepRun
  | [] => []
  | r :: l => if r.n = x.n then x :: l else r :: putStep x l

def State.setStep (s : State) (j : Nat) (x : StepRun) : State :=
  s.modJob j (fun y => { y with steps := putStep x y.steps })

/-- The step of a job context that is OPEN, or BACKWARD_DONE. -/
def Job.openStep (j : Job) : Option StepRun := j.steps.find? (fun r => r.st = .open_ || r.st = .backwardDone)
def Job.committing (j : Job) : Option StepRun := j.steps.find? (fun r => r.st = .normKnown && r.commit)

/-! ### Confirm and retract (R402) -/

/-- Chunks of a bucket that one site has sent. -/
def SentBucket.from_ (b : SentBucket) (site : Nat) : Nat := (b.chunks.filter (fun c => c.2.1 = site)).length

/-- A bucket is full on the module (R402). -/
def SentBucket.full (b : SentBucket) : Bool := decide (b.bytes ≤ (b.chunks.map (fun c => c.2.2)).foldl (· + ·) 0)

def SentBucket.sites (b : SentBucket) : List Nat :=
  (List.range 36).filter (fun i => b.chunks.any (fun c => c.2.1 = i))

/-- RETRACT for one bucket from every site that has sent a chunk of it (R402, R367). -/
def State.retractBucket (s : State) (j g n : Nat) (b : SentBucket) : State :=
  b.sites.foldl (fun a i => a.sendMsg i g b.bucket { msg mRetract with tag := bucketTag j n b.bucket }) s

/-- Part-formed chunks and queued opens of a job context are dropped at every site (R402). -/
def State.dropChunks (s : State) (j : Nat) : State :=
  s.ioSites.foldl (fun a i => a.modIoSite i (fun x => { x with
    chunks := x.chunks.filter (fun c => c.job ≠ j)
    slots := x.slots.filter (fun c => c.job ≠ j)
    opens := x.opens.filter (fun c => c.job ≠ j) })) s

/-- Retract every bucket of a step that has been sent and not confirmed (R367 step 2, R370, R430). -/
def State.retractStep (s : State) (j : Nat) (r : StepRun) : State :=
  let s1 : State := match (s.job j).fgroup with
    | none => s
    | some g => (r.sentBuckets.filter (fun (b : SentBucket) => !b.confirmed && !b.chunks.isEmpty)).foldl
        (fun a b => a.retractBucket j g r.n b) s
  (s1.dropChunks j).setStep j { r with
    sentBuckets := r.sentBuckets.map (fun (b : SentBucket) => if b.confirmed then b else { b with chunks := [] }) }

/-! ### Requests of I/O die sites to stack memory (R397) -/

/-- Put bytes into a list of bytes. -/
def spliceBytes (bs : List Byte) (off : Nat) (d : List Byte) : List Byte :=
  bs.take off ++ d.take (bs.length - off) ++ bs.drop (off + d.length)

/-- The parts of some extents that lie within one 4 KiB granule each: address, bytes, place in the transfer (R287). -/
def ioPieces : List (Nat × Nat) → Nat → Nat → List (Nat × Nat × Nat)
  | _, _, 0 => []
  | [], _, _ => []
  | (a, n) :: r, off, k + 1 =>
    if n = 0 then ioPieces r off k
    else
      let m := min n (4096 - a % 4096)
      (a, m, off) :: ioPieces ((a + m, n - m) :: r) (off + m) k

/-- The transfer tag of a request: its number in [22:7] (R397). -/
def ioTag (no : Nat) : Nat := 128 * no

/-- One data flit of a WRITE: the words that its bytes fill are enabled (R288). -/
def ioDataFlit (site stack no : Nat) (p : Nat × List Byte) : Flit :=
  { (deliveryFlit kSite site 0 p) with
    dkind := BitVec.ofNat 2 kSite, dest := BitVec.ofNat 12 stack, op := BitVec.ofNat 4 opSiteData } |>.withTag (ioTag no)

/-- An I/O die site sends one READ or WRITE request, and the data of a WRITE behind it (R288, R397). -/
def State.ioSend (s : State) (site xfer : Nat) (wr : Bool) (data : List Byte) (p : Nat × Nat × Nat) : State :=
  let x := s.ioSite site
  let no := x.nextReq
  let stack := s.stackOf p.1
  let len := ceilDiv (p.1 % 64 + p.2.1) 64
  let r : IoReq := {
    no := no, xfer := xfer, write := wr, len := len, off := p.2.2, bytes := p.2.1, skip := p.1 % 64 }
  let s1 := s.setIoSite site { x with reqs := x.reqs ++ [r], nextReq := (no + 1) % 65536 }
  let s2 := s1.sendFromSite site (mkFlit 7 kSite stack kSite site opSiteReq 0
    (stackRequest (if wr then 2 else 1) 0 len (p.1 / 64 * 64) (if wr then 0 else ioTag no) (if wr then ioTag no else 0)))
  if wr then s2.sendAllFromSite site
      ((deliveryParts p.1 ((data.drop p.2.2).take p.2.1) 66).map (ioDataFlit site stack no))
  else s2

/-- An I/O die site reads or writes extents of stack memory for a job context; none where its region table has no region that
holds one of them (R397). -/
def State.ioStart (s : State) (site j : Nat) (es : List (Nat × Nat)) (wr : Bool) (data : List Byte) (w : IoWork) :
    Option State :=
  if es.all (fun e => ((s.job j).regionOf e.1 e.2).isSome) then
    let x := s.ioSite site
    let ps := ioPieces es 0 ((es.map (fun e => e.2 / 4096 + 3)).foldl (· + ·) 0)
    let s1 := s.setIoSite site { x with
      xfers := x.xfers ++ [{ id := x.nextXfer, work := w, data := data, left := ps.length }], nextXfer := x.nextXfer + 1 }
    some (ps.foldl (fun a p => a.ioSend site x.nextXfer wr data p) s1)
  else none

/-- A read: the bytes arrive in a transfer that is zero before. -/
def State.ioRead (s : State) (site j : Nat) (es : List (Nat × Nat)) (w : IoWork) : Option State :=
  s.ioStart site j es false (List.replicate ((es.map (·.2)).foldl (· + ·) 0) 0) w

def State.ioWrite (s : State) (site j : Nat) (es : List (Nat × Nat)) (data : List Byte) (w : IoWork) : Option State :=
  s.ioStart site j es true data w

/-! ### CPER records (R441, R442) -/

/-- The fields of a vendor section that a fault gives. -/
structure CperInfo where
  severity : Nat := 0
  kind : Nat := 0
  outcome : Nat := 0
  fence : Nat := 0
  code : Nat := 0
  core : Nat := 0xFFFF
  field : Nat := 0
  psite : Nat := 0
  job : Nat := 0xFF
  ctx : Nat := 0xFF
  step : Nat := 0
  pc : Nat := 0
  region : Nat := 0xFFFF
  checker : Nat := 0xFFFF
  first : Nat := 0
  repeat_ : Nat := 0xFF
  worst : Nat := 0
  delta : Nat := 0
  mag : Nat := 0
  wfirst : Nat := 0
  wlast : Nat := 0
  lastClean : Nat := 0
  site : Nat := 0xFF
  replays : Nat := 0
  addr : Nat := 0
  deriving DecidableEq, Repr

/-- The GUID 6c1e0f5a-93d2-4b7e-a418-2f7c5d90b3e1 in the byte order of UEFI. -/
def cperGuid : List Byte :=
  leBytes 4 0x6c1e0f5a ++ leBytes 2 0x93d2 ++ leBytes 2 0x4b7e ++ [0xa4, 0x18, 0x2f, 0x7c, 0x5d, 0x90, 0xb3, 0xe1]

/-- "FDX-4096-" and the build mnemonic of R2. -/
def fruText (build : Nat) : List Byte :=
  let code : List Byte := match build with
    | 0 => [0x32, 0x34]
    | 1 => [0x33, 0x30]
    | _ => [0x31, 0x38]
  [0x46, 0x44, 0x58, 0x2D, 0x34, 0x30, 0x39, 0x36, 0x2D, 0x4D] ++ code ++ leBytes 8 0

def cperVendor (s : State) (q : CperInfo) : List Byte :=
  leBytes 2 1 ++ leBytes 2 128 ++ leBytes 1 s.buildCode ++ leBytes 1 q.kind ++ leBytes 1 q.outcome ++ leBytes 1 q.fence ++
  leBytes 8 s.time ++ leBytes 8 s.lastSeq ++ leBytes 2 q.code ++ leBytes 2 q.core ++ leBytes 1 q.field ++
  leBytes 1 q.psite ++ leBytes 1 q.job ++ leBytes 1 q.ctx ++ leBytes 4 q.step ++ leBytes 4 q.pc ++
  leBytes 2 q.region ++ leBytes 2 q.checker ++ leBytes 1 q.first ++ leBytes 1 q.repeat_ ++ leBytes 1 q.worst ++
  leBytes 1 s.regs.risk ++ leBytes 4 q.delta ++ leBytes 4 q.mag ++ leBytes 4 q.wfirst ++ leBytes 4 q.wlast ++
  leBytes 4 q.lastClean ++ leBytes 1 q.site ++ leBytes 1 q.replays ++ leBytes 2 0 ++ leBytes 8 q.addr ++ leBytes 48 0

/-- A whole 328-byte record: header, descriptor, vendor section (R441). PRESUMED: revisions 0x0101
and 0x0100 (assumption log 22). -/
def cperBytes (s : State) (q : CperInfo) : List Byte :=
  ([0x43, 0x50, 0x45, 0x52] : List Byte) ++ leBytes 2 0x0101 ++ leBytes 4 0xFFFFFFFF ++ leBytes 2 1 ++ leBytes 4 q.severity ++
  leBytes 4 0 ++ leBytes 4 328 ++ leBytes 8 0 ++ leBytes 16 0 ++ leBytes 16 0 ++ cperGuid ++ cperGuid ++
  leBytes 8 s.lastSeq ++ leBytes 4 0 ++ leBytes 8 0 ++ leBytes 12 0 ++
  leBytes 4 200 ++ leBytes 4 128 ++ leBytes 2 0x0100 ++ leBytes 1 3 ++ leBytes 1 0 ++ leBytes 4 1 ++ cperGuid ++
  leBytes 8 Config.serial ++ leBytes 8 0 ++ leBytes 4 q.severity ++ fruText s.build ++
  cperVendor s q

/-- Add a CPER record; the oldest of 256 gives way (R441). -/
def State.cper (s : State) (q : CperInfo) : State :=
  let b := cperBytes s q
  if s.integ.cper.length < 256 then { s with integ := { s.integ with cper := s.integ.cper ++ [Cper.mk b] } }
  else ({ s with integ := { s.integ with cper := s.integ.cper.drop 1 ++ [Cper.mk b] } }).record .cperDropped .hid []

end Sys2Proof.Machine
end

