-- ==== Sys2Proof/Machine/Image.lean ====
section
/-! DEFINITION. Program images: their check and their load (spec/06 R211 to R215). -/

namespace Sys2Proof.Machine

/-- A context entry (R212). -/
structure ImageCtx where
  enable : Bool
  rank : Nat
  codesec : Nat
  entry : Nat
  deriving DecidableEq, Repr

/-- A section entry (R213). -/
structure ImageSec where
  offset : Nat
  length : Nat
  typ : Nat
  ctx : Nat
  payload : Nat
  deriving DecidableEq, Repr

structure Image where
  ctxs : List ImageCtx
  secs : List ImageSec
  bytes : List Byte
  deriving DecidableEq, Repr

def allZero (bs : List Byte) : Bool := bs.all (· = 0)
def zeroAt (bs : List Byte) (off n : Nat) : Bool := allZero ((bs.drop off).take n)

/-- The fields of a context entry (R212). -/
def imageCtxOf (w : Nat) : ImageCtx := ⟨decide (w / 2 ^ 63 = 1), w / 2 ^ 61 % 4, w / 2 ^ 56 % 32, w % 2 ^ 23⟩

/-- One context entry; none where it breaks R212. -/
def parseImageCtx (c : Nat) (w : Nat) : Option ImageCtx :=
  if w / 2 ^ 63 = 0 then (if w = 0 then some (imageCtxOf w) else none)
  else if c = 3 || decide (w / 2 ^ 23 % 2 ^ 33 ≠ 0) then none
  else some (imageCtxOf w)

/-- The fields of a section entry (R213). -/
def imageSecAt (bs : List Byte) (o : Nat) : ImageSec :=
  ⟨fieldAt bs o 4, fieldAt bs (o + 4) 4, fieldAt bs (o + 8) 1, fieldAt bs (o + 9) 1, fieldAt bs (o + 12) 4⟩

/-- An image as its bytes give it, with no check (R211 to R213): what a load takes from the layout store once the image has
passed R214 at LAYOUT_LOAD (R324). -/
def readImage (bs : List Byte) : Image :=
  ⟨(List.range 4).map (fun c => imageCtxOf (fieldAt bs (16 + 8 * c) 8)),
    (List.range (fieldAt bs 6 2)).map (fun i => imageSecAt bs (64 + 16 * i)), bs⟩

/-- One section entry; none where it breaks R213 or R214. -/
def parseImageSec (bs : List Byte) (size i : Nat) : Option ImageSec :=
  let o := 64 + 16 * i
  let x := imageSecAt bs o
  let inside := decide (x.payload + x.length ≤ size)
  let placed := decide (x.offset % 64 = 0 ∧ x.length % 64 = 0 ∧ x.length ≠ 0) && inSpad x.offset x.length
  let ok := zeroAt bs (o + 10) 2 && (
    match x.typ with
    | 1 => placed && inside && decide (x.ctx = 0) && inOneBank x.offset x.length
    | 2 => placed && inside && decide (x.ctx = 0)
    | 3 => placed && decide (x.ctx = 0) && decide (x.payload = 0)
    | 4 => decide (x.offset = 0 ∧ x.length = 256 ∧ x.ctx ≤ 2) && inside && zeroAt bs x.payload 8
    | 5 => decide (x.offset = 0 ∧ x.length = 128 ∧ x.ctx = 0) && inside
    | _ => false)
  if ok then some x else none

def allSome {α : Type} : List (Option α) → Option (List α)
  | [] => some []
  | none :: _ => none
  | some x :: r =>
    match allSome r with
    | some l => some (x :: l)
    | none => none

/-- A section whose payload, or zeros, a load places in the window (R213). -/
def ImageSec.isPlaced (x : ImageSec) : Bool := decide (1 ≤ x.typ ∧ x.typ ≤ 3)

def secsDisjoint : List ImageSec → Bool
  | [] => true
  | x :: r => r.all (fun y => decide (x.offset + x.length ≤ y.offset ∨ y.offset + y.length ≤ x.offset)) && secsDisjoint r

/-- The instruction words of a CODE section. -/
def codeWords (bs : List Byte) (o : Nat) : Nat → List Word64
  | 0 => []
  | n + 1 => BitVec.ofNat 64 (fieldAt bs o 8) :: codeWords bs (o + 8) n

/-- An enabled context names a CODE section that holds its entry (R212, R214). -/
def imageCtxOk (secs : List ImageSec) (c : ImageCtx) : Bool :=
  !c.enable ||
  match secs[c.codesec]? with
  | some x => decide (x.typ = 1 ∧ c.entry % 8 = 0 ∧ x.offset ≤ c.entry ∧ c.entry < x.offset + x.length)
  | none => false

/-- The whole check of R214: the image, or none where it is rejected. -/
def parseImage (bs : List Byte) : Option Image :=
  let size := fieldAt bs 8 4
  let n := fieldAt bs 6 2
  if fieldAt bs 0 4 ≠ 0x58445046 ∨ fieldAt bs 4 2 ≠ 1 ∨ n = 0 ∨ 32 < n ∨ size % 64 ≠ 0 ∨ 2 ^ 23 < size ∨
    size ≠ bs.length ∨ size < 64 + 16 * n then none
  else if (crc32 (bs.take 12 ++ leBytes 4 0 ++ bs.drop 16)).toNat ≠ fieldAt bs 12 4 || !zeroAt bs 48 16 then none
  else
    match allSome ((List.range 4).map (fun c => parseImageCtx c (fieldAt bs (16 + 8 * c) 8))),
      allSome ((List.range n).map (fun i => parseImageSec bs size i)) with
    | some cs, some secs =>
      let ok := secsDisjoint (secs.filter (·.isPlaced)) && cs.all (fun c => imageCtxOk secs c) &&
        (secs.filter (fun x => x.typ = 1)).all (fun x => (codeWords bs x.payload (x.length / 8)).all legalWord) &&
        (List.range 3).all (fun c => decide ((secs.filter (fun x => x.typ = 4 && x.ctx = c)).length ≤ 1)) &&
        decide ((secs.filter (fun x => x.typ = 5)).length ≤ 1)
      if ok then some ⟨cs, secs, bs⟩ else none
    | _, _ => none

/-! ### Loading (R215, R463) -/

/-- The registers of a REGS payload, s1 to s31. -/
def imageRegs (im : Image) (c : Nat) : Tab Word64 :=
  match im.secs.find? (fun x => x.typ = 4 && x.ctx = c) with
  | none => []
  | some x => Tab.setRange 0 [] 1 ((List.range 31).map (fun i =>
      BitVec.ofNat 64 (fieldAt im.bytes (x.payload + 8 * (i + 1)) 8)))

/-- The values of a SEMS payload. -/
def imageSems (im : Image) : Tab Nat :=
  match im.secs.find? (fun x => x.typ = 5) with
  | none => []
  | some x => Tab.setRange 0 [] 0 ((List.range 64).map (fun i => fieldAt im.bytes (x.payload + 2 * i) 2))

/-- The semaphores after a load: their new values, no overflow bit, and what the step has recorded of them (R201, R215). -/
def semsOf (old : Tab Sem) (t : Tab Nat) : Tab Sem :=
  (List.range 64).foldl (fun a n =>
    Tab.set {} a n { value := Tab.get 0 t n, reported := (Tab.get {} old n).reported }) []

/-- A loaded context (R215). -/
def Ctx.load (x : Ctx) (im : Image) (c : ImageCtx) (k : Nat) : Ctx :=
  if c.enable then
    let regs := imageRegs im k
    let sec := (im.secs[c.codesec]?).getD ⟨0, 0, 0, 0, 0⟩
    { x with
      st := .halted
      pc := c.entry
      rank := c.rank
      regs := regs
      codeBase := sec.offset
      codeLen := sec.length
      mark := ⟨c.entry, regs⟩
      clean := { pc := c.entry, regs := regs, tileOrdinal := x.tileOrdinal, vecOrdinal := x.vecOrdinal }
      wait := .none
      enabled := true
      replayUnsafe := false }
  else { x with st := .idle, wait := .none, enabled := false }

/-- The contexts, semaphores and clean marks of a core after a load; an instruction that a context of the earlier program has in the
matrix engine's next place is discarded. DEDUCED (assumption log 47). -/
def Core.loadCtxs (c : Core) (im : Image) (time : Nat) : Core :=
  let one (a : Core) (k : Nat) : Core :=
    a.setCtx k ((a.ctx k).load im (im.ctxs.getD k ⟨false, 0, 0, 0⟩) k)
  let x := one (one (one c 0) 1) 2
  let sems := imageSems im
  { x with
    sems := semsOf c.sems sems
    matNext := none
    waiters := x.waiters.filter (fun w => match w.2.1 with | .ctx _ => false | .stream _ => true)
    cleanSems := sems
    cleanAdds := c.addOrdinal
    cleanPairs := c.joins.map (fun p => (p.1, p.2.pairs))
    cleanTime := time }

/-- One placed section; one outside the scratchpad, which no checked image has, writes nothing. -/
def State.placeSec (s : State) (core : Nat) (im : Image) (x : ImageSec) : State :=
  if !inSpad x.offset x.length then s else
  match x.typ with
  | 3 => s.store (windowAddr core x.offset) (List.replicate x.length 0)
  | _ => s.store (windowAddr core x.offset) ((im.bytes.drop x.payload).take x.length)

/-- Load an image into one core (R215). DESIGN CHOICE: in one step, not flit by flit (assumption log 64). -/
def State.loadImage (s : State) (core : Nat) (im : Image) : State :=
  ((im.secs.filter (·.isPlaced)).foldl (fun a x => a.placeSec core im x) s).modCore core
    (fun c => c.loadCtxs im s.time)

/-- A core of the rectangle in no region: its contexts become IDLE (R316, R334). -/
def Core.idleCtxs (c : Core) : Core :=
  let one (a : Core) (k : Nat) : Core :=
    a.setCtx k { a.ctx k with st := .idle, wait := .none, enabled := false }
  { one (one (one c 0) 1) 2 with
    waiters := c.waiters.filter (fun w => match w.2.1 with | .ctx _ => false | .stream _ => true) }

end Sys2Proof.Machine
end

