-- ==== Sys2Proof/Machine/StepOps.lean ====
section
/-! DEFINITION. What several commands do to a training step and to a job context's programs: image loads, OPEN records,
replays, drops, lost data and the failed commit (spec/10 R328, R334, spec/11 R366 to R370, spec/13 R430, spec/14 R465). -/

namespace Sys2Proof.Machine

/-! ### The active layout -/

def Job.slot (j : Job) (k : Nat) : Option Slot := Tab.get none j.slots k
def Job.activeSlot (j : Job) : Option Slot := j.active.bind (fun k => j.slot k)
def Job.layout (j : Job) : Option Layout := j.activeSlot.map (·.layout)

/-- A LEARN layout (R331). -/
def Layout.isLearn (l : Layout) : Bool := decide (l.phase % 16 = 3)
def Job.isLearn (j : Job) : Bool := match j.layout with | some l => l.isLearn | none => false

/-- The class of a tensor: that of its producer (R317). -/
def Layout.tensorStrict (l : Layout) (t : Tensor) : Bool := (l.regions[t.producer]?).any (·.strict)
def Layout.outbound (l : Layout) (t : Tensor) : Nat := t.outbound (l.tensorStrict t)
def Layout.gradients (l : Layout) : List Tensor := l.tensors.filter (fun t => t.kind = 3)
def Layout.hasGathered (l : Layout) : Bool := l.tensors.any (fun t => t.policy = 4)

/-- The variants in force, or those a switch has chosen, as entries of the fallback table (R327, R333). -/
def Layout.variantOf (l : Layout) (vs : List (Nat × Nat)) (region : Nat) : Option Fallback :=
  match vs.find? (fun v => v.1 = region) with
  | some v => l.fallbacks[v.2]?
  | none => none

/-- The holes of a variant (R326). -/
def Fallback.hole (f : Fallback) (c : Nat) : Bool :=
  if f.trigger = 1 then decide (c = f.id) else decide (fieldOf c = f.id)

/-- The rectangle and the image in force for a region. -/
def Layout.inForce (l : Layout) (vs : List (Nat × Nat)) (i : Nat) (r : Region) : Rect × Nat :=
  match l.variantOf vs i with
  | some f => (f.rect, f.image)
  | none => (r.rect, r.image)

/-- The region of a core, with the rectangle and the image in force; none for a core in no region (R316, R328). -/
def Layout.regionAt (l : Layout) (vs : List (Nat × Nat)) (c : Nat) : Option (Nat × Rect × Nat) :=
  let idx := (List.range l.regions.length).find? (fun i =>
    match l.regions[i]? with
    | none => false
    | some r => (l.inForce vs i r).1.holds c && !((l.variantOf vs i).any (fun f => f.hole c)))
  match idx with
  | none => none
  | some i =>
    match l.regions[i]? with
    | none => none
    | some r => let q := l.inForce vs i r; some (i, q.1, q.2)

def Job.regionAt (j : Job) (c : Nat) : Option (Nat × Rect × Nat) :=
  match j.layout with
  | some l => l.regionAt j.variants c
  | none => none

/-- Where a slot's manifest stands in stack memory (R311). -/
def Job.slotAddr (j : Job) (x : Slot) : Nat := j.lstore + 4096 * x.granule

/-- An image of a slot as the layout store holds it; it was checked at LAYOUT_LOAD (R214, R324). -/
def State.imageAt (s : State) (j : Job) (x : Slot) (i : Nat) : Option Image :=
  (x.layout.images[i]?).map (fun e => readImage (s.delivered (j.slotAddr x + e.offset) e.size))

/-! ### Loading a rectangle (R334 step 4, R328 step 3, R367 step 4) -/

/-- In-service cores of a job context. -/
def State.liveCores (s : State) (j : Nat) : List Nat := (s.job j).cores.filter (fun c => s.reachable c)

/-- The checker of a core (R417). -/
def State.checkerOf (s : State) (c : Nat) : Option Nat :=
  match s.jobOf c with
  | none => none
  | some j =>
    let live := (s.liveCores j).filter (fun x => x ≠ c)
    match live.find? (fun x => decide (c < x)) with
    | some x => some x
    | none => live.head?

/-- Load the images in force of a layout into the given cores; a core in no region idles. -/
def State.loadImagesOf (s : State) (j : Nat) (x : Slot) (vs : List (Nat × Nat)) (cs : List Nat) : State :=
  cs.foldl (fun a c =>
    match x.layout.regionAt vs c with
    | none => a.modCore c Core.idleCtxs
    | some q =>
      match a.imageAt (a.job j) x q.2.2 with
      | none => a
      | some im => a.loadImage c im) s

/-- Reload the active layout's images (R367 step 4). -/
def State.reloadImages (s : State) (j : Nat) : State :=
  match (s.job j).activeSlot with
  | none => s
  | some x => s.loadImagesOf j x (s.job j).variants (s.liveCores j)

/-! ### Records and ordinals -/

/-- The sampling ordinals restart from zero (R416). -/
def Core.zeroOrdinals (c : Core) : Core :=
  { c with
    addOrdinal := 0
    ctxs := c.ctxs.map (fun p => (p.1, { p.2 with tileOrdinal := 0, vecOrdinal := 0 }))
    joins := c.joins.map (fun p => (p.1, { p.2 with pairs := 0 })) }

/-- Deliver one record of a step to every in-service core (R345). -/
def State.deliverRecord (s : State) (j off sem : Nat) (bs : List Byte) : State :=
  (s.liveCores j).foldl (fun a c => a.deliver .hid c off bs (some sem)) s

/-- Deliver the OPEN record; each delivery restarts the ordinals (R345, R416). -/
def State.deliverOpen (s : State) (j : Nat) (r : StepRun) : State :=
  (s.modCores (s.liveCores j) Core.zeroOrdinals).deliverRecord j r.noff r.osem
    (stepRecord 1 0 j (s.job j).version r)

/-! ### Sums over a job context -/

def sumOver (cs : List Nat) (f : Nat → Nat) : Nat := cs.foldl (fun a c => a + f c) 0

/-- NONFINITE counts of some contexts of every core of a job context, saturating (R106, R350). -/
def State.nonfiniteOf (s : State) (j : Nat) (ks : List Nat) : Nat :=
  min (sumOver (s.job j).cores (fun c => sumOver ks (fun k => (s.ctx c k).nonfinite))) 0xFFFFFFFF

/-- Clear those counts (R106); a step's later non-finite values still only count (R107). -/
def State.clearNonfinite (s : State) (j : Nat) (ks : List Nat) : State :=
  s.modCores (s.job j).cores (fun c =>
    ks.foldl (fun a k => a.setCtx k { a.ctx k with nonfinite := 0 }) c)

/-! ### Drains, replays, drops -/

/-- Halt a job context and drain it for a purpose (R60 steps 2 and 3, R367 step 1). A drain under way keeps its purpose
unless the new one drops the micro-batch. -/
def State.startDrain (s : State) (j : Nat) (d : DrainFor) : State :=
  (s.haltJob j).modJob j (fun x => { x with
    draining := if x.draining = none || d = .drop then some d else x.draining
    drainStart := if x.draining = none then s.time else x.drainStart })

/-- A drain's purpose is met; one that variants still wait for goes on for them (R328). -/
def State.endDrain (s : State) (j : Nat) : State :=
  s.modJob j (fun x => { x with draining := if x.wanted.isEmpty then none else some .fallback })

/-- The failure of a commit (R361). -/
def State.updateFault (s : State) (j : Nat) (r : StepRun) (count site status : Nat) : State :=
  (s.record .updateFault .hid [(1, j), (4, r.n), (4, count), (1, site), (1, status)]).failJob j

/-- Data of a job context are LOST (R430). `hard` is a lost scratchpad word or a chunk that is not sent. -/
def State.lost (s : State) (j : Nat) (hard : Bool) : State :=
  let s := s.health hReplays j
  match (s.job j).openStep with
  | some r =>
    if 3 ≤ r.integrityReplays + r.deathReplays then s.startDrain j .drop
    else s.startDrain j .integrity
  | none =>
    match (s.job j).committing with
    | some r => s.updateFault j r 0 0xFF 0
    | none => if hard then s.failJob j else if (s.job j).draining.isSome then s else s.resumeJob j

/-- The data of the job context that holds a core are LOST. -/
def State.lostCore (s : State) (c : Nat) (hard : Bool) : State :=
  match s.jobOf c with
  | some j => s.lost j hard
  | none => s

/-- Drop the micro-batch of a step (R370). -/
def State.dropMicrobatch (s : State) (j : Nat) (r : StepRun) : State :=
  let s1 := s.modCores (s.job j).cores (fun c => (c.haltAll.stopStreams (fun _ => true)))
  let s2 := (s1.retractStep j r).bumpJob j 0 1
  let s3 := (s2.record .microbatchDropped .hid [(1, j), (4, r.n)]).modJob j (fun x => { x with dropped := true })
  match (s3.job j).step r.n with
  | some q => s3.setStep j { q with dropped := true, again := false }
  | none => s3

/-- The micro-batch starts again: images reloaded, OPEN delivered, contexts running (R367 steps 4 and 5). -/
def State.restartMicrobatch (s : State) (j n : Nat) : State :=
  let s1 := (s.modCores (s.job j).cores (fun c => c.stopStreams (fun _ => true))).reloadImages j
  let s2 := match (s1.job j).step n with
    | some r => s1.deliverOpen j r
    | none => s1
  s2.resumeJob j

/-- Payload items of a version replay (R375). -/
def Job.failItems (j : Job) : List (Nat × Nat) :=
  match j.failVersion with
  | some v => [(4, v.1), (4, v.2.1), (4, v.2.2)]
  | none => [(4, 0), (4, 0), (4, 0)]

/-- The end of a drain for a replay (R367, R370, R430, R465). -/
def State.replayNow (s : State) (j : Nat) (d : DrainFor) (r : StepRun) : State :=
  let s0 := s.modJob j (fun x => { x with draining := none })
  match d with
  | .drop => s0.dropMicrobatch j r
  | .replay =>
    let r1 := { r with replays := r.replays + 1, again := r.again || decide (r.st = .backwardDone) }
    let s1 := ((s0.retractStep j r1).bumpJob j 4 1).health hReplays j
    ((s1.record .stepVersionReplay .hid
      ([(1, j), (4, r.n), (4, r1.replays)] ++ (s.job j).failItems)).restartMicrobatch j r.n)
  | _ =>
    let r1 := { r with integrityReplays := r.integrityReplays + 1, again := r.again || decide (r.st = .backwardDone) }
    let s1 := ((s0.retractStep j r1).bumpJob j 3 1).health hReplays j
    ((s1.record .integrityReplay .hid
      [(1, j), (4, r.n), (4, r1.integrityReplays + r1.deathReplays)]).restartMicrobatch j r.n)

/-- A GATHER stream of the job context met another version (R367, R370). -/
def State.versionFault (s : State) (j tensor want got : Nat) : State :=
  match (s.job j).openStep with
  | none => s
  | some r =>
    (s.modJob j (fun x => { x with failVersion := some (tensor, want, got) })).startDrain j
      (if 3 ≤ r.replays then .drop else .replay)

end Sys2Proof.Machine
end

