-- ==== Sys2Proof/Machine/StreamOps.lean ====
section
/-! DEFINITION. Descriptors: their fields, their legality, where their rows lie, and re-arming (spec/07 R217 to R228). -/

namespace Sys2Proof.Machine

/-! ### Legality (R221) -/

/-- Causes of a state error (R209). -/
def ceReserved : Nat := 1
def ceFormat : Nat := 2
def ceAddress : Nat := 3
def ceCount : Nat := 4
def ceCrossJob : Nat := 5
def ceTileState : Nat := 6
def cePcRange : Nat := 7
def ceTscale : Nat := 8

/-- The modes that R217 gives the ends of a kind. -/
def kindModes (k sm dm : Nat) : Bool :=
  match k with
  | 1 => sm = modeOwn && dm = modeOwn
  | 2 => sm = modeOwn && (dm = modeRel || dm = modeAbs)
  | 3 => sm = modeFar && dm = modeOwn
  | 4 => sm = modeOwn && dm = modeFar
  | 5 => sm = modeFar && dm = modeOwn
  | 6 => sm = modeOwn && dm = modeFar
  | _ => false

/-- The zero bits of an end's address by its mode (R218). -/
def endZero (mode a : Nat) : Bool :=
  match mode with
  | 0 => decide (a / 2 ^ 23 = 0)
  | 1 => true
  | 2 => decide (a / 2 ^ 23 % 2 ^ 9 = 0)
  | _ => decide (a / 2 ^ 44 = 0 ∧ a / 2 ^ 23 % 2 ^ 9 = 0)

/-- A window of a stack site that a LOAD may read (R292). -/
def State.inSiteWindow (s : State) (a n : Nat) : Bool :=
  decide (siteBase ≤ a) && s.isStack ((a - siteBase) / 2 ^ 24) &&
  (decide ((a - siteBase) % 2 ^ 24 + n ≤ 64) ||
   decide (0x1000 ≤ (a - siteBase) % 2 ^ 24 ∧ (a - siteBase) % 2 ^ 24 + n ≤ 0x1400))

/-- One row of an end lies where its mode lets it. -/
def State.rowOk (s : State) (d : Desc) (mode p : Nat) (isSrc : Bool) : Bool :=
  let n := d.rb
  match mode with
  | 0 => inOneBank p n
  | 1 =>
    if (d.kind = dkGather && isSrc) || (d.kind = dkContrib && !isSrc) then decide (p + n ≤ 2 ^ 48)
    else s.inStack p n || inHost p n || (d.kind = dkLoad && s.inSiteWindow p n)
  | _ => inSpad (p - d.dst / 2 ^ 32 * 2 ^ 32) n

/-- The end faults of a descriptor: modes, zero bits, alignment, strides, and every row's extent. -/
def State.endsOk (s : State) (d : Desc) : Bool :=
  kindModes d.kind d.srcMode d.dstMode && endZero d.srcMode d.src && endZero d.dstMode d.dst &&
  decide (d.src % 32 = 0 ∧ d.dst % 32 = 0 ∧ d.sStride % 32 = 0 ∧ d.dStride % 32 = 0 ∧ d.dStride ≠ 0 ∧
    d.sSlotStride % 32 = 0 ∧ d.dSlotStride % 32 = 0) &&
  (List.range d.rows).all (fun r => s.rowOk d d.srcMode (d.srcPos r) true && s.rowOk d d.dstMode (d.dstPos r) false)

/-- The count faults of a descriptor. -/
def Desc.countsOk (d : Desc) : Bool :=
  decide (1 ≤ d.rowLen ∧ d.rowLen ≤ 16777215 ∧ 1 ≤ d.rows ∧ d.rows ≤ 16777215 ∧ 1 ≤ d.chunk) &&
  decide (d.rowBits % 256 = 0 ∧ d.rb ≤ 8388608) &&
  (d.raw || match d.fmtCode with
    | some f => !f.elem.isBlock || decide (d.rowLen % f.block = 0)
    | none => true)

/-- The format faults of a descriptor. -/
def Desc.fmtOk (d : Desc) : Bool := if d.raw then decide (d.fmt = 0) else d.fmtCode.isSome

/-- The plane is one that the format has. -/
def Desc.planeOk (d : Desc) : Bool :=
  if d.raw then decide (d.plane = 0)
  else match d.fmtCode, d.plane with
    | some _, 0 => true
    | some f, 1 => f.elem.isBlock
    | some f, 2 => f.elem = .w48
    | _, _ => false

/-- Zero and reserved fields, SITE, semaphores, TENSOR and VERSION. -/
def State.fieldsOk (s : State) (d : Desc) (bs : List Byte) (ngrp : Nat) : Bool :=
  decide (d.kind ≤ 6) && d.planeOk && zeroAt bs 46 2 && zeroAt bs 60 4 &&
  decide (fieldAt bs 8 8 / 2 ^ 48 % 2 ^ 14 = 0 ∧ fieldAt bs 16 8 / 2 ^ 48 % 2 ^ 14 = 0) &&
  decide (d.fullSem < 64 ∧ d.emptySem < 64) && (d.full || decide (d.fullSem = 0)) &&
  (d.empty || decide (d.emptySem = 0)) &&
  (if d.kind = dkGather then s.isIo d.site
   else if d.kind = dkContrib then decide (1 ≤ d.site ∧ d.site ≤ ngrp)
   else decide (d.site = 0)) &&
  (d.kind = dkGather || d.kind = dkContrib || decide (d.tensor = 0)) &&
  (d.kind = dkGather || decide (d.version = 0))

/-- The cause for which a descriptor is illegal; 0 where it is legal (R221, R224). Of several causes the first of this order is reported.
DESIGN CHOICE (assumption log 68). -/
def State.descCause (s : State) (bs : List Byte) (ngrp : Nat) : Nat :=
  let d := descOf bs
  if d.kind = 0 then (if allZero (bs.drop 1) then 0 else ceReserved)
  else if 6 < d.kind then ceReserved
  else if !d.fmtOk then ceFormat
  else if !d.planeOk then ceReserved
  else if !d.countsOk then ceCount
  else if !s.endsOk d then ceAddress
  else if !s.fieldsOk d bs ngrp then ceReserved
  else 0

/-- Groups of the active layout of the job context that holds a core. -/
def State.groupsOf (s : State) (c : Nat) : Nat :=
  match s.jobOf c with
  | some j => ((s.job j).layout.map (fun l => l.groups.length)).getD 0
  | none => 0

/-! ### Re-arming (R227, R228, R238) -/

/-- A stream that SREARM and SSTART act on (R227). -/
def Stream.eligible (x : Stream) : Bool :=
  x.st = .armed || x.st = .stopped || (x.st = .done && x.desc.persist)

/-- The descriptor with a new end and count (R227). -/
def Desc.rearmed (d : Desc) (e rows : Nat) : Desc :=
  let d1 := if d.rearmDst then { d with dstMode := e / 2 ^ 62, dst := e % 2 ^ 48 }
    else { d with srcMode := e / 2 ^ 62, src := e % 2 ^ 48 }
  if rows = 0 then d1 else { d1 with rows := rows }

/-- The cause for which an SREARM is a state error (R228); a count goes before an end. `rows` is the new count where one is given.
DESIGN CHOICE (assumption log 68). -/
def State.rearmCause (s : State) (d : Desc) (e : Nat) (rows : Option Nat) : Nat :=
  match rows with
  | some n =>
    if n = 0 ∨ 16777215 < n then ceCount
    else if e / 2 ^ 48 % 2 ^ 14 ≠ 0 || !s.endsOk (d.rearmed e n) then ceAddress else 0
  | none => if e / 2 ^ 48 % 2 ^ 14 ≠ 0 || !s.endsOk (d.rearmed e 0) then ceAddress else 0

def Stream.rearm (x : Stream) (e rows : Nat) : Stream :=
  { x with desc := x.desc.rearmed e rows, st := .armed }

/-! ### Accesses outside the mapped addresses (R23, R24, R49) -/

/-- The first row of a descriptor whose end leaves the mapped addresses: the device address, and whether it would be written. -/
def State.endUnmapped (s : State) (c : Nat) (d : Desc) : Option (Nat × Bool) :=
  let at_ (mode p : Nat) (far : Bool) : Option Nat :=
    if mode = modeOwn then some (windowAddr c p) else if mode = modeFar && far then some p else none
  (List.range d.rows).findSome? (fun r =>
    match at_ d.srcMode (d.srcPos r) (d.kind = dkLoad), at_ d.dstMode (d.dstPos r) (d.kind = dkStore) with
    | some a, b =>
      if !s.mapped a d.rb then some (a, false)
      else b.bind (fun q => if s.mapped q d.rb then none else some (q, true))
    | none, some q => if s.mapped q d.rb then none else some (q, true)
    | none, none => none)

/-- An illegal descriptor or SREARM whose rows leave the mapped addresses is recorded (R23, R221). DEDUCED (assumption log 65). -/
def State.noteEnds (s : State) (c : Nat) (d : Desc) : State :=
  match s.endUnmapped c d with
  | some q => s.unmapped (.core c) q.1 q.2
  | none => s

end Sys2Proof.Machine
end

