-- ==== Sys2Proof/Machine/LayoutOps.lean ====
section
/-! DEFINITION. What makes a layout or a variant active: ring entries, variants, stream tables, images, the network mode
(spec/08 R255, R258, spec/10 R322 to R336). -/

namespace Sys2Proof.Machine

/-! ### Ring entries (R258, R322, R399) -/

/-- A ring entry from its 64 bits (R258). -/
def ringOfWord (w : Nat) : RingEntry where
  role := w / 2 ^ 62
  strict := decide (w / 2 ^ 61 % 2 = 1)
  skd := w / 2 ^ 60 % 2
  succ := w / 2 ^ 48 % 4096
  scred := w / 2 ^ 36 % 4096
  landLen := w / 2 ^ 24 % 4096
  landOff := w / 2 % 2 ^ 23

/-- The window towards a site (R399). -/
def siteCredits (strict : Bool) (n : Nat) : Nat := if strict then min 1024 (8192 / max 1 n) else 1024

/-- The ring entry of member m of a group (R322). -/
def Group.ringEntry (g : Group) (m : Nat) : RingEntry :=
  let n := g.members.length
  let next := g.members.getD (m + 1) 0
  let out : RingEntry := { skd := 1, succ := g.site, scred := siteCredits g.strict n }
  if g.strict then { out with role := 1, strict := true }
  else if n = 1 then { out with role := 1 }
  else if m = 0 then { role := 1, skd := 0, succ := next, scred := g.landLen }
  else if m + 1 < n then
    { role := 2, skd := 0, succ := next, scred := g.landLen, landLen := g.landLen, landOff := g.landOff }
  else { out with role := 3, landLen := g.landLen, landOff := g.landOff }

/-- All ring entries of a layout: core, group, entry (R322). -/
def Layout.ringEntries (l : Layout) : List (Nat × Nat × RingEntry) :=
  l.groups.flatMap (fun g => (List.range g.members.length).map (fun m => (g.members.getD m 0, g.group, g.ringEntry m)))

/-- Set one ring entry; the join starts afresh with its credits (R260). -/
def Core.setRing (c : Core) (g : Nat) (e : RingEntry) : Core :=
  { c with rings := Tab.set {} c.rings g e, joins := Tab.set {} c.joins g { credits := e.scred } }

def Core.clearRings (c : Core) : Core := { c with rings := [], joins := [] }

def State.writeRings (s : State) (es : List (Nat × Nat × RingEntry)) : State :=
  es.foldl (fun a e => a.modCore e.1 (fun c => c.setRing e.2.1 e.2.2)) s

def State.writePatches (s : State) (ps : List Patch) : State :=
  s.writeRings (ps.map (fun p => (p.core, p.group, ringOfWord p.entry)))

/-! ### Variants (R327) -/

def rectCores (r : Rect) : List Nat := (List.range 4096).filter (fun c => r.holds c)

/-- The losses that a region has: out-of-service cores and cold fields in its rectangle (R327). -/
def State.needs (s : State) (r : Region) : List (Nat × Nat) :=
  ((rectCores r.rect).filter (fun c => s.coreOut c)).map (fun c =>
    if s.net.cold.contains (fieldOf c) then (2, fieldOf c) else (1, c))

/-- Whether two rectangles share a core. -/
def Rect.meets (a b : Rect) : Bool :=
  decide (a.row0 ≤ b.row0 + b.rowsM1 ∧ b.row0 ≤ a.row0 + a.rowsM1 ∧ a.col0 ≤ b.col0 + b.colsM1 ∧
    b.col0 ≤ a.col0 + a.colsM1)

/-- Whether a fallback entry is applicable beside the variants in force (R327). -/
def State.applicable (s : State) (l : Layout) (vs : List (Nat × Nat)) (f : Fallback) : Bool :=
  vs.all (fun v => v.1 ≠ f.region) &&
  (rectCores f.rect).all (fun c => f.hole c || !s.coreOut c) &&
  vs.all (fun v => match l.fallbacks[v.2]? with
    | some q => !q.rect.meets f.rect
    | none => true)

/-- The applicable entry of a region for a trigger. -/
def State.variantFor (s : State) (l : Layout) (vs : List (Nat × Nat)) (region trigger id : Nat) : Option (Nat × Nat) :=
  ((List.range l.fallbacks.length).find? (fun i =>
    match l.fallbacks[i]? with
    | some f => f.region = region && f.trigger = trigger && f.id = id && s.applicable l vs f
    | none => false)).map (fun i => (region, i))

/-- Choose a variant for every region that needs one; none where a region has none applicable (R333). -/
def State.chooseVariants (s : State) (l : Layout) : List Nat → List (Nat × Nat) → Except Nat (List (Nat × Nat))
  | [], vs => .ok vs
  | i :: rest, vs =>
    match l.regions[i]? with
    | none => s.chooseVariants l rest vs
    | some r =>
      match s.needs r with
      | [] => s.chooseVariants l rest vs
      | ns =>
        match (ns.map (fun n => s.variantFor l vs i n.1 n.2)).find? (fun o => o.isSome) with
        | some (some v) => s.chooseVariants l rest (vs ++ [v])
        | _ => .error i

def State.variantsOf (s : State) (l : Layout) : Except Nat (List (Nat × Nat)) :=
  s.chooseVariants l (List.range l.regions.length) []

/-- FALLBACK_EXHAUSTED with a region and its out-of-service cores (R329, R336, R595). -/
def State.exhaustedIn (s : State) (j : Nat) (l : Option Layout) (region : Nat) : State :=
  let out := match l.bind (fun l => l.regions[region]?) with
    | some r => (rectCores r.rect).filter (fun c => s.coreOut c)
    | none => []
  s.record .fallbackExhausted .hid [(1, j), (2, region), (2, out.length), (2, out.headD 0xFFFF)]

def State.exhausted (s : State) (j region : Nat) : State := s.exhaustedIn j (s.job j).layout region

/-! ### The network mode (R255) -/

def State.sevenGroups (s : State) : Bool :=
  (List.range 8).any (fun j => ((s.job j).layout).any (fun l => l.groups.length = 7))

/-- The network holds no flit, and none waits to enter it. -/
def State.noFlits (s : State) : Bool := s.net.flights.isEmpty && s.net.waiting.isEmpty

/-- Return to compact mode where R255 lets it. -/
def State.settleMode (s : State) : State :=
  if s.net.expansive && !s.sevenGroups && s.noFlits && (List.range 8).all (fun j => (s.job j).st ≠ .running)
  then { s with net := { s.net with expansive := false } } else s

/-! ### Making a layout active (R334) -/

/-- Every entry of a stream table names an eligible stream (R333). -/
def State.streamsEligible (s : State) (l : Layout) : Bool :=
  l.streams.all (fun e => ((s.core e.core).stream e.stream).eligible)

/-- One entry of a stream table acts as SREARM does: an end or a count that fails R228 changes nothing (R238, R323). -/
def State.rearmEntry (s : State) (e : StreamEntry) : State :=
  let x := (s.core e.core).stream e.stream
  if x.eligible && s.rearmCause x.desc e.endWord (if e.count = 0 then none else some e.count) = 0 then
    s.modStream e.core e.stream (fun y => y.rearm e.endWord e.count)
  else s

def State.applyStreamTable (s : State) (l : Layout) : State := l.streams.foldl State.rearmEntry s

/-- Steps 2 to 5 of R334, with the variants chosen. -/
def State.activate (s : State) (j k : Nat) (x : Slot) (vs : List (Nat × Nat)) : State :=
  let s1 := s.modJob j (fun y => { y with active := none, variants := [] })
  let s2 := ((s1.modCores (s1.job j).cores Core.clearRings).writeRings x.layout.ringEntries)
  let patches := vs.flatMap (fun v => match x.layout.fallbacks[v.2]? with
    | some f => f.patches
    | none => [])
  let s3 := (s2.writePatches patches).dropChunks j
  let s4 := (s3.applyStreamTable x.layout).loadImagesOf j x vs (s3.liveCores j)
  let s5 := s4.modJob j (fun y => { y with active := some k, variants := vs, switch := none, switchFresh := true })
  if x.layout.groups.length = 7 then { s5 with net := { s5.net with expansive := true } } else s5.settleMode

/-- The time that the re-shard of a switch took; zero without one (R339). -/
def Switch.reshardTime (w : Switch) : Nat := w.reshardEnd.getD w.started - w.started

/-- A PHASE_SWITCH after its re-shard: the layout becomes active, or the switch fails (R334, R336). -/
def State.finishSwitch (s : State) (j : Nat) (w : Switch) : State :=
  match (s.job j).slot w.slot with
  | none => s
  | some x =>
    match s.variantsOf x.layout with
    | .ok vs =>
      let s1 := s.activate j w.slot x vs
      (s1.record .phaseSwitched .hid
        [(1, j), (1, w.slot), (1, x.layout.phase), (8, w.reshardTime), (8, s.time - w.started)]).finish
        w.ring w.taking stDone 0 0
    | .error i =>
      let s1 := s.modJob j (fun y => { y with active := none, switch := none })
      (s1.exhaustedIn j (some x.layout) i).finish w.ring w.taking stResource 0 0

/-- A change to expansive mode waits until no job context runs and the network holds no flit (R255). -/
def State.modeReady (s : State) (l : Layout) : Bool :=
  decide (l.groups.length ≠ 7) || s.net.expansive ||
  (s.noFlits && (List.range 8).all (fun j => (s.job j).st ≠ .running))

/-- The re-shard of a switch has ended when every OUT byte is acknowledged and every IN byte written (R338). -/
def Switch.noteEnd (w : Switch) (now : Nat) : Switch :=
  if w.reshard && w.reshardEnd.isNone && w.outLeft.isEmpty && w.inLeft.isEmpty then { w with reshardEnd := some now } else w

/-- A switch goes on where its re-shard has ended and the network's mode lets it (R255, R334, R338). -/
def State.reshardProgress (s : State) (j : Nat) : State :=
  match (s.job j).switch with
  | none => s
  | some w0 =>
    let w := w0.noteEnd s.time
    let t := s.modJob j (fun y => { y with switch := some w })
    let ready := ((s.job j).slot w.slot).any (fun x => s.modeReady x.layout)
    if w.outLeft.isEmpty && w.inLeft.isEmpty && ready then t.finishSwitch j w else t

/-! ### Re-sharding sequences (R409) -/

/-- Extents of one tensor and direction, in table order. -/
def Layout.extents (l : Layout) (out : Bool) (tensor : Nat) : List (Nat × Nat) :=
  (l.reshards.filter (fun r => r.out = out && r.tensor = tensor)).map (fun r => (r.addr, r.bytes))

/-- The device addresses of n bytes from an offset of a sequence of extents; none outside it. -/
def seqPieces : List (Nat × Nat) → Nat → Nat → Option (List (Nat × Nat))
  | _, _, 0 => some []
  | [], _, _ => none
  | (a, b) :: r, off, n =>
    if b ≤ off then seqPieces r (off - b) n
    else
      let k := min n (b - off)
      (seqPieces r 0 (n - k)).map (fun l => (a + off, k) :: l)

def seqLength (l : List (Nat × Nat)) : Nat := l.foldl (fun a x => a + x.2) 0

/-- Tensors that occur in a re-shard table, each once. -/
def Layout.reshardTensors (l : Layout) (out : Bool) : List Nat :=
  ((l.reshards.filter (fun r => r.out = out)).map (·.tensor)).eraseDups

/-- 4 KiB blocks of a sequence: offsets. -/
def blockOffsets (n : Nat) : List Nat := (List.range (ceilDiv n 4096)).map (fun i => 4096 * i)

end Sys2Proof.Machine
end

