-- ==== Sys2Proof/Machine/SafeOps.lean ====
section
/-! DEFINITION. What a quench does to job contexts, operating points, field states and the start of a route pause (spec/15 R494,
spec/11 R372, spec/17 R525 to R540, spec/08 R271). -/

namespace Sys2Proof.Machine

def State.half (s : State) (h : Nat) : Half := Tab.get {} s.clk.halves h
def State.setHalf (s : State) (h : Nat) (x : Half) : State :=
  { s with clk := { s.clk with halves := Tab.set {} s.clk.halves h x } }

def State.fieldPower (s : State) (f : Nat) : FieldPower := Tab.get .active s.clk.fields f
def State.setField (s : State) (f : Nat) (p : FieldPower) : State :=
  { s with clk := { s.clk with
    fields := Tab.set .active s.clk.fields f p
    since := Tab.set 0 s.clk.since f s.time } }

/-- The opcode of STEP; steps complete by their own records (R345). -/
def opcStep : Nat := 0x19

/-- What a quench does to the steps of a job context (R372). -/
def State.quenchSteps (s : State) (j : Nat) : State :=
  (s.job j).steps.foldl (fun a r =>
    if r.st = .normKnown && !r.commit then a
    else if r.st = .normKnown then
      (a.record .commitInterrupted .hid [(1, j), (4, r.n), (4, r.published), (4, r.owned.length)]).endStep j r stQuench
    else a.endStep j r stQuench) s

/-- What a quench does to a job context (R336, R372, R457, R494). -/
def State.quenchJob (s : State) (j : Nat) : State :=
  let x := s.job j
  let mine (t : Taken) : Bool := t.entry.job = j && t.entry.opcode ≠ opcStep
  match x.st with
  | .running | .loaded =>
    let s1 := ((s.quenchSteps j).finishAll stQuench mine).forgetHalted x.cores
    s1.modJob j (fun y => { y with
      st := .quenched
      active := if y.switch.isSome then none else y.active
      switch := none
      switchFresh := false
      draining := none
      wanted := []
      stopping := none })
  | .restoring =>
    let s1 := (s.record .restoreFailed .hid [(1, j), (1, 3), (1, stQuench)]).finishAll stQuench mine
    s1.modJob j (fun y => { y with st := .failed, restore := none })
  | _ => s

/-- No job context still waits for its variant against a field's loss. -/
def State.variantsReady (s : State) (f : Nat) : Bool :=
  (List.range 8).all (fun j => (s.job j).wanted.all (fun w =>
    !(((s.job j).layout.bind (fun l => l.fallbacks[w.2]?)).any (fun q => q.trigger = 2 && q.id = f))))

/-! ### Operating points (R525, R526) -/

/-- The permitted limit of a half. -/
def State.permitted (s : State) (h : Nat) : Nat := if h = 0 then s.regs.opWest else s.regs.opEast

/-- The target of a half: the slowest of its demands. -/
def State.target (s : State) (h : Nat) : Nat :=
  let x := s.half h
  if x.forced.isEmpty then max (s.permitted h) (max x.power x.thermal) else 5

/-- The demand that governs: 0 the permitted limit, 1 power, 2 thermal, 3 forced. -/
def State.governing (s : State) (h : Nat) : Nat :=
  let x := s.half h
  if !x.forced.isEmpty then 3 else if s.target h = s.permitted h then 0 else if s.target h = x.power then 1 else 2

def State.force (s : State) (h by_ : Nat) : State :=
  let x := s.half h
  if x.forced.contains by_ then s else s.setHalf h { x with forced := by_ :: x.forced }

def State.unforce (s : State) (h by_ : Nat) : State :=
  let x := s.half h
  s.setHalf h { x with forced := x.forced.filter (fun y => y ≠ by_) }

def State.changeRunning (s : State) : Bool := (s.half 0).changing.isSome || (s.half 1).changing.isSome

/-- A change of a half may be ordered now (R526, R528). -/
def State.mayChange (s : State) (h : Nat) : Bool :=
  let x := s.half h
  !s.changeRunning && s.net.pause.isNone &&
  (!x.forced.isEmpty || (match x.lastDone with
    | none => true
    | some t => decide (t + 1000000 ≤ s.time)))

/-- Order the change of a half towards its target, one point at a time; a forced demand in one change. -/
def State.orderChange (s : State) (h : Nat) : State :=
  let x := s.half h
  let t := s.target h
  if t = x.op || !s.mayChange h then s
  else
    let n := if !x.forced.isEmpty then t else if x.op < t then x.op + 1 else x.op - 1
    s.setHalf h { x with changing := some n, orderedAt := s.time, reason := s.governing h }

/-- The HID orders what the demands ask for, one half at a time. -/
def State.govern (s : State) : State := (s.orderChange 0).orderChange 1

/-- SAFE causes (R605). -/
def safeWafer : Nat := 1
def safeComponent : Nat := 2
def safeVoltage : Nat := 3
def safeCurrent : Nat := 4
def safeFirmware : Nat := 5
def safeRoute : Nat := 6
def safeTimeout : Nat := 7

/-! ### Field states (R535, R538 to R540, R269, R271) -/

/-- A field's hottest usable sensor; a field with fewer than two is taken as reading TTHROTTLE (R535). -/
def State.fieldHot (s : State) (f : Nat) : Int :=
  let ks := ((List.range 4).map (fun k => 4 * f + k)).filter (fun k => !s.clk.ignored.contains k)
  if ks.length < 2 then 16 * (s.regs.tthrottle : Int) else s.hottestOf ks

/-- A temperature as an event carries it: 16 bits, 1/16 °C. -/
def tempCode (t : Int) : Nat := (t % 65536).toNat

/-- A field enters the bank state: its contexts halt, its streams hold, its spare rotation stops (R538). -/
def State.bankField (s : State) (f : Nat) : State :=
  let cs := fieldCores f
  let run := cs.flatMap (fun c => s.ctxsIn c .running)
  let s1 := s.modCores cs (fun c => c.haltAll.hold)
  let test := Tab.get none s1.integ.stress f
  let sites := match test with
    | some i => Tab.set none s1.wafer.sites ((f * 8 + i) * 9 + 8) (some .spare)
    | none => s1.wafer.sites
  let s2 : State := { s1 with
    clk := { s1.clk with halted := s1.clk.halted ++ run }
    integ := { s1.integ with stress := Tab.set none s1.integ.stress f none }
    wafer := { s1.wafer with sites := sites } }
  (s2.setField f .bank).record .fieldBank (.field f) [(1, f), (2, tempCode (s.fieldHot f))]

/-- A core whose field leaves the bank state resumes what the entry held, unless a halt has come since. -/
def State.wakeCore (s : State) (c : Nat) : State :=
  let mine := s.clk.halted.filter (fun x => x / 4 = c)
  ((s.modCore c (fun x => mine.foldl (fun a i => a.resumeCtx (i % 4)) x)).forgetHalted [c]).releaseHold c

def State.wakeField (s : State) (f : Nat) : State :=
  ((fieldCores f).foldl State.wakeCore (s.setField f .active)).record .fieldActive (.field f) [(1, f)]

def cornerField (f : Nat) : Bool := [0, 7, 56, 63].contains f

/-- Two fields share an edge or a corner. -/
def fieldsTouch (a b : Nat) : Bool :=
  decide (a ≠ b ∧ a / 8 ≤ b / 8 + 1 ∧ b / 8 ≤ a / 8 + 1 ∧ a % 8 ≤ b % 8 + 1 ∧ b % 8 ≤ a % 8 + 1)

/-- R269 lets a field be cold beside the cold fields there are. -/
def State.coldAllowed (s : State) (f : Nat) : Bool := !cornerField f && s.net.cold.all (fun g => !fieldsTouch f g)

/-- Step 1 of a route pause: every injector stops (R271). -/
def State.startPause (s : State) (f : Nat) (cold : Bool) : State :=
  { s with net := { s.net with stopped := true, pause := some (f, cold, s.time) } }

/-- The route pause of a field out of service starts where no other runs (R272), and that of an ordered field once its variants
are in force and no change runs (R528, R539); a quench does not stop it (R30). -/
def State.tryPause (s : State) : State :=
  if s.net.pause.isSome || s.changeRunning then s
  else if !s.net.pauseNext.isEmpty then
    ({ s with net := { s.net with pauseNext := s.net.pauseNext.drop 1 } }).startPause (s.net.pauseNext.headD 0) true
  else
    match (List.range 64).find? (fun f => (Tab.get none s.clk.ordered f).isSome && s.fieldPower f = .bank &&
        !s.net.cold.contains f && s.variantsReady f) with
    | some f => s.startPause f true
    | none => s

/-- A cold order refused: the half is forced to OP5 (R329, R539). -/
def State.keepWarm (s : State) (f region : Nat) : State :=
  ((({ s with clk := { s.clk with ordered := Tab.set none s.clk.ordered f none } }).record .fieldKeptWarm .hid
    [(1, f), (2, region)]).force (halfOfField f) f).govern

end Sys2Proof.Machine
end

