-- ==== Sys2Proof/Machine/WaferOps.lean ====
section
/-! DEFINITION. Sites, repair records, fences, column shifts, cores out of service, and the replay after a loss
(spec/02 R36, R53 to R65, spec/10 R327 to R329, spec/14 R465, R466). -/

namespace Sys2Proof.Machine

/-! ### The repair store (R53 to R57) -/

def fcPermanent : Nat := 1
def fcUncorrectable : Nat := 2
def fcSelfTest : Nat := 3
def fcStress : Nat := 4
def fcColumns : Nat := 5
def fcRouter : Nat := 6

/-- A repair record (R54). -/
def repairWord (typ field prow pcol bank mac seg column spare boot : Nat) : Word64 :=
  let w : Word64 := BitVec.ofNat 64 (typ * 2 ^ 60 + field * 2 ^ 54 + prow * 2 ^ 50 + pcol * 2 ^ 47 + bank * 2 ^ 45 +
    mac * 2 ^ 40 + seg * 2 ^ 36 + column * 2 ^ 28 + spare * 2 ^ 26 + boot * 2 ^ 10)
  w ||| (repairCheck w).setWidth 64

/-- Append a record; the store keeps its last 512 places for records of other types than COLUMN (R56). -/
def State.appendRepair (s : State) (limit : Nat) (w : Word64) : Option State :=
  if s.wafer.store.length < limit then
    some { s with wafer := { s.wafer with store := s.wafer.store ++ [w] } }
  else none

def State.appendFence (s : State) (col prow cause : Nat) : State :=
  match s.appendRepair 16384 (repairWord 2 (col / 8) prow (col % 8) 0 0 cause 0 0 s.sec.bootCount) with
  | some t => t
  | none => s.record .repairStoreLimit .hid []

/-! ### Losing a logical core -/

/-- The region of the active layout that holds a core (R436). -/
def Job.regionIndex (j : Job) (c : Nat) : Nat :=
  match j.layout with
  | none => 0xFFFF
  | some l => ((List.range l.regions.length).find? (fun i => (l.regions[i]?).any (fun r => r.rect.holds c))).getD 0xFFFF

/-- What is left of a context whose site is fenced: what the supervisor and the image know of it (R463, R464). -/
def Ctx.lost (x : Ctx) : Ctx :=
  { clean := x.clean, enabled := x.enabled, replayUnsafe := x.replayUnsafe, firstNonfinite := x.firstNonfinite }

/-- Everything a fenced site held is lost (R59); its new home starts with every byte zero (R63, R64). -/
def State.loseCore (s : State) (c : Nat) : State :=
  let old := s.core c
  let fresh : Core := {
    rings := old.rings
    cleanSems := old.cleanSems
    cleanAdds := old.cleanAdds
    cleanPairs := old.cleanPairs
    cleanTime := old.cleanTime
    cycleBase := old.cycleBase
    ctxs := old.ctxs.map (fun p => (p.1, p.2.lost)) }
  let a := windowAddr c 0
  let s1 := (s.setCore c fresh).resetCoreKept c
  { s1 with
    mem := s1.mem.filter (fun x => !(decide (a ≤ x.1 ∧ x.1 < a + spadBytes)))
    codeErr := s1.codeErr.filter (fun x => !(decide (a / 32 ≤ x.1 ∧ x.1 < (a + spadBytes) / 32))) }

/-- What a fenced site's engines had not yet injected is lost, and with cause ROUTER what stands in its router's buffers (R59). -/
def State.dropAt (s : State) (c : Nat) (router : Bool) : State :=
  { s with net := { s.net with
    flights := s.net.flights.filter (fun x => !(router && x.at_ = c))
    waiting := s.net.waiting.filter (fun x => !(x.at_ = c && x.link = 5)) } }

/-- The test of a column's spare is aborted; the spare is usable (R60 step 1). -/
def State.abortTest (s : State) (col : Nat) : State :=
  if Tab.get none s.integ.stress (col / 8) = some (col % 8) then
    ({ s with integ := { s.integ with stress := Tab.set none s.integ.stress (col / 8) none } }).setSite col 8 .spare
  else s

/-! ### The replay after a loss (R465, R466) -/

def Core.unsafe_ (c : Core) : Bool :=
  (c.ctx 0).replayUnsafe || (c.ctx 1).replayUnsafe || (c.ctx 2).replayUnsafe

/-- The first row of R465 applies. -/
def State.passReplayOk (s : State) (j region : Nat) : Bool :=
  (s.job j).cores.all (fun c => !(s.core c).unsafe_) &&
  !((s.job j).layout.any (fun l => l.tensors.any (fun t => t.kind = 1 && t.policy = 0 && t.producer = region)))

/-- One context restarts from its clean mark (R207, R466). -/
def Ctx.fromClean (x : Ctx) : Ctx :=
  if x.enabled then
    { x with st := .halted, pc := x.clean.pc, regs := x.clean.regs, wait := .none,
             tileOrdinal := x.clean.tileOrdinal, vecOrdinal := x.clean.vecOrdinal }
  else x

/-- One core in a pass replay (R466 steps 1 to 4). The tiles in the drain path, whose entries become FREE, are discarded with the tile
in progress. DEDUCED (assumption log 47). -/
def Core.passReplay (c : Core) : Core :=
  let c1 := (c.haltAll.stopStreams (fun x => decide (x.ctx ≤ 2)))
  let one (a : Core) (k : Nat) : Core := a.setCtx k (a.ctx k).fromClean
  let c2 := one (one (one c1 0) 1) 2
  { c2 with
    tile := none
    atC := none
    matNext := none
    drain := if c2.drain.any (fun d => d.failed) then c2.drain else none
    tq := c2.tq.map (fun p => (p.1, if p.2.st = .sending then p.2 else { p.2 with st := .free, chain := none }))
    sems := (List.range 64).foldl (fun t i =>
      Tab.set {} t i { Tab.get {} c2.sems i with value := Tab.get 0 c.cleanSems i }) c2.sems
    addOrdinal := c.cleanAdds
    joins := c2.joins.map (fun p => (p.1, { p.2 with pairs := Tab.get 0 c.cleanPairs p.1 })) }

/-- Steps in flight have met a pass replay. -/
def State.notePass (s : State) (j : Nat) : State :=
  s.modJob j (fun x => { x with steps := x.steps.map (fun r => if r.st = .waiting then r else { r with passReplayed := true }) })

def State.passReplay (s : State) (j core : Nat) : State :=
  let s1 := (s.modCores (s.liveCores j) Core.passReplay).notePass j
  ((s1.bumpJob j 5 1).record .coreReplay .hid [(1, j), (2, core), (8, s.time - (s.core core).cleanTime)]).resumeJob j

/-- The replay that R465 chooses for a lost core, with the drain ended. -/
def State.replayAfterLoss (s : State) (j core : Nat) : State :=
  let s := s.modJob j (fun x => { x with draining := none, lost := none })
  if s.passReplayOk j ((s.job j).regionIndex core) then s.passReplay j core
  else
    match (s.job j).openStep with
    | some r =>
      if 3 ≤ r.integrityReplays + r.deathReplays then s.dropMicrobatch j r
      else
        let r1 := { r with deathReplays := r.deathReplays + 1, again := r.again || decide (r.st = .backwardDone) }
        ((s.retractStep j r1).record .coreDeathReplay .hid [(1, j), (4, r.n), (2, core)]).restartMicrobatch j r.n
    | none =>
      match (s.job j).committing with
      | some r => s.updateFault j r 0 0xFF 0
      | none =>
        ((s.modCores (s.job j).cores (fun c => c.stopStreams (fun _ => true))).reloadImages j).record .jobRestarted .hid
          [(1, j), (2, core)] |>.resumeJob j

/-! ### Out of service (R60, R61, R327 to R329) -/

/-- Classifications whose checker is gone start again with a new one (R417, R432). -/
def State.newCheckers (s : State) (c : Nat) : State :=
  { s with integ := { s.integ with
    classings := s.integ.classings.map (fun q => if q.checker = c then { q with checker := (s.checkerOf q.core).getD 0xFFFF } else q) } }

/-- A logical core without a site: what it held is lost, and the checks that it makes are abandoned (R59, R66, R422). -/
def State.coreGone (s : State) (c : Nat) : State :=
  (((s.loseCore c).abandonChecks c).newCheckers c).record .coreOutOfService (.core c) [(2, c)]

/-- Variants chosen for a job context: they come into force when it has drained (R328). `c` is the lost core. -/
def State.wantVariants (s : State) (j c : Nat) (vs : List (Nat × Nat)) : State :=
  (s.modJob j (fun y => { y with wanted := y.wanted ++ vs, lost := some (y.lost.getD c) })).startDrain j .fallback

/-- The layout for which a loss is judged now: none where none is active, where a running switch chooses the variants of its
target itself (R336), or where the job context has failed. -/
def Job.judged (x : Job) : Option Layout := if x.switch.isSome || x.st = .failed then none else x.layout

/-- A lost core: the out-of-service map, and its region's variant (R327, R329). -/
def State.outOfService (s : State) (c : Nat) : State :=
  let s1 := ({ s with net := { s.net with oos := if s.net.oos.contains c then s.net.oos else c :: s.net.oos } }).coreGone c
  match s1.jobOf c with
  | none => s1
  | some j =>
    let x := s1.job j
    match x.judged with
    | none => s1
    | some l =>
      match l.regionAt x.variants c with
      | none => s1
      | some q =>
        match s1.variantFor l (x.variants ++ x.wanted) q.1 1 c with
        | some v => s1.wantVariants j c [v]
        | none => (s1.exhausted j q.1).failJob j

/-- The regions in force of a job context that a field overlaps. -/
def State.regionsOf (s : State) (j f : Nat) : List Nat :=
  match (s.job j).layout with
  | none => []
  | some l => (List.range l.regions.length).filter (fun i =>
      (l.regions[i]?).any (fun r => (rectCores (l.inForce (s.job j).variants i r).1).any (fun c => fieldOf c = f)))

/-- The FIELD variants of some regions, each chosen beside those before it; none for a region without one (R327, R330). -/
def State.fieldVariants (s : State) (l : Layout) (f : Nat) : List Nat → List (Nat × Nat) → List (Nat × Option (Nat × Nat))
  | [], _ => []
  | r :: rs, vs =>
    match s.variantFor l vs r 2 f with
    | some v => (r, some v) :: s.fieldVariants l f rs (vs ++ [v])
    | none => (r, none) :: s.fieldVariants l f rs vs

/-- The variants of a job context for the loss of a field, by region. -/
def State.variantsAgainst (s : State) (j f : Nat) : List (Nat × Option (Nat × Nat)) :=
  match (s.job j).judged with
  | none => []
  | some l => s.fieldVariants l f (s.regionsOf j f) ((s.job j).variants ++ (s.job j).wanted)

/-- A core of a job context in a field. -/
def State.coreIn (s : State) (j f : Nat) : Nat := ((fieldCores f).find? (fun c => (s.job j).holds c)).getD 0

/-- A field is lost to a job context: its regions' variants, or its failure with each region that has none (R329). -/
def State.fieldLost (s : State) (j f : Nat) : State :=
  let q := s.variantsAgainst j f
  let bad := q.filter (fun x => x.2.isNone)
  if q.isEmpty then s
  else if bad.isEmpty then s.wantVariants j (s.coreIn j f) (q.filterMap (·.2))
  else (bad.foldl (fun a x => a.exhausted j x.1) s).failJob j

/-! ### Fences (R59, R60) -/

/-- PSITE of a vendor section (R442). -/
def psiteOf (col prow : Nat) : Nat := prow * 8 + col % 8

/-- Whether the lost core of a row can take the column's spare (R60). -/
def State.canShift (s : State) (col prow : Nat) : Bool :=
  decide (prow ≤ 7) && (s.shiftRow col).isNone && (Tab.get none s.wafer.shifts col).isNone &&
  (s.siteState col 8 = .spare || s.siteState col 8 = .spareTesting)

/-- A shift of a column begins: the lost core's job context halts and drains (R60 steps 1 to 3). -/
def State.startShift (s : State) (col prow cause c : Nat) : State :=
  let s1 := (s.loseCore c).abortTest col
  let s2 : State := { s1 with wafer := { s1.wafer with
    shifts := Tab.set none s1.wafer.shifts col (some { row := prow, started := s1.time, router := decide (cause = fcRouter) }) } }
  (match s2.jobOf c with
    | none => s2
    | some j => (s2.modJob j (fun y => { y with lost := some (y.lost.getD c) })).startDrain j .shift).noteDrains

/-- A site is fenced at run time: everything it held is lost at once (R59, R60). -/
def State.fenceSite (s : State) (col prow cause : Nat) (q : CperInfo) : State :=
  if s.siteState col prow = .fenced then s
  else
    let host := s.coreOfSite col prow
    let shift := s.canShift col prow
    let s0 := (s.setSite col prow .fenced).appendFence col prow cause
    let s1 : State := if cause = fcRouter then
        { s0 with wafer := { s0.wafer with deadRouters := (col * 9 + prow) :: s0.wafer.deadRouters } } else s0
    match host with
    | none => (s1.record .coreFenced (.field (col / 8)) [(1, cause), (8, 0)]).cper
        { q with fence := cause, field := col / 8, psite := psiteOf col prow, code := EventKind.coreFenced.code }
    | some c =>
      let s2 := ((s1.dropAt c (decide (cause = fcRouter))).record .coreFenced (.core c) [(1, cause), (8, 0)]).cper
        { q with fence := cause, core := c, field := col / 8, psite := psiteOf col prow, code := EventKind.coreFenced.code }
      if shift then s2.startShift col prow cause c else s2.outOfService c

/-- The site of a logical core is fenced. -/
def State.fenceCore (s : State) (c cause : Nat) (q : CperInfo) : State :=
  s.fenceSite (columnOf c) (s.physRow c) cause q

end Sys2Proof.Machine
end

