-- ==== Sys2Proof/Machine/Mesh.lean ====
section
/-! DEFINITION. The management mesh: what stands at the field supervisors, the priority of its classes, and the orders of the
HID that reach every field (spec/01 R25 to R30, spec/15 R494, spec/17 R542, spec/19 R585). -/

namespace Sys2Proof.Machine

/-- The start reaches a core: its CORE set resets and its loaded contexts run (R576); without a LEARN layout the sampling
ordinals restart (R416). -/
def State.startAt (s : State) (j c : Nat) : State :=
  ((s.resetCoreKept c).modCore c (fun x => if (s.job j).isLearn then x else x.zeroOrdinals)).startCore c

/-- A field supervisor acts on one message. -/
def State.actOn (s : State) (f : Nat) : MeshMsg → State
  | .quench => { s with obs := { s.obs with quench := { s.obs.quench with reached := f :: s.obs.quench.reached } } }
  | .lost c => s.coreGone c
  | .bank => s.bankField f
  | .wake => s.wakeField f
  | .start j => ((s.liveCores j).filter (fun c => fieldOf c = f)).foldl (fun a c => a.startAt j c) s
  | .report k fs => s.record k (.field f) fs

/-- A message reaches a field supervisor. -/
def State.post (s : State) (f : Nat) (m : MeshMsg) : State :=
  { s with mesh := Tab.set [] s.mesh f (Tab.get [] s.mesh f ++ [m]) }

/-- The messages of one class that stand at a field supervisor are acted on, in the order of their arrival. -/
def State.serveClass (s : State) (f : Nat) (l : List MeshMsg) (k : MeshClass) : State :=
  (l.filter (fun m => m.cls = k)).foldl (fun a m => a.actOn f m) s

/-- A field supervisor acts on all that stands at it, in strict priority order; none is dropped (R28). -/
def State.serveField (s : State) (f : Nat) : State :=
  let l := Tab.get [] s.mesh f
  [MeshClass.quench, .fault, .thermal, .command, .report].foldl (fun a k => a.serveClass f l k)
    { s with mesh := Tab.set [] s.mesh f [] }

/-- Every field supervisor that has messages acts on them. DESIGN CHOICE: within the command that sends them (assumption
log 81). -/
def State.serveMesh (s : State) : State := (s.mesh.map (·.1)).foldl State.serveField s

/-- A message to one field supervisor. -/
def State.tell (s : State) (f : Nat) (m : MeshMsg) : State := (s.post f m).serveMesh

/-- A message to every field supervisor (R29). -/
def State.toAll (s : State) (m : MeshMsg) : State := (List.range 64).foldl (fun a f => a.post f m) s

/-- The QUENCH message leaves the HID (R585); `cmd` is the taking of the command. A cold order whose variants were not in force
yet ends with their drains (R539). -/
def State.sendQuench (s : State) (cause : Nat) (cmd : Option (Nat × Nat)) : State :=
  let jb := Tab.setRange 0 [] 0 ((List.range 8).map (fun j => (s.job j).st.code))
  let s1 : State := { s with obs := { s.obs with quench := {
    active := true, reached := [], cause := cause, started := s.time, jobsBefore := jb, cmd := cmd,
    opWest := (s.half 0).op, opEast := (s.half 1).op, netMode := s.net.expansive } } }
  let lost := (List.range 64).filter (fun f => (Tab.get none s.clk.ordered f).isSome && !s.variantsReady f)
  let s2 : State := { s1 with clk := { s1.clk with ordered := lost.foldl (fun t f => Tab.set none t f none) s1.clk.ordered } }
  ((List.range 8).foldl (fun a j => a.quenchJob j) s2).toAll .quench

/-- The quench starts. -/
def State.startQuench (s : State) (cause : Nat) (cmd : Option (Nat × Nat)) : State := (s.sendQuench cause cmd).serveMesh

/-- The order to enter the bank state goes to every ACTIVE field (R542). -/
def State.bankAll (s : State) : State :=
  ((List.range 64).filter (fun f => s.fieldPower f = .active)).foldl (fun a f => a.post f .bank) s

/-- The SAFE actions (R542, R605); a device in SAFE keeps its first cause. Before the boot has mounted the flash, no part of
the wafer runs (R606). DESIGN CHOICE: one event (assumption log 58). -/
def State.enterSafe (s : State) (cause : Nat) : State :=
  if s.regs.st = .safe then s
  else
    let s1 := if s.obs.quench.active || !s.obs.flashReady then s else s.sendQuench 2 none
    let s2 := ((s1.force 0 64).force 1 64).govern
    let s3 := if s.obs.flashReady then s2.bankAll else s2
    let s4 := s3.serveMesh
    ({ s4 with regs := { s4.regs with safeCause := cause } }).setDev .safe

end Sys2Proof.Machine
end

