-- ==== Sys2Proof/Machine/Sampling.lean ====
section
/-! DEFINITION. The draw of sampled checks and their bookkeeping (spec/13 R415 to R422). -/

namespace Sys2Proof.Machine

/-- The draw of R416. -/
def sampleDraw (step kind sub core ordinal : Nat) : Nat :=
  let key0 : Word64 := BitVec.ofNat 64 (step % 2 ^ 32 * 2 ^ 32 + kind % 16 * 2 ^ 28 + sub % 16 * 2 ^ 24 + core % 4096)
  let key1 : Word64 := BitVec.ofNat 64 (ordinal % 2 ^ 48)
  (mix64 ((key0 ^^^ mix64 key1) + 0x9E3779B97F4A7C15#64)).toNat / 2 ^ 48

/-- EN and RATE for a core: as its job context latched them when its step opened, else the register's (R516). -/
def State.sampling (s : State) (core : Nat) : Bool × Nat :=
  match (s.jobOf core).bind (fun j => if (s.job j).isLearn then (s.job j).latched else none) with
  | some l => l
  | none => (s.regs.enable, s.regs.rate)

/-- Whether a candidate is sampled (R415, R416). -/
def State.sampled (s : State) (step kind sub core ordinal : Nat) : Bool :=
  (s.sampling core).1 && decide (sampleDraw step kind sub core ordinal < 2 ^ (16 - (s.sampling core).2))

/-- Kinds of candidate (R416). -/
def ckTile : Nat := 1
def ckVector : Nat := 2
def ckJoin : Nat := 3
def ckAdd : Nat := 4
def ckStack : Nat := 5

/-- A candidate is drawn; the number of the check that it starts, if any. -/
def State.candidate (s : State) (kind sub core ordinal ctx : Nat) (released : Bool) : State × Option Nat :=
  if !s.sampled (s.stepOf core) kind sub core ordinal then (s, none)
  else
    match s.checkerOf core, s.jobOf core with
    | some k, some j =>
      let id := s.integ.nextCheck
      let upd := decide (ctx = 2) && (s.job j).committing.isSome
      ({ s with integ := { s.integ with
          nextCheck := id + 1
          checks := s.integ.checks ++ [{ id := id, kind := kind, producer := core, ctx := ctx, checker := k, job := j,
                                         step := s.stepOf core, released := released, update := upd }] } }, some id)
    | _, _ => (s.checkSkipped core 417, none)

/-- The producer has released the work of a check. -/
def State.releaseCheck (s : State) (id : Nat) : State :=
  { s with integ := { s.integ with checks := s.integ.checks.map (fun c => if c.id = id then { c with released := true } else c) } }

/-! ### The check area (R418, R419, R421) -/

/-- The check area of a core's bank D, and its granules. -/
def checkArea : Nat := 0x5C_0000
def checkGranules : Nat := 0x4_0000 / 64

/-- A producer's share of its checker's area: its first offset and its granules; the producers of one checker divide the area equally,
in ascending order. -/
def State.checkShare (s : State) (checker producer : Nat) : Nat × Nat :=
  let l := match s.jobOf checker with
    | some j => (s.liveCores j).filter (fun p => s.checkerOf p = some checker)
    | none => []
  let n := checkGranules / max 1 l.length
  (checkArea + 64 * n * (l.findIdx (fun p => p = producer) % max 1 l.length), n)

/-- Copies of sampled work, granule by granule: they fill the producer's share in turn, from its beginning again at its end. -/
def copyFlits (dest src base n : Nat) : Nat → Nat → List Byte → List Flit
  | 0, _, _ => []
  | k + 1, pos, bs =>
    mkFlit 7 kCore dest kCore src opWrite (base / 64 + pos % n) (bs.take 64) ::
      copyFlits dest src base n k (pos + 1) (bs.drop 64)

/-- Bytes of a core's sampled work go to the checker's area as WRITE flits on VC7; `entry` is the tile queue entry they are read from. The
checker's program keeps up with them. DESIGN CHOICE (assumption log 80). -/
def State.copyCheck (s : State) (core id : Nat) (entry : Option Nat) (bs : List Byte) : State :=
  match s.checkById id with
  | none => s
  | some q =>
    let a := s.checkShare q.checker core
    let g := ceilDiv bs.length 64
    let pos := (s.core core).checkPos
    let noted : State := { s with integ := { s.integ with checks := s.integ.checks.map (fun c =>
      if c.id = id then { c with start := if c.granules = 0 then pos else c.start, granules := c.granules + g } else c) } }
    (noted.modCore core (fun c => { c with checkPos := (pos + g) % a.2 })).injectAll entry core
      (copyFlits q.checker core a.1 a.2 g pos bs)

/-- The copy of a check as it stands in the checker's area. -/
def State.copyHeld (s : State) (q : Check) : List Byte :=
  let a := s.checkShare q.checker q.producer
  (List.range q.granules).flatMap (fun i => s.delivered (windowAddr q.checker (a.1 + 64 * ((q.start + i) % a.2))) 64)

/-- The checker sends a producer's copy back into the producer's own check area, whose pending checks are abandoned (R427 step 1). -/
def State.sendBack (s : State) (q : Check) : State :=
  (s.abandonChecks q.producer).injectAll none q.checker
    (copyFlits q.producer q.checker checkArea checkGranules q.granules 0 (s.copyHeld q))

/-- The copy of a candidate that has been drawn. -/
def State.copyDrawn (q : State × Option Nat) (core : Nat) (bs : List Byte) : State :=
  match q.2 with
  | some id => q.1.copyCheck core id none bs
  | none => q.1

end Sys2Proof.Machine
end

