-- ==== Sys2Proof/Machine/WaferCmds.lean ====
section
/-! DEFINITION. The commands of core repair and of the replays: fences, shifts, link stages, variants, drains
(spec/02 R57 to R65, spec/10 R328, spec/11 R367 to R370, spec/14 R465). -/

namespace Sys2Proof.Machine

def execCoreFenced (column : Fin 512) (prow : Fin 9) (cause : Fin 16) (s : State) : Host.Outcome State Fault Refusal :=
  .next (if 1 ≤ cause.val ∧ cause.val ≤ 6 then s.fenceSite column.val prow.val cause.val {} else s)

/-- The shift copy of one moved core: corrected words are written clean, uncorrectable ones poisoned (R63). -/
def State.copyCore (s : State) (c : Nat) : State :=
  let w := windowAddr c 0 / 32
  { s with codeErr := s.codeErr.filterMap (fun p =>
      if w ≤ p.1 ∧ p.1 < w + spadBytes / 32 then
        match (wcDecode p.2).1 with
        | .clean => some p
        | .corrected => none
        | _ => some (p.1, poisonPattern)
      else some p) }

/-- A corrected word of a moved core takes its corrected bytes. -/
def correctedWords (s : State) (c : Nat) : List Nat :=
  let w := windowAddr c 0 / 32
  (s.codeErr.filter (fun p => decide (w ≤ p.1 ∧ p.1 < w + spadBytes / 32) && (wcDecode p.2).1 = .corrected)).map (·.1)

def State.moveCore (s : State) (c : Nat) : State :=
  let ws := correctedWords s c
  (ws.foldl (fun a w => a.store (32 * w) (s.delivered (32 * w) 32)) s).copyCore c

/-- The clean marks of the lost core, which the supervisor holds, outlive the load of its programs (R466). -/
def Core.keepMarks (new old : Core) : Core :=
  { new with
    cleanSems := old.cleanSems
    cleanAdds := old.cleanAdds
    cleanPairs := old.cleanPairs
    cleanTime := old.cleanTime
    ctxs := (List.range 3).foldl (fun t k => Tab.set {} t k { Tab.get {} new.ctxs k with clean := (old.ctx k).clean }) new.ctxs }

/-- Programs of a lost core loaded into its new site (R60 step 6). -/
def State.loadLost (s : State) (j c : Nat) : State :=
  match (s.job j).activeSlot with
  | none => s
  | some x =>
    let old := s.core c
    (s.loadImagesOf j x (s.job j).variants [c]).modCore c (fun n => n.keepMarks old)

/-- After a loss is made good: the replay of R465 for a running job context. One that variants still wait for stays drained for
them (R328). -/
def State.afterLoss (s : State) (j c : Nat) : State :=
  if !(s.job j).wanted.isEmpty then s.endDrain j
  else if (s.job j).st = .running then s.replayAfterLoss j c
  else (s.job j).cores.foldl State.releaseHold (s.modJob j (fun x => { x with draining := none, lost := none }))

/-- Steps 4 to 7 of a shift whose drain ended at a time (R60, R63, R66). -/
def State.shiftNow (s : State) (col : Nat) (sh : Shift) (drained : Nat) : State :=
  let lost := coreAt col sh.row
  let moved := ((List.range 8).filter (fun i => decide (sh.row < i))).map (fun i => coreAt col i)
  let s1 := moved.foldl (fun a c => a.moveCore c) s
  let s2 : State := { s1 with wafer := { s1.wafer with
    shifts := Tab.set none s1.wafer.shifts col none
    shifted := Tab.set none s1.wafer.shifted col (some sh.row) } }
  let s3 := (s2.setSite col 8 .inService).record .columnShifted (.field (col / 8))
    [(8, drained - sh.started), (8, s.time - sh.started)]
  (match s3.jobOf lost with
    | none => s3
    | some j => (s3.loadLost j lost).afterLoss j lost).admitAll

/-- A shift whose drain has ended completes (R60). -/
def execColumnShifted (column : Fin 512) (s : State) : Host.Outcome State Fault Refusal :=
  let col := column.val
  .next (match Tab.get none s.noteDrains.wafer.shifts col with
    | none => s
    | some sh =>
      match sh.drained with
      | none => s
      | some t => s.noteDrains.shiftNow col sh t)

/-- A shift is abandoned while its drain has not ended (R61). -/
def execShiftAbandoned (column : Fin 512) (s : State) : Host.Outcome State Fault Refusal :=
  let col := column.val
  .next (match Tab.get none s.noteDrains.wafer.shifts col with
    | none => s
    | some sh =>
      if sh.drained.isSome then s
      else
        let lost := coreAt col sh.row
        let s1 : State := { s with wafer := { s.wafer with shifts := Tab.set none s.wafer.shifts col none } }
        let s2 := s1.record .shiftAbandoned (.field (col / 8)) []
        match s2.jobOf lost with
        | none => s2.outOfService lost
        | some j =>
          let s3 := ((if (s2.job j).draining = some .shift then s2.modJob j (fun x => { x with draining := none }) else s2)).outOfService lost
          if (s3.job j).draining = none && (s3.job j).st = .running then s3.afterLoss j lost else s3)

/-! ### Fields (R57, R269, R272) -/

/-- What stands in a field's routers, and at its cores, is lost and counted (R272). -/
def State.dropField (s : State) (f : Nat) : State :=
  let inField (x : Flight) : Bool := decide (fieldOf x.at_ = f)
  let mine (x : Flight) : Bool := inField x && decide (x.link = 5)
  let s1 := (s.net.flights.filter inField ++ s.net.waiting.filter mine).foldl (fun a x => a.absorbAt x.at_) s
  { s1 with net := { s1.net with
    flights := s1.net.flights.filter (fun x => !inField x), waiting := s1.net.waiting.filter (fun x => !mine x) } }

/-- The pause that takes a field's routers out of the maps runs from its first step, or waits for the end of another (R272). -/
def State.pauseFor (s : State) (f : Nat) : State :=
  match s.net.pause with
  | some (g, cold, _) =>
    if g = f && cold then s else { s with net := { s.net with pauseNext := s.net.pauseNext ++ [f] } }
  | none => if s.net.cold.contains f then s else s.startPause f true

/-- A field out of service (R57): its cores, its routers' flits, the pause, and SAFE where no detour is defined (R269). -/
def State.fieldOut (s : State) (f : Nat) : State :=
  let allowed := s.coldAllowed f
  let s1 := s.dropField f
  let s2 : State := { s1 with wafer := { s1.wafer with
    linkOut := if s1.wafer.linkOut.contains f then s1.wafer.linkOut else f :: s1.wafer.linkOut } }
  let gone := (fieldCores f).filter (fun c => !s.coreOut c)
  let s3 := (gone.foldl (fun a c => a.post f (.lost c)) (s2.setField f .outOfService)).serveMesh
  let s4 := (((List.range 8).foldl (fun a j => a.fieldLost j f) s3).pauseFor f).noteDrains
  if allowed then s4 else (s4.record .routeImpossible .hid []).enterSafe safeRoute

/-- A link stage fails at run time: a LINK_STAGE record, whose row and column fields are zero, and the field is out of service (R57).
DESIGN CHOICE (assumption log 78). -/
def execLinkStageFailed (field : Fin 64) (s : State) : Host.Outcome State Fault Refusal :=
  let f := field.val
  .next (if s.wafer.linkOut.contains f then s
    else
      let s1 := match s.appendRepair 16384 (repairWord 3 f 0 0 0 0 0 0 0 s.sec.bootCount) with
        | some t => t
        | none => s.record .repairStoreLimit .hid []
      (s1.tell f (.report .linkStageFailed [])).fieldOut f)

/-! ### Variants (R328, R329) -/

/-- Put one variant in force (R328 steps 2 and 3). -/
def State.applyVariant (s : State) (j : Nat) (x : Slot) (v : Nat × Nat) : State :=
  match x.layout.fallbacks[v.2]? with
  | none => s
  | some f =>
    let s1 := (s.writePatches f.patches).modJob j (fun y => { y with
      variants := y.variants ++ [v]
      steps := y.steps.map (fun r => if r.st = .waiting then r else { r with fallback := true }) })
    let cs := (rectCores f.rect).filter (fun c => !f.hole c && s1.reachable c)
    let s2 := s1.loadImagesOf j x (s1.job j).variants cs
    let t := s.time - (s.job j).drainStart
    s2.record .fallbackApplied .hid [(1, j), (2, v.1), (1, f.trigger), (2, f.id), (8, t), (8, t)]

/-- The variants chosen for a drained job context come into force. A drain for variants alone ends with the replay of the lost
work; one that has another purpose goes on (R328). -/
def State.applyWanted (s : State) (j : Nat) (x : Slot) : State :=
  let s1 := ((s.job j).wanted.foldl (fun a v => a.applyVariant j x v) s).modJob j (fun y => { y with wanted := [] })
  (if (s1.job j).draining = some .fallback then s1.afterLoss j (((s.job j).lost).getD 0) else s1).tryPause.admitAll

def execFallbackApplied (job : Fin 8) (s : State) : Host.Outcome State Fault Refusal :=
  let j := job.val
  .next (match (s.job j).draining, (s.job j).activeSlot with
    | some _, some x => if (s.job j).wanted.isEmpty || !s.jobQuiet j then s else s.applyWanted j x
    | _, _ => s)

/-! ### Replays (R367 to R370, R430) -/

/-- The drain of a replay has ended, and no variant is still to come into force. -/
def State.replayReady (s : State) (j : Nat) : Bool := s.jobQuiet j && (s.job j).wanted.isEmpty

def execMicrobatchReplay (job : Fin 8) (s : State) : Host.Outcome State Fault Refusal :=
  let j := job.val
  .next (if !s.replayReady j then s
    else
      match (s.job j).draining, (s.job j).openStep with
      | some .replay, some r => (s.replayNow j .replay r).admitAll
      | some .integrity, some r => (s.replayNow j .integrity r).admitAll
      | some .drop, some r => (s.replayNow j .drop r).admitAll
      | _, _ => s)

/-- The fields whose cold orders some chosen variants serve: field and region (R329). -/
def State.thermalWants (s : State) (j : Nat) : List (Nat × Nat) :=
  match (s.job j).layout with
  | none => []
  | some l => (s.job j).wanted.filterMap (fun v => match l.fallbacks[v.2]? with
      | some q => if q.trigger = 2 && (Tab.get none s.clk.ordered q.id).isSome then some (q.id, v.1) else none
      | none => none)

/-- The cold orders that a drain served are refused, and their variants are not put in force (R329, R330). -/
def State.refuseThermal (s : State) (j : Nat) : State :=
  let q := s.thermalWants j
  let s1 := s.modJob j (fun y => { y with wanted := y.wanted.filter (fun v => q.all (fun x => x.2 ≠ v.1)) })
  q.foldl (fun a x => if (Tab.get none a.clk.ordered x.1).isSome then a.keepWarm x.1 x.2 else a) s1

/-- A drain has passed its limit of 5 ms (R61, R329, R368). -/
def State.drainOver (s : State) (j : Nat) (d : DrainFor) : State :=
  let s1 := s.refuseThermal j
  if !(s1.job j).wanted.isEmpty then
    (((s1.job j).wanted.foldl (fun a v => a.exhausted j v.1) s1).failJob j).modJob j (fun y => { y with wanted := [] })
  else
    match d with
    | .fallback => (s1.modJob j (fun y => { y with draining := none, lost := none })).resumeJob j
    | .replay | .integrity | .drop => s1.failJob j
    | .shift | .classify => s1

def execDrainLimitExceeded (job : Fin 8) (s : State) : Host.Outcome State Fault Refusal :=
  let j := job.val
  .next (match (s.job j).draining with
    | some d => if s.jobQuiet j then s else s.drainOver j d
    | none => s)

end Sys2Proof.Machine
end

