-- ==== Sys2Proof/Machine/Clocks.lean ====
section
/-! DEFINITION. Clocks, power and temperature: samples, operating points, field states and route pauses (spec/17 R525 to
R542, spec/08 R271, R272). -/

namespace Sys2Proof.Machine

/-! ### Temperature (R535, R536, R539, R542) -/

/-- The median of three readings. -/
def median3 (a b c : Int) : Int := max (min a b) (min (max a b) c)

def absDiff (a b : Int) : Nat := (a - b).natAbs

/-- A reading that makes its sensor ignored: out of range, or a wafer sensor far from the median of its field's others. -/
def badReading (vs : List Int) (k : Nat) : Bool :=
  let v := vs.getD k 0
  let peer (i : Nat) : Int := vs.getD (k / 4 * 4 + (k + i) % 4) 0
  decide (v < -640 ∨ 2400 < v) || (decide (k < 256) && decide (320 < absDiff v (median3 (peer 1) (peer 2) (peer 3))))

/-- A stack's temperature readout in 1/16 °C: hot from 95 °C on until it is below 90 °C (R537). -/
def StackSite.warmed (x : StackSite) (t : Int) : StackSite :=
  { x with temp := t / 16, hot := decide (16 * 95 ≤ t) || (x.hot && decide (16 * 90 ≤ t)) }

/-- The readings are taken; a sensor that fails is ignored until the next boot. -/
def State.takeReadings (s : State) (vs : List Int) : State :=
  let bad := (List.range 293).filter (fun k => badReading vs k && !s.clk.ignored.contains k)
  let s1 : State := { s with clk := { s.clk with
    sensors := Tab.setRange 0 [] 0 vs
    ignored := s.clk.ignored ++ bad } }
  let s2 := bad.foldl (fun a k => a.record .sensorFault .hid [(2, k), (2, tempCode (vs.getD k 0))]) s1
  (List.range 36).foldl (fun a i =>
    if a.isStack i && !a.clk.ignored.contains (256 + i) then a.modStack i (fun x => x.warmed (vs.getD (256 + i) 0)) else a) s2

def fieldsOfHalf (h : Nat) : List Nat := (List.range 64).filter (fun f => halfOfField f = h)

/-- The hottest wafer sensor of a half, with a field that reads so. -/
def State.halfHot (s : State) (h : Nat) : Int := (fieldsOfHalf h).foldl (fun a f => max a (s.fieldHot f)) (-640)

/-- The sensor that an event names: the hottest usable one of a half. -/
def State.hotSensor (s : State) (ks : List Nat) : Nat :=
  let t := s.hottestOf ks
  (ks.find? (fun k => !s.clk.ignored.contains k && decide (Tab.get 0 s.clk.sensors k = t))).getD (ks.headD 0)

def sensorsOfHalf (h : Nat) : List Nat := (fieldsOfHalf h).flatMap (fun f => (List.range 4).map (fun k => 4 * f + k))

def hundredMs : Nat := 100000000

/-- The thermal governor of one half at a sample (R536). -/
def State.thermal (s : State) (h : Nat) : State :=
  let hot := s.halfHot h
  let tt := 16 * (s.regs.tthrottle : Int)
  let x := s.half h
  if tt ≤ hot then
    let s1 := s.setHalf h { x with coolSince := none }
    if s.mayChange h && x.thermal < 5 then
      (s1.setHalf h { x with coolSince := none, thermal := x.thermal + 1 }).record .thermalThrottle .hid
        [(1, h), (2, s.hotSensor (sensorsOfHalf h)), (2, tempCode hot)]
    else s1
  else if tt - 80 ≤ hot then s.setHalf h { x with coolSince := none }
  else
    match x.coolSince with
    | none => s.setHalf h { x with coolSince := some s.time }
    | some t =>
      if t + hundredMs ≤ s.time then s.setHalf h { x with coolSince := some s.time, thermal := x.thermal - 1 } else s

/-- Since when a reading stays beyond a limit, and whether that has lasted so long (R538 to R540, R542). -/
def limitSince (since : Option Nat) (now : Nat) (hot : Bool) : Option Nat :=
  if hot then some (since.getD now) else none

def limitHit (since : Option Nat) (now n : Nat) : Bool :=
  match since with
  | none => false
  | some t => decide (t + n ≤ now)

def State.limitOf (s : State) (d : Int) : Int := 16 * ((s.regs.tthrottle : Int) + d)

/-- Since when each field's hottest sensor stays at Tt + 5 or above, below Tt - 5, and below Tt - 10 (R538 to R540). -/
def State.noteHeat (s : State) : State :=
  let one (t : Tab (Option Nat)) (p : Nat → Bool) : Tab (Option Nat) :=
    (List.range 64).foldl (fun a f => Tab.set none a f (limitSince (Tab.get none t f) s.time (p f))) t
  { s with clk := { s.clk with
    hotAt := one s.clk.hotAt (fun f => decide (s.limitOf 5 ≤ s.fieldHot f))
    coolAt := one s.clk.coolAt (fun f => decide (s.fieldHot f < s.limitOf (-5)))
    chillAt := one s.clk.chillAt (fun f => decide (s.fieldHot f < s.limitOf (-10))) } }

/-- A field kept warm for 100 ms below Tt - 5 releases its half (R539). -/
def State.coolField (s : State) (f : Nat) : State :=
  let h := halfOfField f
  if (s.half h).forced.contains f && limitHit (Tab.get none s.clk.coolAt f) s.time hundredMs then
    let s1 := s.unforce h f
    s1.setHalf h { s1.half h with thermal := 5 }
  else s

/-- The thermal limits (R542). -/
def State.thermalLimits (s : State) : State :=
  let wafer := List.range 256
  let parts := (List.range 37).map (256 + ·)
  let w := limitSince s.clk.hotWafer s.time (decide (16 * ((s.regs.tthrottle : Int) + 15) ≤ s.hottestOf wafer))
  let p := limitSince s.clk.hotParts s.time (decide (16 * 105 ≤ s.hottestOf parts))
  let s1 : State := { s with clk := { s.clk with hotWafer := w, hotParts := p } }
  let go (t : State) (since : Option Nat) (ks : List Nat) (cause : Nat) : State :=
    if limitHit since t.time 1000000 && t.regs.st ≠ .safe then
      (t.record .thermalCritical .hid [(2, t.hotSensor ks), (2, tempCode (t.hottestOf ks))]).enterSafe cause
    else t
  go (go s1 w wafer safeWafer) p parts safeComponent

/-! ### Cold orders (R327 to R330, R336, R539) -/

/-- The regions of job contexts that a field overlaps, with the variant that each would have: job context, region, variant
(R327, R330). -/
def State.coldVariants (s : State) (f : Nat) : List (Nat × Nat × Option (Nat × Nat)) :=
  (List.range 8).flatMap (fun j => (s.variantsAgainst j f).map (fun x => (j, x.1, x.2)))

/-- The order is carried out: the variants are chosen and their job contexts drained (R328). -/
def State.orderCold (s : State) (f : Nat) : State :=
  let one (a : State) (j : Nat) : State :=
    match (s.variantsAgainst j f).filterMap (·.2) with
    | [] => a
    | vs => a.wantVariants j (s.coreIn j f) vs
  let s1 := (List.range 8).foldl one s
  ({ s1 with clk := { s1.clk with ordered := Tab.set none s1.clk.ordered f (some s.time) } }).tryPause

/-- A cold order is judged (R269, R327, R330, R539). -/
def State.judgeCold (s : State) (f : Nat) : State :=
  if !s.coldAllowed f then s.keepWarm f 0xFFFF
  else
    match (s.coldVariants f).find? (fun x => x.2.2.isNone) with
    | some x => s.keepWarm f x.2.1
    | none => s.orderCold f

/-- A switch of a job context that holds a core of the field is running (R336). -/
def State.switchOver (s : State) (f : Nat) : Bool :=
  (List.range 8).any (fun j => (s.job j).switch.isSome && (fieldCores f).any (fun c => (s.job j).holds c))

/-- Deferred orders whose switches have ended are judged (R336); one for a field that has left the bank state is void.
DESIGN CHOICE: at the next reading of the sensors (assumption log 49). -/
def State.judgeDeferred (s : State) : State :=
  s.clk.deferred.foldl (fun a f =>
    if a.switchOver f then a
    else
      let b : State := { a with clk := { a.clk with deferred := a.clk.deferred.filter (fun g => g ≠ f) } }
      if b.fieldPower f = .bank && !b.obs.quench.active && (Tab.get none b.clk.ordered f).isNone then b.judgeCold f else b) s

def execSensorSample (values : List Int) (s : State) : Host.Outcome State Fault Refusal :=
  .next (if values.length ≠ 293 then s
    else
      let s1 := (s.takeReadings values).noteHeat
      let s2 := (s1.thermal 0).thermal 1
      let s3 := (List.range 64).foldl State.coolField s2
      s3.govern.thermalLimits.judgeDeferred.updateAlert)

/-! ### Power (R529 to R532) -/

/-- The effective cap in mW: PCAP, or what both feeds carry at 300 A (R532). -/
def State.effCap (s : State) : Nat := min (1000 * s.regs.pcap) (2 * 300 * s.clk.lowMv)

/-- The half at the faster point; on a tie the hotter, then the east one (R529). -/
def State.fasterHalf (s : State) : Nat :=
  let a := s.half 0
  let b := s.half 1
  if a.op < b.op then 0 else if b.op < a.op then 1 else if s.halfHot 1 < s.halfHot 0 then 0 else 1

/-- POWER_CAPPED; half 0xFF where the held limit acts on both. -/
def State.capped (s : State) (h : Nat) : State :=
  s.record .powerCapped .hid [(1, h), (4, s.clk.avg / 1000), (2, s.regs.pcap)]

/-- Both halves run at OP5: the held limit takes its next step (R531). DEDUCED (assumption log 49). -/
def State.holdLimit (s : State) : State :=
  let c := s.clk
  let s1 : State := if c.held < 2 then { s with clk := { c with
      held := c.held + 1, heldSaved := 0 :: c.heldSaved, heldNoting := some c.avg, heldLast := s.time } } else s
  s1.capped 0xFF

/-- A lowering of the power demand from the point the half runs at (R529). DEDUCED (assumption log 49). -/
def State.lowerPower (s : State) : State :=
  let h := s.fasterHalf
  let x := s.half h
  ((s.setHalf h { x with power := min 5 (max x.power x.op + 1), noting := some (x.op, s.clk.avg) }).capped h).govern

def State.atSlowest (s : State) : Bool := (s.half 0).op = 5 && (s.half 1).op = 5

/-- The average is above the cap. -/
def State.overCap (s : State) : State :=
  if s.atSlowest then s.holdLimit else if s.changeRunning then s else s.lowerPower

/-- A feed current limit of R542. -/
def State.currentLimit (s : State) : State :=
  let o := limitSince s.clk.overCurrent s.time (s.clk.fast && decide (320000 ≤ s.clk.feedAI ∨ 320000 ≤ s.clk.feedBI))
  let s1 : State := { s with clk := { s.clk with overCurrent := o } }
  if limitHit o s.time 1000000 then s1.enterSafe safeCurrent else s1

def execPowerSample (mw : Nat) (feedA feedB : Feed) (s : State) : Host.Outcome State Fault Refusal :=
  let s1 : State := { s with clk := { s.clk with
    power := mw, feedA := feedA.mv, feedB := feedB.mv, feedAI := feedA.ma, feedBI := feedB.ma } }
  let fast := decide (s1.effCap + 2000000 < mw) || decide (320000 ≤ feedA.ma ∨ 320000 ≤ feedB.ma)
  let s2 : State :=
    if !fast || s1.clk.fast then s1
    else if s1.atSlowest then s1.holdLimit
    else { s1 with clk := { s1.clk with fast := true } }.overCap
  .next s2.currentLimit.updateAlert

/-- Step records of completed lowerings (R529), and what the last step of the held limit saved (R531). -/
def State.noteSavings (s : State) : State :=
  let one (t : State) (h : Nat) : State :=
    let x := t.half h
    match x.noting with
    | some (p, a) =>
      if x.changing.isNone && decide (p < x.op) then
        t.setHalf h { x with noting := none, records := Tab.set none x.records p (some ((a : Int) - t.clk.avg)) }
      else t
    | none => t
  let s1 := one (one s 0) 1
  match s1.clk.heldNoting with
  | none => s1
  | some a => { s1 with clk := { s1.clk with
      heldNoting := none, heldSaved := ((a : Int) - s1.clk.avg) :: s1.clk.heldSaved.drop 1 } }

/-- The held limit steps back (R531). -/
def State.releaseHeld (s : State) : State :=
  let c := s.clk
  if (c.avg : Int) + c.heldSaved.headD 0 ≤ s.effCap && decide (c.heldLast + hundredMs ≤ s.time) then
    { s with clk := { c with held := c.held - 1, heldSaved := c.heldSaved.drop 1, heldLast := s.time } }
  else s

/-- When the last change of either half completed. -/
def State.lastChange (s : State) : Nat := max ((s.half 0).lastDone.getD 0) ((s.half 1).lastDone.getD 0)

/-- One half's demand becomes faster where its step record, or 3 kW, lets it (R529). -/
def State.raisePower (s : State) (h : Nat) : State :=
  let x := s.half h
  let fits := match Tab.get none x.records (x.power - 1) with
    | some r => decide ((s.clk.avg : Int) + r ≤ s.effCap)
    | none => decide (s.clk.avg + 3000000 ≤ s.effCap)
  if 0 < x.power && fits && !s.changeRunning && decide (s.lastChange + hundredMs ≤ s.time) then
    (s.setHalf h { x with power := x.power - 1 }).govern
  else s

def execPowerWindow (mw lowMv : Nat) (s : State) : Host.Outcome State Fault Refusal :=
  let s1 := ({ s with clk := { s.clk with avg := mw, lowMv := lowMv } }).noteSavings
  .next (if s1.effCap < mw then s1.overCap
    else if s1.clk.held ≠ 0 then s1.releaseHeld
    else (s1.raisePower 0).raisePower 1)

/-! ### Operating points (R526, R527) -/

def execOpChanged (half : Fin 2) (s : State) : Host.Outcome State Fault Refusal :=
  let h := half.val
  let x := s.half h
  .next (match x.changing with
    | none => s
    | some n =>
      let s1 := s.setHalf h { x with op := n, changing := none, lastDone := some s.time }
      let s2 : State := { s1 with clk := { s1.clk with fast := s1.clk.fast && x.noting.isNone } }
      (s2.record .opChanged .hid [(1, h), (1, x.op), (1, n), (1, x.reason)]).tryPause.govern)

/-! ### Supply and PLLs (R533, R534, R541) -/

/-- Droops within 1 ms of one another count once. Sources 0 to 63 are fields, 64 and 65 the feeds. -/
def execSupplyDroop (source : Fin 66) (mv : Nat) (s : State) : Host.Outcome State Fault Refusal :=
  let again := s.clk.lastDroop.any (fun t => decide (s.time < t + 1000000))
  let s1 : State := { s with clk := { s.clk with lastDroop := some s.time } }
  let items := [(1, source.val), (4, mv)]
  let noted := if source.val < 64 then s1.tell source.val (.report .supplyDroop items) else s1.record .supplyDroop .hid items
  .next (if again then s1 else noted.health hDroop source.val)

def execFeedFault (feed : Fin 2) (mv : Nat) (s : State) : Host.Outcome State Fault Refusal :=
  let s1 : State := { s with clk :=
    if feed.val = 0 then { s.clk with feedA := mv } else { s.clk with feedB := mv } }
  .next ((s1.record .feedFault .hid [(1, feed.val), (4, mv)]).enterSafe safeVoltage).updateAlert

def execPllUnlock (field : Fin 64) (s : State) : Host.Outcome State Fault Refusal :=
  let f := field.val
  .next (if s.fieldPower f = .outOfService then s
    else
      let s1 := s.record .pllUnlock (.field f) [(1, f)]
      ({ s1 with clk := { s1.clk with
        lockLost := if s1.clk.lockLost.contains f then s1.clk.lockLost else f :: s1.clk.lockLost } }).fieldOut f)

/-! ### Fields (R538 to R540) -/

def oneMs : Nat := 1000000

/-- A field's hottest sensor has stayed at Tt + 5 or above for 1 ms. -/
def State.hotLong (s : State) (f : Nat) : Bool := limitHit (Tab.get none s.clk.hotAt f) s.time oneMs

/-- A field has been in the bank state for 10 ms, with its hottest sensor still at Tt or above (R539). -/
def State.staysHot (s : State) (f : Nat) : Bool :=
  decide (Tab.get 0 s.clk.since f + 10 * oneMs ≤ s.time ∧ s.limitOf 0 ≤ s.fieldHot f)

def execFieldBank (field : Fin 64) (s : State) : Host.Outcome State Fault Refusal :=
  let f := field.val
  .next (if s.fieldPower f = .active && s.hotLong f then s.tell f .bank else s)

/-- A field leaves the bank state when it has been cool for 100 ms, or when its half runs at OP5 for its sake (R538, R539).
DEDUCED: not in SAFE (assumption log 50). -/
def State.mayWake (s : State) (f : Nat) : Bool :=
  limitHit (Tab.get none s.clk.coolAt f) s.time hundredMs || ((s.half (halfOfField f)).forced.contains f && (s.half (halfOfField f)).op = 5)

def execFieldActive (field : Fin 64) (s : State) : Host.Outcome State Fault Refusal :=
  let f := field.val
  .next (if s.fieldPower f = .bank && s.regs.st ≠ .safe && s.mayWake f then
      let s1 := s.tell f .wake
      { s1 with clk := { s1.clk with ordered := Tab.set none s1.clk.ordered f none } }
    else s)

/-- The thermal control orders the cold state where the device is not quenched; an order for a field of a running switch waits
for its end (R336, R539). -/
def execFieldColdOrder (field : Fin 64) (s : State) : Host.Outcome State Fault Refusal :=
  let f := field.val
  .next (if s.fieldPower f ≠ .bank || !s.staysHot f || s.obs.quench.active ||
      (Tab.get none s.clk.ordered f).isSome then s
    else if s.switchOver f then
      { s with clk := { s.clk with deferred := if s.clk.deferred.contains f then s.clk.deferred else s.clk.deferred ++ [f] } }
    else s.judgeCold f)

def execFieldCold (field : Fin 64) (s : State) : Host.Outcome State Fault Refusal :=
  let f := field.val
  .next (match Tab.get none s.clk.ordered f with
    | none => s
    | some t =>
      if s.fieldPower f ≠ .bank || !s.net.cold.contains f then s
      else
        let s1 := (fieldCores f).foldl State.loseCore (s.dropField f)
        let s2 : State := { s1 with clk := { s1.clk with ordered := Tab.set none s1.clk.ordered f none } }
        (s2.setField f .cold).record .fieldCold (.field f) [(1, f), (8, s.time - t)])

def execColdReturn (field : Fin 64) (s : State) : Host.Outcome State Fault Refusal :=
  let f := field.val
  .next (if s.fieldPower f = .cold && limitHit (Tab.get none s.clk.chillAt f) s.time (1000 * oneMs) && s.net.pause.isNone && !s.changeRunning
    then s.startPause f false else s)

/-! ### Route pauses (R271, R272) -/

/-- The pause ends; injection resumes unless the device is quenched (R271 step 5). -/
def State.endPause (s : State) : State :=
  if s.obs.quench.active then { s with net := { s.net with pause := none } }
  else ({ s with net := { s.net with pause := none, stopped := false } }).admitAll

/-- A core that has a site to run on. -/
def State.hasSite (s : State) (c : Nat) : Bool := s.siteState (columnOf c) (s.physRow c) ≠ .fenced

/-- What waits on an attach link of a field that goes cold enters at the site's next position (R248). -/
def State.rehome (s : State) (f : Nat) : State :=
  { s with net := { s.net with waiting := s.net.waiting.map (fun x =>
      if x.link = 4 && x.flit.skind.toNat = kSite && fieldOf x.at_ = f then
        { x with at_ := s.attachCore x.flit.src.toNat (if x.flit.dkind.toNat = kCore then x.flit.dest.toNat % 7 else 0) }
      else x) } }

/-- Step 3: the new maps (R268). -/
def State.writeMaps (s : State) (f : Nat) (cold : Bool) : State :=
  let cs := fieldCores f
  let others := s.net.oos.filter (fun c => fieldOf c ≠ f)
  if cold then
    ({ s with net := { s.net with
      cold := if s.net.cold.contains f then s.net.cold else f :: s.net.cold
      oos := others ++ cs } }).rehome f
  else { s with net := { s.net with
    cold := s.net.cold.filter (· ≠ f)
    oos := others ++ cs.filter (fun c => !s.hasSite c) } }

/-- A site that has been without power restarts from zero, and CYCLE counts from there (R188, R540).
DEDUCED (assumption log 55). -/
def State.powerCycled (s : State) (c : Nat) : State :=
  (s.loseCore c).modCore c (fun k => { k with cycleBase := (s.half (halfOf c)).cycles / 10 })

/-- A field that comes back passes through the bank state with its banks zeroed and its CORE sets reset (R540, R576). -/
def State.coldReturned (s : State) (f : Nat) : State :=
  ((fieldCores f).foldl State.powerCycled s).setField f .bank

def execRouteChanged (field : Fin 64) (s : State) : Host.Outcome State Fault Refusal :=
  .next (match s.net.pause with
    | none => s
    | some (f, cold, t) =>
      if f ≠ field.val || !s.net.flights.isEmpty then s
      else
        let s1 := (s.writeMaps f cold).endPause
        let s2 := s1.record .routeChanged .hid [(1, f), (1, if cold then 1 else 0), (8, s.time - t)]
        if !cold && s.fieldPower f = .cold then s2.coldReturned f else s2)

def execRouteChangeAbandoned (field : Fin 64) (s : State) : Host.Outcome State Fault Refusal :=
  .next (match s.net.pause with
    | none => s
    | some (f, _, _) =>
      if f ≠ field.val || s.net.flights.isEmpty then s
      else
        let s1 : State := { s with clk := { s.clk with ordered := Tab.set none s.clk.ordered f none } }
        s1.endPause.record .routeChangeAbandoned .hid [(1, f)])

end Sys2Proof.Machine
end

