-- ==== Sys2Proof/Machine/Spad.lean ====
section
/-! DEFINITION. Scratchpad reads through the word code: corrections, the column tally and its repair records, and words
that are never delivered (spec/02 R45 to R47, R51 to R56, spec/13 R429). -/

namespace Sys2Proof.Machine

/-- The failed-column places of a word's corrected symbol, as macro, segment and column (R51). -/
def columnPlaces (w : Nat) (e : BitVec 288) : List (Nat × Nat × Nat) :=
  let mac := w / 4096 * 2 + w % 2
  let a := w / 2 % 2048
  ((List.range 288).filter (fun k => e.getLsbD k)).map (fun k => (mac, k / 32, k % 32 * 8 + a % 8))

/-- The key of a segment of a bank of a site, and of one column in it. -/
def segmentKey (site bank mac seg : Nat) : Nat := ((site * 4 + bank) * 32 + mac) * 9 + seg
def columnKey (site bank mac seg col : Nat) : Nat := segmentKey site bank mac seg * 256 + col

/-- Fields of a COLUMN record (R54). -/
def recordSegment (w : Word64) : Nat :=
  let n := w.toNat
  segmentKey ((n / 2 ^ 54 % 64 * 8 + n / 2 ^ 47 % 8) * 9 + n / 2 ^ 50 % 16) (n / 2 ^ 45 % 4) (n / 2 ^ 40 % 32) (n / 2 ^ 36 % 16)

/-- The lowest redundant column of a segment that neither fuses nor records use (R53). -/
def State.freeSpare (s : State) (key : Nat) : Option Nat :=
  let fused := Tab.get 0 s.wafer.fuses key
  let used := (s.wafer.store.filter (fun w => decide (w.toNat / 2 ^ 60 = 1) && decide (recordSegment w = key))).map
    (fun w => w.toNat / 2 ^ 26 % 4)
  (List.range 4).find? (fun i => decide (fused / 2 ^ i % 2 = 0) && !used.contains i)

/-- Words kept for records of other types than COLUMN (R56). -/
def columnLimit : Nat := 15872

/-- A column has failed in four words: a repair record, or a fence where none can be made (R53, R56). A fence for want of room in the
store has the cause of one for want of a redundant column. DESIGN CHOICE (assumption log 77). -/
def State.repairColumn (s : State) (c bank mac seg col : Nat) : State :=
  let fc := columnOf c
  let prow := s.physRow c
  match s.freeSpare (segmentKey (fc * 9 + prow) bank mac seg) with
  | none => s.fenceCore c fcColumns {}
  | some i =>
    match s.appendRepair columnLimit (repairWord 1 (fc / 8) prow (fc % 8) bank mac seg col i s.sec.bootCount) with
    | some t => t.record .columnRecorded (.core c) []
    | none => (s.record .repairStoreLimit .hid []).fenceCore c fcColumns {}

/-- One corrected word of a column; the fourth distinct word asks for a repair (R53). -/
def State.tallyColumn (s : State) (c bank w : Nat) (p : Nat × Nat × Nat) : State :=
  let site := columnOf c * 9 + s.physRow c
  let key := columnKey site bank p.1 p.2.1 p.2.2
  let t := s.wafer.tally
  if t.any (fun x => x.1 = key && x.2.1 = bank && x.2.2 = w) then s
  else
    let t1 := t ++ [(key, bank, w)]
    let s1 : State := { s with wafer := { s.wafer with tally := t1 } }
    if (t1.filter (fun x => decide (x.1 = key))).length = 4 then s1.repairColumn c bank p.1 p.2.1 p.2.2 else s1

/-- Bytes of a bank before it in the window. -/
def bankBase (b : Nat) : Nat := match b with | 0 => 0 | 1 => 0x20_0000 | 2 => 0x40_0000 | _ => 0x50_0000

/-- A corrected symbol of one scratchpad word (R45). -/
def State.noteCorrected (s : State) (c : Nat) (word : Nat) : State :=
  let off := 32 * word - windowAddr c 0
  let b := bankOf off
  let e := s.errOf word
  let w := (off - bankBase b) / 32
  let s1 := (s.modCore c (fun k => { k with corrected := Tab.set 0 k.corrected b (Tab.get 0 k.corrected b + 1) })).record
    .spadCorrected (.core c) [] |>.health hSymbols c
  (columnPlaces w (e ^^^ (wcDecode e).2)).foldl (fun a p => a.tallyColumn c b w p) s1

/-- A read of a core's own banks: what was corrected is counted, and nothing is delivered where a word is
uncorrectable (R45, R46). -/
def State.spadRead (s : State) (c off n : Nat) : State × Option (List Byte) :=
  let a := windowAddr c off
  let q := s.checkWords (wordsOf a n)
  let s1 := q.corrected.foldl (fun t w => t.noteCorrected c w) s
  match q.bad with
  | none => (s1, some (s.delivered a n))
  | some _ => (s1, none)

/-- Whether an extent of a core's banks can be delivered. -/
def State.spadGood (s : State) (c off n : Nat) : Bool := (s.checkWords (wordsOf (windowAddr c off) n)).bad.isNone

/-- A write of part of a word merges: an uncorrectable old word is not merged (R43, R46). -/
def mergeWords (a n : Nat) : List Nat :=
  (wordsOf a n).filter (fun w => !(decide (a ≤ 32 * w ∧ 32 * w + 32 ≤ a + n)))

/-- Whether every word that a write merges into can be read. -/
def State.mergeOk (s : State) (c off n : Nat) : Bool :=
  (s.checkWords (mergeWords (windowAddr c off) n)).bad.isNone

/-- The merged words of a write take their corrected bytes first (R43). -/
def State.spadStore (s : State) (c off : Nat) (bs : List Byte) : State :=
  let a := windowAddr c off
  let q := s.checkWords (mergeWords a bs.length)
  let s1 := q.corrected.foldl (fun t w => (t.noteCorrected c w).store (32 * w) (t.delivered (32 * w) 32)) s
  s1.store a bs

/-- KIND of a classification (R442). -/
def cpLane : Nat := 1
def cpTile : Nat := 2
def cpVector : Nat := 3
def cpJoin : Nat := 4
def cpAdd : Nat := 5
def cpSpad : Nat := 6
def cpStream : Nat := 7
def cpHeader : Nat := 8
def cpChunk : Nat := 9
def cpDouble : Nat := 10
def cpStress : Nat := 11

/-- A classification begins (R426 to R429). -/
def State.classify (s : State) (core kind ctx checker : Nat) (lane : Bool) : State :=
  match s.jobOf core with
  | none => s
  | some j => { s with integ := { s.integ with
      classings := s.integ.classings ++ [⟨core, kind, ctx, checker, j, lane⟩] } }

/-- An instruction of a context met an uncorrectable word: the context stops, the word is tested, its data are LOST
(R46, R429, R430). -/
def State.spadUncorrectable (s : State) (c k : Nat) : State :=
  let s1 := (s.record .spadUncorrectable (.core c) []).modCore c (fun x => x.haltCtx k)
  (s1.classify c cpSpad k 0xFFFF false).lostCore c true

end Sys2Proof.Machine
end

