-- ==== Sys2Proof/Machine/Issue.lean ====
section
/-! DEFINITION. How a context takes its head: the conditions to issue, illegal words, state errors, and the move to the next
instruction (spec/06 R175 to R187, R208 to R210). -/

namespace Sys2Proof.Machine

/-- The units of an ISSUE record (R581). -/
def uScalar : Nat := 0
def uMatrix : Nat := 1
def uVector : Nat := 2
def uStream : Nat := 3
def uSem : Nat := 4

end Sys2Proof.Machine

namespace Sys2Proof

/-- The core and the context of an issuer. -/
def Hart.c (h : Hart) : Nat := h.core.toNat
def Hart.k (h : Hart) : Nat := h.ctx.toNat

end Sys2Proof

namespace Sys2Proof.Machine

/-- A context enters FAULTED and its job context fails (R208, R210). -/
def State.faultCtx (s : State) (c k : Nat) : State :=
  (s.modCtx c k (fun x => { x with st := .faulted, wait := .none })).failJobOf c

/-- An illegal word (R208). -/
def State.illegal (s : State) (h : Hart) (w : Word64) : State :=
  let c := h.core.toNat
  let k := h.ctx.toNat
  let x := s.ctx c k
  (s.record .programIllegal (.core c) [(2, c), (1, k), (4, x.pc), (8, w.toNat)]).faultCtx c k

/-- A state error (R209): nothing but the fault happens. -/
def State.stateError (s : State) (h : Hart) (matrix : Bool) (cause : Nat) : State :=
  let c := h.core.toNat
  let k := h.ctx.toNat
  let x := s.ctx c k
  let s1 := if matrix then s.record .matrixStateError (.core c) [(1, k), (4, x.pc), (1, cause)]
    else s.record .programStateError (.core c) [(2, c), (1, k), (4, x.pc), (1, cause)]
  s1.faultCtx c k

/-- A program counter in the context's code range (R183, R186). -/
def Ctx.inCode (x : Ctx) (pc : Nat) : Bool := decide (x.codeBase ≤ pc ∧ pc + 8 ≤ x.codeBase + x.codeLen)

/-- The context issues: RUNNING, and its head waits for nothing (R173, R175). -/
def Ctx.issues (x : Ctx) : Bool := x.st = .running && x.wait = .none

/-- The unit that takes a word, by its class and, in the check class, its OP (R175, R181). -/
def unitOf (w : Word64) : Nat :=
  match w.toNat / 2 ^ 60 with
  | 2 => uMatrix
  | 3 => uVector
  | 4 => uStream
  | 5 => uSem
  | 6 => if w.toNat / 2 ^ 54 % 64 = 0x10 then uVector else uScalar
  | _ => uScalar

/-- A unit may take a context's head now: it has not granted the head of another context that still issues (R178). -/
def Core.mayTake (c : Core) (u k : Nat) : Bool :=
  match Tab.get 0 c.turn u with
  | 0 => true
  | g + 1 => g = k || !(c.ctx g).issues

/-- One head: a context that does not issue, or whose unit takes another head first, does nothing; a PC outside the code range and an
illegal word fault.
DESIGN CHOICE: the word comes with the command (assumption log 9). -/
def State.onHead (s : State) (h : Hart) (w : Word64) (legal matrix : Bool) (f : State → Ctx → State) : State :=
  let x := s.ctx h.core.toNat h.ctx.toNat
  if !x.issues || !(s.core h.core.toNat).mayTake (unitOf w) h.ctx.toNat then s
  else if !x.inCode x.pc then s.stateError h matrix cePcRange
  else if !legal then s.illegal h w
  else f s x

/-- A shared unit has taken a context's head: it is the last one it took, and its refusals end (R178). -/
def Core.tookHead (c : Core) (u k : Nat) : Core :=
  if u = uScalar then c
  else { c.setCtx k { c.ctx k with refused := Tab.set 0 (c.ctx k).refused u 0 } with
    lastTaken := Tab.set 0 c.lastTaken u k
    turn := Tab.set 0 c.turn u 0 }

/-- The head has been taken: an ISSUE record, and the context goes on at the next word (R175, R581). -/
def State.taken (s : State) (h : Hart) (unit : Nat) (w : Word64) (f : Ctx → Ctx) : State :=
  let c := h.core.toNat
  let k := h.ctx.toNat
  ((s.trace 1 (.core c) k (unit * 2 ^ 55 + (s.ctx c k).pc * 2 ^ 32 + w.toNat / 2 ^ 32)).modCtx c k
    (fun x => { f x with pc := x.pc + 8 })).modCore c (fun y => y.tookHead unit k)

/-- The head has been taken and the context goes on at a target (R185, R186). -/
def State.takenTo (s : State) (h : Hart) (w : Word64) (target : Nat) (f : Ctx → Ctx) : State :=
  let c := h.core.toNat
  let k := h.ctx.toNat
  (s.trace 1 (.core c) k ((s.ctx c k).pc * 2 ^ 32 + w.toNat / 2 ^ 32)).modCtx c k
    (fun x => { f x with pc := target })

end Sys2Proof.Machine
end

