-- ==== Sys2Proof/Machine/Control.lean ====
section
/-! DEFINITION. The control class: scalar arithmetic, loads and stores, branches, FENCE and special registers
(spec/06 R184 to R188, R208). -/

namespace Sys2Proof.Machine

/-- A scalar result from two registers. -/
def State.scalarR (s : State) (h : Hart) (w : Word64) (sd sa sb : Reg) (f : Word64 → Word64 → Word64) : State :=
  s.onHead h w true false (fun t x =>
    t.taken h uScalar w (fun y => y.setReg sd.toNat (f (x.reg sa.toNat) (x.reg sb.toNat))))

/-- A scalar result from a register and an immediate. -/
def State.scalarI (s : State) (h : Hart) (w : Word64) (legal : Bool) (sd sa : Reg) (f : Word64 → Word64) : State :=
  s.onHead h w legal false (fun t x =>
    t.taken h uScalar w (fun y => y.setReg sd.toNat (f (x.reg sa.toNat))))

def boolWord (b : Bool) : Word64 := if b then 1 else 0

/-- The shift amount SB[5:0]. -/
def shiftOf (b : Word64) : Nat := b.toNat % 64

def sextImm (imm : BitVec 32) : Word64 := imm.signExtend 64
def zextImm (imm : BitVec 32) : Word64 := imm.setWidth 64

def execNop (h : Hart) (s : State) : Host.Outcome State Fault Refusal :=
  .next (s.onHead h (wordR 0x00 0 0 0) true false (fun t _ => t.taken h uScalar (wordR 0x00 0 0 0) id))

def execHalt (h : Hart) (s : State) : Host.Outcome State Fault Refusal :=
  .next (s.onHead h (wordR 0x01 0 0 0) true false (fun t _ =>
    t.taken h uScalar (wordR 0x01 0 0 0) (fun y => { y with st := .idle })))

/-- Matrix work of a context that FENCE waits for (R187): an instruction in the next place, a tile on its way to its verdict, a
transfer of a spill buffer, a chain step to come, a tile whose flits are not all injected. -/
def Core.matrixBusy (c : Core) (k : Nat) : Bool :=
  c.drain.any (fun d => d.tile.owner = k) || c.atC.any (fun d => d.tile.owner = k) || c.matNext.any (fun m => m.ctx = k) ||
  c.xfers.any (fun x => x.ctx = k && x.work ≠ .block) ||
  c.tq.any (fun p => (p.2.owner = k) && (p.2.chain.isSome || p.2.st = .sending))

/-- Stream work of a context that FENCE waits for (R187, R227). -/
def Core.streamBusy (c : Core) (k : Nat) : Bool :=
  (match c.fetch with
   | some f => decide (f.ctx = k)
   | none => false) ||
  c.streams.any (fun p => p.2.stopping.contains k && !p.2.reqs.isEmpty)

/-- A SEMSIGR of a core stands before the mesh. DEDUCED: one of another context counts too (assumption log 9). -/
def State.signalWaits (s : State) (c : Nat) : Bool :=
  s.net.waiting.any (fun x => x.at_ = c && x.link = 5 && decide (x.flit.op.toNat = opSeminc))

/-- Whether a FENCE of a mask is satisfied (R187). -/
def State.fenceOk (s : State) (c k mask : Nat) : Bool :=
  !(decide (mask % 2 = 1) && (s.core c).matrixBusy k) && !(decide (mask / 4 % 2 = 1) && (s.core c).streamBusy k) &&
  !(decide (mask / 8 % 2 = 1) && s.signalWaits c)

def execFence (h : Hart) (imm : BitVec 32) (s : State) : Host.Outcome State Fault Refusal :=
  let w := wordI 0x02 0 0 imm
  .next (s.onHead h w (decide (imm.toNat < 16)) false (fun t _ =>
    if t.fenceOk h.core.toNat h.ctx.toNat imm.toNat then t.taken h uScalar w id else t))

def execSetrank (h : Hart) (imm : BitVec 32) (s : State) : Host.Outcome State Fault Refusal :=
  let w := wordI 0x03 0 0 imm
  .next (s.onHead h w (decide (imm.toNat < 4)) false (fun t _ =>
    t.taken h uScalar w (fun y => { y with rank := imm.toNat })))

/-! ### Special registers (R188) -/

/-- CYCLE: cycles of the half's clock since the core's site was reset. -/
def State.cycleOf (s : State) (c : Nat) : Nat := (s.half (halfOf c)).cycles / 10 - (s.core c).cycleBase

def State.regionOfCore (s : State) (c : Nat) : Option (Nat × Rect × Nat) :=
  match s.jobOf c with
  | some j => (s.job j).regionAt c
  | none => none

/-- The value of a special register. -/
def State.special (s : State) (c k n : Nat) : Nat :=
  match n with
  | 0 => c
  | 1 => coreRow c * 256 + coreCol c
  | 2 => k
  | 3 => ((s.regionOfCore c).map (·.1)).getD 0
  | 4 => ((s.regionOfCore c).map (fun q => (coreRow c - q.2.1.row0) * 256 + (coreCol c - q.2.1.col0))).getD 0
  | 5 => (s.jobOf c).getD 0
  | 6 => s.stepOf c
  | 7 => ((s.jobOf c).bind (fun j => (s.job j).layout.map (·.phase))).getD 0
  | _ => s.cycleOf c

def execMfs (h : Hart) (sd : Reg) (imm : BitVec 32) (s : State) : Host.Outcome State Fault Refusal :=
  let w := wordI 0x04 sd 0 imm
  .next (s.onHead h w (legalMfs imm) false (fun t _ =>
    t.taken h uScalar w (fun y => y.setReg sd.toNat
      (BitVec.ofNat 64 (t.special h.core.toNat h.ctx.toNat imm.toNat)))))

/-! ### Arithmetic (R185) -/

def execAdd (h : Hart) (sd sa sb : Reg) (s : State) : Host.Outcome State Fault Refusal :=
  .next (s.scalarR h (wordR 0x08 sd sa sb) sd sa sb (fun a b => a + b))

def execSub (h : Hart) (sd sa sb : Reg) (s : State) : Host.Outcome State Fault Refusal :=
  .next (s.scalarR h (wordR 0x09 sd sa sb) sd sa sb (fun a b => a - b))

def execAnd (h : Hart) (sd sa sb : Reg) (s : State) : Host.Outcome State Fault Refusal :=
  .next (s.scalarR h (wordR 0x0A sd sa sb) sd sa sb (fun a b => a &&& b))

def execOr (h : Hart) (sd sa sb : Reg) (s : State) : Host.Outcome State Fault Refusal :=
  .next (s.scalarR h (wordR 0x0B sd sa sb) sd sa sb (fun a b => a ||| b))

def execXor (h : Hart) (sd sa sb : Reg) (s : State) : Host.Outcome State Fault Refusal :=
  .next (s.scalarR h (wordR 0x0C sd sa sb) sd sa sb (fun a b => a ^^^ b))

def execSll (h : Hart) (sd sa sb : Reg) (s : State) : Host.Outcome State Fault Refusal :=
  .next (s.scalarR h (wordR 0x0D sd sa sb) sd sa sb (fun a b => a <<< shiftOf b))

def execSrl (h : Hart) (sd sa sb : Reg) (s : State) : Host.Outcome State Fault Refusal :=
  .next (s.scalarR h (wordR 0x0E sd sa sb) sd sa sb (fun a b => a >>> shiftOf b))

def execSra (h : Hart) (sd sa sb : Reg) (s : State) : Host.Outcome State Fault Refusal :=
  .next (s.scalarR h (wordR 0x0F sd sa sb) sd sa sb (fun a b => a.sshiftRight (shiftOf b)))

def execMul (h : Hart) (sd sa sb : Reg) (s : State) : Host.Outcome State Fault Refusal :=
  .next (s.scalarR h (wordR 0x10 sd sa sb) sd sa sb (fun a b => a * b))

def execSlt (h : Hart) (sd sa sb : Reg) (s : State) : Host.Outcome State Fault Refusal :=
  .next (s.scalarR h (wordR 0x11 sd sa sb) sd sa sb (fun a b => boolWord (a.slt b)))

def execSltu (h : Hart) (sd sa sb : Reg) (s : State) : Host.Outcome State Fault Refusal :=
  .next (s.scalarR h (wordR 0x12 sd sa sb) sd sa sb (fun a b => boolWord (a.ult b)))

def execAddi (h : Hart) (sd sa : Reg) (imm : BitVec 32) (s : State) : Host.Outcome State Fault Refusal :=
  .next (s.scalarI h (wordI 0x18 sd sa imm) true sd sa (fun a => a + sextImm imm))

def execAndi (h : Hart) (sd sa : Reg) (imm : BitVec 32) (s : State) : Host.Outcome State Fault Refusal :=
  .next (s.scalarI h (wordI 0x19 sd sa imm) true sd sa (fun a => a &&& zextImm imm))

def execOri (h : Hart) (sd sa : Reg) (imm : BitVec 32) (s : State) : Host.Outcome State Fault Refusal :=
  .next (s.scalarI h (wordI 0x1A sd sa imm) true sd sa (fun a => a ||| zextImm imm))

def execXori (h : Hart) (sd sa : Reg) (imm : BitVec 32) (s : State) : Host.Outcome State Fault Refusal :=
  .next (s.scalarI h (wordI 0x1B sd sa imm) true sd sa (fun a => a ^^^ zextImm imm))

def execSlli (h : Hart) (sd sa : Reg) (imm : BitVec 32) (s : State) : Host.Outcome State Fault Refusal :=
  .next (s.scalarI h (wordI 0x1C sd sa imm) (legalShift imm) sd sa (fun a => a <<< imm.toNat))

def execSrli (h : Hart) (sd sa : Reg) (imm : BitVec 32) (s : State) : Host.Outcome State Fault Refusal :=
  .next (s.scalarI h (wordI 0x1D sd sa imm) (legalShift imm) sd sa (fun a => a >>> imm.toNat))

def execSrai (h : Hart) (sd sa : Reg) (imm : BitVec 32) (s : State) : Host.Outcome State Fault Refusal :=
  .next (s.scalarI h (wordI 0x1E sd sa imm) (legalShift imm) sd sa (fun a => a.sshiftRight imm.toNat))

def execLih (h : Hart) (sd sa : Reg) (imm : BitVec 32) (s : State) : Host.Outcome State Fault Refusal :=
  .next (s.scalarI h (wordI 0x1F sd sa imm) true sd sa (fun a => (a &&& 0xFFFFFFFF#64) ||| (zextImm imm <<< 32)))

/-! ### Own-window loads and stores (R185, R186) -/

/-- The own-window offset of SLD and SST, as a 64-bit value. -/
def ownOffset (a : Word64) (imm : BitVec 32) : Nat := (a + sextImm imm).toNat

def ownOk (off : Nat) : Bool := decide (off % 8 = 0) && inSpad off 8

/-- An own-window address that no bank holds (R23, R186): a state error, recorded as unmapped too where it is aligned. -/
def State.ownFault (s : State) (h : Hart) (off : Nat) (write : Bool) : State :=
  if off % 8 = 0 then
    (s.unmapped (.core h.core.toNat) (windowAddr h.core.toNat (off % 2 ^ 23)) write).stateError h false ceAddress
  else s.stateError h false ceAddress

def execSld (h : Hart) (sd sa : Reg) (imm : BitVec 32) (s : State) : Host.Outcome State Fault Refusal :=
  let w := wordI 0x20 sd sa imm
  .next (s.onHead h w true false (fun t x =>
    let off := ownOffset (x.reg sa.toNat) imm
    if !ownOk off then t.ownFault h off false
    else
      match t.spadRead h.core.toNat off 8 with
      | (t1, some bs) => t1.taken h uScalar w (fun y => y.setReg sd.toNat (BitVec.ofNat 64 (leNat bs)))
      | (t1, none) => t1.spadUncorrectable h.core.toNat h.ctx.toNat))

def execSst (h : Hart) (sa sb : Reg) (imm : BitVec 32) (s : State) : Host.Outcome State Fault Refusal :=
  let w := wordR 0x21 0 sa sb ||| imm.setWidth 64
  .next (s.onHead h w true false (fun t x =>
    let off := ownOffset (x.reg sa.toNat) imm
    if !ownOk off then t.ownFault h off true
    else if !t.mergeOk h.core.toNat off 8 then t.spadUncorrectable h.core.toNat h.ctx.toNat
    else (t.spadStore h.core.toNat off (leBytes 8 (x.reg sb.toNat).toNat)).taken h uScalar w id))

/-! ### Branches (R185, R186) -/

/-- PC + 8 * OFFSET, as the 64-bit sum. -/
def branchTarget (pc : Nat) (off : BitVec 32) : Nat := (BitVec.ofNat 64 pc + (off.signExtend 64) <<< 3).toNat

/-- A taken branch, or the next word; a target outside the code range is a state error (R186). -/
def State.branch (s : State) (h : Hart) (w : Word64) (sa sb : Reg) (off : BitVec 32) (p : Word64 → Word64 → Bool) : State :=
  s.onHead h w true false (fun t x =>
    if p (x.reg sa.toNat) (x.reg sb.toNat) then
      let target := branchTarget x.pc off
      if x.inCode target then t.takenTo h w target id else t.stateError h false cePcRange
    else t.taken h uScalar w id)

def execBeq (h : Hart) (sa sb : Reg) (offset : BitVec 32) (s : State) : Host.Outcome State Fault Refusal :=
  .next (s.branch h (wordB 0x28 0 sa sb offset) sa sb offset (fun a b => a == b))

def execBne (h : Hart) (sa sb : Reg) (offset : BitVec 32) (s : State) : Host.Outcome State Fault Refusal :=
  .next (s.branch h (wordB 0x29 0 sa sb offset) sa sb offset (fun a b => a != b))

def execBlt (h : Hart) (sa sb : Reg) (offset : BitVec 32) (s : State) : Host.Outcome State Fault Refusal :=
  .next (s.branch h (wordB 0x2A 0 sa sb offset) sa sb offset (fun a b => a.slt b))

def execBge (h : Hart) (sa sb : Reg) (offset : BitVec 32) (s : State) : Host.Outcome State Fault Refusal :=
  .next (s.branch h (wordB 0x2B 0 sa sb offset) sa sb offset (fun a b => !(a.slt b)))

def execBltu (h : Hart) (sa sb : Reg) (offset : BitVec 32) (s : State) : Host.Outcome State Fault Refusal :=
  .next (s.branch h (wordB 0x2C 0 sa sb offset) sa sb offset (fun a b => a.ult b))

def execBgeu (h : Hart) (sa sb : Reg) (offset : BitVec 32) (s : State) : Host.Outcome State Fault Refusal :=
  .next (s.branch h (wordB 0x2D 0 sa sb offset) sa sb offset (fun a b => !(a.ult b)))

def execJal (h : Hart) (sd : Reg) (offset : BitVec 32) (s : State) : Host.Outcome State Fault Refusal :=
  let w := wordB 0x2E sd 0 0 offset
  .next (s.onHead h w true false (fun t x =>
    let target := branchTarget x.pc offset
    if x.inCode target then
      t.takenTo h w target (fun y => y.setReg sd.toNat (BitVec.ofNat 64 (x.pc + 8)))
    else t.stateError h false cePcRange))

def execJr (h : Hart) (sa : Reg) (s : State) : Host.Outcome State Fault Refusal :=
  let w := wordB 0x2F 0 sa 0 0
  .next (s.onHead h w true false (fun t x =>
    let target := (x.reg sa.toNat).toNat
    if target % 8 = 0 && x.inCode target then t.takenTo h w target id else t.stateError h false cePcRange))

/-- A word that R182 calls illegal; any other word is another command. -/
def execProgramIllegal (h : Hart) (word : Word64) (s : State) : Host.Outcome State Fault Refusal :=
  .next (s.onHead h word (legalWord word) false (fun t _ => t))

end Sys2Proof.Machine
end

