-- ==== Sys2Proof/Machine/NormMath.lean ====
section
/-! DEFINITION. The arithmetic of the fused norm and of the decision (spec/11 R352 to R355). -/

namespace Sys2Proof.Machine

/-- The square of a finite BF16 or FP32 value as a multiple of 2^-320 (R352); none where it is not finite. -/
def squareAt (v : FV) : Option Nat :=
  match v with
  | .fin d => some (d.m * d.m * 2 ^ (2 * d.e + 320).toNat)
  | _ => none

/-- Elements of a data chunk: BF16, or FP32 in a Strict bucket. -/
def chunkElems (strict : Bool) (bs : List Byte) : List FV :=
  if strict then (List.range (bs.length / 4)).map (fun i => decodeWide fmtFP32 (fieldAt bs (4 * i) 4))
  else (List.range (bs.length / 2)).map (fun i => decodeWide fmtBF16 (fieldAt bs (2 * i) 2))

/-- The exact sum of squares of a chunk and its count of non-finite elements (R352). -/
def chunkSquares (strict : Bool) (bs : List Byte) : Nat × Nat :=
  (chunkElems strict bs).foldl (fun a v => match squareAt v with
    | some q => (a.1 + q, a.2)
    | none => (a.1, a.2 + 1)) (0, 0)

/-- q_b = RNE64(A_b / N_b^2) as a multiple of 2^-1074 (R352). -/
def qOf (acc n : Nat) : Nat :=
  if n = 0 then 0
  else
    let d := decodeMag fmtFP64 false (roundMag fmtFP64 none acc (n * n) (-320))
    d.m * 2 ^ (d.e + 1074).toNat

/-- The module's sum of squares: RNE32 of M, saturating at the largest finite value (R353). -/
def sumOfSquares (m : Nat) : Nat := min (roundMag fmtFP32 none m 1 (-1074)) fmtFP32.maxCode

/-- The correctly rounded square root of a magnitude m * 2^e. -/
def sqrtMag (f : Fmt) (m : Nat) (e : Int) : Nat :=
  let odd : Nat := (e % 2).toNat
  let n := m * 2 ^ (odd + 128)
  let r := Nat.sqrt n
  let sticky := if r * r = n then 0 else 1
  roundMag f none (2 * r + sticky) 1 ((e - odd - 128) / 2 - 1)

/-- NORM (R355). A SUMSQ that is no finite non-negative number gives what IEEE 754 gives. -/
def normOf (sumsq : Nat) : Nat :=
  match decodeWide fmtFP32 sumsq with
  | .fin d => if d.m = 0 then 0 else if d.neg then fmtFP32.nan else sqrtMag fmtFP32 d.m d.e
  | .inf false => fmtFP32.inf false
  | _ => fmtFP32.nan

/-- RNE32 of a / b for non-negative finite FP32 codes, b not zero. -/
def divCode (a b : Nat) : Nat :=
  let x := decodeMag fmtFP32 false a
  let y := decodeMag fmtFP32 false b
  min (roundMag fmtFP32 none x.m y.m (x.e - y.e)) (fmtFP32.maxCode + 1)

/-- CLIP (R355). -/
def clipOf (noclip : Bool) (tau norm : Nat) : Nat :=
  if noclip then 0x3F800000
  else
    match decodeWide fmtFP32 norm with
    | .fin _ => if norm ≤ tau then 0x3F800000 else divCode tau norm
    | .inf _ => 0
    | .nan => fmtFP32.nan

/-- The update scale K of a bucket (R355). -/
def scaleOf (clip n : Nat) : Nat :=
  if n = 0 then 0
  else
    match decodeWide fmtFP32 clip with
    | .fin d => roundMag fmtFP32 none d.m n d.e
    | _ => clip

/-- Where the bucket table's entry i stands (R347). -/
def StepRun.entryAddr (r : StepRun) (i : Nat) : Nat := r.btab + 32 * i

/-- The place of an owned bucket in the table: ascending bucket index (R347). -/
def StepRun.entryIndex (r : StepRun) (b : Nat) : Nat := (r.owned.filter (fun o => o.bucket < b)).length

/-- Write K into every owned bucket's entry (R355). -/
def State.writeScales (s : State) (r : StepRun) : State :=
  r.owned.foldl (fun a o =>
    a.store (r.entryAddr (r.entryIndex o.bucket) + 4)
      (leBytes 4 (scaleOf r.clip ((o.summary.map (·.ntok)).getD 0)))) s

/-- The decision, NORM and CLIP from the norm bucket's summary (R354, R355). -/
def StepRun.decided (r : StepRun) (n : NormIn) : StepRun :=
  let norm := normOf n.sumsq
  { r with
    st := .normKnown
    commit := decide (n.nonfin = 0) && n.missed.isEmpty
    reason := if n.nonfin ≠ 0 then 1 else if n.missed.isEmpty then 0 else 2
    sumsq := n.sumsq
    norm := norm
    clip := clipOf r.noclip r.tau norm
    nonfin := n.nonfin
    gtokens := n.gtokens }

/-- The step enters NORM_KNOWN; on COMMIT the K values are written and DECISION is delivered (R350, R356, R358). -/
def State.takeDecision (s : State) (j : Nat) (r : StepRun) (n : NormIn) : State :=
  let q := r.decided n
  let s1 := s.setStep j q
  if q.commit then
    (s1.writeScales q).deliverRecord j (q.noff + 64) q.dsem (stepRecord 2 1 j (s.job j).version q)
  else s1

/-- Take the decision of a step that is in BACKWARD_DONE and whose norm summary has landed (R350). -/
def State.tryDecision (s : State) (j n : Nat) : State :=
  match (s.job j).step n with
  | none => s
  | some r =>
    match r.st, r.normIn with
    | .backwardDone, some x => s.takeDecision j r x
    | _, _ => s

end Sys2Proof.Machine
end

