-- ==== Sys2Proof/Machine/FabricRecv.lean ====
section
/-! DEFINITION. Arriving frames: their checks, the transport's acceptance and order, and what each message does at its
consumer (spec/12 R377, R382 to R390, R394, R396, R404, R405, R407 to R410, spec/14 R452, R453). -/

namespace Sys2Proof.Machine

/-! ### Snapshots as the fabric sees them (R449, R451) -/

def partnerObj (m : Nat) : Nat := 0x80000000 + m
def storeObj (m : Nat) : Nat := 0xC0000000 + m

/-- The bytes a snapshot's header says the whole snapshot has: header, list, manifest, data (R449). -/
def snapTotal (h : List Byte) : Nat := 128 + 16 * fieldAt h 27 1 + fieldAt h 40 4 + fieldAt h 32 8

/-- The digest of a whole snapshot verifies (R449). -/
def snapDigestOk (bs : List Byte) : Bool := sha48 (bs.drop 128) = (bs.drop 48).take 48

/-! ### Frames (R377, R382, R387) -/

/-- One message as it stands in a frame, with its transport header. -/
structure RxMsg where
  group : Nat
  member : Nat
  server : Nat
  site : Nat
  ack : Nat
  credit : Nat
  m : Msg
  corrected : Nat
  /-- Every zero field of the message header is zero. -/
  clean : Bool
  deriving DecidableEq, Repr

/-- The outcomes of the frame checks: a bad FCS, a frame that R377 discards, a message that R382 or R387 discards, a frame lost
for an uncorrectable word. -/
inductive RxCheck where
  | badFcs | discard | refuse | lost | ok (m : RxMsg)
  deriving DecidableEq, Repr

/-- A port's MAC address in transmission order (R376). -/
def State.portMac (s : State) (p : Nat) : List Byte :=
  (List.range 5).map (fun i => BitVec.ofNat 8 (s.regs.macBase / 2 ^ (40 - 8 * i))) ++ [BitVec.ofNat 8 p]

/-- Decode the WC288 words of a payload: data bytes and words corrected; none for an uncorrectable word (R384). -/
def rxWords : List Byte → Nat → Option (List Byte × Nat)
  | _, 0 => some ([], 0)
  | bs, n + 1 =>
    let d := bs.take 32
    let diff := (((bs.drop 32).take 4).zipWith (· ^^^ ·) (wcParity d))
    let e : BitVec 288 := (List.range 4).foldl (fun a i => a ||| symbolAt (diff.getD i 0) (32 + i)) 0
    let r := wcDecode e
    match r.1, rxWords (bs.drop 36) n with
    | .clean, some q => some (d ++ q.1, q.2)
    | .corrected, some q => some (d.zipWith (· ^^^ ·) (dataBytes (r.2 ^^^ e)) ++ q.1, q.2 + 1)
    | _, _ => none

/-- Message types that a server may send (R389). -/
def serverSends (t : Nat) : Bool :=
  [mAck, mHeartbeat, mMembership, mGatherData, mReduced, mPermute, mPartnerPut, mPartnerGet, mApplied].contains t

/-- The checks of R377, R382 and R387 that come before the transport.
PRESUMED: the byte order of the FCS (assumption log 23). -/
def State.checkFrame (s : State) (p : Nat) (bs : List Byte) : RxCheck :=
  let n := bs.length
  let t := bs.drop 14
  let h := bs.drop 38
  let len := fieldAt t 20 2
  let words := (len - 32) / 36
  let g := fieldAt t 3 1
  if n < 4 then .discard
  else if (crc32 (bs.take (n - 4))).toNat ≠ fieldAt bs (n - 4) 4 then .badFcs
  else if n < 64 ∨ 9216 < n then .discard
  else if bs.take 6 ≠ s.portMac p || decide ((bs.getD 12 0).toNat * 256 + (bs.getD 13 0).toNat ≠ s.regs.etherType) then
    .discard
  else if fieldAt t 0 1 ≠ 1 || decide (1 < fieldAt t 2 1) || !zeroAt t 22 2 || !serverSends (fieldAt t 1 1) then .refuse
  else if len < 32 ∨ (len - 32) % 36 ≠ 0 ∨ 128 < words ∨ n ≠ 42 + len then .refuse
  else
    match (if g < 64 then s.group g else none) with
    | none => .refuse
    | some x =>
      if fieldAt t 4 2 ≠ x.member ∨ x.servers.length ≤ fieldAt t 6 1 ∨ fieldAt t 7 1 ≠ p / 4 then .refuse
      else
        match rxWords (bs.drop 70) words with
        | none => .lost
        | some q =>
          .ok {
            group := g
            member := fieldAt t 4 2
            server := fieldAt t 6 1
            site := fieldAt t 7 1
            ack := fieldAt t 12 4
            credit := fieldAt t 16 4
            corrected := q.2
            clean := zeroAt h 3 1 && zeroAt h 31 1 && decide (fieldAt h 28 1 < 32 ∧ fieldAt h 28 1 % 4 ≠ 3 ∧ fieldAt h 29 1 ≤ 4)
            m := {
              seq := fieldAt t 8 4
              typ := fieldAt t 1 1
              tag := fieldAt h 0 4
              obj := fieldAt h 4 4
              offset := fieldAt h 8 8
              count := fieldAt h 16 8
              version := fieldAt h 24 4
              mflags := fieldAt h 28 1
              status := fieldAt h 29 1
              rtype := fieldAt h 30 1
              payload := q.1 } }

/-! ### Rules of each type (R387, R389) -/

def Msg.strict (m : Msg) : Bool := decide (m.mflags / 16 % 2 = 1)
def Msg.summary (m : Msg) : Bool := decide (m.mflags / 8 % 2 = 1)
def Msg.plane (m : Msg) : Nat := m.mflags % 4

/-- Types of the table of messages; the others are reserved (R389). -/
def typeDefined (t : Nat) : Bool :=
  [mAck, mHeartbeat, mMembership, mGatherReq, mGatherData, mContrib, mConfirm, mRetract, mReduced, mShardPut, mPermute,
    mPartnerPut, mPartnerGet, mApplied].contains t

/-- A data payload: at least one word, at most 4,096 bytes. -/
def Msg.hasData (m : Msg) : Bool := decide (0 < m.payload.length ∧ m.payload.length ≤ 4096)

/-- The zero fields of a summary's first word (R404). -/
def Msg.summaryOk (m : Msg) : Bool :=
  zeroAt m.payload 24 8 &&
    (if m.tag % 2 ^ 20 = normBucket then zeroAt m.payload 8 4 else zeroAt m.payload 16 8)

/-- Fields that the type does not use are zero, and the payload is the type's (R387, R389). -/
def Msg.typeOk (m : Msg) : Bool :=
  let z (l : List Nat) : Bool := l.all (· = 0)
  match m.typ with
  | 0x01 => z [m.tag, m.obj, m.offset, m.version, m.mflags, m.status, m.rtype] && decide (m.count ≤ 32) &&
      decide (m.payload.length = ceilDiv (4 * m.count) 32 * 32)
  | 0x02 => z [m.tag, m.obj, m.offset, m.count, m.mflags, m.status, m.rtype, m.payload.length]
  | 0x03 => z [m.tag, m.obj, m.offset, m.mflags, m.status, m.rtype]
  | 0x11 => z [m.rtype] && decide (m.mflags < 4)
  | 0x23 => z [m.obj, m.count, m.version, m.status, m.rtype] && decide (m.mflags = m.mflags / 8 % 4 * 8) &&
      (if m.summary then z [m.offset] && decide (m.payload.length = 160) && m.summaryOk else m.hasData)
  | 0x31 => z [m.tag, m.count, m.version, m.mflags, m.status, m.rtype] && m.hasData && decide (m.offset % 4096 = 0)
  | 0x32 => z [m.mflags, m.status, m.rtype] && m.hasData && decide (m.offset % 4096 = 0)
  | 0x33 => z [m.mflags, m.status, m.rtype, m.payload.length]
  | 0x34 => z [m.count, m.mflags, m.payload.length] && typeDefined m.rtype
  | _ => false

/-! ### Replies -/

/-- APPLIED for a message (R389). -/
def appliedOf (m : Msg) (st : Nat) : Msg :=
  { msg mApplied with tag := m.tag, obj := m.obj, offset := m.offset, version := m.version, status := st, rtype := m.typ }

def State.replyTo (s : State) (site g server : Nat) (m : Msg) (st : Nat) : State := s.sendTo site g server (appliedOf m st)
def State.reply (s : State) (q : RxMsg) (st : Nat) : State := s.replyTo q.site q.group q.server q.m st

/-- The message without its payload, as a transfer keeps it. -/
def Msg.bare (m : Msg) : Msg := { m with payload := [] }

/-- Statuses of messages (R390). -/
def fsOk : Nat := 0
def fsVersionGone : Nat := 1
def fsUnknown : Nat := 2
def fsRefused : Nat := 3
def fsRange : Nat := 4

/-! ### MEMBERSHIP (R394) -/

/-- Job contexts bound to a fabric group. -/
def State.boundJobs (s : State) (g : Nat) : List Nat :=
  (List.range 8).filter (fun j => (s.job j).st ≠ .empty && (s.job j).fgroup = some g)

/-- The members set in a mask of 128 bytes. -/
def maskMembers (bs : List Byte) : List Nat :=
  (List.range 1024).filter (fun m => (bs.getD (m / 8) 0).getLsbD (m % 8))

def State.applyMembership (s : State) (g epoch : Nat) (x : FGroup) (live : List Nat) (rs : List OwnedRange) : State :=
  let lost := x.live.filter (fun m => !live.contains m)
  let s1 : State := { s with fabric := { s.fabric with
    groups := Tab.set none s.fabric.groups g (some { x with epoch := epoch, live := live }) } }
  let s2 := (s1.boundJobs g).foldl (fun a j => a.modJob j (fun y => { y with owned := y.owned ++ rs })) s1
  let s3 := lost.foldl (fun a m => a.record .memberLost .hid [(1, g), (2, m), (4, epoch)]) s2
  s3.record .membershipApplied .hid [(1, g), (4, epoch), (2, rs.length)]

def State.onMembership (s : State) (q : RxMsg) : State :=
  match s.group q.group with
  | none => s
  | some x =>
    if q.m.version ≤ x.epoch then s.reply q fsRefused
    else
      let body := if q.m.count ≤ 256 ∧ q.m.payload.length = 128 + ceilDiv (16 * q.m.count) 32 * 32
        then parseRanges (q.m.payload.drop 128) q.m.count else none
      match body with
      | some rs =>
        if (s.boundJobs q.group).all (fun j => s.rangesOk (s.job j) ((s.job j).owned ++ rs)) then
          (s.applyMembership q.group q.m.version x (maskMembers (q.m.payload.take 128)) rs).reply q fsOk
        else (s.record .membershipRefused .hid [(1, q.group), (4, q.m.version), (1, fsRange)]).reply q fsRange
      | none => (s.record .membershipRefused .hid [(1, q.group), (4, q.m.version), (1, fsRange)]).reply q fsRange

/-! ### GATHER-DATA (R396) -/

/-- The completion status of a GATHER whose data have arrived (R396). -/
def gatherStatus (r : GatherReq) (m : Msg) : Nat :=
  if m.status = fsVersionGone then 4
  else if m.status ≠ fsOk then 1
  else if m.offset ≠ r.offset ∨ m.count ≠ 64 * r.len ∨ m.payload.length ≠ 64 * r.len then 1
  else if r.version ≠ 0xFFFFFFFF ∧ m.version ≠ r.version then 4
  else 0

def State.onGatherData (s : State) (p : Nat) (q : RxMsg) : State :=
  let x := s.ioSite q.site
  match x.gathers.find? (fun r => r.tag = q.m.tag) with
  | none => s.discard p
  | some r =>
    let st := gatherStatus r q.m
    let s1 := s.setIoSite q.site { x with gathers := x.gathers.filter (fun y => y.tag ≠ q.m.tag) }
    let s2 := if q.m.status = fsOk && st = 1 then s1.discard p else s1
    let s3 := if st = 0 then s2.sendAllFromSite q.site (granuleFlits q.site r.core r.doff 0 q.m.payload r.len) else s2
    s3.sendFromSite q.site (completionFlit q.site r.core st r.ctx r.len r.doff r.offset q.m.version)

/-! ### REDUCED (R404, R405) -/

/-- The step that a bucket tag names (R388). -/
def State.stepOfTag (s : State) (tag : Nat) : Option (Nat × StepRun) :=
  let j := tag / 2 ^ 21
  if 8 ≤ j then none
  else ((s.job j).steps.find? (fun r => r.st ≠ .waiting && r.n % 2 = tag / 2 ^ 20 % 2)).map (fun r => (j, r))

def putOwned (x : OwnedBucket) : List OwnedBucket → List OwnedBucket
  | [] => []
  | o :: l => if o.bucket = x.bucket then x :: l else o :: putOwned x l

def StepRun.early (r : StepRun) : Bool := r.st = .open_ || r.st = .backwardDone

/-- The module's own bit in a missed mask: its contribution to the bucket is discarded (R405). -/
def State.missBucket (s : State) (j n bucket : Nat) : State :=
  match (s.job j).step n with
  | none => s
  | some r =>
    let s1 := s.setStep j { r with
      missedSelf := true
      sentBuckets := r.sentBuckets.map (fun (b : SentBucket) => if b.bucket = bucket then { b with missed := true } else b) }
    s1.record .bucketMissed .hid [(1, j), (4, bucketTag j n bucket)]

/-- A data chunk of an owned bucket: its squares are added, and its bytes go to stack memory (R352, R397, R404). -/
def State.reducedData (s : State) (p site j : Nat) (r : StepRun) (o : OwnedBucket) (m : Msg) : State :=
  if m.offset % 4096 ≠ 0 ∨ (s.job j).z < m.offset + m.payload.length then
    (s.discard p).record .reducedDiscarded (.port p) [(1, j), (4, m.tag), (8, m.offset)]
  else
    let q := chunkSquares m.strict m.payload
    let e := (o.gaddr + m.offset, m.payload.length)
    let s1 := s.setStep j { r with
      owned := putOwned { o with strict := m.strict, acc := o.acc + q.1 } r.owned
      siteNonfin := r.siteNonfin + q.2
      placed := r.placed ++ [e] }
    (s1.ioWrite site j [e] m.payload (.reduced j r.n o.bucket)).getD s1

/-- A summary: held until its chunks have landed; the norm bucket's goes to the HID (R404, R353). -/
def State.reducedSummary (s : State) (p j : Nat) (r : StepRun) (q : RxMsg) : State :=
  let m := q.m
  let bucket := m.tag % 2 ^ 20
  let missed := maskMembers ((m.payload.drop 32).take 128)
  let mine := missed.contains q.member
  let word (o n : Nat) : Nat := fieldAt m.payload o n
  let s1 : State :=
    if bucket = normBucket then
      s.setStep j { r with normIn := some ⟨word 16 4, word 20 4, word 0 8, missed⟩, missedSelf := r.missedSelf || mine }
    else
      match r.owned.find? (fun o => o.bucket = bucket) with
      | some o => s.setStep j { r with owned := putOwned { o with summary := some ⟨word 0 8, word 8 4, word 12 4⟩ } r.owned }
      | none => if mine then s else s.discard p
  let s2 := if mine && bucket ≠ normBucket then s1.missBucket j r.n bucket
    else if mine then s1.record .bucketMissed .hid [(1, j), (4, m.tag)] else s1
  if bucket = normBucket then s2.tryDecision j r.n else s2

def State.onReduced (s : State) (p : Nat) (q : RxMsg) : State :=
  match s.stepOfTag q.m.tag with
  | none => s.discard p
  | some (j, r) =>
    if (s.job j).fgroup ≠ some q.group || !r.early then s.discard p
    else if q.m.summary then s.reducedSummary p j r q
    else
      match r.owned.find? (fun o => o.bucket = q.m.tag % 2 ^ 20) with
      | none => s.discard p
      | some o => s.reducedData p q.site j r o q.m

/-! ### PERMUTE (R409) -/

/-- The job context of a group whose switch is re-sharding and has a tensor among its IN extents. -/
def State.permuteJob (s : State) (g tensor : Nat) : Option (Nat × List (Nat × Nat)) :=
  ((s.boundJobs g).filterMap (fun j =>
    match (s.job j).switch with
    | none => none
    | some w =>
      match (s.job j).slot w.slot with
      | none => none
      | some x =>
        let e := x.layout.extents false tensor
        if !w.reshard || w.reshardEnd.isSome || e.isEmpty then none else some (j, e))).head?

/-- PERMUTE data go to the IN extents (R397, R409). -/
def State.onPermute (s : State) (q : RxMsg) : State :=
  match s.permuteJob q.group q.m.obj with
  | none => s.reply q fsRange
  | some (j, e) =>
    let n := min q.m.payload.length (seqLength e - q.m.offset)
    if seqLength e ≤ q.m.offset then s.reply q fsRange
    else
      match seqPieces e q.m.offset n with
      | none => s.reply q fsRange
      | some ps => (s.ioWrite q.site j ps q.m.payload (.permuteIn q.group q.server j q.m.bare)).getD (s.reply q fsRange)

/-- The bytes of a sequence from one offset to another have been written. -/
def cutRange (tensor lo hi : Nat) : List (Nat × Nat × Nat) → List (Nat × Nat × Nat)
  | [] => []
  | (t, a, b) :: r =>
    if t ≠ tensor || hi ≤ a || b ≤ lo then (t, a, b) :: cutRange tensor lo hi r
    else (if a < lo then [(t, a, lo)] else []) ++ (if hi < b then [(t, hi, b)] else []) ++ cutRange tensor lo hi r

/-- A PERMUTE's bytes are in stack memory: its APPLIED, and the re-shard goes on (R338, R409). -/
def State.permuteWritten (s : State) (site g server j : Nat) (m : Msg) (n : Nat) : State :=
  let s1 := (s.modJob j (fun y => { y with switch := y.switch.map (fun w => { w with
    inLeft := cutRange m.obj m.offset (m.offset + n) w.inLeft }) })).replyTo site g server m fsOk
  s1.reshardProgress j

/-! ### PARTNER-PUT and PARTNER-GET (R410, R451 to R453) -/

/-- The job context that a group's partner messages concern: the lowest bound to the group.
DESIGN CHOICE (assumption log 27). -/
def State.groupJob (s : State) (g : Nat) : Option Nat := (s.boundJobs g).head?

def Job.partnerRegion (j : Job) : Option MemRegion := j.regions.find? (fun r => r.kind = rkPartner)

/-- Bytes received of a partner copy, each offset once. -/
def PartnerCopy.have (c : PartnerCopy) : Nat := (c.got.map (fun x => x.2)).foldl (· + ·) 0

/-- The flash partner slot that holds the oldest generation, or an empty one (R452). -/
def State.oldestSlot (s : State) (j : Nat) : Nat :=
  let gen (k : Nat) : Nat := match Tab.get none s.recov.slots (3 * j + k) with
    | some x => x.generation + 1
    | none => 0
  if gen 0 ≤ gen 1 ∧ gen 0 ≤ gen 2 then 0 else if gen 1 ≤ gen 2 then 1 else 2

/-- The bytes of one message are in the partner copy; when it is complete and verified, the HID starts its copy to flash
(R452). A message of a generation that another has displaced adds nothing. -/
def State.partnerLand (s : State) (j base : Nat) (m : Msg) (n : Nat) : State :=
  match Tab.get none s.recov.partner j with
  | none => s
  | some c =>
    if c.generation ≠ m.version || c.owner ≠ m.count then s
    else
      let c1 := { c with got := if c.got.any (fun x => x.1 = m.offset) then c.got else c.got ++ [(m.offset, n)] }
      let total := snapTotal (s.bytes base 128)
      let done := c1.got.any (fun x => x.1 = 0) && decide (total ≤ c1.have) && snapDigestOk (s.bytes base total)
      let c2 := { c1 with complete := c1.complete || done }
      { s with recov := { s.recov with
        partner := Tab.set none s.recov.partner j (some c2)
        copying := if done && !c1.complete then Tab.set none s.recov.copying j (some (s.oldestSlot j)) else s.recov.copying } }

/-- The first byte of a new generation starts a new copy; a flash copy still running is abandoned and its slot becomes
empty (R452). -/
def State.partnerStart (s : State) (j : Nat) : State :=
  match Tab.get none s.recov.copying j with
  | none => s
  | some k => { s with recov := { s.recov with
      copying := Tab.set none s.recov.copying j none
      slots := Tab.set none s.recov.slots (3 * j + k) none } }

def State.onPartnerCopy (s : State) (q : RxMsg) (j : Nat) : State :=
  match (s.job j).partnerRegion with
  | none => s.reply q fsRefused
  | some r =>
    if r.granules * 4096 < q.m.offset + q.m.payload.length ||
      (q.m.offset = 0 && decide (r.granules * 4096 < snapTotal q.m.payload)) then s.reply q fsRange
    else
      let old := Tab.get none s.recov.partner j
      let same := match old with
        | some c => c.generation = q.m.version && c.owner = q.m.count
        | none => false
      let s1 := if same then s else
        let t := s.partnerStart j
        let c : PartnerCopy := { owner := q.m.count, generation := q.m.version }
        { t with recov := { t.recov with partner := Tab.set none t.recov.partner j (some c) } }
      (s1.ioWrite q.site j [(r.base + q.m.offset, q.m.payload.length)] q.m.payload
        (.partnerCopy q.group q.server j q.m.bare)).getD (s1.reply q fsRefused)

/-- A piece of a snapshot that a restore has asked for (R456). -/
def State.restorePiece (s : State) (q : RxMsg) (j : Nat) (r : RestoreRun) : State :=
  let r1 := { r with got := if r.got.any (fun x => x.1 = q.m.offset) then r.got else r.got ++ [(q.m.offset, q.m.payload)] }
  let s1 := (s.modJob j (fun y => { y with restore := some r1 })).reply q fsOk
  if q.m.offset = 0 && !(r.got.any (fun x => x.1 = 0)) then
    let total := snapTotal q.m.payload
    if total ≤ 4096 then s1
    else s1.sendMsg s1.firstUpSite q.group (objKey q.m.obj 4096)
      { msg mPartnerGet with tag := q.m.tag, obj := q.m.obj, offset := 4096, count := total - 4096, version := q.m.version }
  else s1

def State.onPartnerPut (s : State) (q : RxMsg) : State :=
  match s.groupJob q.group with
  | none => s.reply q fsRefused
  | some j =>
    let x := s.job j
    match q.m.obj / 2 ^ 30 with
    | 0 =>
      match x.regions[q.m.obj]? with
      | none => s.reply q fsRefused
      | some r =>
        if r.kind = rkPartner || (r.kind = rkOwned && x.st = .restoring) then
          if r.granules * 4096 < q.m.offset + q.m.payload.length then s.reply q fsRange
          else (s.ioWrite q.site j [(r.base + q.m.offset, q.m.payload.length)] q.m.payload
            (.partnerPut q.group q.server q.m.bare)).getD (s.reply q fsRefused)
        else s.reply q fsRefused
    | 1 => s.reply q fsRefused
    | k =>
      match x.restore with
      | some r => if q.m.tag ≠ 0 then s.restorePiece q j r
        else if k = 2 then s.onPartnerCopy q j else s.reply q fsRefused
      | none => if k = 2 && q.m.tag = 0 then s.onPartnerCopy q j else s.reply q fsRefused

/-- Where a partner copy of a generation stands: in the PARTNER entry, as address and length, or in a flash slot. -/
inductive CopyAt where
  | stack (addr len : Nat)
  | flash (bytes : List Byte)
  deriving DecidableEq, Repr

def CopyAt.length : CopyAt → Nat
  | .stack _ n => n
  | .flash b => b.length

/-- The partner copy of a generation; 0 names the newest complete one (R453). -/
def State.partnerCopyAt (s : State) (j owner gen : Nat) : Option (Nat × CopyAt) :=
  let here : List (Nat × CopyAt) :=
    match Tab.get none s.recov.partner j, (s.job j).partnerRegion with
    | some c, some r =>
      if c.complete && c.owner = owner then [(c.generation, .stack r.base (snapTotal (s.bytes r.base 128)))] else []
    | _, _ => []
  let slots := (List.range 3).filterMap (fun k => match Tab.get none s.recov.slots (3 * j + k) with
    | some x => if x.owner = owner then some (x.generation, CopyAt.flash x.bytes) else none
    | none => none)
  let all := here ++ slots
  if gen ≠ 0 then all.find? (fun x => x.1 = gen)
  else all.foldl (fun b x => match b with
    | none => some x
    | some y => if y.1 < x.1 then some x else some y) none

/-- Send bytes as PARTNER-PUT messages of at most 4,096 bytes (R451, R453). -/
def State.sendPuts (s : State) (site g : Nat) (m : Msg) (bs : List Byte) (off : Nat) : Nat → State
  | 0 => s
  | n + 1 =>
    if bs.isEmpty then s
    else
      let d := bs.take 4096
      (s.sendMsg site g (objKey m.obj off) { m with typ := mPartnerPut, offset := off, payload := d }).sendPuts site g m
        (bs.drop 4096) (off + 4096) n

/-- The PARTNER-PUT messages that answer a PARTNER-GET (R410, R453). -/
def State.answerGet (s : State) (site g : Nat) (m : Msg) (bs : List Byte) : State :=
  s.sendPuts site g m.bare bs m.offset (ceilDiv bs.length 4096)

/-- A PARTNER-GET is answered from a region of the job manifest, or from a partner copy (R397, R410, R453). -/
def State.onPartnerGet (s : State) (q : RxMsg) : State :=
  let read (j a : Nat) (m : Msg) : State :=
    (s.ioRead q.site j [(a, q.m.count)] (.partnerGet q.group q.server m.bare)).getD (s.reply q fsUnknown)
  match s.groupJob q.group with
  | none => s.reply q fsUnknown
  | some j =>
    match q.m.obj / 2 ^ 30 with
    | 0 =>
      match (s.job j).regions[q.m.obj]? with
      | none => s.reply q fsUnknown
      | some r =>
        if r.granules * 4096 < q.m.offset + q.m.count || q.m.count = 0 then s.reply q fsRange
        else read j (r.base + q.m.offset) { q.m with count := ((s.group q.group).map (·.member)).getD 0 }
    | 2 =>
      match s.partnerCopyAt j (q.m.obj % 1024) q.m.version with
      | none => s.reply q fsUnknown
      | some (gen, c) =>
        let m := { q.m with version := gen, count := q.m.obj % 1024 }
        if c.length < q.m.offset + q.m.count || q.m.count = 0 then s.reply q fsRange
        else
          match c with
          | .stack a _ => read j (a + q.m.offset) m
          | .flash bs => s.answerGet q.site q.group m ((bs.drop q.m.offset).take q.m.count)
    | _ => s.reply q fsUnknown

/-! ### APPLIED (R407 to R409, R451) -/

/-- The result record of a publication (R407). -/
def publishRecord (site st version bucket messages : Nat) : List Byte :=
  leBytes 1 site ++ leBytes 1 st ++ leBytes 2 0 ++ leBytes 4 version ++ leBytes 4 bucket ++ leBytes 4 messages ++
    leBytes 48 0

/-- A publication is acknowledged whole: its record, and with FINAL its report to the HID (R407). -/
def State.publishDone (s : State) (site : Nat) (r : PublishReq) : State :=
  let s1 := s.deliver (.site site) r.core r.doff (publishRecord site 0 r.step r.bucket r.sent) (some r.rsem)
  if !r.final then s1
  else
    match (s1.job r.job).step r.step with
    | none => s1
    | some t => s1.setStep r.job { t with
        owned := t.owned.map (fun o => if o.bucket = r.bucket then { o with published := true } else o) }

def State.onShardApplied (s : State) (q : RxMsg) : State :=
  let x := s.ioSite q.site
  let mine (r : PublishReq) : Bool :=
    r.obj = q.m.obj && r.step = q.m.version && bucketTag r.job r.step r.bucket = q.m.tag && r.left.contains q.m.offset
  match x.publishes.find? mine with
  | none => s
  | some r =>
    if q.m.status ≠ fsOk then s.record .shardPutRefused (.site q.site) [(1, r.job), (4, q.m.tag), (1, q.m.status)]
    else
      let r1 := { r with left := r.left.erase q.m.offset }
      let rest := x.publishes.erase r
      if r1.left.isEmpty then (s.setIoSite q.site { x with publishes := rest }).publishDone q.site r1
      else s.setIoSite q.site { x with publishes := r1 :: rest }

def State.onPermuteApplied (s : State) (q : RxMsg) : State :=
  if q.m.status ≠ fsOk then s
  else
    (s.boundJobs q.group).foldl (fun a j =>
      match (a.job j).switch with
      | none => a
      | some w => (a.modJob j (fun y => { y with switch := some { w with
          outLeft := w.outLeft.filter (fun x => x ≠ (q.m.obj, q.m.offset)) } })).reshardProgress j) s

/-- Snapshot levels by OBJ (R451). -/
def snapLevelOf (obj : Nat) : Nat := if obj / 2 ^ 30 = 2 then 1 else 3

/-- A snapshot ends: its commands complete and it leaves the job context free for the next (R446, R447). -/
def State.snapEnd (s : State) (j : Nat) (r : SnapRun) (st : Nat) : State :=
  let s1 : State := { s with recov := { s.recov with running := Tab.set none s.recov.running j none } }
  r.by_.foldl (fun a b => a.finish b.1 b.2 st 0 0) s1

/-- A snapshot completes (R446, R471). -/
def State.snapDone (s : State) (j : Nat) (r : SnapRun) : State :=
  (s.record .snapshotTaken .hid [(1, j), (1, r.level), (4, r.generation), (4, r.version), (8, s.time - r.started)]).snapEnd
    j r stDone

def State.snapFailed (s : State) (j : Nat) (r : SnapRun) (st : Nat) : State :=
  (s.record .snapshotFailed .hid [(1, j), (1, r.level), (1, st)]).snapEnd j r st

def State.onPartnerApplied (s : State) (q : RxMsg) : State :=
  (s.boundJobs q.group).foldl (fun a j =>
    match Tab.get none a.recov.running j with
    | none => a
    | some r =>
      if r.generation ≠ q.m.version || r.level ≠ snapLevelOf q.m.obj then a
      else if q.m.status ≠ fsOk then a.snapFailed j r stResource
      else
        let r1 := { r with left := r.left.erase q.m.offset }
        if r1.left.isEmpty then a.snapDone j r1
        else { a with recov := { a.recov with running := Tab.set none a.recov.running j (some r1) } }) s

/-- A fetch of a restore was refused (R453, R457). -/
def State.onGetApplied (s : State) (q : RxMsg) : State :=
  (s.boundJobs q.group).foldl (fun a j =>
    match (a.job j).restore with
    | none => a
    | some r => a.modJob j (fun y => { y with restore := some { r with failed := true } })) s

def State.onApplied (s : State) (q : RxMsg) : State :=
  match q.m.rtype with
  | 0x30 => s.onShardApplied q
  | 0x31 => s.onPermuteApplied q
  | 0x32 => s.onPartnerApplied q
  | 0x33 => s.onGetApplied q
  | _ => s

/-! ### The transport (R379, R383 to R385) -/

/-- A sequenced message in its order, at its consumer (R384, R387). -/
def State.consume (s : State) (p : Nat) (q : RxMsg) : State :=
  if q.m.typ = mMembership && q.clean && q.m.typeOk then s.onMembership q
  else if !q.clean || !q.m.typeOk then s.discard p
  else
    match q.m.typ with
    | 0x11 => s.onGatherData p q
    | 0x23 => s.onReduced p q
    | 0x31 => s.onPermute q
    | 0x32 => s.onPartnerPut q
    | 0x33 => s.onPartnerGet q
    | 0x34 => s.onApplied q
    | _ => s

/-- Deliver a message and those held behind it, in SEQ order (R384). -/
def State.deliverInOrder (s : State) (q : RxMsg) : List (Nat × Msg × Bool) → Nat → State
  | _, 0 => s
  | held, n + 1 =>
    let c := s.conn q.site q.group q.server
    match held.find? (fun h => h.2.1.seq = c.expect) with
    | none => s.setConn { c with held := held }
    | some h =>
      let s1 := s.setConn { c with expect := (c.expect + 1) % 2 ^ 32, held := [] }
      ((s1.consume h.1 { q with m := h.2.1, clean := h.2.2 }).deliverInOrder q
        (held.filter (fun x => x.2.1.seq ≠ h.2.1.seq)) n)

/-- An ACK leaves a site (R385). DESIGN CHOICE: its list of NAKs is not held (assumption log 44). -/
def State.sendAck (s : State) (site g server : Nat) : State :=
  (s.setConn (s.conn site g server).acked).sendFrame site ((msg mAck).head) 0

/-- The ACK and CREDIT fields of an arriving message (R383, R385). -/
def State.noteFields (s : State) (q : RxMsg) : State :=
  let c := s.conn q.site q.group q.server
  let cr := match c.credit with
    | none => q.credit
    | some x => if seqBefore x q.credit then q.credit else x
  let s1 := s.setConn { c with credit := some cr, unacked := c.unacked.filter (fun m => !seqBefore m.seq q.ack) }
  s1.pumpConn q.site q.group q.server (c.queue.length + 1)

/-- A sequenced message at the transport: accepted from the ACK on, before the CREDIT last sent (R384). -/
def State.acceptSeq (s : State) (p : Nat) (q : RxMsg) : State :=
  let c := s.conn q.site q.group q.server
  let d := (q.m.seq + 2 ^ 32 - c.expect) % 2 ^ 32
  if (c.sentCredit + 2 ^ 32 - c.expect) % 2 ^ 32 ≤ d then (s.discard p).sendAck q.site q.group q.server
  else if c.held.any (fun h => h.2.1.seq = q.m.seq) then s
  else
    let c1 := { c with sinceAck := c.sinceAck + 1, held := [] }
    let s1 := (s.setConn c1).deliverInOrder q (c.held ++ [(p, q.m, q.clean)]) (c.held.length + 1)
    if 16 ≤ (s1.conn q.site q.group q.server).sinceAck then s1.sendAck q.site q.group q.server else s1

/-- The run of HEARTBEATs of a port ends when 2 heartbeat intervals pass without one (R379). -/
def State.beatRun (s : State) (p : Nat) : Nat :=
  let x := s.port p
  if x.beatAt + 2000 * s.regs.hbInt ≤ s.time then 0 else x.beats

/-- When a site has lost its last UP port, another sends for it; its own send again when one is UP (R381). -/
def State.notePorts (s : State) (site : Nat) : State :=
  match s.sender site with
  | none => s
  | some w => s.noteSender site w

/-- The run of HEARTBEATs of a port that is TRAINING (R379). -/
def State.beat (s : State) (p : Nat) : State :=
  let x := s.port p
  let n := s.beatRun p
  if x.st = .training && decide (2 ≤ n) then
    ((s.setPort p { st := .up, beats := 0, beatAt := s.time }).record .portUp (.port p) [(1, p)]).notePorts (p / 4)
  else s.setPort p { x with beats := min (n + 1) 3, beatAt := s.time }

/-- The NAKs of an ACK: each named message is sent again (R385). -/
def nakSeqs (m : Msg) : List Nat := (List.range m.count).map (fun i => fieldAt m.payload (4 * i) 4)

/-- Send one unacknowledged message again (R385). -/
def State.resend (s : State) (site g server seq : Nat) : State :=
  let c := s.conn site g server
  match c.unacked.find? (fun m => m.seq = seq) with
  | none => s
  | some m =>
    let s1 := s.setConn { c.acked with
      unacked := c.unacked.map (fun x => if x.seq = seq then { x with sends := x.sends + 1 } else x) }
    let s2 := s1.sendFrame site m.head m.sends
    let s3 := match s2.sender site with
      | some w =>
        let l := s2.upPorts w
        s2.bumpPort (l.getD (((crc32 m.head).toNat + m.sends) % (max 1 l.length)) (4 * w)) cRetransmitted 1
      | none => s2
    if m.sends = 64 then
      s3.record .peerUnreachable (.site site)
        [(1, g), (2, ((s.group g).map (·.member)).getD 0), (1, site), (1, server), (4, seq)]
    else s3

/-- A whole arriving frame (R377 to R390). `only` is the type the command names; other frames are not that command's. -/
def State.receive (s : State) (p : Nat) (bs : List Byte) : State :=
  if s.portState p ≠ .up && s.portState p ≠ .training then s
  else
    let s0 := s.bumpPort p cFramesRx 1
    let broken (a : State) : State := a.setPort p { a.port p with beats := 0 }
    match s0.checkFrame p bs with
    | .badFcs => broken (((s0.discard p).bumpPort p cFcsError 1).health hLink p)
    | .discard => broken (s0.discard p)
    | .refuse => s0.discard p
    | .lost => s0
    | .ok q =>
      let s1 := (if q.corrected = 0 then s0 else (s0.bumpPort p cPayloadCorrected q.corrected).health hLink p)
      if q.m.typ = mHeartbeat then
        if q.clean && q.m.typeOk then (s1.noteFields q).beat p else s1.discard p
      else if q.m.typ = mAck then
        if q.clean && q.m.typeOk then
          (nakSeqs q.m).foldl (fun a n => a.resend q.site q.group q.server n) (s1.noteFields q)
        else s1.discard p
      else (s1.noteFields q).acceptSeq p q

/-- The TYPE of a frame, where it has one. -/
def frameType (bs : List Byte) : Nat := fieldAt bs 15 1

/-- The frame of a command that names a message type: a frame of another type is no such command. -/
def State.receiveTyped (s : State) (typ p : Nat) (bs : List Byte) : State :=
  if frameType bs = typ then s.receive p bs else s

end Sys2Proof.Machine
end

