-- ==== Sys2Proof/Machine/SnapOps.lean ====
section
/-! DEFINITION. Orders of snapshots (spec/14 R445 to R448). -/

namespace Sys2Proof.Machine

def State.snapOrders (s : State) (j : Nat) : List SnapOrder := Tab.get [] s.recov.orders j
def State.setOrders (s : State) (j : Nat) (l : List SnapOrder) : State :=
  { s with recov := { s.recov with orders := Tab.set [] s.recov.orders j l } }

/-- Put an order among the pending ones in ascending level; an order of a level that has one pending merges (R447). -/
def mergeOrder (level : Nat) (by_ : List (Nat × Nat)) : List SnapOrder → List SnapOrder
  | [] => [⟨level, by_⟩]
  | o :: r =>
    if o.level = level then { o with by_ := o.by_ ++ by_ } :: r
    else if level < o.level then ⟨level, by_⟩ :: o :: r
    else o :: mergeOrder level by_ r

/-- Levels 1 and 3 need a fabric group (R445). -/
def Job.snapLevelOk (x : Job) (level : Nat) : Bool := decide (level = 2) || x.fgroup.isSome

/-- A snapshot of a level is ordered; `by_` is the taking of a SNAPSHOT command.
DEDUCED: an unbound job context (assumption log 32). -/
def State.orderSnapshot (s : State) (j level : Nat) (by_ : List (Nat × Nat)) : State :=
  let x := s.job j
  if x.st = .empty || x.st = .failed || x.st = .restoring then
    by_.foldl (fun a b => a.finish b.1 b.2 stState 0 0) s
  else if !x.snapLevelOk level then
    by_.foldl (fun a b => a.finish b.1 b.2 stState 0 0)
      (s.record .snapshotFailed .hid [(1, j), (1, level), (1, stState)])
  else s.setOrders j (mergeOrder level by_ (s.snapOrders j))

/-! ### Orders by the risk estimate (R445) -/

/-- The threshold of a level. -/
def levelThreshold (level : Nat) : Nat := 64 * level

/-- The repeat interval of a level in ns; 0 for none. -/
def State.repeatInterval (s : State) (level : Nat) : Nat :=
  if level = 2 then s.regs.snapInt2 * 10 ^ 9 else if level = 3 then s.regs.snapInt3 * 10 ^ 9 else 0

def State.reachedAt (s : State) (j level : Nat) : Nat := Tab.get 0 s.recov.reached (4 * j + level)
def State.setReached (s : State) (j level v : Nat) : State :=
  { s with recov := { s.recov with reached := Tab.set 0 s.recov.reached (4 * j + level) v } }

/-- What one level of one job context gets at an estimate. -/
def State.riskOrder (s : State) (j level : Nat) : State :=
  let last := s.reachedAt j level
  let every := s.repeatInterval level
  if s.regs.risk < levelThreshold level then s.setReached j level 0
  else if last = 0 || (decide (every ≠ 0) && decide (last - 1 + every ≤ s.time)) then
    (s.orderSnapshot j level []).setReached j level (s.time + 1)
  else s

def State.riskOrders (s : State) : State :=
  ((List.range 8).filter (fun j => (s.job j).st = .loaded || (s.job j).st = .running)).foldl
    (fun a j => ((a.riskOrder j 1).riskOrder j 2).riskOrder j 3) s

/-- Level 1 is ordered again after each step that reaches COMMITTED while the estimate stands at its threshold. -/
def State.commitOrder (s : State) (j : Nat) : State :=
  if levelThreshold 1 ≤ s.regs.risk then (s.orderSnapshot j 1 []).setReached j 1 (s.time + 1) else s

end Sys2Proof.Machine
end

