-- ==== Sys2Proof/Machine/FabricSite.lean ====
section
/-! DEFINITION. An I/O die site's part in requests, contributions and publications (spec/12 R395 to R402, R407). -/

namespace Sys2Proof.Machine

/-- A SITE trace record (R581). -/
def State.traceSite (s : State) (site opc st addr : Nat) : State :=
  s.trace 6 (.site site) 0 (opc * 2 ^ 56 + st * 2 ^ 48 + addr % 2 ^ 48)

/-- A completion record leaves a site for the requester (R289, R396). -/
def State.answer (s : State) (site core st ctx len id addr version opc : Nat) : State :=
  (s.sendFromSite site (completionFlit site core st ctx len id addr version)).traceSite site opc st addr

/-- The request of a SITE_REQ flit, as delivered at the site: from a core, or from an I/O die site (R287, R397). -/
structure SiteReq where
  site : Nat
  core : Nat
  bytes : List Byte
  fromSite : Bool := false
  deriving DecidableEq, Repr

def SiteReq.opc (r : SiteReq) : Nat := fieldAt r.bytes 0 1
def SiteReq.ctx (r : SiteReq) : Nat := fieldAt r.bytes 1 1

/-- A SITE_REQ at a site, if the flit is one and its words are delivered. -/
def siteReqOf (f : Flit) : Option SiteReq :=
  if f.dkind.toNat = kSite && f.op.toNat = opSiteReq && (f.skind.toNat = kCore || f.skind.toNat = kSite) then
    (flitPayload f).map (fun p => ⟨f.dest.toNat, f.src.toNat, p, decide (f.skind.toNat = kSite)⟩)
  else none

/-- A data flit of a READ: into the requester's window, or by transfer tag to an I/O die site (R288, R397). -/
def SiteReq.dataFlit (r : SiteReq) (off g : Nat) (bs : List Byte) : Flit :=
  if r.fromSite then (mkFlit 7 kSite r.core kSite r.site opSiteData 0 bs).withTag (off + g)
  else mkFlit 7 kCore r.core kSite r.site opWrite (off / 64 + g) bs

/-- A completion record of a stack site for its requester (R289, R397); `id` is the TAG of a WRITE or the DOFF of a READ. -/
def recordFlit (fromSite : Bool) (site core status ctx len id addr : Nat) : Flit :=
  if fromSite then (mkFlit 7 kSite core kSite site opSiteData 0 (completionRecord status ctx len id addr 0)).withTag (id + 64)
  else completionFlit site core status ctx len id addr 0

/-- The context of a core has sent a request that a repeat would change (R464). -/
def State.markUnsafe (s : State) (core ctx : Nat) : State :=
  s.modCtx core ctx (fun x => { x with replayUnsafe := true })

/-! ### GATHER (R395, R396) -/

/-- A window area of whole granules that a site can write. -/
def doffOk (doff n : Nat) : Bool := decide (doff % 64 = 0) && inSpad doff n

def State.serveGather (s : State) (r : SiteReq) : State :=
  let b := r.bytes
  let len := fieldAt b 2 2
  let tensor := fieldAt b 4 4
  let offset := fieldAt b 8 8
  let doff := fieldAt b 16 4
  let version := fieldAt b 20 4
  let pf := fieldAt b 44 1
  let fail (st : Nat) : State := s.answer r.site r.core st (r.ctx % 4) len doff offset 0 0x10
  if 4 ≤ r.ctx || decide (len < 1 ∨ 64 < len) || decide (3 ≤ pf) || !zeroAt b 24 20 || !zeroAt b 45 19 then fail 6
  else if 4096 < offset % 4096 + 64 * len || !doffOk doff (64 * len) then fail 1
  else
    match s.jobOf r.core with
    | none => fail 1
    | some j =>
      match (s.job j).fgroup with
      | none => fail 1
      | some g =>
        let x := s.ioSite r.site
        let q : GatherReq := ⟨r.core, r.ctx, x.nextTag, tensor, pf, offset, len, doff, version⟩
        let s1 := s.setIoSite r.site { x with gathers := x.gathers ++ [q], nextTag := (x.nextTag + 1) % 2 ^ 24 }
        s1.sendMsg r.site g (objKey tensor offset)
          { msg mGatherReq with tag := q.tag, obj := tensor, offset := offset, count := 64 * len, version := version, mflags := pf }

/-! ### CONTRIB_OPEN (R398) -/

/-- A group of the active layout of a job context. -/
def Job.groupOf (j : Job) (g : Nat) : Option Group :=
  j.layout.bind (fun l => l.groups.find? (fun x => x.group = g))

/-- Opens of one source and group, in the order of their queue. -/
def IoSite.opensOf (x : IoSite) (core g : Nat) : List ContribOpen :=
  x.opens.filter (fun o => o.core = core && o.group = g)

/-- The site accepts an open (R398). -/
def State.openOk (s : State) (j : Nat) (r : SiteReq) (g tensor offset bytes : Nat) : Bool :=
  let b := r.bytes
  let e := (s.core r.core).ring g
  match (s.job j).layout with
  | none => false
  | some l =>
    match l.tensors.find? (fun t => t.tensor = tensor && t.kind = 3) with
    | none => false
    | some t =>
      let size := l.outbound t
      decide (r.ctx < 4) && zeroAt b 2 2 && zeroAt b 16 8 && zeroAt b 32 13 && zeroAt b 46 18 &&
      decide (1 ≤ g ∧ g ≤ 7 ∧ e.role ≠ 0 ∧ e.skd = 1 ∧ e.succ = r.site) &&
      decide (offset % 4096 = 0 ∧ offset + bytes ≤ size ∧ (bytes % 4096 = 0 ∨ offset + bytes = size)) &&
      (!e.strict ||
        (let x := s.ioSite r.site
         let k := (x.opensOf r.core g).length
         (((s.job j).groupOf g).map (·.members)).getD [] |>.all (fun m =>
           match (x.opensOf m g)[k]? with
           | none => true
           | some o => o.tensor = tensor && o.offset = offset && o.bytes = bytes)))

def State.serveOpen (s : State) (r : SiteReq) : State :=
  let tensor := fieldAt r.bytes 4 4
  let offset := fieldAt r.bytes 8 8
  let bytes := fieldAt r.bytes 24 8
  let g := fieldAt r.bytes 45 1
  let fail : State := s.answer r.site r.core 6 (r.ctx % 4) 0 0 offset 0 0x11
  match s.jobOf r.core with
  | none => fail
  | some j =>
    if s.openOk j r g tensor offset bytes then
      s.modIoSite r.site (fun x => { x with opens := x.opens ++ [{
        core := r.core, ctx := r.ctx, group := g, job := j, tensor := tensor, offset := offset, bytes := bytes }] })
    else fail

/-! ### PUBLISH (R407) -/

/-- The SHARD-PUT messages of a publication, of at most 4,096 bytes. -/
def State.sendShards (s : State) (site g bucket : Nat) (m : Msg) : List Byte → Nat → Nat → State
  | _, _, 0 => s
  | bs, off, n + 1 =>
    if bs.isEmpty then s
    else (s.sendMsg site g bucket { m with offset := off, payload := bs.take 4096 }).sendShards site g bucket m
      (bs.drop 4096) (off + 4096) n

/-- A refused publication: its record, or the event where the record cannot be delivered (R407). -/
def State.refusePublish (s : State) (site core j n bucket doff rsem st : Nat) : State :=
  if doff % 64 = 0 && (inBank 2 doff 64 || inBank 3 doff 64) && decide (rsem < 64) then
    (s.deliver (.site site) core doff (publishRecord site st n bucket 0) (some rsem)).traceSite site 0x12 st doff
  else s.record .shardPutRefused (.site site) [(1, j), (4, bucketTag j n (bucket % 2 ^ 20)), (1, 6)]

/-- The bytes of a publication have been read: they leave as SHARD-PUT messages (R407). A word that is not delivered refuses it
(R396). -/
def State.publishRead (s : State) (site : Nat) (q : PublishReq) (data : List Byte) (bad : Nat) : State :=
  match (s.job q.job).fgroup with
  | none => s.refusePublish site q.core q.job q.step q.bucket q.doff q.rsem 5
  | some g =>
    if bad ≠ 0 then s.refusePublish site q.core q.job q.step q.bucket q.doff q.rsem 3
    else
      let m := { msg mShardPut with
        tag := bucketTag q.job q.step q.bucket, obj := q.obj, version := q.step, mflags := q.plane }
      (s.modIoSite site (fun x => { x with publishes := x.publishes ++ [q] })).sendShards site g q.bucket m
        data (q.left.headD 0) q.sent

def State.servePublish (s : State) (r : SiteReq) : State :=
  let b := r.bytes
  let tensor := fieldAt b 4 4
  let offset := fieldAt b 8 8
  let doff := fieldAt b 16 4
  let n := fieldAt b 20 4
  let bytes := fieldAt b 24 8
  let addr := fieldAt b 32 8
  let bucket := fieldAt b 40 4
  let pf := fieldAt b 44 1
  let rsem := fieldAt b 46 1
  let s := s.markUnsafe r.core (r.ctx % 4)
  let refuse (j st : Nat) : State := s.refusePublish r.site r.core j n bucket doff rsem st
  match s.jobOf r.core with
  | none => refuse 0 6
  | some j =>
    let fieldsOk := decide (r.ctx < 4 ∧ bytes % 32 = 0 ∧ bucket < 2 ^ 20 ∧ pf < 8 ∧ pf % 4 ≠ 3 ∧ offset % 4096 = 0) &&
      zeroAt b 2 2 && zeroAt b 45 1 && zeroAt b 47 17 && (s.job j).inKind rkStaging addr bytes && decide (addr % 32 = 0) &&
      decide (doff % 64 = 0 ∧ rsem < 64) && (inBank 2 doff 64 || inBank 3 doff 64)
    if !fieldsOk then refuse j 6
    else
      match (s.job j).step n, (s.job j).fgroup with
      | some t, some _ =>
        if !(t.st = .normKnown && t.commit) then refuse j 5
        else if t.owned.all (fun o => o.bucket ≠ bucket) then refuse j 6
        else
          let k := ceilDiv bytes 4096
          let q : PublishReq := {
            core := r.core, job := j, step := n, bucket := bucket, obj := tensor, plane := pf % 4,
            final := decide (4 ≤ pf), doff := doff, rsem := rsem,
            left := (List.range k).map (fun i => offset + 4096 * i), sent := k }
          if k = 0 then s.publishDone r.site q
          else (s.ioRead r.site j [(addr, bytes)] (.publish q)).getD (refuse j 6)
      | _, _ => refuse j 5

/-! ### Granules of contributions (R398 to R401) -/

/-- The reduction group that travels on a VC (R254). -/
def State.groupOfVc (s : State) (vc : Nat) : Option Nat :=
  if vc = 7 then none else if vc = 0 then (if s.net.expansive then some 7 else none) else some vc

/-- The VC of a group (R254). -/
def vcOfGroup (g : Nat) : Nat := if g = 7 then 0 else g

/-- A slot of a sender's window is freed; credits go back in RCREDIT (R399). -/
def State.freeSlot (s : State) (site core g scred : Nat) : State :=
  let k := g * 4096 + core
  let x := s.ioSite site
  let n := Tab.get 0 x.freed k + 1
  let lot := min 16 scred
  if lot ≤ n then
    (s.setIoSite site { x with freed := Tab.set 0 x.freed k 0 }).sendFromSite site
      (mkFlit (vcOfGroup g) kCore core kSite site opRcredit lot [])
  else s.setIoSite site { x with freed := Tab.set 0 x.freed k n }

/-- Bytes of a tensor's outbound data enter their chunk (R400, R401); padding beyond the tensor is dropped (R259). -/
def putChunk (job group tensor size : Nat) (strict bad : Bool) (off : Nat) (d : List Byte) : List Chunk → List Chunk
  | [] =>
    let start := off / 4096 * 4096
    let len := min 4096 (size - start)
    [{ job := job, group := group, tensor := tensor, offset := start, strict := strict,
       data := spliceBytes (List.replicate len 0) (off - start) d, left := len - min len (d.take (size - off)).length, bad := bad }]
  | c :: r =>
    if c.job = job && c.group = group && c.tensor = tensor && c.offset = off / 4096 * 4096 then
      { c with data := spliceBytes c.data (off - c.offset) d, left := c.left - (d.take (size - off)).length, bad := c.bad || bad } :: r
    else c :: putChunk job group tensor size strict bad off d r

/-- Add one FP32 operand to an exact accumulator element (R400). -/
def ExactElem.add (e : ExactElem) (w : Word32) : ExactElem :=
  match f32 w with
  | .fin d => { e with sum := e.sum + d.toIntAt (-149) }
  | .inf false => { e with pinf := true }
  | .inf true => { e with ninf := true }
  | .nan => { e with nan := true }

/-- The result of an element and whether it saturated (R400). -/
def ExactElem.result (e : ExactElem) : Nat × Bool :=
  if e.nan || (e.pinf && e.ninf) then (0x7FC00000, false)
  else if e.pinf then (0x7F800000, false)
  else if e.ninf then (0xFF800000, false)
  else (Dy.ofInt e.sum (-149) false).toSat fmtFP32 none

def granuleWords (d : List Byte) : List Word32 := (List.range 16).map (fun i => BitVec.ofNat 32 (fieldAt d (4 * i) 4))

/-- The oldest open of a source and group that is not complete (R398). -/
def IoSite.currentOpen (x : IoSite) (core g : Nat) : Option ContribOpen :=
  (x.opensOf core g).find? (fun o => decide (64 * o.seen < o.bytes))

def countGranule (o : ContribOpen) : List ContribOpen → List ContribOpen
  | [] => []
  | y :: r => if y = o then { y with seen := y.seen + 1 } :: r else y :: countGranule o r

/-- The words of a granule as delivered; zeros stand for a word that is not, and mark the granule bad (R429). -/
def granuleData (f : Flit) : List Byte × Bool :=
  match flitPayload f with
  | some p => (p, false)
  | none => (List.replicate 64 0, true)

/-- A core's ring entry gives it a window at a site: the entry in force, patches of a variant included (R258, R322, R399). -/
def RingEntry.sendsTo (e : RingEntry) (site : Nat) : Bool := decide (e.role ≠ 0 ∧ e.skd = 1 ∧ e.succ = site)

/-- A group of the active layout to which a sender's ring entry gives a window at a site (R399, R612). -/
def State.siteWindow (s : State) (site core g : Nat) : Option (Nat × RingEntry) :=
  match s.jobOf core with
  | none => none
  | some j =>
    let e := (s.core core).ring g
    if ((s.job j).groupOf g).isSome && e.sendsTo site then some (j, e) else none

/-- Senders of a Strict group at a site: its members (R400). -/
def State.windowMembers (s : State) (j site g : Nat) : Nat :=
  (s.cores.filter (fun p => (s.job j).holds p.1 && (p.2.ring g).sendsTo site)).length

/-- A Standard granule moves into its chunk (R400). -/
def State.standardGranule (s : State) (site : Nat) (y : LandedGranule) (o : ContribOpen) (size scred : Nat) : State :=
  let x := s.ioSite site
  (s.setIoSite site { x with
    opens := countGranule o x.opens
    chunks := putChunk o.job y.group o.tensor size false y.bad (o.offset + 64 * o.seen) y.data x.chunks }).freeSlot site
      o.core y.group scred

def putSlot (q : ExactSlot) : List ExactSlot → List ExactSlot
  | [] => [q]
  | y :: r => if y.job = q.job && y.group = q.group && y.tensor = q.tensor && y.offset = q.offset then q :: r else y :: putSlot q r

def ExactSlot.is_ (y : ExactSlot) (j g tensor off : Nat) : Bool :=
  y.job = j && y.group = g && y.tensor = tensor && y.offset = off

/-- Saturations of an exact accumulator in work of a job context (R100, R103). -/
def State.siteSat (s : State) (j site n : Nat) : State := (s.bumpSite site 32 n).keepSat j (n, 0, 0)

/-- A Strict granule is added into its slot; after n members its results go into the chunk. None while no slot is free for it
(R400). -/
def State.strictGranule (s : State) (site : Nat) (y : LandedGranule) (o : ContribOpen) (size scred n : Nat) : Option State :=
  let g := y.group
  let x := s.ioSite site
  let off := o.offset + 64 * o.seen
  let old := x.slots.find? (fun q => q.is_ o.job g o.tensor off)
  if old.isNone && decide (1024 ≤ x.slots.length) then none
  else
    let q : ExactSlot := old.getD ⟨o.job, g, o.tensor, off, 0, false, List.replicate 16 {}⟩
    let q1 := { q with
      count := q.count + 1, bad := q.bad || y.bad, elems := q.elems.zipWith ExactElem.add (granuleWords y.data) }
    let s1 : State :=
      if n ≤ q1.count then
        let rs := q1.elems.map ExactElem.result
        (s.setIoSite site { x with
          opens := countGranule o x.opens
          slots := x.slots.filter (fun q => !q.is_ o.job g o.tensor off)
          chunks := putChunk o.job g o.tensor size true q1.bad off (rs.flatMap (fun q => leBytes 4 q.1)) x.chunks }).siteSat o.job
            site (rs.filter (fun q => q.2)).length
      else s.setIoSite site { x with opens := countGranule o x.opens, slots := putSlot q1 x.slots }
    some (s1.freeSlot site o.core g scred)

/-- A granule leaves the landing store for its chunk or its accumulators; none where it has no open yet, or no slot (R399,
R400). -/
def State.useGranule (s : State) (site : Nat) (y : LandedGranule) : Option State :=
  match s.siteWindow site y.core y.group with
  | none => none
  | some (j, e) =>
    match (s.ioSite site).currentOpen y.core y.group, (s.job j).layout with
    | some o, some l =>
      let size := ((l.tensors.find? (fun t => t.tensor = o.tensor)).map (fun t => l.outbound t)).getD 0
      if y.strict then s.strictGranule site y o size e.scred (s.windowMembers j site y.group)
      else some (s.standardGranule site y o size e.scred)
    | _, _ => none

/-- The landing store from one granule on: each that can goes, in order within its sender and group. -/
def State.useLanded (s : State) (site : Nat) : List LandedGranule → List LandedGranule → State
  | kept, [] => s.modIoSite site (fun x => { x with landing := kept })
  | kept, y :: r =>
    if kept.any (fun z => z.core = y.core && z.group = y.group) then s.useLanded site (kept ++ [y]) r
    else
      match s.useGranule site y with
      | some t => t.useLanded site kept r
      | none => s.useLanded site (kept ++ [y]) r

/-- The landing store of a site is worked off as far as it goes; a slot that becomes free lets an earlier granule go. -/
def State.drainLanding (s : State) (site : Nat) : Nat → State
  | 0 => s
  | n + 1 =>
    let l := (s.ioSite site).landing
    let t := s.useLanded site [] l
    if (t.ioSite site).landing.length = l.length then t else t.drainLanding site n

def State.workLanding (s : State) (site : Nat) : State := s.drainLanding site ((s.ioSite site).landing.length + 1)

/-- A fenced I/O die absorbs a granule and returns its credit (R19). -/
def State.fencedGranule (s : State) (site : Nat) (f : Flit) (g : Nat) : State :=
  match s.siteWindow site f.src.toNat g with
  | some (_, e) => s.freeSlot site f.src.toNat g e.scred
  | none => s

/-- A RED or STRICT granule at an I/O die site takes its slot of the landing store (R399). -/
def State.siteGranule (s : State) (site : Nat) (f : Flit) (strict : Bool) : State :=
  match s.groupOfVc f.vc.toNat with
  | none => if (s.ioSite site).fenced then s else s.unexpected f
  | some g =>
    if (s.ioSite site).fenced then s.fencedGranule site f g
    else
      match s.siteWindow site f.src.toNat g with
      | none => s.unexpected f
      | some (_, e) =>
        if e.strict ≠ strict || f.skind.toNat ≠ kCore then s.unexpected f
        else
          let d := granuleData f
          (s.modIoSite site (fun x => { x with landing := x.landing ++ [{
            core := f.src.toNat, group := g, strict := strict, data := d.1, bad := d.2 }] })).workLanding site

/-! ### CONTRIB and CONFIRM (R401, R402, R433) -/

/-- The step that a completed chunk is tagged with: OPEN, or its micro-batch being replayed (R401). -/
def Job.chunkStep (j : Job) : Option StepRun :=
  j.steps.find? (fun r => r.st = .open_ || (r.st = .backwardDone && r.again))

def putSent (b : SentBucket) : List SentBucket → List SentBucket
  | [] => []
  | x :: r => if x.bucket = b.bucket then b :: r else x :: putSent b r

/-- The bucket of a chunk's first byte and its offset there (R348). -/
def Job.chunkBucket (j : Job) (c : Chunk) : Nat × Nat :=
  let b0 := ((j.layout.bind (fun l => l.tensors.find? (fun t => t.tensor = c.tensor))).map (·.bucket)).getD 0
  (b0 + c.offset / j.z, c.offset % j.z)

/-- A complete chunk leaves its site, or is dropped (R401, R405, R429, R430). -/
def State.sendChunk (s : State) (site : Nat) (c : Chunk) : State :=
  let j := s.job c.job
  match j.chunkStep, j.fgroup with
  | some r, some g =>
    let q := j.chunkBucket c
    match r.sentBuckets.find? (fun b => b.bucket = q.1) with
    | none => s
    | some b =>
      if c.bad then
        (s.cper { kind := 9, outcome := 4, job := c.job, step := r.n, site := site }).lost c.job true
      else if b.missed || b.confirmed || r.dropped then s
      else
        let b1 := { b with
          chunks := b.chunks.filter (fun x => x.1 ≠ q.2) ++ [(q.2, site, c.data.length)]
          mark := s.integ.nextCheck }
        (s.setStep c.job { r with sentBuckets := putSent b1 r.sentBuckets }).sendMsg site g q.1
          { msg mContrib with
            tag := bucketTag c.job r.n q.1, offset := q.2, count := r.tokens,
            mflags := 4 + (if c.strict then 16 else 0), payload := c.data }
  | _, _ => s.record .contribDropped (.site site) [(1, c.job), (1, site), (1, c.group)]

/-- A bucket may be confirmed (R366, R433). -/
def State.confirmable (s : State) (j : Nat) (r : StepRun) (b : SentBucket) : Bool :=
  b.full && !b.confirmed && !b.missed && !r.dropped &&
  (!((s.job j).layout.any (·.hasGathered)) || r.sentBuckets.all (fun x => x.full || x.missed)) &&
  s.integ.checks.all (fun c => c.job ≠ j || decide (b.mark ≤ c.id)) &&
  s.integ.classings.all (fun c => c.job ≠ j)

/-- Each site sends CONFIRM with the chunks it has sent (R402). -/
def State.confirmBucket (s : State) (j : Nat) (r : StepRun) (b : SentBucket) : State :=
  let s1 := s.setStep j { r with sentBuckets := putSent { b with confirmed := true } r.sentBuckets }
  match (s.job j).fgroup with
  | none => s1
  | some g => b.sites.foldl (fun a i => a.sendMsg i g b.bucket
      { msg mConfirm with tag := bucketTag j r.n b.bucket, count := b.from_ i }) s1

end Sys2Proof.Machine
end

