-- ==== Sys2Proof/Machine/StackOps.lean ====
section
/-! DEFINITION. What a stack site does with its words and its regions: reads with the word code, row activations, the
fence, and the admission of requests (spec/09 R280 to R297, spec/11 R341, spec/14 R462). -/

namespace Sys2Proof.Machine

/-! ### Fences (R284, R462) -/

/-- A stack is fenced at run time: 1 it did not answer, 2 its errors; every job context fails.
DESIGN CHOICE: the cause codes (assumption log 15). -/
def State.fenceStack (s : State) (site cause : Nat) : State :=
  if !s.isStack site || (s.stack site).st ≠ .online then s
  else
    let s1 := (s.modStack site (fun x => { x with st := .fencedRun })).record .stackFenced (.site site)
      [(1, site), (1, 2), (1, cause)]
    ((List.range 8).filter (fun j => (s.job j).st ≠ .empty)).foldl (fun a j => a.failJob j) s1

/-! ### Row activations (R294) -/

/-- The bank of a stack address. -/
def State.bankOfStack (s : State) (a : Nat) : Nat := Config.stackBank (a / 4096 / max 1 s.interleave.length)

def State.rowBlocked (s : State) (site a : Nat) : Bool := (s.stack site).blocked.contains (s.bankOfStack a)

/-- The initial and the maximum threshold of a stack's banks (R294): the maximum is not the smaller one, and a bank that a refresh
management command has just served takes at least two activations. DESIGN CHOICE (assumption log 18). -/
def rfmThresholds (site : Nat) : Nat × Nat :=
  ((Config.rfmThresholds site).1 + 3, (Config.rfmThresholds site).1 + 3 + (Config.rfmThresholds site).2)

/-- One activation of a row; at the maximum the bank is blocked. DESIGN CHOICE (assumption log 18). -/
def State.rowHit (s : State) (site a : Nat) : State :=
  let b := s.bankOfStack a
  let x := s.stack site
  let n := Tab.get 0 x.acts b + 1
  let s1 := s.setStack site { x with acts := Tab.set 0 x.acts b n }
  if n < (rfmThresholds site).2 then s1
  else
    let s2 := (s1.modStack site (fun y => { y with blocked := b :: y.blocked })).bumpSite site 64 1
    if x.rfmInterval = some (s.time / 100000) then s2
    else (s2.modStack site (fun y => { y with rfmInterval := some (s.time / 100000) })).record .rowHammerBlock (.site site) []

/-- The 4 KiB granules that an extent touches, by address: each lies in one row of one stack (R285). -/
def granulesOf (a n : Nat) : List Nat := (List.range (ceilDiv (a % 4096 + n) 4096)).map (fun i => 4096 * (a / 4096 + i))

/-- An access activates the row of each granule that it touches (R294); a fenced stack is not touched (R284). -/
def State.touchRows (s : State) (a n : Nat) : State :=
  (granulesOf a n).foldl (fun t g => if (t.stack (t.stackOf g)).st = .fencedRun then t else t.rowHit (t.stackOf g) g) s

/-- A bank that an access needs takes no activation: the access waits (R294). -/
def State.rowsBlocked (s : State) (a n : Nat) : Bool :=
  (granulesOf a n).any (fun g => decide ((s.stack (s.stackOf g)).st ≠ .fencedRun) && s.rowBlocked (s.stackOf g) g)

/-! ### Words (R280, R284, R295, R296) -/

/-- An uncorrectable word of a pseudo-channel; the sixteenth within a second fences the stack (R284). -/
def State.noteUncorrectable (s : State) (site a : Nat) : State :=
  let s1 := s.record .stackUncorrectable (.site site) [(8, a), (1, pseudoOf a)]
  let recent := (pseudoOf a, s.time) :: (s.stack site).unc.filter (fun x => decide (s.time < x.2 + 10 ^ 9))
  let s2 := s1.modStack site (fun x => { x with unc := recent })
  if 16 ≤ (recent.filter (fun x => x.1 = pseudoOf a)).length then s2.fenceStack site 2 else s2

/-- A corrected word is counted, recorded and written back (R295, R296). -/
def State.correctStack (s : State) (site a : Nat) : State :=
  (((s.bumpSite site (pseudoOf a) 1).record .stackCorrected (.site site)
    [(1, site), (1, pseudoOf a), (8, a)]).health hSymbols (4096 + 64 * site + pseudoOf a)).store a
    (s.delivered a 32)

/-- A read of the 32-byte word at a stack address; false where it is not delivered. -/
def State.readWord (s : State) (a : Nat) : State × Bool :=
  let site := s.stackOf a
  if (s.stack site).st = .fencedRun then (s, false)
  else
    match (wcDecode (s.errOf (a / 32))).1 with
    | .clean => (s, true)
    | .corrected => (s.correctStack site a, true)
    | .poisoned => (s.record .stackUncorrectable (.site site) [(8, a), (1, pseudoOf a)], false)
    | .uncorrectable => (s.noteUncorrectable site a, false)

/-- A read of every word that an extent of stack memory touches: its rows are activated, and it gives its bytes, or none where
a word is not delivered. -/
def State.readStack (s : State) (a n : Nat) : State × Option (List Byte) :=
  let r := (wordsOf a n).foldl (fun (q : State × Bool) w => let t := q.1.readWord (32 * w); (t.1, q.2 && t.2))
    (s.touchRows a n, true)
  (r.1, if r.2 then some (s.delivered a n) else none)

/-! ### The window of a stack site (R292) -/

/-- The place of a site in the interleave list. -/
def State.placeOf (s : State) (site : Nat) : Nat := s.interleave.findIdx (fun x => x = site)

def StackState.code : StackState → Nat
  | .online => 0 | .fencedBoot => 1 | .fencedRun => 2

/-- The 64-byte status block. -/
def State.siteStatus (s : State) (site : Nat) : List Byte :=
  leBytes 1 (s.stack site).st.code ++ leBytes 1 s.interleave.length ++ leBytes 1 (s.placeOf site) ++
    leBytes 1 (((s.stack site).temp % 256).toNat) ++ leBytes 60 0

/-- The region table as a site holds it, 1,024 bytes: the used entries. DESIGN CHOICE: the order (assumption log 26). -/
def State.regionBytes (s : State) : List Byte :=
  let bs := (s.regionTable.filter (fun r => r.kind ≠ 0)).flatMap MemRegion.toBytes
  (bs ++ List.replicate (1024 - bs.length) 0).take 1024

/-- The bytes of an extent of a site's own window; none where it is unmapped. -/
def State.windowBytes (s : State) (site a n : Nat) : Option (List Byte) :=
  let o := a - (siteBase + site * 2 ^ 24)
  if a < siteBase + site * 2 ^ 24 then none
  else if o + n ≤ 64 then some (((s.siteStatus site).drop o).take n)
  else if 0x1000 ≤ o ∧ o + n ≤ 0x1400 then some ((s.regionBytes.drop (o - 0x1000)).take n)
  else none

/-! ### Admission (R23, R287, R289, R291, R341) -/

/-- A READ or WRITE keeps R287: LEN, the zero fields, the alignment, one granule. DOFF of a READ names an area of a core's window,
or carries the request number of an I/O die site (R397). -/
def SiteReq.wellFormed (r : SiteReq) : Bool :=
  let b := r.bytes
  let len := fieldAt b 2 2
  let a := fieldAt b 8 8
  decide (r.ctx < 4) && decide (1 ≤ len ∧ len ≤ 64) && zeroAt b 4 4 && zeroAt b 24 8 && zeroAt b 32 32 &&
  decide (a % 64 = 0 ∧ a % 4096 + 64 * len ≤ 4096) &&
  (if r.opc = 1 then zeroAt b 20 4 &&
      (if r.fromSite then decide (fieldAt b 16 4 < 2 ^ 23) else doffOk (fieldAt b 16 4) (64 * len))
   else zeroAt b 16 4 && decide (fieldAt b 20 4 < 2 ^ 23))

/-- Whether the kind of a region lets a context of a core write (R291). -/
def kindWrites (kind ctx : Nat) : Bool :=
  if kind = rkOwned then decide (2 ≤ ctx) else decide (kind = rkStaging ∨ kind = rkOffload ∨ kind = rkSpill)

/-- The status of a well-formed request to stack memory: 0 where the site admits it. An I/O die site has checked its own extents
(R287, R397). DEDUCED: the order of the checks (assumption log 24). -/
def State.stackStatus (s : State) (r : SiteReq) (write : Bool) : Nat :=
  let a := fieldAt r.bytes 8 8
  let n := 64 * fieldAt r.bytes 2 2
  if !s.inStack a n || s.stackOf a ≠ r.site then 1
  else if r.fromSite then 0
  else
    match s.jobOf r.core with
    | none => 1
    | some j =>
      match (s.job j).regionOf a n with
      | none => 1
      | some m =>
        if write && (!kindWrites m.kind r.ctx || (m.kind = rkOwned && !(s.job j).commitOpen)) then 2 else 0

/-- Whether the extent of a request lies in an OWNED region of the requester's job context (R464). -/
def State.toOwned (s : State) (r : SiteReq) : Bool :=
  match (if r.fromSite then none else s.jobOf r.core) with
  | none => false
  | some j => (s.job j).inKind rkOwned (fieldAt r.bytes 8 8) (64 * fieldAt r.bytes 2 2)

/-- A completion record for a request at a stack site; a refusal for its address or kind is recorded (R306). -/
def State.stackAnswer (s : State) (r : SiteReq) (st : Nat) : State :=
  let a := fieldAt r.bytes 8 8
  let id := if r.opc = 2 then fieldAt r.bytes 20 4 else fieldAt r.bytes 16 4
  let s1 := (s.sendFromSite r.site (recordFlit r.fromSite r.site r.core st (r.ctx % 4) (fieldAt r.bytes 2 2) id a)).traceSite
    r.site r.opc st a
  if st = 1 || st = 2 then s1.record .stackAccessRefused (.site r.site) [(2, r.core), (8, a), (1, st)] else s1

end Sys2Proof.Machine
end

