-- ==== Sys2Proof/Machine/RingOps.lean ====
section
/-! DEFINITION. How a command leaves its ring: submission entries, the checks of R489, the taking, and the host's memory
(spec/15 R474 to R495, spec/18 R562, R564). -/

namespace Sys2Proof.Machine

/-! ### Entries (R487) -/

/-- A submission entry from its 64 bytes. -/
def entryOf (b : List Byte) : Entry where
  opcode := fieldAt b 0 1
  flags := fieldAt b 1 1
  cid := fieldAt b 2 2
  job := fieldAt b 4 1
  block := fieldAt b 8 8
  blen := fieldAt b 16 4
  arg0 := fieldAt b 20 4
  arg1 := fieldAt b 24 8
  bad := decide (4 ≤ fieldAt b 1 1) || !zeroAt b 5 3 || !zeroAt b 32 32 || decide (fieldAt b 8 8 % 64 ≠ 0) ||
    decide (8 ≤ fieldAt b 4 1 ∧ fieldAt b 4 1 ≠ 0xFF)

def Entry.fence (e : Entry) : Bool := decide (e.flags % 2 = 1)
def Entry.noint (e : Entry) : Bool := decide (e.flags / 2 % 2 = 1)

/-! ### The commands (R491, R492) -/

def ocRingCreate : Nat := 0x01
def ocRingDelete : Nat := 0x02
def ocWindowSet : Nat := 0x03
def ocFirmwareUpdate : Nat := 0x08
def ocKeyProvision : Nat := 0x09
def ocSecurityVersion : Nat := 0x0A
def ocAttest : Nat := 0x0B
def ocJobLoad : Nat := 0x10
def ocJobEmpty : Nat := 0x11
def ocJobFabric : Nat := 0x12
def ocFabricGroup : Nat := 0x13
def ocLayoutLoad : Nat := 0x14
def ocLayoutDrop : Nat := 0x15
def ocPhaseSwitch : Nat := 0x16
def ocJobRun : Nat := 0x17
def ocJobStop : Nat := 0x18
def ocSnapshot : Nat := 0x1A
def ocRestore : Nat := 0x1B
def ocTokenPut : Nat := 0x20
def ocTokenGet : Nat := 0x21
def ocCounterRead : Nat := 0x28
def ocTraceConfig : Nat := 0x29
def ocEventRead : Nat := 0x2A
def ocEventClear : Nat := 0x2B
def ocCperRead : Nat := 0x2C
def ocRepairRead : Nat := 0x2D
def ocQuench : Nat := 0x30
def ocQuenchRelease : Nat := 0x31
def ocQuenchRead : Nat := 0x32

def roleJob : Nat := 1
def roleOperator : Nat := 2
def roleOwner : Nat := 3

/-- How BLOCK and BLEN of a command are checked. -/
inductive BlockRule where
  /-- No block. -/
  | none
  /-- A block of fixed length. -/
  | fixed (n : Nat)
  /-- A header and entries: header bytes, offset and size of the count, bytes of an entry. -/
  | counted (head off size each : Nat)
  /-- BLEN is the SIZE field at an offset of the block. -/
  | sized (off : Nat)
  /-- A buffer of whole records. -/
  | buffer (each : Nat)
  deriving DecidableEq, Repr

/-- What R491 and R492 say of one command. -/
structure CmdInfo where
  role : Nat
  /-- The job context states that permit it; none where the command concerns no job context. -/
  states : Option (List JobState)
  safe : Bool
  block : BlockRule
  /-- Bits of ARG0 that may be set, and whether ARG1 is named. -/
  arg0 : Nat := 0
  arg1 : Bool := false
  /-- JOB must be 0xFF. -/
  device : Bool := false
  deriving DecidableEq, Repr

def jsNotEmpty : List JobState := [.loaded, .running, .quenched, .restoring, .failed]

/-- The commands of R491; none for a reserved opcode. -/
def cmdInfo (op : Nat) : Option CmdInfo :=
  match op with
  | 0x01 => some { role := 1, states := none, safe := true, block := .fixed 32 }
  | 0x02 => some { role := 1, states := none, safe := true, block := .none, arg0 := 0x3F }
  | 0x03 => some { role := 1, states := some jsNotEmpty, safe := true, block := .none, arg1 := true }
  | 0x08 => some { role := 2, states := none, safe := true, block := .fixed 16 }
  | 0x09 => some { role := 3, states := none, safe := true, block := .fixed 64 }
  | 0x0A => some { role := 3, states := none, safe := true, block := .none, arg0 := 0xFF }
  | 0x0B => some { role := 1, states := none, safe := true, block := .fixed 64 }
  | 0x10 => some { role := 2, states := some [.empty], safe := false, block := .counted 64 0x0C 1 16 }
  | 0x11 => some { role := 2, states := some [.loaded, .failed], safe := true, block := .none }
  | 0x12 => some { role := 2, states := some [.loaded], safe := false, block := .counted 16 0x02 2 16 }
  | 0x13 => some { role := 2, states := none, safe := false, block := .counted 0x90 0x01 1 8, device := true }
  | 0x14 => some { role := 1, states := some [.loaded, .running], safe := false, block := .sized 8, arg0 := 3 }
  | 0x15 => some { role := 1, states := some [.loaded, .running], safe := false, block := .none, arg0 := 3 }
  | 0x16 => some { role := 1, states := some [.loaded], safe := false, block := .none, arg0 := 0x103 }
  | 0x17 => some { role := 1, states := some [.loaded], safe := false, block := .none }
  | 0x18 => some { role := 1, states := some [.running], safe := false, block := .none }
  | 0x19 => some { role := 1, states := some [.running], safe := false, block := .fixed 64 }
  | 0x1A => some { role := 1, states := some [.loaded, .running, .quenched], safe := false, block := .none, arg0 := 3, arg1 := true }
  | 0x1B => some { role := 1, states := some [.loaded], safe := false, block := .counted 16 0x08 2 24 }
  | 0x20 => some { role := 1, states := some [.loaded, .running], safe := false, block := .fixed 32 }
  | 0x21 => some { role := 1, states := some [.loaded, .running], safe := false, block := .fixed 32 }
  | 0x28 => some { role := 1, states := none, safe := true, block := .fixed 32 }
  | 0x29 => some { role := 2, states := none, safe := true, block := .fixed 32 }
  | 0x2A => some { role := 2, states := none, safe := true, block := .fixed 24 }
  | 0x2B => some { role := 3, states := none, safe := true, block := .none }
  | 0x2C => some { role := 2, states := none, safe := true, block := .buffer 328 }
  | 0x2D => some { role := 2, states := none, safe := true, block := .buffer 8 }
  | 0x30 => some { role := 2, states := none, safe := true, block := .none, device := true }
  | 0x31 => some { role := 2, states := none, safe := false, block := .none, device := true }
  | 0x32 => some { role := 2, states := none, safe := true, block := .fixed 24 }
  | _ => none

/-! ### Host memory reads (R474) -/

/-- A host memory access that failed; the completion status is a free value. DESIGN CHOICE (assumption log 17). -/
def State.hostError (s : State) (ring cid addr : Nat) : State :=
  ({ s with freeIndex := s.freeIndex + 1 }).record .hostAccessError .hid
    [(1, ring), (2, cid), (8, addr), (1, Config.measured s.freeIndex % 8)]

/-! ### The checks of R489 -/

/-- The block's own bytes. -/
def State.blockOf (s : State) (e : Entry) : List Byte := s.bytes e.block e.blen

/-- BLOCK and BLEN match the command's block. -/
def State.blockOk (s : State) (e : Entry) (b : BlockRule) : Bool :=
  let here := decide (e.block ≠ 0) && inHost e.block e.blen
  match b with
  | .none => decide (e.block = 0 ∧ e.blen = 0)
  | .fixed n => decide (e.blen = n) && here
  | .counted head off size each =>
    decide (head ≤ e.blen) && here && decide (e.blen = head + each * s.num (e.block + off) size)
  | .sized off => decide (off + 4 ≤ e.blen) && here && decide (e.blen = s.num (e.block + off) 4)
  | .buffer each => decide (e.blen % each = 0) && here

/-- The block is read, not written to. -/
def BlockRule.reads : BlockRule → Bool
  | .fixed _ | .counted _ _ _ _ | .sized _ => true
  | _ => false

/-- Check 2: the entry keeps R487 and its arguments and block fit the command. -/
def State.entryOk (s : State) (e : Entry) (q : CmdInfo) : Bool :=
  !e.bad && s.blockOk e q.block && decide (e.arg0 &&& q.arg0 = e.arg0) && (q.arg1 || decide (e.arg1 = 0)) &&
  (!q.device || decide (e.job = 0xFF))

/-- The role of a ring: ring 0 has the session's (R562). -/
def State.ringRole (s : State) (r : Nat) (x : Ring) : Nat :=
  if r = 0 then (match s.sec.session with | some q => q.role | none => 0) else x.role

/-- Whether a ring may name a job context (R492, R562). -/
def State.ringHolds (s : State) (r : Nat) (x : Ring) (j : Nat) : Bool :=
  if s.ringRole r x = roleJob then
    (if r = 0 then (match s.sec.session with | some q => decide (q.jobs / 2 ^ j % 2 = 1) | none => false)
     else decide (x.job = j))
  else true

/-- A session opened by CLAIM may provision slot 0 and attest, and nothing else (R564). -/
def State.claimDenies (s : State) (r : Nat) (e : Entry) : Bool :=
  (match s.sec.session with | some q => q.claim | none => false) && decide (r = 0) &&
  !(e.opcode = ocAttest || (e.opcode = ocKeyProvision && decide (s.num e.block 1 = 0)))

/-- Check 3: the ring's role and job context permit the command. -/
def State.permits (s : State) (r : Nat) (x : Ring) (e : Entry) (q : CmdInfo) : Bool :=
  let role := s.ringRole r x
  decide (q.role ≤ role) &&
  (!(e.opcode = ocRingCreate || e.opcode = ocRingDelete) || decide (r = 0)) &&
  (if e.job < 8 then s.ringHolds r x e.job || (e.opcode = ocCounterRead && decide (roleOperator ≤ role))
   else q.states.isNone && (e.opcode ≠ ocCounterRead || decide (roleOperator ≤ role))) &&
  !s.claimDenies r e

/-- Check 4: the device state and the job context's state permit the command. -/
def State.stateOk (s : State) (e : Entry) (q : CmdInfo) : Bool :=
  (q.safe || s.regs.st ≠ .safe) &&
  (match q.states with | none => true | some l => l.contains (s.job e.job).st)

/-- The status of the first check of R489 that fails, before the command's own. -/
def State.admission (s : State) (r : Nat) (x : Ring) (e : Entry) : Option Nat :=
  match cmdInfo e.opcode with
  | none => some stUnsupported
  | some q =>
    if !s.entryOk e q then some stMalformed
    else if q.block.reads && !s.hostOk e.block e.blen then some stMalformed
    else if !s.permits r x e q then some stDenied
    else if !s.stateOk e q then some stState
    else none

/-! ### The taking (R484, R489) -/

/-- A command that has been taken: its ring, its taking number, its entry. -/
structure Cmd where
  ring : Nat
  id : Nat
  e : Entry
  deriving DecidableEq, Repr

/-- The head may be taken: its predecessor has begun, and FENCE waits for every earlier completion. -/
def State.mayTake (s : State) (x : Ring) (e : Entry) : Bool :=
  s.regs.st ≠ .boot && x.taken.all (fun t => !t.waits) && (!e.fence || x.taken.isEmpty)

/-- Take the head of a ring out of its queue. -/
def State.pull (s : State) (r : Nat) (x : Ring) (e : Entry) : State :=
  let s1 : State := { s with host := { s.host with nextId := s.host.nextId + 1 } }
  s1.setRing r { x with fetched := x.fetched.drop 1, taken := x.taken ++ [{ id := s.host.nextId, entry := e }] }

/-- Reserved opcodes at the head complete with UNSUPPORTED; no row of the table is theirs. -/
def State.settleRing (s : State) (r : Nat) : Nat → State
  | 0 => s
  | n + 1 =>
    match s.ring r with
    | none => s
    | some x =>
      match x.fetched with
      | [] => s
      | e :: _ =>
        if (cmdInfo e.opcode).isNone && s.mayTake x e then
          ((s.pull r x e).finish r s.host.nextId stUnsupported 0 0).settleRing r n
        else s

/-- Take the head of a ring where it is the command, check it, and carry it out. -/
def State.takeCommand (s : State) (r op : Nat) (body : Cmd → State → State) : State :=
  match s.ring r with
  | none => s
  | some x =>
    match x.fetched with
    | [] => s
    | e :: _ =>
      if e.opcode = op && s.mayTake x e then
        let s1 := s.pull r x e
        let c : Cmd := ⟨r, s.host.nextId, e⟩
        let s2 := match s.admission r x e with
          | some st =>
            let s0 := if st = stMalformed && !s.hostOk e.block e.blen then s1.hostError r e.cid e.block else s1
            s0.finish r c.id st 0 0
          | none => body c s1
        s2.settleRing r x.fetched.length
      else s

/-- A command completes. -/
def State.done (s : State) (c : Cmd) (st r0 r1 : Nat) : State := s.finish c.ring c.id st r0 r1

/-- The command waits before it begins (R484). -/
def State.keepWaiting (s : State) (c : Cmd) : State :=
  match s.ring c.ring with
  | none => s
  | some x => s.setRing c.ring { x with taken := x.taken.map (fun t => if t.id = c.id then { t with waits := true } else t) }

/-- The command has begun. -/
def State.begun (s : State) (ring id : Nat) : State :=
  match s.ring ring with
  | none => s
  | some x => s.setRing ring { x with taken := x.taken.map (fun t => if t.id = id then { t with waits := false } else t) }

end Sys2Proof.Machine
end

