-- ==== Sys2Proof/Machine/Manifest.lean ====
section
/-! DEFINITION. Job manifests and layout manifests: their fields and their checks (spec/10 R308 to R326, R337, spec/06
R214, spec/08 R258). -/

namespace Sys2Proof.Machine

/-- The first item of a list of checks that fails: its offset in the manifest. -/
def firstBad (l : List (Nat × Bool)) : Option Nat := (l.find? (fun x => !x.2)).map (·.1)

/-- A CRC-32 computed with its own field zero. -/
def crcOk (bs : List Byte) (off : Nat) : Bool :=
  decide ((crc32 (bs.take off ++ leBytes 4 0 ++ bs.drop (off + 4))).toNat = fieldAt bs off 4)

/-! ### Job manifests (R308, R309) -/

structure JobManifest where
  fy0 : Nat
  fx0 : Nat
  fh : Nat
  fw : Nat
  regions : List MemRegion
  lstore : Nat
  lsgran : Nat
  deriving DecidableEq, Repr

/-- A stack region entry of a manifest (R291). -/
def regionAt (bs : List Byte) (o : Nat) : MemRegion :=
  ⟨fieldAt bs o 8, fieldAt bs (o + 8) 4, fieldAt bs (o + 12) 1, fieldAt bs (o + 13) 1⟩

def MemRegion.meets (a b : MemRegion) : Bool :=
  decide (a.kind ≠ 0 ∧ b.kind ≠ 0 ∧ a.base < b.base + 4096 * b.granules ∧ b.base < a.base + 4096 * a.granules)

/-- One entry by itself (R291, R308, R309). -/
def entryFits (bs : List Byte) (o job stackEnd : Nat) : Bool :=
  let r := regionAt bs o
  decide (r.base < 2 ^ 48 ∧ r.base % 4096 = 0 ∧ 1 ≤ r.granules ∧ r.kind ≤ 5 ∧ r.job = job) && zeroAt bs (o + 14) 2 &&
  decide (r.base + 4096 * r.granules ≤ stackEnd)

def manifestOf (bs : List Byte) : JobManifest where
  fy0 := fieldAt bs 8 1
  fx0 := fieldAt bs 9 1
  fh := fieldAt bs 10 1
  fw := fieldAt bs 11 1
  regions := (List.range (fieldAt bs 12 1)).map (fun i => regionAt bs (64 + 16 * i))
  lstore := fieldAt bs 16 8
  lsgran := fieldAt bs 24 4

/-- The checks of a job manifest in the order of its bytes. -/
def jobChecks (bs : List Byte) (job stackEnd : Nat) : List (Nat × Bool) :=
  let m := manifestOf bs
  let store : MemRegion := ⟨m.lstore, m.lsgran, 3, job⟩
  [(0x00, decide (fieldAt bs 0 4 = 0x58444A46)), (0x04, decide (fieldAt bs 4 2 = 1)), (0x06, decide (fieldAt bs 6 1 = job)),
   (0x07, zeroAt bs 7 1), (0x08, decide (m.fy0 < 8)), (0x09, decide (m.fx0 < 8)),
   (0x0A, decide (1 ≤ m.fh ∧ m.fh + m.fy0 ≤ 8)), (0x0B, decide (1 ≤ m.fw ∧ m.fw + m.fx0 ≤ 8)),
   (0x0C, decide (1 ≤ m.regions.length ∧ m.regions.length ≤ 64)), (0x0D, zeroAt bs 13 3),
   (0x10, decide (m.lstore % 4096 = 0) && m.regions.any (fun r => r.kind = 3 && r.holds store.base (4096 * store.granules))),
   (0x18, decide (1 ≤ m.lsgran)), (0x1C, crcOk bs 0x1C), (0x20, zeroAt bs 32 32)] ++
  (List.range m.regions.length).map (fun i =>
    (64 + 16 * i, entryFits bs (64 + 16 * i) job stackEnd &&
      (m.regions.take i).all (fun r => !r.meets (regionAt bs (64 + 16 * i)))))

/-! ### Layout manifests: header and tables (R313) -/

/-- A table of the header: offset of its count field, size of that field, least and most, offset field, entry bytes. -/
def layoutTables : List (Nat × Nat × Nat × Nat × Nat × Nat) :=
  [(0x10, 2, 1, 256, 0x20, 16), (0x12, 1, 0, 7, 0x24, 16), (0x14, 2, 0, 4096, 0x28, 32), (0x16, 2, 0, 8192, 0x2C, 16),
   (0x18, 2, 0, 16384, 0x30, 16), (0x1A, 2, 1, 1024, 0x34, 16), (0x1C, 2, 0, 4096, 0x38, 32)]

/-- Offsets of the entries of table t. -/
def entriesOf (bs : List Byte) (t : Nat) : List Nat :=
  match layoutTables[t]? with
  | none => []
  | some (c, n, _, _, o, e) => (List.range (fieldAt bs c n)).map (fun i => fieldAt bs o 4 + e * i)

/-- The extents of the tables: offset and length. -/
def tableExtents (bs : List Byte) : List (Nat × Nat) :=
  layoutTables.map (fun t => match t with | (c, n, _, _, o, e) => (fieldAt bs o 4, e * fieldAt bs c n))

def extentsMeet (a b : Nat × Nat) : Bool :=
  decide (a.2 ≠ 0 ∧ b.2 ≠ 0 ∧ a.1 < b.1 + b.2 ∧ b.1 < a.1 + a.2)

def layoutHeader (bs : List Byte) : List (Nat × Bool) :=
  let size := fieldAt bs 8 4
  [(0x00, decide (fieldAt bs 0 4 = 0x58444C46)), (0x04, decide (fieldAt bs 4 2 = 1)),
   (0x06, decide (1 ≤ fieldAt bs 6 1 % 16 ∧ fieldAt bs 6 1 % 16 ≤ 3)),
   (0x07, decide (fieldAt bs 7 1 = 1 ∨ fieldAt bs 7 1 = 2)),
   (0x08, decide (size % 64 = 0 ∧ size ≤ 256 * 2 ^ 20 ∧ size = bs.length)), (0x0C, crcOk bs 0x0C),
   (0x13, zeroAt bs 0x13 1), (0x1E, zeroAt bs 0x1E 2), (0x3C, zeroAt bs 0x3C 4)] ++
  layoutTables.map (fun t => match t with | (c, n, lo, hi, _, _) => (c, decide (lo ≤ fieldAt bs c n ∧ fieldAt bs c n ≤ hi))) ++
  layoutTables.map (fun t => match t with
    | (c, n, _, _, o, _) => (o, decide (fieldAt bs o 4 % 16 = 0) && (decide (fieldAt bs c n ≠ 0) || decide (fieldAt bs o 4 = 0))))

/-- Tables outside SIZE or over one another; the header counts as a table. -/
def tableChecks (bs : List Byte) : List (Nat × Bool) :=
  let xs := tableExtents bs
  let heads := (0, 64) :: xs
  (List.range xs.length).map (fun i =>
    let x := xs.getD i (0, 0)
    (x.1, decide (x.1 + x.2 ≤ bs.length) && (heads.take (i + 1)).all (fun y => !extentsMeet x y)))

/-! ### Regions (R315, R316) -/

def rectAtByte (bs : List Byte) (o : Nat) : Rect :=
  ⟨fieldAt bs o 1, fieldAt bs (o + 1) 1, fieldAt bs (o + 2) 1, fieldAt bs (o + 3) 1⟩

/-- A rectangle within the rectangle of a job context. -/
def Job.covers (j : Job) (r : Rect) : Bool :=
  decide (8 * j.fy0 ≤ r.row0 ∧ r.row0 + r.rowsM1 < 8 * (j.fy0 + j.fh) ∧ 8 * j.fx0 ≤ r.col0 ∧
    r.col0 + r.colsM1 < 8 * (j.fx0 + j.fw))

def regionEntry (bs : List Byte) (o : Nat) : Region :=
  ⟨rectAtByte bs o, fieldAt bs (o + 4) 2, decide (fieldAt bs (o + 6) 1 = 1)⟩

def regionChecks (bs : List Byte) (j : Job) : List (Nat × Bool) :=
  let os := entriesOf bs 0
  (List.range os.length).map (fun i =>
    let o := os.getD i 0
    let r := regionEntry bs o
    (o, decide (fieldAt bs (o + 6) 1 ≤ 1) && zeroAt bs (o + 7) 9 && decide (r.image < (entriesOf bs 5).length) &&
      j.covers r.rect && (os.take i).all (fun p => !(rectAtByte bs p).meets r.rect)))

/-! ### Groups (R321) -/

def groupEntry (bs : List Byte) (o : Nat) : Group where
  group := fieldAt bs o 1
  strict := decide (fieldAt bs (o + 1) 1 = 1)
  site := fieldAt bs (o + 2) 1
  landLen := fieldAt bs (o + 6) 2
  landOff := fieldAt bs (o + 8) 4
  members := (List.range (fieldAt bs (o + 4) 2)).map (fun i => fieldAt bs (fieldAt bs (o + 12) 4 + 2 * i) 2)

def distinct : List Nat → Bool
  | [] => true
  | x :: r => !r.contains x && distinct r

/-- LANDLEN and LANDOFF of an entry (R258, R321). -/
def landOk (needed : Bool) (len off : Nat) : Bool :=
  if needed then decide (64 ≤ len ∧ len ≤ 4080 ∧ len % 16 = 0 ∧ off % 64 = 0) && inBank 3 off (64 * len)
  else decide (len = 0 ∧ off = 0)

/-- A core lies in a region of a class (R317). -/
def inClass (rs : List Region) (strict : Bool) (c : Nat) : Bool := rs.any (fun r => r.rect.holds c && r.strict = strict)

def groupOk (bs : List Byte) (build : Nat) (rs : List Region) (j : Job) (i o : Nat) : Bool :=
  let g := groupEntry bs o
  let n := g.members.length
  let at_ := fieldAt bs (o + 12) 4
  let pad := ceilDiv (2 * n) 16 * 16
  decide (g.group = i + 1 ∧ fieldAt bs (o + 1) 1 ≤ 1 ∧ g.site < 36) && isIoSite build g.site && zeroAt bs (o + 3) 1 &&
  decide (1 ≤ n ∧ n ≤ 4096 ∧ at_ + pad ≤ bs.length) && zeroAt bs (at_ + 2 * n) (pad - 2 * n) &&
  landOk (!g.strict && decide (2 ≤ n)) g.landLen g.landOff && distinct g.members &&
  g.members.all (fun c => decide (c < 4096) && j.holds c && inClass rs g.strict c)

def groupChecks (bs : List Byte) (build : Nat) (rs : List Region) (j : Job) : List (Nat × Bool) :=
  let os := entriesOf bs 1
  (List.range os.length).map (fun i => (os.getD i 0, groupOk bs build rs j i (os.getD i 0)))

/-! ### Tensors (R318, R319) -/

def tensorEntry (bs : List Byte) (o : Nat) : Tensor :=
  ⟨fieldAt bs o 4, fieldAt bs (o + 4) 2, fieldAt bs (o + 6) 2, fieldAt bs (o + 8) 4, fieldAt bs (o + 12) 4,
   fieldAt bs (o + 16) 1, fieldAt bs (o + 17) 1, fieldAt bs (o + 20) 4, fieldAt bs (o + 24) 8⟩

/-- KIND and POLICY (R319): 1 ACTIVATION, 2 PARAMETER, 3 GRADIENT, 4 STATE, 5 TOKENS, 6 OTHER. -/
def policyOk (kind policy mode : Nat) : Bool :=
  match policy with
  | 0 => decide (kind = 1 ∨ kind = 5 ∨ kind = 6 ∨ (kind = 2 ∧ mode = 2))
  | 1 | 2 => decide (kind = 1)
  | 3 => decide (kind = 4 ∨ kind = 5 ∨ kind = 6 ∨ (kind = 2 ∧ mode = 2))
  | 4 => decide (kind = 2)
  | 5 => decide (kind = 3)
  | _ => false

/-- ADDR as POLICY requires (R319). -/
def addrOk (j : Job) (kind policy a : Nat) : Bool :=
  match policy with
  | 1 => j.inKind rkOffload a 1
  | 3 =>
    if kind = 4 then j.inKind rkOwned a 1
    else j.inKind rkOwned a 1 || j.inKind rkPartner a 1 || j.inKind rkStaging a 1
  | _ => decide (a = 0)

/-- FMT of a tensor entry (R68): masters are W48, parameters are published with either rounding. An entry counts as one of a tensor
that is written, whatever its PRODUCER (R69). DESIGN CHOICE (assumption log 76). -/
def tensorFmt (t : Tensor) : Option FmtCode := parseFmt { update := decide (t.kind = 4), publish := decide (t.kind = 2) } t.fmt

def tensorOk (bs : List Byte) (j : Job) (o : Nat) : Bool :=
  let t := tensorEntry bs o
  decide (t.tensor ≠ 0 ∧ 1 ≤ t.rows ∧ 1 ≤ t.cols) &&
  (match tensorFmt t with
   | none => false
   | some f => !f.stoch || decide (t.rows ≤ 4194304 ∧ t.cols ≤ 4194304)) &&
  decide (t.producer < (entriesOf bs 0).length ∨ t.producer = 0xFFFF) && policyOk t.kind t.policy (fieldAt bs 7 1) &&
  zeroAt bs (o + 18) 2 && decide (if t.kind = 3 then t.bucket < 2 ^ 20 else t.bucket = 0) && addrOk j t.kind t.policy t.addr

def tensorChecks (bs : List Byte) (j : Job) : List (Nat × Bool) :=
  let os := entriesOf bs 2
  (List.range os.length).map (fun i =>
    let o := os.getD i 0
    (o, tensorOk bs j o && (os.take i).all (fun p => fieldAt bs p 4 ≠ fieldAt bs o 4)))

/-! ### Stream tables (R323) -/

def streamEntry (bs : List Byte) (o : Nat) : StreamEntry :=
  ⟨fieldAt bs o 2, fieldAt bs (o + 2) 1, fieldAt bs (o + 4) 4, fieldAt bs (o + 8) 8⟩

def streamChecks (bs : List Byte) (j : Job) : List (Nat × Bool) :=
  let os := entriesOf bs 3
  (List.range os.length).map (fun i =>
    let o := os.getD i 0
    let e := streamEntry bs o
    (o, decide (e.core < 4096 ∧ e.stream < 32 ∧ e.count ≤ 16777215 ∧ e.endWord / 2 ^ 48 % 2 ^ 14 = 0) && j.holds e.core &&
      endZero (e.endWord / 2 ^ 62) (e.endWord % 2 ^ 48) &&
      zeroAt bs (o + 3) 1 &&
      (os.take i).all (fun p => decide ((streamEntry bs p).core ≠ e.core ∨ (streamEntry bs p).stream ≠ e.stream))))

/-! ### Images (R324, R214) -/

def imageEntry (bs : List Byte) (o : Nat) : ImageEntry := ⟨fieldAt bs o 4, fieldAt bs (o + 4) 4⟩
def imageBytes (bs : List Byte) (o : Nat) : List Byte := (bs.drop (fieldAt bs o 4)).take (fieldAt bs (o + 4) 4)

/-- The directory entry itself (R324). -/
def imageEntryOk (bs : List Byte) (os : List Nat) (i : Nat) : Bool :=
  let o := os.getD i 0
  let e := imageEntry bs o
  decide (e.offset % 64 = 0 ∧ e.offset + e.size ≤ bs.length ∧ e.size = fieldAt bs (e.offset + 8) 4) && zeroAt bs (o + 8) 8 &&
  (os.take i).all (fun p => !extentsMeet (fieldAt bs p 4, fieldAt bs (p + 4) 4) (e.offset, e.size))

def imageChecks (bs : List Byte) : List (Nat × Bool) :=
  let os := entriesOf bs 5
  (List.range os.length).map (fun i => (os.getD i 0, imageEntryOk bs os i)) ++
  os.map (fun o => (fieldAt bs o 4, (parseImage (imageBytes bs o)).isSome))

/-- The first check of R214 that an image fails, numbered in its order from 1, and the offset in the image. -/
def imageFault (bs : List Byte) : Nat × Nat :=
  let n := fieldAt bs 6 2
  let size := fieldAt bs 8 4
  let os := (List.range n).map (fun i => 64 + 16 * i)
  let sec (o : Nat) : ImageSec := imageSecAt bs o
  let placed := os.filter (fun o => decide (1 ≤ (sec o).typ ∧ (sec o).typ ≤ 3))
  let code := os.filter (fun o => (sec o).typ = 1)
  let regs := os.filter (fun o => decide ((sec o).typ = 4 ∨ (sec o).typ = 5))
  let span (o : Nat) : Nat × Nat := ((sec o).offset, (sec o).length)
  let words := code.flatMap (fun o => (List.range ((sec o).length / 8)).map (fun k => (sec o).payload + 8 * k))
  let header : List (Nat × Nat × Bool) :=
    [(1, 0, decide (fieldAt bs 0 4 = 0x58445046)), (1, 4, decide (fieldAt bs 4 2 = 1)),
     (1, 8, decide (size % 64 = 0 ∧ size ≤ 2 ^ 23 ∧ size = bs.length)), (1, 12, crcOk bs 12),
     (9, 6, decide (1 ≤ n ∧ n ≤ 32 ∧ 64 + 16 * n ≤ bs.length))]
  let checks : List (Nat × Nat × Bool) := header ++
    os.map (fun o => (2, o, decide ((sec o).typ = 3 ∨ (sec o).payload + (sec o).length ≤ size))) ++
    placed.map (fun o => (3, o, inSpad (sec o).offset (sec o).length)) ++
    (List.range placed.length).map (fun i => (4, placed.getD i 0,
      (placed.take i).all (fun p => !extentsMeet (span p) (span (placed.getD i 0))))) ++
    code.map (fun o => (5, o, inOneBank (sec o).offset (sec o).length)) ++
    words.map (fun a => (6, a, legalWord (BitVec.ofNat 64 (fieldAt bs a 8)))) ++
    (List.range 3).map (fun c => (7, 16 + 8 * c,
      imageCtxOk (os.map sec) (imageCtxOf (fieldAt bs (16 + 8 * c) 8)))) ++
    (List.range regs.length).map (fun i => (8, regs.getD i 0, (regs.take i).all (fun p =>
      decide ((sec p).typ ≠ (sec (regs.getD i 0)).typ ∨ ((sec p).typ = 4 ∧ (sec p).ctx ≠ (sec (regs.getD i 0)).ctx))))) ++
    (List.range 4).map (fun c => (9, 16 + 8 * c, (parseImageCtx c (fieldAt bs (16 + 8 * c) 8)).isSome)) ++
    [(9, 48, zeroAt bs 48 16)] ++
    (List.range n).map (fun i => (9, 64 + 16 * i, (parseImageSec bs size i).isSome))
  ((checks.find? (fun x => !x.2.2)).map (fun x => (x.1, x.2.1))).getD (0, 0)

/-! ### Ring entries after a patch (R258, R326) -/

/-- What R258 requires of one entry of a group; an entry of role NONE has no landing area. -/
def ringEntryOk (g : Group) (w : RingEntry) : Bool :=
  if w.role = 0 then landOk false w.landLen w.landOff
  else (w.strict = g.strict && (!w.strict || decide (w.role = 1 ∧ w.skd = 1)) &&
   decide ((w.role = 2 → w.skd = 0) ∧ (w.role = 3 → w.skd = 1) ∧ 1 ≤ w.scred ∧ w.scred ≤ 4095) &&
   landOk (decide (w.role = 2 ∨ w.role = 3)) w.landLen w.landOff)

/-- The entries that patches give the cores of one group. -/
def patchEntries (g : Group) (ps : List Patch) : List (Nat × RingEntry) :=
  (ps.filter (fun p => p.group = g.group)).map (fun p => (p.core, ringOfWord p.entry))

/-- The members of one group, by core, with patches laid over them: the entries that are not of role NONE. -/
def patched (g : Group) (ps : List Patch) : List (Nat × RingEntry) :=
  let base := (List.range g.members.length).map (fun m => (g.members.getD m 0, g.ringEntry m))
  let mine := patchEntries g ps
  (base.filter (fun x => !(mine.any (fun y => y.1 = x.1))) ++ mine).filter (fun x => x.2.role ≠ 0)

/-- From a core on, the chain of a Standard group as far as it goes, and whether it ends at the group's site. -/
def chainFrom (es : List (Nat × RingEntry)) (site : Nat) (c : Nat) : Nat → List Nat × Bool
  | 0 => ([], false)
  | n + 1 =>
    match es.find? (fun x => x.1 = c) with
    | none => ([], false)
    | some x =>
      if x.2.skd = 1 then ([c], decide (x.2.succ = site ∧ x.2.scred = siteCredits false 1))
      else
        match es.find? (fun y => y.1 = x.2.succ) with
        | none => ([c], false)
        | some y =>
          let r := chainFrom es site x.2.succ n
          (c :: r.1, r.2 && decide (2 ≤ y.2.role ∧ x.2.scred = y.2.landLen))

/-- The group's entries satisfy R258, no hole is a member, and a Standard group forms one chain to its site (R326). -/
def groupStands (g : Group) (hole : Nat → Bool) (ps : List Patch) : Bool :=
  let es := patched g ps
  (patchEntries g ps).all (fun x => ringEntryOk g x.2) && es.all (fun x => ringEntryOk g x.2 && !hole x.1) &&
  (if g.strict then es.all (fun x => decide (x.2.succ = g.site ∧ x.2.scred = siteCredits true g.members.length))
   else
     match es.filter (fun x => x.2.role = 1) with
     | [h] =>
       let r := chainFrom es g.site h.1 es.length
       r.2 && decide (r.1.length = es.length)
     | _ => false)

/-! ### Fallbacks (R325, R326) -/

def patchList (bs : List Byte) (o : Nat) : List Patch :=
  if o = 0 then []
  else (List.range (fieldAt bs o 4)).map (fun i =>
    ⟨fieldAt bs (o + 16 + 16 * i) 2, fieldAt bs (o + 18 + 16 * i) 1, fieldAt bs (o + 24 + 16 * i) 8⟩)

def fallbackEntry (bs : List Byte) (o : Nat) : Fallback :=
  ⟨fieldAt bs o 2, fieldAt bs (o + 2) 1, fieldAt bs (o + 4) 2, fieldAt bs (o + 6) 2, rectAtByte bs (o + 8),
   patchList bs (fieldAt bs (o + 12) 4)⟩

/-- REGION, TRIGGER, ID as one number that orders them. -/
def fallbackKey (bs : List Byte) (o : Nat) : Nat :=
  (fieldAt bs o 2 * 2 ^ 8 + fieldAt bs (o + 2) 1) * 2 ^ 16 + fieldAt bs (o + 4) 2

/-- A field overlaps a rectangle. -/
def Rect.touchesField (r : Rect) (f : Nat) : Bool := r.meets ⟨f / 8 * 8, f % 8 * 8, 7, 7⟩

/-- The patch list itself. -/
def patchesOk (bs : List Byte) (j : Job) (ngrp o : Nat) : Bool :=
  decide (o = 0) ||
  (decide (1 ≤ fieldAt bs o 4 ∧ fieldAt bs o 4 ≤ 4096 ∧ o + 16 + 16 * fieldAt bs o 4 ≤ bs.length) && zeroAt bs (o + 4) 12 &&
   (List.range (fieldAt bs o 4)).all (fun i => zeroAt bs (o + 19 + 16 * i) 5 && decide (fieldAt bs (o + 24 + 16 * i) 8 % 2 = 0)) &&
   (patchList bs o).all (fun p => decide (p.core < 4096 ∧ 1 ≤ p.group ∧ p.group ≤ ngrp) && j.holds p.core))

def fallbackOk (bs : List Byte) (j : Job) (rs : List Region) (gs : List Group) (o : Nat) : Bool :=
  let f := fallbackEntry bs o
  match rs[f.region]? with
  | none => false
  | some r =>
    decide ((f.trigger = 1 ∧ f.id < 4096 ∧ r.rect.holds f.id = true) ∨
      (f.trigger = 2 ∧ f.id < 64 ∧ r.rect.touchesField f.id = true)) &&
    zeroAt bs (o + 3) 1 && decide (f.image < (entriesOf bs 5).length) && j.covers f.rect &&
    (rectCores f.rect).all (fun c => r.rect.holds c || rs.all (fun q => !q.rect.holds c)) &&
    patchesOk bs j gs.length (fieldAt bs (o + 12) 4) &&
    gs.all (fun g => groupStands g (fun c => f.hole c && f.rect.holds c) f.patches)

def fallbackChecks (bs : List Byte) (j : Job) (rs : List Region) (gs : List Group) : List (Nat × Bool) :=
  let os := entriesOf bs 4
  (List.range os.length).map (fun i =>
    let o := os.getD i 0
    (o, fallbackOk bs j rs gs o && (os.take i).all (fun p => decide (fallbackKey bs p < fallbackKey bs o))))

/-! ### Re-shard tables (R337) -/

def reshardEntry (bs : List Byte) (o : Nat) : Reshard :=
  ⟨decide (fieldAt bs o 1 = 1), fieldAt bs (o + 4) 4, fieldAt bs (o + 8) 8, fieldAt bs (o + 16) 8⟩

def reshardOk (bs : List Byte) (j : Job) (os : List Nat) (i : Nat) : Bool :=
  let o := os.getD i 0
  let e := reshardEntry bs o
  let span (r : Reshard) : Nat × Nat := (r.addr, r.bytes)
  decide (1 ≤ fieldAt bs o 1 ∧ fieldAt bs o 1 ≤ 2 ∧ e.addr % 64 = 0 ∧ e.bytes % 64 = 0 ∧ e.bytes ≠ 0) &&
  zeroAt bs (o + 1) 3 && zeroAt bs (o + 24) 8 && (entriesOf bs 2).any (fun p => fieldAt bs p 4 = e.tensor) &&
  (if e.out then (j.regionOf e.addr e.bytes).isSome
   else j.inKind rkOwned e.addr e.bytes || j.inKind rkPartner e.addr e.bytes || j.inKind rkStaging e.addr e.bytes) &&
  (os.take i).all (fun p =>
    let q := reshardEntry bs p
    (q.out && e.out) || !extentsMeet (span q) (span e))

def reshardChecks (bs : List Byte) (j : Job) : List (Nat × Bool) :=
  let os := entriesOf bs 6
  (List.range os.length).map (fun i => (os.getD i 0, reshardOk bs j os i))

/-! ### The whole manifest (R314) -/

/-- DEDUCED: the order of the checks (assumption log 45). -/
def layoutOf (bs : List Byte) : Layout where
  phase := fieldAt bs 6 1
  mode := fieldAt bs 7 1
  regions := (entriesOf bs 0).map (regionEntry bs)
  groups := (entriesOf bs 1).map (groupEntry bs)
  tensors := (entriesOf bs 2).map (tensorEntry bs)
  streams := (entriesOf bs 3).map (streamEntry bs)
  fallbacks := (entriesOf bs 4).map (fallbackEntry bs)
  images := (entriesOf bs 5).map (imageEntry bs)
  reshards := (entriesOf bs 6).map (reshardEntry bs)

/-- The layout, or the offset of the first failing item: header, tables, entries table by table in header order, images. -/
def parseLayout (build : Nat) (j : Job) (bs : List Byte) : Except Nat Layout :=
  match firstBad (layoutHeader bs) with
  | some o => .error o
  | none =>
    match firstBad (tableChecks bs) with
    | some o => .error o
    | none =>
      let l := layoutOf bs
      match firstBad (regionChecks bs j ++ groupChecks bs build l.regions j ++ tensorChecks bs j ++ streamChecks bs j ++
          fallbackChecks bs j l.regions l.groups ++ imageChecks bs ++ reshardChecks bs j) with
      | some o => .error o
      | none => .ok l

end Sys2Proof.Machine
end

