-- ==== Sys2Proof/Machine/Layouts.lean ====
section
/-! DEFINITION. The commands that load jobs and layouts, and the phase switch (spec/10 R309 to R314, R333 to R338, spec/08
R255, spec/12 R409, spec/14 R462). -/

namespace Sys2Proof.Machine

/-! ### JOB_LOAD (R309) -/

/-- LAYOUT_REJECTED (R339). A job manifest names no slot: 0xFF. -/
def State.layoutRejected (s : State) (c : Cmd) (slot st off : Nat) : State :=
  (s.record .layoutRejected .hid [(1, c.e.job), (1, slot), (1, st), (4, off)]).done c st 0 0

/-- The region's rectangle of fields overlaps that of a job context that is not EMPTY. -/
def JobManifest.overlaps (m : JobManifest) (j : Job) : Bool :=
  j.st ≠ .empty && decide (m.fy0 < j.fy0 + j.fh ∧ j.fy0 < m.fy0 + m.fh ∧ m.fx0 < j.fx0 + j.fw ∧ j.fx0 < m.fx0 + m.fw)

/-- What other job contexts hold against a manifest: RESOURCE. -/
def State.manifestClash (s : State) (m : JobManifest) : Bool :=
  let mine := m.regions.filter (fun r => r.kind ≠ 0)
  let others := s.regionTable.filter (fun r => r.kind ≠ 0)
  (List.range 8).any (fun j => m.overlaps (s.job j)) || mine.any (fun r => others.any (fun q => r.meets q)) ||
  decide (64 < mine.length + others.length)

/-- An accepted manifest (R309); JOB counters and LAST_CLEAN start afresh (R435, R573). -/
def State.acceptJob (s : State) (j : Nat) (m : JobManifest) : State :=
  let s1 := s.setJob j { st := .loaded, fy0 := m.fy0, fx0 := m.fx0, fh := m.fh, fw := m.fw, regions := m.regions,
                         lstore := m.lstore, lsgran := m.lsgran }
  let s2 := s1.modCores (s1.job j).cores (fun c => { c with lastClean := 0, passedSteps := [], failedSteps := [] })
  { s2 with obs := { s2.obs with jobs := Tab.set {} s2.obs.jobs j (Tab.get {} s2.obs.jobs j).reset } }

def execJobLoad (ring : Fin 64) (s : State) : Host.Outcome State Fault Refusal :=
  .next (s.takeCommand ring.val ocJobLoad (fun c t =>
    let bs := t.blockOf c.e
    match firstBad (jobChecks bs c.e.job t.stackEnd) with
    | some o => t.layoutRejected c 0xFF stMalformed o
    | none =>
      if t.manifestClash (manifestOf bs) then t.layoutRejected c 0xFF stResource 0
      else (t.acceptJob c.e.job (manifestOf bs)).done c stDone 0 0))

/-! ### LAYOUT_LOAD and LAYOUT_DROP (R311 to R314) -/

/-- Granules of the layout store that slots hold: first and count. -/
def Job.stored (j : Job) : List (Nat × Nat) :=
  (List.range 4).filterMap (fun k => (j.slot k).map (fun x => (x.granule, x.granules)))

/-- The first free extent of the store that is large enough; it begins at 0 or where a stored manifest ends.
DEDUCED: first fit (assumption log 46). -/
def Job.findStore (j : Job) (n : Nat) : Option Nat :=
  (List.range (j.lsgran + 1)).find? (fun g =>
    (g = 0 || j.stored.any (fun x => decide (x.1 + x.2 = g))) && decide (g + n ≤ j.lsgran) &&
    j.stored.all (fun x => !extentsMeet x (g, n)))

/-- A slot that may not be changed: the active one, or the target of a running switch. -/
def Job.slotBusy (j : Job) (k : Nat) : Bool := decide (j.active = some k) || j.switch.any (fun w => w.slot = k)

/-- The first region that names an image, in the region table or else in the fallback table; 0xFFFF where none does (R216).
DEDUCED (assumption log 45). -/
def imageRegion (bs : List Byte) (i : Nat) : Nat :=
  let l := layoutOf bs
  let named (k : Nat) : Bool := (l.regions[k]?).any (fun q => q.image = i)
  ((List.range l.regions.length).find? named).getD
    (((l.fallbacks.find? (fun f => f.image = i)).map (·.region)).getD 0xFFFF)

/-- IMAGE_REJECTED for every image that fails R214: its first region, the check, the offset in it. Images are found where the
header and the tables stand (R314, R324). -/
def State.imagesRejected (s : State) (bs : List Byte) : State :=
  let os := entriesOf bs 5
  if (firstBad (layoutHeader bs)).isSome || (firstBad (tableChecks bs)).isSome then s
  else
    ((List.range os.length).filter (fun i => (parseImage (imageBytes bs (os.getD i 0))).isNone)).foldl (fun t i =>
      let f := imageFault (imageBytes bs (os.getD i 0))
      t.record .imageRejected .hid [(2, imageRegion bs i), (1, f.1), (4, f.2)]) s

def execLayoutLoad (ring : Fin 64) (s : State) : Host.Outcome State Fault Refusal :=
  .next (s.takeCommand ring.val ocLayoutLoad (fun c t =>
    let j := c.e.job
    let x := t.job j
    let k := c.e.arg0 % 4
    let n := ceilDiv c.e.blen 4096
    if x.active = some k then t.done c stState 0 0
    else
      match x.findStore n with
      | none => t.done c stResource 0 0
      | some g =>
        let bs := t.blockOf c.e
        let t1 := t.store (x.lstore + 4096 * g) bs
        match parseLayout t.build x bs with
        | .error o => (t1.imagesRejected bs).layoutRejected c k stMalformed o
        | .ok l => (t1.modJob j (fun y => { y with slots := Tab.set none y.slots k (some ⟨g, n, l⟩) })).done c stDone 0 0))

def execLayoutDrop (ring : Fin 64) (s : State) : Host.Outcome State Fault Refusal :=
  .next (s.takeCommand ring.val ocLayoutDrop (fun c t =>
    let k := c.e.arg0 % 4
    if (t.job c.e.job).slotBusy k then t.done c stState 0 0
    else (t.modJob c.e.job (fun y => { y with slots := Tab.set none y.slots k none })).done c stDone 0 0))

/-! ### PHASE_SWITCH (R333, R334, R338, R409) -/

/-- No stream of the job context is RUNNING or HELD. -/
def State.streamsIdle (s : State) (j : Nat) : Bool :=
  (s.job j).cores.all (fun c => (s.core c).streams.all (fun p => p.2.st ≠ .running && p.2.st ≠ .held))

/-- A 7-group layout would change the mode while another job context runs (R255). -/
def State.modeRefused (s : State) (j : Nat) (l : Layout) : Bool :=
  decide (l.groups.length = 7) && !s.net.expansive && (List.range 8).any (fun k => k ≠ j && (s.job k).st = .running)

/-- A group names an I/O die site that is fenced (R462). -/
def State.groupFenced (s : State) (l : Layout) : Bool := l.groups.any (fun g => (s.ioSite g.site).fenced)

/-- The status of the first check of R333 that fails; the variants otherwise.
DEDUCED: a running switch (assumption log 46). -/
def State.switchCheck (s : State) (j k : Nat) : Except Nat (List (Nat × Nat)) :=
  let x := s.job j
  match x.slot k with
  | none => .error stState
  | some q =>
    if x.switch.isSome || !s.streamsIdle j || !s.streamsEligible q.layout then .error stState
    else if s.modeRefused j q.layout || s.groupFenced q.layout then .error stResource
    else
      match s.variantsOf q.layout with
      | .ok vs => .ok vs
      | .error _ => .error stResource

/-- One 4 KiB block of an OUT sequence: its site reads the bytes, which then leave as PERMUTE (R397, R409). -/
def State.sendBlock (s : State) (j g tensor : Nat) (e : List (Nat × Nat)) (off : Nat) : State :=
  let sites := s.ioSites.filter (fun i => !(s.upPorts i).isEmpty)
  let site := sites.getD (off / 4096 % max 1 sites.length) s.firstUpSite
  match seqPieces e off (min 4096 (seqLength e - off)) with
  | none => s
  | some ps => (s.ioRead site j ps (.permuteOut g tensor off)).getD s

/-- Blocks of one direction of a re-shard: tensor and offset. -/
def Layout.blocks (l : Layout) (out : Bool) : List (Nat × Nat) :=
  (l.reshardTensors out).flatMap (fun t => (blockOffsets (seqLength (l.extents out t))).map (fun o => (t, o)))

/-- Step 1 of R334: the re-shard begins. -/
def State.startReshard (s : State) (j : Nat) (l : Layout) : State :=
  match (s.job j).fgroup with
  | none => s
  | some g => (l.blocks true).foldl (fun a b => a.sendBlock j g b.1 (l.extents true b.1) b.2) s

def State.startSwitch (s : State) (j : Nat) (q : Slot) (w : Switch) (reshard : Bool) : State :=
  if reshard then
    let ins := (q.layout.reshardTensors false).map (fun t => (t, 0, seqLength (q.layout.extents false t)))
    ((s.modJob j (fun y => { y with switch := some { w with
      reshard := true, outLeft := q.layout.blocks true, inLeft := ins } })).startReshard j q.layout).reshardProgress j
  else (s.modJob j (fun y => { y with switch := some w })).reshardProgress j

def execPhaseSwitch (ring : Fin 64) (s : State) : Host.Outcome State Fault Refusal :=
  .next (s.takeCommand ring.val ocPhaseSwitch (fun c t =>
    let j := c.e.job
    let k := c.e.arg0 % 4
    match t.switchCheck j k, (t.job j).slot k with
    | .ok vs, some q =>
      t.startSwitch j q { slot := k, ring := c.ring, taking := c.id, started := t.time, variants := vs }
        (decide (c.e.arg0 / 256 % 2 = 1))
    | .error st, _ => t.done c st 0 0
    | _, none => t.done c stState 0 0))

end Sys2Proof.Machine
end

