-- ==== Sys2Proof/Machine/Jobs.lean ====
section
/-! DEFINITION. The commands that empty, bind, run and stop a job context, and the fabric group record (spec/10 R310,
spec/11 R363, spec/12 R391, R392, spec/15 R493). -/

namespace Sys2Proof.Machine

/-! ### JOB_EMPTY (R310) -/

/-- One core of a rectangle that is given up: contexts IDLE, streams UNSET, ring entries NONE. What its engines hold of the contexts
ends with them. DEDUCED (assumption log 47). -/
def Core.vacate (c : Core) : Core :=
  let d := (c.idleCtxs.setCtx 3 { c.ctx 3 with st := .idle, wait := .none, enabled := false }).clearRings
  { d with
    ctxs := d.ctxs.map (fun p => (p.1, { p.2 with firstNonfinite := false }))
    streams := []
    matNext := none
    fetch := none
    xfers := []
    waiters := []
    held := false }

/-- What the rest of the device holds of a job context: part-formed chunks, orders, partner copies, the BAR2 window. -/
def State.forgetJob (s : State) (j : Nat) : State :=
  let s1 := (s.snapOrders j).foldl (fun a o => o.by_.foldl (fun b q => b.finish q.1 q.2 stState 0 0) a) (s.dropChunks j)
  { s1.setOrders j [] with
    recov := { (s1.setOrders j []).recov with
      partner := Tab.set none s1.recov.partner j none
      copying := Tab.set none s1.recov.copying j none }
    host := { s1.host with windowJob := if s1.host.windowJob = some j then none else s1.host.windowJob } }

/-- DEDUCED (assumption log 47). -/
def State.emptyJob (s : State) (j : Nat) : State :=
  let s1 := (s.abortSteps j stFault (fun _ => true)).forgetJob j
  let s2 := s1.modCores (s1.job j).cores Core.vacate
  (s2.setJob j {}).settleMode

def execJobEmpty (ring : Fin 64) (s : State) : Host.Outcome State Fault Refusal :=
  .next (s.takeCommand ring.val ocJobEmpty (fun c t =>
    let j := c.e.job
    let t1 := t.finishAll stFault (fun q => q.entry.job = j && q.id ≠ c.id && q.entry.opcode ≠ opcStep)
    (t1.emptyJob j).done c stDone 0 0))

/-! ### Fabric groups and bindings (R391, R392) -/

/-- A fabric group record: its number and the group; none where it breaks R391. -/
def parseGroup (bs : List Byte) : Option (Nat × FGroup) :=
  let n := fieldAt bs 1 1
  let member := fieldAt bs 2 2
  let members := fieldAt bs 4 2
  let os := (List.range n).map (fun i => 0x90 + 8 * i)
  let live := maskMembers ((bs.drop 0x10).take 128)
  let mac (o : Nat) : Nat := ((bs.drop o).take 6).foldl (fun a b => 256 * a + b.toNat) 0
  if fieldAt bs 0 1 < 64 && decide (1 ≤ n ∧ member < 1024 ∧ 1 ≤ members ∧ members ≤ 1024 ∧ member < members) &&
      zeroAt bs 6 2 && zeroAt bs 12 4 && live.contains member && os.all (fun o => zeroAt bs (o + 6) 2) then
    some (fieldAt bs 0 1, { member := member, members := members, epoch := fieldAt bs 8 4, live := live, servers := os.map mac })
  else none

/-- Load a group. A connection is named by the member too (R383): another member's are new ones. -/
def State.loadGroup (s : State) (g : Nat) (x : FGroup) : State :=
  let same := (s.group g).any (fun y => y.member = x.member)
  { s with fabric := { s.fabric with
    groups := Tab.set none s.fabric.groups g (some x)
    conns := if same then s.fabric.conns else s.fabric.conns.filter (fun c => c.group ≠ g) } }

def execFabricGroup (ring : Fin 64) (s : State) : Host.Outcome State Fault Refusal :=
  .next (s.takeCommand ring.val ocFabricGroup (fun c t =>
    let bs := t.blockOf c.e
    if !(t.boundJobs (fieldAt bs 0 1 % 64)).isEmpty then t.done c stState 0 0
    else
      match parseGroup bs with
      | none => t.done c stMalformed 0 0
      | some q => (t.loadGroup q.1 q.2).done c stDone 0 0))

/-- A binding: FGROUP, ZUNIT and the owned ranges; none where the record breaks R392. -/
def State.parseBinding (s : State) (x : Job) (bs : List Byte) : Option (Nat × Nat × List OwnedRange) :=
  let g := fieldAt bs 0 1
  let z := fieldAt bs 1 1
  match parseRanges (bs.drop 16) (fieldAt bs 2 2) with
  | none => none
  | some rs =>
    if decide (g < 64 ∧ 1 ≤ z ∧ z ≤ 64) && (s.group g).isSome && zeroAt bs 4 12 && s.rangesOk { x with zunit := z } rs then
      some (g, z, rs)
    else none

def execJobFabric (ring : Fin 64) (s : State) : Host.Outcome State Fault Refusal :=
  .next (s.takeCommand ring.val ocJobFabric (fun c t =>
    match t.parseBinding (t.job c.e.job) (t.blockOf c.e) with
    | none => t.done c stMalformed 0 0
    | some q =>
      (t.modJob c.e.job (fun y => { y with fgroup := some q.1, zunit := q.2.1, owned := q.2.2 })).done c stDone 0 0))

/-! ### JOB_RUN and JOB_STOP (R493, R363) -/

/-- The start reaches every core of a job context in one broadcast. -/
def State.startCores (s : State) (j : Nat) : State := (s.toAll (.start j)).serveMesh

/-- JOB_RUN of a job context with an active layout: reload where no switch is fresh, then start. -/
def State.runJob (s : State) (j k : Nat) (q : Slot) : State :=
  let x := s.job j
  let s1 := if x.switchFresh then s else s.activate j k q x.variants
  (s1.startCores j).modJob j (fun y => { y with st := .running, dropped := false })

def execJobRun (ring : Fin 64) (s : State) : Host.Outcome State Fault Refusal :=
  .next (s.takeCommand ring.val ocJobRun (fun c t =>
    let x := t.job c.e.job
    match x.active, x.activeSlot with
    | some k, some q =>
      if x.switch.isSome then t.done c stState 0 0 else (t.runJob c.e.job k q).done c stDone 0 0
    | _, _ => t.done c stState 0 0))

/-- A step that does not let the job context stop (R363). -/
def StepRun.holdsJob (r : StepRun) : Bool :=
  match r.st with
  | .open_ => true
  | .backwardDone | .normKnown => !r.temper
  | _ => false

/-- Step 2 of JOB_STOP, as SSTOP does. -/
def Core.stopAll (c : Core) : Core := (List.range 32).foldl (fun a n => a.sstop 4 n) c.haltAll

/-- The stop ends when no stream has a granule in flight (R493 steps 3 and 4). -/
def State.stopProgress (s : State) (j : Nat) : State :=
  match (s.job j).stopping with
  | none => s
  | some q =>
    if s.streamsIdle j then
      ((s.modJob j (fun y => { y with st := .loaded, stopping := none, switchFresh := false })).settleMode).finish q.1 q.2 stDone 0 0
    else s

def execJobStop (ring : Fin 64) (s : State) : Host.Outcome State Fault Refusal :=
  .next (s.takeCommand ring.val ocJobStop (fun c t =>
    let j := c.e.job
    let x := t.job j
    if x.stopping.isSome || x.steps.any (·.holdsJob) then t.done c stState 0 0
    else
      (((t.modCores x.cores Core.stopAll).forgetHalted x.cores).modJob j (fun y => { y with stopping := some (c.ring, c.id) })).stopProgress j))

end Sys2Proof.Machine
end

