-- ==== Sys2Proof/Machine/StreamMove.lean ====
section
/-! DEFINITION. How a stream moves: EMPTY waits, pieces of rows, requests, arriving data and completion records, chunk
conditions, and faults (spec/07 R217, R230 to R240, spec/08 R259, R261, spec/09 R287 to R289). -/

namespace Sys2Proof.Machine

/-! ### States, chunks and faults -/

/-- The code of a stream's state (R226). -/
def StreamState.code : StreamState → Nat
  | .unset => 0 | .armed => 1 | .running => 2 | .done => 3 | .stopped => 4 | .held => 5 | .faulted => 6

/-- A STREAM trace record (R581). -/
def State.traceStream (s : State) (c n : Nat) : State :=
  let x := (s.core c).stream n
  s.trace 4 (.core c) x.ctx (n * 2 ^ 59 + x.st.code * 2 ^ 56 + x.chunks % 2 ^ 24 * 2 ^ 32)

/-- Put a stream into a state, with its trace record. -/
def State.streamTo (s : State) (c n : Nat) (f : Stream → Stream) : State := (s.modStream c n f).traceStream c n

/-- Causes of a stream fault (R239). -/
def sfAddress : Nat := 1
def sfUncorrectable : Nat := 2
def sfVersion : Nat := 3

/-- A stream fault at a chunk: the stream stops and is recorded (R239, R241). -/
def State.stopFaulted (s : State) (c n cause chunk : Nat) : State :=
  let x := (s.core c).stream n
  let s1 := s.modCore c (fun k =>
    { k.setStream n { x with st := .faulted, cause := cause, emptyListed := false, stopping := [] } with
      waiters := k.waiters.filter (fun w => w.2.1 ≠ Waiter.stream n) })
  (s1.traceStream c n).record .streamFault (.core c) [(2, c), (1, n), (1, cause), (1, x.ctx), (4, chunk)]

/-- The chunk that a stream moves next. -/
def Stream.chunkAt (x : Stream) : Nat := x.row / x.desc.chunk

/-- Cause ADDRESS: the starter faults at its head and its job context fails (R239, R209, R210). -/
def State.faultAddress (s : State) (c n chunk : Nat) : State :=
  let k := ((s.core c).stream n).ctx
  let s1 := s.stopFaulted c n sfAddress chunk
  (s1.record .programStateError (.core c) [(2, c), (1, k), (4, (s1.ctx c k).pc), (1, ceAddress)]).faultCtx c k

/-- Cause UNCORRECTABLE of a word that arrived: the data are LOST (R239, R429). -/
def State.faultArrived (s : State) (c n chunk addr : Nat) : State :=
  ((s.stopFaulted c n sfUncorrectable chunk).record .streamUncorrectable (.core c) [(2, c), (1, n), (8, addr)]).lostCore c
    false

/-- Cause UNCORRECTABLE of a word of an own-bank piece: that word is tested, and its data are LOST (R46, R239, R241, R429). -/
def State.faultOwn (s : State) (c n off len : Nat) : State :=
  let x := (s.core c).stream n
  let bad := ((s.checkWords (wordsOf (windowAddr c off) len)).bad.map (32 * ·)).getD (windowAddr c off)
  let s1 := (s.stopFaulted c n sfUncorrectable x.chunkAt).record .streamUncorrectable (.core c) [(2, c), (1, n), (8, bad)]
  ((s1.record .spadUncorrectable (.core c) []).classify c cpSpad x.ctx 0xFFFF false).lostCore c true

/-- Cause VERSION of a GATHER (R239, R240, R367). -/
def State.faultVersion (s : State) (c n chunk want got : Nat) : State :=
  let x := (s.core c).stream n
  let s1 := (s.stopFaulted c n sfVersion chunk).record .gatherVersionMismatch (.core c)
    [(2, c), (1, n), (4, x.desc.tensor), (4, want), (4, got), (4, s.stepOf c)]
  match s1.jobOf c with
  | some j => s1.versionFault j x.desc.tensor want got
  | none => s1

/-! ### The EMPTY wait (R232) -/

/-- The stream has reached the first byte of a chunk. -/
def Stream.atChunk (x : Stream) : Bool := decide (x.byte = 0 ∧ x.row % x.desc.chunk = 0)

/-- Reach a chunk's EMPTY wait: served at once where no waiter is listed and the value allows it, else listed. -/
def State.reachEmpty (s : State) (c n : Nat) : State :=
  let x := (s.core c).stream n
  let m := x.desc.emptySem
  if !(s.core c).hasWaiter m && decide (1 ≤ ((s.core c).sem m).value) then
    (s.semTake c m 1).modStream c n (fun y => { y with emptyServed := true })
  else
    (s.modCore c (fun k => { k with waiters := k.waiters ++ [(m, .stream n, 1)] })).modStream c n
      (fun y => { y with emptyListed := true })

/-- Whether the stream must still wait on EMPTYSEM. -/
def Stream.needsEmpty (x : Stream) : Bool := x.desc.empty && x.atChunk && !x.emptyServed

/-- Move the position n bytes on; a chunk's EMPTY wait ends with its last byte. -/
def Stream.advance (x : Stream) (n : Nat) : Stream :=
  if x.byte + n < x.desc.rb then { x with byte := x.byte + n }
  else
    let y := { x with byte := 0, row := x.row + 1 }
    if (x.row + 1) % x.desc.chunk = 0 then { y with emptyServed := false } else y

/-! ### Pieces -/

/-- Whether the piece of n bytes is the last of its chunk. -/
def Stream.lastOfChunk (x : Stream) (n : Nat) : Bool :=
  decide (x.byte + n = x.desc.rb) && (decide ((x.row + 1) % x.desc.chunk = 0) || decide (x.row + 1 = x.desc.rows))

def toBoundary (p B : Nat) : Nat := B - p % B

/-- Bytes of the next piece of a row at p and q: one granule, or one word where the row is not 64-byte aligned at an end
(R230). -/
def Stream.piece (x : Stream) (p q : Nat) : Nat :=
  min (if (p - x.byte) % 64 = 0 && decide ((q - x.byte) % 64 = 0) then 64 else 32) (x.desc.rb - x.byte)

/-- The bytes of the next request, which stay within one 4 KiB granule of the source (R231). -/
def Stream.requestPiece (x : Stream) (p : Nat) : Nat := min (toBoundary p 4096) (x.desc.rb - x.byte)

/-- Word enables of n bytes at an offset (R243). -/
def wordEnables (q n : Nat) : Nat := (if q % 64 = 0 then 1 else 0) + (if 64 ≤ q % 64 + n then 2 else 0)

/-- The destination core of a REL or ABS end, and the offset there (R218); none outside the wafer. -/
def farCore (c mode p : Nat) : Option (Nat × Nat) :=
  let off := p % 2 ^ 23
  if mode = modeAbs then some (p / 2 ^ 32 % 2 ^ 12, off)
  else
    let sx (b : Nat) : Int := if 128 ≤ b then (b : Int) - 256 else b
    let r := (coreRow c : Int) + sx (p / 2 ^ 40 % 256)
    let k := (coreCol c : Int) + sx (p / 2 ^ 32 % 256)
    if 0 ≤ r ∧ r < 64 ∧ 0 ≤ k ∧ k < 64 then some (r.toNat * 64 + k.toNat, off) else none

/-- Read an own-bank piece and go on with it; an uncorrectable word is never sent (R239). -/
def State.withOwn (s : State) (c n off len : Nat) (f : State → List Byte → State) : State :=
  match s.spadRead c off len with
  | (s1, some bs) => f s1 bs
  | (s1, none) => s1.faultOwn c n off len

/-- LOCAL: one granule from bank to bank. -/
def State.moveLocal (s : State) (c n : Nat) (x : Stream) : State :=
  let p := x.desc.srcPos x.row + x.byte
  let q := x.desc.dstPos x.row + x.byte
  let len := x.piece p q
  s.withOwn c n p len (fun t bs => (t.spadStore c q bs).modStream c n (fun y => y.advance len))

/-- PUSH: one flit to the destination core, the chunk's last one carrying the increment (R233). -/
def State.movePush (s : State) (c n : Nat) (x : Stream) : State :=
  let p := x.desc.srcPos x.row + x.byte
  let e := x.desc.dstPos x.row
  match farCore c x.desc.dstMode e with
  | none => s.faultAddress c n x.chunkAt
  | some (d, off) =>
    let q := off + x.byte
    let len := x.piece p q
    s.withOwn c n p len (fun t bs =>
      let f := mkFlit 7 kCore d kCore c opWrite (q / 64) (List.replicate (q % 64) 0 ++ bs)
      let g : Flit := { f with
        wen := BitVec.ofNat 2 (wordEnables q len)
        last := x.desc.full && x.lastOfChunk len
        sem := if x.desc.full && x.lastOfChunk len then BitVec.ofNat 6 x.desc.fullSem else 0 }
      (t.sendFromCore c g).modStream c n (fun y => y.advance len))

/-- The payload of a GATHER request (R395). -/
def gatherRequest (ctx len tensor offset doff version plane : Nat) : List Byte :=
  leBytes 1 0x10 ++ leBytes 1 ctx ++ leBytes 2 len ++ leBytes 4 tensor ++ leBytes 8 offset ++ leBytes 4 doff ++
    leBytes 4 version ++ leBytes 20 0 ++ leBytes 1 plane

/-- The payload of a CONTRIB_OPEN (R395, R398). -/
def openRequest (ctx tensor offset bytes group : Nat) : List Byte :=
  leBytes 1 0x11 ++ leBytes 1 ctx ++ leBytes 2 0 ++ leBytes 4 tensor ++ leBytes 8 offset ++ leBytes 8 0 ++
    leBytes 8 bytes ++ leBytes 13 0 ++ leBytes 1 group

/-- The peer that a device address names: the HID for host memory, a site by its window, a stack site by the interleave
(R20, R285, R292). -/
def State.siteOfAddr (s : State) (a : Nat) : Nat :=
  if hostBase ≤ a then 36 else if siteBase ≤ a then (a - siteBase) / 2 ^ 24 else s.stackOf a

/-- Room for one more request of a stream and its granules (R231). -/
def State.roomFor (s : State) (c : Nat) (x : Stream) (len : Nat) : Bool :=
  decide (x.reqs.length < 64) &&
  decide (((s.core c).streams.map (fun p => (p.2.reqs.map (·.left)).sum)).sum + len ≤ 4096)

/-- A request for the piece of a row that starts at p and lands at q (R231). -/
def Stream.request (x : Stream) (site tag doff p q len left : Nat) : Request where
  site := site
  addr := p / 64 * 64
  len := ceilDiv (p % 64 + len) 64
  doff := doff
  tag := tag
  chunk := x.row / x.desc.chunk
  rowStart := p
  rowBytes := len
  land := q
  left := left

/-- A FAR extent has left the addresses that a stream may reach: recorded where it is unmapped, and the stream faults (R23,
R239). -/
def State.leaveFar (s : State) (c n : Nat) (x : Stream) (a len : Nat) (write : Bool) : State :=
  (s.noteAccess (.core c) a len write).faultAddress c n x.chunkAt

/-- LOAD: a READ request to a stack site, or to the HID for host memory (R20, R287). DESIGN CHOICE for the HID's requests
(assumption log 66). -/
def State.moveLoad (s : State) (c n : Nat) (x : Stream) : State :=
  let p := x.desc.srcPos x.row + x.byte
  let q := x.desc.dstPos x.row + x.byte
  let len := x.requestPiece p
  let g := ceilDiv (p % 64 + len) 64
  if !s.roomFor c x g then s
  else if !(inHost p len || s.inStack p len || s.inSiteWindow p len) then s.leaveFar c n x p len false
  else
    let site := s.siteOfAddr p
    let doff := q / 64 * 64
    let r := x.request site 0 doff p q len g
    (s.sendFromCore c (siteReqFlit c site (stackRequest 1 x.ctx g r.addr doff 0))).modStream c n
      (fun y => { y.advance len with reqs := y.reqs ++ [r] })

/-- STORE: a WRITE request and its data flit, to a stack site or the HID (R20, R287, R288). -/
def State.moveStore (s : State) (c n : Nat) (x : Stream) : State :=
  let p := x.desc.srcPos x.row + x.byte
  let q := x.desc.dstPos x.row + x.byte
  let len := x.piece p q
  if !decide (x.reqs.length < 64) then s
  else if !(inHost q len || s.inStack q len) then s.leaveFar c n x q len true
  else
    s.withOwn c n p len (fun t bs =>
      let site := t.siteOfAddr q
      let tag := (t.core c).nextTag
      let r := { x.request site tag 0 q q len 0 with addr := q / 64 * 64, len := 1 }
      let d : Flit := { writeDataFlit c site tag (List.replicate (q % 64) 0 ++ bs) with
        wen := BitVec.ofNat 2 (wordEnables q len) }
      let t1 := (t.sendFromCore c (siteReqFlit c site (stackRequest 2 x.ctx 1 (q / 64 * 64) 0 tag))).sendFromCore c d
      (t1.modCore c (fun k => { k with nextTag := (tag + 1) % 2 ^ 23 })).modStream c n
        (fun y => { y.advance len with reqs := y.reqs ++ [r] }))

/-- GATHER: a request to the I/O die site (R217, R231, R395). -/
def State.moveGather (s : State) (c n : Nat) (x : Stream) : State :=
  let p := x.desc.srcPos x.row + x.byte
  let q := x.desc.dstPos x.row + x.byte
  let len := x.requestPiece p
  let g := ceilDiv (p % 64 + len) 64
  if !s.roomFor c x g then s
  else
    let doff := q / 64 * 64
    let v := match x.expect with
      | some e => e
      | none => x.desc.version
    let r := x.request x.desc.site 0 doff p q len g
    (s.sendFromCore c (siteReqFlit c x.desc.site (gatherRequest x.ctx g x.desc.tensor r.addr doff v x.desc.plane))).modStream
      c n (fun y => { y.advance len with reqs := y.reqs ++ [r] })

/-- A granule of a CONTRIB stream goes to the successor, or to the router's join (R259). -/
def State.emitContrib (s : State) (c : Nat) (x : Stream) (bs : List Byte) : Option State :=
  let g := x.desc.site
  let e := (s.core c).ring g
  let j := (s.core c).join g
  if e.role = 1 then
    if j.credits = 0 then none
    else
      let f := mkFlit (vcOfGroup g) (if e.skd = 1 then kSite else kCore) e.succ kCore c
        (if e.strict then opStrict else opRed) (x.seq % 2 ^ 17) bs
      some ((s.modCore c (fun k => k.setJoin g { k.join g with credits := j.credits - 1 })).sendFromCore c f)
  else if 4 ≤ j.locals.length then none
  else some (s.modCore c (fun k => k.setJoin g { k.join g with locals := (k.join g).locals ++ [(x.seq, bs)] }))

/-- The first byte of a CONTRIB stream towards a site is preceded by CONTRIB_OPEN (R398). -/
def State.openContrib (s : State) (c : Nat) (x : Stream) : State :=
  let e := (s.core c).ring x.desc.site
  if e.skd = 1 && decide (x.row = 0 ∧ x.byte = 0 ∧ x.seq = 0) && x.part.isEmpty then
    s.sendFromCore c (siteReqFlit c e.succ
      (openRequest x.ctx x.desc.tensor x.desc.dst (x.desc.rows * x.desc.rb) x.desc.site))
  else s

/-- CONTRIB: rows packed into granules (R259). -/
def State.moveContrib (s : State) (c n : Nat) (x : Stream) : State :=
  let p := x.desc.srcPos x.row + x.byte
  let len := min (min (toBoundary p 64) (64 - x.part.length)) (x.desc.rb - x.byte)
  s.withOwn c n p len (fun t bs =>
    let y := x.advance len
    let part := x.part ++ bs
    let t0 := t.openContrib c x
    if part.length = 64 || decide (y.desc.rows ≤ y.row) then
      match t0.emitContrib c x (part ++ List.replicate (64 - part.length) 0) with
      | some t1 => t1.modStream c n (fun _ => { y with part := [], seq := x.seq + 1 })
      | none => s
    else t0.modStream c n (fun _ => { y with part := part }))

/-- One granule or request of a running stream (R230). -/
def State.moveStream (s : State) (c n : Nat) (x : Stream) : State :=
  match x.desc.kind with
  | 1 => s.moveLocal c n x
  | 2 => s.movePush c n x
  | 3 => s.moveLoad c n x
  | 4 => s.moveStore c n x
  | 5 => s.moveGather c n x
  | 6 => s.moveContrib c n x
  | _ => s

/-! ### Service (R220, R230) -/

/-- A stream has rows to move: running, not held, not stopping, and its core's injection is not stopped (R230, R236, R271). -/
def State.canMove (s : State) (c n : Nat) : Bool :=
  let k := s.core c
  let x := k.stream n
  x.st = .running && !k.held && x.stopping.isEmpty && !s.injectionStopped (.core c) && decide (x.row < x.desc.rows)

/-- What a stream moves next has room: the local port takes its flit, and its requests, credits or queue have a place
(R231, R252, R259). -/
def State.hasRoom (s : State) (c : Nat) (x : Stream) : Bool :=
  let p := x.desc.srcPos x.row + x.byte
  let g := x.desc.site
  let j := (s.core c).join g
  match x.desc.kind with
  | 2 => s.portOpen c 7
  | 3 | 5 => s.portOpen c 7 && s.roomFor c x (ceilDiv (p % 64 + x.requestPiece p) 64)
  | 4 => s.portOpen c 7 && decide (x.reqs.length < 64)
  | 6 => s.portOpen c 7 && (if ((s.core c).ring g).role = 1 then s.portOpen c (vcOfGroup g) && decide (j.credits ≠ 0)
      else decide (j.locals.length < 4))
  | _ => true

/-- A stream can act in this cycle (R230). -/
def State.canAct (s : State) (c n : Nat) : Bool :=
  let x := (s.core c).stream n
  s.canMove c n && !x.needsEmpty && s.hasRoom c x

/-- LOAD and GATHER streams send requests; the others read granules from a bank (R230). -/
def Stream.requests (x : Stream) : Bool := x.desc.kind = dkLoad || x.desc.kind = dkGather

/-- The stream that the engine serves next among those of its kind of service: PRI 1 first, then round-robin in stream-number
order after the stream served last (R220, R230). -/
def State.servesNext (s : State) (c n : Nat) : Bool :=
  let k := s.core c
  let place (m : Nat) : Nat := (if (k.stream m).desc.pri then 0 else 32) + (m + 31 - k.served) % 32
  (List.range 32).all (fun m => !(s.canAct c m && (k.stream m).requests = (k.stream n).requests) || decide (place n ≤ place m))

/-! ### Arriving data (R231) -/

def replaceReq (r q : Request) : List Request → List Request
  | [] => []
  | x :: l => if x = r then q :: l else x :: replaceReq r q l

/-- Word w of granule i of a request that belongs to the row: where it lands. -/
def Request.wordPlace (r : Request) (i w : Nat) : Option Nat :=
  let a := r.addr + 64 * i + 32 * w
  if r.rowStart ≤ a ∧ a < r.rowStart + r.rowBytes then some (r.land + (a - r.rowStart)) else none

/-- One word of an arriving granule is written in its place; a word that is not delivered is not written (R231, R239). -/
def State.landWord (s : State) (c i w : Nat) (r : Request) (f : Flit) : State × Bool :=
  match r.wordPlace i w with
  | none => (s, true)
  | some q =>
    match flitWord f w with
    | some b => (s.store (windowAddr c q) b.1, true)
    | none => (s, false)

/-- A granule of a request arrives; a LOAD's request ends with its last granule. The event of a word that is not delivered names
where the word was read, or for a GATHER where it was to land. DESIGN CHOICE for the GATHER (assumption log 15). -/
def State.landGranule (s : State) (c n : Nat) (r : Request) (f : Flit) : State :=
  let i := r.len - r.left
  let w := if (r.wordPlace i 0).isSome && (flitWord f 0).isNone then 0 else 1
  let a := s.landWord c i 0 r f
  let b := a.1.landWord c i 1 r f
  let q := { r with left := r.left - 1 }
  let x := (b.1.core c).stream n
  let reqs := if q.left = 0 && x.desc.kind = dkLoad then x.reqs.filter (fun y => y ≠ r) else replaceReq r q x.reqs
  let s1 := b.1.modStream c n (fun y => ({ y with reqs := reqs }).settle)
  if a.2 && b.2 then s1
  else if ((s1.core c).stream n).st = .faulted then s1
  else if x.desc.kind = dkGather then s1.faultArrived c n r.chunk (windowAddr c ((r.wordPlace i w).getD 0))
  else s1.faultArrived c n r.chunk (r.addr + 64 * i + 32 * w)

/-! ### Completion records (R289, R396) -/

/-- The outstanding request that a completion record answers. -/
def Core.requestFor (c : Core) (site id addr : Nat) : Option (Nat × Request) :=
  (List.range 32).findSome? (fun n =>
    let x := c.stream n
    (x.reqs.find? (fun r => r.site = site && r.addr = addr &&
      (if x.desc.kind = dkStore then r.tag = id else r.doff = id))).map (fun r => (n, r)))

/-- The CONTRIB stream whose open a record rejects (R398). -/
def Core.contribFor (c : Core) (site addr : Nat) : Option Nat :=
  (List.range 32).find? (fun n =>
    let x := c.stream n
    x.desc.kind = dkContrib && (c.ring x.desc.site).skd = 1 && (c.ring x.desc.site).succ = site && x.desc.dst = addr &&
      (x.st = .running || x.st = .held || x.st = .done))

/-- A record's effect on the stream of the request it answers (R289, R396, R240). -/
def State.recordFor (s : State) (c n : Nat) (r : Request) (st version : Nat) : State :=
  let x := (s.core c).stream n
  let s1 := s.modStream c n (fun y => ({ y with reqs := y.reqs.filter (fun q => q ≠ r) }).settle)
  if x.st = .faulted then s1
  else
    match st with
    | 0 =>
      if x.desc.kind = dkGather then
        match x.expect with
        | some e =>
          if e = version then s1.modStream c n (fun y => { y with lastVer := version })
          else s1.faultVersion c n r.chunk e version
        | none => s1.modStream c n (fun y => { y with lastVer := version, expect := some version })
      else s1
    | 3 => s1.faultArrived c n r.chunk r.addr
    | 4 => s1.faultVersion c n r.chunk (x.expect.getD x.desc.version) version
    | _ => s1.faultAddress c n r.chunk

end Sys2Proof.Machine
end

