-- ==== Sys2Proof/Machine/CoreXfer.lean ====
section
/-! DEFINITION. A core's own transfers with stack memory, beside its streams': descriptor blocks, the buffers of RESUME and
SPILL (spec/04 R133, R134, spec/07 R224, spec/09 R287 to R289). They travel as READ and WRITE requests of the core.
DESIGN CHOICE: the offset that such a READ names (assumption log 67). -/

namespace Sys2Proof.Machine

/-- The parts of an extent of whole granules that lie in one 4 KiB granule each: address and bytes (R231, R287). -/
def pageParts (a n : Nat) : Nat → List (Nat × Nat)
  | 0 => []
  | fuel + 1 =>
    if n = 0 then []
    else
      let k := min n (toBoundary a 4096)
      (a, k) :: pageParts (a + k) (n - k) fuel

/-- Parts of an extent of at most 32 KiB. -/
def extentParts (a n : Nat) : List (Nat × Nat) := pageParts a n 9

/-- The window offset at which a core's own READ asks for its data: bank C, by the place in the transfer. -/
def xferOffset (off : Nat) : Nat := 0x40_0000 + off

/-- One request of a core's own transfer. -/
def xferRequest (site addr n doff tag left : Nat) : Request :=
  { site := site, addr := addr, len := n / 64, doff := doff, tag := tag, chunk := 0, rowStart := addr, rowBytes := n,
    land := doff, left := left }

/-- READ requests for an extent of stack memory; its bytes come to the engine that asked (R134, R224). -/
def State.coreRead (s : State) (c : Nat) (work : CoreWork) (word : Word64) (k pc a n : Nat) : State :=
  let rs := (extentParts a n).map (fun p =>
    xferRequest (s.siteOfAddr p.1) p.1 p.2 (xferOffset (p.1 - a)) 0 (p.2 / 64))
  let x : CoreXfer := { work := work, ctx := k, pc := pc, addr := a, reqs := rs, data := List.replicate n 0, word := word }
  (s.modCore c (fun y => { y with xfers := y.xfers ++ [x] })).injectAll none c
    (rs.map (fun r => siteReqFlit c r.site (stackRequest 1 (k % 4) r.len r.addr r.doff 0)))

/-- The flits of one WRITE request: the request, then its granules by its tag (R288). -/
def writeFlits (c k : Nat) (r : Request) (bs : List Byte) : List Flit :=
  siteReqFlit c r.site (stackRequest 2 (k % 4) r.len r.addr 0 r.tag) ::
    (List.range r.len).map (fun i => writeDataFlit c r.site r.tag ((bs.drop (64 * i)).take 64))

/-- WRITE requests for an extent of stack memory, from the drain buffer (R133). -/
def State.coreWrite (s : State) (c k pc a : Nat) (bs : List Byte) : State :=
  let tag := (s.core c).nextTag
  let ps := (extentParts a bs.length).zipIdx
  let rs := ps.map (fun p => xferRequest (s.siteOfAddr p.1.1) p.1.1 p.1.2 0 ((tag + p.2) % 2 ^ 23) 0)
  let x : CoreXfer := { work := .spillWrite, ctx := k, pc := pc, addr := a, reqs := rs }
  (s.modCore c (fun y => { y with xfers := y.xfers ++ [x], nextTag := (tag + rs.length) % 2 ^ 23 })).injectAll (some 4) c
    (rs.flatMap (fun r => writeFlits c k r (bs.drop (r.addr - a))))

def State.dropXfer (s : State) (c : Nat) (x : CoreXfer) : State :=
  s.modCore c (fun y => { y with xfers := y.xfers.erase x })

def State.putXfer (s : State) (c : Nat) (x y : CoreXfer) : State :=
  s.modCore c (fun z => { z with xfers := z.xfers.map (fun q => if q = x then y else q) })

/-- A word that an engine needed has not come: its context stops and its data are LOST (R46, R429). -/
def State.xferLost (s : State) (c k addr : Nat) : State :=
  ((s.record .streamUncorrectable (.core c) [(2, c), (1, 0xFF), (8, addr)]).modCore c (fun x => x.haltCtx k)).lostCore c false

/-- The next granule of a READ has come: the transfer as it then stands (R46, R288). -/
def CoreXfer.land (x : CoreXfer) (r : Request) (f : Flit) : CoreXfer :=
  let d := granuleData f
  let off := r.addr - x.addr + 64 * (r.len - r.left)
  let q := { r with left := r.left - 1 }
  { x with
    data := spliceBytes x.data off d.1
    bad := x.bad || d.2
    reqs := if q.left = 0 then x.reqs.erase r else replaceReq r q x.reqs }

/-- The request of a core's own transfers that a completion record answers (R289). -/
def Core.xferFor (c : Core) (site id addr : Nat) : Option (CoreXfer × Request) :=
  c.xfers.findSome? (fun x => (x.reqs.find? (fun r => r.site = site && r.addr = addr &&
    (if x.work = .spillWrite then r.tag = id else r.doff = id))).map (fun r => (x, r)))

/-- Where a buffer register points in device addresses (R192, R224). -/
def bufferAddr (c : Nat) (v : Word64) : Nat :=
  let b := bufferReg v
  if b.1 then windowAddr c b.2.1 else b.2.1

/-- A buffer outside the mapped addresses is recorded (R23, R24). -/
def State.noteBuffer (s : State) (c : Nat) (v : Word64) (n : Nat) (write : Bool) : State :=
  s.noteAccess (.core c) (bufferAddr c v) n write

end Sys2Proof.Machine
end

