-- ==== Sys2Proof/Machine/MatrixMath.lean ====
section
/-! DEFINITION. What the matrix engine computes: operand lines, staged accumulation, checksum lanes, the verdict, spill
buffers and chain sums (spec/04 R113 to R138, spec/03 R91 to R96). -/

namespace Sys2Proof.Machine

/-! ### Operand lines (R70 to R75, R108) -/

/-- One line of an operand: its K elements, and its block scales, which are empty for a wide format. -/
structure Line where
  elems : List Dy
  scales : List Dy
  deriving DecidableEq, Repr

/-- An element of a matrix operand and whether its code is special (R72, R94). -/
def operandElemOf (el : Elem) (code : Nat) : Dy × Bool :=
  match el with
  | .bf16 => decodeWideOperand fmtBF16 code
  | .fp16 => decodeWideOperand fmtFP16 code
  | _ => decodeElem el code

/-- A line from the bytes of its planes, with its special codes (R117). -/
def lineOf (el : Elem) (scale K nb : Nat) (plane scales : List Byte) : Line × Nat :=
  let es := (List.range K).map (fun k => operandElemOf el (unpackCode el.bits plane k))
  let ss := if el.isBlock then (List.range nb).map (fun b => decodeScale scale (scales.getD b 0).toNat) else []
  (⟨es.map (·.1), ss.map (·.1)⟩, (es.filter (·.2)).length + (ss.filter (·.2)).length)

/-- Block b of a line: its elements, and its scale, 1 for a wide format (R127). -/
def Line.block (l : Line) (B b : Nat) : List Dy := (l.elems.drop (B * b)).take B
def Line.scale (l : Line) (b : Nat) : Dy := l.scales.getD b (Dy.pow2 0)

/-! ### Staged accumulation (R113, R114) -/

/-- An exact sum. -/
def sumDy (l : List Dy) : Dy := l.foldl Dy.add (Dy.zero false)

/-- The exact block sum of two lines' blocks (R113 step 1). -/
def blockSum (a b : List Dy) : Dy := sumDy (List.zipWith Dy.mul a b)

/-- The accumulators of one PE: run, tile total, saturations. -/
structure Pe where
  r : Dy
  t : Dy
  sat : Nat
  deriving DecidableEq, Repr

/-- Stages 2 and 3 of block b of nb (R113). -/
def Pe.block (L nb : Nat) (p : Pe) (b : Nat) (v : Dy) : Pe :=
  let r := (p.r.add v).roundSat fmtFP24
  if (b + 1) % L = 0 ∨ b + 1 = nb then
    let t := (p.t.add r.1).roundSat fmtFP32
    ⟨Dy.zero false, t.1, p.sat + r.2.toNat + t.2.toNat⟩
  else ⟨r.1, p.t, p.sat + r.2.toNat⟩

/-- The scaled block sums v_b of one PE (R113 step 2). -/
def scaledBlocks (B nb : Nat) (a b : Line) : List Dy :=
  (List.range nb).map (fun i => ((blockSum (a.block B i) (b.block B i)).mul (a.scale i)).mul (b.scale i))

/-- One PE over an instruction's scaled block sums. -/
def runBlocks (L nb : Nat) : Nat → Pe → List Dy → Pe
  | _, p, [] => p
  | b, p, v :: vs => runBlocks L nb (b + 1) (p.block L nb b v) vs

/-- One product of a wide pair (R114). -/
def Pe.wide (p : Pe) (ab : Dy × Dy) : Pe :=
  let q := (ab.1.mul ab.2).roundSat fmtFP32
  let t := (p.t.add q.1).roundSat fmtFP32
  ⟨p.r, t.1, p.sat + q.2.toNat + t.2.toNat⟩

/-- One PE over a whole instruction. -/
def peRun (wide : Bool) (L B nb : Nat) (a b : Line) (t : Word32) : Pe :=
  let p : Pe := ⟨Dy.zero false, dyOfF32 t, 0⟩
  if wide then (a.elems.zip b.elems).foldl Pe.wide p
  else runBlocks L nb 0 p (scaledBlocks B nb a b)

/-! ### Checksum lanes (R127) -/

def rn32 (d : Dy) : Dy := (d.roundSat fmtFP32).1

/-- The scaled elements of block b of a line, or their magnitudes. -/
def Line.scaled (l : Line) (B b : Nat) (mag : Bool) : List Dy :=
  (l.block B b).map (fun x => let y := x.mul (l.scale b); if mag then y.abs else y)

/-- Lane weights of a block: for each k, the rounded sum over the other operand's lines. -/
def laneWeights (B b : Nat) (mag : Bool) (ls : List Line) : List Dy :=
  let cols := ls.map (fun l => l.scaled B b mag)
  (List.range B).map (fun k => rn32 (sumDy (cols.map (fun c => c.getD k (Dy.zero false)))))

/-- One lane quantity of a block added to the lane (R127). A sum of the lanes or of their adder tree that is too large becomes the
largest finite value and is not counted (R93). DESIGN CHOICE (assumption log 74). -/
def laneAdd (B b : Nat) (mag : Bool) (ws : List Dy) (l : Line) (old : Word32) : Word32 :=
  (dyToF32 ((dyOfF32 old).add (rn32 (blockSum (l.scaled B b mag) ws)))).1

/-- A lane vector over one block: its lines against the other operand's weights. -/
def laneBlock (B : Nat) (mag : Bool) (own other : List Line) (lane : List Word32) (b : Nat) : List Word32 :=
  let ws := laneWeights B b mag other
  List.zipWith (laneAdd B b mag ws) own lane

def laneRun (B nb : Nat) (mag : Bool) (own other : List Line) (lane : List Word32) : List Word32 :=
  (List.range nb).foldl (laneBlock B mag own other) lane

/-! ### Tiles -/

/-- A list of a fixed length; the empty list stands for zeros. -/
def padWords (n : Nat) (l : List Word32) : List Word32 := l ++ List.replicate (n - l.length) 0

/-- The tile after a matrix-multiply instruction, and its saturations (R113, R114, R127). -/
def Tile.multiply (t : Tile) (wide : Bool) (L B nb : Nat) (as bs : List Line) : Tile × Nat :=
  let old := padWords 4096 t.t
  let pes := (List.range 4096).map (fun m =>
    peRun wide L B nb (as.getD (m / 64) ⟨[], []⟩) (bs.getD (m % 64) ⟨[], []⟩) (old.getD m 0))
  ({ t with
      t := pes.map (fun p => (dyToF32 p.t).1)
      c := laneRun B nb false as bs (padWords 64 t.c)
      u := laneRun B nb true as bs (padWords 64 t.u)
      d := laneRun B nb false bs as (padWords 64 t.d)
      z := laneRun B nb true bs as (padWords 64 t.z) },
    (pes.map (·.sat)).sum)

/-- An FP32 addition of the adder tree (R128). -/
def add32 (a b : Word32) : Word32 := (dyToF32 ((dyOfF32 a).add (dyOfF32 b))).1

/-- The adder tree over 64 leaves (R128). -/
def treeSum (l : List Word32) : Word32 := treeRoot add32 0 7 l

def abs32 (w : Word32) : Word32 := w &&& 0x7FFFFFFF#32

def Tile.row (t : Tile) (i : Nat) : List Word32 := ((padWords 4096 t.t).drop (64 * i)).take 64
def Tile.col (t : Tile) (j : Nat) : List Word32 := (List.range 64).map (fun i => (padWords 4096 t.t).getD (64 * i + j) 0)

/-- The sums of R128: S and R of the rows, then of the columns. -/
def Tile.sums (t : Tile) : List (Word32 × Word32) :=
  let f (l : List Word32) : Word32 × Word32 := (treeSum l, treeSum (l.map abs32))
  (List.range 64).map (fun i => f (t.row i)) ++ (List.range 64).map (fun j => f (t.col j))

/-- One row's or column's check: its difference and its magnitudes (R128). -/
structure LaneCheck where
  delta : Dy
  r : Dy
  u : Dy
  deriving DecidableEq, Repr

def laneCheck (sr : Word32 × Word32) (c u : Word32) : LaneCheck :=
  ⟨((dyOfF32 sr.1).sub (dyOfF32 c)).abs, dyOfF32 sr.2, dyOfF32 u⟩

def Tile.checks (t : Tile) : List LaneCheck :=
  let cs := padWords 64 t.c ++ padWords 64 t.d
  let us := padWords 64 t.u ++ padWords 64 t.z
  (t.sums.zip (cs.zip us)).map (fun p => laneCheck p.1 p.2.1 p.2.2)

/-- Verdicts (R128). -/
inductive Verdict where
  | pass | nearMiss | fail
  deriving DecidableEq, Repr

def LaneCheck.passes (x : LaneCheck) : Bool := x.delta.le (x.r.mul (Dy.pow2 (-12)))
def LaneCheck.near (x : LaneCheck) : Bool := x.delta.le (x.u.mul (Dy.pow2 (-10)))

/-- The verdict of a list of rows and columns: the worst (R128). A row that meets the conditions of PASS and of FAIL
makes it FAIL (DEDUCED, assumption log 61). -/
def verdictOf (l : List LaneCheck) : Verdict :=
  if !l.all LaneCheck.near then .fail
  else if l.all LaneCheck.passes then .pass
  else .nearMiss

def Tile.verdict (t : Tile) : Verdict := verdictOf t.checks

/-- Whether a ranks strictly above b as the worst (R129). -/
def LaneCheck.worse (a b : LaneCheck) : Bool :=
  if a.delta.m = 0 then false
  else if b.delta.m = 0 then true
  else if b.u.m = 0 then false
  else if a.u.m = 0 then true
  else (b.delta.mul a.u).lt (a.delta.mul b.u)

/-- The worst of a list, the first on a tie: its index and its check (R129). -/
def worstOf (l : List LaneCheck) : Nat × LaneCheck :=
  (l.zipIdx).foldl (fun b p => if p.1.worse b.2 then (p.2, p.1) else b)
    (0, l.headD ⟨Dy.zero false, Dy.zero false, Dy.zero false⟩)

/-- WORST, DELTA and MAG of a tile (R129, R442): bit 6 for a column. -/
def Tile.worst (t : Tile) : Nat × Nat × Nat :=
  let w := worstOf t.checks
  (w.1, (dyToF32 w.2.delta).1.toNat, (dyToF32 w.2.u).1.toNat)

/-- One element as it leaves the array (R116), and whether it saturated. -/
def scaleOut (f : Fmt) (a b t : Word32) : Nat × Bool :=
  (((dyOfF32 t).mul (dyOfF32 a)).mul (dyOfF32 b)).toSat f none

/-- The elements of a tile as they leave the array, and their saturations (R116). -/
def Tile.out (t : Tile) : List Word32 × Nat :=
  let l := (padWords 4096 t.t).map (scaleOut fmtFP32 t.stA t.stB)
  (l.map (fun p => BitVec.ofNat 32 p.1), (l.filter (·.2)).length)

/-! ### Spill buffers (R96, R132, R134) -/

/-- An FP64 spill value as SPILL ADD reads it: non-finite values take the largest finite one (R96). -/
def spillRead (code : Nat) : Dy × Bool :=
  match decodeWide fmtFP64 code with
  | .fin d => (d, false)
  | .inf n => (decodeMag fmtFP64 n fmtFP64.maxCode, true)
  | .nan => (decodeMag fmtFP64 false fmtFP64.maxCode, true)

/-- One spill value written: code, saturations, special values (R132, R96). -/
def spillElem (add : Bool) (a b t : Word32) (old : Nat) : Nat × Nat × Nat :=
  let x := scaleOut fmtFP64 a b t
  if add then
    let p := spillRead old
    let xd := match decodeWide fmtFP64 x.1 with
      | .fin d => d
      | _ => Dy.zero false
    let y := (p.1.add xd).toSat fmtFP64 none
    (y.1, x.2.toNat + y.2.toNat, p.2.toNat)
  else (x.1, x.2.toNat, 0)

/-- The FP64 codes of a spill buffer. -/
def spillCodes (bs : List Byte) : List Nat := (List.range 4096).map (fun m => leNat ((bs.drop (8 * m)).take 8))

/-- What a SPILL writes into its buffer. -/
def Tile.spillOut (t : Tile) (add : Bool) (old : List Byte) : List (Nat × Nat × Nat) :=
  List.zipWith (spillElem add t.stA t.stB) (padWords 4096 t.t) (spillCodes old)

/-- One value as RESUME reads it: T, saturation, special value (R96, R134). -/
def resumeElem (code : Nat) : Word32 × Bool × Bool :=
  match decodeWide fmtFP64 code with
  | .fin d => let p := dyToF32 d; (p.1, p.2, false)
  | .inf n => (BitVec.ofNat 32 (withSign fmtFP32 n fmtFP32.maxCode), false, true)
  | .nan => (BitVec.ofNat 32 fmtFP32.maxCode, false, true)

/-- The tile that a RESUME opens (R134), with its saturations and special values. -/
def resumeTile (owner : Nat) (bs : List Byte) : Tile × Nat × Nat :=
  let es := (spillCodes bs).map resumeElem
  let t : Tile := { owner := owner, t := es.map (·.1), stA := f32One, stB := f32One }
  let q := t.sums
  ({ t with
      c := (q.take 64).map (·.1)
      u := (q.take 64).map (·.2)
      d := (q.drop 64).map (·.1)
      z := (q.drop 64).map (·.2) },
    (es.filter (·.2.1)).length, (es.filter (·.2.2)).length)

/-! ### Sums outside the array (R136, R138) -/

/-- FP32 elements of bytes. -/
def wordsOfBytes : List Byte → List Word32
  | a :: b :: c :: d :: r => BitVec.ofNat 32 (leNat [a, b, c, d]) :: wordsOfBytes r
  | _ => []

/-- A sum of an FP32 value in memory, which may be non-finite, and an element (R93, R94, R136). -/
def memAdd (a b : Word32) : Word32 × Bool :=
  let p := ((f32 a).add (f32 b)).toSat fmtFP32 none
  (BitVec.ofNat 32 p.1, p.2)

/-- The elementwise sums of two lists, with their saturations. -/
def memAdds (as bs : List Word32) : List Word32 × Nat :=
  let l := List.zipWith memAdd as bs
  (l.map (·.1), (l.filter (·.2)).length)

end Sys2Proof.Machine
end

