-- ==== Sys2Proof/Machine/Matrix.lean ====
section
/-! DEFINITION. The matrix class: MMUL, DRAIN, SPILL, RESUME, the verdict of a drained tile, and chain steps
(spec/04 R108 to R141, spec/06 R177, R189 to R193, R204). -/

namespace Sys2Proof.Machine

/-! ### Parameters (R189 to R192) -/

/-- One operand of an MMUL as its registers give it. -/
structure MulOperand where
  fc : FmtCode
  eoff : Nat
  soff : Nat
  estride : Nat
  sstride : Nat
  st : Word32
  deriving DecidableEq, Repr

/-- The rate class of an element (R110). -/
def rateClass (e : Elem) : Nat :=
  match e with
  | .e4m3 | .e5m2 => 0
  | .int8 => 1
  | .e3m2 | .e2m3 | .e2m1 => 2
  | .bf16 => 3
  | .fp16 => 4
  | _ => 5

/-- Whether two formats may be paired (R110). -/
def pairOk (a b : FmtCode) : Bool :=
  rateClass a.elem = rateClass b.elem && decide (rateClass a.elem ≤ 4) &&
  (!a.elem.isBlock || decide (a.block = b.block))

/-- The format of an operand register; its rounding is ignored (R69, R190). -/
def OperandReg.code (r : OperandReg) : Option FmtCode := parseFmt { written := false } r.fmt

/-- An operand from its parameter register, its strides in units of 64 bytes, and its per-tensor scale (R190, R116). -/
def mulOperand (r : OperandReg) (fc : FmtCode) (es ss : Nat) (st : Word32) : MulOperand :=
  ⟨fc, r.eoff, r.soff, 64 * es, 64 * ss, if fc.tscale then st else f32One⟩

/-- The reserved-field faults of an operand: strides of 1 to 65,535, or none for a wide scale plane (R190). -/
def MulOperand.fieldsOk (o : MulOperand) (r : OperandReg) : Bool :=
  r.zeroOk && decide (o.estride ≠ 0) &&
  (if o.fc.elem.isBlock then decide (o.sstride ≠ 0) else decide (o.sstride = 0 ∧ o.soff = 0))

/-- Every line of an operand lies in one bank and starts on 64 bytes (R108). -/
def MulOperand.placed (o : MulOperand) (K nb : Nat) : Bool :=
  decide (o.eoff % 64 = 0 ∧ o.soff % 64 = 0) &&
  (List.range 64).all (fun i => inOneBank (o.eoff + i * o.estride) (K * o.fc.elem.bits / 8) &&
    (!o.fc.elem.isBlock || inOneBank (o.soff + i * o.sstride) nb))

/-- The operands of an MMUL, or none where a format or the pairing is illegal. -/
def mulOperands (x : Ctx) (sp : Nat) : Option (MulOperand × MulOperand) :=
  let ra := operandReg (x.reg sp)
  let rb := operandReg (x.reg (sp + 1))
  let ts := (x.reg (sp + 2)).toNat
  let sd := (x.reg (sp + 3)).toNat
  match ra.code, rb.code with
  | some fa, some fb =>
    if pairOk fa fb then
      some (mulOperand ra fa (sd % 65536) (sd / 2 ^ 16 % 65536) (BitVec.ofNat 32 ts),
        mulOperand rb fb (sd / 2 ^ 32 % 65536) (sd / 2 ^ 48) (BitVec.ofNat 32 (ts / 2 ^ 32)))
    else none
  | _, _ => none

/-- Elements of a block, blocks and K of an MMUL (R121, R189). -/
def mulBlock (o : MulOperand) : Nat := if o.fc.elem.isBlock then o.fc.block else 32
def mulBlocks (w : MatWord) : Nat := w.km1.toNat + 1

/-- A 16 KiB area of bank D at an offset (R126, R191). -/
def areaOk (off : Nat) : Bool := decide (off % 64 = 0) && inBank 3 off 0x4000

/-- The cause for which a target register pair is refused; 0 where it is not (R191, R204). -/
def State.targetCause (s : State) (c : Nat) (x : Ctx) (target sd : Nat) : Nat :=
  let t := targetReg (x.reg sd)
  let h := chainReg (x.reg (sd + 1))
  let remote : Nat :=
    if !t.2.2.2 then ceReserved
    else if !areaOk t.2.1 then ceAddress
    else if !((s.jobOf c).any (fun j => (s.job j).holds t.1)) then ceCrossJob
    else 0
  match target with
  | 0 => 0
  | 3 =>
    if !h.2.2.2 || h.1 = 1 || h.1 = 3 || (h.1 = 0 && x.reg sd != 0) then ceReserved
    else if !areaOk h.2.2.1 then ceAddress
    else if h.1 = 0 then 0 else remote
  | _ => remote

/-- The target that an instruction names (R126, R191). -/
def targetOf (x : Ctx) (target sd : Nat) : Target :=
  let t := targetReg (x.reg sd)
  let h := chainReg (x.reg (sd + 1))
  match target with
  | 0 => .queue
  | 1 => .remoteAdd t.1 t.2.1 t.2.2.1
  | 2 => .remotePut t.1 t.2.1 t.2.2.1
  | _ => if h.1 = 0 then .chainQueue h.2.1 h.2.2.1 else .chainPut h.2.1 h.2.2.1 t.1 t.2.1 t.2.2.1

/-- The cause for which the parameters of an MMUL are refused; 0 where they are not. Of several causes the first of this order is
reported. DESIGN CHOICE (assumption log 68). -/
def State.mulCause (s : State) (c : Nat) (x : Ctx) (w : MatWord) : Nat :=
  let sp := w.sp.toNat
  let tc := if w.endF then s.targetCause c x w.target.toNat w.sd.toNat else 0
  match mulOperands x sp with
  | none => if tc = ceReserved then ceReserved else ceFormat
  | some (a, b) =>
    let ra := operandReg (x.reg sp)
    let rb := operandReg (x.reg (sp + 1))
    let nb := mulBlocks w
    let K := nb * mulBlock a
    if !a.fieldsOk ra || !b.fieldsOk rb || tc = ceReserved then ceReserved
    else if !a.placed K nb || !b.placed K nb || tc = ceAddress then ceAddress
    else if !a.fc.elem.isBlock && decide (256 < nb) then ceCount
    else if tc ≠ 0 then tc
    else if (a.fc.tscale && !goodTScale a.st) || (b.fc.tscale && !goodTScale b.st) then ceTscale
    else 0

/-! ### The engine (R119, R120, R177) -/

/-- The array starts no instruction now: a tile holds at C, or a RESUME awaits its buffer (R124, R134). -/
def Core.arrayBusy (c : Core) : Bool := c.atC.isSome || c.xfers.any (fun x => x.work = .resume)

/-- The unit's next place is free and open to a context, and the engine is not stopped (R130, R175, R177). -/
def Core.matrixOpen (c : Core) (k : Nat) : Bool :=
  !c.stopped && c.matNext.isNone && c.xfers.all (fun x => x.work ≠ .resume || x.ctx = k) &&
  (match c.tile with
    | none => true
    | some t => decide (t.owner = k))

/-- A log with one more instruction; it holds 64 and remembers an overflow (R419). -/
def logged (l : List Nat) (w : Word64) : List Nat := if l.length ≤ 64 then l ++ [w.toNat] else l

/-- A tile whose log overflows is dropped from sampling (R419). -/
def State.logTile (s : State) (c : Nat) (t : Tile) (w : Word64) : State × Tile :=
  let t1 := { t with log := logged t.log w }
  match t1.check with
  | some id => if 64 < t1.log.length then ((s.dropCheck id).checkSkipped c 419, { t1 with check := none }) else (s, t1)
  | none => (s, t1)

/-- The old tile of a context is discarded when it opens another (R119); the event carries no payload (R141). -/
def State.discardTile (s : State) (c : Nat) : State :=
  match (s.core c).tile with
  | none => s
  | some t =>
    let s1 := s.record .tileDiscarded (.core c) []
    match t.check with
    | some id => s1.dropCheck id
    | none => s1

/-- The matrix engine's counters of a context (R117). -/
def State.matCount (s : State) (c k sat special : Nat) : State :=
  let s1 := if sat = 0 then s else s.bumpCore c (matSatWord k) sat
  if special = 0 then s1 else s1.bumpCore c (matSpecialWord k) special

/-- The lines of an operand, read through the word code (R108, R111). -/
def State.readLines (s : State) (c : Nat) (o : MulOperand) (K nb : Nat) : Nat → State × Option (List Line × Nat)
  | 0 => (s, some ([], 0))
  | n + 1 =>
    match s.readLines c o K nb n with
    | (s1, none) => (s1, none)
    | (s1, some (ls, sp)) =>
      match s1.spadRead c (o.eoff + n * o.estride) (K * o.fc.elem.bits / 8) with
      | (s2, none) => (s2, none)
      | (s2, some es) =>
        match s2.spadRead c (o.soff + n * o.sstride) (if o.fc.elem.isBlock then nb else 0) with
        | (s3, none) => (s3, none)
        | (s3, some ss) =>
          let l := lineOf o.fc.elem o.fc.scale K nb es ss
          (s3, some (ls ++ [l.1], sp + l.2))

/-- Free tile queue entries, and the one that the drain path reserves (R125). -/
def Core.freeEntry (c : Core) : Option Nat := (List.range 4).find? (fun e => (c.entry e).st = .free)

def Core.reserve (c : Core) (owner : Nat) : Core × Option Nat :=
  match c.freeEntry with
  | some e => (c.setEntry e { st := .reserved, owner := owner }, some e)
  | none => (c, none)

/-- A target that carries the tile out in a tile queue entry. -/
def Target.takesEntry : Target → Bool
  | .spill .. => false
  | _ => true

/-- A tile is copied into the drain buffer, with an entry where its target needs one (R123, R125). -/
def Core.copyTile (c : Core) (d : Drain) : Core :=
  let r := if d.target.takesEntry then c.reserve d.tile.owner else (c, none)
  { r.1 with drain := some { d with entry := r.2 } }

/-- A tile reaches its cycle C: it is copied, or it holds in the array while the drain buffer is full (R124). -/
def Core.toDrain (c : Core) (d : Drain) : Core :=
  let k : Core := { c with tile := none }
  if c.drain.isSome then { k with atC := some d } else k.copyTile d

/-- The 64-byte record of a sampled tile, whose form the spec does not give: free bytes (R419). DESIGN CHOICE (assumption log 80). -/
def State.checkRecord (s : State) (c : Nat) (q : State × Option Nat) : State :=
  match q.2 with
  | none => q.1
  | some id => ({ q.1 with freeIndex := q.1.freeIndex + 1 }).copyCheck c id none
      ((List.range 64).map (fun i => Config.undefinedByte s.freeIndex i))

/-- The tile that an MMUL runs on: a fresh one with its sampled check drawn, or the one in progress (R119, R416). -/
def State.openTile (s : State) (c k : Nat) (acc : Bool) (sa sb : Word32) : State × Tile :=
  match acc, (s.core c).tile with
  | true, some t => (s, t)
  | _, _ =>
    let s1 := s.discardTile c
    let o := (s1.ctx c k).tileOrdinal
    if k ≤ 2 then
      let q := s1.candidate ckTile k c o k false
      ((s.checkRecord c q).modCtx c k (fun y => { y with tileOrdinal := o + 1 }), { owner := k, stA := sa, stB := sb, check := q.2 })
    else (s1, { owner := k, stA := sa, stB := sb })

/-- R116, R119 and R122: an ADD finds its tile, with its scales and within its limit; an OVERWRITE is within it. -/
def tileStateOk (t : Option Tile) (acc wide : Bool) (amount : Nat) (sa sb : Word32) : Bool :=
  if acc then
    match t with
    | none => false
    | some x => decide (x.stA = sa ∧ x.stB = sb) &&
      (if wide then decide (x.wideK + amount ≤ 8192) else decide (x.blocks + amount ≤ 4096))
  else if wide then decide (amount ≤ 8192) else decide (amount ≤ 4096)

/-- Lines of an operand: offsets and bytes. -/
def MulOperand.lines (o : MulOperand) (K nb : Nat) : List (Nat × Nat) :=
  (List.range 64).flatMap (fun i => (o.eoff + i * o.estride, K * o.fc.elem.bits / 8) ::
    (if o.fc.elem.isBlock then [(o.soff + i * o.sstride, nb)] else []))

/-- The granules of the operands go to the checker of a sampled tile (R419). -/
def State.copyOperands (s : State) (c : Nat) (t : Tile) (l : List (Nat × Nat)) : State :=
  match t.check with
  | none => s
  | some id => s.copyCheck c id none (l.flatMap (fun p =>
      s.delivered (windowAddr c (p.1 / 64 * 64)) (64 * ceilDiv (p.1 % 64 + p.2) 64)))

/-- The effect of an MMUL that starts, with the registers it has read (R113 to R122). MMUL is one step: a halt or a quench falls
between instructions. DESIGN CHOICE (assumption log 9). -/
def State.multiply (s : State) (c k pc : Nat) (w : MatWord) (x : Ctx) (a b : MulOperand) : State :=
  let wide := !a.fc.elem.isBlock
  let nb := mulBlocks w
  let B := mulBlock a
  let K := nb * B
  match s.readLines c a K nb 64 with
  | (s1, none) => s1.spadUncorrectable c k
  | (s1, some la) =>
    match s1.readLines c b K nb 64 with
    | (s2, none) => s2.spadUncorrectable c k
    | (s2, some lb) =>
      let q := s2.openTile c k w.acc a.st b.st
      let m := q.2.multiply wide (w.lm1.toNat + 1) B nb la.1 lb.1
      let t : Tile := { m.1 with
        blocks := if wide then m.1.blocks else m.1.blocks + nb
        wideK := if wide then m.1.wideK + K else m.1.wideK }
      let q1 := q.1.copyOperands c q.2 (a.lines K nb ++ b.lines K nb)
      let q2 := (q1.matCount c k m.2 (la.2 + lb.2)).logTile c t (wordM 0 w)
      q2.1.modCore c (fun y =>
        if w.endF then y.toDrain { tile := q2.2, target := targetOf x w.target.toNat w.sd.toNat, pc := pc }
        else { y with tile := some q2.2 })

/-- The tile in progress goes into the drain path (R123). -/
def State.drainTile (s : State) (c pc : Nat) (target : Target) (word : Word64) : State :=
  match (s.core c).tile with
  | none => s
  | some y =>
    let q := s.logTile c y word
    q.1.modCore c (fun z => z.toDrain { tile := q.2, target := target, pc := pc })

/-! ### Spill buffers (R132 to R135, R192) -/

/-- The cause for which a buffer address register is refused; 0 where it is not (R192, R132, R291). -/
def State.bufferCause (s : State) (c : Nat) (v : Word64) : Nat :=
  let b := bufferReg v
  if !b.2.2 then ceReserved
  else if b.2.1 % 64 ≠ 0 then ceAddress
  else if b.1 then (if inBank 2 b.2.1 0x8000 then 0 else ceAddress)
  else if s.inStack b.2.1 0x8000 && (s.jobOf c).any (fun j => (s.job j).inKind rkSpill b.2.1 0x8000) then 0
  else ceAddress

/-- Counts of a verdict (R129). -/
def State.countVerdict (s : State) (c k : Nat) (v : Verdict) : State :=
  match v with
  | .pass => s.bumpCore c (checkPassedWord k) 1
  | .nearMiss => s.bumpCore c (checkNearWord k) 1
  | .fail => s.bumpCore c (checkFailedWord k) 1

/-- Payload of TILE_CHECK_FAILED and TILE_CHECK_NEAR_MISS (R129, R141). -/
def checkItems (c : Nat) (t : Tile) (pc : Nat) : List (Nat × Nat) :=
  let w := t.worst
  [(2, c), (1, t.owner), (4, pc), (1, w.1), (4, w.2.1), (4, w.2.2)]

/-- The code of a target in a TILE record (R126). -/
def Target.code : Target → Nat
  | .queue => 0 | .remoteAdd .. => 1 | .remotePut .. => 2 | .chainQueue .. => 3 | .chainPut .. => 3 | .spill .. => 0

def Verdict.code : Verdict → Nat
  | .pass => 0 | .nearMiss => 1 | .fail => 2

/-- The record of a verdict: counters, events, trace (R129, R130, R581). -/
def State.noteVerdict (s : State) (c : Nat) (d : Drain) (v : Verdict) : State :=
  let t := d.tile
  let s1 := (s.countVerdict c t.owner v).trace 3 (.core c) t.owner
    (v.code * 2 ^ 62 + d.target.code * 2 ^ 59 + (d.entry.getD 0) * 2 ^ 57 + t.blocks % 4096)
  match v with
  | .pass => s1
  | .nearMiss => (s1.record .tileCheckNearMiss (.core c) (checkItems c t d.pc)).health hNear c
  | .fail => s1.record .tileCheckFailed (.core c) (checkItems c t d.pc)

/-- FAIL: nothing leaves the core, the engine stops and the classification begins, in whose first step only the owner stays
halted (R130, R426). A tile
whose log overflowed cannot be repeated: it is lost. -/
def State.failTile (s : State) (c : Nat) (d : Drain) : State :=
  let k := d.tile.owner
  let s1 := (s.noteCheck c true).modCore c (fun x =>
    let y := match d.entry with
      | some e => x.setEntry e {}
      | none => x
    { (y.haltCtx k) with
      drain := some { d with entry := none, failed := true }
      stopped := true
      laneFails := x.laneFails + 1 })
  if 64 < d.tile.log.length then
    (s1.modCore c (fun x => { x with drain := none, stopped := false })).lostCore c false
  else s1.classify c cpLane k 0xFFFF true

/-- The producer's verdict releases the work of a sampled check: the released tile and its row magnitudes are copied (R419). -/
def State.releaseTile (s : State) (c : Nat) (t : Tile) (entry : Option Nat) : State :=
  match t.check with
  | some id => (s.copyCheck c id entry (bytesOfWords (t.out.1 ++ padWords 64 t.u))).releaseCheck id
  | none => s

/-- The verdict of a tile as it stands in the drain path. -/
def State.judge (s : State) (c : Nat) (d : Drain) : State × Verdict :=
  let v := d.tile.verdict
  (s.noteVerdict c d v, v)

/-- What a SPILL writes over the old values of its buffer: new values, saturations, special values (R96, R132). -/
def Tile.spillNew (t : Tile) (add : Bool) (old : List Byte) : List (Nat × Nat × Nat) :=
  t.spillOut add (old ++ List.replicate (0x8000 - old.length) 0)

/-- The bytes of a spill buffer. -/
def spillImage (es : List (Nat × Nat × Nat)) : List Byte := es.flatMap (fun e => leBytes 8 e.1)

/-- A spill has been written: its counts, and its tile's sampled check is released (R96, R415). -/
def State.spillDone (s : State) (c : Nat) (t : Tile) (es : List (Nat × Nat × Nat)) : State :=
  (s.matCount c t.owner ((es.map (·.2.1)).sum) ((es.map (·.2.2)).sum)).releaseTile c t none

/-- The new values of a spill to stack memory leave as WRITE requests (R133). -/
def State.spillToStack (s : State) (c : Nat) (d : Drain) (add : Bool) (addr : Nat) (old : List Byte) : State :=
  let es := d.tile.spillNew add old
  (s.coreWrite c d.tile.owner d.pc addr (spillImage es)).spillDone c d.tile es

/-- A spill that has passed its check is written: at once into bank C; into stack memory behind the reads of the old values where
it adds (R132, R133). -/
def State.releaseSpill (s : State) (c : Nat) (d : Drain) (loc add : Bool) (addr : Nat) : State :=
  if loc then
    let s1 := s.modCore c (fun y => { y with drain := none })
    match (if add then s1.spadRead c addr 0x8000 else (s1, some [])) with
    | (s2, none) => s2.spadUncorrectable c d.tile.owner
    | (s2, some old) =>
      let es := d.tile.spillNew add old
      (s2.spillDone c d.tile es).store (windowAddr c addr) (spillImage es)
  else
    let s1 := s.modCore c (fun y => { y with drain := some { d with spilled := true } })
    if add then s1.coreRead c .spillRead 0 d.tile.owner d.pc addr 0x8000 else s1.spillToStack c d add addr []

/-- A RESUME's buffer has been read: its tile opens (R134). -/
def State.openResumed (s : State) (c k : Nat) (w : Word64) (bs : List Byte) : State :=
  let r := resumeTile k bs
  let q := (s.matCount c k r.2.1 r.2.2).logTile c r.1 w
  q.1.modCore c (fun y => { y with tile := some q.2 })

/-- The effect of a RESUME that starts (R119, R134). -/
def State.resume (s : State) (c k pc : Nat) (w : MatWord) (v : Word64) : State :=
  let b := bufferReg v
  let s1 := s.discardTile c
  if b.1 then
    match s1.spadRead c b.2.1 0x8000 with
    | (s2, none) => s2.spadUncorrectable c k
    | (s2, some bs) => s2.openResumed c k (wordM 3 w) bs
  else (s1.modCore c (fun y => { y with tile := none })).coreRead c .resume (wordM 3 w) k pc b.2.1 0x8000

/-! ### Heads of the matrix class (R119, R175 to R177, R209) -/

/-- The cause for which the unit refuses an instruction as it takes it; 0 where it does not. -/
def State.takeCause (s : State) (c op : Nat) (w : MatWord) (x : Ctx) : Nat :=
  match op with
  | 0 => s.mulCause c x w
  | 1 => s.targetCause c x w.target.toNat w.sd.toNat
  | _ => s.bufferCause c (x.reg w.sp.toNat)

/-- The cause for which the array refuses an instruction as it starts it (R116, R119, R122); 0 where it does not. -/
def State.arrayCause (s : State) (c op : Nat) (w : MatWord) (x : Ctx) : Nat :=
  let t := (s.core c).tile
  match op with
  | 0 =>
    match mulOperands x w.sp.toNat with
    | none => 0
    | some (a, b) =>
      let wide := !a.fc.elem.isBlock
      if tileStateOk t w.acc wide (if wide then mulBlocks w * 32 else mulBlocks w) a.st b.st then 0 else ceTileState
  | 1 | 2 => if t.isNone then ceTileState else 0
  | _ => 0

/-- The cause of a head that the unit meets: of several, TILE_STATE goes before TSCALE. DESIGN CHOICE (assumption log 68). -/
def State.headCause (s : State) (c op : Nat) (w : MatWord) (x : Ctx) : Nat :=
  let a := s.takeCause c op w x
  if (a ≠ 0 ∧ a ≠ ceTscale) || (s.core c).arrayBusy then a
  else if s.arrayCause c op w x ≠ 0 then s.arrayCause c op w x
  else a

/-- An instruction starts in the array, with the registers it has read. -/
def State.runMatrix (s : State) (c k pc op : Nat) (w : MatWord) (x : Ctx) : State :=
  match op with
  | 0 =>
    match mulOperands x w.sp.toNat with
    | none => s
    | some (a, b) => s.multiply c k pc w x a b
  | 1 => s.drainTile c pc (targetOf x w.target.toNat w.sd.toNat) (wordM 1 w)
  | 2 =>
    let b := bufferReg (x.reg w.sp.toNat)
    s.drainTile c pc (.spill b.1 b.2.1 w.acc) (wordM 2 w)
  | _ => s.resume c k pc w (x.reg w.sp.toNat)

/-- The first extent of a window that an instruction names outside the banks: core, offset, and whether it would be written. -/
def outsideBanks (c op : Nat) (w : MatWord) (x : Ctx) : Option (Nat × Nat × Bool) :=
  let lines := match op, mulOperands x w.sp.toNat with
    | 0, some (a, b) => a.lines (mulBlocks w * mulBlock a) (mulBlocks w) ++ b.lines (mulBlocks w * mulBlock b) (mulBlocks w)
    | _, _ => []
  let t := targetReg (x.reg w.sd.toNat)
  let remote := decide (op = 1) || (decide (op = 0) && w.endF)
  match lines.find? (fun p => !inSpad p.1 p.2) with
  | some p => some (c, p.1, false)
  | none =>
    if remote && (w.target.toNat = 1 || w.target.toNat = 2) && !inSpad t.2.1 0x4000 then some (t.1, t.2.1, true) else none

/-- An instruction refused for an address outside the mapped ones is recorded so (R23, R24, R209). -/
def State.noteMatrix (s : State) (c op : Nat) (w : MatWord) (x : Ctx) (cause : Nat) : State :=
  if cause ≠ ceAddress then s
  else if 2 ≤ op then s.noteBuffer c (x.reg w.sp.toNat) 0x8000 (decide (op = 2))
  else
    match outsideBanks c op w x with
    | some p => s.unmapped (.core c) (windowAddr p.1 p.2.1) p.2.2
    | none => s

/-- The instruction in the next place starts: one that the array refuses faults its context (R119, R209). -/
def State.startNext (s : State) (c : Nat) (m : MatNext) : State :=
  let x := { s.ctx c m.ctx with regs := m.regs }
  let s1 := s.modCore c (fun y => { y with matNext := none })
  let cause := s1.arrayCause c m.op m.w x
  if cause = 0 then s1.runMatrix c m.ctx m.pc m.op m.w x
  else (s1.modCtx c m.ctx (fun y => { y with pc := m.pc })).stateError ⟨BitVec.ofNat 12 c, BitVec.ofNat 2 m.ctx⟩ true cause

/-- The engine goes on where the drain buffer is free: the tile that holds at C is copied, and the next instruction starts
(R124, R177). -/
def State.matSettle (s : State) (c : Nat) : State :=
  let s1 := match (s.core c).atC, (s.core c).drain with
    | some d, none => s.modCore c (fun y => ({ y with atC := none }).copyTile d)
    | _, _ => s
  match (s1.core c).matNext with
  | none => s1
  | some m => if (s1.core c).arrayBusy || (s1.core c).stopped then s1 else s1.startNext c m

/-- A head of the matrix class: refused while the next place is closed; else taken, to start at once or to wait in the next place
(R175 to R177). -/
def State.matrixHead (s : State) (h : Hart) (op : Nat) (w : MatWord) (legal : Bool) : State :=
  (s.matSettle h.c).onHead h (wordM op w) legal true (fun t x =>
    if !(t.core h.c).matrixOpen h.k then t
    else
      let cause := t.headCause h.c op w x
      if cause ≠ 0 then (t.noteMatrix h.c op w x cause).stateError h true cause
      else
        let t1 := t.taken h uMatrix (wordM op w) (fun z => { z with replayUnsafe := z.replayUnsafe || (op = 2 && w.acc) })
        if (t.core h.c).arrayBusy then
          t1.modCore h.c (fun y => { y with matNext := some ⟨h.k, x.pc, op, w, x.regs⟩ })
        else t1.runMatrix h.c h.k x.pc op w x)

def execMmul (h : Hart) (w : MatWord) (s : State) : Host.Outcome State Fault Refusal :=
  .next (s.matrixHead h 0 w (matLegalMmul w))

def execDrain (h : Hart) (w : MatWord) (s : State) : Host.Outcome State Fault Refusal :=
  .next (s.matrixHead h 1 w (matLegalDrain w))

def execSpill (h : Hart) (w : MatWord) (s : State) : Host.Outcome State Fault Refusal :=
  .next (s.matrixHead h 2 w (matLegalSpill w))

def execResume (h : Hart) (w : MatWord) (s : State) : Host.Outcome State Fault Refusal :=
  .next (s.matrixHead h 3 w (matLegalResume w))

/-! ### Spill buffers in stack memory (R133, R134, R289) -/

/-- All granules of a core's READ have come. -/
def State.xferRead (s : State) (c : Nat) (x : CoreXfer) : State :=
  let s1 := s.dropXfer c x
  match x.work with
  | .resume =>
    if x.bad then s1.xferLost c x.ctx x.addr
    else (s1.openResumed c x.ctx x.word x.data).matSettle c
  | .spillRead =>
    match (s1.core c).drain with
    | none => s1
    | some d =>
      if x.bad then (s1.modCore c (fun y => { y with drain := none })).xferLost c x.ctx x.addr
      else (s1.spillToStack c d true x.addr x.data).matSettle c
  | _ => s

/-- A granule of a core's own READ has come. -/
def State.xferGranule (s : State) (c : Nat) (x : CoreXfer) (r : Request) (f : Flit) : State :=
  let y := x.land r f
  let t := s.putXfer c x y
  if y.reqs.isEmpty then t.xferRead c y else t

/-- A completion record answers a core's own request: a WRITE is done; a refusal faults the context with ADDRESS, as a stream's
does, and data that are not delivered are LOST (R239, R289). DEDUCED (assumption log 67). -/
def State.xferRecord (s : State) (c : Nat) (x : CoreXfer) (r : Request) (st : Nat) : State :=
  let y := { x with reqs := x.reqs.erase r }
  let s1 := if y.reqs.isEmpty || st ≠ 0 then s.dropXfer c x else s.putXfer c x y
  match st with
  | 0 => s1
  | 3 => s1.xferLost c x.ctx r.addr
  | _ =>
    (s1.modCtx c x.ctx (fun z => { z with pc := x.pc })).stateError
      ⟨BitVec.ofNat 12 c, BitVec.ofNat 2 x.ctx⟩ (x.work ≠ .block) ceAddress

/-! ### The verdict and the release (R126 to R130, R138) -/

/-- The 256 flits of a tile that leaves for another core (R126). -/
def tileFlits (src core off sem op : Nat) : Nat → List Byte → List Flit
  | 0, _ => []
  | n + 1, bs =>
    { mkFlit 7 kCore core kCore src op (off / 64 + (255 - n)) (bs.take 64) with
      last := decide (n = 0), sem := BitVec.ofNat 6 sem } :: tileFlits src core off sem op n (bs.drop 64)

/-- A tile is injected from its entry, which is SENDING until the last flit has left it (R126, R150). -/
def State.sendTile (s : State) (c e owner core off sem op : Nat) (ws : List Word32) : State :=
  (s.modCore c (fun x => x.setEntry e { st := .sending, owner := owner })).injectAll (some e) c
    (tileFlits c core off sem op 256 (bytesOfWords ws))

/-- An entry becomes READY for its owner; entries are ordered by their own verdicts (R150, R151). -/
def Core.readyEntry (c : Core) (e owner order : Nat) (ws : List Word32) : Core :=
  c.setEntry e { st := .ready, owner := owner, order := order, data := ws }

/-- A tile that passed its verdict is released to its target from entry e (R126, R138). Saturations of its scaling count here, so
those of a tile that fails do not. DESIGN CHOICE (assumption log 69). -/
def State.releaseTo (s : State) (c e : Nat) (t : Tile) (target : Target) : State :=
  let o := t.out
  let n := (s.core c).tqOrder
  let s1 := ((s.matCount c t.owner o.2 0).releaseTile c t (some e)).modCore c (fun x => { x with tqOrder := n + 1 })
  match target with
  | .queue => s1.modCore c (fun x => x.readyEntry e t.owner n o.1)
  | .remoteAdd core off sem => s1.sendTile c e t.owner core off sem opAdd32 o.1
  | .remotePut core off sem => s1.sendTile c e t.owner core off sem opWrite o.1
  | .spill _ _ _ => s1
  | _ => s1.modCore c (fun x =>
      x.setEntry e { st := .reserved, owner := t.owner, order := n, data := o.1, chain := some target })

/-- The verdict of a tile with a target that carries it out: it waits for an entry (R125, R128). -/
def State.carryVerdict (s : State) (c : Nat) (d : Drain) : State :=
  let r : Core × Option Nat := match d.entry with
    | some e => (s.core c, some e)
    | none => (s.core c).reserve d.tile.owner
  match r.2 with
  | none => s
  | some e =>
    let d1 := { d with entry := some e }
    match (s.setCore c { r.1 with drain := none }).judge c d1 with
    | (s1, .fail) => s1.failTile c d1
    | (s1, _) => s1.releaseTo c e d.tile d.target

/-- The verdict of the tile in the drain buffer (R126 to R132). -/
def State.tileVerdict (s : State) (c : Nat) (d : Drain) : State :=
  match d.target with
  | .spill loc addr add =>
    match s.judge c d with
    | (s1, .fail) => s1.failTile c d
    | (s1, _) => s1.releaseSpill c d loc add addr
  | _ => s.carryVerdict c d

/-- The drain path reaches its verdict, and the engine goes on (R123 to R130). -/
def execTileVerdict (core : CoreIx) (s : State) : Host.Outcome State Fault Refusal :=
  let c := core.toNat
  let t := s.matSettle c
  .next (match (t.core c).drain with
    | none => t
    | some d => if d.failed || d.spilled then t else (t.tileVerdict c d).matSettle c)

/-- Bytes of a tile of 4,096 elements. -/
def tileBytes4 : Nat := 0x4000

/-- The incoming sum of a chain core: one count of its semaphore, and the sum with the core's own tile. It takes the count only
where no SEMWAIT is listed, and a non-finite incoming value propagates as in IEEE 754. DESIGN CHOICE (assumption log 70). -/
def State.chainSum (s : State) (c : Nat) (x : TqEntry) (isem ioff : Nat) (go : State → List Word32 → State) : State :=
  if ((s.core c).sem isem).value = 0 || (s.core c).hasWaiter isem then s
  else
    match s.spadRead c ioff tileBytes4 with
    | (s1, none) => s1.spadUncorrectable c x.owner
    | (s1, some bs) =>
      let q := memAdds (wordsOfBytes bs) x.data
      go ((s1.semTake c isem 1).matCount c x.owner q.2 0) q.1

/-- A chain core consumes one count of its incoming sum, adds its own tile to it and releases the sum (R138). -/
def execChainStep (core : CoreIx) (entry : Fin 4) (s : State) : Host.Outcome State Fault Refusal :=
  let c := core.toNat
  let e := entry.val
  let x := (s.core c).entry e
  let step := s.chainSum c x
  .next (match x.chain with
    | some (.chainQueue isem ioff) =>
      step isem ioff (fun t ws => t.modCore c (fun y => y.readyEntry e x.owner x.order ws))
    | some (.chainPut isem ioff d off sem) =>
      step isem ioff (fun t ws => t.sendTile c e x.owner d off sem opWrite ws)
    | _ => s)

end Sys2Proof.Machine
end

