-- ==== Sys2Proof/Machine/FabricCmds.lean ====
section
/-! DEFINITION. The commands of the fabric: frames and messages, timers, ports, and requests at I/O die sites (spec/12). -/

namespace Sys2Proof.Machine

/-! ### Arriving frames -/

def execFrameReceived (port : Fin 144) (frame : Frame) (s : State) : Host.Outcome State Fault Refusal :=
  .next (s.receive port.val frame.bytes)

def execAck (port : Fin 144) (frame : Frame) (s : State) : Host.Outcome State Fault Refusal :=
  .next (s.receiveTyped mAck port.val frame.bytes)

def execHeartbeat (port : Fin 144) (frame : Frame) (s : State) : Host.Outcome State Fault Refusal :=
  .next (s.receiveTyped mHeartbeat port.val frame.bytes)

def execMembership (port : Fin 144) (frame : Frame) (s : State) : Host.Outcome State Fault Refusal :=
  .next (s.receiveTyped mMembership port.val frame.bytes)

def execGatherData (port : Fin 144) (frame : Frame) (s : State) : Host.Outcome State Fault Refusal :=
  .next (s.receiveTyped mGatherData port.val frame.bytes)

def execReduced (port : Fin 144) (frame : Frame) (s : State) : Host.Outcome State Fault Refusal :=
  .next (s.receiveTyped mReduced port.val frame.bytes)

def execPermute (port : Fin 144) (frame : Frame) (s : State) : Host.Outcome State Fault Refusal :=
  .next (s.receiveTyped mPermute port.val frame.bytes)

def execPartnerPut (port : Fin 144) (frame : Frame) (s : State) : Host.Outcome State Fault Refusal :=
  .next (s.receiveTyped mPartnerPut port.val frame.bytes)

def execPartnerGet (port : Fin 144) (frame : Frame) (s : State) : Host.Outcome State Fault Refusal :=
  .next (s.receiveTyped mPartnerGet port.val frame.bytes)

def execApplied (port : Fin 144) (frame : Frame) (s : State) : Host.Outcome State Fault Refusal :=
  .next (s.receiveTyped mApplied port.val frame.bytes)

/-! ### The bucket table (R347, R404) -/

/-- An owned bucket whose held summary's chunks have all been written. -/
def OwnedBucket.ready (o : OwnedBucket) : Bool :=
  !o.written && !o.writing && match o.summary with
    | some q => decide (q.chunks ≤ o.landed)
    | none => false

/-- A bucket table entry with K zero (R347). -/
def entryBytes (o : OwnedBucket) (q : Summary) : List Byte :=
  leBytes 4 o.bucket ++ leBytes 4 0 ++ leBytes 8 q.ntok ++ leBytes 8 o.gaddr ++ leBytes 4 q.bytes ++
    leBytes 1 (if o.strict then 1 else 0) ++ leBytes 3 0

/-- The site whose REDUCED data an owned bucket's range names (R392). -/
def Job.bucketSite (j : Job) (b : Nat) : Nat :=
  ((j.owned.find? (fun r => decide (r.first ≤ b ∧ b < r.first + r.count))).map (·.site)).getD 0

/-- The entry goes to the bucket table (R347, R397). -/
def State.writeEntry (s : State) (j : Nat) (r : StepRun) (o : OwnedBucket) (q : Summary) : State :=
  let s1 := s.setStep j { r with owned := putOwned { o with writing := true } r.owned }
  (s1.ioWrite ((s.job j).bucketSite o.bucket) j [(r.entryAddr (r.entryIndex o.bucket), 32)] (entryBytes o q)
    (.entry j r.n o.bucket)).getD s

def execBucketTableEntry (job : Fin 8) (bucket : Nat) (s : State) : Host.Outcome State Fault Refusal :=
  let j := job.val
  let hit (r : StepRun) : Bool := r.early && r.owned.any (fun o => o.bucket = bucket && o.ready)
  .next (match (s.job j).steps.find? hit with
    | none => s
    | some r =>
      match r.owned.find? (fun o => o.bucket = bucket && o.ready) with
      | none => s
      | some o =>
        match o.summary with
        | none => s
        | some q => s.writeEntry j r o q)

/-! ### Contributions -/

def execContrib (site : Fin 36) (chunk : Nat) (s : State) : Host.Outcome State Fault Refusal :=
  let x := s.ioSite site.val
  .next (match x.chunks[chunk]? with
    | none => s
    | some c =>
      if c.left ≠ 0 then s
      else (s.setIoSite site.val { x with chunks := x.chunks.eraseIdx chunk }).sendChunk site.val c)

def execConfirm (job : Fin 8) (s : State) : Host.Outcome State Fault Refusal :=
  let j := job.val
  .next (match (s.job j).chunkStep with
    | none => s
    | some r =>
      match r.sentBuckets.find? (fun b => s.confirmable j r b) with
      | none => s
      | some b => s.confirmBucket j r b)

/-! ### Timers of the transport (R385, R386) -/

/-- The i-th connection of a site, in the order they were first used. -/
def State.siteConn (s : State) (site i : Nat) : Option Conn :=
  (s.fabric.conns.filter (fun c => c.site = site))[i]?

def execRetransmit (site : Fin 36) (conn seq : Nat) (s : State) : Host.Outcome State Fault Refusal :=
  .next (match s.siteConn site.val conn with
    | none => s
    | some c => s.resend site.val c.group c.server seq)

def execAckTimer (site : Fin 36) (conn : Nat) (s : State) : Host.Outcome State Fault Refusal :=
  .next (match s.siteConn site.val conn with
    | none => s
    | some c => if c.sinceAck = 0 && c.held.isEmpty then s else s.sendAck site.val c.group c.server)

/-- Fabric groups that a job context binds. -/
def State.boundGroups (s : State) : List Nat := (List.range 64).filter (fun g => !(s.boundJobs g).isEmpty)

/-- The connections of a site with every server of every fabric group that a job context binds (R386). -/
def State.beatConns (s : State) : List (Nat × Nat) :=
  s.boundGroups.flatMap (fun g => (List.range (((s.group g).map (fun x => x.servers.length)).getD 0)).map (fun v => (g, v)))

/-- HEARTBEATs leave on every UP port, each with the ACK and CREDIT of its connection; a run of HEARTBEATs that has waited for 2
intervals ends (R379, R383, R386). -/
def execHeartbeatInterval (site : Fin 36) (s : State) : Host.Outcome State Fault Refusal :=
  let i := site.val
  .next (if !s.isIo i || (s.ioSite i).fenced then s
    else
      let s0 := if (s.upPorts i).isEmpty then s
        else s.beatConns.foldl (fun a q => a.setConn (a.conn i q.1 q.2).acked) s
      let s1 := (s.upPorts i).foldl (fun a p => a.bumpPort p cFramesTx s.beatConns.length) s0
      (List.range 4).foldl (fun a k =>
        if a.portState (4 * i + k) = .training
        then a.setPort (4 * i + k) { a.port (4 * i + k) with beats := a.beatRun (4 * i + k) } else a) s1)

/-! ### Ports (R379, R381, R515) -/

/-- An UP port goes DOWN with a cause (R379). -/
def State.downPort (s : State) (p cause : Nat) : State :=
  if s.portState p = .up then
    ((s.setPort p { s.port p with st := .down, beats := 0 }).record .portDown (.port p)
      [(1, p), (1, cause)]).notePorts (p / 4)
  else s

def execPortDown (port : Fin 144) (cause : Fin 4) (s : State) : Host.Outcome State Fault Refusal :=
  .next (s.downPort port.val (cause.val + 1))

def execPortRetrain (port : Fin 144) (s : State) : Host.Outcome State Fault Refusal :=
  .next (if s.portState port.val = .down && decide (s.regs.macBase ≠ 0) then
    s.setPort port.val { s.port port.val with st := .training, beats := 0 } else s)

def execFabricBackpressure (site : Fin 36) (s : State) : Host.Outcome State Fault Refusal :=
  .next (match s.fabric.conns.find? (fun c => c.site = site.val && !c.queue.isEmpty) with
    | none => s
    | some c => s.record .fabricBackpressure (.site site.val)
        [(1, c.group), (2, ((s.group c.group).map (·.member)).getD 0), (1, c.site), (1, c.server)])

/-- Job contexts and steps whose norm summary is outstanding (R406). -/
def State.stalled (s : State) : List (Nat × Nat) :=
  (List.range 8).flatMap (fun j => ((s.job j).steps.filter (fun r =>
    r.st = .backwardDone && r.normSent)).map (fun r => (j, r.n)))

def execFabricStall (site : Fin 36) (s : State) : Host.Outcome State Fault Refusal :=
  .next (s.stalled.foldl (fun a q => a.record .fabricStall (.site site.val) [(1, q.1), (4, q.2)]) s)

/-- Every job context bound to a fabric group fails (R462). -/
def State.failBound (s : State) : State :=
  ((List.range 8).filter (fun j => (s.job j).st ≠ .empty && (s.job j).fgroup.isSome)).foldl (fun a j => a.failJob j) s

def execIoDieFenced (site : Fin 36) (s : State) : Host.Outcome State Fault Refusal :=
  .next (if s.isIo site.val && !(s.ioSite site.val).fenced then
    (s.modIoSite site.val (fun x => { x with fenced := true })).failBound else s)

/-! ### Requests at I/O die sites (R19, R395) -/

/-- An I/O die site takes a request that has reached it: a fenced die answers ADDRESS (R19). -/
def State.ioRequest (s : State) (f : Flit) (r : SiteReq) (serve : State → State) : State :=
  s.onArrival f (fun t =>
    if (s.ioSite r.site).fenced then
      (t.sendFromSite r.site (recordFlit r.fromSite r.site r.core 1 (r.ctx % 4) (fieldAt r.bytes 2 2)
        (fieldAt r.bytes 16 4) (fieldAt r.bytes 8 8))).traceSite r.site r.opc 1 (fieldAt r.bytes 8 8)
    else if r.fromSite then t.sendFromSite r.site (recordFlit true r.site r.core 6 (r.ctx % 4) 0 0 (fieldAt r.bytes 8 8))
    else serve t)

def execGather (f : Flit) (s : State) : Host.Outcome State Fault Refusal :=
  .next (match siteReqOf f with
    | none => s
    | some r => if s.isIo r.site && decide (r.opc = 0x10) then s.ioRequest f r (fun t => t.serveGather r) else s)

def execContribOpen (f : Flit) (s : State) : Host.Outcome State Fault Refusal :=
  .next (match siteReqOf f with
    | none => s
    | some r => if s.isIo r.site && decide (r.opc = 0x11) then s.ioRequest f r (fun t => (t.serveOpen r).workLanding r.site) else s)

def execPublish (f : Flit) (s : State) : Host.Outcome State Fault Refusal :=
  .next (match siteReqOf f with
    | none => s
    | some r => if s.isIo r.site && decide (r.opc = 0x12) then s.ioRequest f r (fun t => t.servePublish r) else s)

end Sys2Proof.Machine
end

