-- ==== Sys2Proof/Machine/Rings.lean ====
section
/-! DEFINITION. Ring commands: doorbells, the fetch of submission entries, completion entries and their interrupts, making
and removing rings (spec/15 R475, R479 to R486, R495, R498 to R500). -/

namespace Sys2Proof.Machine

/-! ### Doorbells (R475, R481, R482) -/

/-- Causes of REGWRITE_REFUSED, in the order of R507. DESIGN CHOICE (assumption log 15). -/
def rwRange : Nat := 0
def rwSession : Nat := 1
def rwState : Nat := 2
def rwWidth : Nat := 3
def rwBase : Nat := 4

def State.badDoorbell (s : State) (r off value : Nat) : State :=
  s.record .doorbellInvalid .hid [(1, r), (2, off), (4, value)]

/-- A doorbell write that the function receives: four bytes wide, outside D3hot (R475, R505). -/
def State.onDoorbell (s : State) (r off value width : Nat) (f : Ring → Option Ring) : State :=
  if s.host.d3hot then s
  else if width ≠ 4 then
    s.record .regwriteRefused .hid [(4, 0x1000000 + r * 0x1000 + off), (8, value), (1, rwWidth)]
  else
    match s.ring r with
    | none => s.badDoorbell r off value
    | some x =>
      match f x with
      | none => s.badDoorbell r off value
      | some y => s.setRing r y

/-- SQ_PI: any index of the submission ring (R482). -/
def Ring.writePi (x : Ring) (v : Nat) : Option Ring := if v < 2 ^ x.sqLog then some { x with sqPi := v } else none

/-- CQ_CI: an index on the way from the previous one forward to CQ_PI (R482). -/
def Ring.writeCi (x : Ring) (v : Nat) : Option Ring :=
  let n := 2 ^ x.cqLog
  if v < n ∧ (v + n - x.cqCi) % n ≤ (x.cqPi + n - x.cqCi) % n then some { x with cqCi := v } else none

def execDoorbell (ring : Fin 64) (value : BitVec 32) (width : Nat) (s : State) : Host.Outcome State Fault Refusal :=
  .next (s.onDoorbell ring.val 0 value.toNat width (fun x => x.writePi value.toNat))

def execCqCiWrite (ring : Fin 64) (value : BitVec 32) (width : Nat) (s : State) : Host.Outcome State Fault Refusal :=
  .next (s.onDoorbell ring.val 4 value.toNat width (fun x => x.writeCi value.toNat))

/-! ### The fetch (R483) -/

/-- Entries that wait in a submission ring, and room in its completion ring. -/
def Ring.waiting (x : Ring) : Nat := (x.sqPi + 2 ^ x.sqLog - x.sqCi) % 2 ^ x.sqLog
def Ring.room (x : Ring) : Nat :=
  (x.cqCi + 2 ^ x.cqLog - x.cqPi - 1) % 2 ^ x.cqLog - (x.fetched.length + x.taken.length)

/-- An ACTIVE ring that holds entries it may fetch. -/
def Ring.fetchable (x : Ring) : Bool := !x.error && !x.deleting && decide (0 < x.waiting) && decide (0 < x.room)

/-- The ring of the next visit. -/
def State.nextRing (s : State) : Option Nat :=
  ((List.range 64).map (fun i => (s.host.lastRing + 1 + i) % 64)).find? (fun r => (s.ring r).any (·.fetchable))

/-- Device address of submission entry i. -/
def Ring.sqAddr (x : Ring) (i : Nat) : Nat := x.sqBase + 64 * (i % 2 ^ x.sqLog)

/-- The ring enters ERROR (R483); its taken commands run to completion. -/
def State.ringError (s : State) (r : Nat) (x : Ring) : State :=
  (((s.hostError r 0 (x.sqAddr x.sqCi)).setRing r { x with error := true }).record .ringError .hid
    [(1, r), (2, x.sqCi)]).raiseDevice flagRing

/-- One visit: the entries that it fetches. -/
def State.fetchRing (s : State) (r : Nat) (x : Ring) : State :=
  let n := min 16 (min x.waiting x.room)
  let es := (List.range n).map (fun i => entryOf (s.bytes (x.sqAddr (x.sqCi + i)) 64))
  let y : Ring := { x with sqCi := (x.sqCi + n) % 2 ^ x.sqLog, fetched := x.fetched ++ es }
  (s.setRing r y).settleRing r (y.fetched.length)

def State.fetchOk (s : State) (x : Ring) : Bool :=
  (List.range (min 16 (min x.waiting x.room))).all (fun i => s.hostOk (x.sqAddr (x.sqCi + i)) 64)

def execSqFetch (ring : Fin 64) (failed : Bool) (s : State) : Host.Outcome State Fault Refusal :=
  let r := ring.val
  .next (if s.regs.st = .boot || s.host.d3hot || s.nextRing ≠ some r then s
    else
      let s1 : State := { s with host := { s.host with lastRing := r } }
      match s.ring r with
      | none => s
      | some x => if failed || !s.fetchOk x then s1.ringError r x else s1.fetchRing r x)

/-! ### Completion entries (R485, R486, R488, R499) -/

/-- The 32 bytes of a completion entry. -/
def completionBytes (x : Ring) (t : Taken) (st : Nat) : List Byte :=
  leBytes 2 t.entry.cid ++ leBytes 1 st ++ leBytes 1 t.entry.opcode ++ leBytes 1 t.entry.job ++ leBytes 1 0 ++
  leBytes 2 x.sqCi ++ leBytes 8 t.result0 ++ leBytes 8 t.result1 ++ leBytes 4 t.evseq ++ leBytes 3 0 ++
  leBytes 1 (if x.phase then 1 else 0)

/-- A status that raises the interrupt whether NOINT is set or not. -/
def urgent (st : Nat) : Bool := decide (0x10 ≤ st ∧ st ≤ 0x15) || st = stResource

/-- The pending count after one more entry, and whether the vector is raised. -/
def Ring.countEntry (x : Ring) (t : Taken) (st : Nat) : Nat × Bool :=
  let n := x.pendingInts + (if t.entry.noint then 0 else 1)
  if x.ccount = 0 then (n, false)
  else if x.ccount ≤ n || urgent st then (0, true)
  else (n, false)

/-- A ring that is being removed goes once its taken commands have completed; RING_DELETE then completes (R495). -/
def State.removeRing (s : State) (r : Nat) (x : Ring) : State :=
  let s1 : State := { s with host := { s.host with rings := Tab.set none s.host.rings r none } }
  match x.deleteBy with
  | some id => s1.finish 0 id stDone 0 0
  | none => s1

def State.reapRing (s : State) (r : Nat) : State :=
  match s.ring r with
  | some x => if x.deleting && x.taken.isEmpty then s.removeRing r x else s
  | none => s

/-- The oldest taken command's entry is written. -/
def State.writeEntry32 (s : State) (r : Nat) (x : Ring) (t : Taken) (st : Nat) : State :=
  let q := x.countEntry t st
  let next := (x.cqPi + 1) % 2 ^ x.cqLog
  let s1 := s.storeHost (x.cqBase + 32 * x.cqPi) (completionBytes x t st)
  let s2 := s1.setRing r { x with
    cqPi := next
    phase := if next = 0 then !x.phase else x.phase
    taken := x.taken.drop 1
    pendingInts := q.1 }
  (if q.2 then s2.raiseVector x.vector else s2).reapRing r

def execCompletionEntry (ring : Fin 64) (s : State) : Host.Outcome State Fault Refusal :=
  let r := ring.val
  .next (if s.host.d3hot then s
    else
      match s.ring r with
      | none => s
      | some x =>
        match x.taken with
        | [] => s
        | t :: _ =>
          match t.status with
          | none => s
          | some st => s.writeEntry32 r x t st)

def execCtimeExpiry (ring : Fin 64) (s : State) : Host.Outcome State Fault Refusal :=
  .next (match s.ring ring.val with
    | none => s
    | some x =>
      if x.ctime = 0 || x.ccount = 0 || x.pendingInts = 0 then s
      else (s.setRing ring.val { x with pendingInts := 0 }).raiseVector x.vector)

/-- CQ_FULL concerns a ring that holds entries and has no room (R500). -/
def execCqFull (ring : Fin 64) (s : State) : Host.Outcome State Fault Refusal :=
  .next (match s.ring ring.val with
    | none => s
    | some x =>
      if !x.error && !x.deleting && decide (0 < x.waiting) && decide (x.room = 0) then s.record .cqFull .hid [(1, ring.val)] else s)

/-! ### Making and removing rings (R480, R495) -/

/-- A new ring: ACTIVE, every index zero, phase 1. -/
def newRing (role job vector sqLog cqLog ccount ctime sqBase cqBase : Nat) : Ring :=
  { role, job, vector, sqLog, cqLog, ccount, ctime, sqBase, cqBase }

/-- The RING_CREATE block keeps R480. -/
def ringBlockOk (b : List Byte) : Bool :=
  let role := fieldAt b 1 1
  let job := fieldAt b 2 1
  decide (1 ≤ fieldAt b 0 1 ∧ fieldAt b 0 1 ≤ 63 ∧ 1 ≤ role ∧ role ≤ 3 ∧ 1 ≤ fieldAt b 3 1) &&
  (if role = roleJob then decide (job ≤ 7) else decide (job = 0xFF)) &&
  decide (4 ≤ fieldAt b 4 1 ∧ fieldAt b 4 1 ≤ 16 ∧ 4 ≤ fieldAt b 5 1 ∧ fieldAt b 5 1 ≤ 16) &&
  zeroAt b 7 1 && zeroAt b 0x1A 6 &&
  decide (fieldAt b 8 8 % 4096 = 0 ∧ fieldAt b 16 8 % 4096 = 0) &&
  inHost (fieldAt b 8 8) (64 * 2 ^ fieldAt b 4 1) && inHost (fieldAt b 16 8) (32 * 2 ^ fieldAt b 5 1)

/-- The session holds a job context (R480, R562). -/
def State.sessionHolds (s : State) (role job : Nat) : Bool :=
  match s.sec.session with
  | none => false
  | some q => decide (role ≤ q.role) &&
    (decide (role ≠ roleJob) || decide (q.role ≠ roleJob) || decide (q.jobs / 2 ^ job % 2 = 1))

def execRingCreate (ring : Fin 64) (s : State) : Host.Outcome State Fault Refusal :=
  .next (s.takeCommand ring.val ocRingCreate (fun c t =>
    let b := t.blockOf c.e
    let n := fieldAt b 0 1
    if !ringBlockOk b then t.done c stMalformed 0 0
    else if (t.ring n).isSome then t.done c stState 0 0
    else if !t.sessionHolds (fieldAt b 1 1) (fieldAt b 2 1) then t.done c stDenied 0 0
    else
      (t.setRing n (newRing (fieldAt b 1 1) (fieldAt b 2 1) (fieldAt b 3 1) (fieldAt b 4 1) (fieldAt b 5 1) (fieldAt b 6 1)
        (fieldAt b 0x18 2) (fieldAt b 8 8) (fieldAt b 16 8))).done c stDone 0 0))

/-- A ring stops fetching; what it has fetched and not taken is never taken (R495).
DEDUCED: fetched entries go (assumption log 38). -/
def State.deleteRing (s : State) (r : Nat) (by_ : Option Nat) : State :=
  match s.ring r with
  | none => s
  | some x => (s.setRing r { x with deleting := true, deleteBy := by_, fetched := [] }).reapRing r

def execRingDelete (ring : Fin 64) (s : State) : Host.Outcome State Fault Refusal :=
  .next (s.takeCommand ring.val ocRingDelete (fun c t =>
    let n := c.e.arg0 % 64
    if n = 0 then t.done c stMalformed 0 0
    else
      match t.ring n with
      | none => t.done c stState 0 0
      | some x => if x.deleting then t.done c stState 0 0 else t.deleteRing n (some c.id)))

/-! ### Ring 0 (R513, R514) -/

def State.rejectReg (s : State) (off value cause : Nat) : State :=
  s.record .regwriteRefused .hid [(4, off), (8, value), (1, cause)]

/-- The fields of R0CFG. -/
def cfgEnable (v : Nat) : Bool := decide (v / 2 ^ 63 % 2 = 1)
def cfgCtime (v : Nat) : Nat := v / 2 ^ 40 % 2 ^ 16
def cfgCcount (v : Nat) : Nat := v / 2 ^ 32 % 2 ^ 8
def cfgVector (v : Nat) : Nat := v / 2 ^ 24 % 2 ^ 8
def cfgCqLog (v : Nat) : Nat := v / 2 ^ 16 % 2 ^ 8
def cfgSqLog (v : Nat) : Nat := v / 2 ^ 8 % 2 ^ 8

def logOk (n : Nat) : Bool := decide (4 ≤ n ∧ n ≤ 16)

/-- R0CFG after a write, ENABLE aside: each field keeps its value where the written one is out of range (R11, R507). -/
def mergeCfg (old v : Nat) : Nat :=
  cfgCtime v * 2 ^ 40 + cfgCcount v * 2 ^ 32 +
  (if cfgVector v = 0 then cfgVector old else cfgVector v) * 2 ^ 24 +
  (if logOk (cfgCqLog v) then cfgCqLog v else cfgCqLog old) * 2 ^ 16 +
  (if logOk (cfgSqLog v) then cfgSqLog v else cfgSqLog old) * 2 ^ 8

def cfgOutOfRange (v : Nat) : Bool := decide (cfgVector v = 0) || !logOk (cfgCqLog v) || !logOk (cfgSqLog v)

/-- A base of ring 0 that R514 accepts. -/
def baseOk (a n : Nat) : Bool := decide (a % 4096 = 0) && inHost a n

def r0cfgOff : Nat := 0x3010

/-- Ring 0 exists: ACTIVE. -/
def State.ring0Active (s : State) : Bool := (s.ring 0).isSome

/-- R0CFG with ENABLE set, from the bits that are held. -/
def withEnable (v : Nat) (en : Bool) : Nat := v % 2 ^ 63 + (if en then 2 ^ 63 else 0)

/-- The other fields of a write of R0CFG: refused while ACTIVE where one would change (R514), else merged.
DEDUCED (assumption log 38). -/
def State.writeCfg (s : State) (v : Nat) : State :=
  let old := s.regs.r0Cfg
  if s.ring0Active then
    if v % 2 ^ 56 / 2 ^ 8 = old % 2 ^ 56 / 2 ^ 8 then s else s.rejectReg r0cfgOff v rwState
  else
    let s1 := if cfgOutOfRange v then s.rejectReg r0cfgOff v rwRange else s
    { s1 with regs := { s1.regs with r0Cfg := withEnable (mergeCfg old v) (cfgEnable old) } }

/-- ENABLE is written from 0 to 1 (R514). -/
def State.enableRing0 (s : State) (v : Nat) : State :=
  let g := s.regs
  if s.ring0Active then { s with regs := { g with r0Cfg := withEnable g.r0Cfg true } }
  else if !(baseOk g.r0SqBase (64 * 2 ^ cfgSqLog g.r0Cfg) && baseOk g.r0CqBase (32 * 2 ^ cfgCqLog g.r0Cfg)) then
    s.rejectReg r0cfgOff v rwBase
  else
    ({ s with regs := { g with r0Cfg := withEnable g.r0Cfg true } }).setRing 0
      (newRing 0 0xFF (cfgVector g.r0Cfg) (cfgSqLog g.r0Cfg) (cfgCqLog g.r0Cfg) (cfgCcount g.r0Cfg) (cfgCtime g.r0Cfg)
        g.r0SqBase g.r0CqBase)

def execRing0Enable (value : Word64) (s : State) : Host.Outcome State Fault Refusal :=
  let v := value.toNat
  .next (if s.host.d3hot || !cfgEnable v || cfgEnable s.regs.r0Cfg then s
    else (s.writeCfg v).enableRing0 v)

def execRing0Disable (value : Word64) (s : State) : Host.Outcome State Fault Refusal :=
  let v := value.toNat
  .next (if s.host.d3hot || cfgEnable v || !cfgEnable s.regs.r0Cfg then s
    else
      let s1 := s.writeCfg v
      ({ s1 with regs := { s1.regs with r0Cfg := withEnable s1.regs.r0Cfg false } }).deleteRing 0 none)

/-! ### Interrupts and power states of the function (R473, R475, R498) -/

/-- Send the messages of pending vectors that are not masked. -/
def State.sendPending (s : State) : State :=
  let vs := s.host.msixPending.filter (fun v => s.host.unmasked.contains v)
  let s1 : State := { s with host := { s.host with
    msixPending := s.host.msixPending.filter (fun v => !s.host.unmasked.contains v) } }
  vs.foldl (fun a v => a.raiseVector v) s1

/-- A vector is unmasked. -/
def State.unmask (s : State) (v : Nat) : State :=
  let s1 : State := { s with host := { s.host with
    unmasked := if s.host.unmasked.contains v then s.host.unmasked else v :: s.host.unmasked } }
  if s.host.d3hot then s1 else s1.sendPending

def execMsixUnmask (vector : Fin 256) (s : State) : Host.Outcome State Fault Refusal :=
  .next (if s.host.d3hot then s else s.unmask vector.val)

def execPowerStateD3hot (s : State) : Host.Outcome State Fault Refusal :=
  .next { s with host := { s.host with d3hot := true } }

def execPowerStateD0 (s : State) : Host.Outcome State Fault Refusal :=
  .next (({ s with host := { s.host with d3hot := false } }).sendPending)

/-- The widths and speeds, in tenths of GT/s, that the link trains to (R472). -/
def linkOk (width speed : Nat) : Bool :=
  [4, 8, 16].contains width && [25, 50, 80, 160, 320, 640].contains speed

def execLinkDegraded (width speed : Nat) (s : State) : Host.Outcome State Fault Refusal :=
  .next (if !linkOk width speed || (width = s.host.width && speed = s.host.speed) then s
    else ({ s with host := { s.host with width := width, speed := speed } }).record .linkDegraded .hid
      [(1, width), (2, speed)])

end Sys2Proof.Machine
end

