-- ==== Sys2Proof/Machine/HostData.lean ====
section
/-! DEFINITION. The BAR2 window, token data, and the commands that copy what the device has recorded (spec/15 R477, R478,
R491, R496, R497, spec/19 R578, R579, R583, R599, R600). -/

namespace Sys2Proof.Machine

/-! ### BAR2 (R477, R478) -/

def execWindowSet (ring : Fin 64) (s : State) : Host.Outcome State Fault Refusal :=
  .next (s.takeCommand ring.val ocWindowSet (fun c t =>
    let base := c.e.arg1
    if base % 4096 ≠ 0 || !t.inStack base 1 then t.done c stMalformed 0 0
    else
      ({ t with host := { t.host with windowBase := base, windowJob := some c.e.job } }).done c stDone 0 0))

/-- An access that is not admitted is counted and recorded, and one to an unmapped address as such too (R23, R478). -/
def State.bar2Refuse (s : State) (addr n : Nat) (write : Bool) : State :=
  (({ s with host := { s.host with bar2Refused := s.host.bar2Refused + 1 } }).record .bar2Refused .hid
    [(8, addr), (1, if write then 1 else 0)]).noteAccess .hid addr n write

/-- What the host receives: the completion's data, or none for Unsupported Request. -/
def State.hostGets (s : State) (bs : Option (List Byte)) (poisoned : Bool) : State :=
  { s with host := { s.host with readData := bs, readPoisoned := poisoned } }

/-- The window's job context has one region that holds the extent. -/
def State.bar2Region (s : State) (addr n : Nat) : Option (Nat × MemRegion) :=
  match s.host.windowJob with
  | none => none
  | some j => if !s.inStack addr n then none else ((s.job j).regionOf addr n).map (fun m => (j, m))

/-- BAR2's bytes. -/
def bar2Size : Nat := 2 ^ 34

def execBar2Read (offset : Nat) (len : Nat) (s : State) : Host.Outcome State Fault Refusal :=
  let addr := s.host.windowBase + offset
  .next (if s.regs.st = .boot || s.host.d3hot then s.hostGets none false
    else if len = 0 || bar2Size < offset + len || (s.bar2Region addr len).isNone then
      (s.bar2Refuse addr len false).hostGets none false
    else
      match s.readStack addr len with
      | (t, some bs) => t.hostGets (some bs) false
      | (t, none) => t.hostGets (some (List.replicate len 0)) true)

/-- Bytes written into stack memory; a word that is written in part is merged, and one that cannot be read stays (R43).
DEDUCED (assumption log 39). -/
def State.storeMerged (s : State) (a : Nat) (bs : List Byte) : State :=
  (wordsOf a bs.length).foldl (fun t w =>
    let lo := max a (32 * w)
    let hi := min (a + bs.length) (32 * w + 32)
    let piece := (bs.drop (lo - a)).take (hi - lo)
    if hi - lo = 32 then t.store lo piece
    else
      let q := t.readWord (32 * w)
      if q.2 then q.1.store lo piece else q.1) s

/-- A BAR2 write is admitted by the kind of its region; OWNED only in a commit window. -/
def State.bar2Admits (s : State) (addr n : Nat) : Bool :=
  match s.bar2Region addr n with
  | none => false
  | some (j, m) => m.kind ≠ rkOwned || (s.job j).commitOpen

def execBar2Write (offset : Nat) (data : List Byte) (s : State) : Host.Outcome State Fault Refusal :=
  let addr := s.host.windowBase + offset
  .next (if s.regs.st = .boot || s.host.d3hot || data.isEmpty then s
    else if bar2Size < offset + data.length || !s.bar2Admits addr data.length then s.bar2Refuse addr data.length true
    else (s.touchRows addr data.length).storeMerged addr data)

/-! ### Token data (R496, R497) -/

/-- The extent of a scratchpad window that a token block names: core and offset. -/
def spadTarget (a n : Nat) : Option (Nat × Nat) :=
  let c := (a - spadBase) / 2 ^ 23
  let o := (a - spadBase) % 2 ^ 23
  if spadBase ≤ a ∧ c < 4096 && inSpad o n then some (c, o) else none

/-- The token block keeps R496. -/
def State.tokenOk (s : State) (c : Cmd) (b : List Byte) (put : Bool) : Bool :=
  let h := fieldAt b 0 8
  let d := fieldAt b 8 8
  let n := fieldAt b 16 4
  let j := s.job c.e.job
  decide (h % 64 = 0 ∧ d % 64 = 0 ∧ n % 64 = 0 ∧ 64 ≤ n) && inHost h n && zeroAt b 0x15 11 &&
  (match spadTarget d n with
   | some q => j.holds q.1 && (if put then decide (fieldAt b 20 1 < 128) else zeroAt b 20 1)
   | none => zeroAt b 20 1 && s.inStack d n &&
      (match j.regionOf d n with
       | none => false
       | some m => !put || m.kind = rkStaging || m.kind = rkOwned))

/-- The present state lets the token command go on. -/
def State.tokenState (s : State) (c : Cmd) (b : List Byte) (put : Bool) : Bool :=
  let d := fieldAt b 8 8
  let n := fieldAt b 16 4
  match spadTarget d n with
  | some q => s.reachable q.1
  | none => !put || !(s.job c.e.job).inKind rkOwned d n || (s.job c.e.job).commitOpen

/-- One 32-byte word from host memory; poisoned where the read fails. DEDUCED (assumption log 39). -/
def State.putWord (s : State) (h d : Nat) : State :=
  if s.hostOk h 32 then s.store d (s.bytes h 32) else s.poison d 32

/-- The first word of an extent of host memory that a read does not get. -/
def State.firstFail (s : State) (h n : Nat) : Option Nat := (wordsOf h n).find? (fun w => !s.hostOk (32 * w) 32)

/-- A WRITE flit of host data, poisoned where the host read of a word has failed (R281, R497). -/
def State.tokenFlit (s : State) (h : Nat) (f : Flit) (g : Nat) : Flit :=
  let f0 := if s.hostOk (h + 64 * g) 32 then f else f.poisonWord 0
  if s.hostOk (h + 64 * g + 32) 32 then f0 else f0.poisonWord 1

/-- Data for a core's window travel over the spur as WRITE flits, the increment with the last; the command completes when they have
come (R20, R234, R497). -/
def State.tokenToCore (s : State) (c : Cmd) (h core off n sem st : Nat) : State :=
  let fs := deliveryFlits .hid core off (s.bytes h n) (if 64 ≤ sem then some (sem % 64) else none)
  let s1 := (fs.zipIdx.map (fun p => s.tokenFlit h p.1 p.2)).foldl (fun a f => a.sendFrom .hid f) s
  { s1 with host := { s1.host with tokens := s1.host.tokens ++ [⟨c.ring, c.id, core, st⟩] } }

/-- TOKEN_PUT. Data for stack memory are written in the command's own step. DESIGN CHOICE (assumption log 79). -/
def State.tokenPut (s : State) (c : Cmd) (b : List Byte) : State :=
  let h := fieldAt b 0 8
  let d := fieldAt b 8 8
  let n := fieldAt b 16 4
  let q : State × Nat := match s.firstFail h n with
    | none => (s, stDone)
    | some w => (s.hostError c.ring c.e.cid (32 * w), stFault)
  match spadTarget d n with
  | some t => q.1.tokenToCore c h t.1 t.2 n (fieldAt b 20 1) q.2
  | none =>
    ((List.range (n / 32)).foldl (fun t i => t.putWord (h + 32 * i) (d + 32 * i)) (q.1.touchRows d n)).done c q.2 0 0

/-- One word to host memory; poisoned where the device does not deliver it. DEDUCED (assumption log 39). -/
def State.getWord (s : State) (stack : Bool) (core d h : Nat) : State × Bool :=
  let q : State × Option (List Byte) := if stack then s.readStack d 32 else s.spadRead core (d - windowAddr core 0) 32
  match q with
  | (t, some bs) => (t.storeHost h bs, true)
  | (t, none) => ((if stack then t else t.record .spadUncorrectable (.core core) []).poisonHost h 32, false)

def State.tokenGet (s : State) (c : Cmd) (b : List Byte) : State :=
  let h := fieldAt b 0 8
  let d := fieldAt b 8 8
  let n := fieldAt b 16 4
  let core := ((spadTarget d n).map (·.1)).getD 0
  let r := (List.range (n / 32)).foldl (fun (q : State × Bool) i =>
    let t := q.1.getWord (spadTarget d n).isNone core (d + 32 * i) (h + 32 * i)
    (t.1, q.2 && t.2)) (s, true)
  r.1.done c (if r.2 then stDone else stFault) 0 0

/-- A token command waits before it is taken: for the earlier one of its ring, and while the spur may not inject (R271, R497). -/
def State.tokenWaits (s : State) (ring : Nat) : Bool := s.net.stopped || s.host.tokens.any (fun t => t.ring = ring)

/-- A token command is refused; an access outside the mapped addresses is recorded too (R23, R496). -/
def State.tokenRefuse (s : State) (c : Cmd) (b : List Byte) (put : Bool) (st : Nat) : State :=
  (s.noteAccess .hid (fieldAt b 8 8) (fieldAt b 16 4) put).done c st 0 0

def execTokenPut (ring : Fin 64) (s : State) : Host.Outcome State Fault Refusal :=
  .next (if s.tokenWaits ring.val then s else s.takeCommand ring.val ocTokenPut (fun c t =>
    let b := t.blockOf c.e
    if !t.tokenOk c b true then t.tokenRefuse c b true stMalformed
    else if !t.tokenState c b true then t.tokenRefuse c b true stState
    else t.tokenPut c b))

def execTokenGet (ring : Fin 64) (s : State) : Host.Outcome State Fault Refusal :=
  .next (if s.tokenWaits ring.val then s else s.takeCommand ring.val ocTokenGet (fun c t =>
    let b := t.blockOf c.e
    if !t.tokenOk c b false then t.tokenRefuse c b false stMalformed
    else if !t.tokenState c b false then t.tokenRefuse c b false stState
    else t.tokenGet c b))

/-! ### Counters (R570, R573 to R579) -/

/-- Instances and words of a kind of counter set. -/
def kindInstances (k : Nat) : Nat := match k with | 1 => 4096 | 2 => 4096 | 3 => 36 | 4 => 8 | _ => 0
def kindWords (k : Nat) : Nat := match k with | 1 => 320 | 2 => 16 | 3 => 128 | 4 => 8 | _ => 0

def State.counterSet (s : State) (k i : Nat) : CounterSet :=
  match k with
  | 1 => Tab.get {} s.obs.cores i
  | 2 => Tab.get {} s.obs.routers i
  | 3 => Tab.get {} s.obs.sites i
  | _ => Tab.get {} s.obs.jobs i

/-- One counter as it reads. -/
def CounterSet.word (c : CounterSet) (w : Nat) : Nat := c.epoch * 2 ^ 48 + Tab.get 0 c.vals w

/-- A record: header and words; ABSENT where the logical core is out of service or in a cold field. -/
def State.counterRecord (s : State) (k i : Nat) : List Byte :=
  let absent := decide (k ≤ 2) && s.coreOut i
  leBytes 8 s.time ++ leBytes 2 i ++ leBytes 1 k ++ leBytes 1 (if absent then 1 else 0) ++ leBytes 52 0 ++
  (List.range (kindWords k)).flatMap (fun w => leBytes 8 (if absent then 0 else (s.counterSet k i).word w))

/-- COUNTER_READ with RESET resets ROUTER and SITE sets alone. -/
def State.resetCounter (s : State) (k i : Nat) : State :=
  let o := s.obs
  if k = 2 then s.resetRouterKept i
  else if k = 3 then { s with obs := { o with sites := Tab.set {} o.sites i ((Tab.get {} o.sites i).reset) } }
  else s

def counterBlockOk (b : List Byte) : Bool :=
  let k := fieldAt b 0 1
  decide (1 ≤ k ∧ k ≤ 4 ∧ fieldAt b 1 1 ≤ 1 ∧ 1 ≤ fieldAt b 4 2 ∧ fieldAt b 2 2 + fieldAt b 4 2 ≤ kindInstances k) &&
  zeroAt b 6 2 && zeroAt b 16 16 && decide (fieldAt b 8 8 % 64 = 0) &&
  inHost (fieldAt b 8 8) (fieldAt b 4 2 * (64 + 8 * kindWords k)) &&
  !(decide (fieldAt b 1 1 = 1) && (k = 1 || k = 4))

/-- What a Job ring may read. -/
def State.counterPermits (s : State) (c : Cmd) (b : List Byte) : Bool :=
  match s.ring c.ring with
  | none => false
  | some x =>
    s.ringRole c.ring x ≠ roleJob ||
    (List.range (fieldAt b 4 2)).all (fun i =>
      let n := fieldAt b 2 2 + i
      match fieldAt b 0 1 with
      | 1 => (s.job c.e.job).holds n
      | 4 => decide (n = c.e.job)
      | _ => false)

def State.counterRead (s : State) (b : List Byte) : State :=
  let k := fieldAt b 0 1
  let each := 64 + 8 * kindWords k
  (List.range (fieldAt b 4 2)).foldl (fun t i =>
    let n := fieldAt b 2 2 + i
    let t1 := t.storeHost (fieldAt b 8 8 + each * i) (t.counterRecord k n)
    if fieldAt b 1 1 = 1 then t1.resetCounter k n else t1) s

def execCounterRead (ring : Fin 64) (s : State) : Host.Outcome State Fault Refusal :=
  .next (s.takeCommand ring.val ocCounterRead (fun c t =>
    let b := t.blockOf c.e
    if !counterBlockOk b then t.done c stMalformed 0 0
    else if !t.counterPermits c b then t.done c stDenied 0 0
    else (t.counterRead b).done c stDone (fieldAt b 4 2 * (64 + 8 * kindWords (fieldAt b 0 1))) 0))

/-! ### Trace configuration (R583) -/

def rectAt (b : List Byte) (o : Nat) : Rect := ⟨fieldAt b o 1, fieldAt b (o + 1) 1, fieldAt b (o + 2) 1, fieldAt b (o + 3) 1⟩

def Rect.onWafer (r : Rect) : Bool := decide (r.row0 + r.rowsM1 ≤ 63 ∧ r.col0 + r.colsM1 ≤ 63)

def traceBlockOk (b : List Byte) : Bool :=
  decide (fieldAt b 0 2 % 2 = 0 ∧ fieldAt b 0 2 < 256 ∧ fieldAt b 2 1 ≤ 1 ∧ fieldAt b 3 1 < 16 ∧ fieldAt b 8 8 < 2 ^ 38) &&
  (rectAt b 4).onWafer && zeroAt b 16 16

def State.traceConfig (s : State) (b : List Byte) : State :=
  { s with obs := { s.obs with trace := { s.obs.trace with
    types := fieldAt b 0 2
    enable := decide (fieldAt b 2 1 = 1)
    ctxMask := fieldAt b 3 1
    rect := rectAt b 4
    sources := fieldAt b 8 8
    syncDue := s.obs.trace.syncDue || decide (fieldAt b 2 1 = 1) } } }

def execTraceConfig (ring : Fin 64) (s : State) : Host.Outcome State Fault Refusal :=
  .next (s.takeCommand ring.val ocTraceConfig (fun c t =>
    let b := t.blockOf c.e
    if !traceBlockOk b then t.done c stMalformed 0 0 else (t.traceConfig b).done c stDone 0 0))

/-! ### The event log (R594, R599, R600) -/

/-- The 64 bytes of an event record. -/
def Record.bytes (r : Record) : List Byte :=
  leBytes 8 r.time ++ leBytes 8 r.seq ++ leBytes 2 r.kind.code ++ leBytes 1 r.kind.severity ++ leBytes 1 r.skind ++
  leBytes 2 r.source ++ leBytes 2 0 ++ leBytes 8 r.last ++ leBytes 4 r.rep ++ r.payload

def eventBlockOk (b : List Byte) : Bool :=
  let n := fieldAt b 12 4
  decide (fieldAt b 0 8 % 64 = 0 ∧ 1 ≤ n ∧ n ≤ 65536) && zeroAt b 16 8 && inHost (fieldAt b 0 8) (64 * n)

def execEventRead (ring : Fin 64) (s : State) : Host.Outcome State Fault Refusal :=
  .next (s.takeCommand ring.val ocEventRead (fun c t =>
    let b := t.blockOf c.e
    if !eventBlockOk b then t.done c stMalformed 0 0
    else
      let rs := (t.obs.flash.drop (fieldAt b 8 4)).take (fieldAt b 12 4)
      (t.storeHost (fieldAt b 0 8) (rs.flatMap Record.bytes)).done c stDone rs.length t.obs.flash.length))

/-- The log starts anew with LOG_CLEARED. -/
def State.clearLog (s : State) : State :=
  let principal := match s.sec.session with | some q => q.principal | none => 0
  let lost := ((List.range 4).map (fun v => Tab.get 0 s.obs.lost v)).foldl (· + ·) 0
  let s1 : State := { s with obs := { s.obs with log := [], flash := [], full := false, lost := [] } }
  let s2 := s1.record .logCleared .hid [(1, principal), (4, s.obs.flash.length), (8, lost)]
  { s2 with obs := { s2.obs with flash := s2.obs.log } }

def execEventClear (ring : Fin 64) (s : State) : Host.Outcome State Fault Refusal :=
  .next (s.takeCommand ring.val ocEventClear (fun c t => t.clearLog.done c stDone 0 0))

/-! ### CPER and repair records (R491) -/

def execCperRead (ring : Fin 64) (s : State) : Host.Outcome State Fault Refusal :=
  .next (s.takeCommand ring.val ocCperRead (fun c t =>
    let rs := t.integ.cper.take (c.e.blen / 328)
    (t.storeHost c.e.block (rs.flatMap (·.bytes))).done c stDone rs.length 0))

def execRepairRead (ring : Fin 64) (s : State) : Host.Outcome State Fault Refusal :=
  .next (s.takeCommand ring.val ocRepairRead (fun c t =>
    let rs := t.wafer.store.take (c.e.blen / 8)
    (t.storeHost c.e.block (rs.flatMap (fun w => leBytes 8 w.toNat))).done c stDone rs.length 0))

end Sys2Proof.Machine
end

