-- ==== Sys2Proof/Machine/Registers.lean ====
section
/-! DEFINITION. The set-up registers of BAR0: how a write reaches its fields, and what each register reads (spec/16). -/

namespace Sys2Proof.Machine

/-! ### When a write is accepted (R507) -/

/-- The session lets RW fields outside the mailbox and ring 0 blocks be written. -/
def State.mayWrite (s : State) : Bool :=
  match s.sec.session with
  | none => true
  | some q => decide (roleOperator ≤ q.role)

/-- A field that is in range takes the written value (R11). -/
def pick (ok : Bool) (new old : Nat) : Nat := if ok then new else old

/-- A write whose fields are all accepted, or the record of R507 for those that are not. -/
def State.noteRange (s : State) (ok : Bool) (off value : Nat) : State := if ok then s else s.rejectReg off value rwRange

/-! ### W1C flags (R508, R511, R512) -/

/-- The flag of an offset. -/
def flagAt (off : Nat) : Option Nat :=
  match off with
  | 0x1010 => some flagState
  | 0x1014 => some flagRing
  | 0x1018 => some flagAlert
  | 0x101C => some flagRisk
  | 0x1020 => some flagLog
  | 0x2000 => some flagDone
  | _ => none

/-- A write of 1: the flag and COUNT clear, unless hardware sets the flag in the same cycle; then COUNT is 1.
DESIGN CHOICE: one nanosecond is one cycle (assumption log 33). -/
def State.clearFlag (s : State) (n : Nat) : State :=
  let set := decide (Tab.get 0 s.regs.flagTime n = s.time + 1)
  { s with regs := { s.regs with flags := Tab.set 0 s.regs.flags n (if set then 1 else 0) } }

/-- One flag register is written (R508): only bit 31 counts. -/
def State.writeFlag (s : State) (off v : Nat) : State :=
  match flagAt off with
  | none => s
  | some n => if v / 2 ^ 31 % 2 = 1 then s.clearFlag n else s

/-! ### Fabric (R515) -/

/-- Locally administered unicast with a zero last octet, or zero. -/
def macOk (v : Nat) : Bool :=
  decide (v = 0) || decide (v / 2 ^ 40 % 2 = 0 ∧ v / 2 ^ 41 % 2 = 1 ∧ v % 2 ^ 8 = 0)

def State.allEmpty (s : State) : Bool := (List.range 8).all (fun j => (s.job j).st = .empty)

/-- MACBASE becomes zero: UP ports go DOWN with cause MACBASE, TRAINING ports stop. -/
def State.macDown (s : State) : State :=
  (List.range 144).foldl (fun a p =>
    if a.portState p = .training then a.setPort p { a.port p with st := .down, beats := 0 }
    else a.downPort p 4) s

def State.writeMac (s : State) (v : Nat) : State :=
  let m := v % 2 ^ 48
  if !s.mayWrite then s.rejectReg 0x5000 v rwSession
  else if !s.allEmpty then s.rejectReg 0x5000 v rwState
  else if !macOk m then s.rejectReg 0x5000 v rwRange
  else
    let s1 : State := { s with regs := { s.regs with macBase := m } }
    if m = 0 then s1.macDown else s1

/-! ### Power (R529) -/

def clearRecords (h : Half) : Half := { h with records := [] }

/-- PCAP: the power cap, and every step record cleared. -/
def State.writePcap (s : State) (v : Nat) : State :=
  let w := v % 2 ^ 16
  if !s.mayWrite then s.rejectReg 0x4008 v rwSession
  else if w < 8000 || 32000 < w then s.rejectReg 0x4008 v rwRange
  else
    let s1 : State := { s with regs := { s.regs with pcap := w } }
    (s1.setHalf 0 (clearRecords (s1.half 0))).setHalf 1 (clearRecords (s1.half 1))

/-! ### The mailbox (R512) -/

def mboxSize : Nat := 1024

/-- Bytes of the request buffer replaced. -/
def putBytes (old : List Byte) (o : Nat) (bs : List Byte) : List Byte :=
  let l := old ++ List.replicate (mboxSize - old.length) 0
  l.take o ++ bs ++ l.drop (o + bs.length)

/-- The device writes a reply: GO cleared, reply and RLEN written, then DONE. -/
def State.mboxReply (s : State) (bs : List Byte) : State :=
  ({ s with regs := { s.regs with mboxBusy := false, mboxRep := bs, rlen := bs.length } }).raiseFlag flagDone

/-- The request as posted. -/
def State.request (s : State) : List Byte := (putBytes s.regs.mboxReq 0 []).take s.regs.qlen

/-- A reply's header and body (R557). -/
def icdor (typ st principal : Nat) (body : List Byte) : List Byte :=
  leBytes 1 1 ++ leBytes 1 typ ++ leBytes 1 st ++ leBytes 1 principal ++ leBytes 4 0 ++ body

def isOk : Nat := 0
def isState : Nat := 1
def isAuth : Nat := 2
def isLocked : Nat := 3
def isMalformed : Nat := 4
def isRecovery : Nat := 5
def isImage : Nat := 6

/-- A request header that names one of the five requests (R557). -/
def headerOk (b : List Byte) : Bool :=
  decide (8 ≤ b.length ∧ fieldAt b 0 1 = 1 ∧ 1 ≤ fieldAt b 1 1 ∧ fieldAt b 1 1 ≤ 5 ∧ fieldAt b 3 1 ≤ 15) &&
  zeroAt b 2 1 && zeroAt b 4 4

/-- GO is set: a request of no legal type or length is answered at once; a legal one waits to be taken. -/
def State.postRequest (s : State) : State :=
  if s.regs.mboxBusy then s
  else if s.regs.qlen = 0 || mboxSize < s.regs.qlen then
    ({ s with regs := { s.regs with rlen := 0 } }).raiseFlag flagDone
  else
    let b := s.request
    if headerOk b then { s with regs := { s.regs with mboxBusy := true } }
    else s.mboxReply (icdor (fieldAt b 1 1) (if s.sec.recovery then isRecovery else isMalformed) (fieldAt b 3 1) [])

/-! ### MSI-X table (R498, R504) -/

/-- One doubleword of the table; bit 0 of vector control masks. -/
def State.writeMsix (s : State) (i v : Nat) : State :=
  let s1 : State := { s with host := { s.host with msixTable := Tab.set 0 s.host.msixTable i v } }
  if i % 4 ≠ 3 then s1
  else if v % 2 = 1 then { s1 with host := { s1.host with unmasked := s1.host.unmasked.filter (fun x => x ≠ i / 4) } }
  else s1.unmask (i / 4)

/-! ### Writes of registers (R505 to R507) -/

/-- A doubleword of a 32-bit register. Read-only and reserved offsets ignore it. -/
def State.write32 (s : State) (off v : Nat) : State :=
  let g := s.regs
  if (flagAt off).isSome then s.writeFlag off v
  else if 0x2000 ≤ off ∧ off < 0x3000 then
    if off = 0x2004 then (if v % 2 = 1 then s.postRequest else s)
    else if g.mboxBusy then s
    else if off = 0x2008 then
      let n := v % 2 ^ 16
      if n = 0 || mboxSize < n then s.rejectReg off v rwRange else { s with regs := { g with qlen := n } }
    else if 0x2800 ≤ off ∧ off < 0x2C00 then
      { s with regs := { g with mboxReq := putBytes g.mboxReq (off - 0x2800) (leBytes 4 v) } }
    else s
  else if 0xF0000 ≤ off ∧ off < 0xF1000 then s.writeMsix ((off - 0xF0000) / 4) v
  else if off = 0x4008 then s.writePcap v
  else if !(([0x4000, 0x400C, 0x5008, 0x500C, 0x5010, 0x6000] : List Nat).contains off) then s
  else if !s.mayWrite then s.rejectReg off v rwSession
  else
    let n := v % 2 ^ 16
    match off with
    | 0x4000 =>
      let w := v % 8
      let e := v / 2 ^ 8 % 8
      ({ s with regs := { g with opWest := pick (decide (w ≤ 5)) w g.opWest, opEast := pick (decide (e ≤ 5)) e g.opEast } }).noteRange
        (decide (w ≤ 5 ∧ e ≤ 5)) off v
    | 0x400C =>
      let t := v % 2 ^ 8
      if t < 70 || 105 < t then s.rejectReg off v rwRange
      else ({ s with regs := { g with tthrottle := t } }).updateAlert
    | 0x5008 =>
      if !s.allEmpty then s.rejectReg off v rwState
      else if n < 0x0600 then s.rejectReg off v rwRange
      else { s with regs := { g with etherType := n } }
    | 0x6000 =>
      let t := v / 2 ^ 16 % 2 ^ 16
      let r := v / 2 ^ 8 % 16
      let tOk := decide (100 ≤ t)
      let rOk := decide (r ≤ 12)
      ({ s with regs := { g with
        timeout := pick tOk t g.timeout, rate := pick rOk r g.rate, enable := decide (v % 2 = 1) } }).noteRange (tOk && rOk) off v
    | 0x500C => if n < 5 || 10000 < n then s.rejectReg off v rwRange else { s with regs := { g with rto := n } }
    | _ => if n < 10 || 10000 < n then s.rejectReg off v rwRange else { s with regs := { g with hbInt := n } }

/-- The 64-bit RW registers. -/
def wide64 : List Nat := [0x3000, 0x3008, 0x3010, 0x5000, 0x6008, 0x6010, 0x6020]

def snapOk (n : Nat) : Bool := decide (n = 0 ∨ (60 ≤ n ∧ n ≤ 86400))

/-- R0CFG: ENABLE by its change, the other fields by R514. -/
def State.writeR0Cfg (s : State) (v : Nat) : State :=
  let s1 := s.writeCfg v
  if cfgEnable v && !cfgEnable s.regs.r0Cfg then s1.enableRing0 v
  else if !cfgEnable v && cfgEnable s.regs.r0Cfg then
    ({ s1 with regs := { s1.regs with r0Cfg := withEnable s1.regs.r0Cfg false } }).deleteRing 0 none
  else s1

/-- A base register of ring 0 (R513, R514). -/
def State.writeBase (s : State) (off v : Nat) : State :=
  if s.ring0Active then s.rejectReg off v rwState
  else if off = 0x3000 then { s with regs := { s.regs with r0SqBase := v } }
  else { s with regs := { s.regs with r0CqBase := v } }

/-- A 64-bit RW register is written whole. -/
def State.write64 (s : State) (off v : Nat) : State :=
  let g := s.regs
  match off with
  | 0x3000 => s.writeBase off v
  | 0x3008 => s.writeBase off v
  | 0x3010 => s.writeR0Cfg v
  | 0x5000 => s.writeMac v
  | _ =>
    if !s.mayWrite then s.rejectReg off v rwSession
    else
      match off with
      | 0x6008 =>
        let f (k : Nat) : Nat := v / 2 ^ (16 * k) % 2 ^ 16
        let ok (k : Nat) : Bool := decide (1 ≤ f k)
        ({ s with regs := { g with
          fsNear := pick (ok 0) (f 0) g.fsNear, fsReplay := pick (ok 1) (f 1) g.fsReplay
          fsCsym := pick (ok 2) (f 2) g.fsCsym, fsLink := pick (ok 3) (f 3) g.fsLink } }).noteRange
            ((List.range 4).all ok) off v
      | 0x6010 =>
        let d := v / 2 ^ 8 % 2 ^ 8
        let t := v % 2 ^ 8
        let tOk := decide (1 ≤ t ∧ t ≤ 63)
        ({ s with regs := { g with fsDroop := pick (decide (1 ≤ d)) d g.fsDroop, fsTherm := pick tOk t g.fsTherm } }).noteRange
          (decide (1 ≤ d) && tOk) off v
      | 0x6020 =>
        let a := v / 2 ^ 32 % 2 ^ 32
        let b := v % 2 ^ 32
        ({ s with regs := { g with snapInt3 := pick (snapOk a) a g.snapInt3, snapInt2 := pick (snapOk b) b g.snapInt2 } }).noteRange
          (snapOk a && snapOk b) off v
      | _ => s

/-- The value that a 64-bit RW register holds, and that of 0x6000, which has 32 bits. -/
def State.held64 (s : State) (off : Nat) : Nat :=
  let g := s.regs
  match off with
  | 0x3000 => g.r0SqBase
  | 0x3008 => g.r0CqBase
  | 0x3010 => g.r0Cfg + (if s.ring0Active then 1 else 0)
  | 0x5000 => g.macBase
  | 0x6000 => g.timeout * 2 ^ 16 + g.rate * 2 ^ 8 + (if g.enable then 1 else 0)
  | 0x6008 => g.fsLink * 2 ^ 48 + g.fsCsym * 2 ^ 32 + g.fsReplay * 2 ^ 16 + g.fsNear
  | 0x6010 => g.fsDroop * 2 ^ 8 + g.fsTherm
  | 0x6020 => g.snapInt3 * 2 ^ 32 + g.snapInt2
  | _ => 0

/-- A 4-byte access: halves of a 64-bit register meet in the write of the high half (R505). -/
def State.writeHalf (s : State) (off v : Nat) : State :=
  let base := off / 8 * 8
  if !wide64.contains base then s.write32 off v
  else if off % 8 = 0 then { s with regs := { s.regs with lowHeld := Tab.set none s.regs.lowHeld base (some v) } }
  else
    let low := (Tab.get none s.regs.lowHeld base).getD (s.held64 base % 2 ^ 32)
    ({ s with regs := { s.regs with lowHeld := Tab.set none s.regs.lowHeld base none } }).write64 base (v * 2 ^ 32 + low)

/-- A write access to BAR0 (R475, R505). DEDUCED: the order of the checks (assumption log 34). -/
def State.writeBar0 (s : State) (off v width : Nat) : State :=
  if s.host.d3hot then s
  else if (width ≠ 4 && width ≠ 8) || off % width ≠ 0 then s.rejectReg off v rwWidth
  else if width = 4 then s.writeHalf off (v % 2 ^ 32)
  else if wide64.contains off then s.write64 off v
  else (s.write32 off (v % 2 ^ 32)).write32 (off + 4) (v / 2 ^ 32)

def execRegisterWrite (offset : BitVec 25) (value : Word64) (width : Nat) (s : State) : Host.Outcome State Fault Refusal :=
  .next (s.writeBar0 offset.toNat value.toNat width)

/-- A write to a W1C flag register: one doubleword, or the two flags of eight bytes (R505, R508). -/
def execFlagClear (offset : BitVec 25) (value : Word64) (width : Nat) (s : State) : Host.Outcome State Fault Refusal :=
  let off := offset.toNat
  let v := value.toNat
  .next (if s.host.d3hot then s
    else if (width ≠ 4 && width ≠ 8) || off % width ≠ 0 then s.rejectReg off v rwWidth
    else if width = 4 then s.writeFlag off (v % 2 ^ 32)
    else (s.writeFlag off (v % 2 ^ 32)).writeFlag (off + 4) (v / 2 ^ 32))

def execMacbaseWrite (value : Word64) (s : State) : Host.Outcome State Fault Refusal :=
  .next (if s.host.d3hot then s else s.writeMac value.toNat)

def execPcapWrite (value : Word64) (s : State) : Host.Outcome State Fault Refusal :=
  .next (if s.host.d3hot then s else s.writePcap value.toNat)

/-! ### What the registers read (R504, R509 to R519) -/

/-- Bits of a set of numbers. -/
def maskOf (ks : List Nat) : Nat := ks.foldl (fun a k => a + 2 ^ k) 0

/-- The identity word (R509). -/
def State.identWord (s : State) : Nat :=
  0x4658 * 2 ^ 48 + 2 ^ 40 + 2 ^ 32 + s.buildCode * 2 ^ 28 + (Config.stepping % 16) * 2 ^ 24

def DevState.code : DevState → Nat
  | .boot => 0 | .ready => 1 | .safe => 2

/-- DEVSTATE (R510). -/
def State.devWord (s : State) : Nat :=
  ((List.range 8).map (fun j => (s.job j).st.code * 2 ^ (3 * j + 16))).foldl (· + ·) 0 +
  (if s.regs.st = .safe then s.regs.safeCause else 0) * 2 ^ 8 + (if s.net.expansive then 8 else 0) +
  (if s.obs.quench.active && s.obs.quench.complete then 4 else 0) + s.regs.st.code

/-- One flag register (R508). -/
def State.flagWord (s : State) (n : Nat) : Nat :=
  let c := Tab.get 0 s.regs.flags n
  (if c = 0 then 0 else 2 ^ 31) + c

/-- The session in the mailbox block. -/
def State.sessionWord (s : State) : Nat :=
  match s.sec.session with
  | none => 0
  | some q => q.jobs * 2 ^ 16 + 4 + q.role

/-- A signed reading in 16 bits. -/
def code16 (x : Int) : Nat := (x % 65536).toNat

def PortState.code : PortState → Nat
  | .dark => 0 | .down => 1 | .training => 2 | .up => 3 | .fenced => 4

/-- Whether the boot has come to the flash, the sites and the dies (R603). -/
def State.booted (s : State) : Bool := s.regs.st ≠ .boot || s.obs.flashReady

/-- Site status (R518). PORTS holds its reset value 0 until the boot has found the dies. DEDUCED (assumption log 42). -/
def State.siteWord (s : State) (i : Nat) : Nat :=
  (if s.booted then ((List.range 4).map (fun j => (s.portState (4 * i + j)).code * 2 ^ (3 * j + 12))).foldl (· + ·) 0 else 0) +
  (if s.isIo i then 2 ^ 8 + (if (s.ioSite i).fenced then 2 else 0) else (s.stack i).st.code)

/-- A field window before its first refresh: JOB 0xFF (R519). -/
def resetWindow : List Byte := leBytes 4 0xFF0000

/-- The 64 bits at an 8-byte aligned offset of BAR0, field windows and doorbell pages included; the page of a ring that does not exist
holds its reset values, PHASE 1 among them (R481, R610).
DESIGN CHOICE: no row reads (assumption log 42). -/
def State.read64 (s : State) (off : Nat) : Nat :=
  let g := s.regs
  let o := s.obs
  let win := off - 0x100000
  let page := off - 0x1000000
  if 0x1000000 ≤ off ∧ off < 0x1040000 then
    match s.ring (page / 0x1000) with
    | none => if page % 0x1000 = 8 then 2 ^ 48 else 0
    | some x =>
      if page % 0x1000 = 0 then x.sqPi + x.cqCi * 2 ^ 32
      else if page % 0x1000 = 8 then
        x.sqCi + ((if x.error then 2 ^ 17 else 0) + (if x.phase then 2 ^ 16 else 0) + x.cqPi) * 2 ^ 32
      else 0
  else if 0x100000 ≤ off ∧ off < 0x140000 then fieldAt (Tab.get resetWindow g.fields (win / 0x1000)) (win % 0x1000) 8
  else if 0xF0000 ≤ off ∧ off < 0xF1000 then
    let i := (off - 0xF0000) / 4
    let d (k : Nat) : Nat :=
      if k % 4 = 3 then (if s.host.unmasked.contains (k / 4) then 0 else 1) else Tab.get 0 s.host.msixTable k
    d i + d (i + 1) * 2 ^ 32
  else if 0xF1000 ≤ off ∧ off < 0xF1020 then
    maskOf ((List.range 64).filter (fun k => s.host.msixPending.contains (8 * (off - 0xF1000) + k)))
  else if 0x8000 ≤ off ∧ off < 0x8120 then s.siteWord ((off - 0x8000) / 8)
  else if 0x2800 ≤ off ∧ off < 0x2C00 then fieldAt g.mboxReq (off - 0x2800) 8
  else if 0x2C00 ≤ off ∧ off < 0x3000 then fieldAt g.mboxRep (off - 0x2C00) 8
  else
    match off with
    | 0x0 => s.identWord
    | 0x8 => Config.serial
    | 0x10 => s.sec.fwTrust * 2 ^ 32 + s.sec.fwUntrust
    | 0x18 => s.sec.secver
    | 0x20 => maskOf ((List.range 36).filter (fun i => s.isStack i))
    | 0x28 => maskOf ((List.range 36).filter (fun i => s.isIo i))
    | 0x30 => s.sec.bootCount
    | 0x1000 => s.devWord
    | 0x1008 => s.time
    | 0x1010 => s.flagWord flagState + s.flagWord flagRing * 2 ^ 32
    | 0x1018 => s.flagWord flagAlert + s.flagWord flagRisk * 2 ^ 32
    | 0x1020 => s.flagWord flagLog
    | 0x2000 => s.flagWord flagDone + (if g.mboxBusy then 2 ^ 32 else 0)
    | 0x2008 => g.rlen * 2 ^ 16 + g.qlen
    | 0x2010 => s.sessionWord
    | 0x4000 => g.opEast * 2 ^ 8 + g.opWest + ((s.half 1).op * 2 ^ 8 + (s.half 0).op) * 2 ^ 32
    | 0x4008 => g.pcap + g.tthrottle * 2 ^ 32
    | 0x4010 => s.clk.feedAI * 2 ^ 32 + s.clk.feedA
    | 0x4018 => s.clk.feedBI * 2 ^ 32 + s.clk.feedB
    | 0x4020 => s.clk.power / 1000
    | 0x4028 => code16 (Tab.get 0 s.clk.sensors 292) * 2 ^ 32 +
        code16 (s.hottestOf (((List.range 36).filter (fun i => s.isStack i)).map (256 + ·))) * 2 ^ 16 +
        code16 (s.hottestOf (List.range 256))
    | 0x5008 => g.etherType + g.rto * 2 ^ 32
    | 0x5010 => g.hbInt
    | 0x6018 => g.largest * 2 ^ 8 + g.risk
    | 0x7000 => (if o.full then 2 ^ 21 else 0) + o.flash.length
    | 0x7008 => o.nextSeq
    | 0x7010 => min (Tab.get 0 o.lost 0) (2 ^ 48 - 1)
    | 0x7018 => min (Tab.get 0 o.lost 1) (2 ^ 48 - 1)
    | 0x7020 => min (Tab.get 0 o.lost 2) (2 ^ 48 - 1)
    | 0x7028 => min (Tab.get 0 o.lost 3) (2 ^ 48 - 1)
    | 0x7030 => min o.trDrop (2 ^ 48 - 1)
    | _ => s.held64 off

end Sys2Proof.Machine
end

