-- ==== Sys2Proof/Machine/Sems.lean ====
section
/-! DEFINITION. The semaphore class, the check class's own operations, and the guards of ports, scrubbers and issue
(spec/06 R178, R198 to R207, spec/02 R40, R41, R44, R47, spec/14 R463). -/

namespace Sys2Proof.Machine

/-! ### Values (R198) -/

/-- v of a semaphore instruction, and the cause for which it is refused; 0 where it is not. -/
def semValue (x : Ctx) (w : SemWord) : Nat := if w.vr then (x.reg w.sb.toNat).toNat else w.imm.toNat

def semCause (x : Ctx) (w : SemWord) (needsValue : Bool) : Nat :=
  if w.vr && decide ((x.reg w.sb.toNat).toNat / 65536 ≠ 0) then ceReserved
  else if needsValue && semValue x w = 0 then ceCount
  else 0

/-- A semaphore head: its value is checked, then it acts. -/
def State.semHead (s : State) (h : Hart) (o : POp) (w : SemWord) (needsValue : Bool)
    (f : State → Ctx → Nat → State) : State :=
  s.onHead h (wordP o.code w) (semLegal o w) false (fun t x =>
    let cause := semCause x w needsValue
    if cause ≠ 0 then t.stateError h false cause else f t x (semValue x w))

/-- A SEM trace record (R581). -/
def State.traceSem (s : State) (c k sem how : Nat) : State :=
  s.trace 5 (.core c) k (sem * 2 ^ 58 + ((s.core c).sem sem).value * 2 ^ 42 + how * 2 ^ 40)

/-- Whether v can be taken at once: no waiter is listed and the value allows it (R200). -/
def Core.canTake (c : Core) (sem v : Nat) : Bool := !c.hasWaiter sem && decide (v ≤ (c.sem sem).value)

/-! ### Instructions (R198 to R202) -/

/-- SEMWAIT subtracts v, or joins the semaphore's waiter list (R198, R200). -/
def execSemwait (h : Hart) (w : SemWord) (s : State) : Host.Outcome State Fault Refusal :=
  .next (s.semHead h .wait w true (fun t _ v =>
    let m := w.sem.toNat
    if (t.core h.c).canTake m v then
      ((t.semTake h.c m v).traceSem h.c h.k m 0).taken h uSem (wordP POp.wait.code w) id
    else
      (t.modCore h.c (fun k => { k with waiters := k.waiters ++ [(m, .ctx h.k, v)] })).modCtx h.c h.k
        (fun y => { y with wait := .sem m v })))

/-- The first waiter of a semaphore. -/
def Core.firstWaiter (c : Core) (sem : Nat) : Option (Nat × Waiter × Nat) := c.waiters.find? (fun w => w.1 = sem)

/-- Take one entry out of a waiter list. -/
def dropWaiter (x : Nat × Waiter × Nat) : List (Nat × Waiter × Nat) → List (Nat × Waiter × Nat)
  | [] => []
  | y :: r => if y = x then r else y :: dropWaiter x r

/-- The first waiter of a semaphore is served once the value allows it (R200, R232). -/
def execWaiterServed (core : CoreIx) (sem : BitVec 6) (s : State) : Host.Outcome State Fault Refusal :=
  let c := core.toNat
  let m := sem.toNat
  .next (match (s.core c).firstWaiter m with
    | none => s
    | some x =>
      if ((s.core c).sem m).value < x.2.2 then s
      else
        let t := (s.modCore c (fun k => { k with waiters := dropWaiter x k.waiters })).semTake c m x.2.2
        match x.2.1 with
        | .ctx k => (t.modCtx c k (fun y => { y with wait := .none, pc := y.pc + 8 })).traceSem c k m 3
        | .stream n =>
          (t.modStream c n (fun y => { y with emptyServed := true, emptyListed := false })).traceSem c
            ((t.core c).stream n).ctx m 3)

def execSemtry (h : Hart) (w : SemWord) (s : State) : Host.Outcome State Fault Refusal :=
  .next (s.semHead h .try_ w true (fun t _ v =>
    let m := w.sem.toNat
    if (t.core h.c).canTake m v then
      ((t.semTake h.c m v).traceSem h.c h.k m 0).taken h uSem (wordP POp.try_.code w) (fun y => y.setReg w.sd.toNat 1)
    else t.taken h uSem (wordP POp.try_.code w) (fun y => y.setReg w.sd.toNat 0)))

def execSemsig (h : Hart) (w : SemWord) (s : State) : Host.Outcome State Fault Refusal :=
  .next (s.semHead h .sig w true (fun t _ v =>
    ((t.semAdd h.c w.sem.toNat v).traceSem h.c h.k w.sem.toNat 0).taken h uSem (wordP POp.sig.code w) id))

/-- SEMSIGR's flit (R202, R244, R254). -/
def semincFlit (s : State) (c d sem v : Nat) : Flit :=
  { mkFlit (if s.net.expansive then 7 else 0) kCore d kCore c opSeminc 0 (leBytes 2 v) with sem := BitVec.ofNat 6 sem }

/-- SEMSIGR sends an increment to a core of the job context (R202, R204). -/
def execSemsigr (h : Hart) (w : SemWord) (s : State) : Host.Outcome State Fault Refusal :=
  .next (s.semHead h .sigr w true (fun t x v =>
    let a := (x.reg w.sa.toNat).toNat
    if a / 2 ^ 12 ≠ 0 then t.stateError h false ceReserved
    else if !((t.jobOf h.c).any (fun j => (t.job j).holds a)) then t.stateError h false ceCrossJob
    else (t.sendFromCore h.c (semincFlit t h.c a w.sem.toNat v)).taken h uSem (wordP POp.sigr.code w) id))

def execSemset (h : Hart) (w : SemWord) (s : State) : Host.Outcome State Fault Refusal :=
  .next (s.semHead h .set w false (fun t _ v =>
    ((t.semPut h.c w.sem.toNat v).traceSem h.c h.k w.sem.toNat 0).taken h uSem (wordP POp.set.code w) id))

def execSemread (h : Hart) (w : SemWord) (s : State) : Host.Outcome State Fault Refusal :=
  .next (s.semHead h .read w false (fun t _ _ =>
    let v := ((t.core h.c).sem w.sem.toNat).value
    t.taken h uSem (wordP POp.read.code w) (fun y => y.setReg w.sd.toNat (BitVec.ofNat 64 v))))

/-! ### Check class (R205 to R207, R463) -/

/-- No condition of R463 holds against a clean mark of a context. -/
def Core.markClean (c : Core) (k : Nat) : Bool :=
  decide (k ≤ 2) && !(c.streams.any (fun p => p.2.ctx = k && (p.2.st = .running || p.2.st = .held))) &&
  !(c.tile.any (fun t => t.owner = k)) && !(c.tq.any (fun p => p.2.st = .ready && p.2.owner = k))

/-- The clean mark is copied to the field supervisor (R463, R464). -/
def Core.takeClean (c : Core) (k pc time : Nat) : Core :=
  let x := c.ctx k
  { c.setCtx k { x with
      replayUnsafe := false
      clean := ⟨pc, x.regs, x.tileOrdinal, x.vecOrdinal⟩ } with
    cleanSems := c.sems.map (fun p => (p.1, p.2.value))
    cleanAdds := c.addOrdinal
    cleanPairs := c.joins.map (fun p => (p.1, p.2.pairs))
    cleanTime := time }

/-- CKMARK (R205, R207, R463). -/
def execCkmark (h : Hart) (s : State) : Host.Outcome State Fault Refusal :=
  let w := wordC 0 0 false
  .next (s.onHead h w true false (fun t x =>
    let t1 := t.taken h uScalar w (fun y => { y with mark := ⟨x.pc + 8, x.regs⟩ })
    if (t.core h.c).markClean h.k then t1.modCore h.c (fun c => c.takeClean h.k (x.pc + 8) t.time) else t1))

/-- Whether a context has released work whose sampled check has no verdict (R205, R423). -/
def State.checksPending (s : State) (c k : Nat) : Bool :=
  s.integ.checks.any (fun q => q.producer = c && q.ctx = k && q.released)

/-- CKWAIT waits for its checks and returns the FAIL count (R205). -/
def execCkwait (h : Hart) (sd : Reg) (s : State) : Host.Outcome State Fault Refusal :=
  let w := wordC 1 sd false
  .next (s.onHead h w true false (fun t x =>
    if t.checksPending h.c h.k then t
    else t.taken h uScalar w (fun y => { y.setReg sd.toNat (BitVec.ofNat 64 x.ckFails) with ckFails := 0 })))

/-- NFREAD (R205, R106). -/
def execNfread (h : Hart) (sd : Reg) (clr : Bool) (s : State) : Host.Outcome State Fault Refusal :=
  let w := wordC 2 sd clr
  .next (s.onHead h w true false (fun t x =>
    t.taken h uScalar w (fun y =>
      let z := y.setReg sd.toNat (BitVec.ofNat 64 x.nonfinite)
      if clr then { z with nonfinite := 0 } else z)))

/-! ### Bank ports (R40, R41, R44) -/

/-- The owner of a bank in the order of R40: matrix, stream, vector, router (R39). -/
def bankOwner (b : Nat) : Nat := b

/-- The first master of a list in the round-robin order after the last one granted. -/
def afterLast (last : Nat) (p : Nat → Bool) (n : Nat) : Option Nat :=
  ((List.range n).map (fun i => (last + 1 + i) % n)).find? p

/-- The grant of a port to the masters that request it (R40, R41). Masters that have waited equally long at the guard are taken in the
order in which R40 lists them. DEDUCED (assumption log 71). -/
def Port.grant (p : Port) (owner : Nat) (req : Nat → Bool) : Option Nat :=
  let wait (m : Nat) : Nat := Tab.get 0 p.waits m
  let late := (List.range 5).filter (fun m => req m && decide (m ≠ owner) && decide (256 ≤ wait m))
  match late with
  | m :: r => some (r.foldl (fun a b => if wait a < wait b then b else a) m)
  | [] => if req owner then some owner else afterLast p.last (fun m => req m && decide (m ≠ owner)) 5

/-- Refusal runs after a cycle in which a master, or none, was granted. -/
def Port.after (p : Port) (req : Nat → Bool) (g : Option Nat) : Port :=
  { last := g.getD p.last
    waits := (List.range 5).foldl (fun t m =>
      Tab.set 0 t m (if req m && decide (g ≠ some m) then Tab.get 0 p.waits m + 1 else 0)) [] }

/-- The unit of a context whose work a master's request serves: the engines', and the sequencer's for the control agent, which reads
instructions (R183, R574); none for the router. -/
def masterUnit (m : Nat) : Option Nat :=
  match m with
  | 0 => some 1
  | 1 => some 3
  | 2 => some 2
  | 4 => some 0
  | _ => none

/-- One refused request: the conflict counter of its master and bank, and the bank-conflict stall of the context that issued it
(R44, R571, R574). -/
def State.conflict (s : State) (c m b k : Nat) : State :=
  let s1 := s.bumpCore c (256 + 4 * m + b) 1
  match masterUnit m with
  | some u => (s1.bumpCore c (64 * k + 13 * u + 1) 1).bumpCore c (64 * k + 13 * u + 4) 1
  | none => s1

/-- The context that issued a master's request: two bits for each master. -/
def issuerOf (issuers : BitVec 10) (m : Nat) : Nat := issuers.toNat / 4 ^ m % 4

/-- One cycle of a port in which some master, or none, is granted: refusal runs, conflict counters and stalls (R41, R44). -/
def State.portCycle (s : State) (c b : Nat) (write : Bool) (q : PortCycle) (g : Option Nat) : State :=
  let key := 2 * b + write.toNat
  let req (m : Nat) : Bool := q.masters.getLsbD m
  let s1 := s.modCore c (fun k => { k with ports := Tab.set {} k.ports key ((Tab.get {} k.ports key).after req g) })
  (List.range 5).foldl (fun a m => if req m && decide (g ≠ some m) then a.conflict c m b (issuerOf q.issuers m) else a) s1

/-- One cycle of a port with its requests (R40, R41, R44). -/
def execStarvationGuard (core : CoreIx) (bank : Fin 4) (write : Bool) (requests : PortCycle) (s : State) :
    Host.Outcome State Fault Refusal :=
  let c := core.toNat
  let g := (Tab.get {} (s.core c).ports (2 * bank.val + write.toNat)).grant (bankOwner bank.val) (fun m => requests.masters.getLsbD m)
  .next (s.portCycle c bank.val write requests g)

/-! ### Scrubbers (R47) -/

/-- Granules of a bank. -/
def bankGranules (b : Nat) : Nat := if b < 2 then 32768 else 16384

/-- A scrubber reads one word, counts what it corrects and writes it back. A word that it finds uncorrectable is reported with
context 0, and is lost data of the core's job context. DESIGN CHOICE (assumption log 72). -/
def State.scrubWord (s : State) (c word : Nat) : State :=
  match (wcDecode (s.errOf word)).1 with
  | .clean => s
  | .corrected => (s.noteCorrected c word).store (32 * word) (s.delivered (32 * word) 32)
  | _ => ((s.record .spadUncorrectable (.core c) []).classify c cpSpad 0 0xFFFF false).lostCore c true

def State.scrubGranule (s : State) (c b pos : Nat) : State :=
  let w := windowAddr c (bankBase b + 64 * pos) / 32
  (s.scrubWord c w).scrubWord c (w + 1)

/-- One cycle of a bank's scrubber with the masters that request the read port: it uses a cycle without a request, or takes one after
4,095 cycles without, ahead of every master, which are then refused (R41, R44, R47). -/
def execScrubber (core : CoreIx) (bank : Fin 4) (requests : PortCycle) (s : State) :
    Host.Outcome State Fault Refusal :=
  let c := core.toNat
  let b := bank.val
  let x := Tab.get {} (s.core c).scrubs b
  let put (y : Scrub) (t : State) : State := t.modCore c (fun k => { k with scrubs := Tab.set {} k.scrubs b y })
  .next (if requests.masters = 0 || decide (4095 ≤ x.idle) then
      put ⟨(x.pos + 1) % bankGranules b, 0⟩ ((s.portCycle c b false requests none).scrubGranule c b x.pos)
    else put ⟨x.pos, x.idle + 1⟩ s)

/-! ### Issue (R178) -/

/-- The context whose ready head a unit takes (R178). -/
def Core.issueGrant (c : Core) (unit : Nat) (ready : Nat → Bool) : Option Nat :=
  let last := Tab.get 0 c.lastTaken unit
  let late (k : Nat) : Bool := ready k && decide (4096 ≤ Tab.get 0 (c.ctx k).refused unit)
  match afterLast last late 4 with
  | some k => some k
  | none =>
    let first (k : Nat) : Bool := ready k && (List.range 4).all (fun n => !ready n || decide ((c.ctx k).rank ≤ (c.ctx n).rank))
    afterLast last first 4

/-- A context's run of refusals after a cycle in which its head was ready or not, and context g was granted: a cycle without a ready
head ends it (R178). -/
def Ctx.refusedBy (x : Ctx) (u : Nat) (ready granted : Bool) : Ctx :=
  { x with refused := Tab.set 0 x.refused u (if ready && !granted then Tab.get 0 x.refused u + 1 else 0) }

/-- One cycle of a shared unit, the matrix, vector, stream or semaphore unit, with its ready heads: it grants one, and takes that
context's head before any other's (R178). -/
def execIssueGuard (core : CoreIx) (unit : Fin 4) (ready : BitVec 4) (s : State) : Host.Outcome State Fault Refusal :=
  let c := core.toNat
  let u := unit.val + 1
  let r (k : Nat) : Bool := ready.getLsbD k
  let g := (s.core c).issueGrant u r
  .next (s.modCore c (fun x =>
    let y : Core := match g with
      | some k => { x with lastTaken := Tab.set 0 x.lastTaken u k, turn := Tab.set 0 x.turn u (k + 1) }
      | none => x
    (List.range 4).foldl (fun a k => a.setCtx k ((a.ctx k).refusedBy u (r k) (decide (g = some k)))) y))

end Sys2Proof.Machine
end

