-- ==== Sys2Proof/Machine/Streams.lean ====
section
/-! DEFINITION. The stream class and the stream engine's own commands (spec/07 R224 to R233, spec/06 R197). -/

namespace Sys2Proof.Machine

/-! ### SFETCH and its block (R224, R225) -/

/-- The cause for which the block of an SFETCH is refused; 0 where it is not. -/
def State.blockCause (s : State) (c : Nat) (v : Word64) : Nat :=
  let b := bufferReg v
  if !b.2.2 then ceReserved
  else if b.2.1 % 64 ≠ 0 then ceAddress
  else if b.1 then (if inOneBank b.2.1 1024 then 0 else ceAddress)
  else if s.inStack b.2.1 1024 && (s.jobOf c).any (fun j => ((s.job j).regionOf b.2.1 1024).isSome) then 0
  else ceAddress

/-- The streams of a half. -/
def halfStreams (half : Bool) : List Nat := (List.range 16).map (fun i => (if half then 16 else 0) + i)

/-- DEDUCED: a HELD stream is in use (assumption log 54). -/
def execSfetch (h : Hart) (sa : Reg) (half : Bool) (s : State) : Host.Outcome State Fault Refusal :=
  let w := wordS 0 0 sa 0 0 half
  .next (s.onHead h w true false (fun t x =>
    let v := x.reg sa.toNat
    let cause := t.blockCause h.c v
    let k := t.core h.c
    if cause ≠ 0 then (if cause = ceAddress then t.noteBuffer h.c v 1024 false else t).stateError h false cause
    else if k.fetch.isSome || k.held ||
      (halfStreams half).any (fun n => (k.stream n).st = .running || (k.stream n).st = .held) then t
    else
      let b := bufferReg v
      let t1 := (t.modCore h.c (fun y => { y with fetch := some ⟨h.k, x.pc, half, b.1, b.2.1⟩ })).taken h uStream w id
      if b.1 then t1 else t1.coreRead h.c .block w h.k x.pc b.2.1 1024))

/-- The block that an SFETCH asked for (R224, R225): from an own bank, or as its granules have landed from stack memory; none
where a word of it is not delivered. It has not come while requests of it are outstanding. -/
def State.readBlock (s : State) (c : Nat) (f : Fetch) : State × Option (List Byte) :=
  if f.loc then s.spadRead c f.addr 1024
  else
    match (s.core c).xfers.find? (fun x => x.work = .block) with
    | none => (s, none)
    | some x => (s.dropXfer c x, if x.bad then none else some x.data)

/-- Descriptor i of a block. -/
def blockDesc (bs : List Byte) (i : Nat) : List Byte := (bs.drop (64 * i)).take 64

/-- The cause of the first illegal descriptor of a block; 0 where all are legal (R224). -/
def State.blockFault (s : State) (bs : List Byte) (ngrp : Nat) : Nat :=
  ((List.range 16).map (fun i => s.descCause (blockDesc bs i) ngrp)).foldl (fun a c => if a ≠ 0 then a else c) 0

/-- The first illegal descriptor's rows that leave the mapped addresses are recorded (R23, R221). -/
def State.noteBlock (s : State) (c : Nat) (bs : List Byte) (ngrp : Nat) : State :=
  match (List.range 16).find? (fun i => s.descCause (blockDesc bs i) ngrp ≠ 0) with
  | none => s
  | some i =>
    if s.descCause (blockDesc bs i) ngrp = ceAddress then s.noteEnds c (descOf (blockDesc bs i)) else s

/-- Fill the streams of a half from a block (R225). -/
def Core.fillHalf (k : Core) (half : Bool) (bs : List Byte) : Core :=
  (List.range 16).foldl (fun a i =>
    let d := descOf (blockDesc bs i)
    a.setStream ((if half then 16 else 0) + i) (if d.kind = 0 then {} else { st := .armed, desc := d })) k

/-- The block is checked whole, and its 16 streams become ARMED or UNSET (R224, R225). -/
def execDescriptorBlockAccepted (core : CoreIx) (s : State) : Host.Outcome State Fault Refusal :=
  let c := core.toNat
  .next (match (s.core c).fetch with
    | none => s
    | some f =>
      if (s.core c).xfers.any (fun x => x.work = .block && !x.reqs.isEmpty) then s else
      let s0 := s.modCore c (fun k => { k with fetch := none })
      match s0.readBlock c f with
      | (s1, none) => if f.loc then s1.spadUncorrectable c f.ctx else s1.xferLost c f.ctx f.addr
      | (s1, some bs) =>
        let cause := s1.blockFault bs (s1.groupsOf c)
        if cause ≠ 0 then
          ((s1.noteBlock c bs (s1.groupsOf c)).modCtx c f.ctx (fun x => { x with pc := f.pc })).stateError ⟨core, BitVec.ofNat 2 f.ctx⟩ false cause
        else s1.modCore c (fun k => k.fillHalf f.half bs))

/-! ### SSTART, SSTOP, SREARM, SSTAT (R227 to R229) -/

/-- A stream of the half whose new block is not yet accepted (R225). -/
def Core.fetching (k : Core) (n : Nat) : Bool := k.fetch.any (fun f => (halfStreams f.half).contains n)

/-- The streams whose bits are set in a register. -/
def bitsOf (v : Nat) : List Nat := (List.range 32).filter (fun n => decide (v / 2 ^ n % 2 = 1))

/-- The cause for which starting a stream is a state error; 0 where it is not (R228, R259). -/
def State.startCause (s : State) (c k : Nat) (d : Desc) : Nat :=
  let far (r : Nat) : Option (Nat × Nat) := farCore c d.dstMode (d.dstPos r)
  if d.kind = dkContrib && ((s.core c).ring d.site).role = 0 then ceReserved
  else if decide (k < 2) && !d.raw && (d.fmtCode.any (fun f => f.elem = .w48)) then ceFormat
  else if d.kind = dkPush && (far 0).isNone then ceAddress
  else if d.kind = dkPush && !((far 0).any (fun q => (s.jobOf c).any (fun j => (s.job j).holds q.1))) then ceCrossJob
  else 0

/-- The cause among those of the streams that would start: the one of the lowest number. DESIGN CHOICE (assumption log 68). -/
def firstCause (l : List Nat) : Nat :=
  (l.filter (fun c => c ≠ 0)).foldl (fun a c => if a = 0 then c else min a c) 0

/-- A stream runs from row 0 at its current ends and count (R227). -/
def Stream.start (x : Stream) (k : Nat) : Stream :=
  { x with
    st := .running, ctx := k, cause := 0, chunks := 0, lastVer := 0, row := 0, byte := 0, emptyListed := false
    emptyServed := false, reqs := [], seq := 0, part := [], stopping := []
    expect := if x.desc.version = 0xFFFF_FFFF then none else some x.desc.version }

def execSstart (h : Hart) (sa : Reg) (s : State) : Host.Outcome State Fault Refusal :=
  let w := wordS 1 0 sa 0 0 false
  .next (s.onHead h w true false (fun t x =>
    let v := (x.reg sa.toNat).toNat
    let ns := (bitsOf v).filter (fun n => ((t.core h.c).stream n).eligible)
    let cause := if v / 2 ^ 32 ≠ 0 then ceReserved
      else firstCause (ns.map (fun n => t.startCause h.c h.k ((t.core h.c).stream n).desc))
    if (bitsOf v).any (fun n => (t.core h.c).fetching n) then t
    else if cause ≠ 0 then t.stateError h false cause
    else if (t.core h.c).held then t
    else (ns.foldl (fun a n => a.streamTo h.c n (fun y => y.start h.k)) t).taken h uStream w id))

def execSstop (h : Hart) (sa : Reg) (s : State) : Host.Outcome State Fault Refusal :=
  let w := wordS 2 0 sa 0 0 false
  .next (s.onHead h w true false (fun t x =>
    let ns := bitsOf (x.reg sa.toNat).toNat
    ((ns.foldl (fun a n => (a.modCore h.c (fun k => k.sstop h.k n)).traceStream h.c n) t)).taken h uStream w id))

def execSrearm (h : Hart) (sa sb : Reg) (str : BitVec 5) (s : State) : Host.Outcome State Fault Refusal :=
  let w := wordS 3 0 sa sb str false
  .next (s.onHead h w true false (fun t x =>
    let n := str.toNat
    let y := (t.core h.c).stream n
    if y.st = .running || y.st = .held || (t.core h.c).fetching n then t
    else if !y.eligible then t.taken h uStream w id
    else
      let e := (x.reg sa.toNat).toNat
      let rows := if sb = 0 then none else some (x.reg sb.toNat).toNat
      let cause := t.rearmCause y.desc e rows
      if cause ≠ 0 then
        (if cause = ceAddress then t.noteEnds h.c (y.desc.rearmed e (rows.getD 0)) else t).stateError h false cause
      else (t.streamTo h.c n (fun z => z.rearm e (rows.getD 0))).taken h uStream w id))

/-- The state word of a stream (R229). -/
def Stream.word (x : Stream) : Word64 :=
  BitVec.ofNat 64 (x.st.code * 2 ^ 61 + x.ctx % 4 * 2 ^ 59 + (if x.st = .faulted then x.cause % 8 else 0) * 2 ^ 56 +
    x.chunks % 2 ^ 24 * 2 ^ 32 + (if x.desc.kind = dkGather then x.lastVer % 2 ^ 32 else 0))

def execSstat (h : Hart) (sd : Reg) (str : BitVec 5) (s : State) : Host.Outcome State Fault Refusal :=
  let w := wordS 4 sd 0 0 str false
  .next (s.onHead h w true false (fun t _ =>
    t.taken h uStream w (fun y => y.setReg sd.toNat ((t.core h.c).stream str.toNat).word)))

/-! ### The engine (R230, R233) -/

/-- One granule or request of a stream, where it can act and its turn has come (R230, R232). -/
def execStreamGranule (core : CoreIx) (str : BitVec 5) (s : State) : Host.Outcome State Fault Refusal :=
  let c := core.toNat
  let n := str.toNat
  let x := (s.core c).stream n
  .next (if !s.canMove c n then s
    else if x.needsEmpty then (if x.emptyListed then s else s.reachEmpty c n)
    else if s.canAct c n && s.servesNext c n then (s.moveStream c n x).modCore c (fun k => { k with served := n })
    else s)

/-- A chunk's condition is met: it counts, its increment is made, and the last one ends the stream (R233). -/
def execStreamChunkComplete (core : CoreIx) (str : BitVec 5) (s : State) : Host.Outcome State Fault Refusal :=
  let c := core.toNat
  let n := str.toNat
  let x := (s.core c).stream n
  .next (if (x.st = .running || x.st = .held) && decide (x.chunks < x.metChunks) then
      let last := decide (x.chunks + 1 = x.desc.chunks)
      let s1 := s.streamTo c n (fun y =>
        let z := { y with chunks := y.chunks + 1 }
        if last then { z with st := .done, stopping := [] } else z.settle)
      if x.desc.full && x.desc.kind ≠ dkPush then s1.semInc c x.desc.fullSem 1 2 else s1
    else s)

end Sys2Proof.Machine
end

