-- ==== Sys2Proof/Machine/HidLink.lean ====
section
/-! DEFINITION. What the HID serves over its data spur: the reads and writes of host memory that LOAD and STORE streams ask for
(spec/01 R20, spec/07 R217, spec/15 R474). DESIGN CHOICE: they have the form of R287 to R289 (assumption log 66). -/

namespace Sys2Proof.Machine

/-- The payload of a core's request at the HID, as delivered. -/
def hidRequestOf (f : Flit) : Option (List Byte) :=
  if f.dkind.toNat = kHid && f.op.toNat = opSiteReq && f.skind.toNat = kCore then flitPayload f else none

/-- A READ or WRITE of at most 64 granules of host memory in the form of R287. -/
def hidRequestOk (b : List Byte) : Bool :=
  let len := fieldAt b 2 2
  let a := fieldAt b 8 8
  decide (1 ≤ fieldAt b 0 1 ∧ fieldAt b 0 1 ≤ 2 ∧ fieldAt b 1 1 < 4 ∧ 1 ≤ len ∧ len ≤ 64 ∧ a % 64 = 0) &&
  inHost a (64 * len) && decide (a % 4096 + 64 * len ≤ 4096)

/-- A host read of a stream has failed; the event names no ring and no command, and its status is a free value (R474).
DESIGN CHOICE (assumption log 15, 17). -/
def State.hostLoadError (s : State) (a : Nat) : State :=
  s.record .hostAccessError .hid [(1, 0xFF), (2, 0xFFFF), (8, a), (1, Config.accessStatus s.obs.nextSeq % 8)]

/-- One granule of host memory goes to a core's window; one whose read fails goes poisoned (R281, R474). -/
def State.hidGranule (s : State) (core addr doff g : Nat) : State :=
  let a := addr + 64 * g
  let f := mkFlit 7 kCore core kHid 0 opWrite (doff / 64 + g) (s.bytes a 64)
  if s.hostOk a 64 then s.sendFrom .hid f
  else (s.hostLoadError a).sendFrom .hid ((f.poisonWord 0).poisonWord 1)

/-- A request for host memory at the HID. -/
def State.hidServe (s : State) (core : Nat) (b : List Byte) : State :=
  let len := fieldAt b 2 2
  let a := fieldAt b 8 8
  if fieldAt b 0 1 = 1 then (List.range len).foldl (fun t g => t.hidGranule core a (fieldAt b 16 4) g) s
  else
    { s with host := { s.host with spurWrites := s.host.spurWrites ++ [{
        src := core, tag := fieldAt b 20 4 % 2 ^ 23, addr := a, len := len, ctx := fieldAt b 1 1, done := 0, refused := false
        uncorrectable := false }] } }

/-- A SITE_REQ that has reached the HID: a transfer with host memory, or a flit without an action (R612). -/
def State.hidRequest (s : State) (f : Flit) : State :=
  match hidRequestOf f with
  | none => s.unexpected f
  | some b => if hidRequestOk b then s.hidServe f.src.toNat b else s.unexpected f

/-- One enabled word of a data flit goes to host memory; poisoned where it has not arrived delivered (R281). -/
def State.hidWord (s : State) (a : Nat) (f : Flit) (i : Nat) : State :=
  if !f.wen.getLsbD i then s
  else
    match flitWord f i with
    | some p => s.storeHost (a + 32 * i) p.1
    | none => s.poisonHost (a + 32 * i) 32

/-- A data flit at the HID: the next granule of an open WRITE of its source, whose last one is answered (R288, R612). -/
def State.hidData (s : State) (f : Flit) : State :=
  match s.host.spurWrites.find? (fun w => decide (f.skind.toNat = kCore) && w.src = f.src.toNat && w.tag = f.tag) with
  | none => s.unexpected f
  | some w =>
    let a := w.addr + 64 * w.done
    let s1 := (s.hidWord a f 0).hidWord a f 1
    let rest := s1.host.spurWrites.erase w
    if w.len ≤ w.done + 1 then
      ({ s1 with host := { s1.host with spurWrites := rest } }).sendFrom .hid
        (mkFlit 7 kCore w.src kHid 0 opSiteData 0 (completionRecord 0 (w.ctx % 4) w.len w.tag w.addr 0))
    else
      { s1 with host := { s1.host with
        spurWrites := s1.host.spurWrites.map (fun q => if q = w then { w with done := w.done + 1 } else q) } }

end Sys2Proof.Machine
end

