-- ==== Sys2Proof/Machine/Stacks.lean ====
section
/-! DEFINITION. The requests that a stack site serves, its refresh, its patrol scrubber and its fence (spec/09 R284, R287
to R297). -/

namespace Sys2Proof.Machine

/-! ### READ (R288, R289) -/

/-- A READ that is drawn to be read twice: kind 5, the site in place of a core, its READ count as the ordinal (R416, R424). -/
def State.doubleRead (s : State) (r : SiteReq) : Bool :=
  !r.fromSite && (s.sampling r.core).1 &&
    decide (sampleDraw (s.stepOf r.core) ckStack 0 r.site (s.stack r.site).reads < 2 ^ (16 - (s.sampling r.core).2))

/-- An open WRITE of a site still brings the word at an address. -/
def State.writeQueued (s : State) (site a : Nat) : Bool :=
  (s.stack site).writes.any (fun w => !w.refused && decide (w.addr + 64 * w.done ≤ a ∧ a < w.addr + 64 * w.len))

/-- The second read of a word; whether it differs is a free value. A word that differs, with no write to it queued, is recorded
and not delivered (R424). DESIGN CHOICE (assumption log 29). -/
def State.readAgain (s : State) (site a : Nat) : State × Bool :=
  let s1 : State := { s with freeIndex := s.freeIndex + 1 }
  if Config.misread s.freeIndex && !s.writeQueued site a then
    ((s1.record .stackMiscorrection (.site site) [(1, site), (8, a)]).health hNear (4096 + site), false)
  else (s1, true)

/-- A read of a word, and a second one where the request was drawn; false where the word is not delivered. -/
def State.readWordFor (s : State) (twice : Bool) (site a : Nat) : State × Bool :=
  let r := s.readWord a
  if twice && r.2 then r.1.readAgain site a else r

/-- One granule of a READ on its way to the requester, the g-th; a word that is not delivered goes poisoned. -/
def State.readGranule (s : State) (twice : Bool) (r : SiteReq) (g : Nat) : State :=
  let a := fieldAt r.bytes 8 8 + 64 * g
  let r0 := s.readWordFor twice r.site a
  let r1 := r0.1.readWordFor twice r.site (a + 32)
  let f := r.dataFlit (fieldAt r.bytes 16 4) g (s.delivered a 64)
  let f0 := if r0.2 then f else f.poisonWord 0
  r1.1.sendFromSite r.site (if r1.2 then f0 else f0.poisonWord 1)

def State.readGranules (s : State) (twice : Bool) (r : SiteReq) (n : Nat) : State :=
  (List.range n).foldl (fun t g => t.readGranule twice r g) s

/-- A READ that the site admits, from its stack. -/
def State.serveRead (s : State) (r : SiteReq) : State :=
  let a := fieldAt r.bytes 8 8
  let n := fieldAt r.bytes 2 2
  let s1 := (s.modStack r.site (fun x => { x with reads := x.reads + 1 })).touchRows a (64 * n)
  (s1.readGranules (s.doubleRead r) r n).traceSite r.site 1 0 a

/-- An open WRITE of the same requester to the same 4 KiB granule (R290). -/
def OpenWrite.before (w : OpenWrite) (r : SiteReq) : Bool :=
  !w.refused && decide (w.src = r.core ∧ w.fromSite = r.fromSite ∧ w.addr / 4096 = fieldAt r.bytes 8 8 / 4096)

/-- A READ at a stack site (R287 to R292): it is served behind the requester's earlier WRITEs to its granule. -/
def State.stackRead (s : State) (f : Flit) (r : SiteReq) : State :=
  let a := fieldAt r.bytes 8 8
  let len := fieldAt r.bytes 2 2
  if !r.wellFormed then s.stackAnswer r 6
  else
    match (if r.fromSite then none else s.windowBytes r.site a (64 * len)) with
    | some bs => (s.sendAllFromSite r.site (granuleFlits r.site r.core (fieldAt r.bytes 16 4) 0 bs len)).traceSite r.site 1 0 a
    | none =>
      if s.stackStatus r false ≠ 0 then s.stackAnswer r (s.stackStatus r false)
      else
        match ((s.stack r.site).writes.filter (fun w => w.before r)).map (·.tag) with
        | [] => s.serveRead r
        | ts => s.modStack r.site (fun x => { x with held := x.held ++ [(f, ts)] })

/-! ### Acceptance (R290, R294, R537) -/

/-- Cycles of the stack interface, of 0.625 ns (R282). -/
def State.stackCycle (s : State) : Nat := s.time * 8 / 5

/-- A hot stack admits mesh requests on at most every second cycle (R537). -/
def State.hotWait (s : State) (site : Nat) : Bool :=
  (s.stack site).hot && (s.stack site).lastAdmit.any (fun c => decide (s.stackCycle < c + 2))

/-- Requests that a site has accepted and not ended. -/
def StackSite.accepted (x : StackSite) : Nat := (x.writes.filter (fun w => !w.refused)).length + x.held.length

/-- A request waits while its site is hot, holds 256 requests, or cannot activate its bank (R290, R294, R537). -/
def State.requestWaits (s : State) (r : SiteReq) : Bool :=
  s.hotWait r.site || decide (256 ≤ (s.stack r.site).accepted) ||
  (r.wellFormed && s.inStack (fieldAt r.bytes 8 8) 64 && s.rowsBlocked (fieldAt r.bytes 8 8) 64)

/-- A stack site takes a request that has reached it. -/
def State.siteRequest (s : State) (f : Flit) (r : SiteReq) (serve : State → State) : State :=
  if s.requestWaits r then s
  else s.onArrival f (fun t => serve (t.modStack r.site (fun x => { x with lastAdmit := some t.stackCycle })))

/-- OPCs that no site defines (R287, R395). -/
def opcReserved (o : Nat) : Bool := !([1, 2, 3, 0x10, 0x11, 0x12].contains o)

/-- A request whose payload is not delivered has no effect, and its data are LOST. DESIGN CHOICE (assumption log 63). -/
def State.badRequest (s : State) (f : Flit) : State :=
  if f.skind.toNat = kCore then (s.unexpected f).lostCore f.src.toNat false else s.unexpected f

/-- A request that a site of no kind of its own serves, or that its kind does not define. -/
def State.otherRequest (s : State) (f : Flit) (r : SiteReq) : State :=
  if s.isStack r.site then
    if r.opc = 1 then s.siteRequest f r (fun t => t.stackRead f r)
    else if r.opc ≠ 2 && r.opc ≠ 3 then s.siteRequest f r (fun t => t.stackAnswer r 6)
    else s
  else if s.isIo r.site then
    if opcReserved r.opc || decide (r.opc ≤ 3) then
      s.ioRequest f r (fun t => t.answer r.site r.core 6 (r.ctx % 4) (fieldAt r.bytes 2 2) (fieldAt r.bytes 16 4)
        (fieldAt r.bytes 8 8) 0 r.opc)
    else s
  else s.onArrival f (fun t => t.unexpected f)

/-- READ at a stack site, and every request that no other command serves: one at a core has no action (R288, R289, R612). -/
def execRead (f : Flit) (s : State) : Host.Outcome State Fault Refusal :=
  .next (if f.op.toNat ≠ opSiteReq then s
    else if f.dkind.toNat = kHid then s.onArrival f (fun t => t.hidRequest f)
    else if f.dkind.toNat ≠ kSite then s.atCore f opSiteReq (fun t _ => t.unexpected f)
    else
      match siteReqOf f with
      | none => s.onArrival f (fun t => t.badRequest f)
      | some r => s.otherRequest f r)

/-! ### WRITE (R288, R289, R341) -/

/-- The request opens: its data flits follow. -/
def State.openWrite (s : State) (r : SiteReq) (refused fenced : Bool) : State :=
  s.modStack r.site (fun x => { x with writes := x.writes ++ [{
    src := r.core
    fromSite := r.fromSite
    tag := fieldAt r.bytes 20 4 % 2 ^ 23
    addr := fieldAt r.bytes 8 8
    len := fieldAt r.bytes 2 2
    ctx := r.ctx
    done := 0
    refused := refused
    uncorrectable := fenced }] })

/-- A refused WRITE: its record goes at once, and its data are absorbed where LEN is in range. -/
def State.refuseWrite (s : State) (r : SiteReq) (st : Nat) : State :=
  let s1 := s.stackAnswer r st
  if 1 ≤ fieldAt r.bytes 2 2 ∧ fieldAt r.bytes 2 2 ≤ 64 then s1.openWrite r true false else s1

def State.stackWrite (s : State) (r : SiteReq) : State :=
  if !r.wellFormed then s.refuseWrite r 6
  else
    let st := s.stackStatus r true
    if st ≠ 0 then s.refuseWrite r st
    else
      let s1 := if s.toOwned r then s.markUnsafe r.core r.ctx else s
      if (s.stack r.site).st = .fencedRun then s1.openWrite r false true
      else (s1.touchRows (fieldAt r.bytes 8 8) 64).openWrite r false false

def execStackWrite (f : Flit) (s : State) : Host.Outcome State Fault Refusal :=
  .next (match siteReqOf f with
    | none => s
    | some r =>
      if s.isStack r.site && decide (r.opc = 2) then s.siteRequest f r (fun t => t.stackWrite r) else s)

/-! ### The data of a WRITE -/

def OpenWrite.is (w : OpenWrite) (fromSite : Bool) (src tag : Nat) : Bool :=
  decide (w.fromSite = fromSite) && decide (w.src = src) && decide (w.tag = tag)

def putWrite (w : OpenWrite) : List OpenWrite → List OpenWrite
  | [] => []
  | x :: r => if x.is w.fromSite w.src w.tag then w :: r else x :: putWrite w r

def dropWrite (w : OpenWrite) : List OpenWrite → List OpenWrite
  | [] => []
  | x :: r => if x.is w.fromSite w.src w.tag then r else x :: dropWrite w r

/-- The READs that waited for a WRITE alone are served, in order (R290). -/
def State.releaseReads (s : State) (site : Nat) (w : OpenWrite) : State :=
  let l := (s.stack site).held.map (fun q =>
    if (siteReqOf q.1).any (fun r => w.before r) then (q.1, q.2.erase w.tag) else q)
  (l.filter (fun q => q.2.isEmpty)).foldl (fun a q =>
    match siteReqOf q.1 with
    | some r => a.serveRead r
    | none => a) (s.modStack site (fun x => { x with held := l.filter (fun q => !q.2.isEmpty) }))

/-- One word of a data flit: written, or written poisoned where it does not arrive delivered (R281). -/
def State.writeFlitWord (s : State) (a : Nat) (f : Flit) (i : Nat) : State :=
  match flitWord f i with
  | some p => s.store (a + 32 * i) p.1
  | none => s.poison (a + 32 * i) 32

/-- A flit that enables one word merges it with the granule's other word (R43, R288). -/
def State.mergeGranule (s : State) (a : Nat) (f : Flit) : State × Bool :=
  let en (i : Nat) : Bool := decide (f.wen.toNat / 2 ^ i % 2 = 1)
  if en 0 && en 1 then ((s.writeFlitWord a f 0).writeFlitWord a f 1, true)
  else
    let i := if en 0 then 0 else 1
    let t := s.readWord (a + 32 * (1 - i))
    if t.2 then (t.1.writeFlitWord a f i, true) else (t.1, false)

/-- The last granule has come: the completion record (R288). -/
def State.writeDone (s : State) (site : Nat) (w : OpenWrite) : State :=
  let s1 := s.modStack site (fun x => { x with writes := dropWrite w x.writes })
  if w.refused then s1
  else
    let st := if w.uncorrectable then 3 else 0
    ((s1.sendFromSite site (recordFlit w.fromSite site w.src st (w.ctx % 4) w.len w.tag w.addr)).traceSite site 2 st
      w.addr).releaseReads site w

def State.writeData (s : State) (site : Nat) (w : OpenWrite) (f : Flit) : State :=
  let t := if w.refused || w.uncorrectable && (s.stack site).st = .fencedRun then (s, true)
    else if (s.stack site).st = .fencedRun then (s, false)
    else s.mergeGranule (w.addr + 64 * w.done) f
  let w1 := { w with done := w.done + 1, uncorrectable := w.uncorrectable || !t.2 }
  let s1 := t.1.modStack site (fun x => { x with writes := putWrite w1 x.writes })
  if w1.len ≤ w1.done then s1.writeDone site w1 else s1

def execStackWriteData (f : Flit) (s : State) : Host.Outcome State Fault Refusal :=
  .next (
    if f.dkind.toNat = kSite && f.op.toNat = opSiteData && s.isStack f.dest.toNat then
      s.onArrival f (fun t =>
        match (t.stack f.dest.toNat).writes.find? (fun w =>
          decide (f.skind.toNat ≤ kSite) && w.is (decide (f.skind.toNat = kSite)) f.src.toNat f.tag) with
        | none => t.unexpected f
        | some w => t.writeData f.dest.toNat w f)
    else s)

/-! ### Refresh, patrol, fence (R284, R293 to R295) -/

/-- The refresh of a bank. A refresh management command that is due to it is issued and takes its threshold (R294). -/
def State.refresh (s : State) (site bank : Nat) : State :=
  let x := s.stack site
  let n := Tab.get 0 x.acts bank
  let d := (rfmThresholds site).1
  if n < d then s
  else s.setStack site { x with acts := Tab.set 0 x.acts bank (n - d), blocked := x.blocked.filter (fun b => b ≠ bank) }

def execRefresh (site : Fin 36) (bank : Nat) (s : State) : Host.Outcome State Fault Refusal :=
  .next (if s.isStack site.val then s.refresh site.val bank else s)

/-- The stack address of a word of a site's own stack, by its number in the stack (R285). -/
def State.localWord (s : State) (site word : Nat) : Nat :=
  4096 * (word / 128 * s.interleave.length + s.placeOf site) + 32 * (word % 128)

/-- Words of a stack. -/
def stackWords : Nat := stackGiB72 / 32

def execPatrolScrub (site : Fin 36) (word : Nat) (s : State) : Host.Outcome State Fault Refusal :=
  let a := s.localWord site.val word
  .next (if s.isStack site.val && decide (word < stackWords) && s.interleave.contains site.val && !s.rowsBlocked a 32
    then ((s.touchRows a 32).readWord a).1 else s)

def execStackFenced (site : Fin 36) (s : State) : Host.Outcome State Fault Refusal :=
  .next (s.fenceStack site.val 1)

end Sys2Proof.Machine
end

