-- ==== Sys2Proof/Machine/Sfu.lean ====
section
/-! DEFINITION. What R166 allows a special-function result to be: an enclosure of the exact value, and the codes within 2 ulp of it
(spec/05 R166). -/

namespace Sys2Proof.Machine

/-- Values in units of 2^-96. -/
def fixOne : Nat := 2 ^ 96

/-- floor(|d| * 2^96), with the sign of d. -/
def Dy.fix (d : Dy) : Int :=
  let n := if -96 ≤ d.e then d.m * 2 ^ (d.e + 96).toNat else d.m / 2 ^ (-96 - d.e).toNat
  if d.neg then -(n : Int) else n

/-- ln 2 and 2 / ln 2, rounded down. -/
def fixLn2 : Nat := 0xB17217F7D1CF79ABC9E3B398
def fixTwoLog2e : Nat := 228604154316148052805275351873

/-- sum of t^k / k! for k below n, from the term k on. -/
def expSeries (t : Nat) : Nat → Nat → Nat → Nat
  | 0, _, _ => 0
  | n + 1, k, term => term + expSeries t n (k + 1) (term * t / fixOne / (k + 1))

/-- 2^x for x in units of 2^-96: a mantissa within 2^8 units of the exact one, and the exponent. -/
def fixExp2 (x : Int) : Nat × Int :=
  (expSeries ((x % fixOne).toNat * fixLn2 / fixOne) 30 0 fixOne, x / fixOne)

/-- sum of z^(2k+1) / (2k+1) for k below n. -/
def atanhSeries (zz : Nat) : Nat → Nat → Nat → Nat
  | 0, _, _ => 0
  | n + 1, k, p => p / (2 * k + 1) + atanhSeries zz n (k + 1) (p * zz / fixOne)

/-- log2 of m * 2^e, in units of 2^-96, within 2^8 of them. -/
def fixLog2 (m : Nat) (e : Int) : Int :=
  let l := Nat.log2 m
  let z := (m - 2 ^ l) * fixOne / (m + 2 ^ l)
  (l + e) * fixOne + (atanhSeries (z * z / fixOne) 31 0 z * fixTwoLog2e / fixOne : Nat)

/-- A sign, and two magnitudes between which the exact one lies. -/
structure Enclosure where
  neg : Bool
  lo : Dy
  hi : Dy
  deriving DecidableEq, Repr

/-- The values within w units of n * 2^e. -/
def around (neg : Bool) (n w : Nat) (e : Int) : Enclosure := ⟨neg, ⟨false, n - w, e⟩, ⟨false, n + w, e⟩⟩

def encExp2 (d : Dy) : Enclosure :=
  let q := fixExp2 d.fix
  around false q.1 256 (q.2 - 96)

def encLog2 (d : Dy) : Enclosure :=
  let v := fixLog2 d.m d.e
  around (decide (v < 0)) v.natAbs 256 (-96)

def encRcp (d : Dy) : Enclosure := around d.neg (2 ^ 128 / d.m) 1 (-128 - d.e)

/-- 1 / sqrt d: the exponent is made even first. -/
def encRsqrt (d : Dy) : Enclosure :=
  let m := if d.e % 2 = 0 then d.m else 2 * d.m
  around false (Nat.sqrt (2 ^ 192 / m)) 1 (-96 - d.e / 2)

/-- tanh x: x - x^3 / 3 with a term of at most x^5 / 4 where |x| is below 2^-12, else (E - 1) / (E + 1) with E = e^(2 |x|). -/
def encTanh (d : Dy) : Enclosure :=
  let x := d.abs
  if x.lt (Dy.pow2 (-12)) then
    let c := (x.mul x).mul x
    let lo := x.sub (c.mul ⟨false, fixOne / 3 + 1, -96⟩)
    ⟨d.neg, lo, (x.sub (c.mul ⟨false, fixOne / 3, -96⟩)).add ((c.mul (x.mul x)).mul (Dy.pow2 (-2)))⟩
  else
    let q := fixExp2 (x.fix.toNat * fixTwoLog2e / fixOne : Nat)
    let g := q.1 * 2 ^ q.2.toNat
    around d.neg ((g - fixOne) * fixOne / (g + fixOne)) (2 ^ 24) (-96)

/-- The exact value of a special function of a finite operand that has no exact result. -/
def sfuEnclosure (o : VOp) (d : Dy) : Enclosure :=
  match o with
  | .exp2 => encExp2 d
  | .log2 => encLog2 d
  | .rcp => encRcp d
  | .rsqrt => encRsqrt d
  | _ => encTanh d

/-- One ulp of FP32 at a magnitude; that of the smallest subnormal below the normal ones. -/
def ulpAt (d : Dy) : Dy := Dy.pow2 (max (-149) ((Nat.log2 d.m : Int) + d.e - 23))

/-- Whether a code lies within 2 ulp of some value of an enclosure (R166). The enclosure is narrower than 2^-24 ulp, so every code that
the rule allows passes. -/
def Enclosure.allows (x : Enclosure) (w : Word32) : Bool :=
  match f32 w with
  | .fin v =>
    let r := if x.neg then v.negate else v
    let u := (ulpAt x.hi).mul ⟨false, 2, 0⟩
    r.le (x.hi.add u) && (x.lo.sub u).le r
  | _ => false

/-- A result within 2 ulp: the free value of the operand bits where it is one, else the nearest code (R149, R166). -/
def sfuWithin (o : VOp) (d : Dy) (x : Word32) : Word32 :=
  let e := sfuEnclosure o d
  let w := Config.sfu o.code x
  if e.allows w then w else (dyToF32 { e.lo with neg := e.neg }).1

end Sys2Proof.Machine
end

