-- ==== Sys2Proof/Machine/VectorMath.lean ====
section
/-! DEFINITION. What the vector engine computes for one element or segment (spec/05 R156 to R168, spec/06 R206). -/

namespace Sys2Proof.Machine

/-- One result element with its saturations and its non-finite values (R100, R105). -/
structure VRes where
  w : Word32
  sat : Nat
  nonfin : Nat
  deriving DecidableEq, Repr

/-- A result whose bits are not read as numbers. -/
def VRes.plain (w : Word32) : VRes := ⟨w, 0, 0⟩

/-- Non-finite FP32 codes. -/
def f32Nonfinite (w : Word32) : Bool := !(f32 w).isFinite

def VRes.f32 (w : Word32) : VRes := ⟨w, 0, if f32Nonfinite w then 1 else 0⟩

/-- FP32 result of a value, IEEE overflow (R157). -/
def VRes.ofFV (v : FV) : VRes := VRes.f32 (BitVec.ofNat 32 (v.toIeee fmtFP32))

def bfNonfinite (h : Nat) : Bool := !(decodeWide fmtBF16 h).isFinite

/-- Two 16-bit halves as an element. -/
def pairWord (lo hi : Nat) : Word32 := BitVec.ofNat 32 (lo % 65536 + 65536 * (hi % 65536))

def loHalf (w : Word32) : Nat := w.toNat % 65536
def hiHalf (w : Word32) : Nat := w.toNat / 65536

/-- A B16X2 element from its two results: code and saturation each (R145, R157). -/
def VRes.pair (f : Fmt) (a b : Nat × Bool) : VRes :=
  ⟨pairWord a.1 b.1, a.2.toNat + b.2.toNat,
    (!(decodeWide f a.1).isFinite).toNat + (!(decodeWide f b.1).isFinite).toNat⟩

def FV.fma (a b c : FV) : FV := (a.mul b).add c

/-- One arithmetic operation on decoded values (R156). -/
def fvOp (o : VOp) (a b c : FV) : FV :=
  match o with
  | .add => a.add b
  | .sub => a.add b.negate
  | .mul => a.mul b
  | .fma => a.fma b c
  | .min => a.minimum b
  | .max => a.maximum b
  | _ => a

/-- Comparison of decoded values (R156). -/
def fvCmp (o : VOp) (a b : FV) : Bool :=
  match o with
  | .cmpeq => a.eq b
  | .cmpne => !(a.eq b)
  | .cmplt => a.lt b
  | .cmple => a.lt b || a.eq b
  | _ => false

/-- I32 operations (R156). -/
def intOp (o : VOp) (a b c : Word32) : Word32 :=
  match o with
  | .add => a + b
  | .sub => a - b
  | .mul => a * b
  | .fma => a * b + c
  | .min => if a.toInt ≤ b.toInt then a else b
  | .max => if a.toInt ≤ b.toInt then b else a
  | .abs => if a.toInt < 0 then -a else a
  | .neg => -a
  | .and => a &&& b
  | .or => a ||| b
  | .xor => a ^^^ b
  | _ => a

def intCmp (o : VOp) (a b : Word32) : Bool :=
  match o with
  | .cmpeq => decide (a = b)
  | .cmpne => decide (a ≠ b)
  | .cmplt => decide (a.toInt < b.toInt)
  | .cmple => decide (a.toInt ≤ b.toInt)
  | _ => false

def VOp.isCmp : VOp → Bool
  | .cmpeq | .cmpne | .cmplt | .cmple => true
  | _ => false

/-- One elementwise result (R156, R157). -/
def elementOp (o : VOp) (etype m : Nat) (a b c : Word32) : VRes :=
  match o with
  | .sel => VRes.plain (if c = 0 then b else a)
  | .iota => VRes.plain (BitVec.ofNat 32 m + a)
  | _ =>
    if etype = 2 then
      if o.isCmp then VRes.plain (if intCmp o a b then 1 else 0) else VRes.plain (intOp o a b c)
    else if etype = 1 then
      let la := decodeWide fmtBF16 (loHalf a)
      let lb := decodeWide fmtBF16 (loHalf b)
      let lc := decodeWide fmtBF16 (loHalf c)
      let ha := decodeWide fmtBF16 (hiHalf a)
      let hb := decodeWide fmtBF16 (hiHalf b)
      let hc := decodeWide fmtBF16 (hiHalf c)
      if o.isCmp then VRes.plain (pairWord (fvCmp o la lb).toNat (fvCmp o ha hb).toNat)
      else match o with
        | .abs => VRes.pair fmtBF16 (loHalf a % 32768, false) (hiHalf a % 32768, false)
        | .neg => VRes.pair fmtBF16 (loHalf (a ^^^ 0x80008000#32), false) (hiHalf (a ^^^ 0x80008000#32), false)
        | _ => VRes.pair fmtBF16 ((fvOp o la lb lc).toSat fmtBF16 none) ((fvOp o ha hb hc).toSat fmtBF16 none)
    else
      if o.isCmp then VRes.plain (if fvCmp o (f32 a) (f32 b) then 1 else 0)
      else match o with
        | .abs => VRes.f32 (a &&& 0x7FFFFFFF#32)
        | .neg => VRes.f32 (a ^^^ 0x80000000#32)
        | _ => VRes.ofFV (fvOp o (f32 a) (f32 b) (f32 c))

/-! ### Conversions (R158, R92) -/

/-- The integer nearest n * 2^e, ties to even. -/
def roundInt (d : Dy) : Int :=
  let v : Nat :=
    if 0 ≤ d.e then d.m * 2 ^ d.e.toNat
    else
      let D := 2 ^ (-d.e).toNat
      let k := d.m / D
      if roundsUp none k (d.m % D) D then k + 1 else k
  if d.neg then -(v : Int) else v

/-- F32 to I32 (R158). -/
def cvtFI (a : Word32) : VRes :=
  match f32 a with
  | .nan => VRes.plain 0
  | .inf n => ⟨if n then 0x80000000#32 else 0x7FFFFFFF#32, 1, 0⟩
  | .fin d =>
    let i := roundInt d
    if i < -(2 ^ 31) then ⟨0x80000000#32, 1, 0⟩
    else if 2 ^ 31 ≤ i then ⟨0x7FFFFFFF#32, 1, 0⟩
    else VRes.plain (BitVec.ofInt 32 i)

/-- I32 to F32 (R158). -/
def cvtIF (a : Word32) : VRes := VRes.ofFV (.fin (Dy.ofInt a.toInt 0 false))

/-- Two F32 elements to one pair of a 16-bit format (R158, R92). -/
def cvtPair (f : Fmt) (r0 r1 : Rnd) (a b : FV) : VRes := VRes.pair f (a.toSat f r0) (b.toSat f r1)

/-- Half m of a pair, widened exactly (R158). -/
def cvtWiden (f : Fmt) (w : Word32) (m : Nat) : VRes :=
  VRes.ofFV (decodeWide f (if m % 2 = 0 then loHalf w else hiHalf w))

/-! ### Reductions (R163, R164) -/

/-- One node of a reduction tree. -/
def reduceNode (o : VOp) (a b : Word32) : Word32 :=
  let v := match o with
    | .rmax => (f32 a).maximum (f32 b)
    | .rmin => (f32 a).minimum (f32 b)
    | _ => (f32 a).add (f32 b)
  BitVec.ofNat 32 (v.toIeee fmtFP32)

/-- The result of one segment (R163). -/
def reduceSegment (o : VOp) (xs : List Word32) : Word32 :=
  let leaves := if o = .rsumsq then xs.map (fun x => BitVec.ofNat 32 (((f32 x).mul (f32 x)).toIeee fmtFP32)) else xs
  treeRoot (reduceNode o) 0 13 leaves

/-- With ACC the destination receives RNE32(destination + result) (R163). -/
def reduceAcc (acc : Bool) (old r : Word32) : Word32 :=
  if acc then BitVec.ofNat 32 (((f32 old).add (f32 r)).toIeee fmtFP32) else r

/-- Whether a orders before b as the larger (or smaller) for RARGMAX and RARGMIN, -0 below +0 (R164). -/
def argBetter (o : VOp) (a b : FV) : Bool :=
  let lt (x y : FV) : Bool := x.lt y || (x.eq y && x.neg && !y.neg)
  if o = .rargmax then lt b a else lt a b

/-- Index of the chosen element of a segment: the first NaN, or the best (R164). -/
def argSegment (o : VOp) (xs : List Word32) : Nat :=
  match xs.findIdx? (fun x => (f32 x).isNan) with
  | some i => i
  | none =>
    ((List.range xs.length).foldl (fun b i =>
      if argBetter o (f32 (xs.getD i 0)) (f32 (xs.getD b 0)) then i else b) 0)

/-! ### Special functions (R166) -/

/-- The exponent k where a finite magnitude is exactly 2^k. -/
def exactPow2 (d : Dy) : Option Int :=
  if d.m = 0 then none
  else if d.m = 2 ^ Nat.log2 d.m then some (Nat.log2 d.m + d.e) else none

/-- The integer a finite value is, where it is one. -/
def exactInt (d : Dy) : Option Int :=
  if 0 ≤ d.e then some (Dy.toIntAt d 0)
  else if d.m % 2 ^ (-d.e).toNat = 0 then
    some (if d.neg then -((d.m / 2 ^ (-d.e).toNat : Nat) : Int) else ((d.m / 2 ^ (-d.e).toNat : Nat) : Int))
  else none

def ofPow2 (neg : Bool) (k : Int) : Word32 := BitVec.ofNat 32 ((FV.fin ⟨neg, 1, k⟩).toIeee fmtFP32)

def f32Inf (neg : Bool) : Word32 := if neg then 0xFF800000#32 else 0x7F800000#32
def f32Nan : Word32 := 0x7FC00000#32
def f32Zero (neg : Bool) : Word32 := if neg then 0x80000000#32 else 0

/-- The exact results of R166; none where the result is left within 2 ulp. -/
def sfuExact (o : VOp) (x : FV) : Option Word32 :=
  match x with
  | .nan => some f32Nan
  | .inf n =>
    match o with
    | .exp2 => some (if n then 0 else f32Inf false)
    | .log2 => some (if n then f32Nan else f32Inf false)
    | .rcp => some (f32Zero n)
    | .rsqrt => some (if n then f32Nan else 0)
    | _ => some (if n then 0xBF800000#32 else f32One)
  | .fin d =>
    match o with
    | .exp2 =>
      if (Dy.ofInt 128 0 false).le d then some (f32Inf false)
      else if d.lt (Dy.ofInt (-150) 0 false) then some 0
      else match exactInt d with
        | some k => if -149 ≤ k then some (ofPow2 false k) else none
        | none => none
    | .log2 =>
      if d.m = 0 then some (f32Inf true)
      else if d.neg then some f32Nan
      else match exactPow2 d with
        | some k => some (BitVec.ofNat 32 ((FV.fin (Dy.ofInt k 0 false)).toIeee fmtFP32))
        | none => none
    | .rcp =>
      if d.m = 0 then some (f32Inf d.neg)
      else if ((d.abs).mul (decodeMag fmtFP32 false fmtFP32.maxCode)).lt (Dy.ofInt 1 0 false) then some (f32Inf d.neg)
      else match exactPow2 d with
        | some k => some (ofPow2 d.neg (-k))
        | none => none
    | .rsqrt =>
      if d.m = 0 then some (f32Inf d.neg)
      else if d.neg then some f32Nan
      else match exactPow2 d with
        | some k => if k % 2 = 0 then some (ofPow2 false (-(k / 2))) else none
        | none => none
    | _ =>
      if d.m = 0 then some (f32Zero d.neg)
      else if (Dy.ofInt 91 0 false).le (d.abs.mul (Dy.ofInt 10 0 false)) then
        some (if d.neg then 0xBF800000#32 else f32One)
      else none

/-- A special-function result: exact where R166 says so, else a free value of the operand bits within 2 ulp (R149, R166). DESIGN CHOICE
(assumption log 11). -/
def sfuOp (o : VOp) (x : Word32) : VRes :=
  match sfuExact o (f32 x) with
  | some w => VRes.f32 w
  | none =>
    match f32 x with
    | .fin d => VRes.f32 (sfuWithin o d x)
    | _ => VRes.f32 f32Nan

/-! ### W48 (R168, R99) -/

/-- w * a + d rounded once to W48: the code, saturation, and non-finiteness of the FP32 plane (R168, R99). -/
def wfmaOp (w : Nat) (a d : Word32) : Nat × Bool × Bool :=
  let v := ((decodeWide fmtW48 w).mul (f32 a)).add (f32 d)
  let r := v.toSat fmtW48 none
  (r.1, r.2, !v.isFinite)

/-! ### Unpacking and comparing (R162, R206) -/

/-- One element of UNPACK: element * block scale * S_t, rounded once (R162); the number of special codes. -/
def unpackElem (el : Elem) (kind code scale : Nat) (st : Option Word32) : VRes × Nat :=
  let e := decodeElem el code
  let c := decodeScale kind scale
  let p := e.1.mul c.1
  let q := match st with
    | some t => p.mul (dyOfF32 t)
    | none => p
  let r := dyToF32 q
  (⟨r.1, r.2.toNat, 0⟩, e.2.toNat)

/-- Whether a CKCMP element fails: |a - b| > 2^-(8+TOL) * |c|, the difference exact (R206). Nothing is above a NaN
(DEDUCED from R156, assumption log 59). -/
def ckFails (tol : Nat) (a b c : Word32) : Bool :=
  if a = b then false
  else match f32 a, f32 b with
    | .fin x, .fin y =>
      match f32 c with
      | .fin z => (z.abs.mul (Dy.pow2 (-(8 + (tol : Int))))).lt (x.sub y).abs
      | .inf _ => false
      | .nan => false
    | _, _ => true

end Sys2Proof.Machine
end

