-- ==== Sys2Proof/Machine/TemperMath.lean ====
section
/-! DEFINITION. What a temper unit computes for one element and for one published block (spec/09 R301, R302). -/

namespace Sys2Proof.Machine

/-- One FP32 result of a temper unit: its code, and whether it saturated (R93, R301). -/
structure TRes where
  code : Nat
  sat : Bool := false
  deriving DecidableEq, Repr

def TRes.v (r : TRes) : FV := decodeWide fmtFP32 r.code
def TRes.w (r : TRes) : Word32 := BitVec.ofNat 32 r.code
def TRes.finite (r : TRes) : Bool := r.v.isFinite
def TRes.of (v : FV) : TRes := let r := v.toSat fmtFP32 none; ⟨r.1, r.2⟩

def tMul (a b : TRes) : TRes := TRes.of (a.v.mul b.v)
def tFma (a b c : TRes) : TRes := TRes.of (a.v.fma b.v c.v)
/-- RSQRT gives what the vector engine's gives, an infinity or a NaN where its operand is not positive too: the element is then not
written, as any other non-finite one (R104, R301). DESIGN CHOICE (assumption log 75). -/
def tRsqrt (a : TRes) : TRes := ⟨(sfuOp .rsqrt a.w).w.toNat, false⟩

/-- -1, 0 or +1 (R301). -/
def tSign (a : TRes) : TRes :=
  match a.v with
  | .nan => a
  | .inf n => ⟨if n then 0xBF800000 else 0x3F800000, false⟩
  | .fin d => ⟨if d.m = 0 then 0 else if d.neg then 0xBF800000 else 0x3F800000, false⟩

/-- The scalars of a parameter block (R300). -/
structure TScalars where
  nlr : TRes
  dec : TRes
  b1 : TRes
  ob1 : TRes
  b2 : TRes
  ob2 : TRes
  c1 : TRes
  c2 : TRes
  e2 : TRes
  k : TRes
  deriving DecidableEq, Repr

/-- The planes of one element after its update: W48 code, moments, saturations, and whether every value is finite. -/
structure TElem where
  w : Nat
  m : Nat
  v : Nat
  sats : Nat
  finite : Bool
  deriving DecidableEq, Repr

def satCount (l : List TRes) : Nat := (l.filter (·.sat)).length

/-- The result of an update: the old planes stand where a value is non-finite. -/
def tElem (inputs : List TRes) (w0 w m v : Nat) (wsat wbad : Bool) (l : List TRes) : TElem where
  w := w
  m := m
  v := v
  sats := satCount l + wsat.toNat
  finite := inputs.all (·.finite) && l.all (·.finite) && !wbad && (decodeWide fmtW48 w0).isFinite

def tAdamw (p : TScalars) (g0 : TRes) (w m v : Nat) : TElem :=
  let g := tMul g0 p.k
  let h := tMul p.ob1 g
  let m1 := tFma p.b1 ⟨m, false⟩ h
  let gg := tMul g g
  let hg := tMul p.ob2 gg
  let v1 := tFma p.b2 ⟨v, false⟩ hg
  let mc := tMul m1 p.c1
  let st := tMul p.nlr mc
  let den := tFma v1 p.c2 p.e2
  let r := tRsqrt den
  let d := tMul st r
  let q := wfmaOp w p.dec.w d.w
  tElem [g0, ⟨m, false⟩, ⟨v, false⟩] w q.1 m1.code v1.code q.2.1 q.2.2 [g, h, m1, gg, hg, v1, mc, st, den, r, d]

def tLion (p : TScalars) (g0 : TRes) (w m : Nat) : TElem :=
  let g := tMul g0 p.k
  let h := tMul p.ob1 g
  let f := tFma p.b1 ⟨m, false⟩ h
  let u := tSign f
  let d := tMul p.nlr u
  let q := wfmaOp w p.dec.w d.w
  let h2 := tMul p.ob2 g
  let m1 := tFma p.b2 ⟨m, false⟩ h2
  tElem [g0, ⟨m, false⟩] w q.1 m1.code 0 q.2.1 q.2.2 [g, h, f, u, d, h2, m1]

def tSgdm (p : TScalars) (g0 : TRes) (w m : Nat) : TElem :=
  let g := tMul g0 p.k
  let m1 := tFma p.b1 ⟨m, false⟩ g
  let d := tMul p.nlr m1
  let q := wfmaOp w p.dec.w d.w
  tElem [g0, ⟨m, false⟩] w q.1 m1.code 0 q.2.1 q.2.2 [g, m1, d]

/-- One element under ALG 1 to 3 (R301). -/
def tUpdate (alg : Nat) (p : TScalars) (g : TRes) (w m v : Nat) : TElem :=
  match alg with
  | 1 => tAdamw p g w m v
  | 2 => tLion p g w m
  | _ => tSgdm p g w m

/-! ### Publication (R302) -/

/-- What a publication needs to know (R300). -/
structure TPublish where
  fc : FmtCode
  pts : Word32
  tensor : Nat
  step : Nat
  rowLen : Nat
  deriving DecidableEq, Repr

/-- The random value of element e (R87). -/
def TPublish.rnd (p : TPublish) (e : Nat) : Nat := randomOf p.step p.tensor (e / max 1 p.rowLen) (e % max 1 p.rowLen)

def TPublish.recip (p : TPublish) : Option Dy := if p.fc.tscale then some (recipTScale p.pts) else none

/-- The block of masters that starts at element e. -/
def TPublish.block (p : TPublish) (e : Nat) (ws : List Nat) : BlockOut :=
  writeBlock p.fc p.recip true (ws.zipIdx.map (fun x => (decodeWide fmtW48 x.1, p.rnd (e + x.2))))

/-- Masters to BF16. -/
def TPublish.bf16 (p : TPublish) (e : Nat) (w : Nat) : Nat × Bool :=
  (decodeWide fmtW48 w).toSat fmtBF16 (if p.fc.stoch then some (p.rnd e) else none)

/-- Lists cut into blocks. -/
def blocksOf (n : Nat) (ws : List Nat) : List (List Nat) :=
  (List.range (ws.length / max 1 n)).map (fun i => (ws.drop (n * i)).take n)

end Sys2Proof.Machine
end

