-- ==== Sys2Proof/Machine/Temper.lean ====
section
/-! DEFINITION. The temper unit of a stack site: its requests and its shares (spec/09 R298 to R305, spec/11 R341,
R361). -/

namespace Sys2Proof.Machine

/-! ### Requests (R299, R303) -/

/-- The fields of a TEMPER request keep R299. DEDUCED: PUB (assumption log 30). -/
def temperOk (b : List Byte) : Bool :=
  let alg := fieldAt b 1 1
  let fl := fieldAt b 2 1
  decide (1 ≤ alg ∧ alg ≤ 4 ∧ fl < 4 ∧ fieldAt b 3 1 < 64) && (decide (alg ≠ 4) || decide (fl % 2 = 0)) &&
  (decide (alg = 4) || decide (fl % 2 = 1) || decide (fieldAt b 4 4 = 0)) &&
  decide (fieldAt b 8 8 % 64 = 0 ∧ fieldAt b 8 8 < 2 ^ 48) && zeroAt b 20 44

/-- The result area lies in bank C or D. -/
def resultArea (o : Nat) : Bool := decide (o % 64 = 0) && (inBank 2 o 64 || inBank 3 o 64)

/-- The 64-byte result record (R304). -/
def temperRecord (site st step elems sat special cycles : Nat) : List Byte :=
  leBytes 1 site ++ leBytes 1 st ++ leBytes 2 0 ++ leBytes 4 step ++ leBytes 8 elems ++ leBytes 8 sat ++
    leBytes 8 special ++ leBytes 8 cycles ++ leBytes 24 0

/-- The record goes to the requester; PARAM and REGION are recorded (R304, R306). -/
def State.temperResult (s : State) (site : Nat) (q : TemperCmd) (st elems sat special : Nat) : State :=
  let cycles := (s.time - q.started) * 8 / 5
  let s1 := if resultArea q.roff then
      s.deliver (.site site) q.core q.roff (temperRecord site st q.step elems sat special cycles) (some q.rsem) else s
  if st = 1 || st = 2 then s1.record .temperRejected (.site site) [(2, q.core), (1, site), (1, st)] else s1

def temperOf (r : SiteReq) (job now : Nat) : TemperCmd where
  core := r.core
  job := job
  alg := fieldAt r.bytes 1 1
  flags := fieldAt r.bytes 2 1
  rsem := fieldAt r.bytes 3 1 % 64
  step := fieldAt r.bytes 4 4
  paddr := fieldAt r.bytes 8 8
  roff := fieldAt r.bytes 16 4
  started := now

/-- What the HID learns of a command that ends in a commit window (R361). -/
def State.temperReport (s : State) (site j st special : Nat) : State :=
  match (s.job j).committing with
  | none => s
  | some r => s.setStep j { r with
      temperBad := if (st ≠ 0 || special ≠ 0) && r.temperBad.isNone then some (site, st) else r.temperBad }

/-- A TEMPER request at a stack site that has a place for it. DEDUCED (assumption log 30). -/
def State.acceptTemper (s : State) (r : SiteReq) (j : Nat) : State :=
  let q := temperOf r j s.time
  if !temperOk r.bytes || !resultArea q.roff then (s.temperReport r.site j 1 0).temperResult r.site q 1 0 0 0
  else if !(s.job j).commitOpen then s.temperResult r.site q 2 0 0 0
  else s.modStack r.site (fun x => { x with temper := x.temper ++ [q] })

/-- A TEMPER request that has reached its site; only cores send one (R299). -/
def State.serveTemper (s : State) (r : SiteReq) : State :=
  if r.fromSite then s.stackAnswer r 6
  else
    match s.jobOf r.core with
    | none => s.temperResult r.site (temperOf r 0 s.time) 2 0 0 0
    | some j => (s.markUnsafe r.core 2).acceptTemper r j

def execTemper (f : Flit) (s : State) : Host.Outcome State Fault Refusal :=
  .next (match siteReqOf f with
    | none => s
    | some r =>
      if s.isStack r.site && decide (r.opc = 3) then
        if 9 ≤ (s.stack r.site).temper.length || s.hotWait r.site then s
        else s.onArrival f (fun t => t.serveTemper r)
      else s)

/-! ### The parameter block (R300) -/

structure TBlock where
  w : Nat
  x : Nat
  m : Nat
  v : Nat
  g : Nat
  count : Nat
  sc : TScalars
  pe : Nat
  ps : Nat
  pub : Option TPublish
  deriving DecidableEq, Repr

def TemperCmd.publishes (q : TemperCmd) : Bool := decide (q.alg = 4) || decide (q.flags % 2 = 1)
def TemperCmd.updates (q : TemperCmd) : Bool := decide (q.alg ≠ 4)
def TemperCmd.gBytes (q : TemperCmd) : Nat := if q.flags / 2 % 2 = 1 then 2 else 4

/-- Fields that an algorithm does not use are zero; offset and size of each with the algorithms that use it. -/
def blockZeroFields (q : TemperCmd) (b : List Byte) : Bool :=
  let un (use : Bool) (o n : Nat) : Bool := use || zeroAt b o n
  let a := decide (q.alg = 1)
  let al := decide (q.alg = 1 ∨ q.alg = 2)
  un q.updates 0x10 8 && un a 0x18 8 && un q.updates 0x20 8 && un q.updates 0x30 12 && un al 0x3C 12 && un a 0x48 12 &&
  un q.updates 0x54 4 && un q.publishes 0x58 32 && zeroAt b 0x6A 2 && zeroAt b 0x78 8

/-- A finite, normal, positive FP32 value. -/
def normalPositive (w : Nat) : Bool := decide (0x00800000 ≤ w ∧ w < 0x7F800000)

/-- The publication of a block; none where a field of it is illegal. -/
def publishOf (q : TemperCmd) (b : List Byte) : Option TPublish :=
  match parseFmt { update := true, publish := true } (fieldAt b 0x68 2) with
  | none => none
  | some fc =>
    let pts : Word32 := BitVec.ofNat 32 (fieldAt b 0x6C 4)
    let n := fieldAt b 0x74 4
    if (fc.elem.isBlock || fc.elem = .bf16) && decide (n ≠ 0 ∧ n % 1024 = 0) &&
      (if fc.tscale then goodTScale pts else pts = 0) && (fc.elem.isBlock || zeroAt b 0x60 8) &&
      (!fc.elem.isBlock || decide (fieldAt b 0x28 8 % fc.block = 0)) && decide (fieldAt b 0x58 8 % 32 = 0)
    then some ⟨fc, pts, fieldAt b 0x70 4, q.step, n⟩ else none

/-- The parameter block; none where it breaks R300. -/
def temperBlock (q : TemperCmd) (b : List Byte) : Option TBlock :=
  let f (o : Nat) : TRes := ⟨fieldAt b o 4, false⟩
  let n := fieldAt b 0x28 8
  let pub := publishOf q b
  let ok := decide (1 ≤ n ∧ n ≤ 2 ^ 40) && decide (fieldAt b 0 8 % 4096 = 0) && decide (fieldAt b 8 8 % 2 = 0) &&
    decide (fieldAt b 0x10 8 % 4 = 0 ∧ fieldAt b 0x18 8 % 4 = 0 ∧ fieldAt b 0x20 8 % q.gBytes = 0) &&
    blockZeroFields q b && (decide (q.alg ≠ 1) || normalPositive (fieldAt b 0x50 4)) && (!q.publishes || pub.isSome)
  if ok then some {
    w := fieldAt b 0 8
    x := fieldAt b 8 8
    m := fieldAt b 0x10 8
    v := fieldAt b 0x18 8
    g := fieldAt b 0x20 8
    count := n
    sc := ⟨f 0x30, f 0x34, f 0x38, f 0x3C, f 0x40, f 0x44, f 0x48, f 0x4C, f 0x50, f 0x54⟩
    pe := fieldAt b 0x58 8
    ps := fieldAt b 0x60 8
    pub := if q.publishes then pub else none }
  else none

/-- Bytes of the published element plane, and of the scale plane. -/
def TPublish.elemBytes (p : TPublish) (n : Nat) : Nat := ceilDiv (n * p.fc.elem.bits) 8
def TPublish.scaleBytes (p : TPublish) (n : Nat) : Nat := if p.fc.elem.isBlock then n / p.fc.block else 0

/-- Every extent of the block lies in one region of the kind that R300 requires. -/
def temperRegions (x : Job) (q : TemperCmd) (b : TBlock) : Bool :=
  x.inKind rkOwned b.w (4 * b.count) && x.inKind rkOwned b.x (2 * b.count) &&
  (!q.updates || (x.inKind rkOwned b.m (4 * b.count) && x.inKind rkStaging b.g (q.gBytes * b.count))) &&
  (decide (q.alg ≠ 1) || x.inKind rkOwned b.v (4 * b.count)) &&
  (match b.pub with
   | none => true
   | some p => x.inKind rkStaging b.pe (p.elemBytes b.count) &&
      (!p.fc.elem.isBlock || x.inKind rkStaging b.ps (p.scaleBytes b.count)))

/-! ### A share (R298, R301, R302) -/

/-- Element codes of a plane as stored. -/
def codesAt (n : Nat) (bs : List Byte) : List Nat := (List.range (bs.length / n)).map (fun i => fieldAt bs (n * i) n)
def bytesAt (n : Nat) (cs : List Nat) : List Byte := cs.flatMap (fun c => leBytes n c)

/-- A gradient element, a BF16 one widened exactly (R301). -/
def gradOf (q : TemperCmd) (c : Nat) : TRes := if q.gBytes = 2 then ⟨c * 65536, false⟩ else ⟨c, false⟩

/-- Read one plane of a granule and go on with its elements. -/
def State.plane (s : State) (use : Bool) (a size n : Nat) : State × Option (List Nat) :=
  if use then
    let r := s.readStack a (size * n)
    (r.1, r.2.map (codesAt size))
  else (s, some (List.replicate n 0))

/-- The codes of a published plane: an element that was not written keeps its own (R301). -/
def State.keepCodes (s : State) (a bits : Nat) (ok : List Bool) (cs : List Nat) : List Nat :=
  let old := leNat (s.delivered a (ceilDiv (bits * cs.length) 8))
  (cs.zip ok).zipIdx.map (fun x => if x.1.2 then x.1.1 else old / 2 ^ (bits * x.2) % 2 ^ bits)

/-- Publish the masters of the elements from e on, each with whether it is finite; another counts as zero in its block.
DESIGN CHOICE for that (assumption log 30). -/
def State.publishGranule (s : State) (b : TBlock) (p : TPublish) (e : Nat) (xs : List (Nat × Bool)) (t : TShare) :
    State × TShare :=
  let ws := xs.map (fun x => if x.2 then x.1 else 0)
  let ok := xs.map (·.2)
  if p.fc.elem.isBlock then
    let n := p.fc.elem.bits
    let a := b.pe + e * n / 8
    let outs := ((blocksOf p.fc.block ws).zipIdx).map (fun x => p.block (e + p.fc.block * x.2) x.1)
    let s1 := s.store a (packCodes n (s.keepCodes a n ok (outs.flatMap (·.elems))))
    let s2 := s1.store (b.ps + e / p.fc.block) (outs.map (fun o => BitVec.ofNat 8 o.scale))
    (s2, { t with sat := t.sat + (outs.map (·.sat)).foldl (· + ·) 0, scales := t.scales + (outs.filter (·.clamped)).length })
  else
    let outs := ws.zipIdx.map (fun x => p.bf16 (e + x.2) x.1)
    (s.store (b.pe + 2 * e) (bytesAt 2 (s.keepCodes (b.pe + 2 * e) 16 ok (outs.map (·.1)))),
      { t with sat := t.sat + (outs.filter (·.2)).length })

/-- One granule of the FP32 plane: its elements from e on, n of them. -/
def State.temperGranule (s : State) (q : TemperCmd) (b : TBlock) (e n : Nat) (t : TShare) : State × TShare :=
  let r1 := s.plane true (b.w + 4 * e) 4 n
  let r2 := r1.1.plane true (b.x + 2 * e) 2 n
  let r3 := r2.1.plane q.updates (b.m + 4 * e) 4 n
  let r4 := r3.1.plane (decide (q.alg = 1)) (b.v + 4 * e) 4 n
  let r5 := r4.1.plane q.updates (b.g + q.gBytes * e) q.gBytes n
  match r1.2, r2.2, r3.2, r4.2, r5.2 with
  | some hi, some lo, some ms, some vs, some gs =>
    let ws := hi.zipWith (fun h l => h * 65536 + l) lo
    let one (i : Nat) : TElem :=
      let w := ws.getD i 0
      let m := ms.getD i 0
      let v := vs.getD i 0
      if q.updates then
        let x := tUpdate q.alg b.sc (gradOf q (gs.getD i 0)) w m v
        if x.finite then x else ⟨w, m, v, 0, false⟩
      else ⟨w, m, v, 0, (decodeWide fmtW48 w).isFinite⟩
    let xs := (List.range n).map one
    let t1 := { t with
      elems := t.elems + (xs.filter (·.finite)).length
      sat := t.sat + (xs.map (·.sats)).foldl (· + ·) 0
      special := t.special + (xs.filter (fun x => !x.finite)).length }
    let s1 := if q.updates then
        let a1 := (r5.1.store (b.w + 4 * e) (bytesAt 4 (xs.map (fun x => x.w / 65536)))).store (b.x + 2 * e)
          (bytesAt 2 (xs.map (fun x => x.w % 65536)))
        let a2 := a1.store (b.m + 4 * e) (bytesAt 4 (xs.map (·.m)))
        if q.alg = 1 then a2.store (b.v + 4 * e) (bytesAt 4 (xs.map (·.v))) else a2
      else r5.1
    match b.pub with
    | none => (s1, t1)
    | some p => s1.publishGranule b p e (xs.map (fun x => (x.w, x.finite))) t1
  | _, _, _, _, _ => (r5.1, { t with bad := true })

/-- A bank that a granule of elements from e on needs takes no activation (R294). -/
def State.temperBlocked (s : State) (q : TemperCmd) (b : TBlock) (e n : Nat) : Bool :=
  s.rowsBlocked (b.w + 4 * e) (4 * n) || s.rowsBlocked (b.x + 2 * e) (2 * n) ||
  (q.updates && (s.rowsBlocked (b.m + 4 * e) (4 * n) || s.rowsBlocked (b.g + q.gBytes * e) (q.gBytes * n))) ||
  (decide (q.alg = 1) && s.rowsBlocked (b.v + 4 * e) (4 * n)) ||
  (match b.pub with
   | none => false
   | some p => s.rowsBlocked (b.pe + e * p.fc.elem.bits / 8) (p.elemBytes n) || s.rowsBlocked (b.ps + e / p.fc.block) (p.scaleBytes n))

/-- The granules of a share in ascending order from the k-th on, until one holds an uncorrectable word or has to wait for a
bank (R298, R304); with the place of the next. -/
def State.temperGranules (s : State) (q : TemperCmd) (b : TBlock) : List Nat → TShare → Nat → State × TShare × Nat
  | [], t, k => (s, t, k)
  | g :: r, t, k =>
    let e := 1024 * g
    let n := min 1024 (b.count - e)
    if s.temperBlocked q b e n then (s, t, k)
    else
      let x := s.temperGranule q b e n t
      if x.2.bad then (x.1, x.2, k) else x.1.temperGranules q b r x.2 (k + 1)

/-- Granules of a share. -/
def State.shareOf (s : State) (site : Nat) (b : TBlock) : List Nat :=
  (List.range (ceilDiv b.count 1024)).filter (fun g => s.stackOf (b.w + 4096 * g) = site)

/-- The outcome of a run of a share: its status where it has ended. -/
structure TRun where
  status : Option Nat
  share : TShare := {}
  next : Nat := 0
  deriving DecidableEq, Repr

/-- A run of a command's share: its block is checked, and its granules go on from where the share stands, at most `limit` of
them (R298 to R305). -/
def State.temperShare (s : State) (site : Nat) (q : TemperCmd) (limit : Option Nat) : State × TRun :=
  let x := s.job q.job
  if (s.stack site).st ≠ .online then (s, { status := some 4 })
  else if !x.inKind rkStaging q.paddr 128 then (s, { status := some 2 })
  else if s.rowsBlocked q.paddr 128 then (s, { status := none, share := q.share, next := q.next })
  else
    let r := s.readStack q.paddr 128
    match r.2 with
    | none => (r.1, { status := some 3 })
    | some bs =>
      match temperBlock q bs with
      | none => (r.1, { status := some 1 })
      | some b =>
        if !temperRegions x q b then (r.1, { status := some 2 })
        else
          let l := r.1.shareOf site b
          let left := l.drop q.next
          let y := r.1.temperGranules q b (left.take (limit.getD left.length)) q.share q.next
          (y.1, { status := if y.2.1.bad then some 3 else if l.length ≤ y.2.2 then some 0 else none
                  share := y.2.1, next := y.2.2 })

/-- The unit's next command starts (R303). -/
def nextCommand (now : Nat) : List TemperCmd → List TemperCmd
  | [] => []
  | q :: r => { q with started := now } :: r

/-- A share that waits keeps the place of its next granule (R305). -/
def State.temperWaits (s : State) (site : Nat) (q : TemperCmd) (y : TRun) : State :=
  s.modStack site (fun x => { x with temper := { q with next := y.next, share := y.share } :: x.temper.drop 1 })

/-- A share ends with a status: the site's counters, the report and the result (R304, R361). -/
def State.temperEnds (s : State) (site : Nat) (q : TemperCmd) (st : Nat) (t : TShare) : State :=
  let s1 := s.modStack site (fun x => { x with temper := nextCommand s.time (x.temper.drop 1) })
  let s2 := (((s1.bumpSite site 65 t.sat).bumpSite site 66 t.scales).bumpSite site 67 t.special).keepSat q.job (t.sat, t.scales, t.special)
  (s2.temperReport site q.job st t.special).temperResult site q st t.elems t.sat t.special

def State.temperDone (s : State) (site : Nat) (q : TemperCmd) : State :=
  let y := s.temperShare site q none
  match y.2.status with
  | none => y.1.temperWaits site q y.2
  | some st => y.1.temperEnds site q st y.2.share

/-- A command whose job context is quenched, drained or failed stands still (R305), as does a hot stack's unit (R537). -/
def State.temperHeld (s : State) (site j : Nat) : Bool :=
  s.obs.quench.active || (s.job j).draining.isSome || decide ((s.job j).st = .failed) || (s.stack site).hot

def execTemperShareDone (site : Fin 36) (s : State) : Host.Outcome State Fault Refusal :=
  .next (match (s.stack site.val).temper with
    | [] => s
    | q :: _ => if !s.isStack site.val || s.temperHeld site.val q.job then s else s.temperDone site.val q)

/-- At a quench a unit completes its current granule and stops; how many of its share's granules it has completed then is a free
value (R305). -/
def State.temperStops (s : State) (site : Nat) : State :=
  match (s.stack site).temper with
  | [] => s
  | q :: _ =>
    if !s.isStack site || (s.stack site).hot || (s.job q.job).draining.isSome || decide ((s.job q.job).st = .failed) then s
    else
      let t : State := { s with freeIndex := s.freeIndex + 1 }
      let y := t.temperShare site q (some (Config.measured s.freeIndex))
      if y.2.status.getD 0 = 0 then y.1.temperWaits site q y.2 else s

end Sys2Proof.Machine
end

