-- ==== Sys2Proof/Machine/Vector.lean ====
section
/-! DEFINITION. The vector class, TQPOP and CKCMP: operands, parameters, results and their counts (spec/05, spec/06 R194 to
R196, R205, R206). -/

namespace Sys2Proof.Machine

/-! ### What an instruction does -/

/-- The result of a vector instruction: elements of the destination group and of its extension group, a scalar register,
own-window writes, and counts (R100, R105). -/
structure VOut where
  group : List (Nat × Word32) := []
  ext : List (Nat × Word32) := []
  scalar : Option (Nat × Word64) := none
  stores : List (Nat × List Byte) := []
  sat : Nat := 0
  scale : Nat := 0
  special : Nat := 0
  nonfin : Nat := 0
  deriving DecidableEq, Repr

/-- Elements in order from 0. -/
def indexed (ws : List Word32) : List (Nat × Word32) := ws.zipIdx.map (fun p => (p.2, p.1))

def VOut.ofRes (rs : List VRes) : VOut :=
  { group := indexed (rs.map (·.w)), sat := (rs.map (·.sat)).sum, nonfin := (rs.map (·.nonfin)).sum }

/-- Write elements of a group (R143, R144). -/
def Core.setElems (c : Core) (tb : Nat) (es : List (Nat × Word32)) : Core :=
  { c with tregs := es.foldl (fun t p => Tab.set 0 t (1024 * tb + p.1) p.2) c.tregs }

/-- The count of an instruction (R194). -/
def vecCount (x : Ctx) (w : VecWord) : Nat :=
  if w.ns then (x.reg (w.nm1.toNat % 32)).toNat else w.nm1.toNat + 1

/-- Whether an instruction has a QUEUE operand (R146). -/
def usesQueue (w : VecWord) : Bool := w.ak = 4 || w.bk = 4 || w.ck = 4

/-- An operand reader: core, context, head tile, and the instruction's element type and width. -/
structure VEnv where
  core : Core
  ctx : Ctx
  q : List Word32
  w : VecWord
  n : Nat
  deriving DecidableEq, Repr

def VEnv.width (v : VEnv) : Nat := 2 ^ v.w.lw.toNat
def VEnv.elem (v : VEnv) (kind reg m : Nat) : Word32 :=
  operandElem v.core v.ctx v.q v.w.etype.toNat v.width kind reg m
def VEnv.a (v : VEnv) (m : Nat) : Word32 := v.elem v.w.ak.toNat v.w.a.toNat m
def VEnv.b (v : VEnv) (m : Nat) : Word32 := v.elem v.w.bk.toNat v.w.b.toNat m
def VEnv.c (v : VEnv) (m : Nat) : Word32 := v.elem v.w.ck.toNat v.w.c.toNat m
def VEnv.old (v : VEnv) (m : Nat) : Word32 := v.core.groupElem v.w.d.toNat m
def VEnv.wide (v : VEnv) (m : Nat) : Nat := w48Elem v.core v.w.a.toNat v.n m

/-! ### Parameters at c (R195, R160 to R162) -/

/-- The parameters of a block or stochastic instruction. -/
structure VParams where
  reg : OperandReg
  fc : FmtCode
  st : Word32
  pos : RandomPos
  deriving DecidableEq, Repr

/-- Where the instruction's format code stands (R68). -/
def paramUse (o : VOp) (k : Nat) : FmtUse :=
  { update := decide (2 ≤ k), publish := decide (2 ≤ k) && (o = .pack || o = .packW), written := o ≠ .unpack }

def vecParams (o : VOp) (k : Nat) (x : Ctx) (c : Nat) : Option VParams :=
  let r := operandReg (x.reg c)
  match parseFmt (paramUse o k) r.fmt with
  | none => none
  | some fc =>
    if (if o = .cvtBf || o = .cvtWb then fc.elem = .bf16 else fc.elem.isBlock) then
      some ⟨r, fc, BitVec.ofNat 32 (x.reg (c + 1)).toNat, randomPos (x.reg (c + 2)) (x.reg (c + 3))⟩
    else none

/-- Bytes of the element plane and of the scale plane of n elements. -/
def planeBytes (fc : FmtCode) (n : Nat) : Nat × Nat := (n * fc.elem.bits / 8, n / fc.block)

/-- The cause for which the parameters of an instruction are refused; 0 where they are not (R195, R160 to R162). -/
def paramCause (o : VOp) (k : Nat) (x : Ctx) (c n : Nat) : Nat :=
  let r := operandReg (x.reg c)
  let block := decide (o = .pack ∨ o = .packW ∨ o = .unpack)
  if !r.zeroOk then ceReserved
  else if block && decide ((x.reg (c + 1)).toNat / 2 ^ 32 ≠ 0) then ceReserved
  else
    match vecParams o k x c with
    | none => ceFormat
    | some p =>
      if !block && decide (r.eoff ≠ 0 ∨ r.soff ≠ 0) then ceReserved
      else if p.fc.stoch && !p.pos.ok then ceReserved
      else if !block then 0
      else
        let b := planeBytes p.fc n
        if !inSpad r.eoff b.1 || !inSpad r.soff b.2 then ceAddress
        else if n % p.fc.block ≠ 0 then ceCount
        else if p.fc.tscale && !goodTScale p.st then ceTscale
        else 0

/-- The random value of element m of a stochastic write. -/
def VParams.rnd (p : VParams) (W m : Nat) : Rnd := if p.fc.stoch then some (p.pos.at_ W m) else none

/-! ### Results by shape -/

/-- An elementwise operation (R156). -/
def vElementwise (o : VOp) (v : VEnv) : VOut :=
  VOut.ofRes ((List.range v.n).map (fun m => elementOp o v.w.etype.toNat m (v.a m) (v.b m) (v.c m)))

/-- A conversion element by element (R158). -/
def vMap (f : Word32 → VRes) (v : VEnv) : VOut := VOut.ofRes ((List.range v.n).map (fun m => f (v.a m)))

/-- A conversion of pairs: element i takes source elements 2i and 2i + 1 (R158). -/
def vPairs (f : Fmt) (rnd : Nat → Rnd) (src : Nat → FV) (v : VEnv) : VOut :=
  VOut.ofRes ((List.range (v.n / 2)).map (fun i =>
    cvtPair f (rnd (2 * i)) (rnd (2 * i + 1)) (src (2 * i)) (src (2 * i + 1))))

def vWiden (f : Fmt) (v : VEnv) : VOut := VOut.ofRes ((List.range v.n).map (fun m => cvtWiden f (v.a (m / 2)) m))

/-- The elements of segment s (R163). -/
def VEnv.segment (v : VEnv) (s : Nat) : List Word32 :=
  (List.range (min v.width (v.n - s * v.width))).map (fun i => v.a (s * v.width + i))

/-- A reduction: one result for each segment, or a scalar register (R163, R164). -/
def vReduce (f : List Word32 → Word32) (acc numbers : Bool) (v : VEnv) : VOut :=
  if v.n ≤ v.width then
    let old : Word32 := (v.ctx.reg v.w.d.toNat).setWidth 32
    let r := reduceAcc acc old (f (v.segment 0))
    { scalar := some (v.w.d.toNat, r.setWidth 64), nonfin := if numbers && f32Nonfinite r then 1 else 0 }
  else
    let rs := (List.range (ceilDiv v.n v.width)).map (fun s => reduceAcc acc (v.old s) (f (v.segment s)))
    { group := indexed rs, nonfin := if numbers then (rs.filter f32Nonfinite).length else 0 }

/-- Active positions of mask c (R145). -/
def VEnv.active (v : VEnv) : List Nat := (List.range v.n).filter (fun m => v.c m ≠ 0)

/-- COMPRESS and EXPAND (R165); the count goes to the register that B names. -/
def vCompress (v : VEnv) : VOut :=
  { group := indexed (v.active.map v.a), scalar := some (v.w.b.toNat, BitVec.ofNat 64 v.active.length) }

def vExpand (v : VEnv) : VOut :=
  { group := v.active.zipIdx.map (fun p => (p.1, v.a p.2)), scalar := some (v.w.b.toNat, BitVec.ofNat 64 v.active.length) }

/-- W48 results: the FP32 plane and the extension plane (R167, R168). -/
def vWide (f : Nat → Word32 × Word32) (v : VEnv) : VOut :=
  let rs := (List.range v.n).map (fun m => let p := f m; wfmaOp (v.wide m) p.1 p.2)
  let ws := rs.map (fun r => w48Split r.1)
  { group := indexed (ws.map (·.1)), ext := indexed (ws.map (·.2)),
    sat := (rs.filter (·.2.1)).length, nonfin := (rs.filter (·.2.2)).length }

/-- PACK: blocks of a block format into two planes (R160, R79 to R84). -/
def vPack (p : VParams) (w48 : Bool) (src : Nat → FV) (v : VEnv) : VOut :=
  let rt := if p.fc.tscale then some (recipTScale p.st) else none
  let B := p.fc.block
  let bs := (List.range (v.n / B)).map (fun b =>
    writeBlock p.fc rt w48 ((List.range B).map (fun i =>
      (src (B * b + i), if p.fc.stoch then p.pos.at_ v.width (B * b + i) else 0))))
  { stores := [(p.reg.eoff, packCodes p.fc.elem.bits (bs.flatMap (·.elems))),
      (p.reg.soff, bs.map (fun b => BitVec.ofNat 8 b.scale))],
    sat := (bs.map (·.sat)).sum, scale := (bs.filter (·.clamped)).length }

/-- UNPACK from the bytes of its planes (R162). -/
def vUnpack (p : VParams) (plane scales : List Byte) (v : VEnv) : VOut :=
  let st := if p.fc.tscale then some p.st else none
  let rs := (List.range v.n).map (fun m =>
    unpackElem p.fc.elem p.fc.scale (unpackCode p.fc.elem.bits plane m) (scales.getD (m / p.fc.block) 0).toNat st)
  let specials := (List.range (v.n / p.fc.block)).filter (fun b => (decodeScale p.fc.scale (scales.getD b 0).toNat).2)
  { VOut.ofRes (rs.map (·.1)) with special := (rs.map (·.2)).sum + specials.length }

/-! ### Taking a vector head -/

/-- The counters of a vector instruction (R100, R105, R107). -/
def State.vecCounts (s : State) (c k pc : Nat) (o : VOut) : State :=
  let add (s : State) (w n : Nat) : State := if n = 0 then s else s.bumpCore c w n
  (add (add (add s (vecSatWord k) o.sat) (vecScaleWord k) o.scale) (vecSpecialWord k) o.special).countNonfinite c k pc o.nonfin

/-- An entry is popped: FREE, or still SENDING while copies of its sampled tile have not all been injected (R152, R419). -/
def State.popEntry (s : State) (c e : Nat) : State :=
  s.modCore c (fun x => x.setEntry e (if s.stillSends c e then { x.entry e with st := .sending } else {}))

/-- Free the head entry (R152). -/
def State.popHead (s : State) (c k : Nat) : State :=
  match (s.core c).headEntry k with
  | some e => s.popEntry c e
  | none => s

/-- The copy buffer beside the vector engine (R421). -/
def copyBuffer : Nat := 0x1_0000

/-- A sample goes to the checker; one that the copy buffer cannot hold is dropped (R421). -/
def State.copySample (q : State × Option Nat) (c : Nat) (bs : List Byte) : State :=
  match q.2 with
  | none => q.1
  | some id => if copyBuffer < bs.length then (q.1.dropCheck id).checkSkipped c 421 else q.1.copyCheck c id none bs

/-- The sampled check of a vector instruction is drawn, and what it has read and written is copied (R416, R421). -/
def State.vecSample (s : State) (c k : Nat) (bs : List Byte) : State :=
  if k ≤ 2 then
    let o := (s.ctx c k).vecOrdinal
    (State.copySample (s.candidate ckVector k c o k true) c bs).modCtx c k (fun y => { y with vecOrdinal := o + 1 })
  else s

/-- What an instruction writes, as a sample holds it: elements, scalar, own-window bytes. DESIGN CHOICE: their order (assumption log
80). -/
def VOut.bytes (o : VOut) : List Byte :=
  bytesOfWords ((o.group ++ o.ext).map (·.2)) ++ (o.scalar.map (fun p => leBytes 8 p.2.toNat)).getD [] ++
    o.stores.flatMap (·.2)

/-- What an instruction reads: its operand elements and scalar operands. -/
def VEnv.operandBytes (v : VEnv) (o : VOp) : List Byte :=
  let u := o.uses
  let elems (use : OpUse) (kind : BitVec 3) (f : Nat → Word32) : List Byte :=
    if use = .none || use = .count || use = .params then []
    else if kind = 1 then leBytes 4 (f 0).toNat
    else bytesOfWords ((List.range v.n).map f)
  elems u.1 v.w.ak v.a ++ elems u.2.1 v.w.bk v.b ++ elems u.2.2 v.w.ck v.c ++
    (if u.2.2 = .params then (List.range 4).flatMap (fun i => leBytes 8 (v.ctx.reg (v.w.c.toNat + i)).toNat) else [])

/-- Every effect of a vector instruction whose operands stand, and then its sample; `read` is what it has read, where it is a candidate of the sampled
checks (R414, R416). -/
def State.vecWrite (s : State) (h : Hart) (word : Word64) (w : VecWord) (n : Nat) (pc : Nat) (read : Option (List Byte)) (o : VOut) : State :=
  let c := h.c
  let k := h.k
  if o.stores.all (fun p => s.mergeOk c p.1 p.2.length) then
    let s1 := o.stores.foldl (fun a p => a.spadStore c p.1 p.2) s
    let s2 := s1.modCore c (fun y => (y.setElems w.d.toNat o.group).setElems (w.d.toNat + ceilDiv n 1024) o.ext)
    let s3 := (if w.pop then s2.popHead c k else s2).vecCounts c k pc o
    let s4 := s3.taken h uVector word (fun y => match o.scalar with
      | some (r, x) => y.setReg r x
      | none => y)
    match read with
    | some bs => s4.vecSample c k (bs ++ o.bytes)
    | none => s4
  else s.spadUncorrectable c k

/-- The cause for which the count of an instruction is refused; 0 where it is not (R143, R146, R148, R158). -/
def countCause (o : VOp) (w : VecWord) (n : Nat) : Nat :=
  if vecFits o w n && vecOverlapOk o w n && evenCount o n then 0 else ceCount

/-- Whether an operation is legal only in the contexts of the update path (R68). -/
def VOp.updateOnly (o : VOp) : Bool := o.isW48Src

/-- A vector head (R151, R176, R194 to R196): it waits for its tile, its values are checked, and its effect happens. -/
def State.vector (s : State) (h : Hart) (cls : Nat) (o : VOp) (w : VecWord) (extra : State → Ctx → Nat → Nat)
    (f : State → VEnv → State) : State :=
  s.onHead h (wordV cls o.code w) (vecLegal o w) false (fun t x =>
    let q := (t.core h.c).headEntry h.k
    if usesQueue w && q.isNone then t
    else
      let n := vecCount x w
      let cause :=
        if o.updateOnly && decide (h.k < 2) then ceFormat
        else if countCause o w n ≠ 0 then ceCount
        else extra t x n
      if cause ≠ 0 then t.stateError h false cause
      else f t ⟨t.core h.c, x, ((q.map (fun e => ((t.core h.c).entry e).data)).getD []), w, n⟩)

/-- A vector head without parameters. -/
def State.plainVector (s : State) (h : Hart) (o : VOp) (w : VecWord) (f : VEnv → VOut) : State :=
  s.vector h 3 o w (fun _ _ _ => 0) (fun t v => t.vecWrite h (wordV 3 o.code w) w v.n v.ctx.pc (some (v.operandBytes o)) (f v))

/-- A vector head with parameters at c. -/
def State.paramVector (s : State) (h : Hart) (o : VOp) (w : VecWord) (f : VParams → VEnv → VOut) : State :=
  s.vector h 3 o w (fun _ x n => paramCause o h.k x w.c.toNat n) (fun t v =>
    match vecParams o h.k v.ctx w.c.toNat with
    | none => t
    | some p => t.vecWrite h (wordV 3 o.code w) w v.n v.ctx.pc (some (v.operandBytes o)) (f p v))

/-! ### Elementwise -/

def execVectorAdd (h : Hart) (w : VecWord) (s : State) : Host.Outcome State Fault Refusal :=
  .next (s.plainVector h .add w (vElementwise .add))

def execVectorSub (h : Hart) (w : VecWord) (s : State) : Host.Outcome State Fault Refusal :=
  .next (s.plainVector h .sub w (vElementwise .sub))

def execVectorMul (h : Hart) (w : VecWord) (s : State) : Host.Outcome State Fault Refusal :=
  .next (s.plainVector h .mul w (vElementwise .mul))

def execFma (h : Hart) (w : VecWord) (s : State) : Host.Outcome State Fault Refusal :=
  .next (s.plainVector h .fma w (vElementwise .fma))

def execMin (h : Hart) (w : VecWord) (s : State) : Host.Outcome State Fault Refusal :=
  .next (s.plainVector h .min w (vElementwise .min))

def execMax (h : Hart) (w : VecWord) (s : State) : Host.Outcome State Fault Refusal :=
  .next (s.plainVector h .max w (vElementwise .max))

def execAbs (h : Hart) (w : VecWord) (s : State) : Host.Outcome State Fault Refusal :=
  .next (s.plainVector h .abs w (vElementwise .abs))

def execNeg (h : Hart) (w : VecWord) (s : State) : Host.Outcome State Fault Refusal :=
  .next (s.plainVector h .neg w (vElementwise .neg))

def execCmpeq (h : Hart) (w : VecWord) (s : State) : Host.Outcome State Fault Refusal :=
  .next (s.plainVector h .cmpeq w (vElementwise .cmpeq))

def execCmpne (h : Hart) (w : VecWord) (s : State) : Host.Outcome State Fault Refusal :=
  .next (s.plainVector h .cmpne w (vElementwise .cmpne))

def execCmplt (h : Hart) (w : VecWord) (s : State) : Host.Outcome State Fault Refusal :=
  .next (s.plainVector h .cmplt w (vElementwise .cmplt))

def execCmple (h : Hart) (w : VecWord) (s : State) : Host.Outcome State Fault Refusal :=
  .next (s.plainVector h .cmple w (vElementwise .cmple))

def execSel (h : Hart) (w : VecWord) (s : State) : Host.Outcome State Fault Refusal :=
  .next (s.plainVector h .sel w (vElementwise .sel))

def execVectorAnd (h : Hart) (w : VecWord) (s : State) : Host.Outcome State Fault Refusal :=
  .next (s.plainVector h .and w (vElementwise .and))

def execVectorOr (h : Hart) (w : VecWord) (s : State) : Host.Outcome State Fault Refusal :=
  .next (s.plainVector h .or w (vElementwise .or))

def execVectorXor (h : Hart) (w : VecWord) (s : State) : Host.Outcome State Fault Refusal :=
  .next (s.plainVector h .xor w (vElementwise .xor))

def execIota (h : Hart) (w : VecWord) (s : State) : Host.Outcome State Fault Refusal :=
  .next (s.plainVector h .iota w (vElementwise .iota))

/-! ### Conversions -/

def execCvtBf (h : Hart) (w : VecWord) (s : State) : Host.Outcome State Fault Refusal :=
  .next (s.paramVector h .cvtBf w (fun p v => vPairs fmtBF16 (p.rnd v.width) (fun m => f32 (v.a m)) v))

def execCvtHf (h : Hart) (w : VecWord) (s : State) : Host.Outcome State Fault Refusal :=
  .next (s.plainVector h .cvtHf w (fun v => vPairs fmtFP16 (fun _ => none) (fun m => f32 (v.a m)) v))

def execCvtFb (h : Hart) (w : VecWord) (s : State) : Host.Outcome State Fault Refusal :=
  .next (s.plainVector h .cvtFb w (vWiden fmtBF16))

def execCvtFh (h : Hart) (w : VecWord) (s : State) : Host.Outcome State Fault Refusal :=
  .next (s.plainVector h .cvtFh w (vWiden fmtFP16))

def execCvtFi (h : Hart) (w : VecWord) (s : State) : Host.Outcome State Fault Refusal :=
  .next (s.plainVector h .cvtFi w (vMap cvtFI))

def execCvtIf (h : Hart) (w : VecWord) (s : State) : Host.Outcome State Fault Refusal :=
  .next (s.plainVector h .cvtIf w (vMap cvtIF))

def execCvtWb (h : Hart) (w : VecWord) (s : State) : Host.Outcome State Fault Refusal :=
  .next (s.paramVector h .cvtWb w (fun p v => vPairs fmtBF16 (p.rnd v.width) (fun m => decodeWide fmtW48 (v.wide m)) v))

/-! ### Reductions, compress and expand -/

def execRsum (h : Hart) (w : VecWord) (s : State) : Host.Outcome State Fault Refusal :=
  .next (s.plainVector h .rsum w (vReduce (reduceSegment .rsum) w.acc true))

def execRsumsq (h : Hart) (w : VecWord) (s : State) : Host.Outcome State Fault Refusal :=
  .next (s.plainVector h .rsumsq w (vReduce (reduceSegment .rsumsq) w.acc true))

def execRmax (h : Hart) (w : VecWord) (s : State) : Host.Outcome State Fault Refusal :=
  .next (s.plainVector h .rmax w (vReduce (reduceSegment .rmax) w.acc true))

def execRmin (h : Hart) (w : VecWord) (s : State) : Host.Outcome State Fault Refusal :=
  .next (s.plainVector h .rmin w (vReduce (reduceSegment .rmin) w.acc true))

def execRargmax (h : Hart) (w : VecWord) (s : State) : Host.Outcome State Fault Refusal :=
  .next (s.plainVector h .rargmax w (vReduce (fun l => BitVec.ofNat 32 (argSegment .rargmax l)) false false))

def execRargmin (h : Hart) (w : VecWord) (s : State) : Host.Outcome State Fault Refusal :=
  .next (s.plainVector h .rargmin w (vReduce (fun l => BitVec.ofNat 32 (argSegment .rargmin l)) false false))

def execCompress (h : Hart) (w : VecWord) (s : State) : Host.Outcome State Fault Refusal :=
  .next (s.plainVector h .compress w vCompress)

def execExpand (h : Hart) (w : VecWord) (s : State) : Host.Outcome State Fault Refusal :=
  .next (s.plainVector h .expand w vExpand)

/-! ### Special functions -/

def execExp2 (h : Hart) (w : VecWord) (s : State) : Host.Outcome State Fault Refusal :=
  .next (s.plainVector h .exp2 w (vMap (sfuOp .exp2)))

def execLog2 (h : Hart) (w : VecWord) (s : State) : Host.Outcome State Fault Refusal :=
  .next (s.plainVector h .log2 w (vMap (sfuOp .log2)))

def execRcp (h : Hart) (w : VecWord) (s : State) : Host.Outcome State Fault Refusal :=
  .next (s.plainVector h .rcp w (vMap (sfuOp .rcp)))

def execRsqrt (h : Hart) (w : VecWord) (s : State) : Host.Outcome State Fault Refusal :=
  .next (s.plainVector h .rsqrt w (vMap (sfuOp .rsqrt)))

def execTanh (h : Hart) (w : VecWord) (s : State) : Host.Outcome State Fault Refusal :=
  .next (s.plainVector h .tanh w (vMap (sfuOp .tanh)))

/-! ### W48 and block formats -/

def execWfma (h : Hart) (w : VecWord) (s : State) : Host.Outcome State Fault Refusal :=
  .next (s.plainVector h .wfma w (fun v => vWide (fun m => (v.b m, v.c m)) v))

def execWadd (h : Hart) (w : VecWord) (s : State) : Host.Outcome State Fault Refusal :=
  .next (s.plainVector h .wadd w (fun v => vWide (fun m => (f32One, v.c m)) v))

def execPack (h : Hart) (w : VecWord) (s : State) : Host.Outcome State Fault Refusal :=
  .next (s.paramVector h .pack w (fun p v => vPack p false (fun m => f32 (v.a m)) v))

def execPackW (h : Hart) (w : VecWord) (s : State) : Host.Outcome State Fault Refusal :=
  .next (s.paramVector h .packW w (fun p v => vPack p true (fun m => decodeWide fmtW48 (v.wide m)) v))

def execUnpack (h : Hart) (w : VecWord) (s : State) : Host.Outcome State Fault Refusal :=
  .next (s.vector h 3 .unpack w (fun _ x n => paramCause .unpack h.k x w.c.toNat n) (fun t v =>
    match vecParams .unpack h.k v.ctx w.c.toNat with
    | none => t
    | some p =>
      let b := planeBytes p.fc v.n
      match t.spadRead h.c p.reg.eoff b.1 with
      | (t1, none) => t1.spadUncorrectable h.c h.k
      | (t1, some plane) =>
        match t1.spadRead h.c p.reg.soff b.2 with
        | (t2, none) => t2.spadUncorrectable h.c h.k
        | (t2, some scales) =>
          t2.vecWrite h (wordV 3 VOp.unpack.code w) w v.n v.ctx.pc (some (plane ++ scales)) (vUnpack p plane scales v)))

/-! ### Loads and stores (R159) -/

/-- The own-window offset of a vector load or store. -/
def memOffset (x : Ctx) (w : VecWord) : Nat := (x.reg w.b.toNat).toNat

/-- A vector load or store of elements of a size: its extent is checked, then it moves. -/
def State.vecMem (s : State) (h : Hart) (o : VOp) (w : VecWord) (size : Nat) (write : Bool) (f : State → VEnv → State) : State :=
  s.vector h 3 o w (fun _ _ _ => 0) (fun t v =>
    let off := memOffset v.ctx w
    if off % size ≠ 0 then t.stateError h false ceAddress
    else if !inSpad off (size * v.n) then
      (t.unmapped (.core h.c) (windowAddr h.c (off % 2 ^ 23)) write).stateError h false ceAddress
    else f t v)

/-- The elements of bytes of a size. -/
def elemsOfBytes (size n : Nat) (bs : List Byte) : List Word32 :=
  (List.range n).map (fun m => BitVec.ofNat 32 (leNat ((bs.drop (size * m)).take size)))

def State.vecLoad (s : State) (h : Hart) (o : VOp) (w : VecWord) (size : Nat) : State :=
  s.vecMem h o w size false (fun t v =>
    match t.spadRead h.c (memOffset v.ctx w) (size * v.n) with
    | (t1, none) => t1.spadUncorrectable h.c h.k
    | (t1, some bs) =>
      t1.vecWrite h (wordV 3 o.code w) w v.n v.ctx.pc none { group := indexed (elemsOfBytes size v.n bs) })

def State.vecStore (s : State) (h : Hart) (o : VOp) (w : VecWord) (size : Nat) : State :=
  s.vecMem h o w size true (fun t v =>
    t.vecWrite h (wordV 3 o.code w) w v.n v.ctx.pc none
      { stores := [(memOffset v.ctx w, (List.range v.n).flatMap (fun m => leBytes size (v.a m).toNat))] })

def execVld (h : Hart) (w : VecWord) (s : State) : Host.Outcome State Fault Refusal := .next (s.vecLoad h .vld w 4)
def execVldH (h : Hart) (w : VecWord) (s : State) : Host.Outcome State Fault Refusal := .next (s.vecLoad h .vldH w 2)
def execVst (h : Hart) (w : VecWord) (s : State) : Host.Outcome State Fault Refusal := .next (s.vecStore h .vst w 4)
def execVstH (h : Hart) (w : VecWord) (s : State) : Host.Outcome State Fault Refusal := .next (s.vecStore h .vstH w 2)

/-- TQPOP frees the head entry, or waits for one (R152). -/
def execTqpop (h : Hart) (s : State) : Host.Outcome State Fault Refusal :=
  let w := mkWord 3 0x38 0
  .next (s.onHead h w true false (fun t _ =>
    match (t.core h.c).headEntry h.k with
    | none => t
    | some e => (t.popEntry h.c e).taken h uVector w id))

/-- CKCMP counts the failing elements into a scalar register (R206). -/
def execCkcmp (h : Hart) (w : VecWord) (s : State) : Host.Outcome State Fault Refusal :=
  .next (s.vector h 6 .ckcmp w (fun _ _ _ => 0) (fun t v =>
    let n := ((List.range v.n).filter (fun m => ckFails w.tol.toNat (v.a m) (v.b m) (v.c m))).length
    t.vecWrite h (wordV 6 VOp.ckcmp.code w) w v.n v.ctx.pc none { scalar := some (w.d.toNat, BitVec.ofNat 64 n) }))

end Sys2Proof.Machine
end

