-- ==== Sys2Proof/Machine/Quench.lean ====
section
/-! DEFINITION. The quench: capture, markers, completion, release, and the snapshot that it leaves (spec/15 R494, spec/19
R585 to R593). -/

namespace Sys2Proof.Machine

/-! ### Units and their channels (R586, R587) -/

/-- A core captures where it is in service and its field is not cold. -/
def State.captures (s : State) (u : Src) : Bool :=
  match u with
  | .core c => !s.coreOut c
  | .site i => decide (i < 36)
  | .hid => true
  | _ => false

/-- The routers that send to a core exist and are powered: 0 north, 1 east, 2 south, 3 west, 4 attach (R16, R243). -/
def State.linkPresent (s : State) (c l : Nat) : Bool :=
  let live (n : Nat) : Bool := !s.net.cold.contains (fieldOf n)
  match l with
  | 0 => decide (0 < coreRow c) && live (c - 64)
  | 1 => decide (coreCol c < 63) && live (c + 1)
  | 2 => decide (coreRow c < 63) && live (c + 64)
  | 3 => decide (0 < coreCol c) && live (c - 1)
  | 4 => decide (coreRow c = 0 ∨ coreRow c = 63 ∨ coreCol c = 0 ∨ coreCol c = 63)
  | _ => false

/-- The inbound links of a unit. -/
def State.linksOf (s : State) (u : Src) : List Nat :=
  match u with
  | .core c => (List.range 5).filter (fun l => s.linkPresent c l)
  | .site _ => List.range 7
  | .hid => [0]
  | _ => []

/-- A channel of a unit: each link has 8 VCs in 2 classes. -/
def State.hasChannel (s : State) (u : Src) (chan : Nat) : Bool := (s.linksOf u).contains (chan / 16)

/-- The channels of a unit whose MARKER has not arrived. -/
def State.openChannels (s : State) (u : Src) : Nat :=
  match s.captureOf u with
  | some c => 16 * c.links.length - c.markers.length
  | none => 16 * (s.linksOf u).length

/-- Every unit that captures: cores, sites, the HID spur. -/
def State.quenchUnits (s : State) : List Src :=
  (((List.range 4096).map Src.core) ++ ((List.range 36).map Src.site) ++ [Src.hid]).filter s.captures

/-! ### What a unit records (R592, R593) -/

def CtxState.code : CtxState → Nat
  | .idle => 0 | .running => 1 | .halted => 2 | .faulted => 3

def TqState.code : TqState → Nat
  | .free => 0 | .reserved => 1 | .ready => 2 | .sending => 3

/-- Stall reasons (R572). -/
def srSem : Nat := 1
def srTqFull : Nat := 3
def srCredit : Nat := 4
def srFetch : Nat := 5
def srStack : Nat := 6

/-- The lowest of the reasons that apply, 0 for none (R571). -/
def lowestReason (l : List (Bool × Nat)) : Nat :=
  l.foldl (fun a p => if p.1 && (a = 0 || decide (p.2 < a)) then p.2 else a) 0

/-- Why the matrix work of a context stands still: its tile waits for an entry (R125), for stack memory (R124, R134), or for credit to
leave (R252). -/
def Core.matrixStall (c : Core) (k : Nat) : Nat :=
  let own (d : Option Drain) : Bool := d.any (fun x => x.tile.owner = k)
  let mine := own c.drain || own c.atC
  lowestReason
    [(mine && c.drain.any (fun d => d.target.takesEntry && d.entry.isNone && !d.failed), srTqFull),
     ((mine && c.drain.any (fun d => d.spilled)) || c.xfers.any (fun x => x.ctx = k && x.work = .resume), srStack),
     (c.tq.any (fun p => p.2.owner = k && p.2.st = .sending), srCredit)]

/-- Why the work that a FENCE awaits stands still (R180). -/
def State.fenceStall (s : State) (c k mask : Nat) : Nat :=
  let x := s.core c
  let m := if mask % 2 = 1 then x.matrixStall k else 0
  lowestReason [(decide (m ≠ 0), m), (decide (mask / 4 % 2 = 1) && x.fetch.any (fun f => f.ctx = k), srFetch),
    (decide (mask / 8 % 2 = 1) && s.signalWaits c, srCredit)]

/-- The head instruction word of a context; zero where its PC is outside its code. -/
def State.headWord (s : State) (c k : Nat) : Nat :=
  let x := s.ctx c k
  if x.inCode x.pc then leNat (s.delivered (windowAddr c x.pc) 8) else 0

/-- Whether a word reads or frees the head entry of the tile queue (R151, R152). -/
def needsTile (w : Word64) : Bool :=
  (fieldOfWord w 60 4 = 3) && (fieldOfWord w 54 6 = 0x38 || usesQueue (vecOf w))

/-- The stall reason of a running context's head, 0 where it has none (R151, R180, R205, R225). -/
def State.headStall (s : State) (c k : Nat) : Nat :=
  let x := s.ctx c k
  let w : Word64 := BitVec.ofNat 64 (s.headWord c k)
  if x.st ≠ .running then 0
  else if x.wait ≠ .none then srSem
  else if needsTile w then (if ((s.core c).headEntry k).isNone then srSem else 0)
  else match decodeProgram ⟨BitVec.ofNat 12 c, BitVec.ofNat 2 k⟩ w with
    | some (.ckwait _ _) => if s.checksPending c k then srSem else 0
    | some (.fence _ imm) => s.fenceStall c k imm.toNat
    | some (.sfetch _ _ half) =>
      if ((List.range 16).any (fun i => ((s.core c).stream (16 * half.toNat + i)).st = .running)) then srFetch else 0
    | _ => 0

/-- One context: its state once halted, and the wait its head stood in. -/
def ctxBytes (head stall : Nat) (before after : Ctx) : List Byte :=
  let sem := match before.wait with | .sem m _ => m | .none => 0xFF
  leBytes 1 after.st.code ++ leBytes 1 after.rank ++ leBytes 1 stall ++ leBytes 1 sem ++ leBytes 4 after.pc ++ leBytes 8 head

/-- TILE: the queue entries, the tile in progress, one that holds at its C among them, and the drain buffer (R124). -/
def tileBytes (k : Core) : List Byte :=
  let tile := match k.atC with | some d => some d.tile | none => k.tile
  ((List.range 4).flatMap (fun e => leBytes 1 ((k.entry e).st.code + 4 * ((k.entry e).owner % 4)))) ++
  leBytes 1 (match tile with | some t => 1 + 2 * (t.owner % 4) | none => 0) ++ leBytes 1 0 ++
  leBytes 2 ((tile.map (·.blocks)).getD 0) ++ leBytes 1 (if k.drain.isSome then 1 else 0) ++ leBytes 7 0

def streamBytes (x : Stream) : List Byte :=
  leBytes 8 x.word.toNat ++ leBytes 4 x.row ++ leBytes 2 x.reqs.length ++ leBytes 2 0

def semBytes (x : Sem) : List Byte := leBytes 8 (x.value + (if x.overflow then 65536 else 0))

/-- One entry of the waiter lists. -/
def waiterBytes (w : Nat × Waiter × Nat) : List Byte :=
  leBytes 1 w.1 ++ leBytes 1 (match w.2.1 with | .ctx c => c | .stream n => 0x20 + n) ++ leBytes 2 w.2.2

def waitersBytes (l : List (Nat × Waiter × Nat)) : List Byte :=
  ((l.take 36).flatMap waiterBytes) ++ (List.replicate (36 - l.length) (leBytes 4 0xFF)).flatten

/-- The router across an output, where there is one. -/
def neighbour (c o : Nat) : Option Nat :=
  match o with
  | 0 => if 0 < coreRow c then some (c - 64) else none
  | 1 => if coreCol c < 63 then some (c + 1) else none
  | 2 => if coreRow c < 63 then some (c + 64) else none
  | 3 => if 0 < coreCol c then some (c - 1) else none
  | _ => none

/-- Credits held for one VC and class of one output: the free slots of the buffer that a flit would enter next; the attach port
drains at once. -/
def State.creditsHeld (s : State) (c o v : Nat) (detour : Bool) : Nat :=
  match neighbour c o with
  | some n =>
    let x := s.hopFlight c (n, if detour then 1 else 0) (mkFlit v 0 0 0 0 0 0 [])
    x.slots - (s.net.flights.filter x.sameBuffer).length
  | none => if o = 4 && s.linkPresent c 4 then (if detour then 4 else 12) else 0

/-- Flits in the local injection queue of a VC. -/
def State.injectionQueue (s : State) (c v : Nat) : Nat := s.occupancy c 5 v false

def State.creditBytes (s : State) (c : Nat) : List Byte :=
  ((List.range 5).flatMap (fun o => (List.range 8).flatMap (fun v =>
    leBytes 1 (s.creditsHeld c o v false) ++ leBytes 1 (s.creditsHeld c o v true)))) ++
  (List.range 8).flatMap (fun v => leBytes 1 (s.injectionQueue c v) ++ leBytes 1 0)

def State.bufferBytes (s : State) (c : Nat) : List Byte :=
  (List.range 5).flatMap (fun l => (List.range 8).flatMap (fun v =>
    leBytes 1 (s.occupancy c l v false) ++ leBytes 1 (s.occupancy c l v true)))

/-- A core's record from 0x010 to 0x5FF; `t` is the state once its engines have settled. -/
def coreCapture (s t : State) (c : Nat) : List Byte :=
  let k := t.core c
  leBytes 8 (s.cycleOf c) ++
  ((List.range 4).flatMap (fun i => ctxBytes (t.headWord c i) (s.headStall c i) (s.ctx c i) (t.ctx c i))) ++
  tileBytes k ++ leBytes 24 0 ++
  ((List.range 32).flatMap (fun n => streamBytes (k.stream n))) ++
  ((List.range 64).flatMap (fun i => semBytes (k.sem i))) ++
  waitersBytes k.waiters ++ leBytes 16 0 ++ s.creditBytes c ++ s.bufferBytes c ++ leBytes 48 0

/-- A site's record from 0x010 to 0x01F: requests and temper commands that wait, the temper unit's next granule, Jukuval
messages without an ACK. -/
def siteCapture (s : State) (i : Nat) : List Byte :=
  leBytes 2 (s.stack i).accepted ++ leBytes 2 ((s.stack i).temper.length - 1) ++
  leBytes 4 (((s.stack i).temper.head?.map (·.next)).getD 0) ++
  leBytes 8 (((s.fabric.conns.filter (fun c => c.site = i)).map (fun c => c.unacked.length)).foldl (· + ·) 0)

/-- One ring record. -/
def ringBytes (x : Option Ring) : List Byte :=
  match x with
  | none => leBytes 16 0
  | some r =>
    leBytes 2 (1 + (if r.error then 2 else 0) + (if r.phase then 4 else 0)) ++
    leBytes 2 r.sqPi ++ leBytes 2 r.sqCi ++ leBytes 2 r.cqPi ++ leBytes 2 r.cqCi ++
    leBytes 2 (r.taken.filter (fun t => t.status = none)).length ++ leBytes 4 0

/-! ### Capture (R586) -/

/-- A field column under a shift: its cores capture when it has completed. -/
def State.shifting (s : State) (u : Src) : Bool :=
  match u with
  | .core c => (Tab.get none s.wafer.shifts (columnOf c)).isSome
  | _ => false

/-- DEDUCED (assumption log 51). -/
def newCapture (s : State) (u : Src) (cause : Nat) (bytes : List Byte) : Capture where
  time := s.time
  cause := cause
  record := bytes
  links := s.linksOf u

/-- A unit captures, once: it stops injecting, its contexts halt, its engines hold, and its state is recorded. -/
def State.captureUnit (s : State) (u : Src) (cause : Nat) : State :=
  if !s.captures u || (s.captureOf u).isSome || s.shifting u then s
  else
    match u with
    | .core c =>
      let t := (s.modCore c (fun k => k.haltAll.hold)).forgetHalted [c]
      t.setCapture u (newCapture s u cause (coreCapture s t c))
    | .site i =>
      let t := s.temperStops i
      t.setCapture u (newCapture t u cause (siteCapture t i))
    | _ => s.setCapture u (newCapture s u cause ((List.range 64).flatMap (fun r => ringBytes (s.ring r))))

/-- The quench runs: its cut is not complete. -/
def State.cutting (s : State) : Bool := s.obs.quench.active && !s.obs.quench.complete

end Sys2Proof.Machine

namespace Sys2Proof

open Sys2Proof.Machine

/-- The unit that a command names. -/
def UnitId.src : UnitId → Src
  | .core c => .core c.toNat
  | .site i => .site i.val
  | .hid => .hid

end Sys2Proof

namespace Sys2Proof.Machine

/-- The CAUSE byte of a capture by the supervisor's order. -/
def causeOrder : Nat := 1

/-- The QUENCH message has reached the supervisor of a unit's field; the HID issues it (R585). -/
def State.ordered (s : State) : Src → Bool
  | .core c => s.obs.quench.reached.contains (fieldOf c)
  | .site i => s.obs.quench.reached.contains (fieldOf (s.attachCore i 0))
  | _ => true

def execQuenchCapture (unit : UnitId) (s : State) : Host.Outcome State Fault Refusal :=
  .next (if s.cutting && s.ordered unit.src then s.captureUnit unit.src causeOrder else s)

/-- A MARKER arrives: it closes its channel, and triggers the capture of a unit that has not captured (R586, R587). -/
def execMarker (unit : UnitId) (chan : Nat) (s : State) : Host.Outcome State Fault Refusal :=
  let u := unit.src
  .next (if s.cutting && s.hasChannel u chan then
      let t := s.captureUnit u (2 + 16 * (chan / 16))
      match t.captureOf u with
      | some c => if c.markers.contains chan then t else t.setCapture u { c with markers := chan :: c.markers }
      | none => t
    else s)

/-! ### Completion (R588) -/

/-- Every unit has captured, and every channel has its MARKER. -/
def State.cutClosed (s : State) : Bool :=
  s.quenchUnits.all (fun u => (s.captureOf u).isSome && decide (s.openChannels u = 0))

/-- Times of all captures. -/
def State.captureTimes (s : State) : List Nat := s.quenchUnits.filterMap (fun u => (s.captureOf u).map (·.time))

def maxOf (l : List Nat) : Nat := l.foldl max 0
def minOf (l : List Nat) : Nat := l.foldl min (l.headD 0)

/-- POWER of a field window (R519). -/
def FieldPower.code : FieldPower → Nat
  | .active => 0 | .bank => 1 | .cold => 2 | .outOfService => 3

/-- The cut is recorded: DEVSTATE QUENCHED is set, and the QUENCH command completes. DEDUCED (assumption log 51). -/
def State.completeQuench (s : State) : State :=
  let q := s.obs.quench
  let inc := (s.quenchUnits.map s.openChannels).foldl (· + ·) 0
  let ts := s.captureTimes
  let s1 : State := { s with obs := { s.obs with quench := { q with
    complete := true
    everDone := true
    completed := s.time
    incomplete := inc
    powers := Tab.setRange 0 [] 0 ((List.range 64).map (fun f => (s.fieldPower f).code)) } } }
  let s2 := (s1.raiseDevice flagState).record .quenched .hid [(1, q.cause), (4, inc), (8, maxOf ts - minOf ts)]
  match q.cmd with
  | some c => s2.finish c.1 c.2 stDone 0 0
  | none => s2

/-- Every unit has its MARKERs, or 10 ms have passed; by then the order has reached every unit (R585). -/
def execQuenched (timedOut : Bool) (s : State) : Host.Outcome State Fault Refusal :=
  .next (if !s.cutting then s
    else if timedOut then (s.quenchUnits.foldl (fun a u => a.captureUnit u causeOrder) s).completeQuench
    else if s.cutClosed then s.completeQuench
    else s)

/-! ### The commands (R494, R590, R591) -/

def execQuench (ring : Fin 64) (s : State) : Host.Outcome State Fault Refusal :=
  .next (s.takeCommand ring.val ocQuench (fun c t =>
    if t.obs.quench.active then t.done c stState 0 0 else t.startQuench 1 (some (c.ring, c.id))))

/-- The end of the quench at one core: its streams stop where its job context was quenched, and the hold ends (R590). -/
def State.releaseCore (s : State) (c : Nat) : State :=
  let stop := (s.jobOf c).any (fun j => (s.job j).st = .quenched)
  (if stop then s.modCore c (fun k => k.stopStreams (fun _ => true)) else s).releaseHold c

/-- The quench is over. -/
def State.quenchOver (s : State) : State := { s with obs := { s.obs with quench := { s.obs.quench with active := false } } }

/-- Injection goes on unless routes are being changed (R590, R271). -/
def State.reopen (s : State) : State :=
  if s.net.pause.isSome then s else ({ s with net := { s.net with stopped := false } }).admitAll

def State.releaseQuench (s : State) : State :=
  let q := s.obs.quench
  let s1 := (List.range 4096).foldl State.releaseCore s.quenchOver
  let s2 := (List.range 8).foldl (fun a j =>
    if (a.job j).st = .quenched then a.modJob j (fun x => { x with st := .loaded }) else a) s1
  (s2.reopen.raiseDevice flagState).record .quenchReleased .hid [(8, s.time - q.started)]

def execQuenchRelease (ring : Fin 64) (s : State) : Host.Outcome State Fault Refusal :=
  .next (s.takeCommand ring.val ocQuenchRelease (fun c t =>
    if t.obs.quench.active && t.obs.quench.complete then t.releaseQuench.done c stDone 0 0 else t.done c stState 0 0))

/-! ### The snapshot (R591 to R593) -/

/-- Bytes filled up with zeros, or cut, to a length. -/
def filled (n : Nat) (b : List Byte) : List Byte := (b ++ List.replicate (n - b.length) 0).take n

/-- The count, the flags and the headers of one inbound link and VC of a core. -/
def channelBytes (c : Capture) (l v : Nat) : List Byte :=
  let k := 8 * l + v
  let both := c.markers.contains (channelOf l v false) && c.markers.contains (channelOf l v true)
  leBytes 2 (min (Tab.get 0 c.counts k) 0xFFFF) ++ leBytes 1 (if both then 1 else 2) ++ leBytes 5 0 ++
  filled 32 ((Tab.get [] c.headers k).flatMap (fun h => leBytes 8 h))

/-- One core record: STATUS 2 where the field was COLD, 1 where the core did not capture for another reason. -/
def Quench.coreRecord (q : Quench) (i : Nat) : List Byte :=
  match Tab.get none q.cores i with
  | none => filled 4096 (leBytes 2 i ++ leBytes 1 (if Tab.get 0 q.powers (fieldOf i) = 2 then 2 else 1))
  | some c =>
    filled 4096 (leBytes 2 i ++ leBytes 1 0 ++ leBytes 1 c.cause ++ leBytes 4 0 ++ leBytes 8 c.time ++ c.record ++
      (List.range 5).flatMap (fun l => (List.range 8).flatMap (fun v =>
        if c.links.contains l then channelBytes c l v else leBytes 40 0)))

/-- A channel word of a site or the spur: count in [14:0], complete in [15]. -/
def channelWord (c : Capture) (l v : Nat) : List Byte :=
  let both := c.markers.contains (channelOf l v false) && c.markers.contains (channelOf l v true)
  leBytes 2 (min (Tab.get 0 c.counts (8 * l + v)) 0x7FFF + (if both then 0x8000 else 0))

def Quench.siteRecord (q : Quench) (i : Nat) : List Byte :=
  match Tab.get none q.sites i with
  | none => filled 512 (leBytes 1 i ++ leBytes 1 1)
  | some c =>
    filled 512 (leBytes 1 i ++ leBytes 1 0 ++ leBytes 1 c.cause ++ leBytes 1 0 ++ leBytes 4 0 ++ leBytes 8 c.time ++
      c.record ++ (List.range 7).flatMap (fun l => (List.range 8).flatMap (fun v => channelWord c l v)))

/-- One field record. -/
def Quench.fieldRecord (q : Quench) (f : Nat) : List Byte :=
  let ts := (fieldCores f).filterMap (fun c => (Tab.get none q.cores c).map (·.time))
  filled 64 (leBytes 1 f ++ leBytes 1 (Tab.get 0 q.powers f) ++ leBytes 1 ts.length ++ leBytes 5 0 ++
    leBytes 8 (minOf ts) ++ leBytes 8 (maxOf ts))

def Quench.header (q : Quench) : List Byte :=
  let spur := match q.hid with
    | none => leBytes 16 0
    | some c => (List.range 8).flatMap (fun v => channelWord c 0 v)
  filled 256 (leBytes 4 0x58445146 ++ leBytes 2 1 ++ leBytes 1 q.cause ++ leBytes 1 (if q.netMode then 1 else 0) ++
    leBytes 8 q.started ++ leBytes 8 q.completed ++ leBytes 4 q.incomplete ++
    leBytes 2 (q.opWest + 256 * q.opEast) ++ leBytes 2 0 ++
    ((List.range 8).flatMap (fun j => leBytes 1 (Tab.get 0 q.jobsBefore j))) ++ spur)

/-- Bytes of the quench snapshot. -/
def quenchBytes : Nat := 16801024

/-- One 64-byte line of the snapshot: every part of it starts and ends on such a line, but for the four ring records that
share one. -/
def Quench.line (q : Quench) (n : Nat) : List Byte :=
  let o := 64 * n
  if o < 0x100 then (q.header.drop o).take 64
  else if o < 0x1100 then q.fieldRecord ((o - 0x100) / 64)
  else if o < 0x1001100 then ((q.coreRecord ((o - 0x1100) / 4096)).drop ((o - 0x1100) % 4096)).take 64
  else if o < 0x1005900 then ((q.siteRecord ((o - 0x1001100) / 512)).drop ((o - 0x1001100) % 512)).take 64
  else ((filled 1024 ((q.hid.map (·.record)).getD [])).drop (o - 0x1005900)).take 64

def readBlockOk (b : List Byte) : Bool :=
  let o := fieldAt b 8 8
  let n := fieldAt b 16 4
  decide (fieldAt b 0 8 % 64 = 0 ∧ o % 64 = 0 ∧ n % 64 = 0 ∧ 64 ≤ n ∧ o + n ≤ quenchBytes) && zeroAt b 20 4 &&
  inHost (fieldAt b 0 8) n

/-- Lines of the snapshot to host memory. -/
def State.quenchRead (s : State) (h o n : Nat) : State :=
  (List.range (n / 64)).foldl (fun t i =>
    t.storeHost (h + 64 * i) (s.obs.quench.line (o / 64 + i))) s

def execQuenchRead (ring : Fin 64) (s : State) : Host.Outcome State Fault Refusal :=
  .next (s.takeCommand ring.val ocQuenchRead (fun c t =>
    let b := t.blockOf c.e
    if !readBlockOk b then t.done c stMalformed 0 0
    else if !t.obs.quench.everDone then t.done c stState 0 0
    else (t.quenchRead (fieldAt b 0 8) (fieldAt b 8 8) (fieldAt b 16 4)).done c stDone (fieldAt b 16 4) 0))

end Sys2Proof.Machine
end

