-- ==== Sys2Proof/Machine/Recorder.lean ====
section
/-! DEFINITION. The trace port, the flash copy of the event log, and the field windows (spec/19 R580 to R584, R597, spec/16
R519). -/

namespace Sys2Proof.Machine

/-! ### Trace (R582, R584) -/

/-- The fixed record of an ALIGN slot (R581). -/
def alignRecord : Nat := 0xD000000000000000 * 2 ^ 64 + 0x5A5AA5A55A5AA5A5

/-- A record of the HID with a payload. -/
def hidRecord (typ time pay : Nat) : Nat := (typ * 2 ^ 60 + 2 * 2 ^ 57 + time % 2 ^ 43) * 2 ^ 64 + pay

def State.setTrace (s : State) (t : Trace) : State := { s with obs := { s.obs with trace := t } }

/-- A TIMESYNC is due; it goes out in the next slot that holds no ALIGN. -/
def execTimesync (s : State) : Host.Outcome State Fault Refusal :=
  .next (s.setTrace { s.obs.trace with syncDue := true })

/-- The record at the head of the queue leaves; a DROP record that is due takes the free place. -/
def Trace.pop (t : Trace) (now : Nat) : Trace :=
  match t.queue with
  | [] => { t with lastSent := 0 }
  | x :: l =>
    { t with
      lastSent := x.1 * 2 ^ 64 + x.2
      queue := if t.dropPending = 0 then l else l ++ [(0xF * 2 ^ 60 + 2 * 2 ^ 57 + now % 2 ^ 43, t.dropPending)]
      dropPending := 0 }

/-- One slot of the port: ALIGN, TIMESYNC, the next record, or IDLE. DEDUCED (assumption log 52). -/
def Trace.send (t : Trace) (now : Nat) : Trace :=
  if t.slot % 65536 = 0 then { t with lastSent := alignRecord }
  else if t.syncDue then { t with lastSent := hidRecord 0xE now now, syncDue := false }
  else t.pop now

def execTraceSlot (s : State) : Host.Outcome State Fault Refusal :=
  let t := s.obs.trace.send s.time
  .next (s.setTrace { t with slot := t.slot + 1 })

/-! ### The flash log (R597) -/

/-- What the HID buffer holds reaches the flash log, once the flash is mounted. -/
def State.flushLog (s : State) : State :=
  if s.obs.flashReady then { s with obs := { s.obs with flash := s.obs.log } } else s

def execEventLogFlush (s : State) : Host.Outcome State Fault Refusal := .next s.flushLog

/-! ### Field windows (R519) -/

def SiteState.code : SiteState → Nat
  | .inService => 0 | .spare => 1 | .spareTesting => 2 | .fenced => 3

/-- JOB, ROTATION, SUPOK and POWER. -/
def State.fieldStatus (s : State) (f : Nat) : Nat :=
  ((List.range 8).find? (fun j => (s.job j).holdsField f)).getD 0xFF * 2 ^ 16 +
  (if (Tab.get none s.integ.stress f).isSome then 2 ^ 8 else 0) + 2 ^ 7 + (s.fieldPower f).code

/-- The state of one site, at nibble 8 * physical row + column. -/
def State.siteNibble (s : State) (f i : Nat) : Nat :=
  if i < 72 then (s.siteState (f * 8 + i % 8) (i / 8)).code else 0

/-- FROW and SHIFTED of one column. -/
def State.columnByte (s : State) (col : Nat) : Nat :=
  ((List.range 9).find? (fun p => s.siteState col p = .fenced)).getD 0xF + (if (s.shiftRow col).isSome then 16 else 0)

/-- LOCKED and FOP; the PLL of a field that is cold or out of service does not run. -/
def State.fieldClock (s : State) (f : Nat) : Nat :=
  let p := s.fieldPower f
  (if p ≠ .cold && p ≠ .outOfService && !s.clk.lockLost.contains f then 8 else 0) + (s.half (halfOfField f)).op

/-- The 80 bytes of a field window that hold anything. -/
def State.fieldWindow (s : State) (f : Nat) : List Byte :=
  leBytes 4 (s.fieldStatus f) ++ leBytes 12 0 ++
  ((List.range 40).flatMap (fun b => leBytes 1 (s.siteNibble f (2 * b) + 16 * s.siteNibble f (2 * b + 1)))) ++
  ((List.range 8).flatMap (fun c => leBytes 1 (s.columnByte (f * 8 + c)))) ++
  ((List.range 4).flatMap (fun k => leBytes 2 (code16 (Tab.get 0 s.clk.sensors (4 * f + k))))) ++
  leBytes 8 (s.fieldClock f)

/-- A window with SUPOK cleared. -/
def noSupok (w : List Byte) : List Byte :=
  match w with
  | [] => []
  | b :: r => (b &&& 0x7F#8) :: r

/-- One refresh: the supervisor's state, or a miss; after three misses SUPOK reads 0. -/
def State.refreshField (s : State) (f : Nat) : State :=
  let w := Tab.get resetWindow s.regs.fields f
  if s.wafer.deadSups.contains f then
    let n := Tab.get 0 s.regs.missedRefresh f + 1
    { s with regs := { s.regs with
      missedRefresh := Tab.set 0 s.regs.missedRefresh f n
      fields := if 3 ≤ n then Tab.set resetWindow s.regs.fields f (noSupok w) else s.regs.fields } }
  else
    { s with regs := { s.regs with
      missedRefresh := Tab.set 0 s.regs.missedRefresh f 0
      fields := Tab.set resetWindow s.regs.fields f (s.fieldWindow f) } }

def execSupervisorRefresh (field : Fin 64) (s : State) : Host.Outcome State Fault Refusal := .next (s.refreshField field.val)

end Sys2Proof.Machine
end

