-- ==== Sys2Proof/Machine/Security.lean ====
section
/-! DEFINITION. Firmware images, sessions, keys and attestation (spec/18, spec/15 R501). -/

namespace Sys2Proof.Machine

/-! ### Firmware images (R548 to R550) -/

/-- A component entry of an image. -/
structure FwComp where
  typ : Nat
  offset : Nat
  length : Nat
  digest : List Byte
  ok : Bool
  deriving DecidableEq, Repr

def fwCompAt (b : List Byte) (i : Nat) : FwComp :=
  let o := 0x40 + 64 * i
  let t := fieldAt b o 1
  let n := fieldAt b (o + 8) 4
  { typ := t, offset := fieldAt b (o + 4) 4, length := n, digest := (b.drop (o + 16)).take 48
    ok := decide (1 ≤ t ∧ t ≤ 6 ∧ 1 ≤ n ∧ fieldAt b (o + 4) 4 % 4096 = 0 ∧ 0x1000 ≤ fieldAt b (o + 4) 4) &&
      zeroAt b (o + 1) 3 && zeroAt b (o + 12) 4 && (t ≠ 1 || decide (n ≤ 147456)) && (t ≠ 2 || decide (n ≤ 8192)) }

def fwComps (b : List Byte) : List FwComp := (List.range 6).map (fwCompAt b)

def fwSecver (b : List Byte) : Nat := fieldAt b 12 1
def fwTrustOf (b : List Byte) : Nat := fieldAt b 16 4
def fwUntrustOf (b : List Byte) : Nat := fieldAt b 20 4
def sigLength : Nat := 30640

/-- The header keeps R548. -/
def fwHeaderOk (b : List Byte) : Bool :=
  let size := fieldAt b 8 4
  decide (fieldAt b 0 4 = 0x58445746 ∧ fieldAt b 4 2 = 1 ∧ fieldAt b 6 2 = 6 ∧ size = b.length ∧ size % 4096 = 0 ∧
    0x1000 ≤ size ∧ size ≤ 50331648 ∧ fieldAt b 12 4 ≤ 63 ∧ fieldAt b 24 4 % 4096 = 0) &&
  zeroAt b 0x1C 36 && zeroAt b 0x1C0 (0x1000 - 0x1C0) && (fwComps b).all (·.ok)

/-- Extents of an image: header, components, signature block. -/
def fwExtents (b : List Byte) : List (Nat × Nat) :=
  (0, 0x1000) :: (fieldAt b 24 4, sigLength) :: (fwComps b).map (fun c => (c.offset, c.length))

def extentsDisjoint : List (Nat × Nat) → Bool
  | [] => true
  | x :: r => r.all (fun y => decide (x.1 + x.2 ≤ y.1 ∨ y.1 + y.2 ≤ x.1)) && extentsDisjoint r

/-- The first check of R550 that an image fails, counted from 1 in the order of its list.
DESIGN CHOICE: the numbers (assumption log 15). -/
def fwFirstFail (b : List Byte) (secver : Nat) : Option Nat :=
  let sig := fieldAt b 24 4
  if !fwHeaderOk b then some 1
  else if !(List.range 6).all (fun t => decide (((fwComps b).filter (fun c => c.typ = t + 1)).length = 1)) then some 2
  else if !((fwExtents b).all (fun x => decide (x.1 + x.2 ≤ b.length)) && extentsDisjoint (fwExtents b)) then some 3
  else if sha48 ((b.drop sig).take 388) ≠ fit 48 Config.rsaDigest then some 4
  else if sha48 ((b.drop (sig + 0x190)).take 64) ≠ fit 48 Config.slhDigest then some 5
  else if !Config.imageSigned b then some 6
  else if !(fwComps b).all (fun c => sha48 ((b.drop c.offset).take c.length) = c.digest) then some 7
  else if fwSecver b < secver then some 8
  else none

/-! ### Measurements (R552) -/

def extendMr (old d : List Byte) : List Byte := sha48 (old ++ d)
def zero48 : List Byte := List.replicate 48 0

def compDigest (b : List Byte) (t : Nat) : List Byte := (((fwComps b).find? (fun c => c.typ = t)).map (·.digest)).getD zero48

/-- The four measurement registers after a boot. -/
def State.measure (s : State) (b : List Byte) : List (List Byte) :=
  [extendMr zero48 (fit 48 Config.romDigest),
   extendMr (extendMr zero48 (compDigest b 1)) (compDigest b 2),
   [3, 4, 5, 6].foldl (fun a t => extendMr a (compDigest b t)) zero48,
   extendMr zero48 (sha48 (leBytes 8 s.identWord ++ leBytes 1 s.sec.secver ++ leBytes 1 (fwSecver b) ++ leBytes 6 0))]

/-- The kernel runs from the verified image (R551, R509). -/
def State.runImage (s : State) : State :=
  let b := s.sec.image
  { s with sec := { s.sec with
    fwTrust := fwTrustOf b
    fwUntrust := fwUntrustOf b
    imgSecver := fwSecver b
    mr := s.measure b } }

/-! ### Sessions (R557 to R564) -/

/-- The session ends: its keys are erased, rings 1 to 63 are removed, ring 0 loses its role (R561). -/
def State.endSession (s : State) (cause : Nat) : State :=
  match s.sec.session with
  | none => s
  | some q =>
    let s1 : State := { s with sec := { s.sec with session := none } }
    ((List.range 63).foldl (fun a i => a.deleteRing (i + 1) none) s1).record .sessionClosed .hid [(1, q.principal), (1, cause)]

/-- A session opens (R558, R560, R562). -/
def State.openSession (s : State) (principal role jobs : Nat) (claim : Bool) (sk kek : List Byte) : State :=
  let held := if role = roleJob then jobs else 0xFF
  ({ s with sec := { s.sec with
      session := some ⟨principal, role, held, claim, sk, kek⟩
      auths := 0 } }).record .sessionOpened .hid [(1, principal), (1, role), (1, held), (1, if claim then 0 else 1)]

/-- The body of OPENED. -/
def State.openedBody (s : State) : List Byte :=
  match s.sec.session with
  | none => []
  | some q => leBytes 1 q.role ++ leBytes 1 q.jobs ++ leBytes 6 0

/-- A waiting request of one type is taken; before READY every request but RECOVER in recovery is turned away (R553,
R607). A request whose length or body is ill-formed is answered MALFORMED. -/
def State.onRequest (s : State) (typ : Nat) (bodyOk : List Byte → Bool) (f : State → Nat → List Byte → State) : State :=
  let b := s.request
  let p := fieldAt b 3 1
  let reply (st : Nat) : State := s.mboxReply (icdor typ st p [])
  if !s.regs.mboxBusy || fieldAt b 1 1 ≠ typ then s
  else if s.sec.recovery && typ ≠ 5 then reply isRecovery
  else if s.regs.st = .boot && !s.sec.recovery then reply isState
  else if !bodyOk (b.drop 8) then reply isMalformed
  else f s p (b.drop 8)

def noBody (b : List Byte) : Bool := b.isEmpty

/-- 48 bytes of a nonce. -/
def nonce48 (n : Nat) : List Byte := fit 48 (Config.nonce n)

def serialBytes : List Byte := leBytes 8 Config.serial

def execHello (s : State) : Host.Outcome State Fault Refusal :=
  .next (s.onRequest 1 noBody (fun t p _ =>
    if t.sec.session.isSome then t.mboxReply (icdor 1 isState p [])
    else if t.sec.locked then t.mboxReply (icdor 1 isLocked p [])
    else
      let nd := nonce48 t.sec.nonces
      ({ t with sec := { t.sec with
          nonces := t.sec.nonces + 1
          challenges := Tab.set none t.sec.challenges p (some ⟨nd⟩) } }).mboxReply (icdor 1 isOk p (nd ++ serialBytes))))

def asciiBytes (l : List Nat) : List Byte := l.map (BitVec.ofNat 8)

/-- "ICDOR1", and the labels of R559. -/
def icdorLabel : List Byte := asciiBytes [0x49, 0x43, 0x44, 0x4F, 0x52, 0x31]
def skLabel : List Byte := icdorLabel ++ asciiBytes [0x2D, 0x53, 0x4B]
def kekLabel : List Byte := icdorLabel ++ asciiBytes [0x2D, 0x4B, 0x45, 0x4B]

/-- The MAC of R558. -/
def responseMac (key : List Byte) (p : Nat) (nd nh : List Byte) : List Byte :=
  hmac48 key (icdorLabel ++ leBytes 1 p ++ serialBytes ++ nd ++ nh)

/-- An AUTH reply to RESPONSE; the eighth in a row locks (R560). -/
def State.authFails (s : State) (p : Nat) : State :=
  let n := s.sec.auths + 1
  let s1 := ({ s with sec := { s.sec with auths := n } }).record .sessionFailed .hid [(1, p)]
  let s2 := if n = 8 then ({ s1 with sec := { s1.sec with locked := true } }).record .sessionLocked .hid [(1, p)] else s1
  s2.mboxReply (icdor 2 isAuth p [])

def State.respond (s : State) (p : Nat) (nh mac : List Byte) : State :=
  let c := Tab.get none s.sec.challenges p
  let s1 : State := { s with sec := { s.sec with challenges := Tab.set none s.sec.challenges p none } }
  match c, Tab.get none s.sec.keys p with
  | some c, some k =>
    if responseMac k.key p c.devNonce nh = mac then
      let sk := hmac48 k.key (skLabel ++ c.devNonce ++ nh)
      let s2 := s1.openSession p k.role k.jobs false sk ((hmac48 sk kekLabel).take 32)
      s2.mboxReply (icdor 2 isOk p s2.openedBody)
    else s1.authFails p
  | _, _ => s1.authFails p

def execResponse (s : State) : Host.Outcome State Fault Refusal :=
  .next (s.onRequest 2 (fun b => decide (b.length = 96)) (fun t p b =>
    if t.sec.session.isSome then t.mboxReply (icdor 2 isState p [])
    else t.respond p (b.take 48) (b.drop 48)))

def execClose (s : State) : Host.Outcome State Fault Refusal :=
  .next (s.onRequest 3 noBody (fun t p _ =>
    if t.sec.session.isNone then t.mboxReply (icdor 3 isState p [])
    else (t.endSession 0).mboxReply (icdor 3 isOk p [])))

def execClaim (s : State) : Host.Outcome State Fault Refusal :=
  .next (s.onRequest 4 noBody (fun t p _ =>
    if t.sec.session.isSome || (Tab.get none t.sec.keys 0).isSome then t.mboxReply (icdor 4 isState p [])
    else
      let t1 := t.openSession 0 roleOwner 0 true [] []
      t1.mboxReply (icdor 4 isOk p t1.openedBody)))

/-! ### Expiries (R558, R560) -/

def execChallengeExpiry (principal : Fin 16) (s : State) : Host.Outcome State Fault Refusal :=
  .next { s with sec := { s.sec with challenges := Tab.set none s.sec.challenges principal.val none } }

def execLockExpiry (s : State) : Host.Outcome State Fault Refusal :=
  .next (if s.sec.locked then { s with sec := { s.sec with locked := false, auths := 0 } } else s)

/-! ### FIRMWARE_UPDATE and SECURITY_VERSION (R554 to R556) -/

/-- The outcome of an update is recorded with the check that failed; 9 a host read, 10 the flash write. -/
def State.updateRejected (s : State) (c : Cmd) (check st : Nat) : State :=
  (s.record .firmwareRejected .hid [(1, check)]).done c st 0 0

/-- The staged copy is written to the boot flash; whether the write fails is a free value.
DESIGN CHOICE (assumption log 13). -/
def State.writeFlash (s : State) (c : Cmd) (b : List Byte) : State :=
  let s1 : State := { s with freeIndex := s.freeIndex + 1 }
  if Config.measured s.freeIndex % 2 = 1 then
    ({ s1 with sec := { s1.sec with image := Config.flashAfter s.freeIndex } }).updateRejected c 10 stFault
  else
    (({ s1 with sec := { s1.sec with image := b } }).record .firmwareUpdated .hid
      [(4, fwTrustOf b), (4, fwUntrustOf b), (1, fwSecver b)]).done c stDone (fwUntrustOf b * 2 ^ 32 + fwTrustOf b) 0

def State.updateFirmware (s : State) (c : Cmd) (h n : Nat) : State :=
  if !s.hostOk h n then (s.hostError c.ring c.e.cid h).updateRejected c 9 stMalformed
  else
    let b := s.bytes h n
    match fwFirstFail b s.sec.secver with
    | some 8 => s.updateRejected c 8 stDenied
    | some k => s.updateRejected c k stMalformed
    | none => s.writeFlash c b

def execFirmwareUpdate (ring : Fin 64) (s : State) : Host.Outcome State Fault Refusal :=
  .next (s.takeCommand ring.val ocFirmwareUpdate (fun c t =>
    let b := t.blockOf c.e
    let h := fieldAt b 0 8
    let n := fieldAt b 8 4
    if h % 4096 ≠ 0 || !zeroAt b 12 4 || !inHost h n || n = 0 || 50331648 < n then t.done c stMalformed 0 0
    else t.updateFirmware c h n))

def execSecurityVersion (ring : Fin 64) (s : State) : Host.Outcome State Fault Refusal :=
  .next (s.takeCommand ring.val ocSecurityVersion (fun c t =>
    let v := c.e.arg0
    if v ≤ t.sec.secver || 63 < v then t.done c stMalformed 0 0
    else if t.sec.imgSecver < v || fwSecver t.sec.image < v then t.done c stDenied 0 0
    else
      (({ t with sec := { t.sec with secver := v } }).record .secverRaised .hid [(1, t.sec.secver), (1, v)]).done c stDone 0 0))

/-! ### KEY_PROVISION (R565) -/

/-- The block keeps the table. -/
def keyBlockOk (b : List Byte) : Bool :=
  let op := fieldAt b 1 1
  let role := fieldAt b 2 1
  decide (fieldAt b 0 1 ≤ 15 ∧ (op = 1 ∨ op = 2) ∧ fieldAt b 4 1 ≤ 1) && zeroAt b 5 3 && zeroAt b 0x30 16 &&
  (if op = 1 then decide (1 ≤ role ∧ role ≤ 3) else decide (role = 0)) &&
  (if role = roleJob then decide (fieldAt b 3 1 ≠ 0) else zeroAt b 3 1) &&
  (op ≠ 1 || fieldAt b 4 1 ≠ 0 || zeroAt b 0x28 8)

/-- The key that a SET brings: plain, or unwrapped under the session's KEK. DEDUCED (assumption log 36). -/
def State.keyOf (s : State) (b : List Byte) : Option (List Byte) :=
  if fieldAt b 4 1 = 0 then some ((b.drop 8).take 32)
  else (Config.unwrap ((s.sec.session.map (·.kek)).getD []) ((b.drop 8).take 40)).map (fit 32)

def State.setKey (s : State) (b : List Byte) (k : Option KeySlot) : State :=
  ({ s with sec := { s.sec with keys := Tab.set none s.sec.keys (fieldAt b 0 1) k } }).record .keyChanged .hid
    [(1, fieldAt b 0 1), (1, fieldAt b 1 1), (1, fieldAt b 2 1), (1, fieldAt b 3 1)]

/-- The order of R565; a CLAIM session has no KEK to unwrap with. -/
def State.provision (s : State) (c : Cmd) (b : List Byte) : State :=
  let claim := (s.sec.session.map (·.claim)).getD false
  let set := decide (fieldAt b 1 1 = 1)
  let key := s.keyOf b
  if !keyBlockOk b || (set && !claim && key.isNone) then s.done c stMalformed 0 0
  else if fieldAt b 0 1 = 0 && (!set || fieldAt b 2 1 ≠ roleOwner) then s.done c stMalformed 0 0
  else if decide (fieldAt b 4 1 = 0) ≠ claim then s.done c stDenied 0 0
  else
    (s.setKey b (if set then key.map (fun k => ⟨fieldAt b 2 1, fieldAt b 3 1, k⟩) else none)).done c stDone 0 0

def execKeyProvision (ring : Fin 64) (s : State) : Host.Outcome State Fault Refusal :=
  .next (s.takeCommand ring.val ocKeyProvision (fun c t => t.provision c (t.blockOf c.e)))

/-! ### ATTEST (R566 to R568) -/

/-- The records under KEYMAP. -/
def State.keyMap (s : State) : List Byte :=
  (List.range 16).flatMap (fun i => match Tab.get none s.sec.keys i with
    | none => leBytes 4 i
    | some k => leBytes 1 i ++ leBytes 1 1 ++ leBytes 1 k.role ++ leBytes 1 k.jobs)

/-- The 512-byte report body. -/
def State.reportBody (s : State) (nonce : List Byte) : List Byte :=
  let q := s.sec.session
  leBytes 4 0x58444146 ++ leBytes 2 1 ++ leBytes 2 512 ++ serialBytes ++ leBytes 8 s.identWord ++
  leBytes 4 s.sec.fwTrust ++ leBytes 4 s.sec.fwUntrust ++ leBytes 1 s.sec.secver ++ leBytes 1 s.sec.imgSecver ++
  leBytes 1 s.regs.st.code ++ leBytes 1 ((q.map (·.role)).getD 0) ++ leBytes 1 ((q.map (·.principal)).getD 0) ++
  leBytes 1 ((q.map (·.jobs)).getD 0) ++ leBytes 2 s.sec.bootCount ++ leBytes 8 s.time ++ leBytes 8 0 ++ nonce ++
  ((List.range 4).flatMap (fun i => fit 48 (s.sec.mr.getD i zero48))) ++ sha48 s.keyMap ++ leBytes 168 0

/-- The report: body, RSA signature, SLH-DSA signature. -/
def State.report (s : State) (nonce : List Byte) : List Byte :=
  let b := s.reportBody nonce
  b ++ fit 30176 (Config.sign b)

def endorsement : List Byte :=
  leBytes 4 0x58444546 ++ leBytes 2 1 ++ leBytes 2 0 ++ serialBytes ++ fit 30640 Config.certChain

def execAttest (ring : Fin 64) (s : State) : Host.Outcome State Fault Refusal :=
  .next (s.takeCommand ring.val ocAttest (fun c t =>
    let b := t.blockOf c.e
    let a := fieldAt b 0x30 8
    let n := if fieldAt b 0x38 1 = 1 then 61344 else 30688
    if a % 64 ≠ 0 || 1 < fieldAt b 0x38 1 || !zeroAt b 0x39 7 || !inHost a n then t.done c stMalformed 0 0
    else
      let r := t.report (b.take 48) ++ (if n = 61344 then endorsement else [])
      (t.storeHost a r).done c stDone n 0))

/-! ### The board management port and the watchdog (R501, R547) -/

/-- What the port's sensors read: wafer, HID and stack temperatures, feeds, power, risk, device state. -/
def State.sensorList (s : State) : List Int :=
  [s.hottestOf (List.range 256), Tab.get 0 s.clk.sensors 292, s.hottestOf ((List.range 36).map (256 + ·)), s.clk.feedA,
   s.clk.feedAI, s.clk.feedB, s.clk.feedBI, s.clk.power, s.regs.risk, s.regs.st.code]

/-- DESIGN CHOICE: the reply is a free function (assumption log 20). -/
def execMctpMessage (message : List Byte) (s : State) : Host.Outcome State Fault Refusal :=
  .next (if s.regs.powerGood then
      { s with host := { s.host with mctpReply := Config.mctpReply s.sensorList message } }
    else s)

/-- Processor 0 to 63: a field supervisor, which answers no refresh from then on; 64: the management controller. The component by its TYPE (R548). -/
def execFirmwareFault (processor : Fin 65) (s : State) : Host.Outcome State Fault Refusal :=
  let p := processor.val
  let dead := s.wafer.deadSups
  let s1 : State := { s with wafer := { s.wafer with deadSups := if p = 64 || dead.contains p then dead else p :: dead } }
  .next ((s1.record .firmwareFault .hid [(1, if p = 64 then 3 else 4), (1, p)]).enterSafe safeFirmware)

end Sys2Proof.Machine
end

