-- ==== Sys2Proof/Machine/Boot.lean ====
section
/-! DEFINITION. Power-on, the boot chain, recovery of a bad image, and the resets (spec/20 R603 to R611, spec/18 R551 to
R553, spec/02 R55 to R58, spec/09 R283 to R286). -/

namespace Sys2Proof.Machine

/-! ### What a boot keeps (R608, R610) -/

/-- The first number after the last reserved block of sequence numbers (R597). -/
def nextBlock (n : Nat) : Nat := (n + 4095) / 4096 * 4096

/-- The module before its boot chain: only fuses and flash have kept anything. Host memory is not the module's.
DEDUCED: what is kept (assumption log 53). -/
def State.afterReset (s : State) : State where
  pending := s.pending
  freeIndex := s.freeIndex
  build := s.build
  mem := s.mem.filter (fun x => decide (hostBase ≤ x.1))
  wafer := { store := s.wafer.store, fuses := s.wafer.fuses }
  host := { hostFail := s.host.hostFail, hostPoison := s.host.hostPoison, msixSent := s.host.msixSent }
  regs := { powerGood := true }
  sec := {
    keys := s.sec.keys, secver := s.sec.secver, bootCount := s.sec.bootCount, nonces := s.sec.nonces, image := s.sec.image }
  recov := { flash := s.recov.flash, slots := s.recov.slots }
  obs := {
    log := s.obs.flash, flash := s.obs.flash, nextSeq := nextBlock s.obs.nextSeq
    full := decide (logCapacity < s.obs.flash.length) }

/-! ### Repair records (R55) -/

def rtColumn : Nat := 1
def rtFence : Nat := 2
def rtLink : Nat := 3

/-- Fields of a repair record (R54). -/
def recordType (w : Word64) : Nat := w.toNat / 2 ^ 60
def recordField (w : Word64) : Nat := w.toNat / 2 ^ 54 % 64
def recordRow (w : Word64) : Nat := w.toNat / 2 ^ 50 % 16
def recordCol (w : Word64) : Nat := w.toNat / 2 ^ 47 % 8
def recordBank (w : Word64) : Nat := w.toNat / 2 ^ 45 % 4
def recordMacro (w : Word64) : Nat := w.toNat / 2 ^ 40 % 32
def recordSeg (w : Word64) : Nat := w.toNat / 2 ^ 36 % 16
def recordColumn (w : Word64) : Nat := w.toNat / 2 ^ 28 % 256
def recordSpare (w : Word64) : Nat := w.toNat / 2 ^ 26 % 4

/-- CHECK holds. -/
def recordCheckOk (w : Word64) : Bool := decide (repairCheck w = w.setWidth 8)

/-- Every field holds a value that its record type defines. -/
def recordFieldsOk (w : Word64) : Bool :=
  let plain := decide (recordBank w = 0 ∧ recordMacro w = 0 ∧ recordColumn w = 0 ∧ recordSpare w = 0)
  decide (recordRow w ≤ 8 ∧ w.toNat / 2 ^ 8 % 4 = 0) &&
  (if recordType w = rtColumn then
     decide (recordSeg w ≤ 8) && (decide (recordBank w ≤ 1) || decide (recordMacro w ≤ 15))
   else if recordType w = rtFence then plain && decide (1 ≤ recordSeg w ∧ recordSeg w ≤ 6)
   else if recordType w = rtLink then plain && decide (recordSeg w = 0)
   else false)

/-- A record repeats the site and column of an earlier record of its type; only COLUMN records name a column (R54, R55). -/
def recordRepeats (e w : Word64) : Bool :=
  decide (recordType e = recordType w ∧ recordField e = recordField w ∧ recordRow e = recordRow w ∧ recordCol e = recordCol w) &&
  (decide (recordType w ≠ rtColumn) || decide (recordSegment e = recordSegment w ∧ recordColumn e = recordColumn w))

/-- A record that repeats an earlier one, or a COLUMN record whose redundant column a fuse or an earlier record has taken. -/
def State.recordClashes (s : State) (earlier : List Word64) (w : Word64) : Bool :=
  earlier.any (fun e => recordRepeats e w) ||
  (recordType w = rtColumn &&
    (decide (Tab.get 0 s.wafer.fuses (recordSegment w) / 2 ^ recordSpare w % 2 = 1) ||
     earlier.any (fun e => recordType e = rtColumn && recordSegment e = recordSegment w && decide (recordSpare e = recordSpare w))))

/-- The records that apply, in store order; the others are ignored with an event. -/
def State.applyRecords (s : State) : State × List Word64 :=
  s.wafer.store.foldl (fun q w =>
    if recordCheckOk w && recordFieldsOk w && !q.1.recordClashes q.2 w then (q.1, q.2 ++ [w])
    else (q.1.record .repairRecordIgnored .hid [], q.2)) (s, [])

/-! ### Sites and columns (R58, R603) -/

def recordColumnOf (w : Word64) : Nat := recordField w * 8 + recordCol w

/-- A FENCE record is applied; a site with a faulty router is passed through (R59). -/
def State.applyFence (s : State) (w : Word64) : State :=
  if recordType w ≠ rtFence then s
  else
    let t := s.setSite (recordColumnOf w) (recordRow w) .fenced
    if recordSeg w = fcRouter then
      { t with wafer := { t.wafer with deadRouters := (recordColumnOf w * 9 + recordRow w) :: t.wafer.deadRouters } }
    else t

/-- A site is fenced by the boot. -/
def State.bootFence (s : State) (cause : Nat) (p : Nat × Nat) : State :=
  if s.siteState p.1 p.2 = .fenced then s
  else
    (((s.setSite p.1 p.2 .fenced).appendFence p.1 p.2 cause).record .coreFenced (.field (p.1 / 8))
      [(1, cause), (8, 0)]).cper
        { fence := cause, field := p.1 / 8, psite := psiteOf p.1 p.2, code := EventKind.coreFenced.code }

/-- A column fails the self-test: it is recorded and applied in the same boot, or its site is fenced where no redundant column is
left or no record can be made (R53, R56). -/
def State.bootColumn (s : State) (x : FailedColumn) : State :=
  if s.siteState x.col x.prow = .fenced then s
  else
    match s.freeSpare (segmentKey (x.col * 9 + x.prow) x.bank x.mac x.seg) with
    | none => s.bootFence fcColumns (x.col, x.prow)
    | some i =>
      match s.appendRepair columnLimit
        (repairWord 1 (x.col / 8) x.prow (x.col % 8) x.bank x.mac x.seg x.column i s.sec.bootCount) with
      | some t => t.record .columnRecorded (.field (x.col / 8)) []
      | none => (s.record .repairStoreLimit .hid []).bootFence fcColumns (x.col, x.prow)

/-- The northmost fenced row of a column, where it has one in rows 0 to 7. -/
def State.fencedRow (s : State) (col : Nat) : Option Nat := (List.range 8).find? (fun p => s.siteState col p = .fenced)

/-- A logical core out of service from the boot on. -/
def State.bootLose (s : State) (c : Nat) : State :=
  if s.coreOut c then s
  else ({ s with net := { s.net with oos := c :: s.net.oos } }).record .coreOutOfService (.core c) [(2, c)]

/-- One column's map, and the logical cores that it leaves without a site. -/
def State.mapColumn (s : State) (col : Nat) : State :=
  match s.fencedRow col with
  | none => s
  | some f =>
    let s1 : State := if s.siteState col 8 = .fenced then s
      else { s with wafer := { s.wafer with shifted := Tab.set none s.wafer.shifted col (some f) } }
    ((List.range 8).map (fun i => coreAt col i)).foldl (fun a c =>
      if a.siteState col (a.physRow c) = .fenced then a.bootLose c else a) s1

/-! ### Fields (R57, R604) -/

/-- A field out of service from the boot on; SAFE where no detour is defined. -/
def State.bootField (s : State) (f : Nat) : State :=
  if s.wafer.linkOut.contains f then s
  else
    let allowed := s.coldAllowed f
    let s1 : State := { s with
      net := { s.net with cold := f :: s.net.cold }
      wafer := { s.wafer with linkOut := f :: s.wafer.linkOut } }
    let s2 := (fieldCores f).foldl State.bootLose ((s1.setField f .outOfService).record .linkStageFailed (.field f) [])
    if allowed then s2 else (s2.record .routeImpossible .hid []).enterSafe safeRoute

/-- A link stage fails its test: a record, and the field is out of service. -/
def State.bootLink (s : State) (f : Nat) : State :=
  if s.wafer.linkOut.contains f then s
  else
    (match s.appendRepair 16384 (repairWord 3 f 0 0 0 0 0 0 0 s.sec.bootCount) with
     | some t => t
     | none => s.record .repairStoreLimit .hid []).bootField f

/-! ### Stacks and I/O dies (R283 to R286, R603) -/

def State.bootStack (s : State) (i : Nat) : State :=
  if s.isStack i then
    (s.modStack i (fun x => { x with st := .fencedBoot })).record .stackFenced (.site i) [(1, i), (1, 1), (1, 0)]
  else s

def State.bootDie (s : State) (i : Nat) : State :=
  if s.isIo i then s.modIoSite i (fun x => { x with fenced := true }) else s

/-! ### The chain (R551, R603) -/

def validSites (l : List (Nat × Nat)) : List (Nat × Nat) := l.filter (fun p => decide (p.1 < 512 ∧ p.2 < 9))
def validColumns (l : List FailedColumn) : List FailedColumn :=
  l.filter (fun x => decide (x.col < 512 ∧ x.prow < 9 ∧ x.bank < 4 ∧ x.mac < (if x.bank < 2 then 32 else 16) ∧ x.seg < 9 ∧ x.column < 256))
def validFields (l : List Nat) : List Nat := l.filter (fun f => decide (f < 64))

/-- The stages after the image has been verified: flash, shims, fields, link stages, stacks, I/O dies. -/
def State.bootStages (s : State) : State :=
  let p := s.sec.tests
  let s1 : State := { s.runImage with
    obs := { s.runImage.obs with flashReady := true }
    wafer := { s.runImage.wafer with deadSups := validFields p.failedShims } }
  let q := s1.applyRecords
  let s1b := (validColumns p.failedColumns).foldl State.bootColumn (q.2.foldl State.applyFence q.1)
  let s2 := (validSites p.failedSites).foldl (fun a x => a.bootFence fcSelfTest x) s1b
  let s3 := (List.range 512).foldl State.mapColumn s2
  let named := (q.2.filter (fun w => decide (recordType w = rtLink))).map recordField
  let s4 := (named ++ validFields p.failedShims).foldl State.bootField s3
  let s5 := (validFields p.failedLinks).foldl State.bootLink s4
  let s6 := p.failedDies.foldl State.bootDie (p.failedStacks.foldl State.bootStack s5)
  { s6 with interleave := (List.range 36).filter (fun i => s6.isStack i && (s6.stack i).st = .online) }

/-- The first check of R550 that the boot flash's image fails. What the flash holds from manufacture is not the model's.
DESIGN CHOICE (assumption log 37). -/
def State.imageFails (s : State) : Option Nat :=
  if s.sec.image.isEmpty then (if s.sec.tests.imageCheck = 0 then none else some s.sec.tests.imageCheck)
  else fwFirstFail s.sec.image s.sec.secver

/-- The boot chain from the start; with a bad image the boot ROM waits for RECOVER (R553). -/
def State.boot (s : State) (p : BootInputs) : State :=
  let s0 := s.afterReset
  let s1 : State := { s0 with sec := { s0.sec with bootCount := min (s0.sec.bootCount + 1) 0xFFFF, tests := p } }
  match s1.imageFails with
  | some k => ({ s1 with sec := { s1.sec with recovery := true } }).record .recoveryEntered .hid [(1, k)]
  | none => s1.bootStages

def execPowerOn (p : BootInputs) (s : State) : Host.Outcome State Fault Refusal := .next (s.boot p)

/-- The event buffer goes to flash first. A module without power takes no reset. -/
def execModuleReset (p : BootInputs) (s : State) : Host.Outcome State Fault Refusal :=
  .next (if s.regs.powerGood then s.flushLog.boot p else s)

/-- The boot's last stage; the governors then raise each half from OP5. -/
def execReady (s : State) : Host.Outcome State Fault Refusal :=
  .next (if s.regs.st = .boot && s.obs.flashReady then (s.setDev .ready).govern else s)

def execBootTimeout (s : State) : Host.Outcome State Fault Refusal :=
  .next (if s.regs.st = .boot && s.regs.powerGood then s.enterSafe safeTimeout else s)

/-! ### Resets of the PCI Express side (R608 to R610) -/

/-- The session, every ring and the window are closed; the registers of R610 take their reset values. -/
def State.pcieReset (s : State) : State :=
  let s1 := s.endSession 1
  { s1 with
    host := { s1.host with
      d3hot := false
      rings := []
      windowBase := 0
      windowJob := none
      unmasked := []
      msixPending := []
      msixTable := []
      lastRing := 63 }
    regs := { s1.regs with
      flags := []
      flagTime := []
      r0SqBase := 0
      r0CqBase := 0
      r0Cfg := 0x0000_0000_0104_0400
      lowHeld := []
      mboxReq := []
      mboxRep := []
      qlen := 0
      rlen := 0
      mboxBusy := false } }

def execConventionalReset (s : State) : Host.Outcome State Fault Refusal := .next s.pcieReset

def execFunctionLevelReset (s : State) : Host.Outcome State Fault Refusal := .next s.pcieReset

/-! ### Recovery (R553) -/

def recoverBodyOk (b : List Byte) : Bool :=
  decide (b.length = 16 ∧ fieldAt b 0 8 % 4096 = 0 ∧ 1 ≤ fieldAt b 8 4) && zeroAt b 12 4 && inHost (fieldAt b 0 8) (fieldAt b 8 4)

/-- A replacement image that fails is turned away. -/
def State.recoverFails (s : State) (p check : Nat) : State :=
  (s.record .firmwareRejected .hid [(1, check)]).mboxReply (icdor 5 isImage p [])

/-- The replacement image: verified, written to the boot flash, and the boot goes on from it. -/
def State.recover (s : State) (p h n : Nat) : State :=
  if !s.hostOk h n then (s.hostError 0 0 h).recoverFails p 9
  else
    let b := s.bytes h n
    match fwFirstFail b s.sec.secver with
    | some k => s.recoverFails p k
    | none =>
      (({ s with sec := { s.sec with image := b, recovery := false } }).bootStages).mboxReply (icdor 5 isOk p [])

def execRecover (s : State) : Host.Outcome State Fault Refusal :=
  .next (s.onRequest 5 recoverBodyOk (fun t p b =>
    if !t.sec.recovery then t.mboxReply (icdor 5 isState p [])
    else t.recover p (fieldAt b 0 8) (fieldAt b 8 4)))

end Sys2Proof.Machine
end

