-- ==== Sys2Proof/Machine/Integrity.lean ====
section
/-! DEFINITION. Verdicts of sampled checks, classifications and their effects, stress tests of spares, and the risk
estimate (spec/13 R420 to R443). -/

namespace Sys2Proof.Machine

/-! ### Sampled checks (R420 to R423, R431, R432) -/

/-- KIND of a candidate's classification (R442). -/
def Check.cpKind (c : Check) : Nat := c.kind + 1

/-- A FAIL of work of a commit window completes the step as R361's failure does (R431). -/
def State.updateFail (s : State) (j : Nat) : State :=
  match (s.job j).committing with
  | some r => s.updateFault j r 0 0xFF 0
  | none => s

/-- The event of a sampled FAIL. DELTA and MAG come from the checker's data: free values.
DESIGN CHOICE (assumption log 14). -/
def State.sampledFailed (s : State) (c : Check) : State :=
  let d := Config.measured s.freeIndex % 2 ^ 32
  let m := Config.measured (s.freeIndex + 1) % 2 ^ 32
  ({ s with freeIndex := s.freeIndex + 2 }).record .sampledCheckFailed (.core c.producer)
    [(1, c.cpKind), (2, c.producer), (2, c.checker), (4, d), (4, m)]

/-- A verdict of FAIL: the copy goes back into the producer's own check area for the repeat (R420, R427, R431). -/
def State.sampledFail (s : State) (c : Check) : State :=
  let s1 := ((s.sampledFailed c).noteCheck c.producer true).modCore c.producer (fun y =>
    if c.kind = ckAdd then y else y.setCtx c.ctx { y.ctx c.ctx with ckFails := (y.ctx c.ctx).ckFails + 1 })
  let s2 := (s1.sendBack c).classify c.producer c.cpKind c.ctx c.checker false
  if c.update then s2.updateFail c.job else s2.startDrain c.job .classify

/-- The verdict of a check that has none yet. Kinds other than tiles have only PASS and FAIL (R421). -/
def State.verdict (s : State) (c : Check) (v : Nat) : State :=
  let s1 := s.dropCheck c.id
  match v with
  | 0 => s1.noteCheck c.producer false
  | 2 => s1.sampledFail c
  | 1 => if c.kind = ckTile then (s1.record .sampledCheckNearMiss (.core c.producer) []).health hNear c.producer else s
  | _ => if c.kind = ckTile then (s1.checkSkipped c.producer 420).classify c.checker cpLane 3 0xFFFF true else s

def execSampledCheckVerdict (check : Nat) (verdict : Fin 4) (s : State) : Host.Outcome State Fault Refusal :=
  .next (match s.checkById check with
    | none => s
    | some c => if s.obs.quench.active then s else s.verdict c verdict.val)

def execCheckTimeout (check : Nat) (s : State) : Host.Outcome State Fault Refusal :=
  .next (match s.checkById check with
    | none => s
    | some c => if s.obs.quench.active then s else (s.dropCheck c.id).checkSkipped c.producer 422)

/-! ### Outcomes (R426 to R430, R435, R436, R441) -/

def ocTransient : Nat := 1
def ocPermanent : Nat := 2
def ocUnresolved : Nat := 3
def ocLost : Nat := 4
def ocContamination : Nat := 5

/-- The fence cause of a PERMANENT outcome (R428, R429). DEDUCED (assumption log 31). -/
def permanentCause (kind : Nat) : Nat :=
  if kind = cpJoin || kind = cpAdd || kind = cpHeader then fcRouter
  else if kind = cpSpad then fcUncorrectable else fcPermanent

/-- The vendor section of an outcome (R442). -/
def State.cperOf (s : State) (q : Classing) (outcome code : Nat) : CperInfo :=
  let x := s.job q.job
  let r := x.steps.find? (fun r => r.st ≠ .waiting)
  let lane : Nat × Nat × Nat × Nat := match (s.core q.core).drain with
    | some d => if q.lane then (d.pc, d.tile.worst.1, d.tile.worst.2.1, d.tile.worst.2.2) else (0, 0, 0, 0)
    | none => (0, 0, 0, 0)
  { severity := if outcome = ocTransient then 2 else 0
    kind := q.kind
    outcome := outcome
    code := code
    core := q.core
    field := fieldOf q.core
    psite := psiteOf (columnOf q.core) (s.physRow q.core)
    job := q.job
    ctx := q.ctx
    step := (r.map (·.n)).getD 0
    pc := lane.1
    region := x.regionIndex q.core
    checker := q.checker
    first := 2
    repeat_ := if outcome = ocTransient then 0 else 2
    worst := lane.2.1
    delta := lane.2.2.1
    mag := lane.2.2.2
    lastClean := (s.core q.core).lastClean
    replays := (r.map (·.integrityReplays)).getD 0 }

/-- A CPER record whose severity is fatal where the effect makes the job context FAILED (R441). -/
def State.cperThen (s : State) (j : Nat) (q : CperInfo) (effect : State → State) : State :=
  let fatal := (s.job j).st ≠ .failed && ((effect s).job j).st = .failed
  effect (s.cper (if fatal then { q with severity := 1 } else q))

/-- The contamination window of a core ruled PERMANENT (R435, R436). -/
def State.contamination (s : State) (q : Classing) : State :=
  let x := s.job q.job
  let first := (s.core q.core).lastClean + 1
  let s1 := s.record .contaminationWindow (.core q.core)
    [(1, q.job), (2, q.core), (2, x.regionIndex q.core), (4, first), (4, x.version)]
  s1.cper { s1.cperOf q ocContamination EventKind.contaminationWindow.code with wfirst := first, wlast := x.version }

/-- The data of a classification's job context are LOST; the drain it ran for has ended. -/
def State.classLost (s : State) (q : Classing) : State :=
  let s1 := if (s.job q.job).draining = some .classify then s.endDrain q.job else s
  let s2 := s1.modCore q.core (fun x => if q.lane then { x with drain := none, stopped := false } else x)
  if q.kind = cpSpad then s2 else s2.lost q.job false

/-- A repeated tile that passes is released to its target and its owner goes on (R426 step 1). It waits for an entry. -/
def State.releaseRepeat (s : State) (c : Nat) (d : Drain) : Option State :=
  let k := d.tile.owner
  let go (t : State) : State := t.modCore c (fun x => { x.resumeCtx k with stopped := false })
  match d.target with
  | .spill loc addr add => some (((go s).releaseSpill c { d with failed := false } loc add addr).matSettle c)
  | _ =>
    match (s.core c).reserve k with
    | (_, none) => none
    | (x, some e) => some (((go (s.setCore c { x with drain := none })).releaseTo c e d.tile d.target).matSettle c)

/-- TRANSIENT (R428): a lane FAIL lost nothing; a sampled FAIL lost its data. Each failed check counts once among the health
monitor's replays: where its data are LOST, there (R439). -/
def State.outTransient (s : State) (q : Classing) : State :=
  let r := ((s.job q.job).steps.find? (fun r => r.st ≠ .waiting)).map (·.n)
  let s1 := s.record .checkTransient (.core q.core) [(1, q.kind), (2, q.core), (1, q.ctx), (4, r.getD 0)]
  let info := s1.cperOf q ocTransient EventKind.checkTransient.code
  if q.lane then (s1.cper info).health hReplays q.job else s1.cperThen q.job info (fun t => t.classLost q)

def State.outPermanent (s : State) (q : Classing) : State :=
  let cause := permanentCause q.kind
  let s1 := s.record .checkPermanent (.core q.core) [(1, q.kind), (2, q.core), (2, q.checker), (1, cause)]
  let info := s1.cperOf q ocPermanent EventKind.checkPermanent.code
  s1.cperThen q.job info (fun t =>
    let u := t.contamination q
    let v := if (u.job q.job).draining = some .classify then u.endDrain q.job else u
    v.fenceCore q.core cause { kind := q.kind, job := q.job })

def State.outUnresolved (s : State) (q : Classing) : State :=
  let s1 := s.record .checkUnresolved (.core q.core) [(1, q.kind), (2, q.core), (2, q.checker)]
  s1.cperThen q.job (s1.cperOf q ocUnresolved EventKind.checkUnresolved.code) (fun t => t.classLost q)

def State.outLost (s : State) (q : Classing) : State :=
  s.cperThen q.job (s.cperOf q ocLost 0) (fun t => t.classLost q)

/-- The first classification of a core, and the others. -/
def State.classingOf (s : State) (c : Nat) : Option Classing := s.integ.classings.find? (fun q => q.core = c)

def State.endClassing (s : State) (q : Classing) : State :=
  { s with integ := { s.integ with classings := s.integ.classings.erase q } }

/-- A second lane FAIL on one core in one step is PERMANENT (R426). -/
def State.outcomeOf (s : State) (q : Classing) (o : Nat) : Nat :=
  if q.lane && decide (2 ≤ (s.core q.core).laneFails) then ocPermanent else o

def State.classified (s : State) (q : Classing) (o : Nat) : State :=
  let t := s.endClassing q
  match o with
  | 1 =>
    if q.lane then
      match (t.core q.core).drain with
      | some d =>
        match t.releaseRepeat q.core d with
        | some u => u.outTransient q
        | none => s
      | none => t.outTransient q
    else t.outTransient q
  | 2 => t.outPermanent q
  | 3 => t.outUnresolved q
  | _ => t.outLost q

def execClassificationResult (core : CoreIx) (outcome : Fin 4) (s : State) : Host.Outcome State Fault Refusal :=
  .next (match s.classingOf core.toNat with
    | none => s
    | some q => if s.obs.quench.active then s else s.classified q (s.outcomeOf q (outcome.val + 1)))

/-! ### Stress tests of spare sites (R437, R438) -/

def State.testing (s : State) (f : Nat) : Option Nat := Tab.get none s.integ.stress f

/-- The next column of a field whose spare may be tested, from where the rotation stands. -/
def State.nextSpare (s : State) (f : Nat) : Option Nat :=
  let from_ := Tab.get 0 s.integ.stressNext f
  ((List.range 8).map (fun i => (from_ + i) % 8)).find? (fun i => s.siteState (f * 8 + i) 8 = .spare)

def State.startTest (s : State) (f i : Nat) : State :=
  let s1 := s.setSite (f * 8 + i) 8 .spareTesting
  { s1 with integ := { s1.integ with
    stress := Tab.set none s1.integ.stress f (some i)
    stressNext := Tab.set 0 s1.integ.stressNext f ((i + 1) % 8) } }

def execStressTestStart (field : Fin 64) (s : State) : Host.Outcome State Fault Refusal :=
  let f := field.val
  .next (if s.fieldPower f ≠ .active || (s.testing f).isSome then s
    else match s.nextSpare f with
      | none => s
      | some i => s.startTest f i)

/-- A test that fails fences its site; the failing item is a free value. -/
def State.failTest (s : State) (f i : Nat) : State :=
  let s1 := ({ s with freeIndex := s.freeIndex + 1 }).record .stressTestFailed (.field f)
    [(1, f), (1, i), (1, Config.measured s.freeIndex % 256)]
  let s2 := s1.cper { kind := cpStress, code := EventKind.stressTestFailed.code, field := f, psite := psiteOf (f * 8 + i) 8 }
  s2.fenceSite (f * 8 + i) 8 fcStress { kind := cpStress }

def execStressTestEnd (field : Fin 64) (passed : Bool) (s : State) : Host.Outcome State Fault Refusal :=
  let f := field.val
  .next (match s.testing f with
    | none => s
    | some i =>
      let s1 : State := { s with integ := { s.integ with stress := Tab.set none s.integ.stress f none } }
      if s1.siteState (f * 8 + i) 8 ≠ .spareTesting then s1
      else if passed then s1.setSite (f * 8 + i) 8 .spare
      else s1.failTest f i)

/-! ### The risk estimate (R439, R440, R517) -/

/-- Events of an input in the 60 s before an estimate. -/
def State.healthEvents (s : State) (input : Nat) : List (Nat × Nat × Nat) :=
  s.integ.health.filter (fun x => x.1 = input && decide (s.time < x.2.2 + 60 * 10 ^ 9))

/-- min(P, floor(P * n / (d * full))). -/
def riskPoints (p n d full : Nat) : Nat := min p (p * n / (max 1 (d * full)))

/-- The most events of one source. -/
def mostOf (l : List (Nat × Nat × Nat)) : Nat := l.foldl (fun a x => max a (l.filter (fun y => y.2.1 = x.2.1)).length) 0

/-- The thermal input: the margin of the throttle temperature over the hottest sensor. -/
def State.thermalPoints (s : State) : Nat :=
  let margin : Int := 16 * s.regs.tthrottle - s.hottestOf (List.range 256)
  (max 0 (min 48 ((48 * (16 * (s.regs.fsTherm : Int) - margin)) / (16 * max 1 s.regs.fsTherm)))).toNat

/-- The points of the six inputs, in the order of LARGEST. -/
def State.riskInputs (s : State) : List Nat :=
  [riskPoints 48 (mostOf (s.healthEvents hSymbols)) 60 s.regs.fsCsym,
   riskPoints 64 (s.healthEvents hReplays).length 1 s.regs.fsReplay,
   s.thermalPoints,
   riskPoints 32 (s.healthEvents hLink).length 60 s.regs.fsLink,
   riskPoints 48 (s.healthEvents hDroop).length 1 s.regs.fsDroop,
   riskPoints 64 (s.healthEvents hNear).length 1 s.regs.fsNear]

def largestInput (l : List Nat) : Nat := (List.range l.length).foldl (fun b i => if l.getD b 0 < l.getD i 0 then i else b) 0

def State.estimateRisk (s : State) : State :=
  let pts := s.riskInputs
  let risk := min 255 (pts.foldl (· + ·) 0)
  let old := s.regs.risk
  let s1 : State := { s with regs := { s.regs with risk := risk, largest := largestInput pts } }
  let s2 := if old / 64 = risk / 64 then s1
    else (s1.raiseFlag flagRisk).record .riskChanged .hid [(1, old), (1, risk), (1, largestInput pts)]
  s2.riskOrders

def execRiskEstimate (s : State) : Host.Outcome State Fault Refusal := .next s.estimateRisk

end Sys2Proof.Machine
end

