-- ==== Sys2Proof/Machine/FabricIo.lean ====
section
/-! DEFINITION. What returns to an I/O die site from stack memory: the data and the records of its requests, and what the
site does once they have ended (spec/12 R397). -/

namespace Sys2Proof.Machine

/-- One owned bucket of a step changes. -/
def State.modOwned (s : State) (j n bucket : Nat) (f : OwnedBucket → OwnedBucket) : State :=
  match (s.job j).step n with
  | none => s
  | some r =>
    match r.owned.find? (fun o => o.bucket = bucket) with
    | none => s
    | some o => s.setStep j { r with owned := putOwned (f o) r.owned }

/-- An entry of the bucket table is in stack memory: its term of the module's sum counts (R347, R352). -/
def State.entryWritten (s : State) (j n bucket : Nat) : State :=
  match (s.job j).step n with
  | none => s
  | some r =>
    match r.owned.find? (fun o => o.bucket = bucket) with
    | none => s
    | some o => s.setStep j { r with
        owned := putOwned { o with written := true, writing := false } r.owned
        normM := r.normM + qOf o.acc ((o.summary.map (·.ntok)).getD 0) }

/-- The requests of some work have all ended (R397, R404, R407, R409, R410, R452, R453). A work that a stack refused changes
nothing but what answers its asker. -/
def State.ioDone (s : State) (site : Nat) (x : IoXfer) : State :=
  let ok := decide (x.bad = 0)
  match x.work with
  | .publish q => s.publishRead site q x.data x.bad
  | .reduced j n b => if ok then s.modOwned j n b (fun o => { o with landed := o.landed + 1 }) else s
  | .entry j n b => if ok then s.entryWritten j n b else s.modOwned j n b (fun o => { o with writing := false })
  | .permuteIn g v j m => if ok then s.permuteWritten site g v j m x.data.length else s
  | .permuteOut g tensor off =>
    if ok then s.sendMsg site g (objKey tensor off) { msg mPermute with obj := tensor, offset := off, payload := x.data } else s
  | .partnerPut g v m => s.replyTo site g v { m with typ := mPartnerPut } (if ok then fsOk else fsRefused)
  | .partnerCopy g v j m =>
    if ok then
      match (s.job j).partnerRegion with
      | none => s.replyTo site g v m fsRefused
      | some r => (s.partnerLand j r.base m x.data.length).replyTo site g v m fsOk
    else s.replyTo site g v m fsRefused
  | .partnerGet g v m => if ok then s.answerGet site g m x.data else s.replyTo site g v m fsUnknown

/-- A request of an I/O die site has ended with a status; the last of its transfer ends that. -/
def State.ioEnd (s : State) (site : Nat) (r : IoReq) (st : Nat) : State :=
  let x := s.ioSite site
  let s1 := s.setIoSite site { x with reqs := x.reqs.filter (fun q => q.no ≠ r.no) }
  match x.xfers.find? (fun t => t.id = r.xfer) with
  | none => s1
  | some t =>
    let t1 := { t with left := t.left - 1, bad := if t.bad = 0 then st else t.bad }
    if t1.left = 0 then
      (s1.modIoSite site (fun y => { y with xfers := y.xfers.filter (fun z => z.id ≠ t.id) })).ioDone site t1
    else s1.modIoSite site (fun y => { y with xfers := y.xfers.map (fun z => if z.id = t.id then t1 else z) })

/-- One granule of a READ enters its transfer: its bytes within the request's extent; a word that is not delivered spoils the
transfer (R396). -/
def State.ioGranule (s : State) (site g : Nat) (r : IoReq) (f : Flit) : State :=
  let d := granuleData f
  let lo := 64 * g - r.skip
  let bs := (if g = 0 then d.1.drop r.skip else d.1).take (r.bytes - lo)
  let s1 := s.modIoSite site (fun y => { y with
    reqs := y.reqs.map (fun q => if q.no = r.no then { q with got := q.got + 1 } else q)
    xfers := y.xfers.map (fun t => if t.id = r.xfer then
      { t with data := spliceBytes t.data (r.off + lo) bs, bad := if d.2 && t.bad = 0 then 3 else t.bad } else t) })
  if r.len ≤ r.got + 1 then s1.ioEnd site r 0 else s1

/-- A SITE_DATA flit at an I/O die site: its transfer tag names an open request, and data or the record of one (R397, R612). A
fenced die leaves it (R19). -/
def State.ioArrive (s : State) (site : Nat) (f : Flit) : State :=
  if (s.ioSite site).fenced then s
  else
    match (s.ioSite site).reqs.find? (fun r => r.no = f.tag / 128 && s.isStack f.src.toNat && f.skind.toNat = kSite) with
    | none => s.unexpected f
    | some r =>
      if f.tag / 64 % 2 = 1 then s.ioEnd site r (((flitWord f 0).map (fun b => fieldAt b.1 0 1)).getD 3)
      else if r.write then s.unexpected f
      else s.ioGranule site (f.tag % 64) r f

end Sys2Proof.Machine
end

