-- ==== Sys2Proof/Machine/Network.lean ====
section
/-! DEFINITION. The wafer network's own commands: arbitration, forwarding, and what flits do where they arrive (spec/08,
spec/04 R136, spec/07 R231, spec/13 R429). -/

namespace Sys2Proof.Machine

/-! ### Arbitration (R251) -/

/-- The output of a router towards another: 0 north, 1 east, 2 south, 3 west. -/
def outputTo (r n : Nat) : Nat := linkFrom n r

/-- Inputs in the order of R251: north, east receivers, south, west receivers, local, attach; each detour buffer after the main
buffer of its input. DESIGN CHOICE for the place of the detour buffers (assumption log 10). -/
def Flight.input (x : Flight) : Nat :=
  2 * (match x.link with
    | 0 => 0
    | 1 => 1 + x.recv
    | 2 => 4
    | 3 => 5 + x.recv
    | 5 => 8
    | _ => 9) + (if x.detour then 1 else 0)

/-- The hop of a flit at a router, where it has one and holds a credit for it. -/
def State.hopOf (s : State) (x : Flight) : Option (Flight × Flight) :=
  if s.toLost x.flit then none
  else
    match s.nextHop x.at_ (s.routeTarget x.flit) x.flit.route.toNat with
    | none => none
    | some q =>
      let y := s.hopFlight x.at_ q x.flit
      if !s.routerOff q.1 && hasSlot s.net.flights y then some (x, y) else none

/-- Flits at buffer heads of a router that hold a credit for one of its outputs. -/
def State.contenders (s : State) (r out : Nat) : List (Flight × Flight) :=
  (s.net.flights.filter (fun x => x.at_ = r && !x.seam && headsBuffer s.net.flights x)).filterMap (fun x =>
    (s.hopOf x).filter (fun p => outputTo r p.2.at_ = out))

/-- Cycles that a flit has headed its buffer. -/
def State.headFor (s : State) (x : Flight) : Nat := s.routerCycle x.at_ - x.since

/-- Of some flits the one whose input comes first in round-robin from an input on. -/
def firstInput (from_ : Nat) : List (Flight × Flight) → Option (Flight × Flight)
  | [] => none
  | p :: r =>
    let key (q : Flight × Flight) : Nat := (q.1.input + 20 - from_) % 20
    some (r.foldl (fun a b => if key b < key a then b else a) p)

/-- The oldest of some flits; ties by VC number. -/
def oldest : List (Flight × Flight) → Option (Flight × Flight)
  | [] => none
  | p :: r => some (r.foldl (fun a b =>
      if b.1.since < a.1.since || (b.1.since = a.1.since && decide (b.1.flit.vc.toNat < a.1.flit.vc.toNat)) then b else a) p)

/-- Round-robin over VCs after the VC last granted, and over the inputs of the VC. -/
def State.rotate (s : State) (k : Nat) (l : List (Flight × Flight)) : Option (Flight × Flight) :=
  let vcs := (List.range 8).map (fun i => (Tab.get 0 s.net.lastGrant k + 1 + i) % 8)
  match vcs.find? (fun v => l.any (fun p => p.1.flit.vc.toNat = v)) with
  | none => none
  | some v => firstInput (Tab.get 0 s.net.lastInput (8 * k + v)) (l.filter (fun p => p.1.flit.vc.toNat = v))

/-- The flit that an output grants (R251). -/
def State.granted (s : State) (r out : Nat) : Option (Flight × Flight) :=
  let k := 5 * r + out
  let l := s.contenders r out
  let fast := l.filter (fun p => decide (p.1.flit.vc = 0))
  let aged := l.filter (fun p => decide (1024 ≤ s.headFor p.1))
  if !s.net.expansive && !fast.isEmpty then firstInput (Tab.get 0 s.net.lastInput (8 * k)) fast
  else if !aged.isEmpty then oldest aged
  else s.rotate k l

/-- A granted flit moves to the next router (R248). -/
def State.hopTo (s : State) (p : Flight × Flight) : State :=
  let k := 5 * p.1.at_ + outputTo p.1.at_ p.2.at_
  let v := p.1.flit.vc.toNat
  let s1 : State := { s with net := { s.net with
    lastGrant := Tab.set 0 s.net.lastGrant k v
    lastInput := Tab.set 0 s.net.lastInput (8 * k + v) ((p.1.input + 1) % 20) } }
  ((((s1.leave p.1).enter p.2).arrive (.core p.2.at_) p.2.link p.2.flit).refill p.1.at_).refill p.2.at_

/-- A router forwards: its field is powered, its site's fault is not in the router, and its clock runs (R26, R267). -/
def State.forwards (s : State) (r : Nat) : Bool := !s.routerOff r && !s.clockStopped r

/-- An output grants the flit f, which has waited 1,024 cycles, ahead of round-robin (R251). -/
def execRouterAgeGrant (router : CoreIx) (out : Fin 4) (f : Flit) (s : State) : Host.Outcome State Fault Refusal :=
  let r := router.toNat
  .next (if !s.forwards r then s
    else
      match (s.refill r).granted r out.val with
      | some p => if p.1.flit = f ∧ 1024 ≤ s.headFor p.1 then (s.refill r).hopTo p else s
      | none => s)

/-! ### Header faults and forwarding (R245, R248, R250, R429) -/

/-- Every RUNNING job context's data are LOST (R429). -/
def State.lostAll (s : State) : State :=
  (List.range 8).foldl (fun a j => if (a.job j).st = .running then a.lost j false else a) s

/-- A fault at a receiving router; the third within 1 s fences its site (R429). -/
def State.routerFault (s : State) (r : Nat) : State :=
  let l := (Tab.get [] s.integ.routerFaults r).filter (fun t => decide (s.time < t + 1000000000)) ++ [s.time]
  let s1 : State := { s with integ := { s.integ with routerFaults := Tab.set [] s.integ.routerFaults r l } }
  if 3 ≤ l.length then s1.fenceCore r fcRouter { kind := cpHeader } else s1

/-- ADDR of a flit to a core is a granule index, but for ring sequence numbers and credits (R243). -/
def granuleAddr (f : Flit) : Bool :=
  f.dkind.toNat = kCore && f.op.toNat ≠ opRed && f.op.toNat ≠ opStrict && f.op.toNat ≠ opRcredit

/-- The fields of a header hold defined values (R243, R245). -/
def flitFieldsOk (f : Flit) : Bool :=
  decide (f.dkind ≠ 3 ∧ f.skind ≠ 3 ∧ f.op.toNat ≤ 8 ∧ f.wen ≠ 0 ∧ f.route ≠ 3) &&
  (f.dkind.toNat ≠ kSite || decide (f.dest.toNat < 36)) && (f.dkind.toNat ≠ kHid || f.dest = 0) &&
  (f.skind.toNat ≠ kSite || decide (f.src.toNat < 36)) && (f.skind.toNat ≠ kHid || f.src = 0) &&
  (!granuleAddr f || decide (f.addr.toNat ≤ 98303))

/-- The core or site concerned by a discarded header with a usable DEST. -/
def State.lostFlit (s : State) (f : Flit) : State :=
  if f.dkind.toNat = kCore then s.lostCore f.dest.toNat false
  else if f.skind.toNat = kCore then s.lostCore f.src.toNat false
  else s.lostAll

/-- A discarded header: counted, recorded, and its data LOST (R245, R429). -/
def State.badHeader (s : State) (r link : Nat) (f : Flit) (usable : Bool) : State :=
  let s1 := (s.bumpRouter r (5 + link) 1).record .flitHeaderBad (.core r) [(2, r), (1, link), (1, f.vc.toNat)]
  let s2 := if usable then s1.lostFlit f else s1.lostAll
  s2.routerFault r

/-- The flit at the head of a buffer of one input of a router. -/
def State.headAt (s : State) (r link : Nat) (f : Flit) : Option Flight :=
  s.net.flights.find? (fun x => x.at_ = r && x.link = link && x.flit = f && !x.seam && headsBuffer s.net.flights x)

/-- A flit leaves the network at a router that absorbs it; its credit returns. -/
def State.absorb (s : State) (x : Flight) : State := ((s.leave x).refill x.at_).noteDrains

/-- A router routes the flit that its output grants; another waits (R248, R250, R251). -/
def State.routeFlit (s : State) (x : Flight) : State :=
  if s.toLost x.flit then (s.absorb x).absorbAt x.at_
  else
    match s.hopOf x with
    | none => s
    | some p => if s.granted x.at_ (outputTo x.at_ p.2.at_) = some p then s.hopTo p else s

/-- A router receives a flit on a link and routes it (R245, R248, R250). -/
def execFlitForward (router : CoreIx) (link : Fin 6) (hdr : HeaderState) (f : Flit) (s : State) :
    Host.Outcome State Fault Refusal :=
  let r := router.toNat
  let l := link.val
  let t := s.refill r
  .next (if !s.forwards r then s
    else
      match t.headAt r l f with
      | none => t
      | some x =>
        if l < 5 && hdr = .uncorrectable then (t.absorb x).badHeader r l f false
        else if l < 5 && !flitFieldsOk f then (t.absorb x).badHeader r l f (decide (f.dkind ≠ 3))
        else
          let u := if l < 5 && hdr = .corrected then (t.bumpRouter r l 1).health hLink (8192 + r) else t
          u.routeFlit x)

def execNetBackpressure (unit : UnitId) (vc : BitVec 3) (s : State) : Host.Outcome State Fault Refusal :=
  .next (match unit with
    | .core c => s.record .netBackpressure (.field (fieldOf c.toNat)) [(1, kCore), (2, c.toNat), (1, vc.toNat)]
    | .site i => s.record .netBackpressure (.field (fieldOf (s.attachCore i.val 0))) [(1, kSite), (2, i.val), (1, vc.toNat)]
    | .hid => s.record .netBackpressure (.field (fieldOf hidCore)) [(1, kHid), (2, 0), (1, vc.toNat)])

/-! ### Delivery -/

/-- The increment of a LAST flit (R243, R274). -/
def State.lastInc (s : State) (c : Nat) (f : Flit) : State := if f.last then s.semInc c f.sem.toNat 1 2 else s

/-- A word that arrives uncorrectable is not written, and its data are LOST (R46, R239). -/
def State.badArrival (s : State) (c addr : Nat) : State :=
  (s.record .streamUncorrectable (.core c) [(2, c), (1, 0xFF), (8, addr)]).lostCore c false

/-- Write one enabled word of a flit. -/
def State.writeWord (s : State) (c w : Nat) (f : Flit) : State × Bool :=
  if !f.wen.getLsbD w then (s, true)
  else
    match flitWord f w with
    | some b => (s.store (windowAddr c (64 * f.addr.toNat + 32 * w)) b.1, true)
    | none => (s, false)

/-- WRITE: its words, then its increment; data of a stream's request go where the row puts them (R244, R231). -/
def execWrite (f : Flit) (s : State) : Host.Outcome State Fault Refusal :=
  .next (s.atCore f opWrite (fun t c =>
    let ours := decide (f.skind.toNat ≠ kCore)
    match (if ours then (t.core c).xferAt f.peer f.addr.toNat else none),
      (if ours then (t.core c).requestAt f.peer f.addr.toNat else none) with
    | some q, _ => t.xferGranule c q.1 q.2 f
    | none, some q => t.landGranule c q.1 q.2 f
    | none, none =>
      if 98303 < f.addr.toNat then t.unexpected f
      else
        let a := t.writeWord c 0 f
        let b := a.1.writeWord c 1 f
        if a.2 && b.2 then b.1.lastInc c f
        else b.1.badArrival c (windowAddr c (64 * f.addr.toNat))))

/-- The sum of a granule is stored, counted, and a candidate of the sampled checks (R136, R416, R421). -/
def State.addGranule (s : State) (c off : Nat) (old p : List Byte) : State :=
  let q := memAdds (wordsOfBytes old) (wordsOfBytes p)
  let o := (s.core c).addOrdinal
  let s1 := (s.store (windowAddr c off) (bytesOfWords q.1)).modCore c (fun k => { k with addOrdinal := o + 1 })
  let s2 := if q.2 = 0 then s1 else s1.bumpRouter c 11 q.2
  State.copyDrawn (s2.candidate ckAdd 0 c o 3 true) c (old ++ p ++ bytesOfWords q.1)

/-- A granule whose old content does not read is not added to (R46). -/
def State.addUncorrectable (s : State) (c : Nat) : State :=
  ((s.record .spadUncorrectable (.core c) []).classify c cpSpad 0 0xFFFF false).lostCore c true

/-- A granule to add: the addition goes on where the old content has been read (R136, R46). -/
def addArrival (q : State × Option (List Byte)) (c off : Nat) (p : List Byte) (f : Flit) : State :=
  match q.2 with
  | none => q.1.addUncorrectable c
  | some old => (q.1.addGranule c off old p).lastInc c f

/-- ADD32: 16 elements added in arrival order into bank D (R136). -/
def execAdd32 (f : Flit) (s : State) : Host.Outcome State Fault Refusal :=
  .next (s.atCore f opAdd32 (fun t c =>
    let off := 64 * f.addr.toNat
    if !inBank 3 off 64 then t.unexpected f
    else
      match flitPayload f with
      | none => t.badArrival c (windowAddr c off)
      | some p => addArrival (t.spadRead c off 64) c off p f))

/-- SEMINC (R202, R244). -/
def execSeminc (f : Flit) (s : State) : Host.Outcome State Fault Refusal :=
  .next (s.atCore f opSeminc (fun t c => t.semInc c f.sem.toNat (f.field 0 2) 1))

/-! ### Rings (R258 to R264) -/

/-- The group that a flit's VC carries and the core's entry for it. -/
def State.ringOf (s : State) (c : Nat) (f : Flit) : Option (Nat × RingEntry) :=
  (s.groupOfVc f.vc.toNat).map (fun g => (g, (s.core c).ring g))

/-- One landed word: written, or poisoned where it is not delivered (R260, R264). -/
def State.landRed (s : State) (c off w : Nat) (f : Flit) : State :=
  let a := windowAddr c (off + 32 * w)
  match flitWord f w with
  | some b => s.store a b.1
  | none => (s.store a ((f.payload.drop (32 * w)).take 32)).poison a 32

/-- RED lands in a member's landing area, or reaches an I/O die site (R260, R400). -/
def execRed (f : Flit) (s : State) : Host.Outcome State Fault Refusal :=
  .next (if f.op.toNat ≠ opRed then s
    else if f.dkind.toNat = kSite && s.isIo f.dest.toNat then s.onArrival f (fun t => t.siteGranule f.dest.toNat f false)
    else s.atCore f opRed (fun t c =>
      match t.ringOf c f with
      | none => t.unexpected f
      | some (g, e) =>
        if e.role ≠ 2 && e.role ≠ 3 then t.unexpected f
        else
          let j := (t.core c).join g
          let off := e.landOff + 64 * j.nextSlot
          ((t.landRed c off 0 f).landRed c off 1 f).modCore c (fun k => k.setJoin g { k.join g with
            landed := j.landed ++ [(f.addr.toNat, j.nextSlot)]
            nextSlot := (j.nextSlot + 1) % e.landLen
            pred := f.src.toNat })))

/-- RCREDIT returns landing credits (R260). -/
def execRcredit (f : Flit) (s : State) : Host.Outcome State Fault Refusal :=
  .next (s.atCore f opRcredit (fun t c =>
    match t.ringOf c f with
    | none => t.unexpected f
    | some (g, e) =>
      if e.role = 0 then t.unexpected f
      else t.modCore c (fun k => k.setJoin g { k.join g with credits := (k.join g).credits + f.addr.toNat })))

/-- STRICT acts at I/O die sites alone (R400, R612). -/
def execStrict (f : Flit) (s : State) : Host.Outcome State Fault Refusal :=
  .next (if f.op.toNat ≠ opStrict then s
    else if f.dkind.toNat = kSite && s.isIo f.dest.toNat then s.onArrival f (fun t => t.siteGranule f.dest.toNat f true)
    else s.onArrival f (fun t => t.unexpected f))

/-- One element of a ring sum, and whether it saturated (R262). -/
def ringAdd (a b : Nat) : Nat × Bool :=
  let w := ((decodeWide fmtBF16 a).add (decodeWide fmtBF16 b)).toSat fmtFP32 none
  let y := (decodeWide fmtFP32 w.1).toSat fmtBF16 none
  (y.1, w.2 || y.2)

/-- BF16 elements of bytes. -/
def halvesOf (bs : List Byte) : List Nat := (List.range (bs.length / 2)).map (fun i => leNat ((bs.drop (2 * i)).take 2))

/-- The sum of two granules, with its saturations; those of a word that goes poisoned do not count (R262, R264). -/
def ringSum (a b : List Byte) (bad : List Nat) : List Byte × Nat :=
  let l := List.zipWith ringAdd (halvesOf a) (halvesOf b)
  (l.flatMap (fun p => leBytes 2 p.1), (l.zipIdx.filter (fun p => p.1.2 && !bad.contains (p.2 / 16))).length)

/-- Words of a landed granule that are not delivered. -/
def State.badWords (s : State) (c off : Nat) : List Nat :=
  [0, 1].filter (fun w => (s.checkWords [windowAddr c (off + 32 * w) / 32]).bad.isSome)

/-- The flit that a join sends on. -/
def joinFlit (c g : Nat) (e : RingEntry) (seq : Nat) (sum : List Byte) (bad : List Nat) : Flit :=
  bad.foldl (fun f w => f.poisonWord w)
    (mkFlit (vcOfGroup g) (if e.skd = 1 then kSite else kCore) e.succ kCore c opRed (seq % 2 ^ 17) sum)

/-- The context whose CONTRIB stream feeds a group's join (R423). -/
def Core.joinCtx (c : Core) (g : Nat) : Nat :=
  match (List.range 32).find? (fun n => (c.stream n).desc.kind = dkContrib && (c.stream n).desc.site = g) with
  | some n => (c.stream n).ctx
  | none => 3

/-- A pair of a join is summed and sent on, and its landing slot is freed (R260 to R264). `lost` names the words of the local
granule that the join finds uncorrectable. -/
def State.joinPair (s : State) (c g : Nat) (e : RingEntry) (j : Join) (slot seq : Nat) (mine : List Byte) (lost : BitVec 2) :
    State :=
  let off := e.landOff + 64 * slot
  let bad := [0, 1].filter (fun w => (s.badWords c off).contains w || lost.getLsbD w)
  let a := windowAddr c off
  let q := s.checkWords (wordsOf a 64)
  let s1 := q.corrected.foldl (fun t w => t.noteCorrected c w) s
  let sum := ringSum (s1.delivered a 64) mine bad
  let freed := j.freed + 1
  let j1 : Join := { j with
    landed := j.landed.drop 1
    locals := j.locals.drop 1
    freed := if 16 ≤ freed then 0 else freed
    credits := j.credits - 1
    pairs := j.pairs + 1 }
  let s2 := (s1.modCore c (fun k => k.setJoin g j1)).sendFromCore c (joinFlit c g e seq sum.1 bad)
  let s3 := if 16 ≤ freed then s2.sendFromCore c (mkFlit (vcOfGroup g) kCore j.pred kCore c opRcredit 16 []) else s2
  let s4 := if sum.2 = 0 then s3 else s3.bumpRouter c 11 sum.2
  let s5 := State.copyDrawn (s4.candidate ckJoin g c j.pairs ((s.core c).joinCtx g) true) c (s1.delivered a 64 ++ mine ++ sum.1)
  if bad.isEmpty then s5
  else ((s5.record .flitUncorrectable (.core c) [(2, c), (1, g), (4, seq)]).lostCore c false).routerFault c

/-- The k-th local and the k-th landed granule meet (R261). -/
def execRingJoin (core : CoreIx) (pair : JoinPair) (s : State) : Host.Outcome State Fault Refusal :=
  let c := core.toNat
  let g := pair.group.toNat
  let e := (s.core c).ring g
  let j := (s.core c).join g
  .next (match j.landed, j.locals with
    | (q, slot) :: _, (k, mine) :: _ =>
      if q ≠ k % 2 ^ 17 then
        (s.record .ringMismatch (.core c) [(2, c), (1, g), (4, k), (4, q)]).failJobOf c
      else if j.credits = 0 then s
      else s.joinPair c g e j slot k mine pair.lost
    | _, _ => s)

/-! ### Completion records (R289, R396) -/

/-- SITE_DATA at a core is a completion record that the stream engine consumes; at an I/O die site it belongs to one of its
requests (R289, R397). -/
def execSiteData (f : Flit) (s : State) : Host.Outcome State Fault Refusal :=
  .next (if f.op.toNat ≠ opSiteData then s
    else if f.dkind.toNat = kSite && s.isStack f.dest.toNat then s
    else if f.dkind.toNat = kSite && s.isIo f.dest.toNat then s.onArrival f (fun t => t.ioArrive f.dest.toNat f)
    else if f.dkind.toNat = kHid then s.onArrival f (fun t => t.hidData f)
    else s.atCore f opSiteData (fun t c =>
      match flitWord f 0 with
      | none => t.badArrival c (windowAddr c 0)
      | some b =>
        let st := fieldAt b.1 0 1
        let id := fieldAt b.1 4 4
        let addr := fieldAt b.1 8 8
        match (t.core c).xferFor f.peer id addr, (t.core c).requestFor f.peer id addr with
        | some q, _ => t.xferRecord c q.1 q.2 st
        | none, some q => t.recordFor c q.1 q.2 st (fieldAt b.1 16 4)
        | none, none =>
          match (t.core c).contribFor f.peer addr with
          | some n => if st = 0 then t.unexpected f else t.faultAddress c n 0
          | none => t.unexpected f))

end Sys2Proof.Machine
end

