-- ==== Sys2Proof/Machine/Recovery.lean ====
section
/-! DEFINITION. Snapshots and restores: orders, captures, their destinations, and what a restore checks and writes
(spec/14 R444 to R457). -/

namespace Sys2Proof.Machine

/-! ### The snapshot image (R391, R392, R449, R450) -/

/-- The OWNED entries of a job manifest, in entry order. -/
def Job.ownedRegions (x : Job) : List MemRegion := x.regions.filter (fun r => r.kind = rkOwned)

/-- The fabric group record as held. -/
def FGroup.record (g : FGroup) (n : Nat) : List Byte :=
  let live := (List.range 128).map (fun i => BitVec.ofNat 8 (maskOf ((List.range 8).filter (fun b => g.live.contains (8 * i + b)))))
  leBytes 1 n ++ leBytes 1 g.servers.length ++ leBytes 2 g.member ++ leBytes 2 g.members ++ leBytes 2 0 ++
  leBytes 4 g.epoch ++ leBytes 4 0 ++ live ++ g.servers.flatMap (fun m => leBytes 6 m ++ leBytes 2 0)

def padTo (n : Nat) (b : List Byte) : List Byte := b ++ List.replicate ((n - b.length % n) % n) 0

/-- The job fabric record as held; FGROUP 0xFF where the job context is not bound. -/
def Job.fabricRecord (x : Job) : List Byte :=
  leBytes 1 (x.fgroup.getD 0xFF) ++ leBytes 1 x.zunit ++ leBytes 2 x.owned.length ++ leBytes 12 0 ++
    x.owned.flatMap OwnedRange.toBytes

def Job.stepBlock (x : Job) : List Byte :=
  let l := x.layout
  leBytes 4 (x.version + 1) ++ leBytes 1 x.zunit ++ leBytes 1 ((l.map (·.groups.length)).getD 0) ++
  leBytes 1 ((l.map (·.phase)).getD 0) ++ leBytes 1 (x.active.getD 0xFF) ++ leBytes 4 x.variants.length ++ leBytes 4 0

/-- A communication group entry. -/
def Group.entryBytes (g : Group) : List Byte :=
  let vc := if g.group = 7 then 0 else g.group
  leBytes 1 g.group ++ leBytes 1 (if g.strict then 1 else 0) ++ leBytes 1 vc ++ leBytes 1 g.site ++
  leBytes 2 g.members.length ++ leBytes 2 (g.members.headD 0) ++ leBytes 2 (g.members.getLast?.getD 0) ++
  leBytes 2 (siteCredits g.strict g.members.length) ++ leBytes 4 0

def State.groupManifest (s : State) (x : Job) : List Byte :=
  (match x.fgroup.bind (fun n => (s.group n).map (fun g => g.record n)) with
   | some b => padTo 16 b
   | none => []) ++ x.fabricRecord ++ x.stepBlock ++ ((x.layout.map (·.groups)).getD []).flatMap Group.entryBytes

/-- The member ID and the epoch of a job context's binding. -/
def State.memberOf (s : State) (x : Job) : Nat := ((x.fgroup.bind s.group).map (·.member)).getD 0
def State.epochOf (s : State) (x : Job) : Nat := ((x.fgroup.bind s.group).map (·.epoch)).getD 0

/-- The whole snapshot of a job context. -/
def State.snapBytes (s : State) (j level generation : Nat) (data : List Byte) : List Byte :=
  let x := s.job j
  let list := x.ownedRegions.flatMap MemRegion.toBytes
  let man := s.groupManifest x
  let body := list ++ man ++ data
  leBytes 4 0x58445346 ++ leBytes 2 1 ++ leBytes 1 level ++ leBytes 1 j ++ leBytes 4 generation ++ leBytes 4 x.version ++
  leBytes 8 s.time ++ leBytes 2 (s.memberOf x) ++ leBytes 1 (x.fgroup.getD 0xFF) ++ leBytes 1 x.ownedRegions.length ++
  leBytes 4 (s.epochOf x) ++ leBytes 8 data.length ++ leBytes 4 man.length ++ leBytes 4 0 ++
  sha48 body ++ leBytes 32 0 ++ body

/-! ### Orders (R446, R447) -/

def execSnapshot (ring : Fin 64) (s : State) : Host.Outcome State Fault Refusal :=
  .next (s.takeCommand ring.val ocSnapshot (fun c t =>
    let level := c.e.arg0 % 4
    let j := c.e.job
    if level = 0 then t.done c stMalformed 0 0
    else
      let t1 : State := { t with recov := { t.recov with maxInterval := Tab.set 0 t.recov.maxInterval (4 * j + level) c.e.arg1 } }
      t1.orderSnapshot j level [(c.ring, c.id)]))

def execSnapshotInterval (job : Fin 8) (level : Fin 4) (s : State) : Host.Outcome State Fault Refusal :=
  .next (if Tab.get 0 s.recov.maxInterval (4 * job.val + level.val) = 0 then s else s.orderSnapshot job.val level.val [])

/-! ### Captures (R448, R451, R454) -/

/-- 1 GiB extents of a length. -/
def extentsOf (n : Nat) : Nat := ceilDiv n (2 ^ 30)

/-- Extents left for level-2 snapshots: the flash outside the partner slots (R452, R454). -/
def State.flashExtents (s : State) : Nat :=
  let slots := ((List.range 8).map (fun j => ((s.job j).partnerRegion.map (fun r => 3 * r.granules * 4096)).getD 0)).foldl (· + ·) 0
  (2 ^ 44 - slots) / 2 ^ 30

def State.flashUsed (s : State) : Nat := (s.recov.flash.map (fun f => extentsOf f.bytes.length)).foldl (· + ·) 0

/-- Free the oldest level-2 snapshots of a job context, never its newest, until n extents are free; none where they are
not (R454). -/
def State.freeFlash (s : State) (j n : Nat) : Nat → Option State
  | 0 => none
  | k + 1 =>
    if s.flashUsed + n ≤ s.flashExtents then some s
    else
      match s.recov.flash.filter (fun f => f.job = j) with
      | f :: _ :: _ => ({ s with recov := { s.recov with flash := s.recov.flash.erase f } }).freeFlash j n k
      | _ => none

/-- The data of a snapshot: each OWNED region's bytes, in list order; none where a word is not delivered.
DESIGN CHOICE: at once (assumption log 25). -/
def State.capture (s : State) : List MemRegion → State × Option (List Byte)
  | [] => (s, some [])
  | r :: l =>
    let a := s.readStack r.base (r.granules * 4096)
    let b := a.1.capture l
    (b.1, match a.2, b.2 with
      | some x, some y => some (x ++ y)
      | _, _ => none)

/-- A snapshot run of a job context. -/
def State.runSnap (s : State) (j : Nat) (r : SnapRun) : State :=
  { s with recov := { s.recov with running := Tab.set none s.recov.running j (some r) } }

/-- A snapshot for flash: it runs where room has been found. -/
def State.flashSend (s : State) (room : Option State) (j : Nat) (r : SnapRun) : State :=
  match room with
  | some t => t.runSnap j r
  | none => s.snapFailed j r stResource

/-- A snapshot for a partner or a store: its bytes go out over the job's group. -/
def State.putSnap (s : State) (j : Nat) (r : SnapRun) : State :=
  match (s.job j).fgroup with
  | none => s.snapFailed j r stState
  | some g =>
    let m := s.memberOf (s.job j)
    let obj := if r.level = 1 then partnerObj m else storeObj m
    (s.runSnap j { r with left := blockOffsets r.bytes.length }).sendPuts s.firstUpSite g
      { msg mPartnerPut with obj := obj, count := m, version := r.generation } r.bytes 0 (ceilDiv r.bytes.length 4096)

/-- The snapshot goes to its destination. -/
def State.sendSnapshot (s : State) (j : Nat) (r : SnapRun) : State :=
  if r.level = 2 then s.flashSend (s.freeFlash j (extentsOf r.bytes.length) (s.recov.flash.length + 1)) j r
  else s.putSnap j r

/-- The first pending order starts: the capture is atomic, so no write waits behind it. -/
def State.startSnapshot (s : State) (j : Nat) (o : SnapOrder) (rest : List SnapOrder) : State :=
  let gen := Tab.get 0 s.recov.generation j + 1
  let s1 := ({ s with recov := { s.recov with generation := Tab.set 0 s.recov.generation j gen } }).setOrders j rest
  let r : SnapRun := { level := o.level, generation := gen, version := (s.job j).version, started := s.time, bytes := [],
                       left := [], by_ := o.by_ }
  match s1.capture (s.job j).ownedRegions with
  | (t, none) => t.snapFailed j r stFault
  | (t, some d) => t.sendSnapshot j { r with bytes := t.snapBytes j o.level gen d }

def execSnapshotStart (job : Fin 8) (s : State) : Host.Outcome State Fault Refusal :=
  let j := job.val
  .next (match s.snapOrders j with
    | [] => s
    | o :: rest =>
      match (s.job j).st with
      | .loaded | .running =>
        if (Tab.get none s.recov.running j).isSome || (s.job j).committing.isSome then s else s.startSnapshot j o rest
      | .quenched => s
      | _ => (o :: rest).foldl (fun a p => p.by_.foldl (fun b q => b.finish q.1 q.2 stState 0 0) a) (s.setOrders j []))

/-- A level-2 snapshot is in flash (R454). -/
def execFlashSnapshotDone (job : Fin 8) (s : State) : Host.Outcome State Fault Refusal :=
  let j := job.val
  .next (match Tab.get none s.recov.running j with
    | none => s
    | some r =>
      if r.level ≠ 2 then s
      else
        let f : FlashSnap := ⟨j, s.memberOf (s.job j), r.generation, r.version, r.bytes⟩
        ({ s with recov := { s.recov with flash := s.recov.flash ++ [f] } }).snapDone j r)

/-- The HID's copy of a partner generation into a slot ends (R452). -/
def execPartnerSlotCopied (job : Fin 8) (slot : Fin 3) (s : State) : Host.Outcome State Fault Refusal :=
  let j := job.val
  .next (if Tab.get none s.recov.copying j ≠ some slot.val then s
    else
      match Tab.get none s.recov.partner j, (s.job j).partnerRegion with
      | some c, some r =>
        let b := s.delivered r.base (snapTotal (s.bytes r.base 128))
        let f : FlashSnap := ⟨j, c.owner, c.generation, fieldAt b 12 4, b⟩
        { s with recov := { s.recov with
          copying := Tab.set none s.recov.copying j none
          slots := Tab.set none s.recov.slots (3 * j + slot.val) (some f) } }
      | _, _ => s)

/-! ### RESTORE (R455, R456) -/

/-- Extents of an ADOPT block: offset, length, destination. -/
def restoreExtents (b : List Byte) : List (Nat × Nat × Nat) :=
  (List.range (fieldAt b 8 2)).map (fun i => (fieldAt b (0x10 + 24 * i) 8, fieldAt b (0x18 + 24 * i) 8, fieldAt b (0x20 + 24 * i) 8))

/-- The block keeps its table (R491). -/
def Job.restoreOk (x : Job) (b : List Byte) : Bool :=
  let mode := fieldAt b 0 1
  let n := fieldAt b 8 2
  decide ((mode = 1 ∧ n = 0) ∨ (mode = 2 ∧ 1 ≤ n ∧ n ≤ 256)) && decide (1 ≤ fieldAt b 1 1 ∧ fieldAt b 1 1 ≤ 3) &&
  decide (fieldAt b 2 2 < 1024) && zeroAt b 10 6 &&
  (restoreExtents b).all (fun e => decide (1 ≤ e.2.1) && x.inKind rkOwned e.2.2 e.2.1)

/-- The snapshot that a flash restore names: the newest, or the newest of a generation. -/
def State.flashSnap (s : State) (j owner gen : Nat) : Option FlashSnap :=
  (s.recov.flash.filter (fun f => f.job = j && f.owner = owner && (gen = 0 || decide (f.generation = gen)))).getLast?

/-- The device asks for the snapshot (R456 step 1). -/
def State.fetchSnapshot (s : State) (j : Nat) (r : RestoreRun) : State :=
  let put (q : RestoreRun) (t : State) : State := t.modJob j (fun y => { y with st := .restoring, restore := some q })
  if r.source = 1 then
    match s.flashSnap j r.owner r.generation with
    | some f => put { r with got := [(0, f.bytes)] } s
    | none => put { r with failed := true } s
  else
    match (s.job j).fgroup with
    | none => put { r with failed := true } s
    | some g =>
      let obj := if r.source = 2 then partnerObj r.owner else storeObj r.owner
      (put r s).sendMsg s.firstUpSite g (objKey obj 0)
        { msg mPartnerGet with tag := r.taking % (2 ^ 24 - 1) + 1, obj := obj, count := 4096, version := r.generation }

def execRestore (ring : Fin 64) (s : State) : Host.Outcome State Fault Refusal :=
  .next (s.takeCommand ring.val ocRestore (fun c t =>
    let b := t.blockOf c.e
    if !(t.job c.e.job).restoreOk b then t.done c stMalformed 0 0
    else t.fetchSnapshot c.e.job
      { mode := fieldAt b 0 1, source := fieldAt b 1 1, owner := fieldAt b 2 2, generation := fieldAt b 4 4,
        extents := restoreExtents b, ring := c.ring, taking := c.id }))

/-! ### The end of a restore (R456, R457) -/

/-- The pieces in offset order, where they join from 0 on. -/
def joinPieces (ps : List (Nat × List Byte)) : List Byte → Nat → List Byte
  | acc, 0 => acc
  | acc, n + 1 =>
    match ps.find? (fun p => p.1 = acc.length && !p.2.isEmpty) with
    | some p => joinPieces ps (acc ++ p.2) n
    | none => acc

def RestoreRun.bytes (r : RestoreRun) : List Byte := joinPieces r.got [] r.got.length

/-- The header keeps R449. -/
def snapHeaderOk (b : List Byte) : Bool :=
  let n := fieldAt b 0x1B 1
  decide (fieldAt b 0 4 = 0x58445346 ∧ fieldAt b 4 2 = 1 ∧ 1 ≤ fieldAt b 6 1 ∧ fieldAt b 6 1 ≤ 3 ∧ fieldAt b 7 1 ≤ 7 ∧
    fieldAt b 0x18 2 < 1024 ∧ 1 ≤ n ∧ n ≤ 64 ∧ fieldAt b 0x28 4 % 16 = 0) && zeroAt b 0x2C 4 && zeroAt b 0x60 32 &&
  decide (fieldAt b 0x20 8 = ((List.range n).map (fun i => 4096 * fieldAt b (128 + 16 * i + 8) 4)).foldl (· + ·) 0)

/-- The region list's bases and granules. -/
def snapRegions (b : List Byte) : List (Nat × Nat) :=
  (List.range (fieldAt b 0x1B 1)).map (fun i => (fieldAt b (128 + 16 * i) 8, fieldAt b (128 + 16 * i + 8) 4))

def snapData (b : List Byte) : List Byte := b.drop (128 + 16 * fieldAt b 0x1B 1 + fieldAt b 0x28 4)

/-- The status of R456 step 2, where a check fails. -/
def State.restoreCheck (s : State) (j : Nat) (r : RestoreRun) (b : List Byte) : Option Nat :=
  let x := s.job j
  if !snapHeaderOk b then some stMalformed
  else if r.mode = 1 && (fieldAt b 0x18 2 ≠ s.memberOf x || fieldAt b 0x1A 1 ≠ x.fgroup.getD 0xFF ||
      snapRegions b ≠ x.ownedRegions.map (fun q => (q.base, q.granules))) then some stState
  else if r.mode = 2 && fieldAt b 12 4 ≠ x.version then some stState
  else if s.epochOf x < fieldAt b 0x1C 4 then some stState
  else if r.mode = 2 && !r.extents.all (fun e => decide (e.1 + e.2.1 ≤ fieldAt b 0x20 8)) then some stMalformed
  else none

/-- Where the data goes: destination and bytes. -/
def RestoreRun.writes (r : RestoreRun) (b : List Byte) : List (Nat × List Byte) :=
  let d := snapData b
  if r.mode = 1 then
    ((snapRegions b).foldl (fun (a : List (Nat × List Byte) × Nat) q =>
      (a.1 ++ [(q.1, (d.drop a.2).take (4096 * q.2))], a.2 + 4096 * q.2)) ([], 0)).1
  else r.extents.map (fun e => (e.2.2, (d.drop e.1).take e.2.1))

/-- A restore that fails: the command's status, and FAILED (R457). DEDUCED (assumption log 40). -/
def State.restoreFails (s : State) (j : Nat) (r : RestoreRun) (step : Nat) : State :=
  let s1 := s.record .restoreFailed .hid [(1, j), (1, step), (1, stMalformed)]
  (s1.modJob j (fun y => { y with st := .failed, restore := none })).finish r.ring r.taking stMalformed 0 0

/-- A digest that does not match leaves the written bytes undefined. DESIGN CHOICE: free bytes (assumption log 19). -/
def State.scramble (s : State) (ws : List (Nat × List Byte)) : State :=
  let t := ws.foldl (fun a w => a.store w.1 ((List.range w.2.length).map (fun i => Config.undefinedByte s.freeIndex (w.1 + i)))) s
  { t with freeIndex := s.freeIndex + 1 }

/-- The data is written and verified; OWN takes the snapshot's version (R456 steps 3 to 6). -/
def State.restoreWrite (s : State) (j : Nat) (r : RestoreRun) (b : List Byte) : State :=
  if !snapDigestOk b then (s.scramble (r.writes b)).restoreFails j r 4
  else
    let v := fieldAt b 12 4
    let s1 := (r.writes b).foldl (fun a w => a.store w.1 w.2) s
    let s2 := if r.mode = 1 then
        (s1.modCores (s1.job j).cores (fun c => { c with lastClean := 0 })).modJob j (fun y => { y with version := v, lastStep := some v, mfsStep := v })
      else s1
    let s3 := s2.modJob j (fun y => { y with st := .loaded, restore := none })
    (s3.record .restoreDone .hid [(1, j), (1, r.mode), (1, r.source), (2, r.owner), (4, fieldAt b 8 4), (4, v)]).finish
      r.ring r.taking stDone 0 0

/-- Everything is fetched: check, write, verify. It waits while pieces are missing. -/
def State.restoreEnd (s : State) (j : Nat) (r : RestoreRun) : State :=
  let b := r.bytes
  if r.failed then s.restoreFails j r 1
  else if b.length < 128 then s
  else
    match s.restoreCheck j r b with
    | some st =>
      (s.modJob j (fun y => { y with st := .loaded, restore := none })).finish r.ring r.taking st 0 0
    | none => if b.length < snapTotal b then s else s.restoreWrite j r (b.take (snapTotal b))

def execRestoreDone (job : Fin 8) (s : State) : Host.Outcome State Fault Refusal :=
  .next (match (s.job job.val).restore with
    | none => s
    | some r => s.restoreEnd job.val r)

end Sys2Proof.Machine
end

