-- ==== Sys2Proof/Machine/Steps.lean ====
section
/-! DEFINITION. The training step: the STEP command and the transitions of a step (spec/11 R342 to R374). -/

namespace Sys2Proof.Machine

/-! ### The step block (R342, R343) -/

def parseStep (bs : List Byte) (ring taking : Nat) : StepRun where
  n := fieldAt bs 0 4
  temper := decide (fieldAt bs 4 1 % 2 = 1)
  noclip := decide (fieldAt bs 4 1 / 2 % 2 = 1)
  osem := fieldAt bs 5 1
  dsem := fieldAt bs 6 1
  noff := fieldAt bs 8 4
  tau := fieldAt bs 12 4
  tokens := fieldAt bs 16 8
  btab := fieldAt bs 24 8
  btabn := fieldAt bs 32 4
  result := fieldAt bs 40 8
  ring := ring
  taking := taking

/-- Every field meets R342. -/
def stepFieldsOk (x : Job) (bs : List Byte) (r : StepRun) : Bool :=
  decide (1 ≤ r.n ∧ r.n ≤ 0xFFFFFFFE ∧ fieldAt bs 4 1 < 4 ∧ r.osem < 64 ∧ r.dsem < 64 ∧ r.osem ≠ r.dsem) &&
  zeroAt bs 7 1 && decide (r.noff % 64 = 0) && (inBank 2 r.noff 128 || inBank 3 r.noff 128) &&
  decide (if r.noclip then r.tau = 0 else 0 < r.tau ∧ r.tau < 0x7F800000) &&
  decide (1 ≤ r.tokens ∧ r.tokens ≤ 2 ^ 48 ∧ r.btab % 64 = 0 ∧ 1 ≤ r.btabn) &&
  x.inKind rkStaging r.btab (32 * r.btabn) && zeroAt bs 36 4 && decide (r.result % 64 = 0) && inHost r.result 64 &&
  zeroAt bs 48 16

/-- Buckets of a GRADIENT tensor with the bytes the module contributes to each (R348). -/
def Job.bucketsOf (x : Job) (l : Layout) (t : Tensor) : List SentBucket :=
  let size := l.outbound t
  (List.range (ceilDiv size x.z)).map (fun i => { bucket := t.bucket + i, bytes := min x.z (size - i * x.z) })

/-- Every bucket of the step. -/
def Job.stepBuckets (x : Job) : List SentBucket :=
  match x.layout with
  | none => []
  | some l => l.gradients.flatMap (fun t => x.bucketsOf l t)

/-- No two tensors share a bucket and none reaches the norm bucket (R343). -/
def Job.bucketsOk (x : Job) : Bool :=
  distinct (x.stepBuckets.map (·.bucket)) && x.stepBuckets.all (fun b => decide (b.bucket < normBucket))

/-- The number of buckets the module owns (R343). -/
def Job.ownedCount (x : Job) : Nat := x.owned.foldl (fun a r => a + r.count) 0

/-- The status of the first check of R343 that fails. -/
def Job.stepCheck (x : Job) (bs : List Byte) (r : StepRun) : Option Nat :=
  if !x.isLearn then some stState
  else if !stepFieldsOk x bs r || !x.bucketsOk then some stMalformed
  else if x.lastStep.any (fun p => decide (r.n ≠ p + 1)) then some stState
  else if r.btabn < x.ownedCount then some stResource
  else none

/-- A STEP that passes waits to open; the first one after JOB_LOAD sets V (R340, R344). -/
def Job.queueStep (x : Job) (r : StepRun) : Job :=
  { x with
    steps := x.steps ++ [r]
    version := if x.lastStep.isNone then r.n - 1 else x.version
    lastStep := some r.n }

def execStep (ring : Fin 64) (s : State) : Host.Outcome State Fault Refusal :=
  .next (s.takeCommand ring.val opcStep (fun c t =>
    let x := t.job c.e.job
    let bs := t.blockOf c.e
    let r := parseStep bs c.ring c.id
    match x.stepCheck bs r with
    | some st => t.done c st 0 0
    | none => (t.modJob c.e.job (fun y => y.queueStep r)).keepWaiting c))

/-! ### OPEN (R344 to R347, R350) -/

/-- The buckets a module owns, ascending, with the place of their data (R392). -/
def Job.ownedBuckets (x : Job) : List OwnedBucket :=
  let all := x.owned.flatMap (fun q => (List.range q.count).map (fun i => (q.first + i, q.base + i * x.z)))
  (all.mergeSort (fun a b => decide (a.1 ≤ b.1))).map (fun p => { bucket := p.1, gaddr := p.2 })

/-- A step may open (R344). It opens in a job context that runs a LEARN layout. DEDUCED (assumption log 48). -/
def Job.mayOpen (x : Job) : Bool :=
  x.st = .running && x.stopping.isNone && x.isLearn && x.openStep.isNone && decide (x.flying.length ≤ 1)

/-- GVER (R346). -/
def Job.gver (x : Job) : Nat := match x.committing with | some r => r.n | none => x.version

/-- What a core's control agent starts afresh when a step opens (R107, R201, R426, R435). -/
def Core.openStep (c : Core) (n : Nat) : Core :=
  { c with
    laneFails := 0
    passedSteps := c.passedSteps.filter (· ≠ n)
    failedSteps := c.failedSteps.filter (· ≠ n)
    sems := c.sems.map (fun p => (p.1, { p.2 with reported := false }))
    ctxs := c.ctxs.map (fun p => (p.1, { p.2 with firstNonfinite := false })) }

/-- The step as it opens. -/
def State.opened (s : State) (j : Nat) (r : StepRun) : StepRun :=
  let x := s.job j
  { r with
    st := .open_
    gver := x.gver
    openedAt := s.time
    owned := x.ownedBuckets
    sentBuckets := x.stepBuckets
    satBase := s.satRouters j }

/-- Entries of the bucket table beyond the owned buckets are zero (R347). DEDUCED (assumption log 48). -/
def State.clearTable (s : State) (r : StepRun) : State :=
  s.store (r.btab + 32 * r.owned.length) (List.replicate (32 * (r.btabn - r.owned.length)) 0)

def State.openStepOf (s : State) (j : Nat) (r : StepRun) : State :=
  let s1 := (s.job j).cores.foldl (fun a c => (a.resetCoreKept c).modCore c (fun x => x.openStep r.n)) s
  let q := s1.opened j r
  let s2 := (s1.setStep j q).modJob j (fun x => { x with
    mfsStep := r.n, dropped := false, latched := some (s.regs.enable, s.regs.rate) })
  let s3 := (s2.clearTable q).begun r.ring r.taking
  if (s.job j).dropped then s3.restartMicrobatch j r.n else s3.deliverOpen j q

def execStepOpen (job : Fin 8) (s : State) : Host.Outcome State Fault Refusal :=
  let j := job.val
  .next (match (s.job j).steps.find? (fun r => r.st = .waiting) with
    | none => s
    | some r => if (s.job j).mayOpen then s.openStepOf j r else s)

/-! ### BACKWARD_DONE and the norm contribution (R350, R353, R403) -/

/-- Every bucket is sent and confirmed, or missed; or the micro-batch is dropped. -/
def StepRun.allSent (r : StepRun) : Bool :=
  r.dropped || r.sentBuckets.all (fun b => (b.full && b.confirmed) || b.missed)

def execBackwardDone (job : Fin 8) (s : State) : Host.Outcome State Fault Refusal :=
  let j := job.val
  .next (match (s.job j).openStep with
    | none => s
    | some r =>
      if r.st = .open_ && r.allSent then
        let n := s.nonfiniteOf j [0, 1]
        ((s.clearNonfinite j [0, 1]).setStep j { r with st := .backwardDone, nonfin01 := n }).tryDecision j r.n
      else s)

/-- Tokens of the norm contribution (R353). -/
def StepRun.normTokens (r : StepRun) : Nat := if r.dropped then 0 else r.tokens

def StepRun.normPayload (r : StepRun) : List Byte :=
  leBytes 4 (sumOfSquares r.normM) ++ leBytes 4 (min (r.nonfin01 + r.siteNonfin) 0xFFFFFFFF) ++ leBytes 8 r.normTokens ++
  leBytes 16 0

def State.sendNorm (s : State) (j g : Nat) (r : StepRun) : State :=
  let tag := bucketTag j r.n normBucket
  let site := s.firstUpSite
  ((s.setStep j { r with normSent := true }).sendMsg site g normBucket
    { msg mContrib with tag := tag, count := r.normTokens, mflags := 4 + 16, payload := r.normPayload }).sendMsg site g normBucket
    { msg mConfirm with tag := tag, count := 1 }

def execNormContribution (job : Fin 8) (s : State) : Host.Outcome State Fault Refusal :=
  let j := job.val
  .next (match (s.job j).openStep, (s.job j).fgroup with
    | some r, some g =>
      if r.st = .backwardDone && !r.normSent && r.owned.all (·.written) then s.sendNorm j g r else s
    | _, _ => s)

/-! ### COMMITTED (R361, R374, R431, R435) -/

/-- The completion status of a committed step (R374). -/
def StepRun.status (r : StepRun) : Nat :=
  if r.dropped || r.missedSelf || r.fallback then stDegraded
  else if r.replays ≠ 0 || r.integrityReplays ≠ 0 || r.deathReplays ≠ 0 || r.passReplayed then stReplayed
  else stDone

/-- LAST_CLEAN after a step has committed (R435). -/
def Core.noteCommit (c : Core) (n : Nat) : Core :=
  { c with
    lastClean := if c.passedSteps.contains n && !c.failedSteps.contains n then n else c.lastClean
    passedSteps := c.passedSteps.filter (· ≠ n)
    failedSteps := c.failedSteps.filter (· ≠ n) }

def State.commitStep (s : State) (j : Nat) (r : StepRun) : State :=
  let q := { r with st := .committed }
  let s1 := (s.modJob j (fun x => { x with version := r.n })).setStep j q
  let s2 := (s1.modCores (s1.liveCores j) (fun c => c.noteCommit r.n)).bumpJob j 1 1
  let s3 := s2.record .stepCommitted .hid [(1, j), (4, r.n), (4, r.norm), (4, r.clip), (8, r.gtokens),
    (4, min ((s.time - r.openedAt) / 1000) 0xFFFFFFFF)]
  (s3.endStep j q r.status).commitOrder j

/-- Every owned publication is acknowledged, and no sampled check of the commit window is without a verdict. -/
def State.commitReady (s : State) (j : Nat) (r : StepRun) : Bool :=
  r.owned.all (·.published) && s.integ.checks.all (fun c => c.job ≠ j || !c.update)

def execCommitted (job : Fin 8) (s : State) : Host.Outcome State Fault Refusal :=
  let j := job.val
  .next (match (s.job j).committing with
    | none => s
    | some r =>
      if !s.commitReady j r then s
      else
        let n := s.nonfiniteOf j [2]
        let s1 := s.clearNonfinite j [2]
        match r.temperBad with
        | some b => s1.updateFault j r n b.1 b.2
        | none => if n = 0 then s1.commitStep j r else s1.updateFault j r n 0xFF 0)

/-! ### SKIPPED (R358) -/

/-- Zeros over every extent into which the step's data was placed, and over its entries of the bucket table. -/
def State.zeroPlaced (s : State) (r : StepRun) : State :=
  (r.placed ++ [(r.btab, 32 * r.owned.length)]).foldl (fun a e => a.store e.1 (List.replicate e.2 0)) s

def State.skipStep (s : State) (j : Nat) (r : StepRun) : State :=
  let q := { r with st := .skipped }
  let missed := (r.normIn.map (·.missed)).getD []
  let s1 := (s.zeroPlaced r).deliverRecord j (r.noff + 64) r.dsem (stepRecord 2 2 j (s.job j).version q)
  let s2 := ((s1.setStep j q).bumpJob j 2 1).record .stepSkipped .hid
    [(1, j), (4, r.n), (1, r.reason), (4, min r.nonfin 0xFFFFFFFF), (2, missed.length), (2, missed.headD 0xFFFF)]
  s2.endStep j q stSkipped

def execSkipped (job : Fin 8) (s : State) : Host.Outcome State Fault Refusal :=
  let j := job.val
  .next (match (s.job j).steps.find? (fun r => r.st = .normKnown && !r.commit) with
    | none => s
    | some r => s.skipStep j r)

end Sys2Proof.Machine
end

