-- ==== Sys2Proof/Machine/Dispatch.lean ====
section
/-! DEFINITION. One arm per command: its meaning, by name (spec/opcode_table.json). -/

namespace Sys2Proof.Machine

def exec (i : Instr) (s : State) : Host.Outcome State Fault Refusal :=
  match i with
  | .powerOn p => Sys2Proof.Machine.execPowerOn p s
  | .moduleReset p => Sys2Proof.Machine.execModuleReset p s
  | .conventionalReset => Sys2Proof.Machine.execConventionalReset s
  | .functionLevelReset => Sys2Proof.Machine.execFunctionLevelReset s
  | .ready => Sys2Proof.Machine.execReady s
  | .bootTimeout => Sys2Proof.Machine.execBootTimeout s
  | .linkDegraded width speed => Sys2Proof.Machine.execLinkDegraded width speed s
  | .powerStateD3hot => Sys2Proof.Machine.execPowerStateD3hot s
  | .powerStateD0 => Sys2Proof.Machine.execPowerStateD0 s
  | .msixUnmask vector => Sys2Proof.Machine.execMsixUnmask vector s
  | .doorbell ring value width => Sys2Proof.Machine.execDoorbell ring value width s
  | .cqCiWrite ring value width => Sys2Proof.Machine.execCqCiWrite ring value width s
  | .ring0Enable value => Sys2Proof.Machine.execRing0Enable value s
  | .ring0Disable value => Sys2Proof.Machine.execRing0Disable value s
  | .flagClear offset value width => Sys2Proof.Machine.execFlagClear offset value width s
  | .macbaseWrite value => Sys2Proof.Machine.execMacbaseWrite value s
  | .pcapWrite value => Sys2Proof.Machine.execPcapWrite value s
  | .registerWrite offset value width => Sys2Proof.Machine.execRegisterWrite offset value width s
  | .bar2Read offset len => Sys2Proof.Machine.execBar2Read offset len s
  | .bar2Write offset data => Sys2Proof.Machine.execBar2Write offset data s
  | .hello => Sys2Proof.Machine.execHello s
  | .response => Sys2Proof.Machine.execResponse s
  | .close => Sys2Proof.Machine.execClose s
  | .claim => Sys2Proof.Machine.execClaim s
  | .recover => Sys2Proof.Machine.execRecover s
  | .challengeExpiry principal => Sys2Proof.Machine.execChallengeExpiry principal s
  | .lockExpiry => Sys2Proof.Machine.execLockExpiry s
  | .sqFetch ring failed => Sys2Proof.Machine.execSqFetch ring failed s
  | .completionEntry ring => Sys2Proof.Machine.execCompletionEntry ring s
  | .ctimeExpiry ring => Sys2Proof.Machine.execCtimeExpiry ring s
  | .cqFull ring => Sys2Proof.Machine.execCqFull ring s
  | .ringCreate ring => Sys2Proof.Machine.execRingCreate ring s
  | .ringDelete ring => Sys2Proof.Machine.execRingDelete ring s
  | .windowSet ring => Sys2Proof.Machine.execWindowSet ring s
  | .firmwareUpdate ring => Sys2Proof.Machine.execFirmwareUpdate ring s
  | .keyProvision ring => Sys2Proof.Machine.execKeyProvision ring s
  | .securityVersion ring => Sys2Proof.Machine.execSecurityVersion ring s
  | .attest ring => Sys2Proof.Machine.execAttest ring s
  | .jobLoad ring => Sys2Proof.Machine.execJobLoad ring s
  | .jobEmpty ring => Sys2Proof.Machine.execJobEmpty ring s
  | .jobFabric ring => Sys2Proof.Machine.execJobFabric ring s
  | .fabricGroup ring => Sys2Proof.Machine.execFabricGroup ring s
  | .layoutLoad ring => Sys2Proof.Machine.execLayoutLoad ring s
  | .layoutDrop ring => Sys2Proof.Machine.execLayoutDrop ring s
  | .phaseSwitch ring => Sys2Proof.Machine.execPhaseSwitch ring s
  | .jobRun ring => Sys2Proof.Machine.execJobRun ring s
  | .jobStop ring => Sys2Proof.Machine.execJobStop ring s
  | .step ring => Sys2Proof.Machine.execStep ring s
  | .snapshot ring => Sys2Proof.Machine.execSnapshot ring s
  | .restore ring => Sys2Proof.Machine.execRestore ring s
  | .tokenPut ring => Sys2Proof.Machine.execTokenPut ring s
  | .tokenGet ring => Sys2Proof.Machine.execTokenGet ring s
  | .counterRead ring => Sys2Proof.Machine.execCounterRead ring s
  | .traceConfig ring => Sys2Proof.Machine.execTraceConfig ring s
  | .eventRead ring => Sys2Proof.Machine.execEventRead ring s
  | .eventClear ring => Sys2Proof.Machine.execEventClear ring s
  | .cperRead ring => Sys2Proof.Machine.execCperRead ring s
  | .repairRead ring => Sys2Proof.Machine.execRepairRead ring s
  | .quench ring => Sys2Proof.Machine.execQuench ring s
  | .quenchRelease ring => Sys2Proof.Machine.execQuenchRelease ring s
  | .quenchRead ring => Sys2Proof.Machine.execQuenchRead ring s
  | .quenchCapture unit => Sys2Proof.Machine.execQuenchCapture unit s
  | .quenched timedOut => Sys2Proof.Machine.execQuenched timedOut s
  | .nop h => Sys2Proof.Machine.execNop h s
  | .halt h => Sys2Proof.Machine.execHalt h s
  | .fence h imm => Sys2Proof.Machine.execFence h imm s
  | .setrank h imm => Sys2Proof.Machine.execSetrank h imm s
  | .mfs h sd imm => Sys2Proof.Machine.execMfs h sd imm s
  | .add h sd sa sb => Sys2Proof.Machine.execAdd h sd sa sb s
  | .sub h sd sa sb => Sys2Proof.Machine.execSub h sd sa sb s
  | .and h sd sa sb => Sys2Proof.Machine.execAnd h sd sa sb s
  | .or h sd sa sb => Sys2Proof.Machine.execOr h sd sa sb s
  | .xor h sd sa sb => Sys2Proof.Machine.execXor h sd sa sb s
  | .sll h sd sa sb => Sys2Proof.Machine.execSll h sd sa sb s
  | .srl h sd sa sb => Sys2Proof.Machine.execSrl h sd sa sb s
  | .sra h sd sa sb => Sys2Proof.Machine.execSra h sd sa sb s
  | .mul h sd sa sb => Sys2Proof.Machine.execMul h sd sa sb s
  | .slt h sd sa sb => Sys2Proof.Machine.execSlt h sd sa sb s
  | .sltu h sd sa sb => Sys2Proof.Machine.execSltu h sd sa sb s
  | .addi h sd sa imm => Sys2Proof.Machine.execAddi h sd sa imm s
  | .andi h sd sa imm => Sys2Proof.Machine.execAndi h sd sa imm s
  | .ori h sd sa imm => Sys2Proof.Machine.execOri h sd sa imm s
  | .xori h sd sa imm => Sys2Proof.Machine.execXori h sd sa imm s
  | .slli h sd sa imm => Sys2Proof.Machine.execSlli h sd sa imm s
  | .srli h sd sa imm => Sys2Proof.Machine.execSrli h sd sa imm s
  | .srai h sd sa imm => Sys2Proof.Machine.execSrai h sd sa imm s
  | .lih h sd sa imm => Sys2Proof.Machine.execLih h sd sa imm s
  | .sld h sd sa imm => Sys2Proof.Machine.execSld h sd sa imm s
  | .sst h sa sb imm => Sys2Proof.Machine.execSst h sa sb imm s
  | .beq h sa sb offset => Sys2Proof.Machine.execBeq h sa sb offset s
  | .bne h sa sb offset => Sys2Proof.Machine.execBne h sa sb offset s
  | .blt h sa sb offset => Sys2Proof.Machine.execBlt h sa sb offset s
  | .bge h sa sb offset => Sys2Proof.Machine.execBge h sa sb offset s
  | .bltu h sa sb offset => Sys2Proof.Machine.execBltu h sa sb offset s
  | .bgeu h sa sb offset => Sys2Proof.Machine.execBgeu h sa sb offset s
  | .jal h sd offset => Sys2Proof.Machine.execJal h sd offset s
  | .jr h sa => Sys2Proof.Machine.execJr h sa s
  | .programIllegal h word => Sys2Proof.Machine.execProgramIllegal h word s
  | .mmul h w => Sys2Proof.Machine.execMmul h w s
  | .drain h w => Sys2Proof.Machine.execDrain h w s
  | .spill h w => Sys2Proof.Machine.execSpill h w s
  | .resume h w => Sys2Proof.Machine.execResume h w s
  | .tileVerdict core => Sys2Proof.Machine.execTileVerdict core s
  | .chainStep core entry => Sys2Proof.Machine.execChainStep core entry s
  | .vectorAdd h w => Sys2Proof.Machine.execVectorAdd h w s
  | .vectorSub h w => Sys2Proof.Machine.execVectorSub h w s
  | .vectorMul h w => Sys2Proof.Machine.execVectorMul h w s
  | .fma h w => Sys2Proof.Machine.execFma h w s
  | .min h w => Sys2Proof.Machine.execMin h w s
  | .max h w => Sys2Proof.Machine.execMax h w s
  | .abs h w => Sys2Proof.Machine.execAbs h w s
  | .neg h w => Sys2Proof.Machine.execNeg h w s
  | .cmpeq h w => Sys2Proof.Machine.execCmpeq h w s
  | .cmpne h w => Sys2Proof.Machine.execCmpne h w s
  | .cmplt h w => Sys2Proof.Machine.execCmplt h w s
  | .cmple h w => Sys2Proof.Machine.execCmple h w s
  | .sel h w => Sys2Proof.Machine.execSel h w s
  | .vectorAnd h w => Sys2Proof.Machine.execVectorAnd h w s
  | .vectorOr h w => Sys2Proof.Machine.execVectorOr h w s
  | .vectorXor h w => Sys2Proof.Machine.execVectorXor h w s
  | .iota h w => Sys2Proof.Machine.execIota h w s
  | .cvtBf h w => Sys2Proof.Machine.execCvtBf h w s
  | .cvtHf h w => Sys2Proof.Machine.execCvtHf h w s
  | .cvtFb h w => Sys2Proof.Machine.execCvtFb h w s
  | .cvtFh h w => Sys2Proof.Machine.execCvtFh h w s
  | .cvtFi h w => Sys2Proof.Machine.execCvtFi h w s
  | .cvtIf h w => Sys2Proof.Machine.execCvtIf h w s
  | .cvtWb h w => Sys2Proof.Machine.execCvtWb h w s
  | .rsum h w => Sys2Proof.Machine.execRsum h w s
  | .rsumsq h w => Sys2Proof.Machine.execRsumsq h w s
  | .rmax h w => Sys2Proof.Machine.execRmax h w s
  | .rmin h w => Sys2Proof.Machine.execRmin h w s
  | .rargmax h w => Sys2Proof.Machine.execRargmax h w s
  | .rargmin h w => Sys2Proof.Machine.execRargmin h w s
  | .compress h w => Sys2Proof.Machine.execCompress h w s
  | .expand h w => Sys2Proof.Machine.execExpand h w s
  | .exp2 h w => Sys2Proof.Machine.execExp2 h w s
  | .log2 h w => Sys2Proof.Machine.execLog2 h w s
  | .rcp h w => Sys2Proof.Machine.execRcp h w s
  | .rsqrt h w => Sys2Proof.Machine.execRsqrt h w s
  | .tanh h w => Sys2Proof.Machine.execTanh h w s
  | .wfma h w => Sys2Proof.Machine.execWfma h w s
  | .wadd h w => Sys2Proof.Machine.execWadd h w s
  | .pack h w => Sys2Proof.Machine.execPack h w s
  | .packW h w => Sys2Proof.Machine.execPackW h w s
  | .unpack h w => Sys2Proof.Machine.execUnpack h w s
  | .vld h w => Sys2Proof.Machine.execVld h w s
  | .vldH h w => Sys2Proof.Machine.execVldH h w s
  | .vst h w => Sys2Proof.Machine.execVst h w s
  | .vstH h w => Sys2Proof.Machine.execVstH h w s
  | .tqpop h => Sys2Proof.Machine.execTqpop h s
  | .sfetch h sa half => Sys2Proof.Machine.execSfetch h sa half s
  | .descriptorBlockAccepted core => Sys2Proof.Machine.execDescriptorBlockAccepted core s
  | .sstart h sa => Sys2Proof.Machine.execSstart h sa s
  | .sstop h sa => Sys2Proof.Machine.execSstop h sa s
  | .srearm h sa sb str => Sys2Proof.Machine.execSrearm h sa sb str s
  | .sstat h sd str => Sys2Proof.Machine.execSstat h sd str s
  | .streamGranule core str => Sys2Proof.Machine.execStreamGranule core str s
  | .streamChunkComplete core str => Sys2Proof.Machine.execStreamChunkComplete core str s
  | .semwait h w => Sys2Proof.Machine.execSemwait h w s
  | .waiterServed core sem => Sys2Proof.Machine.execWaiterServed core sem s
  | .semtry h w => Sys2Proof.Machine.execSemtry h w s
  | .semsig h w => Sys2Proof.Machine.execSemsig h w s
  | .semsigr h w => Sys2Proof.Machine.execSemsigr h w s
  | .semset h w => Sys2Proof.Machine.execSemset h w s
  | .semread h w => Sys2Proof.Machine.execSemread h w s
  | .ckmark h => Sys2Proof.Machine.execCkmark h s
  | .ckwait h sd => Sys2Proof.Machine.execCkwait h sd s
  | .nfread h sd clr => Sys2Proof.Machine.execNfread h sd clr s
  | .ckcmp h w => Sys2Proof.Machine.execCkcmp h w s
  | .starvationGuard core bank write requests => Sys2Proof.Machine.execStarvationGuard core bank write requests s
  | .scrubber core bank requests => Sys2Proof.Machine.execScrubber core bank requests s
  | .issueGuard core unit ready => Sys2Proof.Machine.execIssueGuard core unit ready s
  | .routerAgeGrant router out f => Sys2Proof.Machine.execRouterAgeGrant router out f s
  | .flitForward router link hdr f => Sys2Proof.Machine.execFlitForward router link hdr f s
  | .write f => Sys2Proof.Machine.execWrite f s
  | .add32 f => Sys2Proof.Machine.execAdd32 f s
  | .seminc f => Sys2Proof.Machine.execSeminc f s
  | .red f => Sys2Proof.Machine.execRed f s
  | .rcredit f => Sys2Proof.Machine.execRcredit f s
  | .strict f => Sys2Proof.Machine.execStrict f s
  | .ringJoin core pair => Sys2Proof.Machine.execRingJoin core pair s
  | .marker unit chan => Sys2Proof.Machine.execMarker unit chan s
  | .netBackpressure unit vc => Sys2Proof.Machine.execNetBackpressure unit vc s
  | .read f => Sys2Proof.Machine.execRead f s
  | .stackWrite f => Sys2Proof.Machine.execStackWrite f s
  | .stackWriteData f => Sys2Proof.Machine.execStackWriteData f s
  | .temper f => Sys2Proof.Machine.execTemper f s
  | .temperShareDone site => Sys2Proof.Machine.execTemperShareDone site s
  | .refresh site bank => Sys2Proof.Machine.execRefresh site bank s
  | .patrolScrub site word => Sys2Proof.Machine.execPatrolScrub site word s
  | .stackFenced site => Sys2Proof.Machine.execStackFenced site s
  | .gather f => Sys2Proof.Machine.execGather f s
  | .contribOpen f => Sys2Proof.Machine.execContribOpen f s
  | .publish f => Sys2Proof.Machine.execPublish f s
  | .siteData f => Sys2Proof.Machine.execSiteData f s
  | .microbatchReplay job => Sys2Proof.Machine.execMicrobatchReplay job s
  | .frameReceived port frame => Sys2Proof.Machine.execFrameReceived port frame s
  | .ack port frame => Sys2Proof.Machine.execAck port frame s
  | .heartbeat port frame => Sys2Proof.Machine.execHeartbeat port frame s
  | .membership port frame => Sys2Proof.Machine.execMembership port frame s
  | .gatherData port frame => Sys2Proof.Machine.execGatherData port frame s
  | .reduced port frame => Sys2Proof.Machine.execReduced port frame s
  | .bucketTableEntry job bucket => Sys2Proof.Machine.execBucketTableEntry job bucket s
  | .permute port frame => Sys2Proof.Machine.execPermute port frame s
  | .partnerPut port frame => Sys2Proof.Machine.execPartnerPut port frame s
  | .partnerGet port frame => Sys2Proof.Machine.execPartnerGet port frame s
  | .applied port frame => Sys2Proof.Machine.execApplied port frame s
  | .contrib site chunk => Sys2Proof.Machine.execContrib site chunk s
  | .confirm job => Sys2Proof.Machine.execConfirm job s
  | .retransmit site conn seq => Sys2Proof.Machine.execRetransmit site conn seq s
  | .ackTimer site conn => Sys2Proof.Machine.execAckTimer site conn s
  | .heartbeatInterval site => Sys2Proof.Machine.execHeartbeatInterval site s
  | .portDown port cause => Sys2Proof.Machine.execPortDown port cause s
  | .portRetrain port => Sys2Proof.Machine.execPortRetrain port s
  | .fabricBackpressure site => Sys2Proof.Machine.execFabricBackpressure site s
  | .fabricStall site => Sys2Proof.Machine.execFabricStall site s
  | .ioDieFenced site => Sys2Proof.Machine.execIoDieFenced site s
  | .stepOpen job => Sys2Proof.Machine.execStepOpen job s
  | .backwardDone job => Sys2Proof.Machine.execBackwardDone job s
  | .normContribution job => Sys2Proof.Machine.execNormContribution job s
  | .committed job => Sys2Proof.Machine.execCommitted job s
  | .skipped job => Sys2Proof.Machine.execSkipped job s
  | .coreFenced column prow cause => Sys2Proof.Machine.execCoreFenced column prow cause s
  | .columnShifted column => Sys2Proof.Machine.execColumnShifted column s
  | .shiftAbandoned column => Sys2Proof.Machine.execShiftAbandoned column s
  | .linkStageFailed field => Sys2Proof.Machine.execLinkStageFailed field s
  | .fallbackApplied job => Sys2Proof.Machine.execFallbackApplied job s
  | .sampledCheckVerdict check verdict => Sys2Proof.Machine.execSampledCheckVerdict check verdict s
  | .checkTimeout check => Sys2Proof.Machine.execCheckTimeout check s
  | .classificationResult core outcome => Sys2Proof.Machine.execClassificationResult core outcome s
  | .stressTestStart field => Sys2Proof.Machine.execStressTestStart field s
  | .stressTestEnd field passed => Sys2Proof.Machine.execStressTestEnd field passed s
  | .riskEstimate => Sys2Proof.Machine.execRiskEstimate s
  | .snapshotStart job => Sys2Proof.Machine.execSnapshotStart job s
  | .restoreDone job => Sys2Proof.Machine.execRestoreDone job s
  | .sensorSample values => Sys2Proof.Machine.execSensorSample values s
  | .powerSample mw feedA feedB => Sys2Proof.Machine.execPowerSample mw feedA feedB s
  | .powerWindow mw lowMv => Sys2Proof.Machine.execPowerWindow mw lowMv s
  | .opChanged half => Sys2Proof.Machine.execOpChanged half s
  | .fieldBank field => Sys2Proof.Machine.execFieldBank field s
  | .fieldActive field => Sys2Proof.Machine.execFieldActive field s
  | .fieldColdOrder field => Sys2Proof.Machine.execFieldColdOrder field s
  | .fieldCold field => Sys2Proof.Machine.execFieldCold field s
  | .coldReturn field => Sys2Proof.Machine.execColdReturn field s
  | .routeChanged field => Sys2Proof.Machine.execRouteChanged field s
  | .routeChangeAbandoned field => Sys2Proof.Machine.execRouteChangeAbandoned field s
  | .supplyDroop source mv => Sys2Proof.Machine.execSupplyDroop source mv s
  | .feedFault feed mv => Sys2Proof.Machine.execFeedFault feed mv s
  | .pllUnlock field => Sys2Proof.Machine.execPllUnlock field s
  | .firmwareFault processor => Sys2Proof.Machine.execFirmwareFault processor s
  | .timesync => Sys2Proof.Machine.execTimesync s
  | .traceSlot => Sys2Proof.Machine.execTraceSlot s
  | .mctpMessage message => Sys2Proof.Machine.execMctpMessage message s
  | .flashSnapshotDone job => Sys2Proof.Machine.execFlashSnapshotDone job s
  | .partnerSlotCopied job slot => Sys2Proof.Machine.execPartnerSlotCopied job slot s
  | .eventLogFlush => Sys2Proof.Machine.execEventLogFlush s
  | .supervisorRefresh field => Sys2Proof.Machine.execSupervisorRefresh field s
  | .snapshotInterval job level => Sys2Proof.Machine.execSnapshotInterval job level s
  | .drainLimitExceeded job => Sys2Proof.Machine.execDrainLimitExceeded job s

end Sys2Proof.Machine
end

