-- ==== Sys2Proof/Machine/Idle.lean ====
section
/-! DEFINITION. What time does when no command waits: the device clock, the halves' core clocks, and the work that the HID
and the supervisors go on with by themselves (spec/06 R188, spec/17 R522, R526, spec/08 R255, spec/10 R338, spec/15 R493). -/

namespace Sys2Proof.Machine

/-- Core clock cycles in 1 ns at an operating point, in tenths (R522). -/
def opTenths (op : Nat) : Nat :=
  match op with
  | 0 => 36 | 1 => 32 | 2 => 28 | 3 => 24 | 4 => 18 | _ => 12

/-- A half's clock runs for one nanosecond; for the part of a change of its point in which it is gated it stands (R527). -/
def Half.tick (h : Half) (now : Nat) : Half :=
  if h.clockStopped now then h else { h with cycles := h.cycles + opTenths h.op }

/-- What waits for a state of the device goes on where that state has come: a mode change, a stop, a re-sharding, a route
pause, a change of operating point, a drain, an injection. -/
def State.progress (s : State) : State :=
  if s.regs.st = .boot then s
  else
    let s1 := (List.range 8).foldl (fun a j => (a.stopProgress j).reshardProgress j) s
    s1.settleMode.tryPause.govern.noteDrains.admitAll.settleTokens

/-- One nanosecond without a command. DESIGN CHOICE (assumption log 2). -/
def State.idle (s : State) : State :=
  let s1 : State := { (s.setHalf 0 ((s.half 0).tick s.time)) with time := s.time + 1 }
  (s1.setHalf 1 ((s1.half 1).tick s.time)).progress

end Sys2Proof.Machine
end

