-- ==== Sys2Proof/Machine/Step.lean ====
section
/-! DEFINITION. One step of the block: the command at the front of the queue, or one nanosecond where none waits. -/

namespace Sys2Proof.Machine

/-- Take the first waiting command and carry it out with the rest of the queue; idle time passes otherwise.
DESIGN CHOICE: the idle nanosecond (assumption log 2). -/
def step (s : State) : Host.Outcome State Fault Refusal :=
  match s.pending with
  | [] => .next s.idle
  | c :: r => exec c { s with pending := r }

/-- The command that a table word spells, put at the front of the queue.
DESIGN CHOICE: no word spells one (assumption log 6). -/
def State.withFetchWord (s : State) (nbits w : Nat) : State :=
  match decodeTableWord nbits w with
  | some c => { s with pending := c :: s.pending }
  | none => s

end Sys2Proof.Machine
end

