-- ==== Sys2Proof/WellFormed.lean ====
section
/-! DEFINITION. The operands that a command may carry: those that the hardware can meet (spec/08 R243, spec/12 R377,
spec/15 R472, spec/17 R535). -/

namespace Sys2Proof

/-- A flit carries 64 bytes (R242). -/
def Flit.wf (f : Flit) : Bool := decide (f.payload.length = 64)

/-- A frame has 64 to 9,216 bytes (R377). -/
def Frame.wf (f : Frame) : Bool := decide (64 ≤ f.bytes.length ∧ f.bytes.length ≤ 9216)

/-- What a boot can meet (R550, R603). -/
def BootInputs.wf (p : BootInputs) : Bool :=
  decide (p.imageCheck ≤ 8) && p.failedSites.all (fun x => decide (x.1 < 512 ∧ x.2 < 9)) &&
  p.failedColumns.all (fun x => decide (x.col < 512 ∧ x.prow < 9 ∧ x.bank < 4 ∧ x.mac < (if x.bank < 2 then 32 else 16) ∧
    x.seg < 9 ∧ x.column < 256)) &&
  p.failedLinks.all (fun f => decide (f < 64)) && p.failedShims.all (fun f => decide (f < 64)) &&
  p.failedStacks.all (fun i => decide (i < 36)) && p.failedDies.all (fun i => decide (i < 36))

/-- Links that the endpoint trains to, in tenths of GT/s (R472). -/
def linkTrains (width speed : Nat) : Bool :=
  [4, 8, 16].contains width && [25, 50, 80, 160, 320, 640].contains speed

/-- Bytes of one host access to a register. -/
def accessWidth (n : Nat) : Bool := [1, 2, 4, 8].contains n

/-- The channels of a unit: 5 inbound links of a core, 7 of a site, 1 of the HID, of 8 VCs in 2 classes (R592, R593). -/
def UnitId.channels : UnitId → Nat
  | .core _ => 80
  | .site _ => 112
  | .hid => 16

/-- Words of one stack (R282). -/
def wordsOfStack : Nat := 72 * 2 ^ 30 / 32

/-- A command whose operands are in range. -/
def Instr.wf : Instr → Bool
  | .powerOn p => p.wf
  | .moduleReset p => p.wf
  | .conventionalReset => true
  | .functionLevelReset => true
  | .ready => true
  | .bootTimeout => true
  | .linkDegraded width speed => linkTrains width speed
  | .powerStateD3hot => true
  | .powerStateD0 => true
  | .msixUnmask _ => true
  | .doorbell _ _ width => accessWidth width
  | .cqCiWrite _ _ width => accessWidth width
  | .ring0Enable _ => true
  | .ring0Disable _ => true
  | .flagClear _ _ width => accessWidth width
  | .macbaseWrite _ => true
  | .pcapWrite _ => true
  | .registerWrite _ _ width => accessWidth width
  | .bar2Read offset len => decide (1 ≤ len ∧ len ≤ 4096 ∧ offset + len ≤ 2 ^ 34)
  | .bar2Write offset data => decide (1 ≤ data.length ∧ data.length ≤ 512 ∧ offset + data.length ≤ 2 ^ 34)
  | .hello => true
  | .response => true
  | .close => true
  | .claim => true
  | .recover => true
  | .challengeExpiry _ => true
  | .lockExpiry => true
  | .sqFetch _ _ => true
  | .completionEntry _ => true
  | .ctimeExpiry _ => true
  | .cqFull _ => true
  | .ringCreate _ => true
  | .ringDelete _ => true
  | .windowSet _ => true
  | .firmwareUpdate _ => true
  | .keyProvision _ => true
  | .securityVersion _ => true
  | .attest _ => true
  | .jobLoad _ => true
  | .jobEmpty _ => true
  | .jobFabric _ => true
  | .fabricGroup _ => true
  | .layoutLoad _ => true
  | .layoutDrop _ => true
  | .phaseSwitch _ => true
  | .jobRun _ => true
  | .jobStop _ => true
  | .step _ => true
  | .snapshot _ => true
  | .restore _ => true
  | .tokenPut _ => true
  | .tokenGet _ => true
  | .counterRead _ => true
  | .traceConfig _ => true
  | .eventRead _ => true
  | .eventClear _ => true
  | .cperRead _ => true
  | .repairRead _ => true
  | .quench _ => true
  | .quenchRelease _ => true
  | .quenchRead _ => true
  | .quenchCapture _ => true
  | .quenched _ => true
  | .nop _ => true
  | .halt _ => true
  | .fence _ _ => true
  | .setrank _ _ => true
  | .mfs _ _ _ => true
  | .add _ _ _ _ => true
  | .sub _ _ _ _ => true
  | .and _ _ _ _ => true
  | .or _ _ _ _ => true
  | .xor _ _ _ _ => true
  | .sll _ _ _ _ => true
  | .srl _ _ _ _ => true
  | .sra _ _ _ _ => true
  | .mul _ _ _ _ => true
  | .slt _ _ _ _ => true
  | .sltu _ _ _ _ => true
  | .addi _ _ _ _ => true
  | .andi _ _ _ _ => true
  | .ori _ _ _ _ => true
  | .xori _ _ _ _ => true
  | .slli _ _ _ _ => true
  | .srli _ _ _ _ => true
  | .srai _ _ _ _ => true
  | .lih _ _ _ _ => true
  | .sld _ _ _ _ => true
  | .sst _ _ _ _ => true
  | .beq _ _ _ _ => true
  | .bne _ _ _ _ => true
  | .blt _ _ _ _ => true
  | .bge _ _ _ _ => true
  | .bltu _ _ _ _ => true
  | .bgeu _ _ _ _ => true
  | .jal _ _ _ => true
  | .jr _ _ => true
  | .programIllegal _ _ => true
  | .mmul _ _ => true
  | .drain _ _ => true
  | .spill _ _ => true
  | .resume _ _ => true
  | .tileVerdict _ => true
  | .chainStep _ _ => true
  | .vectorAdd _ _ => true
  | .vectorSub _ _ => true
  | .vectorMul _ _ => true
  | .fma _ _ => true
  | .min _ _ => true
  | .max _ _ => true
  | .abs _ _ => true
  | .neg _ _ => true
  | .cmpeq _ _ => true
  | .cmpne _ _ => true
  | .cmplt _ _ => true
  | .cmple _ _ => true
  | .sel _ _ => true
  | .vectorAnd _ _ => true
  | .vectorOr _ _ => true
  | .vectorXor _ _ => true
  | .iota _ _ => true
  | .cvtBf _ _ => true
  | .cvtHf _ _ => true
  | .cvtFb _ _ => true
  | .cvtFh _ _ => true
  | .cvtFi _ _ => true
  | .cvtIf _ _ => true
  | .cvtWb _ _ => true
  | .rsum _ _ => true
  | .rsumsq _ _ => true
  | .rmax _ _ => true
  | .rmin _ _ => true
  | .rargmax _ _ => true
  | .rargmin _ _ => true
  | .compress _ _ => true
  | .expand _ _ => true
  | .exp2 _ _ => true
  | .log2 _ _ => true
  | .rcp _ _ => true
  | .rsqrt _ _ => true
  | .tanh _ _ => true
  | .wfma _ _ => true
  | .wadd _ _ => true
  | .pack _ _ => true
  | .packW _ _ => true
  | .unpack _ _ => true
  | .vld _ _ => true
  | .vldH _ _ => true
  | .vst _ _ => true
  | .vstH _ _ => true
  | .tqpop _ => true
  | .sfetch _ _ _ => true
  | .descriptorBlockAccepted _ => true
  | .sstart _ _ => true
  | .sstop _ _ => true
  | .srearm _ _ _ _ => true
  | .sstat _ _ _ => true
  | .streamGranule _ _ => true
  | .streamChunkComplete _ _ => true
  | .semwait _ _ => true
  | .waiterServed _ _ => true
  | .semtry _ _ => true
  | .semsig _ _ => true
  | .semsigr _ _ => true
  | .semset _ _ => true
  | .semread _ _ => true
  | .ckmark _ => true
  | .ckwait _ _ => true
  | .nfread _ _ _ => true
  | .ckcmp _ _ => true
  | .starvationGuard _ _ _ _ => true
  | .scrubber _ _ _ => true
  | .issueGuard _ _ _ => true
  | .routerAgeGrant _ _ _ => true
  | .flitForward _ _ _ f => f.wf
  | .write f => f.wf
  | .add32 f => f.wf
  | .seminc f => f.wf
  | .red f => f.wf
  | .rcredit f => f.wf
  | .strict f => f.wf
  | .ringJoin _ _ => true
  | .marker unit chan => decide (chan < unit.channels)
  | .netBackpressure _ _ => true
  | .read f => f.wf
  | .stackWrite f => f.wf
  | .stackWriteData f => f.wf
  | .temper f => f.wf
  | .temperShareDone _ => true
  | .refresh _ _ => true
  | .patrolScrub _ word => decide (word < wordsOfStack)
  | .stackFenced _ => true
  | .gather f => f.wf
  | .contribOpen f => f.wf
  | .publish f => f.wf
  | .siteData f => f.wf
  | .microbatchReplay _ => true
  | .frameReceived _ frame => frame.wf
  | .ack _ frame => frame.wf
  | .heartbeat _ frame => frame.wf
  | .membership _ frame => frame.wf
  | .gatherData _ frame => frame.wf
  | .reduced _ frame => frame.wf
  | .bucketTableEntry _ bucket => decide (bucket < 2 ^ 20)
  | .permute _ frame => frame.wf
  | .partnerPut _ frame => frame.wf
  | .partnerGet _ frame => frame.wf
  | .applied _ frame => frame.wf
  | .contrib _ _ => true
  | .confirm _ => true
  | .retransmit _ _ seq => decide (seq < 2 ^ 32)
  | .ackTimer _ _ => true
  | .heartbeatInterval _ => true
  | .portDown _ cause => decide (1 ≤ cause.val)
  | .portRetrain _ => true
  | .fabricBackpressure _ => true
  | .fabricStall _ => true
  | .ioDieFenced _ => true
  | .stepOpen _ => true
  | .backwardDone _ => true
  | .normContribution _ => true
  | .committed _ => true
  | .skipped _ => true
  | .coreFenced _ _ cause => decide (1 ≤ cause.val ∧ cause.val ≤ 6)
  | .columnShifted _ => true
  | .shiftAbandoned _ => true
  | .linkStageFailed _ => true
  | .fallbackApplied _ => true
  | .sampledCheckVerdict _ _ => true
  | .checkTimeout _ => true
  | .classificationResult _ _ => true
  | .stressTestStart _ => true
  | .stressTestEnd _ _ => true
  | .riskEstimate => true
  | .snapshotStart _ => true
  | .restoreDone _ => true
  | .sensorSample values => decide (values.length = 293)
  | .powerSample _ _ _ => true
  | .powerWindow _ _ => true
  | .opChanged _ => true
  | .fieldBank _ => true
  | .fieldActive _ => true
  | .fieldColdOrder _ => true
  | .fieldCold _ => true
  | .coldReturn _ => true
  | .routeChanged _ => true
  | .routeChangeAbandoned _ => true
  | .supplyDroop _ _ => true
  | .feedFault _ _ => true
  | .pllUnlock _ => true
  | .firmwareFault _ => true
  | .timesync => true
  | .traceSlot => true
  | .mctpMessage _ => true
  | .flashSnapshotDone _ => true
  | .partnerSlotCopied _ _ => true
  | .eventLogFlush => true
  | .supervisorRefresh _ => true
  | .snapshotInterval _ level => decide (1 ≤ level.val)
  | .drainLimitExceeded _ => true

end Sys2Proof
end

