-- ==== Sys2Proof/Safety.lean ====
section
/-! DEFINITION. The terms in which claims are made: safe states and safe steps, room in the event log and what it says last, and
what one context's instruction may change. -/

namespace Sys2Proof

open Sys2Proof.Machine

/-! ### Safe states and steps -/

/-- Memory and word codes are in canonical form, so that equal contents are equal data. -/
def MemoryOk (s : State) : Prop := Memory.wf s.mem = true ∧ Tab.wf 0 s.codeErr = true

/-- The registers, the recorder and the counters hold values of their ranges. -/
def RangesOk (s : State) : Prop := RegsOk s.regs ∧ ObsOk s.obs

/-- A step that goes on. -/
def Goes (s : State) : Prop := ∃ t, step s = .next t

/-! ### The event log (R594 to R598) -/

/-- The log takes n more records. -/
def LogRoom (s : State) (n : Nat) : Prop := s.obs.full = false ∧ s.obs.log.length + n ≤ logCapacity

/-- What the last record of a log says: event, kind and number of its source, payload. -/
def lastEvent (l : List Record) : Option (EventKind × Nat × Nat × List Byte) :=
  l.getLast?.map (fun r => (r.kind, r.skind, r.source, r.payload))

/-- The last record of the log is of this event. -/
def Logged (s : State) (k : EventKind) (src : Src) (items : List (Nat × Nat)) : Prop :=
  lastEvent s.obs.log = some (k, src.kind, src.num, payload items)

/-- Some record of the log is of this event. -/
def Recorded (s : State) (k : EventKind) (src : Src) (items : List (Nat × Nat)) : Prop :=
  ∃ r ∈ s.obs.log, (r.kind, r.skind, r.source, r.payload) = (k, src.kind, src.num, payload items)

/-- A CPER record names this kind, outcome and fence cause (R441, R442). -/
def Exported (s : State) (kind outcome fence : Nat) : Prop :=
  ∃ x ∈ s.integ.cper, fieldAt x.bytes 205 1 = kind ∧ fieldAt x.bytes 206 1 = outcome ∧ fieldAt x.bytes 207 1 = fence

/-! ### One context's instruction (R170 to R175) -/

/-- The context is RUNNING, waits for nothing, its PC lies in its code, and no unit has granted another context's head before
its own (R173, R175, R178, R183). -/
def HasHead (s : State) (h : Hart) : Prop :=
  let x := s.ctx h.core.toNat h.ctx.toNat
  x.st = .running ∧ x.wait = .none ∧ x.codeBase ≤ x.pc ∧ x.pc + 8 ≤ x.codeBase + x.codeLen ∧
  ∀ u, (s.core h.core.toNat).mayTake u h.ctx.toNat = true

/-- The issuing core once a unit has taken the context's head: the context is the unit's last one and is refused no more; the
sequencer keeps no such order (R178). -/
def Issued (s : State) (h : Hart) (u : Nat) : Core := (s.core h.core.toNat).tookHead u h.ctx.toNat

/-- Nothing has changed but trace records and one core. -/
def CoreOnly (s t : State) (c : Nat) : Prop :=
  t = { s with cores := t.cores, obs := t.obs } ∧
  t.obs = { s.obs with trace := t.obs.trace, trDrop := t.obs.trDrop } ∧
  ∀ d, d ≠ c → t.core d = s.core d

/-- The semaphore unit has taken the head: nothing has changed but trace records, one semaphore of the context's core, and the
context. -/
def SemStep (s t : State) (h : Hart) (m : Nat) (v : Sem) (y : Ctx) : Prop :=
  let c := h.core.toNat
  CoreOnly s t c ∧ t.core c = { Issued s h uSem with ctxs := (t.core c).ctxs, sems := (t.core c).sems } ∧
  (t.core c).sem m = v ∧ (∀ n, n ≠ m → (t.core c).sem n = (s.core c).sem n) ∧
  t.ctx c h.ctx.toNat = y ∧ ∀ k, k ≠ h.ctx.toNat → t.ctx c k = s.ctx c k

/-- A unit has taken the head: nothing has changed but trace records and one context of one core. -/
def ContextOnly (s t : State) (h : Hart) (u : Nat) : Prop :=
  CoreOnly s t h.core.toNat ∧
  t.core h.core.toNat = { Issued s h u with ctxs := (t.core h.core.toNat).ctxs } ∧
  ∀ k, k ≠ h.ctx.toNat → t.ctx h.core.toNat k = s.ctx h.core.toNat k

/-- A unit has taken the head, and the context goes on at a PC with one register written; a write to s0 is discarded (R171).
Nothing else has changed but trace records. -/
def Wrote (s t : State) (h : Hart) (u pc : Nat) (sd : Reg) (v : Word64) : Prop :=
  let x := s.ctx h.core.toNat h.ctx.toNat
  let y := t.ctx h.core.toNat h.ctx.toNat
  ContextOnly s t h u ∧ y = { (Issued s h u).ctx h.ctx.toNat with pc := pc, regs := y.regs } ∧
  y.reg sd.toNat = (if sd = 0 then 0 else v) ∧ ∀ r, r ≠ sd.toNat → y.reg r = x.reg r

/-- A unit has taken the head, and the context goes on at a PC; nothing else has changed but trace records. -/
def WentTo (s t : State) (h : Hart) (u pc : Nat) : Prop :=
  ContextOnly s t h u ∧ t.ctx h.core.toNat h.ctx.toNat = { (Issued s h u).ctx h.ctx.toNat with pc := pc }

/-! ### The matrix engine (R124, R175 to R177) -/

/-- A matrix head may be taken as the engine stands: the next place is free and open to its context, and a tile that holds at C
cannot leave yet. -/
def MatHead (s : State) (h : Hart) : Prop :=
  let k := s.core h.core.toNat
  HasHead s h ∧ k.matrixOpen h.ctx.toNat = true ∧ (k.atC.isSome = true → k.drain.isSome = true)

/-- The unit has taken a matrix head while the array is busy: it stands in the next place with its registers. -/
def StandsNext (s t : State) (h : Hart) (op : Nat) (w : MatWord) (unsafe_ : Bool) : Prop :=
  let c := h.core.toNat
  let x := s.ctx c h.ctx.toNat
  CoreOnly s t c ∧
  t.core c = { Issued s h uMatrix with ctxs := (t.core c).ctxs, matNext := some ⟨h.ctx.toNat, x.pc, op, w, x.regs⟩ } ∧
  t.ctx c h.ctx.toNat = { (Issued s h uMatrix).ctx h.ctx.toNat with pc := x.pc + 8, replayUnsafe := unsafe_ } ∧
  ∀ j, j ≠ h.ctx.toNat → t.ctx c j = s.ctx c j

/-! ### Vector instructions (R143 to R154, R194) -/

/-- A legal vector head may be taken: its count stands, and the tile it reads is READY (R143, R146, R148, R151). -/
def VecHead (o : VOp) (s : State) (h : Hart) (w : VecWord) : Prop :=
  let c := h.core.toNat
  let k := h.ctx.toNat
  HasHead s h ∧ vecLegal o w = true ∧ (o.updateOnly = true → 2 ≤ k) ∧ countCause o w (vecCount (s.ctx c k) w) = 0 ∧
  (usesQueue w = true → ((s.core c).headEntry k).isSome = true)

/-- The operands of a vector instruction as the state holds them (R146, R147, R151). -/
def vecView (s : State) (h : Hart) (w : VecWord) : VEnv :=
  let c := s.core h.core.toNat
  let x := c.ctx h.ctx.toNat
  ⟨c, x, ((c.headEntry h.ctx.toNat).map (fun e => (c.entry e).data)).getD [], w, vecCount x w⟩

/-- What a vector instruction leaves: every element of the tile registers and every scalar register as given, the NONFINITE
count grown, the head entry freed with POP once its flits have left, and its context at the next word. Nothing else has changed but
counters and records, and the sampled check that the state may then draw (R105, R144, R152, R416). -/
def VecLeft (s t : State) (h : Hart) (w : VecWord) (nonfin : Nat) (elems : Nat → Word32) (regs : Nat → Word64) : Prop :=
  let c := h.core.toNat
  let k := h.ctx.toNat
  let x := (Issued s h uVector).ctx k
  let freed (e : Nat) : TqEntry := if s.stillSends c e then { (s.core c).entry e with st := .sending } else {}
  (∀ i, Tab.get 0 (t.core c).tregs i = elems i) ∧ (∀ r, (t.ctx c k).reg r = regs r) ∧
  (∀ d, d ≠ c → t.core d = s.core d) ∧ (∀ j, j ≠ k → t.ctx c j = s.ctx c j) ∧
  ∃ r bs, (t = r ∨ t = r.vecSample c k bs) ∧
    (∀ e, (r.core c).entry e = (if w.pop = true ∧ (s.core c).headEntry k = some e then freed e else (s.core c).entry e)) ∧
    r.ctx c k = { x with
      pc := x.pc + 8, regs := (r.ctx c k).regs, firstNonfinite := (r.ctx c k).firstNonfinite
      nonfinite := (if nonfin = 0 then x.nonfinite else min (x.nonfinite + nonfin) (2 ^ 32 - 1)) } ∧
    r = { s with cores := r.cores, obs := r.obs, regs := r.regs } ∧
    r.core c = { Issued s h uVector with ctxs := (r.core c).ctxs, tregs := (r.core c).tregs, tq := (r.core c).tq }

/-- The tile registers with one group of them written (R143, R144). -/
def withGroup (old : Nat → Word32) (tb n : Nat) (f : Nat → Word32) : Nat → Word32 :=
  fun i => if 1024 * tb ≤ i ∧ i < 1024 * tb + n then f (i - 1024 * tb) else old i

/-- The tile registers of a context's core, and its scalar registers. -/
def tilesOf (s : State) (h : Hart) : Nat → Word32 := fun i => Tab.get 0 (s.core h.core.toNat).tregs i
def scalarsOf (s : State) (h : Hart) : Nat → Word64 := fun r => (s.ctx h.core.toNat h.ctx.toNat).reg r

/-- Scalar registers with one written; s0 stays 0 (R171). -/
def withReg (old : Nat → Word64) (sd : Nat) (v : Word64) : Nat → Word64 := fun r => if r = sd ∧ r ≠ 0 then v else old r

/-- A clean extent: every word of it is stored as its codeword (R43). -/
def CleanAt (s : State) (a n : Nat) : Prop := ∀ q ∈ wordsOf a n, s.errOf q = 0

/-! ### The wafer network (R250, R252) -/

/-- A flit stands at a router, or waits before it at its producer. -/
def InNet (t : State) (at_ : Nat) (f : Flit) : Prop := ∃ y ∈ t.net.flights ++ t.net.waiting, y.at_ = at_ ∧ y.flit = f

/-- Every core but for tile queue entries and drain buffers whose last flit has left (R126, R150). -/
def CoresKept (s t : State) : Prop := ∀ d, t.core d = { s.core d with tq := (t.core d).tq, drain := (t.core d).drain }

/-- A network step has let flits go on: between two states nothing has changed but the network, captures and counters, tile queue
entries and drain buffers whose last flit has left, shifts whose drain has ended, and token commands that are complete. -/
def NetMoved (s u : State) : Prop :=
  u = { s with net := u.net, cores := u.cores, obs := u.obs, wafer := u.wafer, host := u.host, regs := u.regs } ∧
  u.net.oos = s.net.oos ∧ u.wafer = { s.wafer with shifts := u.wafer.shifts } ∧ CoresKept s u

/-- READ requests for an extent stand in the network, and their granules are awaited (R134, R224, R287). -/
def Asked (t : State) (c k a n : Nat) (rs : List Request) : Prop :=
  rs.map (fun r => (r.addr, 64 * r.len)) = extentParts a n ∧
  ∀ r ∈ rs, r.left = r.len ∧ InNet t c (siteReqFlit c r.site (stackRequest 1 (k % 4) r.len r.addr r.doff 0))

/-! ### The fabric (R377 to R390) -/

/-- The connection on which a message has arrived. -/
def connOf (s : State) (q : RxMsg) : Conn := s.conn q.site q.group q.server

/-- A frame that passes every check of R377, R382 and R387 arrives on an UP port, with the next message of its connection, before
the CREDIT that the device last sent (R384). -/
def Arrives (s : State) (p : Nat) (bs : List Byte) (q : RxMsg) (typ : Nat) : Prop :=
  s.portState p = .up ∧ s.checkFrame p bs = .ok q ∧ q.m.typ = typ ∧ frameType bs = typ ∧ q.clean = true ∧ q.m.typeOk = true ∧
  (connOf s q).expect = q.m.seq ∧ (connOf s q).held = [] ∧ (connOf s q).sentCredit % 2 ^ 32 ≠ q.m.seq

/-- The requests by which an I/O die site reads or writes extents of stack memory stand in the network, the data of a WRITE with
them, and belong to one transfer for some work (R287, R288, R397). -/
def IoMoves (t : State) (site : Nat) (es : List (Nat × Nat)) (wr : Bool) (data : List Byte) (w : IoWork) : Prop :=
  let gate := t.attachCore site 0
  let ps := ioPieces es 0 ((es.map (fun e => e.2 / 4096 + 3)).foldl (· + ·) 0)
  ∃ x ∈ (t.ioSite site).xfers, x.work = w ∧ x.bad = 0 ∧ x.left = ps.length ∧
    x.data = (if wr then data else List.replicate ((es.map (·.2)).foldl (· + ·) 0) 0) ∧
    ∀ p ∈ ps, ∃ r ∈ (t.ioSite site).reqs, r.xfer = x.id ∧ r.write = wr ∧ r.got = 0 ∧ r.len = ceilDiv (p.1 % 64 + p.2.1) 64 ∧
      r.off = p.2.2 ∧ r.bytes = p.2.1 ∧ r.skip = p.1 % 64 ∧
      InNet t gate (mkFlit 7 kSite (t.stackOf p.1) kSite site opSiteReq 0
        (stackRequest (if wr then 2 else 1) 0 r.len (p.1 / 64 * 64) (if wr then 0 else ioTag r.no) (if wr then ioTag r.no else 0))) ∧
      (wr = true → ∀ d ∈ deliveryParts p.1 ((data.drop p.2.2).take p.2.1) 66,
        InNet t gate (ioDataFlit site (t.stackOf p.1) r.no d))

/-- A delivery of a site to a core stands in the network: its bytes, and one increment with the last (R234). -/
def Delivers (t : State) (site core off : Nat) (bs : List Byte) (sem : Nat) : Prop :=
  ∀ f ∈ deliveryFlits (.site site) core off bs (some sem), InNet t (t.attachCore site (core % 7)) f

/-- A message waits on a connection or has been sent on it, and is not yet acknowledged. -/
def Sends (t : State) (site g server : Nat) (m : Msg) : Prop :=
  ∃ x ∈ (t.conn site g server).queue ++ (t.conn site g server).unacked, x = { m with seq := x.seq, sends := x.sends }

/-- The message has been accepted in its order and answered with APPLIED (R384, R389). -/
def Replied (t : State) (q : RxMsg) (status : Nat) : Prop :=
  (connOf t q).expect = (q.m.seq + 1) % 2 ^ 32 ∧ Sends t q.site q.group q.server (appliedOf q.m status)

/-- A delivery of the HID to a core stands at its spur: its bytes, and one increment with the last (R234, R345). -/
def HidDelivers (t : State) (core off : Nat) (bs : List Byte) (sem : Nat) : Prop :=
  ∀ f ∈ deliveryFlits .hid core off bs (some sem), InNet t hidCore f

/-! ### What a command concerns -/

/-- The boot chain runs (R603, R553). -/
def bootCommand : Instr → Bool
  | .powerOn _ | .moduleReset _ | .recover => true
  | _ => false

/-- Sessions, keys, the security version or the image may change (R548 to R564, R608). -/
def securityCommand : Instr → Bool
  | .hello | .response | .close | .claim | .challengeExpiry _ | .lockExpiry | .keyProvision _ | .firmwareUpdate _
  | .securityVersion _ | .conventionalReset | .functionLevelReset => true
  | i => bootCommand i

/-- Ports, connections, fabric groups or I/O die sites may change (R377 to R414). -/
def fabricCommand : Instr → Bool
  | .ack _ _ | .ackTimer _ _ | .applied _ _ | .bucketTableEntry _ _ | .columnShifted _ | .confirm _ | .contrib _ _ | .contribOpen _
  | .fabricGroup _ | .fallbackApplied _ | .frameReceived _ _ | .gather _ | .gatherData _ _ | .heartbeat _ _
  | .heartbeatInterval _ | .ioDieFenced _ | .jobEmpty _ | .jobRun _ | .macbaseWrite _ | .membership _ _
  | .microbatchReplay _ | .normContribution _ | .partnerGet _ _ | .partnerPut _ _ | .permute _ _ | .phaseSwitch _
  | .portDown _ _ | .portRetrain _ | .publish _ | .red _ | .reduced _ _ | .registerWrite _ _ _ | .restore _
  | .retransmit _ _ _ | .shiftAbandoned _ | .siteData _ | .snapshotStart _ | .strict _ => true
  | i => bootCommand i

/-! ### Ring commands (R484 to R489) -/

/-- An entry at the head of a ring may be taken as a command of its opcode; the entry behind it names a command. -/
def AtHead (s : State) (r op : Nat) (x : Ring) (e : Entry) : Prop :=
  s.ring r = some x ∧ (∃ l, x.fetched = e :: l ∧ ∀ d, l.head? = some d → (cmdInfo d.opcode).isSome = true) ∧ e.opcode = op ∧
  s.mayTake x e = true ∧ ∀ u ∈ x.taken, u.id ≠ s.host.nextId

/-- It passes checks 1 to 4 of R489. -/
def Admitted (s : State) (r op : Nat) (x : Ring) (e : Entry) : Prop := AtHead s r op x e ∧ s.admission r x e = none

/-- The command has been taken as the newest of its ring, and stands there with a status and results (R485, R488). -/
def Ended (s t : State) (r : Nat) (x : Ring) (e : Entry) (status r0 r1 : Nat) : Prop :=
  ∃ ev, (status ≤ 2 → ev = 0) ∧ t.host.nextId = s.host.nextId + 1 ∧
    t.ring r = some { x with
      fetched := x.fetched.drop 1
      taken := x.taken ++ [{ id := s.host.nextId, entry := e, status := some status, result0 := r0, result1 := r1, evseq := ev }] }

/-- It has been taken and is being carried out. -/
def Begun (s t : State) (r : Nat) (x : Ring) (e : Entry) (waits : Bool) : Prop :=
  t.host.nextId = s.host.nextId + 1 ∧
  t.ring r = some { x with
    fetched := x.fetched.drop 1, taken := x.taken ++ [{ id := s.host.nextId, entry := e, waits := waits }] }

/-- A command that was being carried out has its status. -/
def Finished (s t : State) (r id status : Nat) : Prop :=
  ∀ x, s.ring r = some x → (∃ u ∈ x.taken, u.id = id ∧ u.status = none) →
    ∃ y, t.ring r = some y ∧ ∃ u ∈ y.taken, u.id = id ∧ u.status = some status

/-- No other command of a job context is being carried out. -/
def Alone (s : State) (j : Nat) : Prop :=
  ∀ r x, s.ring r = some x → ∀ u ∈ x.taken, u.status = none → u.entry.job ≠ j

/-- The device has changed only where rings, registers, records and counters of free values stand. -/
def RingOnly (s t : State) : Prop :=
  t = { s with host := t.host, regs := t.regs, obs := t.obs, freeIndex := t.freeIndex } ∧
  t.host = { s.host with rings := t.host.rings, nextId := t.host.nextId }

end Sys2Proof
end

