-- ==== Sys2Proof/Certificates/Slice0/Obligations.lean ====
section
/-! DEFINITION. The statements for the provers, by family of commands. Commands are stated by what they answer: under conditions on
the state and the operands alone, exec answers a next state that holds what the rules give and is otherwise the state before. -/

open Sys2Proof Sys2Proof.Machine

/-! ### The control class -/

/-- R171, R182, R184, R185: each register operation computes its result from SA and SB as they were, each immediate operation from SA
and IMM; it writes SD alone, a write to s0 is discarded, and the context goes on at the next word; s0 reads as zero; a shift takes an
IMM below 64. -/
def Obligations.ScalarOperationsWriteTheirResult : Prop :=
  ∀ (s : State) (h : Hart) (sd sa sb : Reg) (imm : BitVec 32), HasHead s h →
    let x := s.ctx h.core.toNat h.ctx.toNat
    let a := x.reg sa.toNat
    let b := x.reg sb.toNat
    let gives (i : Instr) (v : Word64) : Prop := ∃ t, exec i s = .next t ∧ Wrote s t h uScalar (x.pc + 8) sd v
    x.reg 0 = 0 ∧
    gives (.add h sd sa sb) (a + b) ∧ gives (.sub h sd sa sb) (a - b) ∧ gives (.and h sd sa sb) (a &&& b) ∧
    gives (.or h sd sa sb) (a ||| b) ∧ gives (.xor h sd sa sb) (a ^^^ b) ∧
    gives (.sll h sd sa sb) (a <<< (b.toNat % 64)) ∧ gives (.srl h sd sa sb) (a >>> (b.toNat % 64)) ∧
    gives (.sra h sd sa sb) (BitVec.ofInt 64 (a.toInt / 2 ^ (b.toNat % 64))) ∧ gives (.mul h sd sa sb) (a * b) ∧
    gives (.slt h sd sa sb) (if a.toInt < b.toInt then 1 else 0) ∧
    gives (.sltu h sd sa sb) (if a.toNat < b.toNat then 1 else 0) ∧
    gives (.addi h sd sa imm) (a + imm.signExtend 64) ∧ gives (.andi h sd sa imm) (a &&& imm.zeroExtend 64) ∧
    gives (.ori h sd sa imm) (a ||| imm.zeroExtend 64) ∧ gives (.xori h sd sa imm) (a ^^^ imm.zeroExtend 64) ∧
    gives (.lih h sd sa imm) (imm ++ a.extractLsb' 0 32) ∧
    (imm.toNat < 64 →
      gives (.slli h sd sa imm) (a <<< imm.toNat) ∧ gives (.srli h sd sa imm) (a >>> imm.toNat) ∧
      gives (.srai h sd sa imm) (BitVec.ofInt 64 (a.toInt / 2 ^ imm.toNat)))

/-- R185, R173, R187, R188: NOP only goes on; HALT leaves the context IDLE; SETRANK sets its rank; FENCE goes on once the
units of its mask have completed, and waits before; MFS reads the special registers.
It rests on the model's choices in assumption log 2, 55. -/
def Obligations.ControlOperationsTakeEffect : Prop :=
  ∀ (s : State) (h : Hart) (sd : Reg) (imm : BitVec 32), HasHead s h →
    let c := h.core.toNat
    let x := s.ctx c h.ctx.toNat
    let reads (n : BitVec 32) (v : Nat) : Prop :=
      ∃ t, exec (.mfs h sd n) s = .next t ∧ Wrote s t h uScalar (x.pc + 8) sd (BitVec.ofNat 64 v)
    (∃ t, exec (.nop h) s = .next t ∧ WentTo s t h uScalar (x.pc + 8)) ∧
    (∃ t, exec (.halt h) s = .next t ∧ ContextOnly s t h uScalar ∧ (t.ctx c h.ctx.toNat).st = .idle) ∧
    (imm.toNat < 4 → ∃ t, exec (.setrank h imm) s = .next t ∧ ContextOnly s t h uScalar ∧
      t.ctx c h.ctx.toNat = { x with pc := x.pc + 8, rank := imm.toNat }) ∧
    (imm.toNat < 16 → s.fenceOk c h.ctx.toNat imm.toNat = true →
      ∃ t, exec (.fence h imm) s = .next t ∧ WentTo s t h uScalar (x.pc + 8)) ∧
    (imm.toNat < 16 → s.fenceOk c h.ctx.toNat imm.toNat = false → exec (.fence h imm) s = .next s) ∧
    reads 0 c ∧ reads 1 (c / 64 * 256 + c % 64) ∧ reads 2 h.ctx.toNat ∧
    (∀ j, s.jobOf c = some j → reads 5 j ∧ reads 6 (s.job j).mfsStep ∧
      (∀ l, (s.job j).layout = some l → reads 7 l.phase) ∧
      (∀ r q m, (s.job j).regionAt c = some (r, q, m) →
        reads 3 r ∧ reads 4 ((c / 64 - q.row0) * 256 + (c % 64 - q.col0)))) ∧
    reads 8 ((s.half (halfOf c)).cycles / 10 - (s.core c).cycleBase)

/-- R185, R186: a branch whose registers compare true goes to PC + 8 * OFFSET where that lies in the context's code, and else
falls through; JAL also writes PC + 8; JR goes to an aligned register target in the code. -/
def Obligations.BranchesGoToTheirTargets : Prop :=
  ∀ (s : State) (h : Hart) (sd sa sb : Reg) (off : BitVec 32), HasHead s h →
    let x := s.ctx h.core.toNat h.ctx.toNat
    let a := x.reg sa.toNat
    let b := x.reg sb.toNat
    let target := (BitVec.ofNat 64 x.pc + BitVec.ofInt 64 (8 * off.toInt)).toNat
    let inCode (p : Nat) : Prop := x.codeBase ≤ p ∧ p + 8 ≤ x.codeBase + x.codeLen
    let branches (i : Instr) (taken : Prop) : Prop :=
      (taken → inCode target → ∃ t, exec i s = .next t ∧ WentTo s t h uScalar target) ∧
      (¬taken → ∃ t, exec i s = .next t ∧ WentTo s t h uScalar (x.pc + 8))
    branches (.beq h sa sb off) (a = b) ∧ branches (.bne h sa sb off) (a ≠ b) ∧
    branches (.blt h sa sb off) (a.toInt < b.toInt) ∧ branches (.bge h sa sb off) (b.toInt ≤ a.toInt) ∧
    branches (.bltu h sa sb off) (a.toNat < b.toNat) ∧ branches (.bgeu h sa sb off) (b.toNat ≤ a.toNat) ∧
    (inCode target → ∃ t, exec (.jal h sd off) s = .next t ∧ Wrote s t h uScalar target sd (BitVec.ofNat 64 (x.pc + 8))) ∧
    (a.toNat % 8 = 0 → inCode a.toNat → ∃ t, exec (.jr h sa) s = .next t ∧ WentTo s t h uScalar a.toNat)

/-- R185, R186, R43: SLD reads the 8 bytes at its own-window address, and SST stores SB there and changes no other byte, where
the address is a multiple of 8 within the banks and the stored word is its codeword. -/
def Obligations.OwnWindowLoadsAndStores : Prop :=
  ∀ (s : State) (h : Hart) (sd sa sb : Reg) (imm : BitVec 32), HasHead s h →
    let x := s.ctx h.core.toNat h.ctx.toNat
    let off := (x.reg sa.toNat + imm.signExtend 64).toNat
    let a := windowAddr h.core.toNat off
    off % 8 = 0 → off + 8 ≤ spadBytes → s.errOf (a / 32) = 0 →
    (∃ t, exec (.sld h sd sa imm) s = .next t ∧ Wrote s t h uScalar (x.pc + 8) sd (BitVec.ofNat 64 (s.num a 8))) ∧
    (∃ t, exec (.sst h sa sb imm) s = .next t ∧ (t.ctx h.core.toNat h.ctx.toNat) = { x with pc := x.pc + 8 } ∧
      t.num a 8 = (x.reg sb.toNat).toNat ∧ (∀ b, b < a ∨ a + 8 ≤ b → t.byte b = s.byte b) ∧
      t = { s with mem := t.mem, codeErr := t.codeErr, cores := t.cores, obs := t.obs } ∧
      (∀ c, c ≠ h.core.toNat → t.core c = s.core c) ∧ t.obs.log = s.obs.log)

/-- R182, R208, R210: a word that R182 calls illegal has no effect of its own: its context enters FAULTED with its PC at the
word, the event is recorded, and the job context that holds the core becomes FAILED. -/
def Obligations.IllegalWordsFault : Prop :=
  ∀ (s : State) (h : Hart) (w : Word64), HasHead s h → legalWord w = false →
    ∃ t, exec (.programIllegal h w) s = .next t ∧
      (t.ctx h.core.toNat h.ctx.toNat).st = .faulted ∧
      (t.ctx h.core.toNat h.ctx.toNat).pc = (s.ctx h.core.toNat h.ctx.toNat).pc ∧
      (t.ctx h.core.toNat h.ctx.toNat).regs = (s.ctx h.core.toNat h.ctx.toNat).regs ∧ t.codeErr = s.codeErr ∧
      (∀ j, s.jobOf h.core.toNat = some j → (t.job j).st = .failed) ∧
      (LogRoom s 1 → Recorded t .programIllegal (.core h.core.toNat)
        [(2, h.core.toNat), (1, h.ctx.toNat), (4, (s.ctx h.core.toNat h.ctx.toNat).pc), (8, w.toNat)])

/-- R198 to R202: a semaphore instruction with a legal value takes effect on its semaphore at once: SEMWAIT subtracts where the
value allows it and no waiter is listed, and else joins the waiter list; SEMTRY tells which; SEMSIG adds, and stops at 65,535
with the overflow bit; SEMSET sets; SEMREAD reads. -/
def Obligations.SemaphoresCountAndWait : Prop :=
  ∀ (s : State) (h : Hart) (w : SemWord), HasHead s h →
    let c := h.core.toNat
    let x := s.ctx c h.ctx.toNat
    let m := w.sem.toNat
    let old := (s.core c).sem m
    let v := semValue x w
    let took := (Issued s h uSem).ctx h.ctx.toNat
    let next : Ctx := { took with pc := x.pc + 8 }
    let free := (s.core c).hasWaiter m = false
    (w.vr = true → (x.reg w.sb.toNat).toNat < 65536) →
    (semLegal .wait w = true → 1 ≤ v → free → v ≤ old.value →
      ∃ t, exec (.semwait h w) s = .next t ∧ SemStep s t h m { old with value := old.value - v } next) ∧
    (semLegal .wait w = true → 1 ≤ v → ¬(free ∧ v ≤ old.value) →
      ∃ t, exec (.semwait h w) s = .next t ∧ CoreOnly s t c ∧ (t.core c).sems = (s.core c).sems ∧
        (t.core c).waiters = (s.core c).waiters ++ [(m, .ctx h.ctx.toNat, v)] ∧
        t.ctx c h.ctx.toNat = { x with wait := .sem m v }) ∧
    (semLegal .try_ w = true → 1 ≤ v → free → v ≤ old.value →
      ∃ t, exec (.semtry h w) s = .next t ∧
        SemStep s t h m { old with value := old.value - v } { (took.setReg w.sd.toNat 1) with pc := x.pc + 8 }) ∧
    (semLegal .try_ w = true → 1 ≤ v → ¬(free ∧ v ≤ old.value) →
      ∃ t, exec (.semtry h w) s = .next t ∧ Wrote s t h uSem (x.pc + 8) w.sd 0) ∧
    (semLegal .sig w = true → 1 ≤ v → old.value + v ≤ 65535 →
      ∃ t, exec (.semsig h w) s = .next t ∧ SemStep s t h m { old with value := old.value + v } next) ∧
    (semLegal .sig w = true → 1 ≤ v → 65535 < old.value + v →
      ∃ t, exec (.semsig h w) s = .next t ∧ ((t.core c).sem m).value = 65535 ∧ ((t.core c).sem m).overflow = true ∧
        t.mem = s.mem ∧ ∀ n, n ≠ m → (t.core c).sem n = (s.core c).sem n) ∧
    (semLegal .set w = true →
      ∃ t, exec (.semset h w) s = .next t ∧ SemStep s t h m { old with value := v } next) ∧
    (semLegal .read w = true →
      ∃ t, exec (.semread h w) s = .next t ∧ Wrote s t h uSem (x.pc + 8) w.sd (BitVec.ofNat 64 old.value))

/-- R200, R232: the first waiter of a semaphore is served once the value allows it: its count is subtracted, and the context
that waited goes on, or the stream's wait has been served. -/
def Obligations.WaitersAreServedInTurn : Prop :=
  ∀ (s : State) (core : CoreIx) (sem : BitVec 6) (x : Nat × Waiter × Nat),
    let c := core.toNat
    let m := sem.toNat
    (s.core c).waiters.find? (fun w => w.1 = m) = some x → x.2.2 ≤ ((s.core c).sem m).value →
    ∃ t, exec (.waiterServed core sem) s = .next t ∧ CoreOnly s t c ∧
      (t.core c).sem m = { (s.core c).sem m with value := ((s.core c).sem m).value - x.2.2 } ∧
      (t.core c).waiters.length + 1 = (s.core c).waiters.length ∧
      (∀ n, n ≠ m → (t.core c).sem n = (s.core c).sem n) ∧
      (∀ k, x.2.1 = .ctx k → t.ctx c k = { s.ctx c k with wait := .none, pc := (s.ctx c k).pc + 8 }) ∧
      (∀ n, x.2.1 = .stream n → (t.core c).stream n =
        { (s.core c).stream n with emptyServed := true, emptyListed := false })

/-- R202, R204, R250: SEMSIGR to a core of its job context gives its local port one increment for that core, which stands in the
network or waits before it; where the router's map holds the core as out of service the increment is absorbed there and counted. -/
def Obligations.RemoteSignalsAreSent : Prop :=
  ∀ (s : State) (h : Hart) (w : SemWord) (j : Nat), HasHead s h →
    let c := h.core.toNat
    let x := s.ctx c h.ctx.toNat
    let v := semValue x w
    let a := (x.reg w.sa.toNat).toNat
    let f := semincFlit s c a w.sem.toNat v
    (w.vr = true → (x.reg w.sb.toNat).toNat < 65536) → semLegal .sigr w = true → 1 ≤ v → a < 4096 →
    s.jobOf c = some j → (s.job j).holds a = true →
    (f.op.toNat = opSeminc ∧ f.dkind.toNat = kCore ∧ f.dest.toNat = a ∧ f.skind.toNat = kCore ∧ f.src.toNat = c ∧
      f.sem = w.sem ∧ f.field 0 2 = v) ∧
    ∃ t, exec (.semsigr h w) s = .next t ∧ WentTo (s.inject c f) t h uSem (x.pc + 8) ∧
      (t.core c).sems = (s.core c).sems ∧ t.mem = s.mem ∧ (∀ d, d ≠ c → t.core d = s.core d) ∧
      (s.net.oos.contains a = false → InNet t c f) ∧
      (s.net.oos.contains a = true →
        Tab.get 0 (Tab.get {} t.obs.routers c).vals 10 = satAdd48 (Tab.get 0 (Tab.get {} s.obs.routers c).vals 10) 1)

/-- R205, R207, R105, R106: CKMARK takes the replay mark; CKWAIT waits for its sampled checks and returns and clears the count
of FAIL verdicts; NFREAD returns the NONFINITE count and clears it with CLR. -/
def Obligations.CheckOperationsTakeEffect : Prop :=
  ∀ (s : State) (h : Hart) (sd : Reg) (clr : Bool), HasHead s h →
    let c := h.core.toNat
    let x := s.ctx c h.ctx.toNat
    (∃ t, exec (.ckmark h) s = .next t ∧ CoreOnly s t c ∧ (t.ctx c h.ctx.toNat).mark = ⟨x.pc + 8, x.regs⟩ ∧
      (t.ctx c h.ctx.toNat).pc = x.pc + 8 ∧ (t.ctx c h.ctx.toNat).regs = x.regs) ∧
    (s.checksPending c h.ctx.toNat = true → exec (.ckwait h sd) s = .next s) ∧
    (s.checksPending c h.ctx.toNat = false → ∃ t, exec (.ckwait h sd) s = .next t ∧ ContextOnly s t h uScalar ∧
      t.ctx c h.ctx.toNat =
        { (x.setReg sd.toNat (BitVec.ofNat 64 x.ckFails)) with ckFails := 0, pc := x.pc + 8 }) ∧
    (∃ t, exec (.nfread h sd clr) s = .next t ∧ ContextOnly s t h uScalar ∧
      t.ctx c h.ctx.toNat = { (x.setReg sd.toNat (BitVec.ofNat 64 x.nonfinite)) with
        nonfinite := if clr then 0 else x.nonfinite, pc := x.pc + 8 })

/-- R40, R41, R44, R47, R178: one cycle of a bank port grants one of the masters that request it, a master refused for 256 cycles
before the owner and the owner before the others, and counts each refusal; a scrubber uses a cycle that no master requests, or
takes one after 4,095 others, and moves on from a clean granule to the next; a shared unit grants one ready head, of
those refused for 4,096 cycles first and else of the lowest rank, and every other ready head is refused once more.
It rests on the model's choices in assumption log 5, 71. -/
def Obligations.GuardsBoundWaiting : Prop :=
  ∀ (s : State) (core : CoreIx) (bank : Fin 4) (write : Bool) (cycle : PortCycle) (unit : Fin 4) (ready : BitVec 4),
    let requests := cycle.masters
    let c := core.toNat
    let key := 2 * bank.val + write.toNat
    let p := Tab.get {} (s.core c).ports key
    let req (m : Nat) : Prop := requests.getLsbD m = true
    let late (m : Nat) : Prop := req m ∧ m ≠ bank.val ∧ 256 ≤ Tab.get 0 p.waits m
    let count (t : State) (n : Nat) : Nat := Tab.get 0 (Tab.get {} t.obs.cores c).vals n
    let others (t : State) : Prop := ∀ d, d ≠ c → t.core d = s.core d
    let scrub := Tab.get {} (s.core c).scrubs bank.val
    let a := windowAddr c (bankBase bank.val + 64 * scrub.pos)
    let u := unit.val + 1
    let runs (k : Nat) : Nat := Tab.get 0 (s.ctx c k).refused u
    let rdy (k : Nat) : Prop := ready.getLsbD k = true
    (∃ t, exec (.starvationGuard core bank write cycle) s = .next t ∧ t = { s with cores := t.cores, obs := t.obs } ∧
      others t ∧ t.core c = { s.core c with ports := (t.core c).ports } ∧
      let q := Tab.get {} (t.core c).ports key
      (∀ m, m < 5 → ¬ req m → Tab.get 0 q.waits m = 0) ∧
      (requests = 0 → q.last = p.last) ∧
      (requests ≠ 0 → ∃ g, g < 5 ∧ req g ∧ q.last = g ∧ Tab.get 0 q.waits g = 0 ∧
        (∀ m, m < 5 → m ≠ g → req m → Tab.get 0 q.waits m = Tab.get 0 p.waits m + 1 ∧
          count t (256 + 4 * m + bank.val) = satAdd48 (count s (256 + 4 * m + bank.val)) 1) ∧
        ((∃ m, m < 5 ∧ late m) → late g ∧ ∀ m, m < 5 → late m → Tab.get 0 p.waits m ≤ Tab.get 0 p.waits g) ∧
        ((∀ m, m < 5 → ¬ late m) → req bank.val → g = bank.val))) ∧
    (requests = 0 ∨ 4095 ≤ scrub.idle → CleanAt s a 64 →
      ∃ t, exec (.scrubber core bank cycle) s = .next t ∧ t = { s with cores := t.cores, obs := t.obs } ∧ others t ∧
        t.core c = { s.core c with ports := (t.core c).ports, scrubs := (t.core c).scrubs } ∧
        Tab.get {} (t.core c).scrubs bank.val = ⟨(scrub.pos + 1) % bankGranules bank.val, 0⟩ ∧
        ∀ m, m < 5 → Tab.get 0 (Tab.get {} (t.core c).ports (2 * bank.val)).waits m =
          if req m then Tab.get 0 (Tab.get {} (s.core c).ports (2 * bank.val)).waits m + 1 else 0) ∧
    (requests ≠ 0 → scrub.idle < 4095 →
      ∃ t, exec (.scrubber core bank cycle) s = .next t ∧ t = { s with cores := t.cores } ∧ others t ∧
        t.core c = { s.core c with scrubs := (t.core c).scrubs } ∧
        Tab.get {} (t.core c).scrubs bank.val = ⟨scrub.pos, scrub.idle + 1⟩) ∧
    (∃ t, exec (.issueGuard core unit ready) s = .next t ∧ t = { s with cores := t.cores } ∧ others t ∧
      t.core c = { s.core c with ctxs := (t.core c).ctxs, lastTaken := (t.core c).lastTaken, turn := (t.core c).turn } ∧
      (∀ k, k < 4 → t.ctx c k = { s.ctx c k with refused := (t.ctx c k).refused }) ∧
      (∀ k, k < 4 → ¬ rdy k → Tab.get 0 (t.ctx c k).refused u = 0) ∧
      (ready = 0 → (t.core c).lastTaken = (s.core c).lastTaken ∧ (t.core c).turn = (s.core c).turn) ∧
      (ready ≠ 0 → ∃ g, g < 4 ∧ rdy g ∧ Tab.get 0 (t.core c).lastTaken u = g ∧ Tab.get 0 (t.ctx c g).refused u = 0 ∧
        (∀ k, k < 4 → k ≠ g → rdy k → Tab.get 0 (t.ctx c k).refused u = runs k + 1) ∧
        ((∃ k, k < 4 ∧ rdy k ∧ 4096 ≤ runs k) → 4096 ≤ runs g) ∧
        ((∀ k, k < 4 → rdy k → runs k < 4096) → ∀ k, k < 4 → rdy k → (s.ctx c g).rank ≤ (s.ctx c k).rank) ∧
        ∀ k, (t.core c).mayTake u k = true ↔ k = g ∨ (s.ctx c g).issues = false))

/-! ### The vector engine -/

/-- R145, R156, R157, R105: each elementwise operation writes to every element below its count the result of its type for the
operands there, and to no other element: I32 wraps, F32 rounds once, B16X2 takes its halves apart, comparisons write masks. -/
def Obligations.ElementwiseOperationsWriteTheirElements : Prop :=
  ∀ (s : State) (h : Hart) (w : VecWord),
    let v := vecView s h w
    let leaves (i : Instr) (nonfin : Nat) (e : Nat → Word32) : Prop :=
      ∃ t, exec i s = .next t ∧ VecLeft s t h w nonfin (withGroup (tilesOf s h) w.d.toNat v.n e) (scalarsOf s h)
    let bits (o : VOp) (i : Instr) (f : Word32 → Word32 → Word32 → Word32) : Prop :=
      VecHead o s h w → leaves i 0 (fun m => f (v.a m) (v.b m) (v.c m))
    let ints (o : VOp) (i : Instr) (f : Word32 → Word32 → Word32 → Word32) : Prop := w.etype = 2 → bits o i f
    let mask (o : VOp) (i : Instr) (p : FV → FV → Bool) : Prop := w.etype = 0 →
      bits o i (fun a b _ => if p (f32 a) (f32 b) then 1 else 0)
    let masks (o : VOp) (i : Instr) (p : FV → FV → Bool) : Prop := w.etype = 1 → bits o i (fun a b _ =>
      pairWord (p (decodeWide fmtBF16 (loHalf a)) (decodeWide fmtBF16 (loHalf b))).toNat
        (p (decodeWide fmtBF16 (hiHalf a)) (decodeWide fmtBF16 (hiHalf b))).toNat)
    let floats (o : VOp) (i : Instr) (f : Word32 → Word32 → Word32 → Word32) : Prop := w.etype = 0 → VecHead o s h w →
      let e (m : Nat) := f (v.a m) (v.b m) (v.c m)
      leaves i ((List.range v.n).filter (fun m => !(f32 (e m)).isFinite)).length e
    let halves (o : VOp) (i : Instr) (f : Nat → Nat → Nat → Nat) : Prop := w.etype = 1 → VecHead o s h w →
      let lo (m : Nat) := f (loHalf (v.a m)) (loHalf (v.b m)) (loHalf (v.c m))
      let hi (m : Nat) := f (hiHalf (v.a m)) (hiHalf (v.b m)) (hiHalf (v.c m))
      leaves i (((List.range v.n).filter (fun m => bfNonfinite (lo m))).length +
        ((List.range v.n).filter (fun m => bfNonfinite (hi m))).length) (fun m => pairWord (lo m) (hi m))
    let rne (x : FV) : Word32 := BitVec.ofNat 32 (x.toIeee fmtFP32)
    let bf (x : Nat) : FV := decodeWide fmtBF16 x
    let sat (x : FV) : Nat := (x.toSat fmtBF16 none).1
    (ints .add (.vectorAdd h w) (fun a b _ => a + b) ∧ ints .sub (.vectorSub h w) (fun a b _ => a - b) ∧
     ints .mul (.vectorMul h w) (fun a b _ => a * b) ∧ ints .fma (.fma h w) (fun a b c => a * b + c) ∧
     ints .min (.min h w) (fun a b _ => if a.toInt ≤ b.toInt then a else b) ∧
     ints .max (.max h w) (fun a b _ => if b.toInt ≤ a.toInt then a else b) ∧
     ints .abs (.abs h w) (fun a _ _ => if a.toInt < 0 then -a else a) ∧ ints .neg (.neg h w) (fun a _ _ => -a) ∧
     ints .cmpeq (.cmpeq h w) (fun a b _ => if a = b then 1 else 0) ∧
     ints .cmpne (.cmpne h w) (fun a b _ => if a = b then 0 else 1) ∧
     ints .cmplt (.cmplt h w) (fun a b _ => if a.toInt < b.toInt then 1 else 0) ∧
     ints .cmple (.cmple h w) (fun a b _ => if a.toInt ≤ b.toInt then 1 else 0) ∧
     ints .and (.vectorAnd h w) (fun a b _ => a &&& b) ∧ ints .or (.vectorOr h w) (fun a b _ => a ||| b) ∧
     ints .xor (.vectorXor h w) (fun a b _ => a ^^^ b)) ∧
    bits .sel (.sel h w) (fun a b c => if c = 0 then b else a) ∧
    (VecHead .iota s h w → leaves (.iota h w) 0 (fun m => BitVec.ofNat 32 m + v.a m)) ∧
    (floats .add (.vectorAdd h w) (fun a b _ => rne ((f32 a).add (f32 b))) ∧
     floats .sub (.vectorSub h w) (fun a b _ => rne ((f32 a).add (f32 b).negate)) ∧
     floats .mul (.vectorMul h w) (fun a b _ => rne ((f32 a).mul (f32 b))) ∧
     floats .fma (.fma h w) (fun a b c => rne (((f32 a).mul (f32 b)).add (f32 c))) ∧
     floats .min (.min h w) (fun a b _ => rne ((f32 a).minimum (f32 b))) ∧
     floats .max (.max h w) (fun a b _ => rne ((f32 a).maximum (f32 b))) ∧
     floats .abs (.abs h w) (fun a _ _ => a &&& 0x7FFFFFFF#32) ∧ floats .neg (.neg h w) (fun a _ _ => a ^^^ 0x80000000#32) ∧
     mask .cmpeq (.cmpeq h w) (fun a b => a.eq b) ∧ mask .cmpne (.cmpne h w) (fun a b => !(a.eq b)) ∧
     mask .cmplt (.cmplt h w) (fun a b => a.lt b) ∧ mask .cmple (.cmple h w) (fun a b => a.lt b || a.eq b)) ∧
    (halves .add (.vectorAdd h w) (fun a b _ => sat ((bf a).add (bf b))) ∧
     halves .sub (.vectorSub h w) (fun a b _ => sat ((bf a).add (bf b).negate)) ∧
     halves .mul (.vectorMul h w) (fun a b _ => sat ((bf a).mul (bf b))) ∧
     halves .fma (.fma h w) (fun a b c => sat (((bf a).mul (bf b)).add (bf c))) ∧
     halves .min (.min h w) (fun a b _ => sat ((bf a).minimum (bf b))) ∧
     halves .max (.max h w) (fun a b _ => sat ((bf a).maximum (bf b))) ∧
     halves .abs (.abs h w) (fun a _ _ => a % 32768) ∧ halves .neg (.neg h w) (fun a _ _ => (a + 32768) % 65536) ∧
     masks .cmpeq (.cmpeq h w) (fun a b => a.eq b) ∧ masks .cmpne (.cmpne h w) (fun a b => !(a.eq b)) ∧
     masks .cmplt (.cmplt h w) (fun a b => a.lt b) ∧ masks .cmple (.cmple h w) (fun a b => a.lt b || a.eq b))

/-- R158, R92, R161, R195: each conversion reads every source element of its count and writes its results in order; a stochastic
one draws the value of its element's position. -/
def Obligations.ConversionsWriteTheirElements : Prop :=
  ∀ (s : State) (h : Hart) (w : VecWord),
    let v := vecView s h w
    let k := h.ctx.toNat
    let leaves (i : Instr) (nonfin n : Nat) (e : Nat → Word32) : Prop :=
      ∃ t, exec i s = .next t ∧ VecLeft s t h w nonfin (withGroup (tilesOf s h) w.d.toNat n e) (scalarsOf s h)
    let rne (x : FV) : Word32 := BitVec.ofNat 32 (x.toIeee fmtFP32)
    let pairs (i : Instr) (f : Fmt) (rnd : Nat → Rnd) (src : Nat → FV) : Prop :=
      let code (m : Nat) := ((src m).toSat f (rnd m)).1
      leaves i ((List.range v.n).filter (fun m => !(decodeWide f (code m)).isFinite)).length (v.n / 2)
        (fun j => pairWord (code (2 * j)) (code (2 * j + 1)))
    let widened (i : Instr) (f : Fmt) : Prop :=
      let e (m : Nat) := rne (decodeWide f (if m % 2 = 0 then loHalf (v.a (m / 2)) else hiHalf (v.a (m / 2))))
      leaves i ((List.range v.n).filter (fun m => !(f32 (e m)).isFinite)).length v.n e
    (VecHead .cvtHf s h w → pairs (.cvtHf h w) fmtFP16 (fun _ => none) (fun m => f32 (v.a m))) ∧
    (∀ p, VecHead .cvtBf s h w → paramCause .cvtBf k v.ctx w.c.toNat v.n = 0 → vecParams .cvtBf k v.ctx w.c.toNat = some p →
      pairs (.cvtBf h w) fmtBF16 (p.rnd v.width) (fun m => f32 (v.a m))) ∧
    (∀ p, VecHead .cvtWb s h w → paramCause .cvtWb k v.ctx w.c.toNat v.n = 0 → vecParams .cvtWb k v.ctx w.c.toNat = some p →
      pairs (.cvtWb h w) fmtBF16 (p.rnd v.width) (fun m => decodeWide fmtW48 (v.wide m))) ∧
    (VecHead .cvtFb s h w → widened (.cvtFb h w) fmtBF16) ∧ (VecHead .cvtFh s h w → widened (.cvtFh h w) fmtFP16) ∧
    (VecHead .cvtFi s h w → leaves (.cvtFi h w) 0 v.n (fun m =>
      match f32 (v.a m) with
      | .nan => 0
      | .inf neg => if neg then 0x80000000#32 else 0x7FFFFFFF#32
      | .fin d => BitVec.ofInt 32 (max (-(2 ^ 31)) (min (2 ^ 31 - 1) (roundInt d))))) ∧
    (VecHead .cvtIf s h w → leaves (.cvtIf h w) 0 v.n (fun m => rne (.fin (Dy.ofInt (v.a m).toInt 0 false))))

/-- R163 to R168: reductions write one result for each segment, to a scalar register where one segment holds every element;
COMPRESS and EXPAND move the elements at active positions and count them; special functions write their result for every element,
exactly where R166 states it and else within its 2 ulp; WFMA and WADD write the two planes of each W48 result, rounded once.
It rests on the model's choices in assumption log 11. -/
def Obligations.ReductionsMovesAndFunctionsWriteTheirResults : Prop :=
  ∀ (s : State) (h : Hart) (w : VecWord),
    let v := vecView s h w
    let d := w.d.toNat
    let leaves (i : Instr) (nonfin : Nat) (g : Nat → Word32) (r : Nat → Word64) : Prop :=
      ∃ t, exec i s = .next t ∧ VecLeft s t h w nonfin g r
    let reduces (o : VOp) (i : Instr) (acc numbers : Bool) (f : List Word32 → Word32) : Prop := VecHead o s h w →
      let one := reduceAcc acc ((v.ctx.reg d).setWidth 32) (f (v.segment 0))
      let each (q : Nat) := reduceAcc acc (v.old q) (f (v.segment q))
      let segs := ceilDiv v.n v.width
      if v.n ≤ v.width then
        leaves i (if numbers && !(f32 one).isFinite then 1 else 0) (tilesOf s h) (withReg (scalarsOf s h) d (one.setWidth 64))
      else leaves i (if numbers then ((List.range segs).filter (fun q => !(f32 (each q)).isFinite)).length else 0)
        (withGroup (tilesOf s h) d segs each) (scalarsOf s h)
    let maps (o : VOp) (i : Instr) : Prop := VecHead o s h w →
      let e (m : Nat) := (sfuOp o (v.a m)).w
      leaves i ((List.range v.n).filter (fun m => !(f32 (e m)).isFinite)).length (withGroup (tilesOf s h) d v.n e) (scalarsOf s h) ∧
      (∀ m r, sfuExact o (f32 (v.a m)) = some r → e m = r) ∧
      ∀ m x, sfuExact o (f32 (v.a m)) = none → f32 (v.a m) = .fin x → e m = sfuWithin o x (v.a m) ∧
        ((sfuEnclosure o x).allows (Config.sfu o.code (v.a m)) = true → e m = Config.sfu o.code (v.a m))
    let wide (o : VOp) (i : Instr) (a : Nat → Word32) : Prop := VecHead o s h w →
      let x (m : Nat) := ((decodeWide fmtW48 (v.wide m)).mul (f32 (a m))).add (f32 (v.c m))
      let code (m : Nat) := ((x m).toSat fmtW48 none).1
      leaves i ((List.range v.n).filter (fun m => !(x m).isFinite)).length
        (withGroup (withGroup (tilesOf s h) d v.n (fun m => BitVec.ofNat 32 (code m / 65536)))
          (d + ceilDiv v.n 1024) v.n (fun m => BitVec.ofNat 32 (code m % 65536))) (scalarsOf s h)
    reduces .rsum (.rsum h w) w.acc true (reduceSegment .rsum) ∧ reduces .rsumsq (.rsumsq h w) w.acc true (reduceSegment .rsumsq) ∧
    reduces .rmax (.rmax h w) w.acc true (reduceSegment .rmax) ∧ reduces .rmin (.rmin h w) w.acc true (reduceSegment .rmin) ∧
    reduces .rargmax (.rargmax h w) false false (fun l => BitVec.ofNat 32 (argSegment .rargmax l)) ∧
    reduces .rargmin (.rargmin h w) false false (fun l => BitVec.ofNat 32 (argSegment .rargmin l)) ∧
    (VecHead .compress s h w → leaves (.compress h w) 0
      (withGroup (tilesOf s h) d v.active.length (fun i => v.a (v.active.getD i 0)))
      (withReg (scalarsOf s h) w.b.toNat (BitVec.ofNat 64 v.active.length))) ∧
    (VecHead .expand s h w → leaves (.expand h w) 0
      (fun i => if i - 1024 * d ∈ v.active ∧ 1024 * d ≤ i then v.a ((v.active.filter (· < i - 1024 * d)).length) else tilesOf s h i)
      (withReg (scalarsOf s h) w.b.toNat (BitVec.ofNat 64 v.active.length))) ∧
    maps .exp2 (.exp2 h w) ∧ maps .log2 (.log2 h w) ∧ maps .rcp (.rcp h w) ∧ maps .rsqrt (.rsqrt h w) ∧ maps .tanh (.tanh h w) ∧
    wide .wfma (.wfma h w) v.b ∧ wide .wadd (.wadd h w) (fun _ => f32One)

/-- R159, R160, R162, R79, R206, R152: vector loads, stores, PACK and UNPACK move their elements between a group and clean extents
of the core's own banks; a store changes no other byte; CKCMP counts the failing elements; TQPOP frees the
head entry, at once or with the last flit that is still sent from it. -/
def Obligations.VectorMemoryOperationsMoveTheirBytes : Prop :=
  ∀ (s : State) (h : Hart) (w : VecWord) (p : VParams) (e : Nat),
    let c := h.core.toNat
    let k := h.ctx.toNat
    let v := vecView s h w
    let off := memOffset v.ctx w
    let a := windowAddr c off
    let ok (o : VOp) (size : Nat) : Prop :=
      VecHead o s h w ∧ off % size = 0 ∧ off + size * v.n ≤ spadBytes ∧ CleanAt s a (size * v.n)
    let loads (i : Instr) (size : Nat) : Prop :=
      ∃ t, exec i s = .next t ∧ VecLeft s t h w 0
        (withGroup (tilesOf s h) w.d.toNat v.n (fun m => BitVec.ofNat 32 (s.num (a + size * m) size))) (scalarsOf s h)
    let stores (i : Instr) (size : Nat) : Prop :=
      ∃ t, exec i s = .next t ∧
        VecLeft { s with mem := t.mem, codeErr := t.codeErr } t h w 0 (tilesOf s h) (scalarsOf s h) ∧
        (∀ m, m < v.n → t.num (a + size * m) size = (v.a m).toNat % 256 ^ size) ∧
        ∀ b, b < a ∨ a + size * v.n ≤ b → t.byte b = s.byte b
    let params (o : VOp) : Prop :=
      VecHead o s h w ∧ paramCause o k v.ctx w.c.toNat v.n = 0 ∧ vecParams o k v.ctx w.c.toNat = some p ∧
      CleanAt s (windowAddr c p.reg.eoff) (planeBytes p.fc v.n).1 ∧ CleanAt s (windowAddr c p.reg.soff) (planeBytes p.fc v.n).2
    let packs (i : Instr) (w48 : Bool) (src : Nat → FV) : Prop :=
      let size := p.fc.block
      let block (b : Nat) := writeBlock p.fc (if p.fc.tscale then some (recipTScale p.st) else none) w48
        ((List.range size).map (fun j => (src (size * b + j), if p.fc.stoch then p.pos.at_ v.width (size * b + j) else 0)))
      let blocks := (List.range (v.n / size)).map block
      let plane := packCodes p.fc.elem.bits (blocks.flatMap (·.elems))
      let scales := blocks.map (fun b => BitVec.ofNat 8 b.scale)
      let pa := windowAddr c p.reg.eoff
      let sa := windowAddr c p.reg.soff
      ∃ t, exec i s = .next t ∧
        VecLeft { s with mem := t.mem, codeErr := t.codeErr } t h w 0 (tilesOf s h) (scalarsOf s h) ∧
        plane.length = (planeBytes p.fc v.n).1 ∧ scales.length = (planeBytes p.fc v.n).2 ∧
        t.bytes sa scales.length = scales ∧
        (∀ n, n < plane.length → (pa + n < sa ∨ sa + scales.length ≤ pa + n) → t.byte (pa + n) = plane.getD n 0) ∧
        ∀ b, (b < pa ∨ pa + plane.length ≤ b) → (b < sa ∨ sa + scales.length ≤ b) → t.byte b = s.byte b
    (ok .vld 4 → loads (.vld h w) 4) ∧ (ok .vldH 2 → loads (.vldH h w) 2) ∧
    (ok .vst 4 → stores (.vst h w) 4) ∧ (ok .vstH 2 → stores (.vstH h w) 2) ∧
    (params .pack → packs (.pack h w) false (fun m => f32 (v.a m))) ∧
    (params .packW → packs (.packW h w) true (fun m => decodeWide fmtW48 (v.wide m))) ∧
    (params .unpack → ∃ t, exec (.unpack h w) s = .next t ∧ VecLeft s t h w 0 (withGroup (tilesOf s h) w.d.toNat v.n (fun m =>
        (unpackElem p.fc.elem p.fc.scale
          (unpackCode p.fc.elem.bits (s.bytes (windowAddr c p.reg.eoff) (planeBytes p.fc v.n).1) m)
          (s.num (windowAddr c p.reg.soff + m / p.fc.block) 1) (if p.fc.tscale then some p.st else none)).1.w)) (scalarsOf s h)) ∧
    (VecHead .ckcmp s h w → ∃ t, exec (.ckcmp h w) s = .next t ∧ VecLeft s t h w 0 (tilesOf s h)
      (withReg (scalarsOf s h) w.d.toNat
        (BitVec.ofNat 64 ((List.range v.n).filter (fun m => ckFails w.tol.toNat (v.a m) (v.b m) (v.c m))).length))) ∧
    (HasHead s h → (s.core c).headEntry k = some e → ∃ t, exec (.tqpop h) s = .next t ∧
      (t.core c).entry e = (if s.stillSends c e then { (s.core c).entry e with st := .sending } else {}) ∧
      (∀ f, f ≠ e → (t.core c).entry f = (s.core c).entry f) ∧ CoreOnly s t c ∧
      t.core c = { Issued s h uVector with tq := (t.core c).tq, ctxs := (t.core c).ctxs } ∧
      t.ctx c k = { (Issued s h uVector).ctx k with pc := (s.ctx c k).pc + 8 } ∧ ∀ j, j ≠ k → t.ctx c j = s.ctx c j)

/-! ### The matrix engine -/

/-- R113 to R125, R175, R177, R189 to R191: an MMUL whose parameters and tile stand computes every tile total and lane from its
lines, opens or continues its tile, and with END hands it with its target to the drain buffer, or holds it at C while that buffer is
full; DRAIN hands over the tile in progress; while the array is busy the next one is taken and waits. None of them changes memory, a
register or another core; only a sampled tile sends anything.
It rests on the model's choices in assumption log 9, 68, 80. -/
def Obligations.MultipliesBuildTilesAndDrainThem : Prop :=
  ∀ (s : State) (h : Hart) (w : MatWord) (a b : MulOperand) (t0 : Tile),
    let c := h.core.toNat
    let k := h.ctx.toNat
    let x := s.ctx c k
    let g := s.core c
    let nb := mulBlocks w
    let wide := !a.fc.elem.isBlock
    let B := mulBlock a
    let K := nb * B
    let plane (o : MulOperand) (i : Nat) := (windowAddr c (o.eoff + i * o.estride), K * o.fc.elem.bits / 8)
    let scales (o : MulOperand) (i : Nat) :=
      (windowAddr c (o.soff + i * o.sstride), if o.fc.elem.isBlock then nb else 0)
    let clean (o : MulOperand) : Prop :=
      ∀ i, i < 64 → CleanAt s (plane o i).1 (plane o i).2 ∧ CleanAt s (scales o i).1 (scales o i).2
    let line (o : MulOperand) (i : Nat) : Line :=
      (lineOf o.fc.elem o.fc.scale K nb (s.bytes (plane o i).1 (plane o i).2) (s.bytes (scales o i).1 (scales o i).2)).1
    let la := (List.range 64).map (line a)
    let lb := (List.range 64).map (line b)
    let start : Tile := if w.acc then t0 else { owner := k, stA := a.st, stB := b.st }
    let built (y : Tile) : Prop :=
      (∀ m, m < 4096 → y.t.getD m 0 =
        (dyToF32 (peRun wide (w.lm1.toNat + 1) B nb (line a (m / 64)) (line b (m % 64)) (start.t.getD m 0)).t).1) ∧
      y.c = laneRun B nb false la lb (padWords 64 start.c) ∧ y.u = laneRun B nb true la lb (padWords 64 start.u) ∧
      y.d = laneRun B nb false lb la (padWords 64 start.d) ∧ y.z = laneRun B nb true lb la (padWords 64 start.z) ∧
      y.owner = start.owner ∧ y.stA = start.stA ∧ y.stB = start.stB ∧
      y.blocks = (if wide then start.blocks else start.blocks + nb) ∧
      y.wideK = (if wide then start.wideK + K else start.wideK)
    let unsampled : Prop := if w.acc then t0.check = none else (s.sampling c).1 = false ∨ k = 3
    let only (t : State) : Prop :=
      t = { s with cores := t.cores, obs := t.obs, integ := t.integ, regs := t.regs, net := t.net, freeIndex := t.freeIndex } ∧
      (∀ d, d ≠ c → t.core d = s.core d) ∧
      t.core c = { Issued s h uMatrix with
        ctxs := (t.core c).ctxs, tile := (t.core c).tile, drain := (t.core c).drain, atC := (t.core c).atC
        tq := (t.core c).tq, checkPos := (t.core c).checkPos } ∧
      t.ctx c k = { (Issued s h uMatrix).ctx k with pc := x.pc + 8, tileOrdinal := (t.ctx c k).tileOrdinal } ∧
      ∀ j, j ≠ k → t.ctx c j = s.ctx c j
    let quiet (t : State) : Prop := t.net = s.net ∧ t.freeIndex = s.freeIndex ∧ (t.core c).checkPos = g.checkPos
    let goesOut (d : Drain) (p : Tile → Prop) : Prop :=
      p d.tile ∧ d.target = targetOf x w.target.toNat w.sd.toNat ∧ d.pc = x.pc ∧ d.failed = false ∧ d.spilled = false
    let drained (t : State) (p : Tile → Prop) : Prop :=
      (t.core c).tile = none ∧
      (g.drain = none → (t.core c).atC = none ∧ ∃ d, (t.core c).drain = some d ∧ goesOut d p ∧ d.entry = g.freeEntry ∧
        (∀ e, d.entry = some e → (t.core c).entry e = { st := .reserved, owner := d.tile.owner }) ∧
        ∀ e, d.entry ≠ some e → (t.core c).entry e = g.entry e) ∧
      (g.drain.isSome = true → (t.core c).drain = g.drain ∧ (t.core c).tq = g.tq ∧
        ∃ d, (t.core c).atC = some d ∧ goesOut d p ∧ d.entry = none)
    MatHead s h →
    (matLegalMmul w = true → mulOperands x w.sp.toNat = some (a, b) → s.mulCause c x w = 0 →
      (g.arrayBusy = true → ∃ t, exec (.mmul h w) s = .next t ∧ StandsNext s t h 0 w x.replayUnsafe) ∧
      (g.arrayBusy = false → clean a → clean b → (w.acc = true → g.tile = some t0) →
        tileStateOk g.tile w.acc wide (if wide then nb * 32 else nb) a.st b.st = true →
        ∃ t, exec (.mmul h w) s = .next t ∧ only t ∧ (unsampled → quiet t) ∧
          (w.endF = true → unsampled → drained t built) ∧
          (w.endF = true → (t.core c).tile = none ∧ ∃ d, ((t.core c).drain = some d ∨ (t.core c).atC = some d) ∧ goesOut d built) ∧
          (w.endF = false → (unsampled → (t.core c).drain = g.drain ∧ (t.core c).tq = g.tq) ∧
            ∃ y, (t.core c).tile = some y ∧ built y))) ∧
    (matLegalDrain w = true → s.targetCause c x w.target.toNat w.sd.toNat = 0 →
      (g.arrayBusy = true → ∃ t, exec (.drain h w) s = .next t ∧ StandsNext s t h 1 w x.replayUnsafe) ∧
      (g.arrayBusy = false → g.tile = some t0 → ∃ t, exec (.drain h w) s = .next t ∧ only t ∧ quiet t ∧
        drained t (fun y => y = { t0 with log := y.log, check := y.check })))

/-- R124, R132 to R134, R96, R192: a SPILL hands its tile to the drain path; a tile that passes its verdict there has each element's
FP64 value written to its bank buffer, or added there, and no other byte changed, or sends its WRITE requests to stack memory; one
that fails writes nothing. A RESUME opens a tile from the buffer's values, whose verdict with no further block is PASS, or asks stack
memory for them. While the array is busy either is taken and waits.
It rests on the model's choices in assumption log 67, 80. -/
def Obligations.SpillsAndResumesMoveTiles : Prop :=
  ∀ (s : State) (h : Hart) (core : CoreIx) (w : MatWord) (t0 : Tile) (d : Drain) (add : Bool) (addr : Nat),
    let c := h.core.toNat
    let k := h.ctx.toNat
    let x := s.ctx c k
    let g := s.core c
    let v := x.reg w.sp.toNat
    let b := bufferReg v
    let took := (Issued s h uMatrix).ctx k
    let p := core.toNat
    let y := s.core p
    let a := windowAddr p addr
    let verdictAt (t : State) : Prop :=
      t = { s with cores := t.cores, net := t.net, obs := t.obs, integ := t.integ, regs := t.regs, mem := t.mem
                   codeErr := t.codeErr } ∧
      (∀ j, j ≠ p → t.core j = s.core j) ∧
      t.core p = { y with drain := (t.core p).drain, tq := (t.core p).tq, checkPos := (t.core p).checkPos
                          xfers := (t.core p).xfers, nextTag := (t.core p).nextTag }
    (MatHead s h → s.bufferCause c v = 0 →
      (matLegalSpill w = true → g.arrayBusy = true →
        ∃ t, exec (.spill h w) s = .next t ∧ StandsNext s t h 2 w (x.replayUnsafe || w.acc)) ∧
      (matLegalSpill w = true → g.arrayBusy = false → g.tile = some t0 →
        ∃ t q, exec (.spill h w) s = .next t ∧
          t = { s with cores := t.cores, obs := t.obs, integ := t.integ, regs := t.regs } ∧ (∀ j, j ≠ c → t.core j = s.core j) ∧
          t.core c = { Issued s h uMatrix with
            ctxs := (t.core c).ctxs, tile := none, drain := (t.core c).drain, atC := (t.core c).atC } ∧
          (if g.drain = none then (t.core c).drain = some q ∧ (t.core c).atC = none
            else (t.core c).drain = g.drain ∧ (t.core c).atC = some q) ∧
          q = { tile := q.tile, target := .spill b.1 b.2.1 w.acc, pc := x.pc } ∧
          q.tile = { t0 with log := q.tile.log, check := q.tile.check } ∧
          t.ctx c k = { took with pc := x.pc + 8, replayUnsafe := x.replayUnsafe || w.acc } ∧ ∀ j, j ≠ k → t.ctx c j = s.ctx c j) ∧
      (matLegalResume w = true → g.arrayBusy = true →
        ∃ t, exec (.resume h w) s = .next t ∧ StandsNext s t h 3 w x.replayUnsafe) ∧
      (matLegalResume w = true → g.arrayBusy = false →
        ∃ t, exec (.resume h w) s = .next t ∧ t.mem = s.mem ∧ t.codeErr = s.codeErr ∧ (∀ j, j ≠ c → t.core j = s.core j) ∧
          t.ctx c k = { took with pc := x.pc + 8 } ∧
          (b.1 = true → CleanAt s (windowAddr c b.2.1) 0x8000 → ∃ z, (t.core c).tile = some z ∧ t.net = s.net ∧
            z.owner = k ∧ z.stA = f32One ∧ z.stB = f32One ∧ z.blocks = 0 ∧ z.wideK = 0 ∧
            (∀ m, m < 4096 → z.t.getD m 0 = (resumeElem (s.num (windowAddr c b.2.1 + 8 * m) 8)).1) ∧ z.verdict = .pass ∧
            (t.core c).drain = g.drain) ∧
          (b.1 = false → (t.core c).tile = none ∧ ∃ z ∈ (t.core c).xfers, z.work = .resume ∧ z.ctx = k ∧ z.addr = b.2.1 ∧
            z.bad = false ∧ Asked t c k b.2.1 0x8000 z.reqs))) ∧
    (y.drain = some d → d.failed = false → d.spilled = false → y.atC = none → y.matNext = none →
      (d.target = .spill true addr add → d.tile.verdict ≠ .fail → (add = true → CleanAt s a 0x8000) →
        ∃ t, exec (.tileVerdict core) s = .next t ∧ verdictAt t ∧ (t.core p).drain = none ∧
          (d.tile.check = none → t.net = s.net ∧ (t.core p).tq = y.tq) ∧
          (∀ m, m < 4096 → t.num (a + 8 * m) 8 =
            (spillElem add d.tile.stA d.tile.stB (d.tile.t.getD m 0) (if add then s.num (a + 8 * m) 8 else 0)).1 % 2 ^ 64) ∧
          (∀ q, q < a ∨ a + 0x8000 ≤ q → t.byte q = s.byte q)) ∧
      (d.target = .spill false addr add → d.tile.verdict ≠ .fail → addr % 64 = 0 →
        ∃ t z, exec (.tileVerdict core) s = .next t ∧ verdictAt t ∧ t.mem = s.mem ∧ t.codeErr = s.codeErr ∧
          z ∈ (t.core p).xfers ∧ z.ctx = d.tile.owner ∧ z.addr = addr ∧
          (add = true → z.work = .spillRead ∧ (t.core p).drain = some { d with spilled := true } ∧
            Asked t p d.tile.owner addr 0x8000 z.reqs) ∧
          (add = false → z.work = .spillWrite ∧
            z.reqs.map (fun r => (r.addr, 64 * r.len)) = extentParts addr 0x8000 ∧
            ∀ r ∈ z.reqs, ∀ f ∈ writeFlits p d.tile.owner r
              ((spillImage (d.tile.spillNew false [])).drop (r.addr - addr)), InNet t p f)) ∧
      (d.target = .spill true addr add ∨ d.target = .spill false addr add → d.tile.verdict = .fail → d.tile.log.length ≤ 64 →
        ∃ t, exec (.tileVerdict core) s = .next t ∧ t.mem = s.mem ∧ t.codeErr = s.codeErr ∧ t.net = s.net ∧
          (t.core p).stopped = true ∧ (t.core p).drain = some { d with entry := none, failed := true }))

/-- R126, R128, R130, R138, R150: at its verdict a tile that passes goes to its target: READY in its entry with its scaled elements,
sent as 256 flits from an entry that is SENDING until the last has left, or held for its chain; then the tile that holds at C follows.
One that fails leaves nothing, frees its entry, halts its owner and stops the engine; a chain step adds the incoming sum element by
element, takes one count, and makes the sum READY or sends it. It rests on the model's choices in assumption log 69, 70, 80. -/
def Obligations.VerdictsReleaseTilesOrStopTheEngine : Prop :=
  ∀ (s : State) (core : CoreIx) (d : Drain) (e : Nat) (entry : Fin 4),
    let c := core.toNat
    let k := s.core c
    let o := d.tile.out.1
    let sent (t : State) (n owner dst off sem op : Nat) (ws : List Word32) : Prop :=
      (t.core c).entry n = (if t.stillSends c n then { st := .sending, owner := owner } else {}) ∧
      (s.net.oos.contains (dst % 4096) = false →
        ∀ f ∈ tileFlits c dst off sem op 256 (bytesOfWords ws), InNet t c f)
    let only (t : State) (n : Nat) : Prop :=
      t = { s with cores := t.cores, net := t.net, obs := t.obs, integ := t.integ, regs := t.regs } ∧
      (t.core c).ctxs = k.ctxs ∧ (t.core c).tregs = k.tregs ∧ (t.core c).streams = k.streams ∧
      (∀ f, f ≠ n → (k.entry f).st ≠ .sending → (t.core c).entry f = k.entry f) ∧ ∀ j, j ≠ c → t.core j = s.core j
    let waits (t : State) (target : Target) : Prop := (d.tile.check = none → t.net = s.net) ∧
      (t.core c).entry e = { st := .reserved, owner := d.tile.owner, order := k.tqOrder, data := o, chain := some target }
    (k.drain = some d → d.failed = false → d.spilled = false → (∀ l q n, d.target ≠ .spill l q n) → k.matNext = none →
      e < 4 → (d.entry = some e ∨ (d.entry = none ∧ k.freeEntry = some e)) →
      (d.tile.verdict ≠ .fail → k.atC = none → ∃ t, exec (.tileVerdict core) s = .next t ∧ only t e ∧ (t.core c).drain = none ∧
        (t.core c).sems = k.sems ∧ (t.core c).tqOrder = k.tqOrder + 1 ∧
        (d.target = .queue → (d.tile.check = none → t.net = s.net) ∧ (t.core c).entry e =
          { st := .ready, owner := d.tile.owner, order := k.tqOrder, data := o }) ∧
        (∀ dst off sem, d.target = .remotePut dst off sem → sent t e d.tile.owner dst off sem opWrite o) ∧
        (∀ dst off sem, d.target = .remoteAdd dst off sem → sent t e d.tile.owner dst off sem opAdd32 o) ∧
        (∀ isem ioff, d.target = .chainQueue isem ioff → waits t d.target) ∧
        (∀ isem ioff dst off sem, d.target = .chainPut isem ioff dst off sem → waits t d.target)) ∧
      (∀ d2, d.tile.verdict ≠ .fail → k.atC = some d2 → ∃ t q, exec (.tileVerdict core) s = .next t ∧
        (t.core c).atC = none ∧ (t.core c).drain = some q ∧ q = { d2 with entry := q.entry }) ∧
      (d.tile.verdict = .fail → k.atC = none → d.tile.log.length ≤ 64 → ∃ t, exec (.tileVerdict core) s = .next t ∧
        t.mem = s.mem ∧ t.net = s.net ∧ (t.core c).stopped = true ∧
        (t.core c).drain = some { d with entry := none, failed := true } ∧ (t.core c).entry e = {} ∧
        ((s.ctx c d.tile.owner).st = .running → (t.ctx c d.tile.owner).st = .halted) ∧
        ∀ j, j ≠ d.tile.owner → (t.ctx c j).st = (s.ctx c j).st)) ∧
    (∀ isem ioff, let y := k.entry entry.val
      let old := s.bytes (windowAddr c ioff) 0x4000
      let sums := (memAdds (wordsOfBytes old) y.data).1
      1 ≤ (k.sem isem).value → k.hasWaiter isem = false → CleanAt s (windowAddr c ioff) 0x4000 →
      let took (t : State) : Prop := only t entry.val ∧ ((t.core c).sem isem).value + 1 = (k.sem isem).value ∧
        (∀ n, n ≠ isem → (t.core c).sem n = k.sem n) ∧ (t.core c).drain = k.drain
      (y.chain = some (.chainQueue isem ioff) → ∃ t, exec (.chainStep core entry) s = .next t ∧ took t ∧ t.net = s.net ∧
        (t.core c).entry entry.val = { st := .ready, owner := y.owner, order := y.order, data := sums } ∧
        ∀ m, m < y.data.length → m < 4096 → sums.getD m 0 =
          (memAdd (BitVec.ofNat 32 (s.num (windowAddr c ioff + 4 * m) 4)) (y.data.getD m 0)).1) ∧
      (∀ dst off sem, y.chain = some (.chainPut isem ioff dst off sem) →
        ((k.drain.any (fun q => q.spilled)) = false) → ∃ t, exec (.chainStep core entry) s = .next t ∧ took t ∧
          sent t entry.val y.owner dst off sem opWrite sums))

/-! ### The stream engine -/

/-- R224, R225, R227 to R229: SFETCH asks for its block, in a bank or of stack memory, which is accepted or rejected whole; SSTART
runs the named streams that are ARMED, STOPPED, or DONE with PERSIST, from row 0; SSTOP stops a RUNNING or HELD stream and withdraws
its EMPTY wait, at once where nothing of it is in flight or uncounted; SREARM gives an eligible stream its new end and count; both
wait for a block that is being fetched; SSTAT reads the state word.
It rests on the model's choices in assumption log 54, 67. -/
def Obligations.StreamOperationsActOnTheirStreams : Prop :=
  ∀ (s : State) (h : Hart) (sd sa sb : Reg) (half : Bool) (str : BitVec 5) (f : Fetch),
    let c := h.core.toNat
    let k := s.core c
    let x := s.ctx c h.ctx.toNat
    let v := (x.reg sa.toNat).toNat
    let b := bufferReg (x.reg sa.toNat)
    let n := str.toNat
    let y := k.stream n
    let took : Ctx := { (Issued s h uStream).ctx h.ctx.toNat with pc := x.pc + 8 }
    let goes (i : Instr) (p : State → Prop) : Prop :=
      ∃ t, exec i s = .next t ∧ CoreOnly s t c ∧ t.ctx c h.ctx.toNat = took ∧ (∀ j, j ≠ h.ctx.toNat → t.ctx c j = s.ctx c j) ∧
        t.core c = { Issued s h uStream with ctxs := (t.core c).ctxs, fetch := (t.core c).fetch
                                             streams := (t.core c).streams, waiters := (t.core c).waiters } ∧ p t
    (HasHead s h → s.blockCause c (x.reg sa.toNat) = 0 →
      (k.fetch.isSome = true ∨ k.held = true ∨ (∃ m ∈ halfStreams half, (k.stream m).st = .running ∨ (k.stream m).st = .held) →
        exec (.sfetch h sa half) s = .next s) ∧
      (k.fetch = none → k.held = false →
        (∀ m, m ∈ halfStreams half → (k.stream m).st ≠ .running ∧ (k.stream m).st ≠ .held) →
        (b.1 = true → goes (.sfetch h sa half) (fun t => (t.core c).fetch = some ⟨h.ctx.toNat, x.pc, half, true, b.2.1⟩ ∧
          (t.core c).streams = k.streams ∧ (t.core c).waiters = k.waiters)) ∧
        (b.1 = false → ∃ t, exec (.sfetch h sa half) s = .next t ∧
          t = { s with cores := t.cores, net := t.net, obs := t.obs } ∧ (∀ d, d ≠ c → t.core d = s.core d) ∧
          t.ctx c h.ctx.toNat = took ∧ (t.core c).fetch = some ⟨h.ctx.toNat, x.pc, half, false, b.2.1⟩ ∧
          (t.core c).streams = k.streams ∧
          ∃ z ∈ (t.core c).xfers, z.work = .block ∧ z.addr = b.2.1 ∧ Asked t c h.ctx.toNat b.2.1 1024 z.reqs))) ∧
    (k.fetch = some f →
      (f.loc = false → (∃ z ∈ k.xfers, z.work = .block ∧ z.reqs ≠ []) → exec (.descriptorBlockAccepted h.core) s = .next s) ∧
      ∀ bs, ((f.loc = true ∧ CleanAt s (windowAddr c f.addr) 1024 ∧ bs = s.bytes (windowAddr c f.addr) 1024) ∨
        (f.loc = false ∧ ∃ z, k.xfers.find? (fun q => q.work = .block) = some z ∧ z.bad = false ∧ bs = z.data)) →
      (∀ z ∈ k.xfers, z.work = .block → z.reqs = []) →
      (s.blockFault bs (s.groupsOf c) = 0 → ∃ t, exec (.descriptorBlockAccepted h.core) s = .next t ∧
        t = { s with cores := t.cores } ∧ (∀ d, d ≠ c → t.core d = s.core d) ∧ (t.core c).fetch = none ∧
        (t.core c).ctxs = k.ctxs ∧
        (∀ i, i < 16 → let d := descOf ((bs.drop (64 * i)).take 64)
          (t.core c).stream ((if f.half then 16 else 0) + i) = (if d.kind = 0 then {} else { st := .armed, desc := d })) ∧
        ∀ m, m ∉ halfStreams f.half → (t.core c).stream m = k.stream m) ∧
      (s.blockFault bs (s.groupsOf c) ≠ 0 → f.ctx < 4 → s.jobOf c = none →
        ∃ t, exec (.descriptorBlockAccepted h.core) s = .next t ∧ (t.core c).fetch = none ∧
          (t.ctx c f.ctx).st = .faulted ∧ (t.ctx c f.ctx).pc = f.pc ∧ ∀ m, (t.core c).stream m = k.stream m)) ∧
    (HasHead s h → v < 2 ^ 32 →
      ((∃ m, m < 32 ∧ v.testBit m = true ∧ k.fetching m = true) → exec (.sstart h sa) s = .next s) ∧
      (k.held = false → (∀ m, m < 32 → v.testBit m = true → k.fetching m = false) →
        (∀ m, m < 32 → v.testBit m = true → (k.stream m).eligible = true → s.startCause c h.ctx.toNat (k.stream m).desc = 0) →
        goes (.sstart h sa) (fun t => (t.core c).fetch = k.fetch ∧ (t.core c).waiters = k.waiters ∧ ∀ m, (t.core c).stream m =
          if m < 32 ∧ v.testBit m = true ∧ (k.stream m).eligible = true then (k.stream m).start h.ctx.toNat
          else k.stream m))) ∧
    (HasHead s h → goes (.sstop h sa) (fun t => (t.core c).fetch = k.fetch ∧ ∀ m, m < 32 →
      let u := k.stream m
      let z := (t.core c).stream m
      if v.testBit m = true ∧ (u.st = .running ∨ u.st = .held) then
        (∀ q ∈ (t.core c).waiters, q.2.1 ≠ .stream m) ∧ z.emptyListed = false ∧
        (u.quiet = true → z.st = .stopped) ∧
        (u.quiet = false → z.st = u.st ∧ z.reqs = u.reqs ∧ z.stopping = h.ctx.toNat :: u.stopping) ∧
        z.desc = u.desc ∧ z.chunks = u.chunks
      else z = u)) ∧
    (HasHead s h → k.fetching n = true ∨ y.st = .running ∨ y.st = .held → exec (.srearm h sa sb str) s = .next s) ∧
    (HasHead s h → k.fetching n = false → y.eligible = true →
      let rows := if sb = 0 then none else some (x.reg sb.toNat).toNat
      s.rearmCause y.desc v rows = 0 →
      goes (.srearm h sa sb str) (fun t => (t.core c).fetch = k.fetch ∧ (t.core c).waiters = k.waiters ∧
        (t.core c).stream n = { y with st := .armed, desc := y.desc.rearmed v (rows.getD 0) } ∧
        ∀ m, m ≠ n → (t.core c).stream m = k.stream m)) ∧
    (HasHead s h → k.fetching n = false → y.eligible = false → y.st ≠ .running → y.st ≠ .held →
      ∃ t, exec (.srearm h sa sb str) s = .next t ∧ WentTo s t h uStream (x.pc + 8)) ∧
    (HasHead s h → ∃ t, exec (.sstat h sd str) s = .next t ∧ Wrote s t h uStream (x.pc + 8) sd (BitVec.ofNat 64
      (y.st.code * 2 ^ 61 + y.ctx % 4 * 2 ^ 59 + (if y.st = .faulted then y.cause % 8 else 0) * 2 ^ 56 +
        y.chunks % 2 ^ 24 * 2 ^ 32 + (if y.desc.kind = 5 then y.lastVer % 2 ^ 32 else 0))))

/-- R220, R230 to R233, R259, R287: a running stream waits on EMPTYSEM before a chunk, then moves one piece in its turn: LOCAL copies
it between banks, PUSH sends it as a WRITE flit, LOAD and GATHER send a request and keep it outstanding, STORE sends a request and its
data, CONTRIB packs its rows for the ring; a stream that cannot act or whose turn has not come does nothing. A chunk whose condition
is met counts once, makes its increment, and the last one ends the stream. -/
def Obligations.StreamsMoveAndComplete : Prop :=
  ∀ (s : State) (core : CoreIx) (str : BitVec 5),
    let c := core.toNat
    let n := str.toNat
    let k := s.core c
    let x := k.stream n
    let m := x.desc.emptySem
    let p := x.desc.srcPos x.row + x.byte
    let q := x.desc.dstPos x.row + x.byte
    let len := x.piece p q
    let size := x.requestPiece p
    let g := ceilDiv (p % 64 + size) 64
    let others (t : State) : Prop :=
      (∀ d, d ≠ c → t.core d = s.core d) ∧ (t.core c).ctxs = k.ctxs ∧ ∀ j, j ≠ n → (t.core c).stream j = k.stream j
    let sends (p : State → Prop) : Prop := ∃ t, exec (.streamGranule core str) s = .next t ∧
      t = { s with cores := t.cores, net := t.net, obs := t.obs } ∧ others t ∧ (t.core c).served = n ∧
      (t.core c).sems = k.sems ∧ (t.core c).tregs = k.tregs ∧ p t
    let asks (site : Nat) (pay : List Byte) : Prop :=
      let r := x.request site 0 (q / 64 * 64) p q size g
      sends (fun t => (t.core c).stream n = { x.advance size with reqs := x.reqs ++ [r] } ∧ InNet t c (siteReqFlit c site pay))
    (s.canMove c n = true → x.needsEmpty = true → x.emptyListed = false → ∃ t, exec (.streamGranule core str) s = .next t ∧
      t = { s with cores := t.cores } ∧ others t ∧
      (if k.hasWaiter m = false ∧ 1 ≤ (k.sem m).value then
        ((t.core c).sem m).value + 1 = (k.sem m).value ∧ (t.core c).stream n = { x with emptyServed := true } ∧
        (t.core c).waiters = k.waiters
      else (t.core c).sems = k.sems ∧ (t.core c).stream n = { x with emptyListed := true } ∧
        (t.core c).waiters = k.waiters ++ [(m, .stream n, 1)])) ∧
    (s.canMove c n = false ∨ (x.needsEmpty = false ∧ (s.canAct c n = false ∨ s.servesNext c n = false)) →
      exec (.streamGranule core str) s = .next s) ∧
    (s.canAct c n = true → s.servesNext c n = true →
      (x.desc.kind = dkLocal → CleanAt s (windowAddr c p) len → CleanAt s (windowAddr c q) len →
        ∃ t, exec (.streamGranule core str) s = .next t ∧ t = { s with cores := t.cores, mem := t.mem, codeErr := t.codeErr } ∧
          others t ∧ (t.core c).served = n ∧ (t.core c).stream n = x.advance len ∧
          t.bytes (windowAddr c q) len = s.bytes (windowAddr c p) len ∧
          ∀ b, b < windowAddr c q ∨ windowAddr c q + len ≤ b → t.byte b = s.byte b) ∧
      (∀ d off, x.desc.kind = dkPush → farCore c x.desc.dstMode (x.desc.dstPos x.row) = some (d, off) →
        let at_ := off + x.byte
        let size := x.piece p at_
        CleanAt s (windowAddr c p) size → d < 4096 → s.net.oos.contains d = false →
        sends (fun t => (t.core c).stream n = x.advance size ∧ ∃ f, InNet t c f ∧ f.op.toNat = opWrite ∧
          f.dkind.toNat = kCore ∧ f.dest.toNat = d ∧ f.skind.toNat = kCore ∧ f.src.toNat = c ∧
          f.wen = BitVec.ofNat 2 (wordEnables at_ size) ∧
          (f.payload.drop (at_ % 64)).take size = s.bytes (windowAddr c p) size ∧
          (f.last = true ↔ x.desc.full = true ∧ x.lastOfChunk size = true) ∧
          (f.last = true → f.sem.toNat = x.desc.fullSem % 64))) ∧
      (x.desc.kind = dkLoad → (inHost p size || s.inStack p size || s.inSiteWindow p size) = true →
        asks (s.siteOfAddr p) (stackRequest 1 x.ctx g (p / 64 * 64) (q / 64 * 64) 0)) ∧
      (x.desc.kind = dkGather →
        asks x.desc.site (gatherRequest x.ctx g x.desc.tensor (p / 64 * 64) (q / 64 * 64) (x.expect.getD x.desc.version)
          x.desc.plane)) ∧
      (x.desc.kind = dkStore → (inHost q len || s.inStack q len) = true → CleanAt s (windowAddr c p) len →
        let site := s.siteOfAddr q
        let tag := k.nextTag
        sends (fun t => (t.core c).nextTag = (tag + 1) % 2 ^ 23 ∧
          (∃ r, (t.core c).stream n = { x.advance len with reqs := x.reqs ++ [r] } ∧ r.site = site ∧ r.tag = tag ∧
            r.addr = q / 64 * 64 ∧ r.rowStart = q ∧ r.rowBytes = len) ∧
          InNet t c (siteReqFlit c site (stackRequest 2 x.ctx 1 (q / 64 * 64) 0 tag)) ∧
          ∃ f, InNet t c f ∧ f.op.toNat = opSiteData ∧ f.tag = tag % 2 ^ 23 ∧ f.wen = BitVec.ofNat 2 (wordEnables q len) ∧
            (f.payload.drop (q % 64)).take len = s.bytes (windowAddr c p) len)) ∧
      (x.desc.kind = dkContrib → (k.ring x.desc.site).role ≠ 1 → (k.ring x.desc.site).skd ≠ 1 →
        let len := min (min (toBoundary p 64) (64 - x.part.length)) (x.desc.rb - x.byte)
        let part := x.part ++ s.bytes (windowAddr c p) len
        let y := x.advance len
        CleanAt s (windowAddr c p) len →
        ∃ t, exec (.streamGranule core str) s = .next t ∧ t = { s with cores := t.cores } ∧ others t ∧ (t.core c).served = n ∧
          (if part.length = 64 ∨ y.desc.rows ≤ y.row then
            (t.core c).stream n = { y with part := [], seq := x.seq + 1 } ∧
            (t.core c).join x.desc.site = { k.join x.desc.site with
              locals := (k.join x.desc.site).locals ++ [(x.seq, part ++ List.replicate (64 - part.length) 0)] }
          else (t.core c).stream n = { y with part := part } ∧ (t.core c).joins = k.joins))) ∧
    ((x.st = .running ∨ x.st = .held) → x.chunks < x.metChunks →
      ∃ t, exec (.streamChunkComplete core str) s = .next t ∧
        t = { s with cores := t.cores, obs := t.obs, regs := t.regs } ∧ others t ∧
        (t.core c).stream n = (if x.chunks + 1 = x.desc.chunks then
          { x with chunks := x.chunks + 1, st := .done, stopping := [] } else ({ x with chunks := x.chunks + 1 } : Stream).settle) ∧
        (if x.desc.full = true ∧ x.desc.kind ≠ dkPush then
          ((t.core c).sem x.desc.fullSem).value = min ((k.sem x.desc.fullSem).value + 1) 65535 ∧
          ∀ j, j ≠ x.desc.fullSem → (t.core c).sem j = k.sem j
        else (t.core c).sems = k.sems)) ∧
    (¬((x.st = .running ∨ x.st = .held) ∧ x.chunks < x.metChunks) → exec (.streamChunkComplete core str) s = .next s)

/-! ### The wafer network -/

/-- R202, R231, R244, R260, R274, R136, R289: a flit acts where it arrives, the oldest of its buffer, and leaves the network there;
before that nothing happens. At a core in service a clean WRITE stores its enabled words, or the granule that a LOAD awaits where its
row puts it, ADD32 adds its 16 elements into bank D, SEMINC adds its value, RED lands in its member's next slot, RCREDIT returns
landing credits, and a success record ends the STORE request it answers; a LAST flit then increments its semaphore.
It rests on the model's choices in assumption log 10, 66, 80. -/
def Obligations.FlitsActWhereTheyArrive : Prop :=
  ∀ (s u : State) (f : Flit),
    let c := f.dest.toNat
    let k := u.core c
    let a := windowAddr c (64 * f.addr.toNat)
    let lastAdds (t : State) : Prop :=
      (∀ n, f.last = false ∨ n ≠ f.sem.toNat → (t.core c).sem n = k.sem n) ∧
      (f.last = true → ((t.core c).sem f.sem.toNat).value = min ((k.sem f.sem.toNat).value + 1) 65535)
    let arrives (i : Instr) (op : Nat) (p : State → Prop) : Prop :=
      f.op.toNat = op → f.dkind.toNat = kCore → s.toLost f = false → s.siteFenced c = false → f.payload.length = 64 →
      f.err0 = 0 → f.err1 = 0 → s.take f = some u →
      ∃ t, exec i s = .next t ∧ (t.core c).ctxs = k.ctxs ∧ (∀ d, d ≠ c → t.core d = u.core d) ∧ p t
    (∀ y, s.arrival f = some y → f.dkind.toNat = kCore → ∃ u, s.take f = some u ∧ NetMoved s u ∧
      y ∈ s.net.flights ∧ y.flit = f ∧ y.at_ = s.routeTarget f ∧ headsBuffer s.net.flights y = true ∧
      u.net = ((s.leave y).refill y.at_).net) ∧
    (s.arrival f = none → ∀ i ∈ [Instr.write f, .add32 f, .seminc f, .red f, .rcredit f, .strict f, .siteData f],
      exec i s = .next s) ∧
    (f.skind.toNat = kCore → f.addr.toNat ≤ 98303 →
      arrives (.write f) opWrite (fun t => t.net = u.net ∧ lastAdds t ∧
        (∀ w, w < 2 → f.wen.getLsbD w = true → t.bytes (a + 32 * w) 32 = (f.payload.drop (32 * w)).take 32) ∧
        ∀ b, (∀ w, w < 2 → f.wen.getLsbD w = true → b < a + 32 * w ∨ a + 32 * w + 32 ≤ b) → t.byte b = s.byte b)) ∧
    (∀ n r, f.skind.toNat ≠ kCore → k.xferAt f.peer f.addr.toNat = none → k.requestAt f.peer f.addr.toNat = some (n, r) →
      (k.stream n).desc.kind = dkLoad →
      arrives (.write f) opWrite (fun t => t.net = u.net ∧ (t.core c).sems = k.sems ∧
        (t.core c).stream n = ({ k.stream n with
          reqs := if r.left = 1 then (k.stream n).reqs.filter (fun y => y ≠ r)
            else replaceReq r { r with left := r.left - 1 } (k.stream n).reqs } : Stream).settle ∧
        (∀ m, m ≠ n → (t.core c).stream m = k.stream m) ∧
        (∀ w q, w < 2 → r.wordPlace (r.len - r.left) w = some q →
          t.bytes (windowAddr c q) 32 = (f.payload.drop (32 * w)).take 32) ∧
        ∀ b, (∀ w q, w < 2 → r.wordPlace (r.len - r.left) w = some q → b < windowAddr c q ∨ windowAddr c q + 32 ≤ b) →
          t.byte b = s.byte b)) ∧
    (inBank 3 (64 * f.addr.toNat) 64 = true → CleanAt s a 64 →
      arrives (.add32 f) opAdd32 (fun t => lastAdds t ∧ ((s.sampling c).1 = false → t.net = u.net) ∧
        (∀ i, i < 16 → t.num (a + 4 * i) 4 = (memAdd (BitVec.ofNat 32 (s.num (a + 4 * i) 4))
          (BitVec.ofNat 32 (f.field (4 * i) 4))).1.toNat) ∧
        (∀ b, b < a ∨ a + 64 ≤ b → t.byte b = s.byte b) ∧ (t.core c).addOrdinal = k.addOrdinal + 1)) ∧
    (arrives (.seminc f) opSeminc (fun t => t.mem = s.mem ∧ t.net = u.net ∧
      ((t.core c).sem f.sem.toNat).value = min ((k.sem f.sem.toNat).value + f.field 0 2) 65535 ∧
      ∀ n, n ≠ f.sem.toNat → (t.core c).sem n = k.sem n)) ∧
    (∀ g, s.groupOfVc f.vc.toNat = some g → (k.ring g).role = 2 ∨ (k.ring g).role = 3 →
      let e := k.ring g
      let j := k.join g
      let la := windowAddr c (e.landOff + 64 * j.nextSlot)
      la % 32 = 0 →
      arrives (.red f) opRed (fun t => t.net = u.net ∧ t.bytes la 64 = f.payload ∧
        (∀ b, b < la ∨ la + 64 ≤ b → t.byte b = s.byte b) ∧
        (t.core c).join g = { j with
          landed := j.landed ++ [(f.addr.toNat, j.nextSlot)], nextSlot := (j.nextSlot + 1) % e.landLen, pred := f.src.toNat } ∧
        ∀ n, n ≠ g → (t.core c).join n = k.join n)) ∧
    (∀ g, s.groupOfVc f.vc.toNat = some g → (k.ring g).role ≠ 0 →
      arrives (.rcredit f) opRcredit (fun t => t.mem = s.mem ∧ t.net = u.net ∧
        (t.core c).join g = { k.join g with credits := (k.join g).credits + f.addr.toNat } ∧
        ∀ n, n ≠ g → (t.core c).join n = k.join n)) ∧
    (∀ n r, k.xferFor f.peer (f.field 4 4) (f.field 8 8) = none →
      k.requestFor f.peer (f.field 4 4) (f.field 8 8) = some (n, r) → (k.stream n).desc.kind = dkStore → f.field 0 1 = 0 →
      arrives (.siteData f) opSiteData (fun t => t.mem = s.mem ∧ t.net = u.net ∧
        (t.core c).stream n = ({ k.stream n with reqs := (k.stream n).reqs.filter (fun q => q ≠ r) } : Stream).settle ∧
        ∀ m, m ≠ n → (t.core c).stream m = k.stream m))

/-- R245, R248, R250, R251: of the flits that head their buffers and hold a credit for it an output grants one: VC0 first in compact
mode, then one that has waited 1,024 cycles, the oldest first, else the next VC in turn; a granted flit passes to the next router of
its route and one that is not granted waits; a flit for a core out of service is absorbed and counted, and one whose header is
uncorrectable is discarded, counted and recorded. It rests on the model's choices in assumption log 10. -/
def Obligations.RoutersGrantAndForward : Prop :=
  ∀ (s : State) (router : CoreIx) (out : Fin 4) (link : Fin 6) (f : Flit) (x : Flight),
    let r := router.toNat
    let k := 5 * r + out.val
    let z := s.refill r
    let l := z.contenders r out.val
    let vcOf (p : Flight × Flight) : Nat := p.1.flit.vc.toNat
    let turn (v : Nat) : Nat := (v + 7 - Tab.get 0 s.net.lastGrant k % 8) % 8
    let old (p : Flight × Flight) : Prop := 1024 ≤ z.headFor p.1
    let count (t : State) (n : Nat) : Nat := Tab.get 0 (Tab.get {} t.obs.routers r).vals n
    let moved (t : State) (p : Flight × Flight) : Prop :=
      NetMoved s t ∧ t.obs.log = s.obs.log ∧ InNet t p.2.at_ p.2.flit ∧
      p.2.flit = { p.1.flit with route := p.2.flit.route } ∧
      z.nextHop r (z.routeTarget p.1.flit) p.1.flit.route.toNat = some (p.2.at_, p.2.flit.route.toNat) ∧
      Tab.get 0 t.net.lastGrant (5 * r + outputTo r p.2.at_) = vcOf p
    NetMoved s z ∧
    (l = [] → z.granted r out.val = none) ∧
    (l ≠ [] → ∃ p ∈ l, z.granted r out.val = some p ∧
      (s.net.expansive = false → (∃ q ∈ l, vcOf q = 0) → vcOf p = 0) ∧
      ((s.net.expansive = true ∨ ∀ q ∈ l, vcOf q ≠ 0) →
        ((∃ q ∈ l, old q) → old p ∧ ∀ q ∈ l, old q → p.1.since ≤ q.1.since) ∧
        ((∀ q ∈ l, ¬old q) → ∀ q ∈ l, turn (vcOf p) ≤ turn (vcOf q))) ∧
      (s.forwards r = true → old p → ∃ t, exec (.routerAgeGrant router out p.1.flit) s = .next t ∧ moved t p) ∧
      (s.forwards r = true → ¬old p ∨ p.1.flit ≠ f → exec (.routerAgeGrant router out f) s = .next s)) ∧
    (s.forwards r = false → exec (.routerAgeGrant router out f) s = .next s ∧
      ∀ hdr, exec (.flitForward router link hdr f) s = .next s) ∧
    (s.forwards r = true → z.headAt r link.val f = some x → (link.val = 5 ∨ flitFieldsOk f = true) →
      (∀ p, z.toLost f = false → z.hopOf x = some p →
        (z.granted r (outputTo r p.2.at_) = some p →
          ∃ t, exec (.flitForward router link .clean f) s = .next t ∧ moved t p ∧ p.1.flit = f) ∧
        (z.granted r (outputTo r p.2.at_) ≠ some p → exec (.flitForward router link .clean f) s = .next z)) ∧
      (z.toLost f = true → ∃ t, exec (.flitForward router link .clean f) s = .next t ∧ NetMoved s t ∧ t.obs.log = s.obs.log ∧
        t.net = ((z.leave x).refill r).net ∧ count t 10 = satAdd48 (count s 10) 1)) ∧
    (s.forwards r = true → z.headAt r link.val f = some x → link.val < 5 → (∀ j, j < 8 → (s.job j).st ≠ .running) →
      (Tab.get [] s.integ.routerFaults r).length ≤ 1 → LogRoom s 1 →
      ∃ t, exec (.flitForward router link .uncorrectable f) s = .next t ∧ t.mem = s.mem ∧
        (∀ d, (t.core d).ctxs = (s.core d).ctxs) ∧ t.net = ((z.leave x).refill r).net ∧
        count t (5 + link.val) = satAdd48 (count s (5 + link.val)) 1 ∧
        Logged t .flitHeaderBad (.core r) [(2, r), (1, link.val), (1, f.vc.toNat)])

/-- R261, R262, R264, R276, R399, R400, R587: a join sums its pair element by element, sends the sum to its successor for one credit,
poisons and reports a word it could not read, frees both granules and returns each 16 credits; at an I/O die site a Standard granule
enters its chunk and a Strict one is added exactly into its slot; a MARKER closes its channel at a unit that has captured or now
captures; backpressure is recorded with its injector and VC. It rests on the model's choices in assumption log 10, 51, 80. -/
def Obligations.JoinsAccumulatorsAndMarkersAct : Prop :=
  ∀ (s z : State) (core : CoreIx) (pair : JoinPair) (slot q : Nat) (mine : List Byte) (ls : List (Nat × Nat))
    (ms : List (Nat × List Byte)) (f : Flit) (unit : UnitId) (chan : Nat) (vc : BitVec 3),
    let c := core.toNat
    let g := pair.group.toNat
    let lost := pair.lost
    let e := (s.core c).ring g
    let j := (s.core c).join g
    let a := windowAddr c (e.landOff + 64 * slot)
    let u := unit.src
    let i := f.dest.toNat
    let x := z.ioSite i
    (∀ k, j.landed = (q, slot) :: ls → j.locals = (k, mine) :: ms → q = k % 2 ^ 17 → j.credits = 0 →
      exec (.ringJoin core pair) s = .next s) ∧
    (∀ k, j.landed = (q, slot) :: ls → j.locals = (k, mine) :: ms → q = k % 2 ^ 17 → 1 ≤ j.credits → mine.length = 64 →
      CleanAt s a 64 → (e.skd ≠ 1 → s.net.oos.contains (e.succ % 4096) = false) →
      (lost = 0 ∨ (s.jobOf c = none ∧ (s.sampling c).1 = false ∧ (Tab.get [] s.integ.routerFaults c).length ≤ 1)) →
      ∃ t d, exec (.ringJoin core pair) s = .next t ∧ t.mem = s.mem ∧ t.codeErr = s.codeErr ∧ InNet t c d ∧
        d.op.toNat = opRed ∧ d.dkind.toNat = (if e.skd = 1 then kSite else kCore) ∧ d.dest.toNat = e.succ % 4096 ∧
        d.addr.toNat = q ∧ d.src.toNat = c ∧
        d.err0 = (if lost.getLsbD 0 then poisonPattern else 0) ∧ d.err1 = (if lost.getLsbD 1 then poisonPattern else 0) ∧
        (∀ i, i < 32 → d.field (2 * i) 2 =
          ((decodeWide fmtFP32 (((decodeWide fmtBF16 (s.num (a + 2 * i) 2)).add
            (decodeWide fmtBF16 (leNat ((mine.drop (2 * i)).take 2)))).toSat fmtFP32 none).1).toSat fmtBF16 none).1) ∧
        (t.core c).join g = { j with
          landed := ls, locals := ms, freed := (if 16 ≤ j.freed + 1 then 0 else j.freed + 1), credits := j.credits - 1
          pairs := j.pairs + 1 } ∧
        (16 ≤ j.freed + 1 → s.net.oos.contains (j.pred % 4096) = false → ∃ r, InNet t c r ∧ r.op.toNat = opRcredit ∧
          r.dkind.toNat = kCore ∧ r.dest.toNat = j.pred % 4096 ∧ r.addr.toNat = 16) ∧
        (lost ≠ 0 → LogRoom s 1 → Recorded t .flitUncorrectable (.core c) [(2, c), (1, g), (4, k)]) ∧
        (t.core c).ctxs = (s.core c).ctxs ∧ (t.core c).sems = (s.core c).sems ∧
        (∀ d, d ≠ c → t.core d = s.core d) ∧ ∀ n, n ≠ g → (t.core c).join n = (s.core c).join n) ∧
    (∀ k, j.landed = (q, slot) :: ls → j.locals = (k, mine) :: ms → q ≠ k % 2 ^ 17 → s.jobOf c = none → LogRoom s 1 →
      ∃ t, exec (.ringJoin core pair) s = .next t ∧ t.mem = s.mem ∧ t.net = s.net ∧ t.cores = s.cores ∧
        Logged t .ringMismatch (.core c) [(2, c), (1, g), (4, k), (4, q)]) ∧
    (∀ n w l o p, f.dkind.toNat = kSite → f.skind.toNat = kCore → s.isIo i = true → s.take f = some z → x.fenced = false →
      x.landing = [] → z.groupOfVc f.vc.toNat = some n → z.siteWindow i f.src.toNat n = some w →
      x.currentOpen f.src.toNat n = some o → (z.job w.1).layout = some l → flitPayload f = some p →
      let at_ := o.offset + 64 * o.seen
      let size := ((l.tensors.find? (fun t => t.tensor = o.tensor)).map (fun t => l.outbound t)).getD 0
      (f.op.toNat = opRed → w.2.strict = false → ∃ t, exec (.red f) s = .next t ∧ t.mem = s.mem ∧ t.jobs = z.jobs ∧
        (t.ioSite i).opens = countGranule o x.opens ∧ (t.ioSite i).landing = [] ∧
        (t.ioSite i).chunks = putChunk o.job n o.tensor size false false at_ p x.chunks ∧
        ∀ d, d ≠ i → t.ioSite d = z.ioSite d) ∧
      (∀ y, f.op.toNat = opStrict → w.2.strict = true → x.slots.find? (fun v => v.is_ o.job n o.tensor at_) = some y →
        y.count + 1 < z.windowMembers w.1 i n → ∃ t, exec (.strict f) s = .next t ∧ t.mem = s.mem ∧ t.jobs = z.jobs ∧
        (t.ioSite i).opens = countGranule o x.opens ∧ (t.ioSite i).landing = [] ∧ (t.ioSite i).chunks = x.chunks ∧
        (t.ioSite i).slots.find? (fun v => v.is_ o.job n o.tensor at_) =
          some { y with count := y.count + 1, elems := y.elems.zipWith ExactElem.add (granuleWords p) } ∧
        ∀ d, d ≠ i → t.ioSite d = z.ioSite d)) ∧
    (s.cutting = true → s.hasChannel u chan = true →
      ((s.captureOf u).isSome = true ∨ (s.captures u = true ∧ s.shifting u = false)) →
      ∃ t y, exec (.marker unit chan) s = .next t ∧ t.captureOf u = some y ∧ chan ∈ y.markers ∧
        ((∀ i, unit ≠ .site i) → t.mem = s.mem ∧ t.net = s.net) ∧
        (s.captureOf u = none → y.time = s.time ∧ y.cause = 2 + 16 * (chan / 16)) ∧
        ∀ v, s.captureOf u = some v → y = { v with markers := y.markers } ∧ t = { s with obs := t.obs }) ∧
    (LogRoom s 1 → ∃ t, exec (.netBackpressure unit vc) s = .next t ∧ t = { s with obs := t.obs, regs := t.regs } ∧
      match unit with
      | .core d => Logged t .netBackpressure (.field (fieldOf d.toNat)) [(1, 0), (2, d.toNat), (1, vc.toNat)]
      | .site i => Logged t .netBackpressure (.field (fieldOf (s.attachCore i.val 0))) [(1, 1), (2, i.val), (1, vc.toNat)]
      | .hid => Logged t .netBackpressure (.field (fieldOf hidCore)) [(1, 2), (2, 0), (1, vc.toNat)])

/-! ### Memory stacks and temper units -/

/-- R287 to R291, R397, R424, R537: a request waits while its site is full, hot, or cannot activate its bank. A READ that its site
admits returns its granules and changes no memory, and where it is drawn the words that a second read finds different go poisoned; one
behind an open WRITE of its requester to the granule waits for it; one the site refuses is answered by one record. An admitted WRITE
opens, each data flit writes its enabled words and no other byte, and the last one sends the record.
It rests on the model's choices in assumption log 24, 29. -/
def Obligations.StackSitesServeRequests : Prop :=
  ∀ (s u : State) (f : Flit) (r : SiteReq) (w : OpenWrite),
    let a := fieldAt r.bytes 8 8
    let len := fieldAt r.bytes 2 2
    let doff := fieldAt r.bytes 16 4
    let tag := fieldAt r.bytes 20 4
    let gate (fromSite : Bool) (c : Nat) : Nat := s.attachCore r.site (if fromSite then 0 else c % 7)
    let granule (i : Nat) : Flit := r.dataFlit doff i (s.bytes (a + 64 * i) 64)
    let doubtful (k w : Nat) (g : Flit) : Flit := if Config.misread (s.freeIndex + k) = true then g.poisonWord w else g
    let x := s.stack r.site
    let hears (fromSite : Bool) (c : Nat) : Prop := c < 4096 ∧ (fromSite = false → s.net.oos.contains c = false)
    let others (t : State) : Prop := ∀ d, d ≠ r.site → t.stack d = s.stack d
    let taken : Prop := siteReqOf f = some r ∧ s.isStack r.site = true ∧ s.take f = some u ∧ s.requestWaits r = false
    let admitted : StackSite := { x with lastAdmit := some s.stackCycle }
    let open_ : Prop := taken ∧ r.wellFormed = true ∧ hears r.fromSite r.core
    let answered (t : State) (st id : Nat) : Prop :=
      InNet t (gate r.fromSite r.core) (recordFlit r.fromSite r.site r.core st (r.ctx % 4) len id a)
    (siteReqOf f = some r → s.isStack r.site = true → s.requestWaits r = true →
      (r.opc = 1 → exec (.read f) s = .next s) ∧ (r.opc = 2 → exec (.stackWrite f) s = .next s)) ∧
    (open_ → r.opc = 1 → (r.fromSite = true ∨ s.windowBytes r.site a (64 * len) = none) →
      (s.stackStatus r false = 0 → CleanAt s a (64 * len) → x.st = .online → x.writes.any (fun y => y.before r) = false →
        ∃ t, exec (.read f) s = .next t ∧ t.mem = s.mem ∧ t.codeErr = s.codeErr ∧ others t ∧
          (t.stack r.site).reads = x.reads + 1 ∧ (t.stack r.site).writes = x.writes ∧
          (s.doubleRead r = false → ∀ i, i < len → InNet t (gate r.fromSite r.core) (granule i)) ∧
          (s.doubleRead r = true → x.writes = [] → ∀ i, i < len →
            InNet t (gate r.fromSite r.core) (doubtful (2 * i + 1) 1 (doubtful (2 * i) 0 (granule i))))) ∧
      (s.stackStatus r false = 0 → x.writes.any (fun y => y.before r) = true →
        ∃ t, exec (.read f) s = .next t ∧ t.mem = s.mem ∧ t.net = u.net ∧ others t ∧
          t.stack r.site = { admitted with
            held := x.held ++ [(f, (x.writes.filter (fun y => y.before r)).map (·.tag))] }) ∧
      (s.stackStatus r false ≠ 0 → ∃ t, exec (.read f) s = .next t ∧ t.mem = s.mem ∧ others t ∧ t.stack r.site = admitted ∧
        answered t (s.stackStatus r false) doff)) ∧
    (open_ → r.opc = 2 → s.stackStatus r true = 0 → x.st = .online →
      ∃ t, exec (.stackWrite f) s = .next t ∧ t.mem = s.mem ∧ t.net = u.net ∧ others t ∧
        (s.toOwned r = true → (t.ctx r.core r.ctx).replayUnsafe = true) ∧
        (t.stack r.site).writes = x.writes ++ [⟨r.core, r.fromSite, tag % 2 ^ 23, a, len, r.ctx, 0, false, false⟩]) ∧
    (open_ → r.opc = 2 → s.stackStatus r true ≠ 0 →
      ∃ t, exec (.stackWrite f) s = .next t ∧ t.mem = s.mem ∧ others t ∧ answered t (s.stackStatus r true) tag ∧
        (t.stack r.site).writes = x.writes ++ [⟨r.core, r.fromSite, tag % 2 ^ 23, a, len, r.ctx, 0, true, false⟩]) ∧
    (taken → r.wellFormed = false → hears r.fromSite r.core →
      (r.opc = 1 → ∃ t, exec (.read f) s = .next t ∧ t.mem = s.mem ∧ answered t 6 doff) ∧
      (r.opc = 2 → ∃ t, exec (.stackWrite f) s = .next t ∧ t.mem = s.mem ∧ answered t 6 tag)) ∧
    (f.dkind.toNat = kSite → f.op.toNat = opSiteData → f.skind.toNat ≤ kSite → f.dest.toNat = r.site →
      s.isStack r.site = true → s.take f = some u →
      x.writes.find? (fun y => y.is (decide (f.skind.toNat = kSite)) f.src.toNat f.tag) = some w →
      w.refused = false → w.uncorrectable = false → x.st = .online → f.wen ≠ 0 → f.err0 = 0 → f.err1 = 0 →
      f.payload.length = 64 →
      let b := w.addr + 64 * w.done
      let wrote (t : State) : Prop :=
        (∀ k, k < 2 → f.wen.getLsbD k = true → t.bytes (b + 32 * k) 32 = (f.payload.drop (32 * k)).take 32) ∧
        ∀ i, (∀ k, k < 2 → f.wen.getLsbD k = true → i < b + 32 * k ∨ b + 32 * k + 32 ≤ i) → t.byte i = s.byte i
      (f.wen = 3 ∨ (CleanAt s b 64 ∧ b % 32 = 0 ∧ ∀ k, (s.stack k).st = .online)) →
      (w.done + 1 < w.len → ∃ t, exec (.stackWriteData f) s = .next t ∧ wrote t ∧ t.net = u.net ∧ others t ∧
        (t.stack r.site).writes.find? (fun y => y.is w.fromSite w.src w.tag) = some { w with done := w.done + 1 }) ∧
      (w.done + 1 = w.len → x.held = [] → hears w.fromSite w.src →
        ∃ t, exec (.stackWriteData f) s = .next t ∧ wrote t ∧ others t ∧
          (t.stack r.site).writes.length + 1 = x.writes.length ∧
          InNet t (gate w.fromSite w.src) (recordFlit w.fromSite r.site w.src 0 (w.ctx % 4) w.len w.tag w.addr)))

/-- R284, R293 to R296: a refresh management command takes its threshold from its bank's count and unblocks it; the scrubber counts an
activation, waits for a blocked bank, leaves a clean word alone and writes a corrected one back, counted; a stack that fails to answer
is fenced once and recorded. It rests on the model's choices in assumption log 15, 16, 18, 24. -/
def Obligations.StacksAreRefreshedScrubbedAndFenced : Prop :=
  ∀ (s : State) (site : Fin 36) (bank word : Nat),
    let i := site.val
    let x := s.stack i
    let d := (rfmThresholds i).1
    let a := s.localWord i word
    let n := Tab.get 0 x.acts (s.bankOfStack a)
    let hit (t : State) : Prop := (∀ j, j ≠ i → t.stack j = s.stack j) ∧
      t.stack i = { x with acts := Tab.set 0 x.acts (s.bankOfStack a) (n + 1) }
    (s.isStack i = true → ∃ t, exec (.refresh site bank) s = .next t ∧ t = { s with stackSites := t.stackSites } ∧
      (∀ j, j ≠ i → t.stack j = s.stack j) ∧
      (Tab.get 0 x.acts bank < d → t = s) ∧
      (d ≤ Tab.get 0 x.acts bank → Tab.get 0 (t.stack i).acts bank = Tab.get 0 x.acts bank - d ∧
        bank ∉ (t.stack i).blocked ∧ ∀ b, b ≠ bank → (Tab.get 0 (t.stack i).acts b = Tab.get 0 x.acts b ∧
          (b ∈ (t.stack i).blocked ↔ b ∈ x.blocked)))) ∧
    (s.isStack i = true → word < stackWords → i ∈ s.interleave → s.stackOf a = i → x.st = .online →
      (s.rowBlocked i a = true → exec (.patrolScrub site word) s = .next s) ∧
      (s.rowBlocked i a = false → n + 1 < (rfmThresholds i).2 →
        (s.errOf (a / 32) = 0 → ∃ t, exec (.patrolScrub site word) s = .next t ∧ t = { s with stackSites := t.stackSites } ∧
          hit t) ∧
        ((wcDecode (s.errOf (a / 32))).1 = .corrected → LogRoom s 1 → ∃ t, exec (.patrolScrub site word) s = .next t ∧
          t.errOf (a / 32) = 0 ∧ t.bytes a 32 = s.delivered a 32 ∧ (∀ b, b < a ∨ a + 32 ≤ b → t.byte b = s.byte b) ∧ hit t ∧
          t.cores = s.cores ∧ Tab.get 0 (Tab.get {} t.obs.sites i).vals (pseudoOf a) =
            satAdd48 (Tab.get 0 (Tab.get {} s.obs.sites i).vals (pseudoOf a)) 1 ∧
          Logged t .stackCorrected (.site i) [(1, i), (1, pseudoOf a), (8, a)]) ∧
        ((wcDecode (s.errOf (a / 32))).1 = .poisoned → LogRoom s 1 → ∃ t, exec (.patrolScrub site word) s = .next t ∧
          t.mem = s.mem ∧ t.codeErr = s.codeErr ∧ hit t ∧
          Logged t .stackUncorrectable (.site i) [(8, a), (1, pseudoOf a)]))) ∧
    (s.isStack i = true → x.st = .online → (∀ j, j < 8 → (s.job j).st = .empty) → LogRoom s 1 →
      ∃ t, exec (.stackFenced site) s = .next t ∧ t.stack i = { x with st := .fencedRun } ∧
        (∀ j, j ≠ i → t.stack j = s.stack j) ∧ t.mem = s.mem ∧ t.cores = s.cores ∧
        Logged t .stackFenced (.site i) [(1, i), (1, 2), (1, 1)]) ∧
    (x.st ≠ .online → exec (.stackFenced site) s = .next s)

/-- R299, R301, R303 to R305, R341, R537: a TEMPER request within a commit window joins its unit's queue, one outside it is answered
with REGION; a share that a quench, a drain or a hot stack holds stands still; a share of one granule writes each element's planes from
its update, leaves an element with a non-finite value alone, and delivers its record with one increment.
It rests on the model's choices in assumption log 30. -/
def Obligations.TemperUnitsUpdateTheirElements : Prop :=
  ∀ (s u : State) (f : Flit) (r : SiteReq) (j : Nat) (site : Fin 36) (q : TemperCmd) (qs : List TemperCmd) (b : TBlock),
    let i := site.val
    let apart (p m p' m' : Nat) : Prop := p + m ≤ p' ∨ p' + m' ≤ p
    let request : Prop := siteReqOf f = some r ∧ s.isStack r.site = true ∧ r.opc = 3 ∧ r.fromSite = false ∧
      s.jobOf r.core = some j ∧ r.core < 4096
    let free : Prop := (s.stack r.site).temper.length < 9 ∧ s.hotWait r.site = false ∧ s.take f = some u
    let roff := fieldAt r.bytes 16 4
    let told (t : State) (site core roff sem : Nat) (bs : List Byte) : Prop :=
      ∃ d, InNet t (s.attachCore site (core % 7)) d ∧ d.op.toNat = opWrite ∧ d.dkind.toNat = kCore ∧ d.dest.toNat = core ∧
        d.skind.toNat = kSite ∧ d.src.toNat = site ∧ d.addr.toNat = roff / 64 ∧ d.payload = bs ∧ d.wen = 3 ∧ d.last = true ∧
        d.sem.toNat = sem
    (request → (9 ≤ (s.stack r.site).temper.length ∨ s.hotWait r.site = true) → exec (.temper f) s = .next s) ∧
    (request → free → temperOk r.bytes = true → resultArea roff = true → (s.job j).commitOpen = true →
      ∃ t, exec (.temper f) s = .next t ∧ t.mem = s.mem ∧ t.net = u.net ∧ (t.ctx r.core 2).replayUnsafe = true ∧
        (∀ d, d ≠ r.site → t.stack d = s.stack d) ∧
        (t.stack r.site).temper = (s.stack r.site).temper ++ [temperOf r j s.time]) ∧
    (request → free → temperOk r.bytes = true → resultArea roff = true → (s.job j).commitOpen = false → r.site < 4096 →
      s.net.oos.contains r.core = false →
      ∃ t, exec (.temper f) s = .next t ∧ t.stackSites = s.stackSites ∧ t.mem = s.mem ∧
        told t r.site r.core roff (fieldAt r.bytes 3 1 % 64) (temperRecord r.site 2 (fieldAt r.bytes 4 4) 0 0 0 0)) ∧
    ((s.stack i).temper = q :: qs → s.temperHeld i q.job = true → exec (.temperShareDone site) s = .next s) ∧
    ((s.stack i).temper = q :: qs → s.isStack i = true → s.temperHeld i q.job = false → q.next = 0 → q.share = {} →
      (∀ k, (s.stack k).st = .online ∧ (s.stack k).blocked = [] ∧
        ∀ n, Tab.get 0 (s.stack k).acts n + 2 < (rfmThresholds k).2) →
      (s.job q.job).inKind rkStaging q.paddr 128 = true → CleanAt s q.paddr 128 →
      temperBlock q (s.bytes q.paddr 128) = some b → temperRegions (s.job q.job) q b = true → b.pub = none →
      1 ≤ q.alg → q.alg ≤ 3 → 1 ≤ b.count → b.count ≤ 1024 → s.stackOf b.w = i →
      CleanAt s b.w (4 * b.count) → CleanAt s b.x (2 * b.count) → CleanAt s b.m (4 * b.count) →
      CleanAt s b.g (q.gBytes * b.count) → (q.alg = 1 → CleanAt s b.v (4 * b.count)) →
      apart b.w (4 * b.count) b.x (2 * b.count) → apart b.w (4 * b.count) b.m (4 * b.count) →
      apart b.x (2 * b.count) b.m (4 * b.count) →
      (q.alg = 1 → apart b.w (4 * b.count) b.v (4 * b.count) ∧ apart b.x (2 * b.count) b.v (4 * b.count) ∧
        apart b.m (4 * b.count) b.v (4 * b.count)) →
      let w (e : Nat) := s.num (b.w + 4 * e) 4 * 65536 + s.num (b.x + 2 * e) 2
      let m (e : Nat) := s.num (b.m + 4 * e) 4
      let v (e : Nat) := if q.alg = 1 then s.num (b.v + 4 * e) 4 else 0
      let g (e : Nat) := s.num (b.g + q.gBytes * e) q.gBytes
      let u (e : Nat) := tUpdate q.alg b.sc ⟨if q.gBytes = 2 then g e * 65536 else g e, false⟩ (w e) (m e) (v e)
      ∃ t, exec (.temperShareDone site) s = .next t ∧
        (∀ e, e < b.count → (u e).finite = true → t.num (b.w + 4 * e) 4 = (u e).w / 65536 % 2 ^ 32 ∧
          t.num (b.x + 2 * e) 2 = (u e).w % 65536 ∧ t.num (b.m + 4 * e) 4 = (u e).m % 2 ^ 32 ∧
          (q.alg = 1 → t.num (b.v + 4 * e) 4 = (u e).v % 2 ^ 32)) ∧
        (∀ e, e < b.count → (u e).finite = false → t.num (b.w + 4 * e) 4 = s.num (b.w + 4 * e) 4 ∧
          t.num (b.x + 2 * e) 2 = s.num (b.x + 2 * e) 2 ∧ t.num (b.m + 4 * e) 4 = m e ∧
          (q.alg = 1 → t.num (b.v + 4 * e) 4 = v e)) ∧
        (t.stack i).temper.length = qs.length ∧
        (resultArea q.roff = true → q.core < 4096 → s.net.oos.contains q.core = false →
          let n := ((List.range b.count).filter (fun e => (u e).finite)).length
          ∃ sat, told t i q.core q.roff (q.rsem % 64)
            (temperRecord i 0 q.step n sat (b.count - n) ((s.time - q.started) * 8 / 5))))

/-! ### Wafer and repair -/

/-- R54, R59 to R61, R63, R64: a fence of a site that hosts no core stores its record and is recorded with nothing lost; where the
column can shift what the core held is lost at once, the test of the spare ends and the shift begins; otherwise the core goes out
of service and its window reads zero; a shift whose drain has ended moves the column, writes corrected words back and leaves the
lost core's window zero; one abandoned before that leaves the column alone and its core out of service.
It rests on the model's choices in assumption log 10. -/
def Obligations.SitesAreFencedAndColumnsShift : Prop :=
  ∀ (s : State) (column : Fin 512) (prow : Fin 9) (cause : Fin 16),
    let col := column.val
    let p := prow.val
    let router := decide (cause.val = 6)
    let idle : Prop := ∀ j, j < 8 → (s.job j).st = .empty
    let zero (t : State) (c : Nat) : Prop := ∀ i, i < spadBytes → t.byte (windowAddr c i) = 0 ∧ t.errOf (windowAddr c i / 32) = 0
    let elsewhere (t : State) (c : Nat) : Prop :=
      (∀ a, a < windowAddr c 0 ∨ windowAddr c 0 + spadBytes ≤ a → t.byte a = s.byte a) ∧ ∀ d, d ≠ c → t.core d = s.core d
    let fenced (t : State) (spare : SiteState) : Prop :=
      t.siteState col p = .fenced ∧ (p ≠ 8 → t.siteState col 8 = spare) ∧
      (∀ d q, q < 9 → (d ≠ col ∨ q ≠ p ∧ q ≠ 8) → t.siteState d q = s.siteState d q) ∧
      t.wafer.store = s.wafer.store ++ [repairWord 2 (col / 8) p (col % 8) 0 0 cause.val 0 0 s.sec.bootCount] ∧
      (t.wafer.deadRouters.contains (col * 9 + p) = (router || s.wafer.deadRouters.contains (col * 9 + p)))
    let news : Prop := s.siteState col p ≠ .fenced ∧ 1 ≤ cause.val ∧ cause.val ≤ 6 ∧ s.wafer.store.length < 16384 ∧
      s.integ.cper.length < 256
    let lost (t : State) (c : Nat) : Prop := zero t c ∧ elsewhere t c ∧ (∀ m, (t.core c).sem m = {}) ∧ (t.core c).tregs = []
    let tested : Bool := Tab.get none s.integ.stress (col / 8) = some (col % 8)
    (s.siteState col p = .fenced → exec (.coreFenced column prow cause) s = .next s) ∧
    (news → s.coreOfSite col p = none → LogRoom s 1 → ∃ t, exec (.coreFenced column prow cause) s = .next t ∧
      fenced t (s.siteState col 8) ∧
      t = { s with wafer := t.wafer, integ := t.integ, obs := t.obs } ∧ t.integ.cper.length = s.integ.cper.length + 1 ∧
      Logged t .coreFenced (.field (col / 8)) [(1, cause.val), (8, 0)]) ∧
    (∀ c, news → s.coreOfSite col p = some c → idle →
      (s.canShift col p = true → LogRoom s 1 → ∃ t, exec (.coreFenced column prow cause) s = .next t ∧
        fenced t (if tested then .spare else s.siteState col 8) ∧ lost t c ∧
        Tab.get none t.wafer.shifts col = some ⟨p, s.time, router, if router then none else some s.time⟩ ∧
        t.net = (s.dropAt c router).net ∧ (tested = true → Tab.get none t.integ.stress (col / 8) = none) ∧
        Logged t .coreFenced (.core c) [(1, cause.val), (8, 0)]) ∧
      (s.canShift col p = false → LogRoom s 2 → (∀ q ∈ s.integ.checks, q.checker ≠ c) →
        ∃ t, exec (.coreFenced column prow cause) s = .next t ∧ fenced t (s.siteState col 8) ∧ lost t c ∧
        t.coreOut c = true ∧ Logged t .coreOutOfService (.core c) [(2, c)])) ∧
    (∀ sh, Tab.get none s.wafer.shifts col = some sh → sh.row < 8 → idle →
      let gone := coreAt col sh.row
      let running : Bool := sh.router && sh.drained.isNone && decide (s.time < sh.started + 20000)
      let ended := sh.drained.getD (if sh.router then sh.started + 20000 else s.time)
      (running = true → exec (.columnShifted column) s = .next s) ∧
      (running = false → LogRoom s 1 → MemoryOk s → ∃ t, exec (.columnShifted column) s = .next t ∧
        Tab.get none t.wafer.shifts col = none ∧ t.shiftRow col = some sh.row ∧ t.siteState col 8 = .inService ∧
        (∀ d, t.core d = { s.core d with tq := (t.core d).tq, drain := (t.core d).drain }) ∧
        (∀ i, i ≤ sh.row → ∀ a, a < spadBytes → t.byte (windowAddr (coreAt col i) a) = s.byte (windowAddr (coreAt col i) a)) ∧
        (∀ i, sh.row < i → i < 8 → ∀ w, w < spadBytes / 32 →
          let a := windowAddr (coreAt col i) (32 * w)
          (s.errOf (a / 32) = 0 → t.errOf (a / 32) = 0 ∧ t.bytes a 32 = s.bytes a 32) ∧
          ((wcDecode (s.errOf (a / 32))).1 = .corrected → t.errOf (a / 32) = 0 ∧ t.bytes a 32 = s.delivered a 32) ∧
          ((wcDecode (s.errOf (a / 32))).1 = .uncorrectable → t.errOf (a / 32) = poisonPattern)) ∧
        Logged t .columnShifted (.field (col / 8)) [(8, ended - sh.started), (8, s.time - sh.started)]) ∧
      (running = true → LogRoom s 2 → (∀ q ∈ s.integ.checks, q.checker ≠ gone) →
        ∃ t, exec (.shiftAbandoned column) s = .next t ∧ Tab.get none t.wafer.shifts col = none ∧
        t.shiftRow col = s.shiftRow col ∧ t.coreOut gone = true ∧ lost t gone ∧
        Logged t .coreOutOfService (.core gone) [(2, gone)]) ∧
      (running = false → exec (.shiftAbandoned column) s = .next s)) ∧
    (Tab.get none s.wafer.shifts col = none →
      exec (.columnShifted column) s = .next s ∧ exec (.shiftAbandoned column) s = .next s)

/-- R57, R269, R272: a failed link stage takes all 64 cores of its field out of service, what stands in its routers is lost, and a
route pause begins or waits for the one under way; a field beside a cold one, or at a corner, takes the device to SAFE with cause
ROUTE.
It rests on the model's choices in assumption log 50, 78. -/
def Obligations.LinkStageFailuresTakeFieldsOut : Prop :=
  ∀ (s : State) (field : Fin 64),
    let f := field.val
    (s.wafer.linkOut.contains f = true → exec (.linkStageFailed field) s = .next s) ∧
    (s.wafer.linkOut.contains f = false → (∀ j, j < 8 → (s.job j).st = .empty ∧ (s.job j).layout = none) → s.mesh = [] →
      (s.coldAllowed f = true ∨ s.regs.st ≠ .safe) → ∃ t, exec (.linkStageFailed field) s = .next t ∧
        f ∈ t.wafer.linkOut ∧ (∀ c, c < 4096 → fieldOf c = f → t.coreOut c = true) ∧
        (s.coldAllowed f = true → t.regs.st = s.regs.st ∧ t.fieldPower f = .outOfService ∧ t.net.cold = s.net.cold ∧
          t.net.flights = s.net.flights.filter (fun x => fieldOf x.at_ ≠ f) ∧
          t.net.waiting = s.net.waiting.filter (fun x => fieldOf x.at_ ≠ f || decide (x.link ≠ 5)) ∧
          (s.net.pause = none → f ∉ s.net.cold → t.net.stopped = true ∧ t.net.pause = some (f, true, s.time)) ∧
          (∀ g cold at_, s.net.pause = some (g, cold, at_) → (g ≠ f ∨ cold = false) →
            t.net.pause = s.net.pause ∧ t.net.pauseNext = s.net.pauseNext ++ [f]) ∧
          ∀ d, fieldOf d ≠ f → t.core d = s.core d) ∧
        (s.coldAllowed f = false → t.regs.st = .safe ∧ t.regs.safeCause = safeRoute) ∧
        (s.wafer.store.length < 16384 →
          t.wafer.store = s.wafer.store ++ [repairWord 3 f 0 0 0 0 0 0 0 s.sec.bootCount]))

/-- R328 to R330, R367, R368, R370, R430: at the end of its drain a variant is put in force, with its patched ring entries, or the
step is replayed or its micro-batch dropped; a drain beyond its limit fails the job context, or refuses the cold order that it
served; nothing ends before nothing of the job context is in flight.
It rests on the model's choices in assumption log 10. -/
def Obligations.DrainsEndInVariantsReplaysOrFailure : Prop :=
  ∀ (s : State) (job : Fin 8) (r : StepRun) (d : DrainFor),
    let j := job.val
    let quiet : Prop := s.jobQuiet j = true
    let unordered : Prop := ∀ i, Tab.get none s.clk.ordered i = none
    let replaying : Prop := (s.job j).draining = some d ∧ (s.job j).openStep = some r ∧ (s.job j).step r.n = some r ∧
      quiet ∧ (s.job j).wanted = []
    let again (t : State) (x : StepRun) : Prop := (t.job j).draining = none ∧ (t.job j).st = (s.job j).st ∧
      ∃ q, (t.job j).step r.n = some q ∧ q = { x with again := q.again, sentBuckets := q.sentBuckets } ∧
        (r.st = .backwardDone → q.again = true)
    let halted (t : State) : Prop := ∀ c ∈ (s.job j).cores, ∀ k, k < 4 → (t.ctx c k).st ≠ .running
    let failed (t : State) : Prop := (t.job j).st = .failed ∧ (t.job j).draining = none ∧ (t.job j).wanted = [] ∧ halted t
    let applied (t : State) (x : Slot) (v : Nat × Nat) (f : Fallback) : Prop :=
      (t.job j).variants = (s.job j).variants ++ [v] ∧ (t.job j).wanted = [] ∧
      (∀ p ∈ f.patches, (t.core p.core).ring p.group = ringOfWord p.entry) ∧
      Logged t .fallbackApplied .hid [(1, j), (2, v.1), (1, f.trigger), (2, f.id),
        (8, s.time - (s.job j).drainStart), (8, s.time - (s.job j).drainStart)]
    (replaying → d = .replay → ∃ t, exec (.microbatchReplay job) s = .next t ∧ again t { r with replays := r.replays + 1 }) ∧
    (replaying → d = .integrity → ∃ t, exec (.microbatchReplay job) s = .next t ∧
      again t { r with integrityReplays := r.integrityReplays + 1 }) ∧
    (replaying → d = .drop → ∃ t, exec (.microbatchReplay job) s = .next t ∧ (t.job j).draining = none ∧
      (t.job j).dropped = true ∧ (∃ q, (t.job j).step r.n = some q ∧ q.dropped = true) ∧ t.mem = s.mem ∧ halted t ∧
      (∀ c ∈ (s.job j).cores, ∀ n, n < 32 → ((t.core c).stream n).st ≠ .running ∧ ((t.core c).stream n).st ≠ .held)) ∧
    ((s.job j).draining = some d → ¬ quiet → unordered →
      ((s.job j).wanted ≠ [] ∨ d = .replay ∨ d = .integrity ∨ d = .drop →
        ∃ t, exec (.drainLimitExceeded job) s = .next t ∧ failed t) ∧
      ((s.job j).wanted = [] → d = .fallback → ∃ t, exec (.drainLimitExceeded job) s = .next t ∧
        (t.job j).draining = none ∧ (t.job j).st = (s.job j).st) ∧
      ((s.job j).wanted = [] → d = .shift ∨ d = .classify → ∃ t, exec (.drainLimitExceeded job) s = .next t ∧
        t.job j = s.job j ∧ t = { s with jobs := t.jobs })) ∧
    (∀ l v f, (s.job j).draining = some .fallback → ¬ quiet → (s.job j).layout = some l → (s.job j).wanted = [v] →
      l.fallbacks[v.2]? = some f → f.trigger = 2 → (Tab.get none s.clk.ordered f.id).isSome = true → LogRoom s 1 →
      ∃ t, exec (.drainLimitExceeded job) s = .next t ∧ (t.job j).draining = none ∧ (t.job j).wanted = [] ∧
        (t.job j).st = (s.job j).st ∧ (t.job j).variants = (s.job j).variants ∧ Tab.get none t.clk.ordered f.id = none ∧
        Recorded t .fieldKeptWarm .hid [(1, f.id), (2, v.1)]) ∧
    (∀ x v f, (s.job j).draining = some d → quiet → (s.job j).activeSlot = some x → (s.job j).st = .loaded →
      (s.job j).wanted = [v] → x.layout.fallbacks[v.2]? = some f → unordered →
      LogRoom s 1 → (f.patches.map (fun p => (p.core, p.group))).Nodup →
      ∃ t, exec (.fallbackApplied job) s = .next t ∧ applied t x v f ∧
        (t.job j).draining = (if d = .fallback then none else some d)) ∧
    (quiet → exec (.drainLimitExceeded job) s = .next s) ∧
    (¬ quiet ∨ (s.job j).wanted ≠ [] → exec (.microbatchReplay job) s = .next s) ∧
    (¬ quiet ∨ (s.job j).wanted = [] → exec (.fallbackApplied job) s = .next s) ∧
    ((s.job j).draining = none → exec (.fallbackApplied job) s = .next s ∧ exec (.microbatchReplay job) s = .next s ∧
      exec (.drainLimitExceeded job) s = .next s)

/-! ### The fabric -/

/-- R377 to R379, R381, R383 to R385: a frame that its port's checks discard ends the port's run of HEARTBEATs, one that the transport
refuses leaves it; both are counted and do nothing else, a lost one does nothing else, and a good one acts by its type; an ACK takes
what it covers from the connection and sends a NAKed message again; the third HEARTBEAT of a training port brings it UP; a
retransmission counts, carries ACK and CREDIT, and the 65th sending is recorded.
It rests on the model's choices in assumption log 23, 44. -/
def Obligations.FramesAreCheckedAndConnectionsKept : Prop :=
  ∀ (s : State) (port : Fin 144) (frame : Frame) (q : RxMsg) (m : Msg) (site : Fin 36) (i : Nat) (x : Conn),
    let p := port.val
    let bs := frame.bytes
    let open_ : Prop := s.portState p = .up ∨ s.portState p = .training
    let count (t : State) (k : Nat) : Nat := Tab.get 0 (Tab.get {} t.obs.sites (p / 4)).vals (8 * (p % 4) + k)
    let more (n : Nat) : Nat := min (n + 1) (2 ^ 48 - 1)
    let quiet (t : State) : Prop := t.mem = s.mem ∧ t.cores = s.cores ∧ t.jobs = s.jobs ∧ t.net = s.net ∧
      t.fabric = { s.fabric with ports := t.fabric.ports } ∧ ∀ d, d ≠ p → t.port d = s.port d
    let y := s.port p
    let acked : Conn := { x with sinceAck := 0, sentCredit := (x.expect + 512) % 2 ^ 32 }
    let run := if y.beatAt + 2000 * s.regs.hbInt ≤ s.time then 0 else y.beats
    (¬ open_ → exec (.frameReceived port frame) s = .next s) ∧
    (open_ → s.checkFrame p bs = .discard → ∃ t, exec (.frameReceived port frame) s = .next t ∧ quiet t ∧
      count t cFramesRx = more (count s cFramesRx) ∧ count t cDiscarded = more (count s cDiscarded) ∧
      count t cFcsError = count s cFcsError ∧ t.port p = { y with beats := 0 }) ∧
    (open_ → s.checkFrame p bs = .refuse → ∃ t, exec (.frameReceived port frame) s = .next t ∧ quiet t ∧ t.port p = y ∧
      count t cFramesRx = more (count s cFramesRx) ∧ count t cDiscarded = more (count s cDiscarded) ∧
      count t cFcsError = count s cFcsError) ∧
    (open_ → s.checkFrame p bs = .badFcs → ∃ t, exec (.frameReceived port frame) s = .next t ∧ quiet t ∧
      count t cFramesRx = more (count s cFramesRx) ∧ count t cDiscarded = more (count s cDiscarded) ∧
      count t cFcsError = more (count s cFcsError) ∧ t.port p = { y with beats := 0 }) ∧
    (open_ → s.checkFrame p bs = .lost → ∃ t, exec (.frameReceived port frame) s = .next t ∧ quiet t ∧ t.port p = y ∧
      count t cFramesRx = more (count s cFramesRx) ∧ count t cDiscarded = count s cDiscarded) ∧
    (∀ c ∈ [(mAck, Instr.ack port frame), (mHeartbeat, .heartbeat port frame), (mMembership, .membership port frame),
        (mGatherData, .gatherData port frame), (mReduced, .reduced port frame), (mPermute, .permute port frame),
        (mPartnerPut, .partnerPut port frame), (mPartnerGet, .partnerGet port frame), (mApplied, .applied port frame)],
      exec c.2 s = if frameType bs = c.1 then exec (.frameReceived port frame) s else .next s) ∧
    (s.portState p = .up → s.checkFrame p bs = .ok q → q.m.typ = mAck → frameType bs = mAck → q.clean = true →
      q.m.typeOk = true → (connOf s q).queue = [] → ∃ t, exec (.ack port frame) s = .next t ∧ t.mem = s.mem ∧
        t.cores = s.cores ∧ t.jobs = s.jobs ∧ (connOf t q).queue = [] ∧ (connOf t q).nextSeq = (connOf s q).nextSeq ∧
        (connOf t q).expect = (connOf s q).expect ∧
        (connOf t q).unacked.map (·.seq) = ((connOf s q).unacked.filter (fun z => !seqBefore z.seq q.ack)).map (·.seq) ∧
        (q.m.count = 0 → (connOf t q).unacked = (connOf s q).unacked.filter (fun z => !seqBefore z.seq q.ack)) ∧
        (∀ n, nakSeqs q.m = [n] → ((connOf s q).unacked.filter (fun z => !seqBefore z.seq q.ack)).find? (fun z => z.seq = n)
          = some m → (connOf t q).unacked.find? (fun z => z.seq = n) = some { m with sends := m.sends + 1 })) ∧
    (open_ → s.checkFrame p bs = .ok q → q.m.typ = mHeartbeat → frameType bs = mHeartbeat →
      q.clean = true → q.m.typeOk = true → LogRoom s 2 → ∃ t, exec (.heartbeat port frame) s = .next t ∧ t.mem = s.mem ∧
        t.cores = s.cores ∧ t.jobs = s.jobs ∧ (connOf t q).credit.isSome = true ∧
        (y.st = .training → 2 ≤ run → t.port p = ⟨.up, 0, s.time⟩ ∧ (t.ioSite (p / 4)).forwardTo = none ∧
          Logged t .portUp (.port p) [(1, p)]) ∧
        (y.st ≠ .training ∨ run < 2 → t.port p = { y with beats := min (run + 1) 3, beatAt := s.time })) ∧
    (∀ n, s.siteConn site.val i = some x → s.conn site.val x.group x.server = x → x.unacked.find? (fun z => z.seq = n) = some m →
      LogRoom s 2 → ∃ t, exec (.retransmit site i n) s = .next t ∧ t = { s with fabric := t.fabric, obs := t.obs } ∧
        t.conn site.val x.group x.server = { acked with
          unacked := x.unacked.map (fun z => if z.seq = n then { z with sends := z.sends + 1 } else z) } ∧
        (m.sends = 64 → Logged t .peerUnreachable (.site site.val)
          [(1, x.group), (2, ((s.group x.group).map (·.member)).getD 0), (1, site.val), (1, x.server), (4, n)])) ∧
    (s.siteConn site.val i = some x → s.conn site.val x.group x.server = x → LogRoom s 1 →
      (0 < x.sinceAck ∨ x.held ≠ [] → ∃ t, exec (.ackTimer site i) s = .next t ∧
        t = { s with fabric := t.fabric, obs := t.obs } ∧ t.conn site.val x.group x.server = acked) ∧
      (x.sinceAck = 0 → x.held = [] → exec (.ackTimer site i) s = .next s)) ∧
    (s.siteConn site.val i = none → exec (.ackTimer site i) s = .next s ∧ exec (.retransmit site i 0) s = .next s)

/-- R387 to R390, R394, R396, R397, R404, R407 to R410: each message a server sends acts on its consumer: what is to be answered at
once is answered with APPLIED, a site's granules, records and reports leave over the network, and bytes for stack memory or from it are
asked of its sites, the answer waiting for theirs. It rests on the model's choices in assumption log 27. -/
def Obligations.MessagesActAtTheirConsumers : Prop :=
  ∀ (s : State) (port : Fin 144) (frame : Frame) (q : RxMsg),
    let p := port.val
    let bs := frame.bytes
    let m := q.m
    let here (typ : Nat) : Prop := Arrives s p bs q typ
    let x := s.ioSite q.site
    let keeps (t : State) : Prop := t.mem = s.mem ∧ t.cores = s.cores ∧ t.jobs = s.jobs
    let sends (t : State) : Prop := t.mem = s.mem ∧ CoresKept s t
    let held (j a n : Nat) : Prop := ((s.job j).regionOf a n).isSome = true
    (here mMembership → ∀ g, s.group q.group = some g →
      (m.version ≤ g.epoch → ∃ t, exec (.membership port frame) s = .next t ∧ keeps t ∧
        t.fabric.groups = s.fabric.groups ∧ Replied t q fsRefused) ∧
      (g.epoch < m.version → ∀ rs, m.count ≤ 256 → m.payload.length = 128 + ceilDiv (16 * m.count) 32 * 32 →
        parseRanges (m.payload.drop 128) m.count = some rs →
        ((∀ j ∈ s.boundJobs q.group, s.rangesOk (s.job j) ((s.job j).owned ++ rs) = true) →
          LogRoom s 1025 → g.live.length ≤ 1024 → ∃ t, exec (.membership port frame) s = .next t ∧ t.mem = s.mem ∧
          t.cores = s.cores ∧ Replied t q fsOk ∧
          t.group q.group = some { g with epoch := m.version, live := maskMembers (m.payload.take 128) } ∧
          (∀ h, h ≠ q.group → t.group h = s.group h) ∧
          (∀ j, j < 8 → t.job j = if j ∈ s.boundJobs q.group then { s.job j with owned := (s.job j).owned ++ rs } else s.job j) ∧
          Logged t .membershipApplied .hid [(1, q.group), (4, m.version), (2, rs.length)]) ∧
        ((∃ j ∈ s.boundJobs q.group, s.rangesOk (s.job j) ((s.job j).owned ++ rs) = false) → LogRoom s 1 →
          ∃ t, exec (.membership port frame) s = .next t ∧ keeps t ∧ t.fabric.groups = s.fabric.groups ∧ Replied t q fsRange ∧
            Logged t .membershipRefused .hid [(1, q.group), (4, m.version), (1, fsRange)]))) ∧
    (here mGatherData → ∀ r, x.gathers.find? (fun r => r.tag = m.tag) = some r →
      s.net.oos.contains r.core = false → r.core < 4096 →
      let gate := s.attachCore q.site (r.core % 7)
      let st := gatherStatus r m
      ∃ t, exec (.gatherData port frame) s = .next t ∧ sends t ∧ t.jobs = s.jobs ∧
        (t.ioSite q.site).gathers = x.gathers.filter (fun y => y.tag ≠ m.tag) ∧
        (st = 0 → ∀ i, i < r.len → InNet t gate (mkFlit 7 kCore r.core kSite q.site opWrite (r.doff / 64 + i)
            ((m.payload.drop (64 * i)).take 64))) ∧
        InNet t gate (completionFlit q.site r.core st r.ctx r.len r.doff r.offset m.version)) ∧
    (here mReduced → ∀ j r o, s.stepOfTag m.tag = some (j, r) → (s.job j).step r.n = some r → (s.job j).fgroup = some q.group →
      r.early = true → r.owned.find? (fun o => o.bucket = m.tag % 2 ^ 20) = some o →
      (m.summary = false → m.offset % 4096 = 0 → m.offset + m.payload.length ≤ (s.job j).z →
        held j (o.gaddr + m.offset) m.payload.length →
        ∃ t, exec (.reduced port frame) s = .next t ∧ sends t ∧
          (t.job j).step r.n = some { r with
            owned := putOwned { o with
              strict := m.strict, acc := o.acc + (chunkSquares m.strict m.payload).1 } r.owned
            siteNonfin := r.siteNonfin + (chunkSquares m.strict m.payload).2
            placed := r.placed ++ [(o.gaddr + m.offset, m.payload.length)] } ∧
          IoMoves t q.site [(o.gaddr + m.offset, m.payload.length)] true m.payload (.reduced j r.n o.bucket)) ∧
      (m.summary = false → (m.offset % 4096 ≠ 0 ∨ (s.job j).z < m.offset + m.payload.length) → LogRoom s 1 →
        ∃ t, exec (.reduced port frame) s = .next t ∧ keeps t ∧
          Logged t .reducedDiscarded (.port p) [(1, j), (4, m.tag), (8, m.offset)]) ∧
      (m.summary = true → m.tag % 2 ^ 20 ≠ normBucket → q.member ∉ maskMembers ((m.payload.drop 32).take 128) →
        ∃ t, exec (.reduced port frame) s = .next t ∧ t.mem = s.mem ∧ t.cores = s.cores ∧
          ∃ u, (t.job j).step r.n = some u ∧ u.owned.find? (fun o => o.bucket = m.tag % 2 ^ 20) =
            some { o with summary := some ⟨fieldAt m.payload 0 8, fieldAt m.payload 8 4, fieldAt m.payload 12 4⟩ })) ∧
    (here mPermute →
      (s.permuteJob q.group m.obj = none → ∃ t, exec (.permute port frame) s = .next t ∧ keeps t ∧ Replied t q fsRange) ∧
      (∀ j e, s.permuteJob q.group m.obj = some (j, e) →
        (seqLength e ≤ m.offset → ∃ t, exec (.permute port frame) s = .next t ∧ keeps t ∧ Replied t q fsRange) ∧
        (∀ ps, seqPieces e m.offset (min m.payload.length (seqLength e - m.offset)) = some ps → m.offset < seqLength e →
          (∀ y ∈ ps, held j y.1 y.2) → ∃ t, exec (.permute port frame) s = .next t ∧ sends t ∧ t.jobs = s.jobs ∧
            IoMoves t q.site ps true m.payload (.permuteIn q.group q.server j m.bare)))) ∧
    (∀ j r, here mPartnerPut → s.groupJob q.group = some j → m.obj < 2 ^ 30 → (s.job j).regions[m.obj]? = some r →
      let wanted : Prop := r.kind = rkPartner ∨ r.kind = rkOwned ∧ (s.job j).st = .restoring
      (wanted → m.offset + m.payload.length ≤ r.granules * 4096 → ∃ t, exec (.partnerPut port frame) s = .next t ∧
        sends t ∧ t.jobs = s.jobs ∧ IoMoves t q.site [(r.base + m.offset, m.payload.length)] true m.payload
          (.partnerPut q.group q.server m.bare)) ∧
      (wanted → r.granules * 4096 < m.offset + m.payload.length →
        ∃ t, exec (.partnerPut port frame) s = .next t ∧ keeps t ∧ Replied t q fsRange) ∧
      (¬ wanted → ∃ t, exec (.partnerPut port frame) s = .next t ∧ keeps t ∧ Replied t q fsRefused)) ∧
    (∀ j g, here mPartnerGet → s.groupJob q.group = some j → s.group q.group = some g → m.obj < 2 ^ 30 →
      ((s.job j).regions[m.obj]? = none → ∃ t, exec (.partnerGet port frame) s = .next t ∧ keeps t ∧ Replied t q fsUnknown) ∧
      (∀ r, (s.job j).regions[m.obj]? = some r →
        (r.granules * 4096 < m.offset + m.count ∨ m.count = 0 → ∃ t, exec (.partnerGet port frame) s = .next t ∧ keeps t ∧
          Replied t q fsRange) ∧
        (0 < m.count → m.offset + m.count ≤ r.granules * 4096 → r.kind ≠ 0 →
          ∃ t, exec (.partnerGet port frame) s = .next t ∧ sends t ∧ t.jobs = s.jobs ∧
            IoMoves t q.site [(r.base + m.offset, m.count)] false []
              (.partnerGet q.group q.server { m with count := g.member, payload := [] })))) ∧
    (here mApplied → m.rtype = mShardPut → ∀ r, x.publishes.find? (fun r => r.obj = m.obj && r.step = m.version &&
        bucketTag r.job r.step r.bucket = m.tag && r.left.contains m.offset) = some r →
      (m.status = fsOk → r.left ≠ [m.offset] → ∃ t, exec (.applied port frame) s = .next t ∧ keeps t ∧
        { r with left := r.left.erase m.offset } ∈ (t.ioSite q.site).publishes) ∧
      (m.status = fsOk → r.left = [m.offset] → r.core < 4096 → s.net.oos.contains r.core = false →
        ∃ t, exec (.applied port frame) s = .next t ∧ sends t ∧
          Delivers t q.site r.core r.doff (publishRecord q.site 0 r.step r.bucket r.sent) r.rsem ∧
          (r.final = false → t.jobs = s.jobs) ∧
          (∀ v, r.final = true → (s.job r.job).step r.step = some v → (t.job r.job).step r.step = some { v with
            owned := v.owned.map (fun o => if o.bucket = r.bucket then { o with published := true } else o) }) ∧
          (t.ioSite q.site).publishes = x.publishes.erase r) ∧
      (m.status ≠ fsOk → LogRoom s 1 → ∃ t, exec (.applied port frame) s = .next t ∧ keeps t ∧
        (t.ioSite q.site).publishes = x.publishes ∧
        Logged t .shardPutRefused (.site q.site) [(1, r.job), (4, m.tag), (1, m.status)]))

/-! ### I/O die sites -/

/-- R19, R395 to R398, R407: an I/O die site sends a GATHER on to the server its key names and answers one it cannot with ADDRESS; it
queues an open that meets R398 and answers another with PARAM; it reads the bytes of a PUBLISH within its window and refuses another
with its record; a fenced one answers ADDRESS. When the record of its last request returns, what a WRITE was for takes effect, and when
the last granule of a READ does, its bytes leave the module.
It rests on the model's choices in assumption log 24. -/
def Obligations.SitesServeCores : Prop :=
  ∀ (s u : State) (f : Flit) (r : SiteReq) (j g : Nat) (x : FGroup),
    let b := r.bytes
    let len := fieldAt b 2 2
    let obj := fieldAt b 4 4
    let offset := fieldAt b 8 8
    let doff := fieldAt b 16 4
    let version := fieldAt b 20 4
    let bytes := fieldAt b 24 8
    let addr := fieldAt b 32 8
    let bucket := fieldAt b 40 4
    let pf := fieldAt b 44 1
    let grp := fieldAt b 45 1
    let rsem := fieldAt b 46 1
    let y := s.ioSite r.site
    let gate := s.attachCore r.site (r.core % 7)
    let reaches : Prop := siteReqOf f = some r ∧ s.isIo r.site = true ∧ s.take f = some u ∧ r.core < 4096
    let asked : Prop := reaches ∧ y.fenced = false ∧ r.fromSite = false ∧ s.jobOf r.core = some j
    let free : Prop := s.net.oos.contains r.core = false
    let bound : Prop := (s.job j).fgroup = some g ∧ s.group g = some x
    let gatherOk : Prop := r.opc = 0x10 ∧ r.ctx < 4 ∧ 1 ≤ len ∧ len ≤ 64 ∧ pf < 3 ∧ zeroAt b 24 20 = true ∧ zeroAt b 45 19 = true
    let publishOk : Prop := r.opc = 0x12 ∧ r.ctx < 4 ∧ bytes % 32 = 0 ∧ bucket < 2 ^ 20 ∧ pf < 8 ∧ pf % 4 ≠ 3 ∧ offset % 4096 = 0 ∧
      zeroAt b 2 2 = true ∧ zeroAt b 45 1 = true ∧ zeroAt b 47 17 = true ∧ (s.job j).inKind rkStaging addr bytes = true ∧
      addr % 32 = 0 ∧ doff % 64 = 0 ∧ rsem < 64 ∧ (inBank 2 doff 64 = true ∨ inBank 3 doff 64 = true)
    let sites (t : State) : Prop := ∀ d, t.ioSite d = s.ioSite d
    let refused (t : State) (st : Nat) : Prop := sites t ∧ Delivers t r.site r.core doff (publishRecord r.site st version bucket 0) rsem
    let i := f.dest.toNat
    let v := u.ioSite i
    let returns (k : IoReq) (w : IoXfer) : Prop := f.dkind.toNat = kSite ∧ f.skind.toNat = kSite ∧ f.op.toNat = opSiteData ∧
      s.isIo i = true ∧ s.isStack f.src.toNat = true ∧ s.take f = some u ∧ v.fenced = false ∧
      v.reqs.find? (fun q => q.no = f.tag / 128) = some k ∧ v.xfers.find? (fun q => q.id = k.xfer) = some w ∧
      w.left = 1 ∧ w.bad = 0 ∧ f.payload.length = 64 ∧ f.err0 = 0 ∧ f.err1 = 0
    let done (k : IoReq) (w : IoXfer) (p : State → Prop) : Prop :=
      ∃ t, exec (.siteData f) s = .next t ∧ (t.ioSite i).reqs = v.reqs.filter (fun q => q.no ≠ k.no) ∧
        (t.ioSite i).xfers = v.xfers.filter (fun q => q.id ≠ w.id) ∧ p t
    (asked → bound → gatherOk → offset % 4096 + 64 * len ≤ 4096 → doffOk doff (64 * len) = true →
      ∃ t, exec (.gather f) s = .next t ∧ t.mem = s.mem ∧ t.cores = u.cores ∧ t.net = u.net ∧
        (t.ioSite r.site).gathers = y.gathers ++ [⟨r.core, r.ctx, y.nextTag, obj, pf, offset, len, doff, version⟩] ∧
        Sends t r.site g (x.server (objKey obj offset)) { msg mGatherReq with
          tag := y.nextTag, obj := obj, offset := offset, count := 64 * len, version := version, mflags := pf }) ∧
    (asked → free → gatherOk → 4096 < offset % 4096 + 64 * len ∨ (s.job j).fgroup = none →
      ∃ t, exec (.gather f) s = .next t ∧ t.mem = s.mem ∧ CoresKept s t ∧ t.fabric = s.fabric ∧
        InNet t gate (completionFlit r.site r.core 1 (r.ctx % 4) len doff offset 0)) ∧
    (asked → r.opc = 0x11 → y.landing = [] → s.openOk j r grp obj offset bytes = true →
      ∃ t, exec (.contribOpen f) s = .next t ∧ t.mem = s.mem ∧ t.cores = u.cores ∧ t.net = u.net ∧
        t.ioSite r.site = { y with opens := y.opens ++ [⟨r.core, r.ctx, grp, j, obj, offset, bytes, 0⟩] }) ∧
    (asked → free → r.opc = 0x11 → y.landing = [] → s.openOk j r grp obj offset bytes = false →
      ∃ t, exec (.contribOpen f) s = .next t ∧ t.mem = s.mem ∧ CoresKept s t ∧ sites t ∧
        InNet t gate (completionFlit r.site r.core 6 (r.ctx % 4) 0 0 offset 0)) ∧
    (asked → publishOk → free →
      ((∀ t, (s.job j).step version = some t → t.st ≠ .normKnown ∨ t.commit = false) →
        ∃ t, exec (.publish f) s = .next t ∧ t.mem = s.mem ∧ refused t 5) ∧
      (∀ n, bound → (s.job j).step version = some n → n.st = .normKnown → n.commit = true →
        ((∀ o ∈ n.owned, o.bucket ≠ bucket) → ∃ t, exec (.publish f) s = .next t ∧ t.mem = s.mem ∧ refused t 6) ∧
        ((∃ o ∈ n.owned, o.bucket = bucket) → 0 < bytes →
          let k := ceilDiv bytes 4096
          ∃ t, exec (.publish f) s = .next t ∧ t.mem = s.mem ∧ (t.ctx r.core (r.ctx % 4)).replayUnsafe = true ∧
            (t.ioSite r.site).publishes = y.publishes ∧ IoMoves t r.site [(addr, bytes)] false []
              (.publish ⟨r.core, j, version, bucket, obj, pf % 4, decide (4 ≤ pf), doff, rsem,
                (List.range k).map (fun i => offset + 4096 * i), k⟩)))) ∧
    (reaches → (r.fromSite = true ∨ free) → y.fenced = true →
      ∀ q ∈ [(0x10, Instr.gather f), (0x11, .contribOpen f), (0x12, .publish f)], r.opc = q.1 →
        ∃ t, exec q.2 s = .next t ∧ t.mem = s.mem ∧ CoresKept s t ∧ sites t ∧
          InNet t (s.attachCore r.site (if r.fromSite then 0 else r.core % 7))
            (recordFlit r.fromSite r.site r.core 1 (r.ctx % 4) len doff offset)) ∧
    (∀ k w, returns k w → f.tag / 64 % 2 = 1 → f.field 0 1 = 0 →
      (∀ n o z, w.work = .reduced j n o → (s.job j).step n = some z → (∀ q, z.owned.find? (fun q => q.bucket = o) = some q →
        done k w (fun t => t.mem = s.mem ∧ ∃ z', (t.job j).step n = some z' ∧
          z'.owned.find? (fun q => q.bucket = o) = some { q with landed := q.landed + 1 }))) ∧
      (∀ n o z, w.work = .entry j n o → (s.job j).step n = some z → (∀ q, z.owned.find? (fun q => q.bucket = o) = some q →
        done k w (fun t => t.mem = s.mem ∧ ∃ z', (t.job j).step n = some z' ∧
          z'.normM = z.normM + qOf q.acc ((q.summary.map (·.ntok)).getD 0) ∧
          z'.owned.find? (fun q => q.bucket = o) = some { q with written := true, writing := false }))) ∧
      (∀ n m, w.work = .partnerPut g n m → done k w (fun t => t.mem = s.mem ∧ t.jobs = s.jobs ∧
        Sends t i g n { appliedOf m fsOk with rtype := mPartnerPut })) ∧
      (∀ n m e, w.work = .permuteIn g n j m → (s.job j).switch = some e → e.outLeft ≠ [] →
        done k w (fun t => t.mem = s.mem ∧ Sends t i g n (appliedOf m fsOk) ∧
          (t.job j).switch = some { e with
            inLeft := cutRange m.obj m.offset (m.offset + w.data.length) e.inLeft }))) ∧
    (∀ k w, returns k w → f.tag / 64 % 2 = 0 → f.tag % 64 + 1 = k.len → k.got + 1 = k.len → k.write = false →
      let bs := ((if k.len = 1 then f.payload.drop k.skip else f.payload)).take (k.bytes - (64 * (k.len - 1) - k.skip))
      let data := spliceBytes w.data (k.off + (64 * (k.len - 1) - k.skip)) bs
      (∀ q, w.work = .publish q → (s.job q.job).fgroup = some g → s.group g = some x → q.left ≠ [] → 0 < q.sent → data ≠ [] →
        done k w (fun t => t.mem = s.mem ∧ (t.ioSite i).publishes = v.publishes ++ [q] ∧
          Sends t i g (x.server q.bucket) { msg mShardPut with
            tag := bucketTag q.job q.step q.bucket, obj := q.obj, version := q.step, mflags := q.plane, offset := q.left.headD 0
            payload := data.take 4096 })) ∧
      (∀ n m, w.work = .partnerGet g n m → s.group g = some x → data ≠ [] → done k w (fun t => t.mem = s.mem ∧ t.jobs = s.jobs ∧
        Sends t i g (x.server (objKey m.obj m.offset)) { m with typ := mPartnerPut, payload := data.take 4096 })) ∧
      (∀ n o, w.work = .permuteOut g n o → s.group g = some x → done k w (fun t => t.mem = s.mem ∧ t.jobs = s.jobs ∧
        Sends t i g (x.server (objKey n o)) { msg mPermute with obj := n, offset := o, payload := data })))

/-- R347, R352, R397, R401, R402, R433: a complete chunk is sent as CONTRIB with its step's tag, or dropped where no step takes it; a
bucket that may be confirmed is, by every site that has sent of it; the entry of a reduced bucket goes out as a WRITE of its site. -/
def Obligations.ContributionsAreSentConfirmedAndTabled : Prop :=
  ∀ (s : State) (site : Fin 36) (i : Nat) (c : Chunk) (job : Fin 8) (r : StepRun) (b : SentBucket) (g : Nat) (x : FGroup),
    let y := s.ioSite site.val
    let j := job.val
    let mine : Prop := (s.job j).chunkStep = some r ∧ (s.job j).step r.n = some r ∧ (s.job j).fgroup = some g ∧ s.group g = some x
    let q := (s.job j).chunkBucket c
    let hit (bucket : Nat) (r : StepRun) : Bool := r.early && r.owned.any (fun o => o.bucket = bucket && o.ready)
    (y.chunks[i]? = some c → c.left = 0 → c.job = j → mine → r.sentBuckets.find? (fun z => z.bucket = q.1) = some b →
      c.bad = false → b.missed = false → b.confirmed = false → r.dropped = false →
      ∃ t, exec (.contrib site i) s = .next t ∧ t.mem = s.mem ∧ t.cores = s.cores ∧ t.net = s.net ∧
        (t.ioSite site.val).chunks = y.chunks.eraseIdx i ∧
        Sends t site.val g (x.server q.1) { msg mContrib with
          tag := bucketTag j r.n q.1, offset := q.2, count := r.tokens, mflags := 4 + (if c.strict then 16 else 0)
          payload := c.data } ∧
        ∃ u z, (t.job j).step r.n = some u ∧ u.sentBuckets.find? (fun z => z.bucket = q.1) = some z ∧
          z.chunks = b.chunks.filter (fun w => w.1 ≠ q.2) ++ [(q.2, site.val, c.data.length)] ∧ z.confirmed = false) ∧
    (y.chunks[i]? = some c → c.left = 0 → (s.job c.job).chunkStep = none → LogRoom s 1 →
      ∃ t, exec (.contrib site i) s = .next t ∧ t = { s with fabric := t.fabric, obs := t.obs } ∧
        t.fabric.conns = s.fabric.conns ∧ (t.ioSite site.val).chunks = y.chunks.eraseIdx i ∧
        Logged t .contribDropped (.site site.val) [(1, c.job), (1, site.val), (1, c.group)]) ∧
    (y.chunks[i]? = some c → c.left ≠ 0 → exec (.contrib site i) s = .next s) ∧
    (mine → r.sentBuckets.find? (fun z => s.confirmable j r z) = some b →
      r.sentBuckets.find? (fun z => z.bucket = b.bucket) = some b →
      ∃ t, exec (.confirm job) s = .next t ∧ t.mem = s.mem ∧ t.cores = s.cores ∧ t.net = s.net ∧
        (∃ u, (t.job j).step r.n = some u ∧
          u.sentBuckets.find? (fun z => z.bucket = b.bucket) = some { b with confirmed := true }) ∧
        ∀ k ∈ b.sites, Sends t k g (x.server b.bucket)
          { msg mConfirm with tag := bucketTag j r.n b.bucket, count := b.from_ k }) ∧
    (mine → (∀ z ∈ r.sentBuckets, s.confirmable j r z = false) → exec (.confirm job) s = .next s) ∧
    (∀ o u, (s.job j).steps.find? (hit o.bucket) = some r → (s.job j).step r.n = some r →
      r.owned.find? (fun z => z.bucket = o.bucket && z.ready) = some o → o.summary = some u →
      r.owned.find? (fun z => z.bucket = o.bucket) = some o →
      let a := r.entryAddr (r.entryIndex o.bucket)
      ((s.job j).regionOf a 32).isSome = true →
      ∃ t, exec (.bucketTableEntry job o.bucket) s = .next t ∧ t.mem = s.mem ∧ CoresKept s t ∧
        IoMoves t ((s.job j).bucketSite o.bucket) [(a, 32)] true
          (leBytes 4 o.bucket ++ leBytes 4 0 ++ leBytes 8 u.ntok ++ leBytes 8 o.gaddr ++ leBytes 4 u.bytes ++
            leBytes 1 (if o.strict then 1 else 0) ++ leBytes 3 0) (.entry j r.n o.bucket) ∧
        ∃ v, (t.job j).step r.n = some v ∧ v.normM = r.normM ∧
          v.owned.find? (fun z => z.bucket = o.bucket) = some { o with writing := true }) ∧
    (∀ n, (∀ z ∈ (s.job j).steps, hit n z = false) → exec (.bucketTableEntry job n) s = .next s)

/-- R379, R381, R386, R406, R412, R462: each interval a site sends its HEARTBEATs, with the ACK and CREDIT of each connection, and two
silent ones end a training port's run;
an UP port goes DOWN with its cause and its site's frames leave by another; a DOWN port retrains under a MAC base; waits for
credit and for a norm summary are recorded; a fenced I/O die fails the job contexts bound to the fabric, and no other. -/
def Obligations.PortsAndSitesAreWatched : Prop :=
  ∀ (s : State) (site : Fin 36) (port : Fin 144) (cause : Fin 4) (c : Conn) (q : Nat × Nat),
    let i := site.val
    let p := port.val
    let n := p / 4
    let sent (t : State) (p : Nat) : Nat := Tab.get 0 (Tab.get {} t.obs.sites (p / 4)).vals (8 * (p % 4))
    let beat (d : Nat) : Nat := if (s.port d).beatAt + 2000 * s.regs.hbInt ≤ s.time then 0 else (s.port d).beats
    let targets := (s.boundGroups.map (fun g => ((s.group g).map (fun x => x.servers.length)).getD 0)).foldl (· + ·) 0
    (s.isIo i = true → (s.ioSite i).fenced = false → ∃ t, exec (.heartbeatInterval site) s = .next t ∧
      t = { s with fabric := t.fabric, obs := t.obs } ∧
      t.fabric = { s.fabric with ports := t.fabric.ports, conns := t.fabric.conns } ∧
      (s.upPorts i = [] → t.fabric.conns = s.fabric.conns) ∧
      (s.upPorts i ≠ [] → ∀ q ∈ s.beatConns, t.conn i q.1 q.2 = (s.conn i q.1 q.2).acked) ∧
      (∀ d, d < 144 → t.port d = if d / 4 = i ∧ s.portState d = .training then { s.port d with beats := beat d } else s.port d) ∧
      ∀ d ∈ s.upPorts i, sent t d = min (sent s d + targets) (2 ^ 48 - 1)) ∧
    (s.isIo i = false ∨ (s.ioSite i).fenced = true → exec (.heartbeatInterval site) s = .next s) ∧
    (s.portState p = .up → LogRoom s 2 → ∃ t, exec (.portDown port cause) s = .next t ∧
      t = { s with fabric := t.fabric, obs := t.obs } ∧ t.port p = { s.port p with st := .down, beats := 0 } ∧
      (∀ d, d ≠ p → t.port d = s.port d) ∧ t.fabric.conns = s.fabric.conns ∧
      ((∃ d ∈ s.upPorts n, d ≠ p) → (t.ioSite n).forwardTo = none ∧ Logged t .portDown (.port p) [(1, p), (1, cause.val + 1)]) ∧
      ((∀ d ∈ s.upPorts n, d = p) → ∀ w, t.sender n = some w → (t.ioSite n).forwardTo = some w ∧ w ≠ n ∧
        ((s.ioSite n).forwardTo ≠ some w → Logged t .sitePortsLost (.site n) [(1, n), (1, w)]))) ∧
    (s.portState p ≠ .up → exec (.portDown port cause) s = .next s) ∧
    (s.portState p = .down → s.regs.macBase ≠ 0 → ∃ t, exec (.portRetrain port) s = .next t ∧
      t = { s with fabric := { s.fabric with ports := t.fabric.ports } } ∧
      t.port p = { s.port p with st := .training, beats := 0 } ∧
      ∀ d, d ≠ p → t.port d = s.port d) ∧
    (s.portState p ≠ .down ∨ s.regs.macBase = 0 → exec (.portRetrain port) s = .next s) ∧
    (s.fabric.conns.find? (fun c => c.site = i && !c.queue.isEmpty) = some c → LogRoom s 1 →
      ∃ t, exec (.fabricBackpressure site) s = .next t ∧ t = { s with obs := t.obs } ∧
        Logged t .fabricBackpressure (.site i) [(1, c.group), (2, ((s.group c.group).map (·.member)).getD 0), (1, i), (1, c.server)]) ∧
    ((∀ c ∈ s.fabric.conns, c.site = i → c.queue = []) → exec (.fabricBackpressure site) s = .next s) ∧
    (s.stalled.getLast? = some q → LogRoom s s.stalled.length → ∃ t, exec (.fabricStall site) s = .next t ∧
      t = { s with obs := t.obs } ∧ Logged t .fabricStall (.site i) [(1, q.1), (4, q.2)]) ∧
    (s.stalled = [] → exec (.fabricStall site) s = .next s) ∧
    (s.isIo i = true → (s.ioSite i).fenced = false → ∃ t, exec (.ioDieFenced site) s = .next t ∧
      (t.ioSite i).fenced = true ∧ (∀ d, d ≠ i → t.ioSite d = s.ioSite d) ∧ t.net = s.net ∧
      ∀ j, j < 8 → if (s.job j).st ≠ .empty ∧ (s.job j).fgroup.isSome = true then (t.job j).st = .failed else t.job j = s.job j)

/-! ### Job contexts and layouts -/

/-- R310, R363, R391, R392, R493: JOB_EMPTY idles the cores of its rectangle and forgets the job context; a group record or a
binding that keeps its rules is loaded, another is MALFORMED and changes nothing; JOB_RUN starts the halted contexts; JOB_STOP
halts every context and completes once no stream has a granule in flight.
It rests on the model's choices in assumption log 47. -/
def Obligations.JobsAreEmptiedBoundRunAndStopped : Prop :=
  ∀ (s : State) (ring : Fin 64) (x : Ring) (e : Entry),
    let r := ring.val
    let j := e.job
    let bs := s.blockOf e
    let y := s.job j
    let ends (i : Instr) (st : Nat) (p : State → Prop) : Prop := ∃ t, exec i s = .next t ∧ Ended s t r x e st 0 0 ∧ p t
    let others (t : State) : Prop := ∀ k, k ≠ j → t.job k = s.job k
    (Admitted s r ocJobEmpty x e → Alone s j → y.steps = [] → s.snapOrders j = [] →
      ends (.jobEmpty ring) stDone (fun t => t.job j = {} ∧ others t ∧ t.mem = s.mem ∧
        (∀ c ∈ y.cores, (∀ k, k < 4 → (t.ctx c k).st = .idle) ∧ (∀ n, (t.core c).stream n = {}) ∧ ∀ g, (t.core c).ring g = {}) ∧
        ∀ c, c ∉ y.cores → t.core c = s.core c)) ∧
    (Admitted s r ocFabricGroup x e →
      (s.boundJobs (fieldAt bs 0 1 % 64) ≠ [] → ends (.fabricGroup ring) stState (RingOnly s)) ∧
      (s.boundJobs (fieldAt bs 0 1 % 64) = [] → parseGroup bs = none → ends (.fabricGroup ring) stMalformed (RingOnly s)) ∧
      (∀ g z, s.boundJobs (fieldAt bs 0 1 % 64) = [] → parseGroup bs = some (g, z) →
        ends (.fabricGroup ring) stDone (fun t => t.group g = some z ∧ (∀ h, h ≠ g → t.group h = s.group h) ∧
          t.jobs = s.jobs ∧ t.mem = s.mem))) ∧
    (Admitted s r ocJobFabric x e →
      (s.parseBinding y bs = none → ends (.jobFabric ring) stMalformed (RingOnly s)) ∧
      (∀ g z rs, s.parseBinding y bs = some (g, z, rs) → ends (.jobFabric ring) stDone (fun t =>
        t.job j = { y with fgroup := some g, zunit := z, owned := rs } ∧ others t ∧ t.mem = s.mem))) ∧
    (Admitted s r ocJobRun x e →
      (y.activeSlot = none ∨ y.switch.isSome = true → ends (.jobRun ring) stState (RingOnly s)) ∧
      (y.activeSlot.isSome = true → y.switch = none → s.mesh = [] → ends (.jobRun ring) stDone (fun t =>
        (t.job j).st = .running ∧ (t.job j).dropped = false ∧ (t.job j).active = y.active ∧ t.mesh = [] ∧
        (y.switchFresh = true → t.mem = s.mem ∧ (∀ c, c ∉ s.liveCores j → t.core c = s.core c) ∧
          ∀ c ∈ s.liveCores j, ∀ k, k < 4 → (t.ctx c k).pc = (s.ctx c k).pc ∧
            (t.ctx c k).st = if (s.ctx c k).st = .halted ∧ s.banked c = false then .running else (s.ctx c k).st)))) ∧
    (Admitted s r ocJobStop x e →
      let halts (t : State) : Prop := ∀ c ∈ y.cores, ∀ k, k < 4 → (t.ctx c k).st ≠ .running
      (y.stopping.isSome = true ∨ y.steps.any (·.holdsJob) = true → ends (.jobStop ring) stState (RingOnly s)) ∧
      (y.stopping = none → y.steps.any (·.holdsJob) = false →
        (∀ c ∈ y.cores, Tab.wf {} (s.core c).streams = true ∧
          ∀ q ∈ (s.core c).streams, (q.2.st = .running ∨ q.2.st = .held) → q.1 < 32 ∧ q.2.quiet = true) →
        ends (.jobStop ring) stDone (fun t => (t.job j).st = .loaded ∧ (t.job j).stopping = none ∧
          (t.job j).switchFresh = false ∧ t.mem = s.mem ∧ halts t ∧
          ∀ c ∈ y.cores, ∀ n, ((t.core c).stream n).st ≠ .running ∧ ((t.core c).stream n).st ≠ .held)) ∧
      (∀ c n, y.stopping = none → y.steps.any (·.holdsJob) = false → c ∈ y.cores → n < 32 →
        ((s.core c).stream n).st = .running → ((s.core c).stream n).reqs ≠ [] →
        ∃ t, exec (.jobStop ring) s = .next t ∧ Begun s t r x e false ∧ halts t ∧
          t.job j = { y with stopping := some (r, s.host.nextId) } ∧ ((t.core c).stream n).stopping = 4 :: ((s.core c).stream n).stopping))

/-- R309, R311, R312, R314, R333, R334, R338, R409: a job manifest that keeps its rules makes its job context LOADED, and one that does
not changes nothing; a layout is copied into the store and its slot, or rejected; an idle slot is dropped; a phase switch that
passes its checks makes its slot active, or waits for the mode or the re-shard, whose OUT blocks its sites read.
It rests on the model's choices in assumption log 15, 45, 46. -/
def Obligations.JobsAndLayoutsAreLoadedAndSwitched : Prop :=
  ∀ (s : State) (ring : Fin 64) (x : Ring) (e : Entry),
    let r := ring.val
    let j := e.job
    let bs := s.blockOf e
    let y := s.job j
    let k := e.arg0 % 4
    let ends (i : Instr) (st : Nat) (p : State → Prop) : Prop := ∃ t, exec i s = .next t ∧ Ended s t r x e st 0 0 ∧ p t
    let others (t : State) : Prop := ∀ k, k ≠ j → t.job k = s.job k
    let m := manifestOf bs
    (Admitted s r ocJobLoad x e →
      (∀ o, firstBad (jobChecks bs j s.stackEnd) = some o → ends (.jobLoad ring) stMalformed (RingOnly s)) ∧
      (firstBad (jobChecks bs j s.stackEnd) = none → s.manifestClash m = true → ends (.jobLoad ring) stResource (RingOnly s)) ∧
      (firstBad (jobChecks bs j s.stackEnd) = none → s.manifestClash m = false → ends (.jobLoad ring) stDone (fun t =>
        t.job j = { st := .loaded, fy0 := m.fy0, fx0 := m.fx0, fh := m.fh, fw := m.fw, regions := m.regions
                    lstore := m.lstore, lsgran := m.lsgran } ∧
        others t ∧ t.mem = s.mem ∧ t.fabric = s.fabric))) ∧
    (Admitted s r ocLayoutLoad x e →
      let n := ceilDiv e.blen 4096
      (y.active = some k → ends (.layoutLoad ring) stState (RingOnly s)) ∧
      (y.active ≠ some k → y.findStore n = none → ends (.layoutLoad ring) stResource (RingOnly s)) ∧
      (∀ g, y.active ≠ some k → y.findStore n = some g →
        let a := y.lstore + 4096 * g
        let copied (t : State) : Prop := others t ∧ t.cores = s.cores ∧ t.bytes a e.blen = bs ∧
          ∀ b, b < a ∨ a + e.blen ≤ b → t.byte b = s.byte b
        (∀ l, parseLayout s.build y bs = .ok l → ends (.layoutLoad ring) stDone (fun t => copied t ∧
          t.job j = { y with slots := (t.job j).slots } ∧ (t.job j).slot k = some ⟨g, n, l⟩ ∧
          ∀ i, i ≠ k → (t.job j).slot i = y.slot i)) ∧
        (∀ o, parseLayout s.build y bs = .error o → ends (.layoutLoad ring) stMalformed (fun t => copied t ∧ t.jobs = s.jobs)))) ∧
    (Admitted s r ocLayoutDrop x e →
      (y.slotBusy k = true → ends (.layoutDrop ring) stState (RingOnly s)) ∧
      (y.slotBusy k = false → ends (.layoutDrop ring) stDone (fun t => others t ∧ t.mem = s.mem ∧
        t.job j = { y with slots := (t.job j).slots } ∧ (t.job j).slot k = none ∧ ∀ i, i ≠ k → (t.job j).slot i = y.slot i))) ∧
    (Admitted s r ocPhaseSwitch x e →
      (∀ st, s.switchCheck j k = .error st → ends (.phaseSwitch ring) st (RingOnly s)) ∧
      (∀ vs q, s.switchCheck j k = .ok vs → y.slot k = some q →
        let w : Switch := { slot := k, ring := r, taking := s.host.nextId, started := s.time, variants := vs }
        (e.arg0 / 256 % 2 = 0 → s.modeReady q.layout = true → LogRoom s 1 → ends (.phaseSwitch ring) stDone (fun t =>
          (t.job j).active = some k ∧ (t.job j).variants = vs ∧ (t.job j).switch = none ∧ (t.job j).switchFresh = true ∧
          (t.job j).st = y.st ∧ others t ∧
          (vs = [] → (q.layout.ringEntries.map (fun a => (a.1, a.2.1))).Nodup →
            (∀ a ∈ q.layout.ringEntries, (t.core a.1).ring a.2.1 = a.2.2) ∧
            ∀ c ∈ y.cores, ∀ g, (∀ a ∈ q.layout.ringEntries, a.1 ≠ c ∨ a.2.1 ≠ g) → (t.core c).ring g = {}) ∧
          Logged t .phaseSwitched .hid [(1, j), (1, k), (1, q.layout.phase), (8, 0), (8, 0)])) ∧
        (e.arg0 / 256 % 2 = 0 → s.modeReady q.layout = false → ∃ t, exec (.phaseSwitch ring) s = .next t ∧
          Begun s t r x e false ∧ t.job j = { y with switch := some w } ∧ t.cores = s.cores ∧ t.mem = s.mem) ∧
        (e.arg0 / 256 % 2 = 1 → q.layout.blocks true ≠ [] → ∃ t, exec (.phaseSwitch ring) s = .next t ∧
          Begun s t r x e false ∧ CoresKept s t ∧ t.mem = s.mem ∧
          t.job j = { y with switch := some { w with
            reshard := true, outLeft := q.layout.blocks true
            inLeft := (q.layout.reshardTensors false).map (fun n => (n, 0, seqLength (q.layout.extents false n))) } } ∧
          ∀ b ∈ q.layout.blocks true, ∀ g ps, y.fgroup = some g →
            seqPieces (q.layout.extents true b.1) b.2 (min 4096 (seqLength (q.layout.extents true b.1) - b.2)) = some ps →
            (∀ p ∈ ps, (y.regionOf p.1 p.2).isSome = true) →
            ∃ site, IoMoves t site ps false [] (.permuteOut g b.1 b.2))))

/-! ### The training step -/

/-- R342 to R347, R350, R353 to R355: a STEP that its checks refuse completes with their status, and one that passes waits; the
waiting step opens with its OPEN record delivered and its table cleared; when every bucket is sent it is BACKWARD_DONE, and the
norm summary that has landed decides it; its norm contribution is sent and confirmed.
It rests on the model's choices in assumption log 48. -/
def Obligations.StepsOpenRunBackAndAreDecided : Prop :=
  ∀ (s : State) (ring : Fin 64) (x : Ring) (e : Entry) (job : Fin 8) (r : StepRun) (g : Nat) (z : FGroup) (n : NormIn),
    let j := job.val
    let y := s.job j
    let told (t : State) (off : Nat) (bs : List Byte) (sem : Nat) : Prop := ∀ c ∈ s.liveCores j, HidDelivers t c off bs sem
    let now (t : State) (p : StepRun → Prop) : Prop := ∃ q, (t.job j).step r.n = some q ∧ p q
    (Admitted s ring.val opcStep x e →
      let b := s.blockOf e
      let q := parseStep b ring.val s.host.nextId
      (∀ st, (s.job e.job).stepCheck b q = some st →
        ∃ t, exec (.step ring) s = .next t ∧ Ended s t ring.val x e st 0 0 ∧ RingOnly s t) ∧
      ((s.job e.job).stepCheck b q = none → ∃ t, exec (.step ring) s = .next t ∧ Begun s t ring.val x e true ∧
        t.job e.job = { s.job e.job with steps := (s.job e.job).steps ++ [q], lastStep := some q.n
                                         version := if (s.job e.job).lastStep = none then q.n - 1 else (s.job e.job).version } ∧
        (∀ k, k ≠ e.job → t.job k = s.job k) ∧ t.mem = s.mem ∧ t.cores = s.cores)) ∧
    (y.steps.find? (fun q => q.st = .waiting) = some r → y.step r.n = some r → y.mayOpen = true → y.dropped = false →
      r.btab + 32 * r.btabn ≤ spadBase →
      ∃ t, exec (.stepOpen job) s = .next t ∧ (t.job j).mfsStep = r.n ∧
        now t (fun q => q.st = .open_ ∧ q.gver = y.gver ∧ q.owned = y.ownedBuckets ∧ q.sentBuckets = y.stepBuckets) ∧
        told t r.noff (stepRecord 1 0 j y.version { r with gver := y.gver, owned := y.ownedBuckets }) r.osem ∧
        (∀ b, r.btab + 32 * y.ownedBuckets.length ≤ b → b < r.btab + 32 * r.btabn → t.byte b = 0) ∧
        ∀ w, s.ring r.ring = some w → t.ring r.ring =
          some { w with taken := w.taken.map (fun u => if u.id = r.taking then { u with waits := false } else u) }) ∧
    (y.mayOpen = false → exec (.stepOpen job) s = .next s) ∧
    (y.openStep = some r → y.step r.n = some r → r.st = .open_ → r.allSent = true →
      let done : StepRun := { r with st := .backwardDone, nonfin01 := s.nonfiniteOf j [0, 1] }
      let cleared (t : State) : Prop := ∀ c ∈ y.cores, ∀ k, k < 4 → (t.ctx c k).nonfinite = if k < 2 then 0 else (s.ctx c k).nonfinite
      (r.normIn = none → ∃ t, exec (.backwardDone job) s = .next t ∧ (t.job j).step r.n = some done ∧ cleared t ∧ t.mem = s.mem) ∧
      (r.normIn = some n → n.nonfin ≠ 0 ∨ n.missed ≠ [] → ∃ t, exec (.backwardDone job) s = .next t ∧ cleared t ∧
        t.mem = s.mem ∧ now t (fun q => q.st = .normKnown ∧ q.commit = false ∧ q.reason = (if n.nonfin ≠ 0 then 1 else 2) ∧
          q.norm = normOf n.sumsq ∧ q.clip = clipOf r.noclip r.tau (normOf n.sumsq))) ∧
      (r.normIn = some n → n.nonfin = 0 → n.missed = [] →
        r.btab + 32 * r.owned.length ≤ spadBase → (r.owned.map (·.bucket)).Nodup →
        ∃ t, exec (.backwardDone job) s = .next t ∧ cleared t ∧
        now t (fun q => q.st = .normKnown ∧ q.commit = true ∧ q.reason = 0 ∧ q.norm = normOf n.sumsq ∧
          q.clip = clipOf r.noclip r.tau (normOf n.sumsq) ∧ told t (r.noff + 64) (stepRecord 2 1 j y.version q) r.dsem ∧
          ∀ o ∈ r.owned, t.bytes (r.entryAddr (r.entryIndex o.bucket) + 4) 4 =
            leBytes 4 (scaleOf q.clip ((o.summary.map (·.ntok)).getD 0))))) ∧
    (y.openStep = some r → r.st = .open_ → r.allSent = false → exec (.backwardDone job) s = .next s) ∧
    (y.openStep = some r → y.step r.n = some r → r.st = .backwardDone → y.fgroup = some g → s.group g = some z →
      r.normSent = false → (∀ o ∈ r.owned, o.written = true) →
      let m : Msg := { msg mContrib with
        tag := bucketTag j r.n normBucket, count := (if r.dropped then 0 else r.tokens), mflags := 20
        payload := leBytes 4 (sumOfSquares r.normM) ++ leBytes 4 (min (r.nonfin01 + r.siteNonfin) (2 ^ 32 - 1)) ++
          leBytes 8 (if r.dropped then 0 else r.tokens) ++ leBytes 16 0 }
      ∃ t, exec (.normContribution job) s = .next t ∧ t.mem = s.mem ∧ t.cores = s.cores ∧
        (t.job j).step r.n = some { r with normSent := true } ∧ Sends t s.firstUpSite g (z.server normBucket) m ∧
        Sends t s.firstUpSite g (z.server normBucket)
          { msg mConfirm with tag := bucketTag j r.n normBucket, count := 1 }) ∧
    (y.openStep = some r → r.st = .open_ ∨ r.normSent = true ∨ (∃ o ∈ r.owned, o.written = false) →
      exec (.normContribution job) s = .next s)

/-- R345, R358, R361, R374: a step whose publications are all acknowledged commits with V its number, its RESULT and its status; a
non-finite count of context 2, or a temper failure, fails the job context with V unchanged; a skipped step zeroes what was placed
for it, delivers DECISION and completes with SKIPPED_NONFINITE. It rests on the model's choices in assumption log 48. -/
def Obligations.StepsCommitOrAreSkipped : Prop :=
  ∀ (s : State) (job : Fin 8) (r : StepRun) (z : Ring) (u : Taken),
    let j := job.val
    let y := s.job j
    let held : Prop := s.ring r.ring = some z ∧ z.taken.find? (fun v => v.id = r.taking && v.status = none) = some u
    let ends (t : State) (st : Nat) : Prop := ∃ w ev, t.ring r.ring = some w ∧ (st ≤ 2 → ev = 0) ∧
      { u with status := some st, result0 := 0, result1 := 0, evseq := ev, waits := false } ∈ w.taken
    (y.committing = some r → s.commitReady j r = true → r.temperBad = none → s.nonfiniteOf j [2] = 0 → held →
      ∃ t, exec (.committed job) s = .next t ∧ (t.job j).version = r.n ∧ (t.job j).step r.n = none ∧ (t.job j).st = y.st ∧
        ends t r.status ∧ t.bytes r.result 64 = stepRecord 3 r.status j r.n { r with st := .committed } ∧
        (∀ b, b < r.result ∨ r.result + 64 ≤ b → t.byte b = s.byte b) ∧
        ∀ c ∈ s.liveCores j, (t.core c).lastClean =
          if r.n ∈ (s.core c).passedSteps ∧ r.n ∉ (s.core c).failedSteps then r.n else (s.core c).lastClean) ∧
    (y.committing = some r → s.commitReady j r = true → r.temperBad.isSome = true ∨ s.nonfiniteOf j [2] ≠ 0 →
      ∃ t, exec (.committed job) s = .next t ∧ (t.job j).st = .failed ∧ (t.job j).version = y.version ∧
        (∀ c ∈ y.cores, ∀ k, k < 4 → (t.ctx c k).st ≠ .running) ∧ ∀ c ∈ y.cores, (t.ctx c 2).nonfinite = 0) ∧
    (y.committing = some r → s.commitReady j r = false → exec (.committed job) s = .next s) ∧
    (y.steps.find? (fun q => q.st = .normKnown && !q.commit) = some r → held → hostBase ≤ r.result →
      let q : StepRun := { r with st := .skipped }
      ∃ t, exec (.skipped job) s = .next t ∧ (t.job j).version = y.version ∧ (t.job j).step r.n = none ∧ ends t stSkipped ∧
        (∀ p ∈ r.placed, p.1 + p.2 ≤ spadBase → ∀ i, i < p.2 → t.byte (p.1 + i) = 0) ∧
        (∀ i, r.btab + 32 * r.owned.length ≤ spadBase → i < 32 * r.owned.length → t.byte (r.btab + i) = 0) ∧
        (∀ c ∈ s.liveCores j, HidDelivers t c (r.noff + 64) (stepRecord 2 2 j y.version q) r.dsem) ∧
        t.bytes r.result 64 = stepRecord 3 stSkipped j y.version q) ∧
    ((∀ q ∈ y.steps, q.st = .normKnown → q.commit = true) → exec (.skipped job) s = .next s)

/-! ### Rings -/

/-- R472, R473, R475, R498: a change of the link is kept and recorded; D3hot and D0 are entered, and at D0, or when a vector is
unmasked, the messages of pending vectors are sent. It rests on the model's choices in assumption log 15. -/
def Obligations.TheFunctionKeepsItsLinkAndVectors : Prop :=
  ∀ (s : State) (width speed : Nat) (vector : Fin 256),
    let v := vector.val
    let sent (t : State) (i : Nat) : Nat := Tab.get 0 t.host.msixSent i
    let flushed (t : State) (un : List Nat) : Prop := ∀ i,
      (i ∈ t.host.msixPending ↔ i ∈ s.host.msixPending ∧ i ∉ un) ∧
      sent t i = sent s i + (if i ∈ s.host.msixPending ∧ i ∈ un then 1 else 0)
    (linkOk width speed = true → width ≠ s.host.width ∨ speed ≠ s.host.speed → LogRoom s 1 →
      ∃ t, exec (.linkDegraded width speed) s = .next t ∧
        t = { s with host := { s.host with width := width, speed := speed }, obs := t.obs } ∧
        Logged t .linkDegraded .hid [(1, width), (2, speed)]) ∧
    (linkOk width speed = false ∨ width = s.host.width ∧ speed = s.host.speed →
      exec (.linkDegraded width speed) s = .next s) ∧
    exec .powerStateD3hot s = .next { s with host := { s.host with d3hot := true } } ∧
    (s.host.msixPending.Nodup → ∃ t, exec .powerStateD0 s = .next t ∧ flushed t s.host.unmasked ∧
      t = { s with host := { s.host with d3hot := false, msixPending := t.host.msixPending, msixSent := t.host.msixSent } }) ∧
    (s.host.msixPending.Nodup → s.host.d3hot = false → ∃ t, exec (.msixUnmask vector) s = .next t ∧
      (∀ i, i ∈ t.host.unmasked ↔ i ∈ s.host.unmasked ∨ i = v) ∧ flushed t t.host.unmasked ∧
      t = { s with host := { s.host with
        unmasked := t.host.unmasked, msixPending := t.host.msixPending, msixSent := t.host.msixSent } }) ∧
    (s.host.d3hot = true → exec (.msixUnmask vector) s = .next s)

/-- R475, R481, R482, R513, R514: a doorbell within its ring moves its index and another is recorded; ring 0 is made by ENABLE from
the fields of R0CFG where its bases are in order, and it goes, or drains, when ENABLE is cleared.
It rests on the model's choices in assumption log 15, 34, 38. -/
def Obligations.DoorbellsAndRingZeroTakeEffect : Prop :=
  ∀ (s : State) (ring : Fin 64) (value : BitVec 32) (word : Word64) (width : Nat) (x : Ring),
    let r := ring.val
    let v := value.toNat
    let n := 2 ^ x.cqLog
    let w := word.toNat
    let old := s.regs.r0Cfg
    let quiet (t : State) : Prop := t = { s with obs := t.obs }
    let moved (i : Instr) (y : Ring) : Prop := ∃ t, exec i s = .next t ∧ t.ring r = some y ∧
      (∀ k, k ≠ r → t.ring k = s.ring k) ∧ t = { s with host := { s.host with rings := t.host.rings } }
    let invalid (i : Instr) (off : Nat) : Prop := LogRoom s 1 → ∃ t, exec i s = .next t ∧ quiet t ∧
      Logged t .doorbellInvalid .hid [(1, r), (2, off), (4, v)]
    let narrow (i : Instr) (off : Nat) : Prop := LogRoom s 1 → ∃ t, exec i s = .next t ∧ quiet t ∧
      Logged t .regwriteRefused .hid [(4, 0x1000000 + r * 0x1000 + off), (8, v), (1, rwWidth)]
    let ci : Prop := v < n ∧ (v + n - x.cqCi) % n ≤ (x.cqPi + n - x.cqCi) % n
    let refused (cause : Nat) : Prop := LogRoom s 1 → ∃ t, exec (.ring0Enable word) s = .next t ∧ t.ring 0 = none ∧
      Logged t .regwriteRefused .hid [(4, 0x3010), (8, w), (1, cause)]
    (s.host.d3hot = false →
      (width ≠ 4 → narrow (.doorbell ring value width) 0 ∧ narrow (.cqCiWrite ring value width) 4) ∧
      (width = 4 → s.ring r = none →
        invalid (.doorbell ring value width) 0 ∧ invalid (.cqCiWrite ring value width) 4) ∧
      (width = 4 → s.ring r = some x →
        (v < 2 ^ x.sqLog → moved (.doorbell ring value width) { x with sqPi := v }) ∧
        (2 ^ x.sqLog ≤ v → invalid (.doorbell ring value width) 0) ∧
        (ci → moved (.cqCiWrite ring value width) { x with cqCi := v }) ∧
        (¬ ci → invalid (.cqCiWrite ring value width) 4)) ∧
      (cfgEnable w = true → cfgEnable old = false → s.ring 0 = none → cfgOutOfRange w = false →
        (baseOk s.regs.r0SqBase (64 * 2 ^ cfgSqLog w) = true → baseOk s.regs.r0CqBase (32 * 2 ^ cfgCqLog w) = true →
          ∃ t, exec (.ring0Enable word) s = .next t ∧ t = { s with host := t.host, regs := t.regs } ∧
            t.host = { s.host with rings := t.host.rings } ∧ t.regs = { s.regs with r0Cfg := t.regs.r0Cfg } ∧
            cfgEnable t.regs.r0Cfg = true ∧ (∀ k, k ≠ 0 → t.ring k = s.ring k) ∧
            t.ring 0 = some (newRing 0 0xFF (cfgVector w) (cfgSqLog w) (cfgCqLog w) (cfgCcount w) (cfgCtime w)
              s.regs.r0SqBase s.regs.r0CqBase)) ∧
        (baseOk s.regs.r0SqBase (64 * 2 ^ cfgSqLog w) = false ∨ baseOk s.regs.r0CqBase (32 * 2 ^ cfgCqLog w) = false →
          refused 4)) ∧
      (cfgEnable w = false → cfgEnable old = true → s.ring 0 = some x → w % 2 ^ 56 / 2 ^ 8 = old % 2 ^ 56 / 2 ^ 8 →
        ∃ t, exec (.ring0Disable word) s = .next t ∧ cfgEnable t.regs.r0Cfg = false ∧ t.mem = s.mem ∧ t.obs = s.obs ∧
          (∀ k, k ≠ 0 → t.ring k = s.ring k) ∧
          t.ring 0 = if x.taken = [] then none else some { x with deleting := true, deleteBy := none, fetched := [] })) ∧
    (s.host.d3hot = true → exec (.doorbell ring value width) s = .next s ∧ exec (.cqCiWrite ring value width) s = .next s ∧
      exec (.ring0Enable word) s = .next s ∧ exec (.ring0Disable word) s = .next s) ∧
    (cfgEnable old = true ∨ cfgEnable w = false → exec (.ring0Enable word) s = .next s) ∧
    (cfgEnable old = false ∨ cfgEnable w = true → exec (.ring0Disable word) s = .next s)

/-- R480, R483, R485, R486, R495, R499, R500: the ring whose turn it is fetches up to sixteen entries, or enters ERROR; the oldest
taken command that has its status writes its completion entry and counts towards the ring's interrupt; rings are made from blocks
that keep R480 and removed once their taken commands have ended. It rests on the model's choices in assumption log 38. -/
def Obligations.RingsFetchCompleteAndAreMade : Prop :=
  ∀ (s : State) (ring : Fin 64) (x : Ring) (e : Entry) (u : Taken) (st : Nat),
    let r := ring.val
    let n := min 16 (min x.waiting x.room)
    let a := x.cqBase + 32 * x.cqPi
    let next := (x.cqPi + 1) % 2 ^ x.cqLog
    let others (t : State) (r : Nat) : Prop := ∀ k, k ≠ r → t.ring k = s.ring k
    let sent (t : State) (i : Nat) : Nat := Tab.get 0 t.host.msixSent i
    let b := s.blockOf e
    let at_ (o n : Nat) : Nat := fieldAt b o n
    let fresh : Ring := newRing (at_ 1 1) (at_ 2 1) (at_ 3 1) (at_ 4 1) (at_ 5 1) (at_ 6 1) (at_ 0x18 2) (at_ 8 8) (at_ 16 8)
    (s.regs.st ≠ .boot → s.host.d3hot = false → s.nextRing = some r → s.ring r = some x →
      (s.fetchOk x = true →
        let es := (List.range n).map (fun i => entryOf (s.bytes (x.sqBase + 64 * ((x.sqCi + i) % 2 ^ x.sqLog)) 64))
        (∀ d, (x.fetched ++ es).head? = some d → (cmdInfo d.opcode).isSome = true) →
        ∃ t, exec (.sqFetch ring false) s = .next t ∧ others t r ∧ t.mem = s.mem ∧ t.obs = s.obs ∧ t.host.lastRing = r ∧
          t.ring r = some { x with sqCi := (x.sqCi + n) % 2 ^ x.sqLog, fetched := x.fetched ++ es }) ∧
      (LogRoom s 2 → ∃ t, exec (.sqFetch ring true) s = .next t ∧ others t r ∧ t.mem = s.mem ∧
        t.ring r = some { x with error := true } ∧ t.host.lastRing = r ∧
        Logged t .ringError .hid [(1, r), (2, x.sqCi)])) ∧
    (s.regs.st = .boot ∨ s.host.d3hot = true ∨ s.nextRing ≠ some r →
      exec (.sqFetch ring false) s = .next s ∧ exec (.sqFetch ring true) s = .next s) ∧
    (s.host.d3hot = false → s.ring r = some x → x.taken.head? = some u → u.status = some st → x.deleting = false →
      let m := x.pendingInts + (if u.entry.noint then 0 else 1)
      let fires : Prop := x.ccount ≠ 0 ∧ (x.ccount ≤ m ∨ urgent st = true)
      ∃ t, exec (.completionEntry ring) s = .next t ∧ others t r ∧
        t.bytes a 32 = leBytes 2 u.entry.cid ++ leBytes 1 st ++ leBytes 1 u.entry.opcode ++ leBytes 1 u.entry.job ++ leBytes 1 0 ++
          leBytes 2 x.sqCi ++ leBytes 8 u.result0 ++ leBytes 8 u.result1 ++ leBytes 4 u.evseq ++ leBytes 3 0 ++
          leBytes 1 (if x.phase then 1 else 0) ∧
        (∀ i, i < a ∨ a + 32 ≤ i → t.byte i = s.byte i) ∧
        (¬ fires → t.ring r = some { x with
          cqPi := next, phase := (if next = 0 then !x.phase else x.phase), taken := x.taken.drop 1, pendingInts := m }) ∧
        (fires → t.ring r = some { x with
          cqPi := next, phase := (if next = 0 then !x.phase else x.phase), taken := x.taken.drop 1, pendingInts := 0 } ∧
          (x.vector ∈ s.host.unmasked → sent t x.vector = sent s x.vector + 1) ∧
          (x.vector ∉ s.host.unmasked → x.vector ∈ t.host.msixPending))) ∧
    (s.ring r = some x → (∀ u, x.taken.head? = some u → u.status = none) → exec (.completionEntry ring) s = .next s) ∧
    (s.ring r = some x → x.ctime ≠ 0 → x.ccount ≠ 0 → x.pendingInts ≠ 0 → s.host.d3hot = false →
      ∃ t, exec (.ctimeExpiry ring) s = .next t ∧ others t r ∧ t.ring r = some { x with pendingInts := 0 } ∧ t.mem = s.mem ∧
        (x.vector ∈ s.host.unmasked → sent t x.vector = sent s x.vector + 1) ∧
        (x.vector ∉ s.host.unmasked → x.vector ∈ t.host.msixPending)) ∧
    (s.ring r = some x → x.ctime = 0 ∨ x.ccount = 0 ∨ x.pendingInts = 0 → exec (.ctimeExpiry ring) s = .next s) ∧
    (s.ring r = some x → x.error = false → x.deleting = false →
      (0 < x.waiting → x.room = 0 → LogRoom s 1 → ∃ t, exec (.cqFull ring) s = .next t ∧ t = { s with obs := t.obs } ∧
        Logged t .cqFull .hid [(1, r)]) ∧
      (x.waiting = 0 ∨ 0 < x.room → exec (.cqFull ring) s = .next s)) ∧
    (Admitted s r ocRingCreate x e →
      let ends (st : Nat) : Prop := ∃ t, exec (.ringCreate ring) s = .next t ∧ Ended s t r x e st 0 0 ∧ RingOnly s t ∧ others t r
      (ringBlockOk b = false → ends stMalformed) ∧
      (ringBlockOk b = true → (s.ring (at_ 0 1)).isSome = true → ends stState) ∧
      (ringBlockOk b = true → s.ring (at_ 0 1) = none → s.sessionHolds (at_ 1 1) (at_ 2 1) = false → ends stDenied) ∧
      (ringBlockOk b = true → s.ring (at_ 0 1) = none → s.sessionHolds (at_ 1 1) (at_ 2 1) = true →
        ∃ t, exec (.ringCreate ring) s = .next t ∧ Ended s t r x e stDone 0 0 ∧ RingOnly s t ∧ t.ring (at_ 0 1) = some fresh)) ∧
    (Admitted s r ocRingDelete x e →
      let m := e.arg0 % 64
      let ends (st : Nat) (p : State → Prop) : Prop := ∃ t, exec (.ringDelete ring) s = .next t ∧ Ended s t r x e st 0 0 ∧
        RingOnly s t ∧ p t
      (m = 0 → ends stMalformed (fun _ => True)) ∧
      (m ≠ 0 → (s.ring m = none ∨ (s.ring m).any (·.deleting) = true) → ends stState (fun t => t.ring m = s.ring m)) ∧
      (∀ y, s.ring m = some y → m ≠ 0 → y.deleting = false → y.taken = [] → ends stDone (fun t => t.ring m = none)) ∧
      (∀ y, s.ring m = some y → m ≠ 0 → y.deleting = false → y.taken ≠ [] → ∃ t, exec (.ringDelete ring) s = .next t ∧
        Begun s t r x e false ∧ RingOnly s t ∧
        t.ring m = some { y with deleting := true, deleteBy := some s.host.nextId, fetched := [] }))

/-! ### Host data and registers -/

/-- R23, R294, R477, R478: an access of BAR2 that one region of the window's job context holds reads or writes its bytes and activates
their rows; another is counted, recorded and answered with Unsupported Request, or discarded, and one to an unmapped address is recorded
as such too; WINDOW_SET places the window in stack memory.
It rests on the model's choices in assumption log 4, 39. -/
def Obligations.TheWindowReadsAndWritesItsRegions : Prop :=
  ∀ (s : State) (offset len : Nat) (data : List Byte) (ring : Fin 64) (x : Ring) (e : Entry),
    let addr := s.host.windowBase + offset
    let on : Prop := s.regs.st ≠ .boot ∧ s.host.d3hot = false
    let online : Prop := ∀ i, (s.stack i).st ≠ .fencedRun
    let refused (t : State) (n write : Nat) : Prop := t.mem = s.mem ∧ t.cores = s.cores ∧
      t.host.bar2Refused = s.host.bar2Refused + 1 ∧ Recorded t .bar2Refused .hid [(8, addr), (1, write)] ∧
      (s.mapped addr n = false →
        Logged t .accessUnmapped .hid [(1, (Src.hid).kind), (2, (Src.hid).num), (8, addr), (1, write)])
    let rows (t : State) (n : Nat) : Prop := ∀ g, granulesOf addr n = [g] →
      Tab.get 0 (t.stack (s.stackOf g)).acts (s.bankOfStack g) = Tab.get 0 (s.stack (s.stackOf g)).acts (s.bankOfStack g) + 1
    (on → online → 0 < len → offset + len ≤ bar2Size → (s.bar2Region addr len).isSome = true → CleanAt s addr len →
      ∃ t, exec (.bar2Read offset len) s = .next t ∧ rows t len ∧
        t = { s with host := t.host, stackSites := t.stackSites, obs := t.obs, regs := t.regs } ∧
        t.host = { s.host with readData := some (s.bytes addr len), readPoisoned := false }) ∧
    (on → (len = 0 ∨ bar2Size < offset + len ∨ s.bar2Region addr len = none) → LogRoom s 2 →
      ∃ t, exec (.bar2Read offset len) s = .next t ∧ refused t len 0 ∧ t.host.readData = none) ∧
    (¬ on → exec (.bar2Read offset len) s =
      .next { s with host := { s.host with readData := none, readPoisoned := false } }) ∧
    (on → online → data ≠ [] → offset + data.length ≤ bar2Size → s.bar2Admits addr data.length = true → CleanAt s addr data.length →
      ∃ t, exec (.bar2Write offset data) s = .next t ∧ rows t data.length ∧
        t = { s with mem := t.mem, codeErr := t.codeErr, stackSites := t.stackSites, obs := t.obs, regs := t.regs } ∧
        t.bytes addr data.length = data ∧ (∀ a, a < addr ∨ addr + data.length ≤ a → t.byte a = s.byte a) ∧
        CleanAt t addr data.length) ∧
    (on → data ≠ [] → (bar2Size < offset + data.length ∨ s.bar2Admits addr data.length = false) → LogRoom s 2 →
      ∃ t, exec (.bar2Write offset data) s = .next t ∧ refused t data.length 1) ∧
    (¬ on ∨ data = [] → exec (.bar2Write offset data) s = .next s) ∧
    (Admitted s ring.val ocWindowSet x e →
      (e.arg1 % 4096 = 0 → e.arg1 < s.stackEnd → ∃ t, exec (.windowSet ring) s = .next t ∧
        Ended s t ring.val x e stDone 0 0 ∧ t.host.windowBase = e.arg1 ∧ t.host.windowJob = some e.job ∧ t.mem = s.mem) ∧
      (e.arg1 % 4096 ≠ 0 ∨ s.stackEnd ≤ e.arg1 → ∃ t, exec (.windowSet ring) s = .next t ∧
        Ended s t ring.val x e stMalformed 0 0 ∧ RingOnly s t))

/-- R20, R496, R497: a token command whose block breaks R496 is MALFORMED, one that the present state forbids completes with STATE;
TOKEN_PUT copies host memory to its extent of stack memory, or sends it over the spur to its core, the increment with the last flit, and
TOKEN_GET copies the extent to host memory; both wait for an earlier one of their ring and while the spur may not inject.
It rests on the model's choices in assumption log 39, 79. -/
def Obligations.TokensMoveBetweenHostAndModule : Prop :=
  ∀ (s : State) (ring : Fin 64) (x : Ring) (e : Entry),
    let r := ring.val
    let b := s.blockOf e
    let c : Cmd := ⟨r, s.host.nextId, e⟩
    let h := fieldAt b 0 8
    let d := fieldAt b 8 8
    let n := fieldAt b 16 4
    let m := fieldAt b 20 1
    let ends (i : Instr) (st : Nat) (p : State → Prop) : Prop := ∃ t, exec i s = .next t ∧ Ended s t r x e st 0 0 ∧ p t
    let only (t : State) (a : Nat) (bs : List Byte) : Prop :=
      t.bytes a n = bs ∧ ∀ i, i < a ∨ a + n ≤ i → t.byte i = s.byte i
    (s.net.stopped = true ∨ (∃ y ∈ s.host.tokens, y.ring = r) →
      exec (.tokenPut ring) s = .next s ∧ exec (.tokenGet ring) s = .next s) ∧
    (Admitted s r ocTokenPut x e → s.tokenWaits r = false →
      (s.tokenOk c b true = false → ends (.tokenPut ring) stMalformed (RingOnly s)) ∧
      (s.tokenOk c b true = true → s.tokenState c b true = false → ends (.tokenPut ring) stState (RingOnly s)) ∧
      (s.tokenOk c b true = true → s.tokenState c b true = true → s.firstFail h n = none → d + n ≤ hostBase →
        (spadTarget d n = none → ends (.tokenPut ring) stDone (fun t => only t d (s.bytes h n) ∧ CleanAt t d n ∧
          t.cores = s.cores)) ∧
        (∀ q, spadTarget d n = some q → ∃ t, exec (.tokenPut ring) s = .next t ∧ Begun s t r x e false ∧
          t.mem = s.mem ∧ CoresKept s t ∧ t.host.tokens = s.host.tokens ++ [⟨r, s.host.nextId, q.1, stDone⟩] ∧
          ∀ f ∈ deliveryFlits .hid q.1 q.2 (s.bytes h n) (if 64 ≤ m then some (m % 64) else none), InNet t hidCore f))) ∧
    (Admitted s r ocTokenGet x e → s.tokenWaits r = false →
      (s.tokenOk c b false = false → ends (.tokenGet ring) stMalformed (RingOnly s)) ∧
      (s.tokenOk c b false = true → s.tokenState c b false = false → ends (.tokenGet ring) stState (RingOnly s)) ∧
      (s.tokenOk c b false = true → s.tokenState c b false = true → CleanAt s d n → (∀ i, (s.stack i).st ≠ .fencedRun) →
        d + n ≤ hostBase → ends (.tokenGet ring) stDone (fun t => only t h (s.bytes d n) ∧ t.cores = s.cores ∧ t.jobs = s.jobs)))

/-- R491, R578, R579, R583, R594, R599, R600: COUNTER_READ writes the records of its counter sets and, with RESET, starts them
afresh; TRACE_CONFIG takes its block; EVENT_READ, CPER_READ and REPAIR_READ copy the records there are; EVENT_CLEAR leaves a log of
one LOG_CLEARED. It rests on the model's choices in assumption log 52. -/
def Obligations.RecordsAreReadAndCleared : Prop :=
  ∀ (s : State) (ring : Fin 64) (x : Ring) (e : Entry),
    let r := ring.val
    let b := s.blockOf e
    let c : Cmd := ⟨r, s.host.nextId, e⟩
    let a := fieldAt b 0 8
    let n := fieldAt b 12 4
    let k := fieldAt b 0 1
    let first := fieldAt b 2 2
    let count := fieldAt b 4 2
    let each := 64 + 8 * kindWords k
    let out := fieldAt b 8 8
    let copied (t : State) (a : Nat) (bs : List Byte) : Prop :=
      t.bytes a bs.length = bs ∧ ∀ i, i < a ∨ a + bs.length ≤ i → t.byte i = s.byte i
    let ends (i : Instr) (st r0 r1 : Nat) (p : State → Prop) : Prop :=
      ∃ t, exec i s = .next t ∧ Ended s t r x e st r0 r1 ∧ t.cores = s.cores ∧ t.jobs = s.jobs ∧ p t
    let reset : Bool := decide (k = 2 ∧ fieldAt b 1 1 = 1)
    (Admitted s r ocCounterRead x e →
      (counterBlockOk b = false → ends (.counterRead ring) stMalformed 0 0 (RingOnly s)) ∧
      (counterBlockOk b = true → s.counterPermits c b = false → ends (.counterRead ring) stDenied 0 0 (RingOnly s)) ∧
      (counterBlockOk b = true → s.counterPermits c b = true → ∃ t, exec (.counterRead ring) s = .next t ∧
        Ended s t r x e stDone (count * each) 0 ∧ t.cores = s.cores ∧ (reset = false → t.jobs = s.jobs) ∧
        copied t out ((List.range count).flatMap (fun i => s.counterRecord k (first + i))) ∧
        ∀ q i, 1 ≤ q → q ≤ 4 → t.counterSet q i =
          if q = k ∧ fieldAt b 1 1 = 1 ∧ first ≤ i ∧ i < first + count then
            ⟨((s.counterSet q i).epoch + 1) % 65536, []⟩ else s.counterSet q i)) ∧
    (Admitted s r ocTraceConfig x e →
      (traceBlockOk b = false → ends (.traceConfig ring) stMalformed 0 0 (RingOnly s)) ∧
      (traceBlockOk b = true → ends (.traceConfig ring) stDone 0 0 (fun t => t.mem = s.mem ∧
        t.obs.trace = { s.obs.trace with
          types := fieldAt b 0 2, enable := decide (fieldAt b 2 1 = 1), ctxMask := fieldAt b 3 1
          rect := ⟨fieldAt b 4 1, fieldAt b 5 1, fieldAt b 6 1, fieldAt b 7 1⟩, sources := out
          syncDue := s.obs.trace.syncDue || decide (fieldAt b 2 1 = 1) }))) ∧
    (Admitted s r ocEventRead x e →
      (eventBlockOk b = false → ends (.eventRead ring) stMalformed 0 0 (RingOnly s)) ∧
      (eventBlockOk b = true →
        let rs := (s.obs.flash.drop (fieldAt b 8 4)).take n
        ends (.eventRead ring) stDone rs.length s.obs.flash.length (fun t => copied t a (rs.flatMap Record.bytes)))) ∧
    (Admitted s r ocEventClear x e → ends (.eventClear ring) stDone 0 0 (fun t => t.mem = s.mem ∧ t.obs.log.length = 1 ∧
      t.obs.flash = t.obs.log ∧ t.obs.full = false ∧ (∀ v, Tab.get 0 t.obs.lost v = 0) ∧
      Logged t .logCleared .hid [(1, (s.sec.session.map (·.principal)).getD 0), (4, s.obs.flash.length),
        (8, Tab.get 0 s.obs.lost 0 + Tab.get 0 s.obs.lost 1 + Tab.get 0 s.obs.lost 2 + Tab.get 0 s.obs.lost 3)])) ∧
    (Admitted s r ocCperRead x e →
      let rs := s.integ.cper.take (e.blen / 328)
      ends (.cperRead ring) stDone rs.length 0 (fun t => copied t e.block (rs.flatMap (·.bytes)))) ∧
    (Admitted s r ocRepairRead x e →
      let rs := s.wafer.store.take (e.blen / 8)
      ends (.repairRead ring) stDone rs.length 0 (fun t => copied t e.block (rs.flatMap (fun w => leBytes 8 w.toNat))))

/-- R7, R11, R475, R505 to R508, R512, R515, R529: a write of 1 clears its flag unless hardware sets it in that cycle; MACBASE and PCAP take
an admitted value; a register takes a value in its range, refuses one outside it, one without the session's role and one of a
wrong width, and two halves of a 64-bit register take effect together.
It rests on the model's choices in assumption log 15, 33, 34. -/
def Obligations.RegistersTakeAdmittedWrites : Prop :=
  ∀ (s : State) (offset : BitVec 25) (value : Word64) (width n : Nat),
    let off := offset.toNat
    let v := value.toNat
    let g := s.regs
    let refused (i : Instr) (off v cause : Nat) : Prop := LogRoom s 1 → ∃ t, exec i s = .next t ∧ t = { s with obs := t.obs } ∧
      Logged t .regwriteRefused .hid [(4, off), (8, v), (1, cause)]
    let write : Instr := .registerWrite offset value width
    let on : Prop := s.host.d3hot = false
    let puts (g' : Regs) : Prop := exec write s = .next { s with regs := g' }
    let half (k : Nat) : Nat := v / 2 ^ k % 2 ^ 32
    (on → width = 4 → off % 4 = 0 → flagAt off = some n → v < 2 ^ 32 →
      exec (.flagClear offset value width) s = .next (if v / 2 ^ 31 % 2 = 1 then { s with regs := { g with
        flags := Tab.set 0 g.flags n (if Tab.get 0 g.flagTime n = s.time + 1 then 1 else 0) } } else s)) ∧
    (on → width ≠ 4 → width ≠ 8 → refused (.flagClear offset value width) off v 3 ∧ refused write off v 3) ∧
    (on → width = 4 ∨ width = 8 → off % width ≠ 0 → refused (.flagClear offset value width) off v 3 ∧ refused write off v 3) ∧
    (¬ on → exec (.flagClear offset value width) s = .next s ∧ exec write s = .next s ∧
      exec (.macbaseWrite value) s = .next s ∧ exec (.pcapWrite value) s = .next s) ∧
    (on → s.mayWrite = true →
      (s.allEmpty = true → macOk (v % 2 ^ 48) = true →
        (v % 2 ^ 48 ≠ 0 → exec (.macbaseWrite value) s = .next { s with regs := { g with macBase := v % 2 ^ 48 } }) ∧
        (v % 2 ^ 48 = 0 → ∃ t, exec (.macbaseWrite value) s = .next t ∧ t.regs.macBase = 0 ∧
          (∀ p, p < 144 → s.portState p = .up ∨ s.portState p = .training → t.portState p = .down) ∧
          (∀ p, p < 144 → s.portState p ≠ .up → s.portState p ≠ .training → t.port p = s.port p) ∧
          t.fabric.conns = s.fabric.conns)) ∧
      (s.allEmpty = true → macOk (v % 2 ^ 48) = false → refused (.macbaseWrite value) 0x5000 v 0) ∧
      (s.allEmpty = false → refused (.macbaseWrite value) 0x5000 v 2) ∧
      (8000 ≤ v % 2 ^ 16 → v % 2 ^ 16 ≤ 32000 → ∃ t, exec (.pcapWrite value) s = .next t ∧
        t = { s with regs := { g with pcap := v % 2 ^ 16 }, clk := { s.clk with halves := t.clk.halves } } ∧
        ∀ h, t.half h = if h < 2 then { s.half h with records := [] } else s.half h) ∧
      (v % 2 ^ 16 < 8000 ∨ 32000 < v % 2 ^ 16 → refused (.pcapWrite value) 0x4008 v 0)) ∧
    (on → s.mayWrite = false → refused (.macbaseWrite value) 0x5000 v 1 ∧ refused (.pcapWrite value) 0x4008 v 1) ∧
    (on → width = 4 → v < 2 ^ 32 → s.mayWrite = true →
      (off = 0x4000 → v % 8 ≤ 5 → v / 2 ^ 8 % 8 ≤ 5 → puts { g with opWest := v % 8, opEast := v / 2 ^ 8 % 8 }) ∧
      (off = 0x400C → 70 ≤ v % 2 ^ 8 → v % 2 ^ 8 ≤ 105 → ∃ t, exec write s = .next t ∧ t.regs.tthrottle = v % 2 ^ 8 ∧
        t = { s with regs := t.regs } ∧ t.regs.alert = ({ s with regs := { g with tthrottle := v % 2 ^ 8 } } : State).alertNow) ∧
      (off = 0x400C → v % 2 ^ 8 < 70 ∨ 105 < v % 2 ^ 8 → refused write off v 0) ∧
      (off = 0x5008 → s.allEmpty = true → 0x600 ≤ v % 2 ^ 16 → puts { g with etherType := v % 2 ^ 16 }) ∧
      (off = 0x5008 → s.allEmpty = false → refused write off v 2) ∧
      (off = 0x500C → 5 ≤ v % 2 ^ 16 → v % 2 ^ 16 ≤ 10000 → puts { g with rto := v % 2 ^ 16 }) ∧
      (off = 0x500C → v % 2 ^ 16 < 5 ∨ 10000 < v % 2 ^ 16 → refused write off v 0) ∧
      (off = 0x5010 → 10 ≤ v % 2 ^ 16 → v % 2 ^ 16 ≤ 10000 → puts { g with hbInt := v % 2 ^ 16 }) ∧
      (off = 0x6000 → 100 ≤ v / 2 ^ 16 → v / 2 ^ 8 % 16 ≤ 12 → puts { g with
        timeout := v / 2 ^ 16, rate := v / 2 ^ 8 % 16, enable := decide (v % 2 = 1) }) ∧
      (off = 0x6000 → v / 2 ^ 16 < 100 ∨ 12 < v / 2 ^ 8 % 16 → LogRoom s 1 → ∃ t, exec write s = .next t ∧
        t = { s with regs := t.regs, obs := t.obs } ∧ t.regs = { g with
          timeout := if 100 ≤ v / 2 ^ 16 then v / 2 ^ 16 else g.timeout
          rate := if v / 2 ^ 8 % 16 ≤ 12 then v / 2 ^ 8 % 16 else g.rate, enable := decide (v % 2 = 1) } ∧
        Logged t .regwriteRefused .hid [(4, off), (8, v), (1, 0)])) ∧
    (on → width = 4 → v < 2 ^ 32 → s.mayWrite = false → off ∈ [0x4000, 0x400C, 0x5008, 0x500C, 0x5010, 0x6000] →
      refused write off v 1) ∧
    (on → width = 4 → v < 2 ^ 32 → g.mboxBusy = false →
      (off = 0x2008 → 1 ≤ v % 2 ^ 16 → v % 2 ^ 16 ≤ 1024 → puts { g with qlen := v % 2 ^ 16 }) ∧
      (off % 4 = 0 → 0x2800 ≤ off → off < 0x2C00 → puts { g with mboxReq := putBytes g.mboxReq (off - 0x2800) (leBytes 4 v) }) ∧
      (off = 0x2004 → v % 2 = 1 → 1 ≤ g.qlen → g.qlen ≤ 1024 → headerOk s.request = true → puts { g with mboxBusy := true })) ∧
    (on → width = 8 → s.mayWrite = true →
      (off = 0x6000 → 100 ≤ v / 2 ^ 16 % 2 ^ 16 → v / 2 ^ 8 % 16 ≤ 12 → puts { g with
        timeout := v / 2 ^ 16 % 2 ^ 16, rate := v / 2 ^ 8 % 16, enable := decide (v % 2 = 1) }) ∧
      (off = 0x6020 → snapOk (half 32) = true → snapOk (half 0) = true → puts { g with snapInt3 := half 32, snapInt2 := half 0 })) ∧
    (on → width = 8 → s.ring 0 = none → off = 0x3000 → puts { g with r0SqBase := v }) ∧
    (on → width = 4 → off % 4 = 0 → v < 2 ^ 32 → off / 8 * 8 ∈ wide64 →
      (off % 8 = 0 → puts { g with lowHeld := Tab.set none g.lowHeld off (some v) }) ∧
      (off = 0x3004 → s.ring 0 = none → ∀ low, Tab.get none g.lowHeld 0x3000 = some low →
        puts { g with lowHeld := Tab.set none g.lowHeld 0x3000 none, r0SqBase := v * 2 ^ 32 + low }))

/-! ### Security -/

/-- R512, R553, R557 to R564, R607: a posted request is answered in the mailbox; HELLO issues a challenge; RESPONSE opens the
session where its MAC is the one of R558, and counts a failure otherwise, the eighth of which locks; CLOSE ends the session and
removes its rings; CLAIM opens an Owner session while slot 0 holds no key; challenges and the lock expire.
It rests on the model's choices in assumption log 12, 15, 35. -/
def Obligations.SessionsOpenCloseAndExpire : Prop :=
  ∀ (s : State) (q : Session) (c : Challenge) (k : KeySlot) (principal : Fin 16),
    let b := s.request
    let p := fieldAt b 3 1
    let nd := fit 48 (Config.nonce s.sec.nonces)
    let nh := (b.drop 8).take 48
    let mac := (b.drop 8).drop 48
    let posted (typ : Nat) : Prop := s.regs.mboxBusy = true ∧ fieldAt b 1 1 = typ
    let ready (typ : Nat) : Prop := posted typ ∧ s.sec.recovery = false ∧ s.regs.st ≠ .boot
    let bare : Prop := b.drop 8 = []
    let answers (t : State) (typ st : Nat) (body : List Byte) : Prop :=
      t.regs.mboxBusy = false ∧ t.regs.mboxRep = icdor typ st p body ∧ t.regs.rlen = (icdor typ st p body).length ∧
      (Tab.get 0 s.regs.flagTime flagDone ≠ s.time + 1 →
        Tab.get 0 t.regs.flags flagDone = min (Tab.get 0 s.regs.flags flagDone + 1) 65535) ∧
      t.mem = s.mem ∧ t.cores = s.cores ∧ t.jobs = s.jobs
    let turns (i : Instr) (typ st : Nat) : Prop := ∃ t, exec i s = .next t ∧ answers t typ st [] ∧ t.sec = s.sec
    let opened (t : State) (typ p role jobs keyed : Nat) : Prop :=
      answers t typ 0 (leBytes 1 role ++ leBytes 1 jobs ++ leBytes 6 0) ∧ t.sec.auths = 0 ∧
      Logged t .sessionOpened .hid [(1, p), (1, role), (1, jobs), (1, keyed)]
    let held (role jobs : Nat) : Nat := if role = roleJob then jobs else 0xFF
    (∀ a ∈ [(Instr.hello, 1), (.response, 2), (.close, 3), (.claim, 4)], posted a.2 →
      (s.sec.recovery = true → turns a.1 a.2 5) ∧ (s.sec.recovery = false → s.regs.st = .boot → turns a.1 a.2 1)) ∧
    (∀ a ∈ [(Instr.hello, 1), (.response, 2), (.close, 3), (.claim, 4)],
      s.regs.mboxBusy = false ∨ fieldAt b 1 1 ≠ a.2 → exec a.1 s = .next s) ∧
    (ready 1 → bare →
      (s.sec.session.isSome = true → turns .hello 1 1) ∧
      (s.sec.session = none → s.sec.locked = true → turns .hello 1 3) ∧
      (s.sec.session = none → s.sec.locked = false → ∃ t, exec .hello s = .next t ∧
        answers t 1 0 (nd ++ leBytes 8 Config.serial) ∧ Tab.get none t.sec.challenges p = some ⟨nd⟩ ∧
        t.sec = { s.sec with nonces := s.sec.nonces + 1, challenges := t.sec.challenges } ∧
        ∀ i, i ≠ p → Tab.get none t.sec.challenges i = Tab.get none s.sec.challenges i)) ∧
    (ready 1 → b.length ≠ 8 → 8 ≤ b.length → turns .hello 1 4) ∧
    (ready 2 → b.length = 104 → s.sec.session = none → Tab.get none s.sec.challenges p = some c →
      Tab.get none s.sec.keys p = some k → LogRoom s 2 → ∃ t, exec .response s = .next t ∧
        Tab.get none t.sec.challenges p = none ∧
        (hmac48 k.key (icdorLabel ++ leBytes 1 p ++ leBytes 8 Config.serial ++ c.devNonce ++ nh) = mac →
          opened t 2 p k.role (held k.role k.jobs) 1 ∧ ∃ z, t.sec.session = some z ∧ z.principal = p ∧ z.role = k.role ∧
            z.jobs = held k.role k.jobs ∧ z.claim = false ∧ z.sk = hmac48 k.key (skLabel ++ c.devNonce ++ nh)) ∧
        (hmac48 k.key (icdorLabel ++ leBytes 1 p ++ leBytes 8 Config.serial ++ c.devNonce ++ nh) ≠ mac →
          answers t 2 2 [] ∧ t.sec.session = none ∧ t.sec.auths = s.sec.auths + 1 ∧
          (s.sec.auths = 7 → t.sec.locked = true ∧ Logged t .sessionLocked .hid [(1, p)]) ∧
          (s.sec.auths ≠ 7 → t.sec.locked = s.sec.locked ∧ Logged t .sessionFailed .hid [(1, p)]))) ∧
    (ready 2 → b.length = 104 → s.sec.session = none → Tab.get none s.sec.challenges p = none → s.sec.auths < 7 →
      ∃ t, exec .response s = .next t ∧ answers t 2 2 [] ∧ t.sec.session = none ∧ t.sec.auths = s.sec.auths + 1) ∧
    (ready 3 → bare → s.sec.session = none → turns .close 3 1) ∧
    (ready 3 → bare → s.sec.session = some q → LogRoom s 1 → ∃ t, exec .close s = .next t ∧ answers t 3 0 [] ∧
      t.sec = { s.sec with session := none } ∧ t.ring 0 = s.ring 0 ∧
      (∀ i x, 1 ≤ i → i < 64 → s.ring i = some x →
        t.ring i = if x.taken = [] then none else some { x with deleting := true, deleteBy := none, fetched := [] }) ∧
      Logged t .sessionClosed .hid [(1, q.principal), (1, 0)]) ∧
    (ready 4 → bare → s.sec.session.isSome = true ∨ (Tab.get none s.sec.keys 0).isSome = true → turns .claim 4 1) ∧
    (ready 4 → bare → s.sec.session = none → Tab.get none s.sec.keys 0 = none → LogRoom s 1 →
      ∃ t, exec .claim s = .next t ∧ opened t 4 0 3 0xFF 0 ∧ t.sec.session = some ⟨0, 3, 0xFF, true, [], []⟩) ∧
    (∃ t, exec (.challengeExpiry principal) s = .next t ∧ Tab.get none t.sec.challenges principal.val = none ∧
      (∀ i, i ≠ principal.val → Tab.get none t.sec.challenges i = Tab.get none s.sec.challenges i) ∧
      t = { s with sec := { s.sec with challenges := t.sec.challenges } }) ∧
    exec .lockExpiry s = .next (if s.sec.locked then { s with sec := { s.sec with locked := false, auths := 0 } } else s)

/-- R548 to R556, R565 to R568: FIRMWARE_UPDATE checks the image it fetches and stages it only where every check passes;
SECURITY_VERSION rises no further than the images; KEY_PROVISION sets or erases a key under the session's rules; ATTEST writes the
signed report. A failure of the flash write and what it leaves are free values (assumption log 13).
It rests on the model's choices in assumption log 12, 13, 15, 36. -/
def Obligations.FirmwareKeysAndReportsFollowTheirChecks : Prop :=
  ∀ (s : State) (ring : Fin 64) (x : Ring) (e : Entry),
    let r := ring.val
    let b := s.blockOf e
    let h := fieldAt b 0 8
    let n := fieldAt b 8 4
    let image := s.bytes h n
    let ends (i : Instr) (st r0 : Nat) (p : State → Prop) : Prop :=
      ∃ t, exec i s = .next t ∧ Ended s t r x e st r0 0 ∧ t.cores = s.cores ∧ t.jobs = s.jobs ∧ p t
    let v := e.arg0
    let slot := fieldAt b 0 1
    let op := fieldAt b 1 1
    let wrapped := fieldAt b 4 1 = 1
    let claim : Bool := (s.sec.session.map (·.claim)).getD false
    let sameSec (t : State) : Prop := t.sec = s.sec ∧ t.mem = s.mem
    (Admitted s r ocFirmwareUpdate x e →
      (h % 4096 ≠ 0 ∨ zeroAt b 12 4 = false ∨ inHost h n = false ∨ n = 0 ∨ 50331648 < n →
        ends (.firmwareUpdate ring) stMalformed 0 (RingOnly s)) ∧
      (h % 4096 = 0 → zeroAt b 12 4 = true → inHost h n = true → 1 ≤ n → n ≤ 50331648 → s.hostOk h n = true →
        ∃ t, exec (.firmwareUpdate ring) s = .next t ∧ t.cores = s.cores ∧ t.jobs = s.jobs ∧ t.mem = s.mem ∧
          (fwFirstFail image s.sec.secver = some 8 → Ended s t r x e stDenied 0 0 ∧ t.sec = s.sec) ∧
          (∀ k, fwFirstFail image s.sec.secver = some k → k ≠ 8 → Ended s t r x e stMalformed 0 0 ∧ t.sec = s.sec) ∧
          (fwFirstFail image s.sec.secver = none →
            (Ended s t r x e stDone (fwUntrustOf image * 2 ^ 32 + fwTrustOf image) 0 ∧ t.sec = { s.sec with image := image }) ∨
            (Ended s t r x e stFault 0 0 ∧ t.sec = { s.sec with image := t.sec.image })))) ∧
    (Admitted s r ocSecurityVersion x e →
      (v ≤ s.sec.secver ∨ 63 < v → ends (.securityVersion ring) stMalformed 0 (RingOnly s)) ∧
      (s.sec.secver < v → v ≤ 63 → s.sec.imgSecver < v ∨ fwSecver s.sec.image < v →
        ends (.securityVersion ring) stDenied 0 (RingOnly s)) ∧
      (s.sec.secver < v → v ≤ 63 → v ≤ s.sec.imgSecver → v ≤ fwSecver s.sec.image → LogRoom s 1 →
        ends (.securityVersion ring) stDone 0 (fun t => t.sec = { s.sec with secver := v } ∧ t.mem = s.mem ∧
          Logged t .secverRaised .hid [(1, s.sec.secver), (1, v)]))) ∧
    (Admitted s r ocKeyProvision x e →
      (keyBlockOk b = false → ends (.keyProvision ring) stMalformed 0 sameSec) ∧
      (keyBlockOk b = true → claim = true → ¬ wrapped → op = 1 → (slot = 0 → fieldAt b 2 1 = 3) → LogRoom s 1 →
        ends (.keyProvision ring) stDone 0 (fun t =>
          Tab.get none t.sec.keys slot = some ⟨fieldAt b 2 1, fieldAt b 3 1, (b.drop 8).take 32⟩ ∧
          (∀ i, i ≠ slot → Tab.get none t.sec.keys i = Tab.get none s.sec.keys i) ∧
          t.sec = { s.sec with keys := t.sec.keys } ∧ t.mem = s.mem ∧
          Logged t .keyChanged .hid [(1, slot), (1, op), (1, fieldAt b 2 1), (1, fieldAt b 3 1)])) ∧
      (keyBlockOk b = true → claim = true → wrapped → op = 1 → (slot = 0 → fieldAt b 2 1 = 3) →
        ends (.keyProvision ring) stDenied 0 sameSec) ∧
      (keyBlockOk b = true → claim = false → wrapped → op = 2 → slot ≠ 0 → LogRoom s 1 →
        ends (.keyProvision ring) stDone 0 (fun t => Tab.get none t.sec.keys slot = none ∧
          (∀ i, i ≠ slot → Tab.get none t.sec.keys i = Tab.get none s.sec.keys i) ∧
          t.sec = { s.sec with keys := t.sec.keys } ∧ t.mem = s.mem ∧
          Logged t .keyChanged .hid [(1, slot), (1, op), (1, fieldAt b 2 1), (1, fieldAt b 3 1)])) ∧
      (keyBlockOk b = true → claim = false → wrapped → op = 1 → slot ≠ 0 →
        let key := (Config.unwrap ((s.sec.session.map (·.kek)).getD []) ((b.drop 8).take 40)).map (fit 32)
        ∃ t, exec (.keyProvision ring) s = .next t ∧ t.mem = s.mem ∧
          (key = none → Ended s t r x e stMalformed 0 0 ∧ t.sec = s.sec) ∧
          ∀ z, key = some z → Ended s t r x e stDone 0 0 ∧
            Tab.get none t.sec.keys slot = some ⟨fieldAt b 2 1, fieldAt b 3 1, z⟩)) ∧
    (Admitted s r ocAttest x e →
      let a := fieldAt b 0x30 8
      let long := fieldAt b 0x38 1
      let out := s.report (b.take 48) ++ (if long = 1 then endorsement else [])
      let size := if long = 1 then 61344 else 30688
      (a % 64 = 0 → long ≤ 1 → zeroAt b 0x39 7 = true → inHost a size = true → ends (.attest ring) stDone size (fun t =>
        t.sec = s.sec ∧ out.length = size ∧ t.bytes a size = out ∧ ∀ i, i < a ∨ a + size ≤ i → t.byte i = s.byte i)) ∧
      (a % 64 ≠ 0 ∨ 1 < long ∨ zeroAt b 0x39 7 = false ∨ inHost a size = false →
        ends (.attest ring) stMalformed 0 (RingOnly s)))

/-! ### Integrity -/

/-- R420 to R423, R426 to R431, R435, R436, R441 to R443: a verdict ends its sampled check, which a PASS, a NEAR_MISS, a failed
checker or a timeout leaves without effect on the producer's data; a FAIL sends the copy back into the producer's check area, opens a
classification and halts the job context; an
outcome is recorded and exported: TRANSIENT releases a repeated tile, PERMANENT fences the producer's site, and lost data drain the
step for a replay. It rests on the model's choices in assumption log 14, 15, 31. -/
def Obligations.VerdictsAndClassificationsEnd : Prop :=
  ∀ (s : State) (id : Nat) (k : Check) (core : CoreIx) (q : Classing) (d : Drain) (e : Nat) (r : StepRun) (v : Fin 4),
    let p := k.producer
    let j := k.job
    let quiet : Prop := s.obs.quench.active = false
    let verdict (n : Fin 4) : Instr := .sampledCheckVerdict id n
    let dropped (t : State) : Prop := t.integ.checks = s.integ.checks.filter (fun c => c.id ≠ id)
    let waits (t : State) : Prop := t.cores = s.cores ∧ t.jobs = s.jobs ∧ t.mem = s.mem
    let c := core.toNat
    let result (o : Fin 4) : Instr := .classificationResult core o
    let closed (t : State) : Prop := t.integ.classings = s.integ.classings.erase q
    let single : Prop := q.lane = false ∨ (s.core c).laneFails < 2
    let replayed (t : State) : Prop := q.kind ≠ cpSpad → (s.job q.job).openStep = some r →
      ((s.job q.job).draining = none ∨ (s.job q.job).draining = some .classify ∧ (s.job q.job).wanted = []) →
      (t.job q.job).draining = some (if 3 ≤ r.integrityReplays + r.deathReplays then .drop else .integrity)
    (s.checkById id = none ∨ ¬ quiet → exec (verdict v) s = .next s ∧ exec (.checkTimeout id) s = .next s) ∧
    (s.checkById id = some k → quiet →
      (∃ t, exec (verdict 0) s = .next t ∧ dropped t ∧ t = { s with cores := t.cores, integ := t.integ } ∧
        t.core p = { s.core p with passedSteps := (t.core p).passedSteps } ∧ (∀ c, c ≠ p → t.core c = s.core c) ∧
        ∀ n, n ∈ (t.core p).passedSteps ↔ n ∈ (s.core p).passedSteps ∨
          ∃ i, s.jobOf p = some i ∧ ∃ x ∈ (s.job i).steps, x.st ≠ .waiting ∧ x.n = n) ∧
      (k.kind = ckTile → LogRoom s 1 →
        (∃ t, exec (verdict 1) s = .next t ∧ dropped t ∧ waits t ∧ Logged t .sampledCheckNearMiss (.core p) [] ∧
          t.integ.health.getLast? = some (hNear, p, s.time)) ∧
        ∃ t, exec (verdict 3) s = .next t ∧ dropped t ∧ waits t ∧ Logged t .checkSkipped (.core p) [(2, 420)] ∧
          t.integ.classings = s.integ.classings ++
            ((s.jobOf k.checker).map (fun i => (⟨k.checker, cpLane, 3, 0xFFFF, i, true⟩ : Classing))).toList) ∧
      (k.kind ≠ ckTile → exec (verdict 1) s = .next s ∧ exec (verdict 3) s = .next s) ∧
      (LogRoom s 1 → ∃ t, exec (.checkTimeout id) s = .next t ∧ dropped t ∧ waits t ∧ t.integ.classings = s.integ.classings ∧
        Logged t .checkSkipped (.core p) [(2, 422)]) ∧
      (LogRoom s 1 → (∀ n ∈ s.integ.checks, n.checker ≠ p) → ∃ t a b, exec (verdict 2) s = .next t ∧ dropped t ∧
        (s.net.oos.contains (p % 4096) = false →
          ∀ f ∈ copyFlits p k.checker checkArea checkGranules k.granules 0 (s.copyHeld k), InNet t k.checker f) ∧
        Recorded t .sampledCheckFailed (.core p) [(1, k.kind + 1), (2, p), (2, k.checker), (4, a), (4, b)] ∧
        (∀ i, s.jobOf p = some i → t.integ.classings = s.integ.classings ++ [⟨p, k.kind + 1, k.ctx, k.checker, i, false⟩]) ∧
        (k.update = false → (s.job j).draining = none →
          (t.job j).draining = some .classify ∧ (t.job j).st = (s.job j).st ∧
          ∀ c ∈ (s.job j).cores, ∀ i, i < 4 → (s.ctx c i).st = .running → (t.ctx c i).st = .halted) ∧
        (k.update = true → LogRoom s 2 → (s.job j).committing = some r → (t.job j).st = .failed ∧
          Recorded t .updateFault .hid [(1, j), (4, r.n), (4, 0), (1, 0xFF), (1, 0)]))) ∧
    (s.classingOf c = none ∨ ¬ quiet → ∀ o, exec (result o) s = .next s) ∧
    (s.classingOf c = some q → quiet → q.kind < 256 → LogRoom s 1 →
      (single → q.lane = true → (s.core c).drain = some d → d.target = .queue → (s.core c).freeEntry = some e →
        (s.core c).atC = none → (s.core c).matNext = none →
        ∃ t, exec (result 0) s = .next t ∧ closed t ∧ (t.core c).drain = none ∧ (t.core c).stopped = false ∧
          (t.core c).entry e = { st := .ready, owner := d.tile.owner, order := (s.core c).tqOrder, data := d.tile.out.1 } ∧
          ((s.ctx c d.tile.owner).st = .halted → (t.ctx c d.tile.owner).st = .running) ∧ t.jobs = s.jobs ∧
          Recorded t .checkTransient (.core c) [(1, q.kind), (2, c), (1, q.ctx),
            (4, (((s.job q.job).steps.find? (fun x => x.st ≠ .waiting)).map (·.n)).getD 0)] ∧ Exported t q.kind 1 0) ∧
      (q.lane = false → ∃ t, exec (result 0) s = .next t ∧ closed t ∧ replayed t ∧ Exported t q.kind 1 0) ∧
      (∀ o : Fin 4, o = 1 ∨ ¬ single → ∃ t, exec (result o) s = .next t ∧ closed t ∧ Exported t q.kind 2 0 ∧
        t.siteState (columnOf c) (s.physRow c) = .fenced ∧
        Recorded t .checkPermanent (.core c) [(1, q.kind), (2, c), (2, q.checker), (1, permanentCause q.kind)] ∧
        (LogRoom s 3 → Recorded t .contaminationWindow (.core c) [(1, q.job), (2, c), (2, (s.job q.job).regionIndex c),
          (4, (s.core c).lastClean + 1), (4, (s.job q.job).version)])) ∧
      (single → ∃ t, exec (result 2) s = .next t ∧ closed t ∧ replayed t ∧ Exported t q.kind 3 0 ∧
        Recorded t .checkUnresolved (.core c) [(1, q.kind), (2, c), (2, q.checker)]) ∧
      (single → ∃ t, exec (result 3) s = .next t ∧ closed t ∧ replayed t ∧ Exported t q.kind 4 0))

/-- R437 to R440, R445: a field's next spare is tested and comes back, or is fenced; the estimate is the points of its inputs, and a
change of its level is recorded; the levels reached order snapshots of loaded and running job contexts.
It rests on the model's choices in assumption log 17, 31. -/
def Obligations.SparesAreTestedAndRiskIsEstimated : Prop :=
  ∀ (s : State) (field : Fin 64) (passed : Bool) (i : Nat),
    let f := field.val
    let others (t : State) : Prop := ∀ c p, p < 9 → (c, p) ≠ (f * 8 + i, 8) → t.siteState c p = s.siteState c p
    let pts := s.riskInputs
    let risk := min 255 (pts.foldl (· + ·) 0)
    (s.fieldPower f = .active → s.testing f = none → s.nextSpare f = some i →
      ∃ t, exec (.stressTestStart field) s = .next t ∧ t.siteState (f * 8 + i) 8 = .spareTesting ∧ others t ∧
        t.testing f = some i ∧ t = { s with wafer := { s.wafer with sites := t.wafer.sites }, integ := t.integ }) ∧
    (s.fieldPower f ≠ .active ∨ (s.testing f).isSome = true ∨ s.nextSpare f = none →
      exec (.stressTestStart field) s = .next s) ∧
    (s.testing f = none → exec (.stressTestEnd field passed) s = .next s) ∧
    (s.testing f = some i → i < 8 → s.siteState (f * 8 + i) 8 = .spareTesting →
      (∃ t, exec (.stressTestEnd field true) s = .next t ∧ t.siteState (f * 8 + i) 8 = .spare ∧ others t ∧ t.testing f = none ∧
        t = { s with wafer := { s.wafer with sites := t.wafer.sites }, integ := t.integ }) ∧
      (LogRoom s 1 → ∃ t n, exec (.stressTestEnd field false) s = .next t ∧ t.siteState (f * 8 + i) 8 = .fenced ∧ others t ∧
        t.testing f = none ∧ Recorded t .stressTestFailed (.field f) [(1, f), (1, i), (1, n)])) ∧
    (s.testing f = some i → s.siteState (f * 8 + i) 8 ≠ .spareTesting →
      ∃ t, exec (.stressTestEnd field passed) s = .next t ∧ t.testing f = none ∧ t = { s with integ := t.integ }) ∧
    ∃ t, exec .riskEstimate s = .next t ∧ t.regs.risk = risk ∧ t.regs.largest = largestInput pts ∧
      t.cores = s.cores ∧ t.mem = s.mem ∧
      (s.regs.risk / 64 ≠ risk / 64 → LogRoom s 1 →
        Recorded t .riskChanged .hid [(1, s.regs.risk), (1, risk), (1, largestInput pts)]) ∧
      (∀ j l, j < 8 → 1 ≤ l → l ≤ 3 → ((s.job j).st = .loaded ∨ (s.job j).st = .running) →
        (risk < 64 * l → t.reachedAt j l = 0) ∧
        (64 * l ≤ risk → s.reachedAt j l = 0 → t.reachedAt j l = s.time + 1 ∧
          (l = 2 ∨ (s.job j).fgroup.isSome = true → ∃ o ∈ t.snapOrders j, o.level = l)))

/-! ### Recovery -/

/-- R445 to R450, R452, R454: an order of a snapshot waits in its level's place until the job context may start it; the snapshot
holds the OWNED regions as they stand and goes to flash where there is room, or block by block to the group's servers; what reaches
the flash is kept and its commands complete. It rests on the model's choices in assumption log 25, 32, 41. -/
def Obligations.SnapshotsAreOrderedTakenAndKept : Prop :=
  ∀ (s : State) (ring : Fin 64) (x : Ring) (e : Entry) (job : Fin 8) (level : Fin 4) (slot : Fin 3) (o : SnapOrder)
    (rest : List SnapOrder) (w : SnapRun) (g : Nat) (y : FGroup) (p : PartnerCopy) (m : MemRegion),
    let r := ring.val
    let i := e.job
    let l := e.arg0 % 4
    let j := job.val
    let z := s.job j
    let running : Option SnapRun := Tab.get none s.recov.running j
    let gen := Tab.get 0 s.recov.generation j + 1
    let data := z.ownedRegions.flatMap (fun q => s.bytes q.base (q.granules * 4096))
    let image := s.snapBytes j o.level gen data
    let begins : Prop := s.snapOrders j = o :: rest ∧ (z.st = .loaded ∨ z.st = .running) ∧ running = none ∧ z.committing = none ∧
      (∀ q ∈ z.ownedRegions, CleanAt s q.base (q.granules * 4096)) ∧ ∀ k, (s.stack k).st ≠ .fencedRun
    let room : Prop := s.flashUsed + extentsOf image.length ≤ s.flashExtents
    let obj := if o.level = 1 then partnerObj y.member else storeObj y.member
    let start : Instr := .snapshotStart job
    let holds (t : State) (a : SnapRun) : Prop := Tab.get none t.recov.running j = some a ∧ t.snapOrders j = rest ∧
      Tab.get 0 t.recov.generation j = gen ∧ t.mem = s.mem ∧ t.cores = s.cores ∧ t.jobs = s.jobs
    let b := s.delivered m.base (snapTotal (s.bytes m.base 128))
    (Admitted s r ocSnapshot x e →
      (l = 0 → ∃ t, exec (.snapshot ring) s = .next t ∧ Ended s t r x e stMalformed 0 0 ∧ RingOnly s t) ∧
      (l ≠ 0 → (s.job i).snapLevelOk l = true → ∃ t, exec (.snapshot ring) s = .next t ∧ Begun s t r x e false ∧
        t.snapOrders i = mergeOrder l [(r, s.host.nextId)] (s.snapOrders i) ∧
        Tab.get 0 t.recov.maxInterval (4 * i + l) = e.arg1 ∧ t.mem = s.mem ∧ t.jobs = s.jobs) ∧
      (l ≠ 0 → (s.job i).snapLevelOk l = false → ∃ t, exec (.snapshot ring) s = .next t ∧ Ended s t r x e stState 0 0 ∧
        t.snapOrders i = s.snapOrders i ∧ (LogRoom s 1 → Recorded t .snapshotFailed .hid [(1, i), (1, l), (1, stState)]))) ∧
    (Tab.get 0 s.recov.maxInterval (4 * j + level.val) = 0 → exec (.snapshotInterval job level) s = .next s) ∧
    (Tab.get 0 s.recov.maxInterval (4 * j + level.val) ≠ 0 → z.snapLevelOk level.val = true →
      z.st ∉ [.empty, .failed, .restoring] → exec (.snapshotInterval job level) s =
        .next (s.setOrders j (mergeOrder level.val [] (s.snapOrders j)))) ∧
    (s.snapOrders j = [] ∨ z.st = .quenched ∨
      (z.st = .loaded ∨ z.st = .running) ∧ (running.isSome = true ∨ z.committing.isSome = true) →
      exec start s = .next s) ∧
    (begins → o.level = 2 → room → ∃ t, exec start s = .next t ∧ t.recov.flash = s.recov.flash ∧
      holds t ⟨2, gen, z.version, s.time, image, [], o.by_⟩) ∧
    (begins → o.level = 2 → ¬ room → (s.recov.flash.filter (fun f => f.job = j)).length ≤ 1 → LogRoom s 1 →
      ∃ t, exec start s = .next t ∧ t.snapOrders j = rest ∧ Tab.get none t.recov.running j = none ∧
        Recorded t .snapshotFailed .hid [(1, j), (1, 2), (1, stResource)]) ∧
    (begins → o.level ≠ 2 → z.fgroup = some g → s.group g = some y → ∃ t, exec start s = .next t ∧
      holds t ⟨o.level, gen, z.version, s.time, image, blockOffsets image.length, o.by_⟩ ∧
      ∀ k ∈ blockOffsets image.length, Sends t s.firstUpSite g (y.server (objKey obj k)) { msg mPartnerPut with
        obj := obj, offset := k, count := y.member, version := gen, payload := (image.drop k).take 4096 }) ∧
    (s.snapOrders j ≠ [] → z.st ∉ [.loaded, .running, .quenched] →
      ∃ t, exec start s = .next t ∧ t.snapOrders j = [] ∧ t.mem = s.mem ∧ t.jobs = s.jobs ∧
        ∀ a ∈ s.snapOrders j, ∀ q ∈ a.by_, Finished s t q.1 q.2 stState) ∧
    (running = some w → w.level = 2 → LogRoom s 1 → ∃ t, exec (.flashSnapshotDone job) s = .next t ∧
      t.recov.flash = s.recov.flash ++ [⟨j, s.memberOf z, w.generation, w.version, w.bytes⟩] ∧
      Tab.get none t.recov.running j = none ∧ t.mem = s.mem ∧ t.jobs = s.jobs ∧
      Recorded t .snapshotTaken .hid [(1, j), (1, 2), (4, w.generation), (4, w.version), (8, s.time - w.started)] ∧
      ∀ q ∈ w.by_, Finished s t q.1 q.2 stDone) ∧
    (running = none ∨ (running = some w ∧ w.level ≠ 2) → exec (.flashSnapshotDone job) s = .next s) ∧
    (Tab.get none s.recov.copying j ≠ some slot.val → exec (.partnerSlotCopied job slot) s = .next s) ∧
    (Tab.get none s.recov.copying j = some slot.val → Tab.get none s.recov.partner j = some p → z.partnerRegion = some m →
      ∃ t, exec (.partnerSlotCopied job slot) s = .next t ∧ t = { s with recov := t.recov } ∧
        Tab.get none t.recov.copying j = none ∧ t.recov.flash = s.recov.flash ∧
        ∀ k, Tab.get none t.recov.slots k = if k = 3 * j + slot.val then some ⟨j, p.owner, p.generation, fieldAt b 12 4, b⟩
          else Tab.get none s.recov.slots k)

/-- R455 to R457: RESTORE finds its snapshot in flash or asks the group's servers for it; when it is complete its header is checked
against the job context, its data written, and its digest compared; a restore that fails leaves the job context LOADED before the
data is written and FAILED after a refused fetch or a wrong digest.
It rests on the model's choices in assumption log 19, 40, 41. -/
def Obligations.RestoresAreCheckedAndWritten : Prop :=
  ∀ (s : State) (ring : Fin 64) (x : Ring) (e : Entry) (job : Fin 8) (w : RestoreRun) (g : Nat) (y : FGroup),
    let r := ring.val
    let i := e.job
    let b := s.blockOf e
    let owner := fieldAt b 2 2
    let gen := fieldAt b 4 4
    let source := fieldAt b 1 1
    let run : RestoreRun := ⟨fieldAt b 0 1, source, owner, gen, restoreExtents b, r, s.host.nextId, [], false⟩
    let obj := if source = 2 then partnerObj owner else storeObj owner
    let begun (t : State) (q : RestoreRun) : Prop := Begun s t r x e false ∧ (t.job i).st = .restoring ∧
      (t.job i).restore = some q ∧ t.mem = s.mem ∧ ∀ k, k ≠ i → t.job k = s.job k
    let j := job.val
    let z := s.job j
    let a := w.bytes
    let whole := a.take (snapTotal a)
    let ws := w.writes whole
    let v := fieldAt whole 12 4
    let back (t : State) (st : JobState) (status : Nat) : Prop := (t.job j).st = st ∧ (t.job j).restore = none ∧
      Finished s t w.ring w.taking status
    let apart (p q : Nat × List Byte) : Prop := p.1 + p.2.length ≤ q.1 ∨ q.1 + q.2.length ≤ p.1
    (Admitted s r ocRestore x e →
      ((s.job i).restoreOk b = false → ∃ t, exec (.restore ring) s = .next t ∧ Ended s t r x e stMalformed 0 0 ∧ RingOnly s t) ∧
      ((s.job i).restoreOk b = true → source = 1 →
        (∀ f, s.flashSnap i owner gen = some f →
          ∃ t, exec (.restore ring) s = .next t ∧ begun t { run with got := [(0, f.bytes)] }) ∧
        (s.flashSnap i owner gen = none → ∃ t, exec (.restore ring) s = .next t ∧ begun t { run with failed := true })) ∧
      ((s.job i).restoreOk b = true → source ≠ 1 →
        ((s.job i).fgroup = none → ∃ t, exec (.restore ring) s = .next t ∧ begun t { run with failed := true }) ∧
        ((s.job i).fgroup = some g → s.group g = some y → ∃ t, exec (.restore ring) s = .next t ∧ begun t run ∧
          Sends t s.firstUpSite g (y.server (objKey obj 0)) { msg mPartnerGet with
            tag := s.host.nextId % (2 ^ 24 - 1) + 1, obj := obj, count := 4096, version := gen }))) ∧
    (z.restore = none → exec (.restoreDone job) s = .next s) ∧
    (z.restore = some w → w.failed = true → LogRoom s 1 → ∃ t, exec (.restoreDone job) s = .next t ∧ back t .failed stMalformed ∧
      t.mem = s.mem ∧ t.cores = s.cores ∧ Recorded t .restoreFailed .hid [(1, j), (1, 1), (1, stMalformed)]) ∧
    (z.restore = some w → w.failed = false →
      (a.length < 128 ∨ s.restoreCheck j w a = none ∧ a.length < snapTotal a → exec (.restoreDone job) s = .next s) ∧
      (128 ≤ a.length → ∀ st, s.restoreCheck j w a = some st → ∃ t, exec (.restoreDone job) s = .next t ∧ back t .loaded st ∧
        t.mem = s.mem ∧ t.cores = s.cores) ∧
      (128 ≤ a.length → s.restoreCheck j w a = none → snapTotal a ≤ a.length → LogRoom s 1 →
        ∃ t, exec (.restoreDone job) s = .next t ∧
          (∀ n, (∀ q ∈ ws, n < q.1 ∨ q.1 + q.2.length ≤ n) → t.byte n = s.byte n) ∧
          (snapDigestOk whole = true → back t .loaded stDone ∧ (ws.Pairwise apart → ∀ q ∈ ws, t.bytes q.1 q.2.length = q.2) ∧
            Recorded t .restoreDone .hid [(1, j), (1, w.mode), (1, w.source), (2, w.owner), (4, fieldAt whole 8 4), (4, v)] ∧
            (w.mode = 1 → (t.job j).version = v ∧ (t.job j).lastStep = some v ∧ ∀ c ∈ z.cores, (t.core c).lastClean = 0) ∧
            (w.mode ≠ 1 → (t.job j).version = z.version ∧ t.cores = s.cores)) ∧
          (snapDigestOk whole = false → back t .failed stMalformed ∧ t.cores = s.cores ∧
            Recorded t .restoreFailed .hid [(1, j), (1, 4), (1, stMalformed)])))

/-! ### Clocks, power and temperature -/

/-- R525 to R542: a sample of the sensors is kept, a sensor out of its bounds ignored, a stack's readout and its bounds of 95 °C and
90 °C noted, each half's thermal demand moved, the time noted from which each field stays beyond a limit, a half released of a field
that it kept warm and that is cool, and a deferred cold order judged once no switch holds it; a power sample above the fast limit, or a window above the effective
cap, lowers the faster half's demand, or steps the held limit where both run at OP5, and a window below it raises one; a change of
point completes; droops, feed faults and lost locks act; a limit exceeded for 1 ms takes the device to SAFE. It rests on the model's choices in assumption log 15, 16, 49, 81. -/
def Obligations.TemperatureAndPowerGovernTheHalves : Prop :=
  ∀ (s : State) (values : List Int) (mw lowMv : Nat) (fa fb : Feed) (half : Fin 2) (source : Fin 66) (mv : Nat) (feed : Fin 2)
    (field : Fin 64) (n a c p g : Nat),
    let k := s.clk
    let tt : Int := 16 * s.regs.tthrottle
    let h := half.val
    let x := s.half h
    let y := s.half s.fasterHalf
    let f := field.val
    let cap (low : Nat) : Nat := min (1000 * s.regs.pcap) (600 * low)
    let sample : Instr := .sensorSample values
    let power : Instr := .powerSample mw fa fb
    let window : Instr := .powerWindow mw lowMv
    let hot : Prop := cap k.lowMv + 2000000 < mw ∨ 320000 ≤ fa.ma ∨ 320000 ≤ fb.ma
    let safe (t : State) (cause : Nat) : Prop := t.regs.st = .safe ∧ t.regs.safeCause = cause
    let powers (t : State) : Prop := ∀ i, (t.half i).power = (s.half i).power
    let lowered (t : State) : Prop := (t.half s.fasterHalf).power = min 5 (max y.power y.op + 1) ∧
      ∀ i, i ≠ s.fasterHalf → (t.half i).power = (s.half i).power
    let wafer (t : State) : Int := t.hottestOf (List.range 256)
    let parts (t : State) : Int := t.hottestOf ((List.range 37).map (256 + ·))
    (values.length ≠ 293 → exec sample s = .next s) ∧
    (values.length = 293 → ∃ t, exec sample s = .next t ∧ t.regs.alert = t.alertNow ∧
      (t.regs.st = s.regs.st → k.deferred = [] → t.mem = s.mem ∧ t.cores = s.cores ∧ t.jobs = s.jobs ∧ t.net = s.net) ∧
      (∀ i, i < 293 → Tab.get 0 t.clk.sensors i = values.getD i 0) ∧
      (∀ i, i ∈ t.clk.ignored ↔ i ∈ k.ignored ∨ (i < 293 ∧ badReading values i = true)) ∧
      (∀ i, s.isStack i = true → i < 36 →
        (256 + i ∉ t.clk.ignored → (t.stack i).temp = values.getD (256 + i) 0 / 16 ∧
          ((t.stack i).hot = true ↔ 1520 ≤ values.getD (256 + i) 0 ∨ ((s.stack i).hot = true ∧ 1440 ≤ values.getD (256 + i) 0))) ∧
        (256 + i ∈ t.clk.ignored → (t.stack i).temp = (s.stack i).temp ∧ (t.stack i).hot = (s.stack i).hot)) ∧
      (∀ i, i < 64 →
        Tab.get none t.clk.hotAt i = limitSince (Tab.get none k.hotAt i) s.time (decide (tt + 80 ≤ t.fieldHot i)) ∧
        Tab.get none t.clk.coolAt i = limitSince (Tab.get none k.coolAt i) s.time (decide (t.fieldHot i < tt - 80)) ∧
        Tab.get none t.clk.chillAt i = limitSince (Tab.get none k.chillAt i) s.time (decide (t.fieldHot i < tt - 160))) ∧
      (g < 64 → g ∈ x.forced → halfOfField g = h → Tab.get none t.clk.coolAt g = some c → c + 100000000 ≤ s.time →
        (t.half h).thermal = 5 ∧ (k.deferred = [] → g ∉ (t.half h).forced)) ∧
      (t.regs.st = s.regs.st → k.deferred = [g] →
        (s.switchOver g = true → t.clk.deferred = [g]) ∧
        (s.switchOver g = false → t.clk.deferred = [] ∧ (s.fieldPower g = .bank → s.obs.quench.active = false →
          Tab.get none k.ordered g = none → s.coldAllowed g = false → g ∈ (t.half (halfOfField g)).forced))) ∧
      (x.forced = [] →
        (tt ≤ t.halfHot h → (t.half h).thermal = x.thermal + (if s.mayChange h = true ∧ x.thermal < 5 then 1 else 0)) ∧
        (tt - 80 ≤ t.halfHot h → (t.half h).coolSince = none) ∧
        (tt - 80 ≤ t.halfHot h → t.halfHot h < tt → (t.half h).thermal = x.thermal) ∧
        (t.halfHot h < tt - 80 → x.coolSince = none → (t.half h).coolSince = some s.time ∧ (t.half h).thermal = x.thermal) ∧
        (t.halfHot h < tt - 80 → x.coolSince = some c → c + 100000000 ≤ s.time → (t.half h).thermal = x.thermal - 1) ∧
        (t.halfHot h < tt - 80 → x.coolSince = some c → s.time < c + 100000000 → (t.half h).thermal = x.thermal)) ∧
      (t.clk.hotWafer = if tt + 240 ≤ wafer t then some (k.hotWafer.getD s.time) else none) ∧
      (t.clk.hotParts = if 1680 ≤ parts t then some (k.hotParts.getD s.time) else none) ∧
      (s.regs.st ≠ .safe → tt + 240 ≤ wafer t → k.hotWafer = some c → c + 1000000 ≤ s.time → safe t 1) ∧
      (s.regs.st ≠ .safe → wafer t < tt + 240 → 1680 ≤ parts t → k.hotParts = some c → c + 1000000 ≤ s.time → safe t 2) ∧
      (wafer t < tt + 240 → parts t < 1680 → t.regs.st = s.regs.st)) ∧
    (∃ t, exec power s = .next t ∧ t.clk.power = mw ∧ t.clk.feedA = fa.mv ∧ t.clk.feedB = fb.mv ∧ t.clk.feedAI = fa.ma ∧
      t.clk.feedBI = fb.ma ∧ t.regs.alert = t.alertNow ∧
      (t.regs.st = s.regs.st → t.mem = s.mem ∧ t.cores = s.cores ∧ t.jobs = s.jobs ∧ t.net = s.net) ∧
      (¬ hot ∨ k.fast = true → powers t ∧ t.clk.fast = k.fast ∧ t.clk.held = k.held) ∧
      (hot → k.fast = false → s.atSlowest = false → t.clk.fast = true ∧
        (s.changeRunning = true → powers t) ∧ (s.changeRunning = false → lowered t)) ∧
      (hot → k.fast = false → s.atSlowest = true → powers t ∧ t.clk.fast = false ∧ t.clk.held = if k.held < 2 then k.held + 1 else k.held) ∧
      (k.fast = true → 320000 ≤ fa.ma ∨ 320000 ≤ fb.ma → k.overCurrent = some c → c + 1000000 ≤ s.time → s.regs.st ≠ .safe →
        safe t 4)) ∧
    (∃ t, exec window s = .next t ∧ t.clk.avg = mw ∧ t.clk.lowMv = lowMv ∧ t.mem = s.mem ∧ t.cores = s.cores ∧
      (x.noting = some (p, a) → x.changing = none → p < x.op →
        Tab.get none (t.half h).records p = some ((a : Int) - mw)) ∧
      (cap lowMv < mw →
        (s.atSlowest = true → powers t ∧ t.clk.held = if k.held < 2 then k.held + 1 else k.held) ∧
        (s.atSlowest = false → s.changeRunning = true → powers t ∧ t.clk.held = k.held) ∧
        (s.atSlowest = false → s.changeRunning = false → lowered t ∧ t.clk.held = k.held)) ∧
      (mw ≤ cap lowMv → k.held ≠ 0 → k.heldNoting = none → powers t ∧
        t.clk.held = if (mw : Int) + k.heldSaved.headD 0 ≤ cap lowMv ∧ k.heldLast + 100000000 ≤ s.time then k.held - 1 else k.held) ∧
      (mw ≤ cap lowMv → k.held = 0 → 0 < (s.half 0).power → (s.half 0).noting = none →
        let saved : Int := (Tab.get none (s.half 0).records ((s.half 0).power - 1)).getD 3000000
        (t.half 0).power = (s.half 0).power -
          (if mw + saved ≤ cap lowMv ∧ s.changeRunning = false ∧ s.lastChange + 100000000 ≤ s.time then 1 else 0))) ∧
    (x.changing = none → exec (.opChanged half) s = .next s) ∧
    (x.changing = some n → LogRoom s 1 → ∃ t, exec (.opChanged half) s = .next t ∧ (t.half h).op = n ∧
      (t.half h).lastDone = some s.time ∧ (∀ i, i ≠ h → (t.half i).op = (s.half i).op) ∧
      t.clk.fast = (k.fast && x.noting.isNone) ∧ t.mem = s.mem ∧ t.cores = s.cores ∧
      Logged t .opChanged .hid [(1, h), (1, x.op), (1, n), (1, x.reason)]) ∧
    (s.mesh = [] → ∃ t, exec (.supplyDroop source mv) s = .next t ∧ t.clk = { k with lastDroop := some s.time } ∧
      t.cores = s.cores ∧
      ((∃ c, k.lastDroop = some c ∧ s.time < c + 1000000) → t.obs = s.obs ∧ t.integ = s.integ) ∧
      ((∀ c, k.lastDroop = some c → c + 1000000 ≤ s.time) → LogRoom s 1 →
        Logged t .supplyDroop (if source.val < 64 then .field source.val else .hid) [(1, source.val), (4, mv)] ∧
        t.integ.health.getLast? = some (hDroop, source.val, s.time))) ∧
    (LogRoom s 1 → ∃ t, exec (.feedFault feed mv) s = .next t ∧ (feed = 0 → t.clk.feedA = mv) ∧ (feed = 1 → t.clk.feedB = mv) ∧
      t.regs.st = .safe ∧ (s.regs.st ≠ .safe → t.regs.safeCause = 3) ∧ t.regs.alert = true ∧
      Recorded t .feedFault .hid [(1, feed.val), (4, mv)]) ∧
    (s.fieldPower f = .outOfService → exec (.pllUnlock field) s = .next s) ∧
    (s.fieldPower f ≠ .outOfService → s.mesh = [] → LogRoom s 1 → ∃ t, exec (.pllUnlock field) s = .next t ∧
      t.fieldPower f = .outOfService ∧ f ∈ t.clk.lockLost ∧ f ∈ t.wafer.linkOut ∧ Recorded t .pllUnlock (.field f) [(1, f)] ∧
      (s.coldAllowed f = true → s.net.pause = none → f ∉ s.net.cold → t.net.stopped = true ∧ t.net.pause = some (f, true, s.time)) ∧
      (s.coldAllowed f = false → t.regs.st = .safe))

/-- R269, R271, R272, R336, R538 to R540: a field that stays too hot for 1 ms enters the bank state with its contexts and streams held,
and leaves it again after 100 ms in the cool; a cold order is carried out by its job contexts' variants and a route pause, refused with
a forced demand, or deferred for a switch; the field goes cold, and returns through a pause to the bank state with its cores cleared;
what waited at injectors goes on when a pause ends. It rests on the model's choices in assumption log 49, 50, 55, 81. -/
def Obligations.FieldsRestAndRoutesChange : Prop :=
  ∀ (s : State) (field : Fin 64) (j r start : Nat) (v : Nat × Nat) (cold : Bool),
    let f := field.val
    let p := s.fieldPower f
    let h := halfOfField f
    let ordered : Option Nat := Tab.get none s.clk.ordered f
    let order : Instr := .fieldColdOrder field
    let quiet : Prop := s.mesh = []
    let others (t : State) : Prop := ∀ g, g ≠ f → t.fieldPower g = s.fieldPower g
    let long (q : Tab (Option Nat)) (d : Nat) : Prop := ∃ a, Tab.get none q f = some a ∧ a + d ≤ s.time
    let wakes : Prop := long s.clk.coolAt 100000000 ∨ (f ∈ (s.half h).forced ∧ (s.half h).op = 5)
    let stays : Prop := Tab.get 0 s.clk.since f + 10000000 ≤ s.time ∧ 16 * (s.regs.tthrottle : Int) ≤ s.fieldHot f
    let may : Prop := p = .bank ∧ stays ∧ s.obs.quench.active = false ∧ ordered = none
    let now : Prop := may ∧ s.switchOver f = false
    let chosen : Prop := now ∧ s.coldAllowed f = true
    let returns : Prop := p = .cold ∧ long s.clk.chillAt 1000000000 ∧ s.net.pause = none ∧ s.changeRunning = false
    let warm (t : State) (region : Nat) : Prop := f ∈ (t.half h).forced ∧ t.fieldPower f = .bank ∧ t.jobs = s.jobs ∧
      t.net = s.net ∧ Tab.get none t.clk.ordered f = none ∧ Recorded t .fieldKeptWarm .hid [(1, f), (2, region)]
    let cleared (t : State) (c : Nat) : Prop := (∀ i, (t.ctx c i).st = .idle) ∧ (t.core c).tile = none ∧
      ∀ o, o < spadBytes → t.byte (windowAddr c 0 + o) = 0
    let opened (t : State) : Prop := t.net.pause = none ∧ t.net.pauseNext = s.net.pauseNext ∧
      t.net.stopped = if s.obs.quench.active then s.net.stopped else false
    (p = .active → long s.clk.hotAt 1000000 → quiet → LogRoom s 1 → ∃ t, exec (.fieldBank field) s = .next t ∧
      t.fieldPower f = .bank ∧ others t ∧
      (∀ c ∈ fieldCores f, (t.core c).held = true ∧ ∀ i, i < 4 →
        ((s.ctx c i).st = .running → (t.ctx c i).st = .halted ∧ 4 * c + i ∈ t.clk.halted)) ∧
      (∀ c, c ∉ fieldCores f → t.core c = s.core c) ∧ t.mem = s.mem ∧ t.net = s.net ∧ t.testing f = none ∧
      Logged t .fieldBank (.field f) [(1, f), (2, tempCode (s.fieldHot f))]) ∧
    (p ≠ .active ∨ ¬ long s.clk.hotAt 1000000 → exec (.fieldBank field) s = .next s) ∧
    (p = .bank → s.regs.st ≠ .safe → wakes → quiet → LogRoom s 1 → ∃ t, exec (.fieldActive field) s = .next t ∧
      t.fieldPower f = .active ∧ others t ∧ Tab.get none t.clk.ordered f = none ∧ t.mem = s.mem ∧ t.net = s.net ∧
      (∀ c ∈ fieldCores f, ∀ i, i < 4 → 4 * c + i ∈ s.clk.halted → (s.ctx c i).st = .halted →
        (t.ctx c i).st = .running ∧ 4 * c + i ∉ t.clk.halted) ∧
      (∀ c ∈ fieldCores f, s.obs.quench.active = false →
        (∀ i, s.jobOf c = some i → (s.job i).st ≠ .failed ∧ (s.job i).draining = none) → (t.core c).held = false) ∧
      Logged t .fieldActive (.field f) [(1, f)]) ∧
    (p ≠ .bank ∨ s.regs.st = .safe ∨ ¬ wakes → exec (.fieldActive field) s = .next s) ∧
    (¬ may → exec order s = .next s) ∧
    (may → s.switchOver f = true → ∃ t, exec order s = .next t ∧ t = { s with clk := { s.clk with deferred := t.clk.deferred } } ∧
      ∀ i, i ∈ t.clk.deferred ↔ i = f ∨ i ∈ s.clk.deferred) ∧
    (now → s.coldAllowed f = false → LogRoom s 1 → ∃ t, exec order s = .next t ∧ warm t 0xFFFF) ∧
    (chosen → (s.coldVariants f).find? (fun x => x.2.2.isNone) = some (j, r, none) → LogRoom s 1 →
      ∃ t, exec order s = .next t ∧ warm t r) ∧
    (chosen → (∀ x ∈ s.coldVariants f, x.2.2.isSome = true) → ∃ t, exec order s = .next t ∧
      Tab.get none t.clk.ordered f = some s.time ∧ others t ∧ t.mem = s.mem ∧
      (s.coldVariants f = [] → s.net.pause = none → s.net.pauseNext = [] → s.changeRunning = false → f ∉ s.net.cold →
        s.variantsReady f = true → (∀ g, Tab.get none s.clk.ordered g = none) →
        t.net = { s.net with stopped := true, pause := some (f, true, s.time) } ∧ t.jobs = s.jobs ∧ t.cores = s.cores) ∧
      (s.coldVariants f = [(j, r, some v)] → (s.job j).draining = none →
        (t.job j).wanted = (s.job j).wanted ++ [v] ∧ (t.job j).draining = some .fallback ∧ (t.job j).drainStart = s.time)) ∧
    (ordered = none ∨ p ≠ .bank ∨ f ∉ s.net.cold → exec (.fieldCold field) s = .next s) ∧
    (ordered = some start → p = .bank → f ∈ s.net.cold → LogRoom s 1 → ∃ t, exec (.fieldCold field) s = .next t ∧
      t.fieldPower f = .cold ∧ others t ∧ Tab.get none t.clk.ordered f = none ∧
      t.net = { s.net with
        flights := s.net.flights.filter (fun x => decide (fieldOf x.at_ ≠ f))
        waiting := s.net.waiting.filter (fun x => decide (fieldOf x.at_ ≠ f ∨ x.link ≠ 5)) } ∧
      (∀ c ∈ fieldCores f, cleared t c) ∧ (∀ c, c ∉ fieldCores f → t.core c = s.core c) ∧
      Logged t .fieldCold (.field f) [(1, f), (8, s.time - start)]) ∧
    (returns → exec (.coldReturn field) s =
      .next { s with net := { s.net with stopped := true, pause := some (f, false, s.time) } }) ∧
    (¬ returns → exec (.coldReturn field) s = .next s) ∧
    (s.net.pause = none → exec (.routeChanged field) s = .next s ∧ exec (.routeChangeAbandoned field) s = .next s) ∧
    (∀ g, s.net.pause = some (g, cold, start) →
      (g ≠ f → exec (.routeChanged field) s = .next s ∧ exec (.routeChangeAbandoned field) s = .next s) ∧
      (s.net.flights ≠ [] → exec (.routeChanged field) s = .next s) ∧
      (s.net.flights = [] → exec (.routeChangeAbandoned field) s = .next s)) ∧
    (s.net.pause = some (f, cold, start) → LogRoom s 1 →
      (s.net.flights = [] → ∃ t, exec (.routeChanged field) s = .next t ∧ opened t ∧
        (∀ g, g ∈ t.net.cold ↔ if g = f then cold = true else g ∈ s.net.cold) ∧
        (∀ c, fieldOf c ≠ f → (c ∈ t.net.oos ↔ c ∈ s.net.oos)) ∧
        (∀ c ∈ fieldCores f, c ∈ t.net.oos ↔ cold = true ∨ s.hasSite c = false) ∧
        Logged t .routeChanged .hid [(1, f), (1, if cold then 1 else 0), (8, s.time - start)] ∧
        (cold = false → p = .cold → t.fieldPower f = .bank ∧ ∀ c ∈ fieldCores f, cleared t c ∧
          (t.core c).cycleBase = (s.half (halfOf c)).cycles / 10) ∧
        (cold = true ∨ p ≠ .cold → CoresKept s t ∧ t.mem = s.mem ∧ t.fieldPower f = p)) ∧
      (s.net.flights ≠ [] → ∃ t, exec (.routeChangeAbandoned field) s = .next t ∧ opened t ∧
        Tab.get none t.clk.ordered f = none ∧ t.net.cold = s.net.cold ∧ t.net.oos = s.net.oos ∧ CoresKept s t ∧
        Logged t .routeChangeAbandoned .hid [(1, f)]))

/-! ### Quench, trace and service ports -/

/-- R28, R494, R585 to R593: QUENCH starts one quench, in which every running or loaded job context becomes QUENCHED and whose order
reaches every field supervisor; a cold order whose variants are not in force then ends; a unit that the order has reached captures
once: it halts, holds and is recorded; the cut completes when every channel is closed, or at its time-out; QUENCH_RELEASE lets the
device go on, with the streams of the quenched job contexts stopped; QUENCH_READ copies lines of the snapshot.
It rests on the model's choices in assumption log 51, 81. -/
def Obligations.TheQuenchCapturesReadsAndReleases : Prop :=
  ∀ (s : State) (ring : Fin 64) (x : Ring) (e : Entry) (unit : UnitId) (timedOut : Bool) (k : Nat × Nat),
    let r := ring.val
    let z := s.obs.quench
    let u := unit.src
    let b := s.blockOf e
    let h := fieldAt b 0 8
    let o := fieldAt b 8 8
    let n := fieldAt b 16 4
    let turns (i : Instr) (st : Nat) : Prop := ∃ t, exec i s = .next t ∧ Ended s t r x e st 0 0 ∧ RingOnly s t
    let open_ : Prop := s.captures u = true ∧ s.captureOf u = none ∧ s.shifting u = false ∧ s.ordered u = true
    let still : Prop := ∀ i, (s.stack i).temper = []
    let done (t : State) : Prop := t.obs.quench.complete = true ∧ t.obs.quench.everDone = true ∧
      t.obs.quench.completed = s.time ∧ t.obs.quench.active = true ∧ t.net = s.net ∧
      (∀ f, f < 64 → Tab.get 0 t.obs.quench.powers f = (s.fieldPower f).code) ∧
      (still → t.mem = s.mem ∧ t.jobs = s.jobs ∧ (z.cmd = some k → Finished s t k.1 k.2 stDone))
    let quenched (c : Nat) : Prop := ∃ j, s.jobOf c = some j ∧ (s.job j).st = .quenched
    (Admitted s r ocQuench x e →
      (z.active = true → turns (.quench ring) stState) ∧
      (z.active = false → s.mesh = [] → ∃ t, exec (.quench ring) s = .next t ∧
        t.obs.quench.active = true ∧ t.obs.quench.complete = false ∧ t.mesh = [] ∧
        (∀ f, f < 64 → f ∈ t.obs.quench.reached) ∧ t.cores = s.cores ∧
        (∀ f, f < 64 → Tab.get none t.clk.ordered f = if s.variantsReady f then Tab.get none s.clk.ordered f else none) ∧
        t.obs.quench.cause = 1 ∧ t.obs.quench.started = s.time ∧ t.obs.quench.cmd = some (r, s.host.nextId) ∧
        (∀ v, t.captureOf v = none) ∧ t.net = s.net ∧
        (∀ j, j < 8 → (t.job j).st = match (s.job j).st with
          | .running => .quenched | .loaded => .quenched | .restoring => .failed | st => st) ∧
        ((∀ j, j < 8 → (s.job j).st = .empty ∨ (s.job j).st = .failed) → Begun s t r x e false ∧ t.jobs = s.jobs))) ∧
    (s.cutting = true → open_ → ∃ t c, exec (.quenchCapture unit) s = .next t ∧ t.captureOf u = some c ∧ c.time = s.time ∧
      c.cause = 1 ∧ c.links = s.linksOf u ∧ c.markers = [] ∧ t.net = s.net ∧ (still → t.mem = s.mem) ∧
      (∀ v, v ≠ u → t.captureOf v = s.captureOf v) ∧
      (∀ i, u = .core i → c.record = coreCapture s t i ∧ (t.core i).held = true ∧ (∀ d, d ≠ i → t.core d = s.core d) ∧
        ∀ a, a < 4 → (s.ctx i a).st = .running → (t.ctx i a).st = .halted) ∧
      (∀ i, u = .site i → c.record = siteCapture t i ∧ (still → t.cores = s.cores)) ∧
      (u = .hid → c.record = (List.range 64).flatMap (fun a => ringBytes (s.ring a)) ∧ t.cores = s.cores)) ∧
    (s.cutting = false ∨ ¬ open_ → exec (.quenchCapture unit) s = .next s) ∧
    (s.cutting = false ∨ (timedOut = false ∧ s.cutClosed = false) → exec (.quenched timedOut) s = .next s) ∧
    (s.cutting = true → s.cutClosed = true → LogRoom s 1 → ∃ t, exec (.quenched false) s = .next t ∧ done t ∧
      t.obs.quench.incomplete = 0 ∧ t.cores = s.cores ∧ t.mem = s.mem ∧ t.jobs = s.jobs ∧
      (z.cmd = some k → Finished s t k.1 k.2 stDone) ∧ (∀ v, t.captureOf v = s.captureOf v) ∧
      Recorded t .quenched .hid [(1, z.cause), (4, 0), (8, maxOf s.captureTimes - minOf s.captureTimes)]) ∧
    (s.cutting = true → ∃ t, exec (.quenched true) s = .next t ∧ done t ∧
      (∀ v ∈ s.quenchUnits, s.shifting v = false → (t.captureOf v).isSome = true) ∧
      ∀ v c, s.captureOf v = some c → t.captureOf v = some c) ∧
    (Admitted s r ocQuenchRelease x e →
      (z.active = false ∨ z.complete = false → turns (.quenchRelease ring) stState) ∧
      (z.active = true → z.complete = true → LogRoom s 1 → ∃ t, exec (.quenchRelease ring) s = .next t ∧
        Ended s t r x e stDone 0 0 ∧ t.obs.quench = { z with active := false } ∧ t.mem = s.mem ∧
        (∀ j, j < 8 → t.job j = if (s.job j).st = .quenched then { s.job j with st := .loaded } else s.job j) ∧
        (s.net.pause.isSome = true → t.net = s.net) ∧
        (s.net.pause = none → t.net.stopped = false ∧ (∀ y ∈ s.net.flights, y ∈ t.net.flights) ∧
          ∀ y ∈ s.net.waiting, InNet t y.at_ y.flit) ∧
        (∀ c, c < 4096 → s.banked c = false → (∀ j, s.jobOf c = some j → (s.job j).st ≠ .failed ∧ (s.job j).draining = none) →
          (t.core c).held = false) ∧
        (∀ c, c < 4096 → quenched c → ∀ n, n < 32 → ((t.core c).stream n).st ≠ .running ∧ ((t.core c).stream n).st ≠ .held) ∧
        (∀ c, (t.core c).ctxs = (s.core c).ctxs) ∧ Recorded t .quenchReleased .hid [(8, s.time - z.started)])) ∧
    (Admitted s r ocQuenchRead x e →
      (readBlockOk b = false → turns (.quenchRead ring) stMalformed) ∧
      (readBlockOk b = true → z.everDone = false → turns (.quenchRead ring) stState) ∧
      (readBlockOk b = true → z.everDone = true → ∃ t, exec (.quenchRead ring) s = .next t ∧ Ended s t r x e stDone n 0 ∧
        t.bytes h n = (List.range (n / 64)).flatMap (fun i => z.line (o / 64 + i)) ∧
        (∀ a, a < h ∨ h + n ≤ a → t.byte a = s.byte a) ∧ t.obs = s.obs ∧ t.cores = s.cores ∧ t.jobs = s.jobs))

/-- R501, R519, R547, R581, R582, R584, R597: the board management port answers while power is good; a processor that its watchdog
finds dead is recorded and takes the device to SAFE; the trace port sends ALIGN, a TIMESYNC, the next record or IDLE in each slot;
the event buffer reaches flash; a field window takes its supervisor's state, and SUPOK is cleared after three misses.
It rests on the model's choices in assumption log 15, 20, 52. -/
def Obligations.ServicePortsWindowsAndWatchdogsAct : Prop :=
  ∀ (s : State) (message : List Byte) (processor : Fin 65) (field : Fin 64) (d : Nat × Nat) (l : List (Nat × Nat)),
    let p := processor.val
    let f := field.val
    let y := s.obs.trace
    let slot (q : Trace) : Prop := exec .traceSlot s = .next { s with obs := { s.obs with trace := { q with slot := y.slot + 1 } } }
    let drop : Nat × Nat := (0xF * 2 ^ 60 + 2 * 2 ^ 57 + s.time % 2 ^ 43, y.dropPending)
    let misses := Tab.get 0 s.regs.missedRefresh f
    let window (t : State) (g : Nat) : List Byte := Tab.get resetWindow t.regs.fields g
    let refreshed (t : State) (n : Nat) (w : List Byte) : Prop :=
      exec (.supervisorRefresh field) s = .next t ∧ Tab.get 0 t.regs.missedRefresh f = n ∧ window t f = w ∧
      (∀ g, g ≠ f → window t g = window s g ∧ Tab.get 0 t.regs.missedRefresh g = Tab.get 0 s.regs.missedRefresh g) ∧
      t = { s with regs := { s.regs with fields := t.regs.fields, missedRefresh := t.regs.missedRefresh } }
    (s.regs.powerGood = true → exec (.mctpMessage message) s =
      .next { s with host := { s.host with mctpReply := Config.mctpReply s.sensorList message } }) ∧
    (s.regs.powerGood = false → exec (.mctpMessage message) s = .next s) ∧
    (s.regs.st ≠ .safe → ∃ t, exec (.firmwareFault processor) s = .next t ∧ t.regs.st = .safe ∧ t.regs.safeCause = safeFirmware ∧
      (p < 64 → p ∈ t.wafer.deadSups) ∧ t.net = s.net ∧ t.stackSites = s.stackSites ∧ t.sec = s.sec ∧
      (LogRoom s 1 → Recorded t .firmwareFault .hid [(1, if p = 64 then 3 else 4), (1, p)])) ∧
    (s.regs.st = .safe → LogRoom s 1 → ∃ t, exec (.firmwareFault processor) s = .next t ∧ (p < 64 → p ∈ t.wafer.deadSups) ∧
      t = { s with wafer := { s.wafer with deadSups := t.wafer.deadSups }, obs := t.obs } ∧
      Logged t .firmwareFault .hid [(1, if p = 64 then 3 else 4), (1, p)]) ∧
    exec .timesync s = .next { s with obs := { s.obs with trace := { y with syncDue := true } } } ∧
    (y.slot % 65536 = 0 → slot { y with lastSent := 0xD000000000000000 * 2 ^ 64 + 0x5A5AA5A55A5AA5A5 }) ∧
    (y.slot % 65536 ≠ 0 → y.syncDue = true → slot { y with
      syncDue := false, lastSent := (0xE * 2 ^ 60 + 2 * 2 ^ 57 + s.time % 2 ^ 43) * 2 ^ 64 + s.time }) ∧
    (y.slot % 65536 ≠ 0 → y.syncDue = false →
      (y.queue = [] → slot { y with lastSent := 0 }) ∧
      (y.queue = d :: l → slot { y with
        lastSent := d.1 * 2 ^ 64 + d.2, queue := (if y.dropPending = 0 then l else l ++ [drop]), dropPending := 0 })) ∧
    (exec .eventLogFlush s = .next (if s.obs.flashReady then { s with obs := { s.obs with flash := s.obs.log } } else s)) ∧
    (f ∉ s.wafer.deadSups → ∃ t, refreshed t 0 (s.fieldWindow f)) ∧
    (f ∈ s.wafer.deadSups → ∃ t, refreshed t (misses + 1) (if misses < 2 then window s f else noSupok (window s f)))

/-! ### Boot and resets -/

/-- R52 to R58, R283 to R286, R551 to R553, R603 to R608, R610: a power-on keeps only flash, fuses and host memory, checks the
image, and brings up what its self-tests pass, with a failing redundancy column recorded or its site fenced, columns mapped and the
interleave list built; a module reset does the same after
the event buffer is in flash; a bad image waits for RECOVER; READY and the boot's time-out follow; a PCI Express reset closes the
session, the rings and the window and keeps the rest. It rests on the model's choices in assumption log 15, 25, 37, 53. -/
def Obligations.TheModuleBootsRecoversAndResets : Prop :=
  ∀ (s : State) (p : BootInputs) (q : Session),
    let fails := if s.sec.image = [] then (if p.imageCheck = 0 then none else some p.imageCheck)
      else fwFirstFail s.sec.image s.sec.secver
    let kept (t : State) : Prop := t.build = s.build ∧ t.pending = s.pending ∧
      (∀ a, t.byte a = if hostBase ≤ a then s.byte a else 0) ∧ t.codeErr = [] ∧ (t.regs.st = .boot → t.cores = []) ∧ t.jobs = [] ∧ t.host.rings = [] ∧
      t.sec.session = none ∧ t.sec.keys = s.sec.keys ∧ t.sec.secver = s.sec.secver ∧ t.sec.nonces = s.sec.nonces ∧
      t.sec.image = s.sec.image ∧ t.sec.bootCount = min (s.sec.bootCount + 1) 0xFFFF ∧ t.wafer.fuses = s.wafer.fuses ∧
      t.recov = { flash := s.recov.flash, slots := s.recov.slots } ∧ t.obs.flash = s.obs.flash ∧ s.obs.nextSeq ≤ t.obs.nextSeq ∧
      t.regs.powerGood = true
    let booted (t : State) : Prop := t.obs.flashReady = true ∧ t.sec.recovery = false ∧ t.sec.imgSecver = fwSecver s.sec.image ∧
      t.sec.fwTrust = fwTrustOf s.sec.image ∧ t.sec.fwUntrust = fwUntrustOf s.sec.image ∧
      (∀ c r, (c, r) ∈ p.failedSites → c < 512 → r < 9 → t.siteState c r = .fenced) ∧
      (∀ w, s.wafer.store = [w] → recordCheckOk w = true → recordFieldsOk w = true → recordType w = 2 →
        t.siteState (recordField w * 8 + recordCol w) (recordRow w) = .fenced) ∧
      (∀ x, p.failedColumns = [x] → validColumns [x] = [x] → s.wafer.store = [] →
        let key := segmentKey (x.col * 9 + x.prow) x.bank x.mac x.seg
        (∀ i, s.freeSpare key = some i → t.wafer.store.head? = some (repairWord 1 (x.col / 8) x.prow (x.col % 8) x.bank x.mac x.seg
          x.column i (min (s.sec.bootCount + 1) 0xFFFF))) ∧
        (s.freeSpare key = none → t.siteState x.col x.prow = .fenced)) ∧
      (∀ c, c < 512 → t.shiftRow c = if t.siteState c 8 = .fenced then none else t.fencedRow c) ∧
      (∀ f, f < 64 → f ∈ p.failedLinks ∨ f ∈ p.failedShims → t.fieldPower f = .outOfService ∧ f ∈ t.net.cold) ∧
      (∀ f, f < 64 → f ∈ p.failedShims → f ∈ t.wafer.deadSups) ∧
      (∀ f ∈ [0, 7, 56, 63], f ∈ p.failedLinks ∨ f ∈ p.failedShims → t.regs.st = .safe ∧ t.regs.safeCause = 6) ∧
      (s.wafer.store = [] → p.failedLinks = [] → p.failedShims = [] → t.regs.st = .boot) ∧
      (∀ i, s.isStack i = true → (i ∈ t.interleave ↔ i ∉ p.failedStacks) ∧
        (t.stack i).st = if i ∈ p.failedStacks then .fencedBoot else .online) ∧
      ∀ i, s.isIo i = true → (t.ioSite i).fenced = decide (i ∈ p.failedDies)
    let b := s.request
    let body := b.drop 8
    let h := fieldAt body 0 8
    let n := fieldAt body 8 4
    let posted : Prop := s.regs.mboxBusy = true ∧ fieldAt b 1 1 = 5
    let answers (t : State) (st : Nat) : Prop := t.regs.mboxBusy = false ∧ t.regs.mboxRep = icdor 5 st (fieldAt b 3 1) []
    let turns (st : Nat) : Prop := ∃ t, exec .recover s = .next t ∧ answers t st ∧ t.sec = s.sec ∧ t.mem = s.mem
    (∃ t, exec (.powerOn p) s = .next t ∧ kept t ∧ (fails = none → booted t) ∧
      ∀ k, fails = some k → t.sec.recovery = true ∧ t.obs.flashReady = false ∧ t.regs.st = .boot ∧
        (s.obs.flash.length < logCapacity → Logged t .recoveryEntered .hid [(1, k)])) ∧
    (s.regs.powerGood = false → exec (.moduleReset p) s = .next s) ∧
    (s.regs.powerGood = true → exec (.moduleReset p) s = exec (.powerOn p)
      { s with obs := { s.obs with flash := if s.obs.flashReady then s.obs.log else s.obs.flash } }) ∧
    (s.regs.st = .boot → s.obs.flashReady = true → ∃ t, exec .ready s = .next t ∧ t.regs.st = .ready ∧ t.mem = s.mem ∧
      t.cores = s.cores ∧ t.obs = s.obs ∧ (∀ i, (t.half i).op = (s.half i).op) ∧
      (Tab.get 0 s.regs.flagTime 0 ≠ s.time + 1 → Tab.get 0 t.regs.flags 0 = min (Tab.get 0 s.regs.flags 0 + 1) 65535)) ∧
    (s.regs.st ≠ .boot ∨ s.obs.flashReady = false → exec .ready s = .next s) ∧
    (s.regs.st = .boot → s.regs.powerGood = true → ∃ t, exec .bootTimeout s = .next t ∧ t.regs.st = .safe ∧
      t.regs.safeCause = 7 ∧ 64 ∈ (t.half 0).forced ∧ 64 ∈ (t.half 1).forced) ∧
    (s.regs.st ≠ .boot ∨ s.regs.powerGood = false → exec .bootTimeout s = .next s) ∧
    (∃ t, exec .conventionalReset s = .next t ∧ exec .functionLevelReset s = .next t ∧
      t = { s with host := t.host, obs := t.obs, regs := t.regs, sec := { s.sec with session := none } } ∧
      (∀ r, t.ring r = none) ∧ t.host.windowBase = 0 ∧ t.host.windowJob = none ∧ t.host.d3hot = false ∧ t.host.unmasked = [] ∧
      t.host.msixPending = [] ∧ t.host.nextId = s.host.nextId ∧ t.obs.quench = s.obs.quench ∧
      t.regs.st = s.regs.st ∧ t.regs.pcap = s.regs.pcap ∧ t.regs.macBase = s.regs.macBase ∧ t.regs.risk = s.regs.risk ∧
      t.regs.flags = [] ∧ t.regs.r0SqBase = 0 ∧ t.regs.r0CqBase = 0 ∧ cfgEnable t.regs.r0Cfg = false ∧
      t.regs.mboxBusy = false ∧ t.regs.qlen = 0 ∧ t.regs.rlen = 0 ∧
      (s.sec.session = some q → LogRoom s 1 → Logged t .sessionClosed .hid [(1, q.principal), (1, 1)])) ∧
    (¬ posted → exec .recover s = .next s) ∧
    (posted → s.sec.recovery = false → recoverBodyOk body = true → turns 1) ∧
    (posted → s.sec.recovery = true → recoverBodyOk body = false → turns 4) ∧
    (posted → s.sec.recovery = true → recoverBodyOk body = true →
      (s.hostOk h n = false → ∃ t, exec .recover s = .next t ∧ answers t 6 ∧ t.sec = s.sec ∧ t.mem = s.mem) ∧
      (s.hostOk h n = true → ∃ t, exec .recover s = .next t ∧ answers t (if fwFirstFail (s.bytes h n) s.sec.secver = none then 0 else 6) ∧
        (∀ k, fwFirstFail (s.bytes h n) s.sec.secver = some k → t.sec = s.sec ∧
          (LogRoom s 1 → Logged t .firmwareRejected .hid [(1, k)])) ∧
        (fwFirstFail (s.bytes h n) s.sec.secver = none → t.sec.image = s.bytes h n ∧ t.sec.recovery = false ∧
          t.obs.flashReady = true ∧ t.sec.keys = s.sec.keys)))

/-! ### The whole block -/

/-- A step with a command at the front of the queue is that command's effect on the state with the rest of the queue. With an empty
queue one nanosecond passes (the model's choice, assumption log 2): device time rises by one, each half's clock runs at its operating
point unless a change of it holds the clock still (R527), and in BOOT nothing else happens. -/
def Obligations.StepTakesTheFrontCommand : Prop :=
  ∀ (s : State) (c : Instr),
    step { s with pending := c :: s.pending } = exec c s ∧
    (s.pending = [] → ∃ t, step s = .next t ∧ t.time = s.time + 1 ∧ t.pending = [] ∧
      (∀ h, h < 2 → (t.half h).cycles =
        (s.half h).cycles + if (s.half h).clockStopped s.time then 0 else opTenths (s.half h).op) ∧
      (s.regs.st = .boot → t = { s with time := s.time + 1, clk := { s.clk with halves := t.clk.halves } }))

/-- R9, R173, R226, R479, R510 to R514, R603: what reset leaves: BOOT, no session, no ring, every job context EMPTY, every context IDLE,
every stream UNSET, both halves at OP5, the registers of the set-up map at their reset values, memory with nothing listed; and
every invariant of the steps holds there. -/
def Obligations.ResetMeetsTheInvariants : Prop :=
  let s := State.reset
  let g := s.regs
  MemoryOk s ∧ RangesOk s ∧ s.mesh = [] ∧ s.pending = [] ∧ s.mem = [] ∧ s.codeErr = [] ∧ s.time = 0 ∧
  g.st = .boot ∧ g.safeCause = 0 ∧ s.obs.quench.active = false ∧ s.net.expansive = false ∧ s.sec.session = none ∧
  (∀ r, s.ring r = none) ∧ (∀ j, (s.job j).st = .empty) ∧ (∀ c k, (s.ctx c k).st = .idle) ∧
  (∀ c n, ((s.core c).stream n).st = .unset) ∧ (∀ h, (s.half h).op = 5) ∧ (∀ n, Tab.get 0 g.flags n = 0) ∧
  g.mboxBusy = false ∧ g.qlen = 0 ∧ g.rlen = 0 ∧ g.r0SqBase = 0 ∧ g.r0CqBase = 0 ∧ cfgEnable g.r0Cfg = false ∧
  g.opWest = 0 ∧ g.opEast = 0 ∧ g.pcap = 32000 ∧ g.tthrottle = 95 ∧ g.macBase = 0 ∧ g.etherType = 0x88B5 ∧ g.rto = 40 ∧
  g.hbInt = 100 ∧ g.enable = true ∧ g.rate = 6 ∧ g.timeout = 1000 ∧ g.risk = 0 ∧ s.obs.trDrop = 0

/-- Every step keeps memory and the word codes in canonical form, from every state in which they have it: addresses rise strictly,
and nothing is listed that an unlisted address reads as. It rests on the model's choices in assumption log 57. -/
def Obligations.StepsKeepTheFormOfMemory : Prop :=
  ∀ s t : State, MemoryOk s → step s = .next t → MemoryOk t

/-- Every step keeps the registers within the values that their rules allow and every COUNT within its field; and the event log
within its capacity with its sequence numbers in order, the trace queue within its length, and every counter below 2^48; and it
leaves no message at a field supervisor where none stood (the model's choice, assumption log 81). -/
def Obligations.StepsKeepRegistersAndRecorderInRange : Prop :=
  ∀ s t : State, step s = .next t → (RegsOk s.regs → RegsOk t.regs) ∧ (ObsOk s.obs → ObsOk t.obs) ∧
    (s.mesh = [] → t.mesh = [])

/-- Every command, in every state, has a next state, in which the build and the queue are as they were. Only a boot changes the
interleave list or sets device time; only the commands of sessions, keys, firmware and resets change the security state; and only
the commands of sites, fabric, jobs and steps change the fabric. It rests on the model's choices in assumption log 5, 7. -/
def Obligations.EveryCommandCompletesWithinItsConcern : Prop :=
  ∀ (i : Instr) (s : State), ∃ t, exec i s = .next t ∧ t.pending = s.pending ∧ t.build = s.build ∧
    (bootCommand i = false → t.interleave = s.interleave ∧ t.time = s.time) ∧
    (securityCommand i = false → t.sec = s.sec) ∧ (fabricCommand i = false → t.fabric = s.fabric)
end

