-- ==== Sys2Proof/Laws/Tab.lean ====
section
/-! SUPPORT. Laws of the sparse tables: what a read finds after a write, and the canonical form that every write keeps. -/

set_option Elab.async false

namespace Sys2Proof.Machine

/-! ### The canonical form -/

section
variable {α : Type} [DecidableEq α] {d : α}

theorem Tab.wfFrom_mono {l : Tab α} {a b : Nat} (h : a ≤ b) (hw : Tab.wfFrom d b l = true) : Tab.wfFrom d a l = true := by
  cases l with
  | nil => rfl
  | cons x r =>
    obtain ⟨k, v⟩ := x
    simp only [Tab.wfFrom, Bool.and_eq_true, decide_eq_true_eq] at hw ⊢
    exact ⟨⟨by omega, hw.1.2⟩, hw.2⟩

theorem Tab.wfFrom_put {l : Tab α} {b i : Nat} {v : α} (hb : b ≤ i) (hv : v ≠ d) (h : Tab.wfFrom d b l = true) :
    Tab.wfFrom d b (Tab.put i v l) = true := by
  induction l generalizing b with
  | nil => simp [Tab.put, Tab.wfFrom, hb, hv]
  | cons x r ih =>
    obtain ⟨k, w⟩ := x
    simp only [Tab.wfFrom, Bool.and_eq_true, decide_eq_true_eq] at h
    simp only [Tab.put]
    split
    · simp only [Tab.wfFrom, Bool.and_eq_true, decide_eq_true_eq]
      exact ⟨⟨hb, hv⟩, ⟨by omega, h.1.2⟩, h.2⟩
    · split
      · subst k
        simp only [Tab.wfFrom, Bool.and_eq_true, decide_eq_true_eq]
        exact ⟨⟨hb, hv⟩, h.2⟩
      · simp only [Tab.wfFrom, Bool.and_eq_true, decide_eq_true_eq]
        exact ⟨h.1, ih (by omega) h.2⟩

theorem Tab.wfFrom_del {l : Tab α} {b i : Nat} (h : Tab.wfFrom d b l = true) : Tab.wfFrom d b (Tab.del i l) = true := by
  induction l generalizing b with
  | nil => rfl
  | cons x r ih =>
    obtain ⟨k, w⟩ := x
    simp only [Tab.wfFrom, Bool.and_eq_true, decide_eq_true_eq] at h
    simp only [Tab.del]
    split
    · exact ih (Tab.wfFrom_mono (by omega) h.2)
    · simp only [Tab.wfFrom, Bool.and_eq_true, decide_eq_true_eq]
      exact ⟨h.1, ih h.2⟩

/-- Writing one entry keeps the canonical form. -/
theorem Tab.wf_set {l : Tab α} {i : Nat} {v : α} (h : Tab.wf d l = true) : Tab.wf d (Tab.set d l i v) = true := by
  unfold Tab.set
  split
  · exact Tab.wfFrom_del h
  · exact Tab.wfFrom_put (Nat.zero_le _) ‹_› h

theorem Tab.wf_setRange {l : Tab α} {i : Nat} {vs : List α} (h : Tab.wf d l = true) :
    Tab.wf d (Tab.setRange d l i vs) = true := by
  induction vs generalizing l i with
  | nil => exact h
  | cons v r ih => exact ih (Tab.wf_set h)

theorem Tab.wfFrom_filter {l : Tab α} {b : Nat} {p : Nat × α → Bool} (h : Tab.wfFrom d b l = true) :
    Tab.wfFrom d b (l.filter p) = true := by
  induction l generalizing b with
  | nil => rfl
  | cons x r ih =>
    obtain ⟨k, w⟩ := x
    simp only [Tab.wfFrom, Bool.and_eq_true, decide_eq_true_eq] at h
    simp only [List.filter]
    split
    · simp only [Tab.wfFrom, Bool.and_eq_true, decide_eq_true_eq]
      exact ⟨h.1, ih h.2⟩
    · exact ih (Tab.wfFrom_mono (by omega) h.2)

/-- Taking entries out keeps the canonical form. -/
theorem Tab.wf_filter {l : Tab α} {p : Nat × α → Bool} (h : Tab.wf d l = true) : Tab.wf d (l.filter p) = true :=
  Tab.wfFrom_filter h

theorem Tab.wfFrom_filterMap {l : Tab α} {b : Nat} {f : Nat × α → Option (Nat × α)}
    (hf : ∀ x y, f x = some y → y.1 = x.1 ∧ (x.2 ≠ d → y.2 ≠ d)) (h : Tab.wfFrom d b l = true) :
    Tab.wfFrom d b (l.filterMap f) = true := by
  induction l generalizing b with
  | nil => rfl
  | cons x r ih =>
    obtain ⟨k, w⟩ := x
    simp only [Tab.wfFrom, Bool.and_eq_true, decide_eq_true_eq] at h
    cases hx : f (k, w) with
    | none =>
      rw [List.filterMap_cons_none hx]
      exact ih (Tab.wfFrom_mono (by omega) h.2)
    | some y =>
      obtain ⟨j, v⟩ := y
      have hy := hf _ _ hx
      rw [List.filterMap_cons_some hx]
      simp only [Tab.wfFrom, Bool.and_eq_true, decide_eq_true_eq]
      have hj : j = k := hy.1
      subst j
      exact ⟨⟨h.1.1, hy.2 h.1.2⟩, ih h.2⟩

theorem Tab.wf_filterMap {l : Tab α} {f : Nat × α → Option (Nat × α)}
    (hf : ∀ x y, f x = some y → y.1 = x.1 ∧ (x.2 ≠ d → y.2 ≠ d)) (h : Tab.wf d l = true) :
    Tab.wf d (l.filterMap f) = true := Tab.wfFrom_filterMap hf h

end


/-! ### What a read finds -/

section
variable {α : Type} [DecidableEq α] {d : α}

omit [DecidableEq α] in
theorem Tab.get_put (l : Tab α) (i j : Nat) (v : α) : Tab.get d (Tab.put i v l) j = if j = i then v else Tab.get d l j := by
  induction l with
  | nil => simp [Tab.put, Tab.get, eq_comm]
  | cons x r ih =>
    obtain ⟨k, w⟩ := x
    by_cases h1 : j = i
    · subst j
      simp only [Tab.put]
      split
      · simp [Tab.get]
      · split <;> simp_all [Tab.get]
    · have h2 : ¬i = j := fun e => h1 e.symm
      simp only [Tab.put]
      split
      · simp [Tab.get, h2]
      · split
        · subst k
          simp [Tab.get, h2]
        · simp [Tab.get, ih, h1]

omit [DecidableEq α] in
theorem Tab.get_del (l : Tab α) (i j : Nat) : Tab.get d (Tab.del i l) j = if j = i then d else Tab.get d l j := by
  induction l with
  | nil => simp [Tab.del, Tab.get]
  | cons x r ih =>
    obtain ⟨k, w⟩ := x
    by_cases h1 : j = i
    · subst j
      simp only [Tab.del]
      split <;> simp_all [Tab.get]
    · simp only [Tab.del]
      split
      · subst k
        have h2 : ¬i = j := fun e => h1 e.symm
        simp [Tab.get, ih, h1, h2]
      · simp [Tab.get, ih, h1]

/-- A read after a write of one entry. -/
theorem Tab.get_set (l : Tab α) (i j : Nat) (v : α) : Tab.get d (Tab.set d l i v) j = if j = i then v else Tab.get d l j := by
  unfold Tab.set
  split
  · rw [Tab.get_del]
    split
    · exact Eq.symm ‹_›
    · rfl
  · exact Tab.get_put l i j v

@[simp] theorem Tab.get_set_same (l : Tab α) (i : Nat) (v : α) : Tab.get d (Tab.set d l i v) i = v := by
  rw [Tab.get_set, if_pos rfl]

theorem Tab.get_set_other (l : Tab α) {i j : Nat} (v : α) (h : j ≠ i) : Tab.get d (Tab.set d l i v) j = Tab.get d l j := by
  rw [Tab.get_set, if_neg h]

omit [DecidableEq α] in
@[simp] theorem Tab.get_nil (i : Nat) : Tab.get d [] i = d := rfl

/-- A read outside a written range. -/
theorem Tab.get_setRange_out (l : Tab α) (i j : Nat) (vs : List α) (h : j < i ∨ i + vs.length ≤ j) :
    Tab.get d (Tab.setRange d l i vs) j = Tab.get d l j := by
  induction vs generalizing l i with
  | nil => rfl
  | cons v r ih =>
    simp only [List.length_cons] at h
    rw [Tab.setRange, ih _ _ (by omega), Tab.get_set_other _ _ (by omega)]

/-- A read within a written range. -/
theorem Tab.get_setRange_in (l : Tab α) (i : Nat) (vs : List α) (n : Nat) (h : n < vs.length) :
    Tab.get d (Tab.setRange d l i vs) (i + n) = vs[n] := by
  induction vs generalizing l i n with
  | nil => exact absurd h (Nat.not_lt_zero _)
  | cons v r ih =>
    cases n with
    | zero =>
      rw [Nat.add_zero, Tab.setRange, Tab.get_setRange_out _ _ _ _ (by omega), Tab.get_set_same]
      rfl
    | succ n =>
      have e : i + (n + 1) = i + 1 + n := by omega
      rw [Tab.setRange, e, ih _ _ _ (by simpa using h)]
      rfl

/-- A range that has been written reads as written. -/
theorem Tab.getRange_setRange (l : Tab α) (i : Nat) (vs : List α) :
    Tab.getRange d (Tab.setRange d l i vs) i vs.length = vs := by
  unfold Tab.getRange
  apply List.ext_getElem
  · simp
  · intro n h1 h2
    simp only [List.getElem_map, List.getElem_range]
    exact Tab.get_setRange_in _ _ _ _ h2

end

end Sys2Proof.Machine
end

