-- ==== Sys2Proof/Laws/State.lean ====
section
/-! SUPPORT. What the named updates of the state leave alone, field by field, and what their readers find. -/

namespace Sys2Proof.Machine

/-! ### Fields that an update leaves alone -/

@[simp] theorem State.setCore_pending {s : State} {i : Nat} {c : Core} : (s.setCore i c).pending = s.pending := rfl
@[simp] theorem State.setCore_time {s : State} {i : Nat} {c : Core} : (s.setCore i c).time = s.time := rfl
@[simp] theorem State.setCore_freeIndex {s : State} {i : Nat} {c : Core} : (s.setCore i c).freeIndex = s.freeIndex := rfl
@[simp] theorem State.setCore_build {s : State} {i : Nat} {c : Core} : (s.setCore i c).build = s.build := rfl
@[simp] theorem State.setCore_mem {s : State} {i : Nat} {c : Core} : (s.setCore i c).mem = s.mem := rfl
@[simp] theorem State.setCore_codeErr {s : State} {i : Nat} {c : Core} : (s.setCore i c).codeErr = s.codeErr := rfl
@[simp] theorem State.setCore_interleave {s : State} {i : Nat} {c : Core} : (s.setCore i c).interleave = s.interleave := rfl
@[simp] theorem State.setCore_net {s : State} {i : Nat} {c : Core} : (s.setCore i c).net = s.net := rfl
@[simp] theorem State.setCore_wafer {s : State} {i : Nat} {c : Core} : (s.setCore i c).wafer = s.wafer := rfl
@[simp] theorem State.setCore_stackSites {s : State} {i : Nat} {c : Core} : (s.setCore i c).stackSites = s.stackSites := rfl
@[simp] theorem State.setCore_jobs {s : State} {i : Nat} {c : Core} : (s.setCore i c).jobs = s.jobs := rfl
@[simp] theorem State.setCore_fabric {s : State} {i : Nat} {c : Core} : (s.setCore i c).fabric = s.fabric := rfl
@[simp] theorem State.setCore_host {s : State} {i : Nat} {c : Core} : (s.setCore i c).host = s.host := rfl
@[simp] theorem State.setCore_regs {s : State} {i : Nat} {c : Core} : (s.setCore i c).regs = s.regs := rfl
@[simp] theorem State.setCore_sec {s : State} {i : Nat} {c : Core} : (s.setCore i c).sec = s.sec := rfl
@[simp] theorem State.setCore_clk {s : State} {i : Nat} {c : Core} : (s.setCore i c).clk = s.clk := rfl
@[simp] theorem State.setCore_integ {s : State} {i : Nat} {c : Core} : (s.setCore i c).integ = s.integ := rfl
@[simp] theorem State.setCore_recov {s : State} {i : Nat} {c : Core} : (s.setCore i c).recov = s.recov := rfl
@[simp] theorem State.setCore_obs {s : State} {i : Nat} {c : Core} : (s.setCore i c).obs = s.obs := rfl
@[simp] theorem State.setCore_mesh {s : State} {i : Nat} {c : Core} : (s.setCore i c).mesh = s.mesh := rfl

@[simp] theorem State.modCore_pending {s : State} {i : Nat} {f : Core → Core} : (s.modCore i f).pending = s.pending := rfl
@[simp] theorem State.modCore_time {s : State} {i : Nat} {f : Core → Core} : (s.modCore i f).time = s.time := rfl
@[simp] theorem State.modCore_freeIndex {s : State} {i : Nat} {f : Core → Core} : (s.modCore i f).freeIndex = s.freeIndex := rfl
@[simp] theorem State.modCore_build {s : State} {i : Nat} {f : Core → Core} : (s.modCore i f).build = s.build := rfl
@[simp] theorem State.modCore_mem {s : State} {i : Nat} {f : Core → Core} : (s.modCore i f).mem = s.mem := rfl
@[simp] theorem State.modCore_codeErr {s : State} {i : Nat} {f : Core → Core} : (s.modCore i f).codeErr = s.codeErr := rfl
@[simp] theorem State.modCore_interleave {s : State} {i : Nat} {f : Core → Core} : (s.modCore i f).interleave = s.interleave := rfl
@[simp] theorem State.modCore_net {s : State} {i : Nat} {f : Core → Core} : (s.modCore i f).net = s.net := rfl
@[simp] theorem State.modCore_wafer {s : State} {i : Nat} {f : Core → Core} : (s.modCore i f).wafer = s.wafer := rfl
@[simp] theorem State.modCore_stackSites {s : State} {i : Nat} {f : Core → Core} : (s.modCore i f).stackSites = s.stackSites := rfl
@[simp] theorem State.modCore_jobs {s : State} {i : Nat} {f : Core → Core} : (s.modCore i f).jobs = s.jobs := rfl
@[simp] theorem State.modCore_fabric {s : State} {i : Nat} {f : Core → Core} : (s.modCore i f).fabric = s.fabric := rfl
@[simp] theorem State.modCore_host {s : State} {i : Nat} {f : Core → Core} : (s.modCore i f).host = s.host := rfl
@[simp] theorem State.modCore_regs {s : State} {i : Nat} {f : Core → Core} : (s.modCore i f).regs = s.regs := rfl
@[simp] theorem State.modCore_sec {s : State} {i : Nat} {f : Core → Core} : (s.modCore i f).sec = s.sec := rfl
@[simp] theorem State.modCore_clk {s : State} {i : Nat} {f : Core → Core} : (s.modCore i f).clk = s.clk := rfl
@[simp] theorem State.modCore_integ {s : State} {i : Nat} {f : Core → Core} : (s.modCore i f).integ = s.integ := rfl
@[simp] theorem State.modCore_recov {s : State} {i : Nat} {f : Core → Core} : (s.modCore i f).recov = s.recov := rfl
@[simp] theorem State.modCore_obs {s : State} {i : Nat} {f : Core → Core} : (s.modCore i f).obs = s.obs := rfl
@[simp] theorem State.modCore_mesh {s : State} {i : Nat} {f : Core → Core} : (s.modCore i f).mesh = s.mesh := rfl

@[simp] theorem State.modCtx_pending {s : State} {c k : Nat} {f : Ctx → Ctx} : (s.modCtx c k f).pending = s.pending := rfl
@[simp] theorem State.modCtx_time {s : State} {c k : Nat} {f : Ctx → Ctx} : (s.modCtx c k f).time = s.time := rfl
@[simp] theorem State.modCtx_freeIndex {s : State} {c k : Nat} {f : Ctx → Ctx} : (s.modCtx c k f).freeIndex = s.freeIndex := rfl
@[simp] theorem State.modCtx_build {s : State} {c k : Nat} {f : Ctx → Ctx} : (s.modCtx c k f).build = s.build := rfl
@[simp] theorem State.modCtx_mem {s : State} {c k : Nat} {f : Ctx → Ctx} : (s.modCtx c k f).mem = s.mem := rfl
@[simp] theorem State.modCtx_codeErr {s : State} {c k : Nat} {f : Ctx → Ctx} : (s.modCtx c k f).codeErr = s.codeErr := rfl
@[simp] theorem State.modCtx_interleave {s : State} {c k : Nat} {f : Ctx → Ctx} : (s.modCtx c k f).interleave = s.interleave := rfl
@[simp] theorem State.modCtx_net {s : State} {c k : Nat} {f : Ctx → Ctx} : (s.modCtx c k f).net = s.net := rfl
@[simp] theorem State.modCtx_wafer {s : State} {c k : Nat} {f : Ctx → Ctx} : (s.modCtx c k f).wafer = s.wafer := rfl
@[simp] theorem State.modCtx_stackSites {s : State} {c k : Nat} {f : Ctx → Ctx} : (s.modCtx c k f).stackSites = s.stackSites := rfl
@[simp] theorem State.modCtx_jobs {s : State} {c k : Nat} {f : Ctx → Ctx} : (s.modCtx c k f).jobs = s.jobs := rfl
@[simp] theorem State.modCtx_fabric {s : State} {c k : Nat} {f : Ctx → Ctx} : (s.modCtx c k f).fabric = s.fabric := rfl
@[simp] theorem State.modCtx_host {s : State} {c k : Nat} {f : Ctx → Ctx} : (s.modCtx c k f).host = s.host := rfl
@[simp] theorem State.modCtx_regs {s : State} {c k : Nat} {f : Ctx → Ctx} : (s.modCtx c k f).regs = s.regs := rfl
@[simp] theorem State.modCtx_sec {s : State} {c k : Nat} {f : Ctx → Ctx} : (s.modCtx c k f).sec = s.sec := rfl
@[simp] theorem State.modCtx_clk {s : State} {c k : Nat} {f : Ctx → Ctx} : (s.modCtx c k f).clk = s.clk := rfl
@[simp] theorem State.modCtx_integ {s : State} {c k : Nat} {f : Ctx → Ctx} : (s.modCtx c k f).integ = s.integ := rfl
@[simp] theorem State.modCtx_recov {s : State} {c k : Nat} {f : Ctx → Ctx} : (s.modCtx c k f).recov = s.recov := rfl
@[simp] theorem State.modCtx_obs {s : State} {c k : Nat} {f : Ctx → Ctx} : (s.modCtx c k f).obs = s.obs := rfl
@[simp] theorem State.modCtx_mesh {s : State} {c k : Nat} {f : Ctx → Ctx} : (s.modCtx c k f).mesh = s.mesh := rfl

@[simp] theorem State.modStream_pending {s : State} {c n : Nat} {f : Stream → Stream} : (s.modStream c n f).pending = s.pending := rfl
@[simp] theorem State.modStream_time {s : State} {c n : Nat} {f : Stream → Stream} : (s.modStream c n f).time = s.time := rfl
@[simp] theorem State.modStream_freeIndex {s : State} {c n : Nat} {f : Stream → Stream} : (s.modStream c n f).freeIndex = s.freeIndex := rfl
@[simp] theorem State.modStream_build {s : State} {c n : Nat} {f : Stream → Stream} : (s.modStream c n f).build = s.build := rfl
@[simp] theorem State.modStream_mem {s : State} {c n : Nat} {f : Stream → Stream} : (s.modStream c n f).mem = s.mem := rfl
@[simp] theorem State.modStream_codeErr {s : State} {c n : Nat} {f : Stream → Stream} : (s.modStream c n f).codeErr = s.codeErr := rfl
@[simp] theorem State.modStream_interleave {s : State} {c n : Nat} {f : Stream → Stream} : (s.modStream c n f).interleave = s.interleave := rfl
@[simp] theorem State.modStream_net {s : State} {c n : Nat} {f : Stream → Stream} : (s.modStream c n f).net = s.net := rfl
@[simp] theorem State.modStream_wafer {s : State} {c n : Nat} {f : Stream → Stream} : (s.modStream c n f).wafer = s.wafer := rfl
@[simp] theorem State.modStream_stackSites {s : State} {c n : Nat} {f : Stream → Stream} : (s.modStream c n f).stackSites = s.stackSites := rfl
@[simp] theorem State.modStream_jobs {s : State} {c n : Nat} {f : Stream → Stream} : (s.modStream c n f).jobs = s.jobs := rfl
@[simp] theorem State.modStream_fabric {s : State} {c n : Nat} {f : Stream → Stream} : (s.modStream c n f).fabric = s.fabric := rfl
@[simp] theorem State.modStream_host {s : State} {c n : Nat} {f : Stream → Stream} : (s.modStream c n f).host = s.host := rfl
@[simp] theorem State.modStream_regs {s : State} {c n : Nat} {f : Stream → Stream} : (s.modStream c n f).regs = s.regs := rfl
@[simp] theorem State.modStream_sec {s : State} {c n : Nat} {f : Stream → Stream} : (s.modStream c n f).sec = s.sec := rfl
@[simp] theorem State.modStream_clk {s : State} {c n : Nat} {f : Stream → Stream} : (s.modStream c n f).clk = s.clk := rfl
@[simp] theorem State.modStream_integ {s : State} {c n : Nat} {f : Stream → Stream} : (s.modStream c n f).integ = s.integ := rfl
@[simp] theorem State.modStream_recov {s : State} {c n : Nat} {f : Stream → Stream} : (s.modStream c n f).recov = s.recov := rfl
@[simp] theorem State.modStream_obs {s : State} {c n : Nat} {f : Stream → Stream} : (s.modStream c n f).obs = s.obs := rfl
@[simp] theorem State.modStream_mesh {s : State} {c n : Nat} {f : Stream → Stream} : (s.modStream c n f).mesh = s.mesh := rfl

@[simp] theorem State.putJob_pending {s : State} {j : Nat} {v : Job} : (s.putJob j v).pending = s.pending := rfl
@[simp] theorem State.putJob_time {s : State} {j : Nat} {v : Job} : (s.putJob j v).time = s.time := rfl
@[simp] theorem State.putJob_freeIndex {s : State} {j : Nat} {v : Job} : (s.putJob j v).freeIndex = s.freeIndex := rfl
@[simp] theorem State.putJob_build {s : State} {j : Nat} {v : Job} : (s.putJob j v).build = s.build := rfl
@[simp] theorem State.putJob_mem {s : State} {j : Nat} {v : Job} : (s.putJob j v).mem = s.mem := rfl
@[simp] theorem State.putJob_codeErr {s : State} {j : Nat} {v : Job} : (s.putJob j v).codeErr = s.codeErr := rfl
@[simp] theorem State.putJob_interleave {s : State} {j : Nat} {v : Job} : (s.putJob j v).interleave = s.interleave := rfl
@[simp] theorem State.putJob_cores {s : State} {j : Nat} {v : Job} : (s.putJob j v).cores = s.cores := rfl
@[simp] theorem State.putJob_net {s : State} {j : Nat} {v : Job} : (s.putJob j v).net = s.net := rfl
@[simp] theorem State.putJob_wafer {s : State} {j : Nat} {v : Job} : (s.putJob j v).wafer = s.wafer := rfl
@[simp] theorem State.putJob_stackSites {s : State} {j : Nat} {v : Job} : (s.putJob j v).stackSites = s.stackSites := rfl
@[simp] theorem State.putJob_fabric {s : State} {j : Nat} {v : Job} : (s.putJob j v).fabric = s.fabric := rfl
@[simp] theorem State.putJob_host {s : State} {j : Nat} {v : Job} : (s.putJob j v).host = s.host := rfl
@[simp] theorem State.putJob_regs {s : State} {j : Nat} {v : Job} : (s.putJob j v).regs = s.regs := rfl
@[simp] theorem State.putJob_sec {s : State} {j : Nat} {v : Job} : (s.putJob j v).sec = s.sec := rfl
@[simp] theorem State.putJob_clk {s : State} {j : Nat} {v : Job} : (s.putJob j v).clk = s.clk := rfl
@[simp] theorem State.putJob_integ {s : State} {j : Nat} {v : Job} : (s.putJob j v).integ = s.integ := rfl
@[simp] theorem State.putJob_recov {s : State} {j : Nat} {v : Job} : (s.putJob j v).recov = s.recov := rfl
@[simp] theorem State.putJob_obs {s : State} {j : Nat} {v : Job} : (s.putJob j v).obs = s.obs := rfl
@[simp] theorem State.putJob_mesh {s : State} {j : Nat} {v : Job} : (s.putJob j v).mesh = s.mesh := rfl

@[simp] theorem State.setStack_pending {s : State} {i : Nat} {v : StackSite} : (s.setStack i v).pending = s.pending := rfl
@[simp] theorem State.setStack_time {s : State} {i : Nat} {v : StackSite} : (s.setStack i v).time = s.time := rfl
@[simp] theorem State.setStack_freeIndex {s : State} {i : Nat} {v : StackSite} : (s.setStack i v).freeIndex = s.freeIndex := rfl
@[simp] theorem State.setStack_build {s : State} {i : Nat} {v : StackSite} : (s.setStack i v).build = s.build := rfl
@[simp] theorem State.setStack_mem {s : State} {i : Nat} {v : StackSite} : (s.setStack i v).mem = s.mem := rfl
@[simp] theorem State.setStack_codeErr {s : State} {i : Nat} {v : StackSite} : (s.setStack i v).codeErr = s.codeErr := rfl
@[simp] theorem State.setStack_interleave {s : State} {i : Nat} {v : StackSite} : (s.setStack i v).interleave = s.interleave := rfl
@[simp] theorem State.setStack_cores {s : State} {i : Nat} {v : StackSite} : (s.setStack i v).cores = s.cores := rfl
@[simp] theorem State.setStack_net {s : State} {i : Nat} {v : StackSite} : (s.setStack i v).net = s.net := rfl
@[simp] theorem State.setStack_wafer {s : State} {i : Nat} {v : StackSite} : (s.setStack i v).wafer = s.wafer := rfl
@[simp] theorem State.setStack_jobs {s : State} {i : Nat} {v : StackSite} : (s.setStack i v).jobs = s.jobs := rfl
@[simp] theorem State.setStack_fabric {s : State} {i : Nat} {v : StackSite} : (s.setStack i v).fabric = s.fabric := rfl
@[simp] theorem State.setStack_host {s : State} {i : Nat} {v : StackSite} : (s.setStack i v).host = s.host := rfl
@[simp] theorem State.setStack_regs {s : State} {i : Nat} {v : StackSite} : (s.setStack i v).regs = s.regs := rfl
@[simp] theorem State.setStack_sec {s : State} {i : Nat} {v : StackSite} : (s.setStack i v).sec = s.sec := rfl
@[simp] theorem State.setStack_clk {s : State} {i : Nat} {v : StackSite} : (s.setStack i v).clk = s.clk := rfl
@[simp] theorem State.setStack_integ {s : State} {i : Nat} {v : StackSite} : (s.setStack i v).integ = s.integ := rfl
@[simp] theorem State.setStack_recov {s : State} {i : Nat} {v : StackSite} : (s.setStack i v).recov = s.recov := rfl
@[simp] theorem State.setStack_obs {s : State} {i : Nat} {v : StackSite} : (s.setStack i v).obs = s.obs := rfl
@[simp] theorem State.setStack_mesh {s : State} {i : Nat} {v : StackSite} : (s.setStack i v).mesh = s.mesh := rfl

@[simp] theorem State.modStack_pending {s : State} {i : Nat} {f : StackSite → StackSite} : (s.modStack i f).pending = s.pending := rfl
@[simp] theorem State.modStack_time {s : State} {i : Nat} {f : StackSite → StackSite} : (s.modStack i f).time = s.time := rfl
@[simp] theorem State.modStack_freeIndex {s : State} {i : Nat} {f : StackSite → StackSite} : (s.modStack i f).freeIndex = s.freeIndex := rfl
@[simp] theorem State.modStack_build {s : State} {i : Nat} {f : StackSite → StackSite} : (s.modStack i f).build = s.build := rfl
@[simp] theorem State.modStack_mem {s : State} {i : Nat} {f : StackSite → StackSite} : (s.modStack i f).mem = s.mem := rfl
@[simp] theorem State.modStack_codeErr {s : State} {i : Nat} {f : StackSite → StackSite} : (s.modStack i f).codeErr = s.codeErr := rfl
@[simp] theorem State.modStack_interleave {s : State} {i : Nat} {f : StackSite → StackSite} : (s.modStack i f).interleave = s.interleave := rfl
@[simp] theorem State.modStack_cores {s : State} {i : Nat} {f : StackSite → StackSite} : (s.modStack i f).cores = s.cores := rfl
@[simp] theorem State.modStack_net {s : State} {i : Nat} {f : StackSite → StackSite} : (s.modStack i f).net = s.net := rfl
@[simp] theorem State.modStack_wafer {s : State} {i : Nat} {f : StackSite → StackSite} : (s.modStack i f).wafer = s.wafer := rfl
@[simp] theorem State.modStack_jobs {s : State} {i : Nat} {f : StackSite → StackSite} : (s.modStack i f).jobs = s.jobs := rfl
@[simp] theorem State.modStack_fabric {s : State} {i : Nat} {f : StackSite → StackSite} : (s.modStack i f).fabric = s.fabric := rfl
@[simp] theorem State.modStack_host {s : State} {i : Nat} {f : StackSite → StackSite} : (s.modStack i f).host = s.host := rfl
@[simp] theorem State.modStack_regs {s : State} {i : Nat} {f : StackSite → StackSite} : (s.modStack i f).regs = s.regs := rfl
@[simp] theorem State.modStack_sec {s : State} {i : Nat} {f : StackSite → StackSite} : (s.modStack i f).sec = s.sec := rfl
@[simp] theorem State.modStack_clk {s : State} {i : Nat} {f : StackSite → StackSite} : (s.modStack i f).clk = s.clk := rfl
@[simp] theorem State.modStack_integ {s : State} {i : Nat} {f : StackSite → StackSite} : (s.modStack i f).integ = s.integ := rfl
@[simp] theorem State.modStack_recov {s : State} {i : Nat} {f : StackSite → StackSite} : (s.modStack i f).recov = s.recov := rfl
@[simp] theorem State.modStack_obs {s : State} {i : Nat} {f : StackSite → StackSite} : (s.modStack i f).obs = s.obs := rfl
@[simp] theorem State.modStack_mesh {s : State} {i : Nat} {f : StackSite → StackSite} : (s.modStack i f).mesh = s.mesh := rfl

@[simp] theorem State.store_pending {s : State} {a : Nat} {bs : List Byte} : (s.store a bs).pending = s.pending := rfl
@[simp] theorem State.store_time {s : State} {a : Nat} {bs : List Byte} : (s.store a bs).time = s.time := rfl
@[simp] theorem State.store_freeIndex {s : State} {a : Nat} {bs : List Byte} : (s.store a bs).freeIndex = s.freeIndex := rfl
@[simp] theorem State.store_build {s : State} {a : Nat} {bs : List Byte} : (s.store a bs).build = s.build := rfl
@[simp] theorem State.store_interleave {s : State} {a : Nat} {bs : List Byte} : (s.store a bs).interleave = s.interleave := rfl
@[simp] theorem State.store_cores {s : State} {a : Nat} {bs : List Byte} : (s.store a bs).cores = s.cores := rfl
@[simp] theorem State.store_net {s : State} {a : Nat} {bs : List Byte} : (s.store a bs).net = s.net := rfl
@[simp] theorem State.store_wafer {s : State} {a : Nat} {bs : List Byte} : (s.store a bs).wafer = s.wafer := rfl
@[simp] theorem State.store_stackSites {s : State} {a : Nat} {bs : List Byte} : (s.store a bs).stackSites = s.stackSites := rfl
@[simp] theorem State.store_jobs {s : State} {a : Nat} {bs : List Byte} : (s.store a bs).jobs = s.jobs := rfl
@[simp] theorem State.store_fabric {s : State} {a : Nat} {bs : List Byte} : (s.store a bs).fabric = s.fabric := rfl
@[simp] theorem State.store_host {s : State} {a : Nat} {bs : List Byte} : (s.store a bs).host = s.host := rfl
@[simp] theorem State.store_regs {s : State} {a : Nat} {bs : List Byte} : (s.store a bs).regs = s.regs := rfl
@[simp] theorem State.store_sec {s : State} {a : Nat} {bs : List Byte} : (s.store a bs).sec = s.sec := rfl
@[simp] theorem State.store_clk {s : State} {a : Nat} {bs : List Byte} : (s.store a bs).clk = s.clk := rfl
@[simp] theorem State.store_integ {s : State} {a : Nat} {bs : List Byte} : (s.store a bs).integ = s.integ := rfl
@[simp] theorem State.store_recov {s : State} {a : Nat} {bs : List Byte} : (s.store a bs).recov = s.recov := rfl
@[simp] theorem State.store_obs {s : State} {a : Nat} {bs : List Byte} : (s.store a bs).obs = s.obs := rfl
@[simp] theorem State.store_mesh {s : State} {a : Nat} {bs : List Byte} : (s.store a bs).mesh = s.mesh := rfl

@[simp] theorem State.storeHost_pending {s : State} {a : Nat} {bs : List Byte} : (s.storeHost a bs).pending = s.pending := rfl
@[simp] theorem State.storeHost_time {s : State} {a : Nat} {bs : List Byte} : (s.storeHost a bs).time = s.time := rfl
@[simp] theorem State.storeHost_freeIndex {s : State} {a : Nat} {bs : List Byte} : (s.storeHost a bs).freeIndex = s.freeIndex := rfl
@[simp] theorem State.storeHost_build {s : State} {a : Nat} {bs : List Byte} : (s.storeHost a bs).build = s.build := rfl
@[simp] theorem State.storeHost_codeErr {s : State} {a : Nat} {bs : List Byte} : (s.storeHost a bs).codeErr = s.codeErr := rfl
@[simp] theorem State.storeHost_interleave {s : State} {a : Nat} {bs : List Byte} : (s.storeHost a bs).interleave = s.interleave := rfl
@[simp] theorem State.storeHost_cores {s : State} {a : Nat} {bs : List Byte} : (s.storeHost a bs).cores = s.cores := rfl
@[simp] theorem State.storeHost_net {s : State} {a : Nat} {bs : List Byte} : (s.storeHost a bs).net = s.net := rfl
@[simp] theorem State.storeHost_wafer {s : State} {a : Nat} {bs : List Byte} : (s.storeHost a bs).wafer = s.wafer := rfl
@[simp] theorem State.storeHost_stackSites {s : State} {a : Nat} {bs : List Byte} : (s.storeHost a bs).stackSites = s.stackSites := rfl
@[simp] theorem State.storeHost_jobs {s : State} {a : Nat} {bs : List Byte} : (s.storeHost a bs).jobs = s.jobs := rfl
@[simp] theorem State.storeHost_fabric {s : State} {a : Nat} {bs : List Byte} : (s.storeHost a bs).fabric = s.fabric := rfl
@[simp] theorem State.storeHost_regs {s : State} {a : Nat} {bs : List Byte} : (s.storeHost a bs).regs = s.regs := rfl
@[simp] theorem State.storeHost_sec {s : State} {a : Nat} {bs : List Byte} : (s.storeHost a bs).sec = s.sec := rfl
@[simp] theorem State.storeHost_clk {s : State} {a : Nat} {bs : List Byte} : (s.storeHost a bs).clk = s.clk := rfl
@[simp] theorem State.storeHost_integ {s : State} {a : Nat} {bs : List Byte} : (s.storeHost a bs).integ = s.integ := rfl
@[simp] theorem State.storeHost_recov {s : State} {a : Nat} {bs : List Byte} : (s.storeHost a bs).recov = s.recov := rfl
@[simp] theorem State.storeHost_obs {s : State} {a : Nat} {bs : List Byte} : (s.storeHost a bs).obs = s.obs := rfl
@[simp] theorem State.storeHost_mesh {s : State} {a : Nat} {bs : List Byte} : (s.storeHost a bs).mesh = s.mesh := rfl

@[simp] theorem State.poison_pending {s : State} {a n : Nat} : (s.poison a n).pending = s.pending := rfl
@[simp] theorem State.poison_time {s : State} {a n : Nat} : (s.poison a n).time = s.time := rfl
@[simp] theorem State.poison_freeIndex {s : State} {a n : Nat} : (s.poison a n).freeIndex = s.freeIndex := rfl
@[simp] theorem State.poison_build {s : State} {a n : Nat} : (s.poison a n).build = s.build := rfl
@[simp] theorem State.poison_mem {s : State} {a n : Nat} : (s.poison a n).mem = s.mem := rfl
@[simp] theorem State.poison_interleave {s : State} {a n : Nat} : (s.poison a n).interleave = s.interleave := rfl
@[simp] theorem State.poison_cores {s : State} {a n : Nat} : (s.poison a n).cores = s.cores := rfl
@[simp] theorem State.poison_net {s : State} {a n : Nat} : (s.poison a n).net = s.net := rfl
@[simp] theorem State.poison_wafer {s : State} {a n : Nat} : (s.poison a n).wafer = s.wafer := rfl
@[simp] theorem State.poison_stackSites {s : State} {a n : Nat} : (s.poison a n).stackSites = s.stackSites := rfl
@[simp] theorem State.poison_jobs {s : State} {a n : Nat} : (s.poison a n).jobs = s.jobs := rfl
@[simp] theorem State.poison_fabric {s : State} {a n : Nat} : (s.poison a n).fabric = s.fabric := rfl
@[simp] theorem State.poison_host {s : State} {a n : Nat} : (s.poison a n).host = s.host := rfl
@[simp] theorem State.poison_regs {s : State} {a n : Nat} : (s.poison a n).regs = s.regs := rfl
@[simp] theorem State.poison_sec {s : State} {a n : Nat} : (s.poison a n).sec = s.sec := rfl
@[simp] theorem State.poison_clk {s : State} {a n : Nat} : (s.poison a n).clk = s.clk := rfl
@[simp] theorem State.poison_integ {s : State} {a n : Nat} : (s.poison a n).integ = s.integ := rfl
@[simp] theorem State.poison_recov {s : State} {a n : Nat} : (s.poison a n).recov = s.recov := rfl
@[simp] theorem State.poison_obs {s : State} {a n : Nat} : (s.poison a n).obs = s.obs := rfl
@[simp] theorem State.poison_mesh {s : State} {a n : Nat} : (s.poison a n).mesh = s.mesh := rfl

@[simp] theorem State.poisonHost_pending {s : State} {a n : Nat} : (s.poisonHost a n).pending = s.pending := rfl
@[simp] theorem State.poisonHost_time {s : State} {a n : Nat} : (s.poisonHost a n).time = s.time := rfl
@[simp] theorem State.poisonHost_freeIndex {s : State} {a n : Nat} : (s.poisonHost a n).freeIndex = s.freeIndex := rfl
@[simp] theorem State.poisonHost_build {s : State} {a n : Nat} : (s.poisonHost a n).build = s.build := rfl
@[simp] theorem State.poisonHost_mem {s : State} {a n : Nat} : (s.poisonHost a n).mem = s.mem := rfl
@[simp] theorem State.poisonHost_codeErr {s : State} {a n : Nat} : (s.poisonHost a n).codeErr = s.codeErr := rfl
@[simp] theorem State.poisonHost_interleave {s : State} {a n : Nat} : (s.poisonHost a n).interleave = s.interleave := rfl
@[simp] theorem State.poisonHost_cores {s : State} {a n : Nat} : (s.poisonHost a n).cores = s.cores := rfl
@[simp] theorem State.poisonHost_net {s : State} {a n : Nat} : (s.poisonHost a n).net = s.net := rfl
@[simp] theorem State.poisonHost_wafer {s : State} {a n : Nat} : (s.poisonHost a n).wafer = s.wafer := rfl
@[simp] theorem State.poisonHost_stackSites {s : State} {a n : Nat} : (s.poisonHost a n).stackSites = s.stackSites := rfl
@[simp] theorem State.poisonHost_jobs {s : State} {a n : Nat} : (s.poisonHost a n).jobs = s.jobs := rfl
@[simp] theorem State.poisonHost_fabric {s : State} {a n : Nat} : (s.poisonHost a n).fabric = s.fabric := rfl
@[simp] theorem State.poisonHost_regs {s : State} {a n : Nat} : (s.poisonHost a n).regs = s.regs := rfl
@[simp] theorem State.poisonHost_sec {s : State} {a n : Nat} : (s.poisonHost a n).sec = s.sec := rfl
@[simp] theorem State.poisonHost_clk {s : State} {a n : Nat} : (s.poisonHost a n).clk = s.clk := rfl
@[simp] theorem State.poisonHost_integ {s : State} {a n : Nat} : (s.poisonHost a n).integ = s.integ := rfl
@[simp] theorem State.poisonHost_recov {s : State} {a n : Nat} : (s.poisonHost a n).recov = s.recov := rfl
@[simp] theorem State.poisonHost_obs {s : State} {a n : Nat} : (s.poisonHost a n).obs = s.obs := rfl
@[simp] theorem State.poisonHost_mesh {s : State} {a n : Nat} : (s.poisonHost a n).mesh = s.mesh := rfl

@[simp] theorem State.bumpCore_pending {s : State} {i w n : Nat} : (s.bumpCore i w n).pending = s.pending := rfl
@[simp] theorem State.bumpCore_time {s : State} {i w n : Nat} : (s.bumpCore i w n).time = s.time := rfl
@[simp] theorem State.bumpCore_freeIndex {s : State} {i w n : Nat} : (s.bumpCore i w n).freeIndex = s.freeIndex := rfl
@[simp] theorem State.bumpCore_build {s : State} {i w n : Nat} : (s.bumpCore i w n).build = s.build := rfl
@[simp] theorem State.bumpCore_mem {s : State} {i w n : Nat} : (s.bumpCore i w n).mem = s.mem := rfl
@[simp] theorem State.bumpCore_codeErr {s : State} {i w n : Nat} : (s.bumpCore i w n).codeErr = s.codeErr := rfl
@[simp] theorem State.bumpCore_interleave {s : State} {i w n : Nat} : (s.bumpCore i w n).interleave = s.interleave := rfl
@[simp] theorem State.bumpCore_cores {s : State} {i w n : Nat} : (s.bumpCore i w n).cores = s.cores := rfl
@[simp] theorem State.bumpCore_net {s : State} {i w n : Nat} : (s.bumpCore i w n).net = s.net := rfl
@[simp] theorem State.bumpCore_wafer {s : State} {i w n : Nat} : (s.bumpCore i w n).wafer = s.wafer := rfl
@[simp] theorem State.bumpCore_stackSites {s : State} {i w n : Nat} : (s.bumpCore i w n).stackSites = s.stackSites := rfl
@[simp] theorem State.bumpCore_jobs {s : State} {i w n : Nat} : (s.bumpCore i w n).jobs = s.jobs := rfl
@[simp] theorem State.bumpCore_fabric {s : State} {i w n : Nat} : (s.bumpCore i w n).fabric = s.fabric := rfl
@[simp] theorem State.bumpCore_host {s : State} {i w n : Nat} : (s.bumpCore i w n).host = s.host := rfl
@[simp] theorem State.bumpCore_regs {s : State} {i w n : Nat} : (s.bumpCore i w n).regs = s.regs := rfl
@[simp] theorem State.bumpCore_sec {s : State} {i w n : Nat} : (s.bumpCore i w n).sec = s.sec := rfl
@[simp] theorem State.bumpCore_clk {s : State} {i w n : Nat} : (s.bumpCore i w n).clk = s.clk := rfl
@[simp] theorem State.bumpCore_integ {s : State} {i w n : Nat} : (s.bumpCore i w n).integ = s.integ := rfl
@[simp] theorem State.bumpCore_recov {s : State} {i w n : Nat} : (s.bumpCore i w n).recov = s.recov := rfl
@[simp] theorem State.bumpCore_mesh {s : State} {i w n : Nat} : (s.bumpCore i w n).mesh = s.mesh := rfl

@[simp] theorem State.bumpRouter_pending {s : State} {i w n : Nat} : (s.bumpRouter i w n).pending = s.pending := rfl
@[simp] theorem State.bumpRouter_time {s : State} {i w n : Nat} : (s.bumpRouter i w n).time = s.time := rfl
@[simp] theorem State.bumpRouter_freeIndex {s : State} {i w n : Nat} : (s.bumpRouter i w n).freeIndex = s.freeIndex := rfl
@[simp] theorem State.bumpRouter_build {s : State} {i w n : Nat} : (s.bumpRouter i w n).build = s.build := rfl
@[simp] theorem State.bumpRouter_mem {s : State} {i w n : Nat} : (s.bumpRouter i w n).mem = s.mem := rfl
@[simp] theorem State.bumpRouter_codeErr {s : State} {i w n : Nat} : (s.bumpRouter i w n).codeErr = s.codeErr := rfl
@[simp] theorem State.bumpRouter_interleave {s : State} {i w n : Nat} : (s.bumpRouter i w n).interleave = s.interleave := rfl
@[simp] theorem State.bumpRouter_cores {s : State} {i w n : Nat} : (s.bumpRouter i w n).cores = s.cores := rfl
@[simp] theorem State.bumpRouter_net {s : State} {i w n : Nat} : (s.bumpRouter i w n).net = s.net := rfl
@[simp] theorem State.bumpRouter_wafer {s : State} {i w n : Nat} : (s.bumpRouter i w n).wafer = s.wafer := rfl
@[simp] theorem State.bumpRouter_stackSites {s : State} {i w n : Nat} : (s.bumpRouter i w n).stackSites = s.stackSites := rfl
@[simp] theorem State.bumpRouter_jobs {s : State} {i w n : Nat} : (s.bumpRouter i w n).jobs = s.jobs := rfl
@[simp] theorem State.bumpRouter_fabric {s : State} {i w n : Nat} : (s.bumpRouter i w n).fabric = s.fabric := rfl
@[simp] theorem State.bumpRouter_host {s : State} {i w n : Nat} : (s.bumpRouter i w n).host = s.host := rfl
@[simp] theorem State.bumpRouter_regs {s : State} {i w n : Nat} : (s.bumpRouter i w n).regs = s.regs := rfl
@[simp] theorem State.bumpRouter_sec {s : State} {i w n : Nat} : (s.bumpRouter i w n).sec = s.sec := rfl
@[simp] theorem State.bumpRouter_clk {s : State} {i w n : Nat} : (s.bumpRouter i w n).clk = s.clk := rfl
@[simp] theorem State.bumpRouter_integ {s : State} {i w n : Nat} : (s.bumpRouter i w n).integ = s.integ := rfl
@[simp] theorem State.bumpRouter_recov {s : State} {i w n : Nat} : (s.bumpRouter i w n).recov = s.recov := rfl
@[simp] theorem State.bumpRouter_mesh {s : State} {i w n : Nat} : (s.bumpRouter i w n).mesh = s.mesh := rfl

@[simp] theorem State.bumpSite_pending {s : State} {i w n : Nat} : (s.bumpSite i w n).pending = s.pending := rfl
@[simp] theorem State.bumpSite_time {s : State} {i w n : Nat} : (s.bumpSite i w n).time = s.time := rfl
@[simp] theorem State.bumpSite_freeIndex {s : State} {i w n : Nat} : (s.bumpSite i w n).freeIndex = s.freeIndex := rfl
@[simp] theorem State.bumpSite_build {s : State} {i w n : Nat} : (s.bumpSite i w n).build = s.build := rfl
@[simp] theorem State.bumpSite_mem {s : State} {i w n : Nat} : (s.bumpSite i w n).mem = s.mem := rfl
@[simp] theorem State.bumpSite_codeErr {s : State} {i w n : Nat} : (s.bumpSite i w n).codeErr = s.codeErr := rfl
@[simp] theorem State.bumpSite_interleave {s : State} {i w n : Nat} : (s.bumpSite i w n).interleave = s.interleave := rfl
@[simp] theorem State.bumpSite_cores {s : State} {i w n : Nat} : (s.bumpSite i w n).cores = s.cores := rfl
@[simp] theorem State.bumpSite_net {s : State} {i w n : Nat} : (s.bumpSite i w n).net = s.net := rfl
@[simp] theorem State.bumpSite_wafer {s : State} {i w n : Nat} : (s.bumpSite i w n).wafer = s.wafer := rfl
@[simp] theorem State.bumpSite_stackSites {s : State} {i w n : Nat} : (s.bumpSite i w n).stackSites = s.stackSites := rfl
@[simp] theorem State.bumpSite_jobs {s : State} {i w n : Nat} : (s.bumpSite i w n).jobs = s.jobs := rfl
@[simp] theorem State.bumpSite_fabric {s : State} {i w n : Nat} : (s.bumpSite i w n).fabric = s.fabric := rfl
@[simp] theorem State.bumpSite_host {s : State} {i w n : Nat} : (s.bumpSite i w n).host = s.host := rfl
@[simp] theorem State.bumpSite_regs {s : State} {i w n : Nat} : (s.bumpSite i w n).regs = s.regs := rfl
@[simp] theorem State.bumpSite_sec {s : State} {i w n : Nat} : (s.bumpSite i w n).sec = s.sec := rfl
@[simp] theorem State.bumpSite_clk {s : State} {i w n : Nat} : (s.bumpSite i w n).clk = s.clk := rfl
@[simp] theorem State.bumpSite_integ {s : State} {i w n : Nat} : (s.bumpSite i w n).integ = s.integ := rfl
@[simp] theorem State.bumpSite_recov {s : State} {i w n : Nat} : (s.bumpSite i w n).recov = s.recov := rfl
@[simp] theorem State.bumpSite_mesh {s : State} {i w n : Nat} : (s.bumpSite i w n).mesh = s.mesh := rfl

@[simp] theorem State.bumpJob_pending {s : State} {i w n : Nat} : (s.bumpJob i w n).pending = s.pending := rfl
@[simp] theorem State.bumpJob_time {s : State} {i w n : Nat} : (s.bumpJob i w n).time = s.time := rfl
@[simp] theorem State.bumpJob_freeIndex {s : State} {i w n : Nat} : (s.bumpJob i w n).freeIndex = s.freeIndex := rfl
@[simp] theorem State.bumpJob_build {s : State} {i w n : Nat} : (s.bumpJob i w n).build = s.build := rfl
@[simp] theorem State.bumpJob_mem {s : State} {i w n : Nat} : (s.bumpJob i w n).mem = s.mem := rfl
@[simp] theorem State.bumpJob_codeErr {s : State} {i w n : Nat} : (s.bumpJob i w n).codeErr = s.codeErr := rfl
@[simp] theorem State.bumpJob_interleave {s : State} {i w n : Nat} : (s.bumpJob i w n).interleave = s.interleave := rfl
@[simp] theorem State.bumpJob_cores {s : State} {i w n : Nat} : (s.bumpJob i w n).cores = s.cores := rfl
@[simp] theorem State.bumpJob_net {s : State} {i w n : Nat} : (s.bumpJob i w n).net = s.net := rfl
@[simp] theorem State.bumpJob_wafer {s : State} {i w n : Nat} : (s.bumpJob i w n).wafer = s.wafer := rfl
@[simp] theorem State.bumpJob_stackSites {s : State} {i w n : Nat} : (s.bumpJob i w n).stackSites = s.stackSites := rfl
@[simp] theorem State.bumpJob_jobs {s : State} {i w n : Nat} : (s.bumpJob i w n).jobs = s.jobs := rfl
@[simp] theorem State.bumpJob_fabric {s : State} {i w n : Nat} : (s.bumpJob i w n).fabric = s.fabric := rfl
@[simp] theorem State.bumpJob_host {s : State} {i w n : Nat} : (s.bumpJob i w n).host = s.host := rfl
@[simp] theorem State.bumpJob_regs {s : State} {i w n : Nat} : (s.bumpJob i w n).regs = s.regs := rfl
@[simp] theorem State.bumpJob_sec {s : State} {i w n : Nat} : (s.bumpJob i w n).sec = s.sec := rfl
@[simp] theorem State.bumpJob_clk {s : State} {i w n : Nat} : (s.bumpJob i w n).clk = s.clk := rfl
@[simp] theorem State.bumpJob_integ {s : State} {i w n : Nat} : (s.bumpJob i w n).integ = s.integ := rfl
@[simp] theorem State.bumpJob_recov {s : State} {i w n : Nat} : (s.bumpJob i w n).recov = s.recov := rfl
@[simp] theorem State.bumpJob_mesh {s : State} {i w n : Nat} : (s.bumpJob i w n).mesh = s.mesh := rfl

@[simp] theorem State.health_pending {s : State} {i n : Nat} : (s.health i n).pending = s.pending := rfl
@[simp] theorem State.health_time {s : State} {i n : Nat} : (s.health i n).time = s.time := rfl
@[simp] theorem State.health_freeIndex {s : State} {i n : Nat} : (s.health i n).freeIndex = s.freeIndex := rfl
@[simp] theorem State.health_build {s : State} {i n : Nat} : (s.health i n).build = s.build := rfl
@[simp] theorem State.health_mem {s : State} {i n : Nat} : (s.health i n).mem = s.mem := rfl
@[simp] theorem State.health_codeErr {s : State} {i n : Nat} : (s.health i n).codeErr = s.codeErr := rfl
@[simp] theorem State.health_interleave {s : State} {i n : Nat} : (s.health i n).interleave = s.interleave := rfl
@[simp] theorem State.health_cores {s : State} {i n : Nat} : (s.health i n).cores = s.cores := rfl
@[simp] theorem State.health_net {s : State} {i n : Nat} : (s.health i n).net = s.net := rfl
@[simp] theorem State.health_wafer {s : State} {i n : Nat} : (s.health i n).wafer = s.wafer := rfl
@[simp] theorem State.health_stackSites {s : State} {i n : Nat} : (s.health i n).stackSites = s.stackSites := rfl
@[simp] theorem State.health_jobs {s : State} {i n : Nat} : (s.health i n).jobs = s.jobs := rfl
@[simp] theorem State.health_fabric {s : State} {i n : Nat} : (s.health i n).fabric = s.fabric := rfl
@[simp] theorem State.health_host {s : State} {i n : Nat} : (s.health i n).host = s.host := rfl
@[simp] theorem State.health_regs {s : State} {i n : Nat} : (s.health i n).regs = s.regs := rfl
@[simp] theorem State.health_sec {s : State} {i n : Nat} : (s.health i n).sec = s.sec := rfl
@[simp] theorem State.health_clk {s : State} {i n : Nat} : (s.health i n).clk = s.clk := rfl
@[simp] theorem State.health_recov {s : State} {i n : Nat} : (s.health i n).recov = s.recov := rfl
@[simp] theorem State.health_obs {s : State} {i n : Nat} : (s.health i n).obs = s.obs := rfl
@[simp] theorem State.health_mesh {s : State} {i n : Nat} : (s.health i n).mesh = s.mesh := rfl

@[simp] theorem State.raiseFlag_pending {s : State} {n : Nat} : (s.raiseFlag n).pending = s.pending := by
  unfold State.raiseFlag; split <;> rfl
@[simp] theorem State.raiseFlag_time {s : State} {n : Nat} : (s.raiseFlag n).time = s.time := by
  unfold State.raiseFlag; split <;> rfl
@[simp] theorem State.raiseFlag_freeIndex {s : State} {n : Nat} : (s.raiseFlag n).freeIndex = s.freeIndex := by
  unfold State.raiseFlag; split <;> rfl
@[simp] theorem State.raiseFlag_build {s : State} {n : Nat} : (s.raiseFlag n).build = s.build := by
  unfold State.raiseFlag; split <;> rfl
@[simp] theorem State.raiseFlag_mem {s : State} {n : Nat} : (s.raiseFlag n).mem = s.mem := by
  unfold State.raiseFlag; split <;> rfl
@[simp] theorem State.raiseFlag_codeErr {s : State} {n : Nat} : (s.raiseFlag n).codeErr = s.codeErr := by
  unfold State.raiseFlag; split <;> rfl
@[simp] theorem State.raiseFlag_interleave {s : State} {n : Nat} : (s.raiseFlag n).interleave = s.interleave := by
  unfold State.raiseFlag; split <;> rfl
@[simp] theorem State.raiseFlag_cores {s : State} {n : Nat} : (s.raiseFlag n).cores = s.cores := by
  unfold State.raiseFlag; split <;> rfl
@[simp] theorem State.raiseFlag_net {s : State} {n : Nat} : (s.raiseFlag n).net = s.net := by
  unfold State.raiseFlag; split <;> rfl
@[simp] theorem State.raiseFlag_wafer {s : State} {n : Nat} : (s.raiseFlag n).wafer = s.wafer := by
  unfold State.raiseFlag; split <;> rfl
@[simp] theorem State.raiseFlag_stackSites {s : State} {n : Nat} : (s.raiseFlag n).stackSites = s.stackSites := by
  unfold State.raiseFlag; split <;> rfl
@[simp] theorem State.raiseFlag_jobs {s : State} {n : Nat} : (s.raiseFlag n).jobs = s.jobs := by
  unfold State.raiseFlag; split <;> rfl
@[simp] theorem State.raiseFlag_fabric {s : State} {n : Nat} : (s.raiseFlag n).fabric = s.fabric := by
  unfold State.raiseFlag; split <;> rfl
@[simp] theorem State.raiseFlag_host {s : State} {n : Nat} : (s.raiseFlag n).host = s.host := by
  unfold State.raiseFlag; split <;> rfl
@[simp] theorem State.raiseFlag_sec {s : State} {n : Nat} : (s.raiseFlag n).sec = s.sec := by
  unfold State.raiseFlag; split <;> rfl
@[simp] theorem State.raiseFlag_clk {s : State} {n : Nat} : (s.raiseFlag n).clk = s.clk := by
  unfold State.raiseFlag; split <;> rfl
@[simp] theorem State.raiseFlag_integ {s : State} {n : Nat} : (s.raiseFlag n).integ = s.integ := by
  unfold State.raiseFlag; split <;> rfl
@[simp] theorem State.raiseFlag_recov {s : State} {n : Nat} : (s.raiseFlag n).recov = s.recov := by
  unfold State.raiseFlag; split <;> rfl
@[simp] theorem State.raiseFlag_obs {s : State} {n : Nat} : (s.raiseFlag n).obs = s.obs := by
  unfold State.raiseFlag; split <;> rfl
@[simp] theorem State.raiseFlag_mesh {s : State} {n : Nat} : (s.raiseFlag n).mesh = s.mesh := by
  unfold State.raiseFlag; split <;> rfl

@[simp] theorem State.raiseVector_pending {s : State} {v : Nat} : (s.raiseVector v).pending = s.pending := by
  unfold State.raiseVector; split <;> (try split) <;> rfl
@[simp] theorem State.raiseVector_time {s : State} {v : Nat} : (s.raiseVector v).time = s.time := by
  unfold State.raiseVector; split <;> (try split) <;> rfl
@[simp] theorem State.raiseVector_freeIndex {s : State} {v : Nat} : (s.raiseVector v).freeIndex = s.freeIndex := by
  unfold State.raiseVector; split <;> (try split) <;> rfl
@[simp] theorem State.raiseVector_build {s : State} {v : Nat} : (s.raiseVector v).build = s.build := by
  unfold State.raiseVector; split <;> (try split) <;> rfl
@[simp] theorem State.raiseVector_mem {s : State} {v : Nat} : (s.raiseVector v).mem = s.mem := by
  unfold State.raiseVector; split <;> (try split) <;> rfl
@[simp] theorem State.raiseVector_codeErr {s : State} {v : Nat} : (s.raiseVector v).codeErr = s.codeErr := by
  unfold State.raiseVector; split <;> (try split) <;> rfl
@[simp] theorem State.raiseVector_interleave {s : State} {v : Nat} : (s.raiseVector v).interleave = s.interleave := by
  unfold State.raiseVector; split <;> (try split) <;> rfl
@[simp] theorem State.raiseVector_cores {s : State} {v : Nat} : (s.raiseVector v).cores = s.cores := by
  unfold State.raiseVector; split <;> (try split) <;> rfl
@[simp] theorem State.raiseVector_net {s : State} {v : Nat} : (s.raiseVector v).net = s.net := by
  unfold State.raiseVector; split <;> (try split) <;> rfl
@[simp] theorem State.raiseVector_wafer {s : State} {v : Nat} : (s.raiseVector v).wafer = s.wafer := by
  unfold State.raiseVector; split <;> (try split) <;> rfl
@[simp] theorem State.raiseVector_stackSites {s : State} {v : Nat} : (s.raiseVector v).stackSites = s.stackSites := by
  unfold State.raiseVector; split <;> (try split) <;> rfl
@[simp] theorem State.raiseVector_jobs {s : State} {v : Nat} : (s.raiseVector v).jobs = s.jobs := by
  unfold State.raiseVector; split <;> (try split) <;> rfl
@[simp] theorem State.raiseVector_fabric {s : State} {v : Nat} : (s.raiseVector v).fabric = s.fabric := by
  unfold State.raiseVector; split <;> (try split) <;> rfl
@[simp] theorem State.raiseVector_regs {s : State} {v : Nat} : (s.raiseVector v).regs = s.regs := by
  unfold State.raiseVector; split <;> (try split) <;> rfl
@[simp] theorem State.raiseVector_sec {s : State} {v : Nat} : (s.raiseVector v).sec = s.sec := by
  unfold State.raiseVector; split <;> (try split) <;> rfl
@[simp] theorem State.raiseVector_clk {s : State} {v : Nat} : (s.raiseVector v).clk = s.clk := by
  unfold State.raiseVector; split <;> (try split) <;> rfl
@[simp] theorem State.raiseVector_integ {s : State} {v : Nat} : (s.raiseVector v).integ = s.integ := by
  unfold State.raiseVector; split <;> (try split) <;> rfl
@[simp] theorem State.raiseVector_recov {s : State} {v : Nat} : (s.raiseVector v).recov = s.recov := by
  unfold State.raiseVector; split <;> (try split) <;> rfl
@[simp] theorem State.raiseVector_obs {s : State} {v : Nat} : (s.raiseVector v).obs = s.obs := by
  unfold State.raiseVector; split <;> (try split) <;> rfl
@[simp] theorem State.raiseVector_mesh {s : State} {v : Nat} : (s.raiseVector v).mesh = s.mesh := by
  unfold State.raiseVector; split <;> (try split) <;> rfl

@[simp] theorem State.raiseDevice_pending {s : State} {n : Nat} : (s.raiseDevice n).pending = s.pending := by
  unfold State.raiseDevice; dsimp only; split <;> simp
@[simp] theorem State.raiseDevice_time {s : State} {n : Nat} : (s.raiseDevice n).time = s.time := by
  unfold State.raiseDevice; dsimp only; split <;> simp
@[simp] theorem State.raiseDevice_freeIndex {s : State} {n : Nat} : (s.raiseDevice n).freeIndex = s.freeIndex := by
  unfold State.raiseDevice; dsimp only; split <;> simp
@[simp] theorem State.raiseDevice_build {s : State} {n : Nat} : (s.raiseDevice n).build = s.build := by
  unfold State.raiseDevice; dsimp only; split <;> simp
@[simp] theorem State.raiseDevice_mem {s : State} {n : Nat} : (s.raiseDevice n).mem = s.mem := by
  unfold State.raiseDevice; dsimp only; split <;> simp
@[simp] theorem State.raiseDevice_codeErr {s : State} {n : Nat} : (s.raiseDevice n).codeErr = s.codeErr := by
  unfold State.raiseDevice; dsimp only; split <;> simp
@[simp] theorem State.raiseDevice_interleave {s : State} {n : Nat} : (s.raiseDevice n).interleave = s.interleave := by
  unfold State.raiseDevice; dsimp only; split <;> simp
@[simp] theorem State.raiseDevice_cores {s : State} {n : Nat} : (s.raiseDevice n).cores = s.cores := by
  unfold State.raiseDevice; dsimp only; split <;> simp
@[simp] theorem State.raiseDevice_net {s : State} {n : Nat} : (s.raiseDevice n).net = s.net := by
  unfold State.raiseDevice; dsimp only; split <;> simp
@[simp] theorem State.raiseDevice_wafer {s : State} {n : Nat} : (s.raiseDevice n).wafer = s.wafer := by
  unfold State.raiseDevice; dsimp only; split <;> simp
@[simp] theorem State.raiseDevice_stackSites {s : State} {n : Nat} : (s.raiseDevice n).stackSites = s.stackSites := by
  unfold State.raiseDevice; dsimp only; split <;> simp
@[simp] theorem State.raiseDevice_jobs {s : State} {n : Nat} : (s.raiseDevice n).jobs = s.jobs := by
  unfold State.raiseDevice; dsimp only; split <;> simp
@[simp] theorem State.raiseDevice_fabric {s : State} {n : Nat} : (s.raiseDevice n).fabric = s.fabric := by
  unfold State.raiseDevice; dsimp only; split <;> simp
@[simp] theorem State.raiseDevice_sec {s : State} {n : Nat} : (s.raiseDevice n).sec = s.sec := by
  unfold State.raiseDevice; dsimp only; split <;> simp
@[simp] theorem State.raiseDevice_clk {s : State} {n : Nat} : (s.raiseDevice n).clk = s.clk := by
  unfold State.raiseDevice; dsimp only; split <;> simp
@[simp] theorem State.raiseDevice_integ {s : State} {n : Nat} : (s.raiseDevice n).integ = s.integ := by
  unfold State.raiseDevice; dsimp only; split <;> simp
@[simp] theorem State.raiseDevice_recov {s : State} {n : Nat} : (s.raiseDevice n).recov = s.recov := by
  unfold State.raiseDevice; dsimp only; split <;> simp
@[simp] theorem State.raiseDevice_obs {s : State} {n : Nat} : (s.raiseDevice n).obs = s.obs := by
  unfold State.raiseDevice; dsimp only; split <;> simp
@[simp] theorem State.raiseDevice_mesh {s : State} {n : Nat} : (s.raiseDevice n).mesh = s.mesh := by
  unfold State.raiseDevice; dsimp only; split <;> simp

@[simp] theorem State.updateAlert_pending {s : State} : (s.updateAlert).pending = s.pending := by
  unfold State.updateAlert; dsimp only; split <;> simp
@[simp] theorem State.updateAlert_time {s : State} : (s.updateAlert).time = s.time := by
  unfold State.updateAlert; dsimp only; split <;> simp
@[simp] theorem State.updateAlert_freeIndex {s : State} : (s.updateAlert).freeIndex = s.freeIndex := by
  unfold State.updateAlert; dsimp only; split <;> simp
@[simp] theorem State.updateAlert_build {s : State} : (s.updateAlert).build = s.build := by
  unfold State.updateAlert; dsimp only; split <;> simp
@[simp] theorem State.updateAlert_mem {s : State} : (s.updateAlert).mem = s.mem := by
  unfold State.updateAlert; dsimp only; split <;> simp
@[simp] theorem State.updateAlert_codeErr {s : State} : (s.updateAlert).codeErr = s.codeErr := by
  unfold State.updateAlert; dsimp only; split <;> simp
@[simp] theorem State.updateAlert_interleave {s : State} : (s.updateAlert).interleave = s.interleave := by
  unfold State.updateAlert; dsimp only; split <;> simp
@[simp] theorem State.updateAlert_cores {s : State} : (s.updateAlert).cores = s.cores := by
  unfold State.updateAlert; dsimp only; split <;> simp
@[simp] theorem State.updateAlert_net {s : State} : (s.updateAlert).net = s.net := by
  unfold State.updateAlert; dsimp only; split <;> simp
@[simp] theorem State.updateAlert_wafer {s : State} : (s.updateAlert).wafer = s.wafer := by
  unfold State.updateAlert; dsimp only; split <;> simp
@[simp] theorem State.updateAlert_stackSites {s : State} : (s.updateAlert).stackSites = s.stackSites := by
  unfold State.updateAlert; dsimp only; split <;> simp
@[simp] theorem State.updateAlert_jobs {s : State} : (s.updateAlert).jobs = s.jobs := by
  unfold State.updateAlert; dsimp only; split <;> simp
@[simp] theorem State.updateAlert_fabric {s : State} : (s.updateAlert).fabric = s.fabric := by
  unfold State.updateAlert; dsimp only; split <;> simp
@[simp] theorem State.updateAlert_host {s : State} : (s.updateAlert).host = s.host := by
  unfold State.updateAlert; dsimp only; split <;> simp
@[simp] theorem State.updateAlert_sec {s : State} : (s.updateAlert).sec = s.sec := by
  unfold State.updateAlert; dsimp only; split <;> simp
@[simp] theorem State.updateAlert_clk {s : State} : (s.updateAlert).clk = s.clk := by
  unfold State.updateAlert; dsimp only; split <;> simp
@[simp] theorem State.updateAlert_integ {s : State} : (s.updateAlert).integ = s.integ := by
  unfold State.updateAlert; dsimp only; split <;> simp
@[simp] theorem State.updateAlert_recov {s : State} : (s.updateAlert).recov = s.recov := by
  unfold State.updateAlert; dsimp only; split <;> simp
@[simp] theorem State.updateAlert_obs {s : State} : (s.updateAlert).obs = s.obs := by
  unfold State.updateAlert; dsimp only; split <;> simp
@[simp] theorem State.updateAlert_mesh {s : State} : (s.updateAlert).mesh = s.mesh := by
  unfold State.updateAlert; dsimp only; split <;> simp

@[simp] theorem State.setDev_pending {s : State} {d : DevState} : (s.setDev d).pending = s.pending := by
  simp [State.setDev]
@[simp] theorem State.setDev_time {s : State} {d : DevState} : (s.setDev d).time = s.time := by
  simp [State.setDev]
@[simp] theorem State.setDev_freeIndex {s : State} {d : DevState} : (s.setDev d).freeIndex = s.freeIndex := by
  simp [State.setDev]
@[simp] theorem State.setDev_build {s : State} {d : DevState} : (s.setDev d).build = s.build := by
  simp [State.setDev]
@[simp] theorem State.setDev_mem {s : State} {d : DevState} : (s.setDev d).mem = s.mem := by
  simp [State.setDev]
@[simp] theorem State.setDev_codeErr {s : State} {d : DevState} : (s.setDev d).codeErr = s.codeErr := by
  simp [State.setDev]
@[simp] theorem State.setDev_interleave {s : State} {d : DevState} : (s.setDev d).interleave = s.interleave := by
  simp [State.setDev]
@[simp] theorem State.setDev_cores {s : State} {d : DevState} : (s.setDev d).cores = s.cores := by
  simp [State.setDev]
@[simp] theorem State.setDev_net {s : State} {d : DevState} : (s.setDev d).net = s.net := by
  simp [State.setDev]
@[simp] theorem State.setDev_wafer {s : State} {d : DevState} : (s.setDev d).wafer = s.wafer := by
  simp [State.setDev]
@[simp] theorem State.setDev_stackSites {s : State} {d : DevState} : (s.setDev d).stackSites = s.stackSites := by
  simp [State.setDev]
@[simp] theorem State.setDev_jobs {s : State} {d : DevState} : (s.setDev d).jobs = s.jobs := by
  simp [State.setDev]
@[simp] theorem State.setDev_fabric {s : State} {d : DevState} : (s.setDev d).fabric = s.fabric := by
  simp [State.setDev]
@[simp] theorem State.setDev_sec {s : State} {d : DevState} : (s.setDev d).sec = s.sec := by
  simp [State.setDev]
@[simp] theorem State.setDev_clk {s : State} {d : DevState} : (s.setDev d).clk = s.clk := by
  simp [State.setDev]
@[simp] theorem State.setDev_integ {s : State} {d : DevState} : (s.setDev d).integ = s.integ := by
  simp [State.setDev]
@[simp] theorem State.setDev_recov {s : State} {d : DevState} : (s.setDev d).recov = s.recov := by
  simp [State.setDev]
@[simp] theorem State.setDev_obs {s : State} {d : DevState} : (s.setDev d).obs = s.obs := by
  simp [State.setDev]
@[simp] theorem State.setDev_mesh {s : State} {d : DevState} : (s.setDev d).mesh = s.mesh := by
  simp [State.setDev]

@[simp] theorem State.setJob_pending {s : State} {j : Nat} {v : Job} : (s.setJob j v).pending = s.pending := by
  unfold State.setJob; split <;> simp
@[simp] theorem State.setJob_time {s : State} {j : Nat} {v : Job} : (s.setJob j v).time = s.time := by
  unfold State.setJob; split <;> simp
@[simp] theorem State.setJob_freeIndex {s : State} {j : Nat} {v : Job} : (s.setJob j v).freeIndex = s.freeIndex := by
  unfold State.setJob; split <;> simp
@[simp] theorem State.setJob_build {s : State} {j : Nat} {v : Job} : (s.setJob j v).build = s.build := by
  unfold State.setJob; split <;> simp
@[simp] theorem State.setJob_mem {s : State} {j : Nat} {v : Job} : (s.setJob j v).mem = s.mem := by
  unfold State.setJob; split <;> simp
@[simp] theorem State.setJob_codeErr {s : State} {j : Nat} {v : Job} : (s.setJob j v).codeErr = s.codeErr := by
  unfold State.setJob; split <;> simp
@[simp] theorem State.setJob_interleave {s : State} {j : Nat} {v : Job} : (s.setJob j v).interleave = s.interleave := by
  unfold State.setJob; split <;> simp
@[simp] theorem State.setJob_cores {s : State} {j : Nat} {v : Job} : (s.setJob j v).cores = s.cores := by
  unfold State.setJob; split <;> simp
@[simp] theorem State.setJob_net {s : State} {j : Nat} {v : Job} : (s.setJob j v).net = s.net := by
  unfold State.setJob; split <;> simp
@[simp] theorem State.setJob_wafer {s : State} {j : Nat} {v : Job} : (s.setJob j v).wafer = s.wafer := by
  unfold State.setJob; split <;> simp
@[simp] theorem State.setJob_stackSites {s : State} {j : Nat} {v : Job} : (s.setJob j v).stackSites = s.stackSites := by
  unfold State.setJob; split <;> simp
@[simp] theorem State.setJob_fabric {s : State} {j : Nat} {v : Job} : (s.setJob j v).fabric = s.fabric := by
  unfold State.setJob; split <;> simp
@[simp] theorem State.setJob_sec {s : State} {j : Nat} {v : Job} : (s.setJob j v).sec = s.sec := by
  unfold State.setJob; split <;> simp
@[simp] theorem State.setJob_clk {s : State} {j : Nat} {v : Job} : (s.setJob j v).clk = s.clk := by
  unfold State.setJob; split <;> simp
@[simp] theorem State.setJob_integ {s : State} {j : Nat} {v : Job} : (s.setJob j v).integ = s.integ := by
  unfold State.setJob; split <;> simp
@[simp] theorem State.setJob_recov {s : State} {j : Nat} {v : Job} : (s.setJob j v).recov = s.recov := by
  unfold State.setJob; split <;> simp
@[simp] theorem State.setJob_obs {s : State} {j : Nat} {v : Job} : (s.setJob j v).obs = s.obs := by
  unfold State.setJob; split <;> simp
@[simp] theorem State.setJob_mesh {s : State} {j : Nat} {v : Job} : (s.setJob j v).mesh = s.mesh := by
  unfold State.setJob; split <;> simp

@[simp] theorem State.modJob_pending {s : State} {j : Nat} {f : Job → Job} : (s.modJob j f).pending = s.pending := by
  simp [State.modJob]
@[simp] theorem State.modJob_time {s : State} {j : Nat} {f : Job → Job} : (s.modJob j f).time = s.time := by
  simp [State.modJob]
@[simp] theorem State.modJob_freeIndex {s : State} {j : Nat} {f : Job → Job} : (s.modJob j f).freeIndex = s.freeIndex := by
  simp [State.modJob]
@[simp] theorem State.modJob_build {s : State} {j : Nat} {f : Job → Job} : (s.modJob j f).build = s.build := by
  simp [State.modJob]
@[simp] theorem State.modJob_mem {s : State} {j : Nat} {f : Job → Job} : (s.modJob j f).mem = s.mem := by
  simp [State.modJob]
@[simp] theorem State.modJob_codeErr {s : State} {j : Nat} {f : Job → Job} : (s.modJob j f).codeErr = s.codeErr := by
  simp [State.modJob]
@[simp] theorem State.modJob_interleave {s : State} {j : Nat} {f : Job → Job} : (s.modJob j f).interleave = s.interleave := by
  simp [State.modJob]
@[simp] theorem State.modJob_cores {s : State} {j : Nat} {f : Job → Job} : (s.modJob j f).cores = s.cores := by
  simp [State.modJob]
@[simp] theorem State.modJob_net {s : State} {j : Nat} {f : Job → Job} : (s.modJob j f).net = s.net := by
  simp [State.modJob]
@[simp] theorem State.modJob_wafer {s : State} {j : Nat} {f : Job → Job} : (s.modJob j f).wafer = s.wafer := by
  simp [State.modJob]
@[simp] theorem State.modJob_stackSites {s : State} {j : Nat} {f : Job → Job} : (s.modJob j f).stackSites = s.stackSites := by
  simp [State.modJob]
@[simp] theorem State.modJob_fabric {s : State} {j : Nat} {f : Job → Job} : (s.modJob j f).fabric = s.fabric := by
  simp [State.modJob]
@[simp] theorem State.modJob_sec {s : State} {j : Nat} {f : Job → Job} : (s.modJob j f).sec = s.sec := by
  simp [State.modJob]
@[simp] theorem State.modJob_clk {s : State} {j : Nat} {f : Job → Job} : (s.modJob j f).clk = s.clk := by
  simp [State.modJob]
@[simp] theorem State.modJob_integ {s : State} {j : Nat} {f : Job → Job} : (s.modJob j f).integ = s.integ := by
  simp [State.modJob]
@[simp] theorem State.modJob_recov {s : State} {j : Nat} {f : Job → Job} : (s.modJob j f).recov = s.recov := by
  simp [State.modJob]
@[simp] theorem State.modJob_obs {s : State} {j : Nat} {f : Job → Job} : (s.modJob j f).obs = s.obs := by
  simp [State.modJob]
@[simp] theorem State.modJob_mesh {s : State} {j : Nat} {f : Job → Job} : (s.modJob j f).mesh = s.mesh := by
  simp [State.modJob]

@[simp] theorem State.trace_pending {s : State} {t : Nat} {src : Src} {k p : Nat} : (s.trace t src k p).pending = s.pending := by
  unfold State.trace; dsimp only; repeat' split
  all_goals rfl
@[simp] theorem State.trace_time {s : State} {t : Nat} {src : Src} {k p : Nat} : (s.trace t src k p).time = s.time := by
  unfold State.trace; dsimp only; repeat' split
  all_goals rfl
@[simp] theorem State.trace_freeIndex {s : State} {t : Nat} {src : Src} {k p : Nat} : (s.trace t src k p).freeIndex = s.freeIndex := by
  unfold State.trace; dsimp only; repeat' split
  all_goals rfl
@[simp] theorem State.trace_build {s : State} {t : Nat} {src : Src} {k p : Nat} : (s.trace t src k p).build = s.build := by
  unfold State.trace; dsimp only; repeat' split
  all_goals rfl
@[simp] theorem State.trace_mem {s : State} {t : Nat} {src : Src} {k p : Nat} : (s.trace t src k p).mem = s.mem := by
  unfold State.trace; dsimp only; repeat' split
  all_goals rfl
@[simp] theorem State.trace_codeErr {s : State} {t : Nat} {src : Src} {k p : Nat} : (s.trace t src k p).codeErr = s.codeErr := by
  unfold State.trace; dsimp only; repeat' split
  all_goals rfl
@[simp] theorem State.trace_interleave {s : State} {t : Nat} {src : Src} {k p : Nat} : (s.trace t src k p).interleave = s.interleave := by
  unfold State.trace; dsimp only; repeat' split
  all_goals rfl
@[simp] theorem State.trace_cores {s : State} {t : Nat} {src : Src} {k p : Nat} : (s.trace t src k p).cores = s.cores := by
  unfold State.trace; dsimp only; repeat' split
  all_goals rfl
@[simp] theorem State.trace_net {s : State} {t : Nat} {src : Src} {k p : Nat} : (s.trace t src k p).net = s.net := by
  unfold State.trace; dsimp only; repeat' split
  all_goals rfl
@[simp] theorem State.trace_wafer {s : State} {t : Nat} {src : Src} {k p : Nat} : (s.trace t src k p).wafer = s.wafer := by
  unfold State.trace; dsimp only; repeat' split
  all_goals rfl
@[simp] theorem State.trace_stackSites {s : State} {t : Nat} {src : Src} {k p : Nat} : (s.trace t src k p).stackSites = s.stackSites := by
  unfold State.trace; dsimp only; repeat' split
  all_goals rfl
@[simp] theorem State.trace_jobs {s : State} {t : Nat} {src : Src} {k p : Nat} : (s.trace t src k p).jobs = s.jobs := by
  unfold State.trace; dsimp only; repeat' split
  all_goals rfl
@[simp] theorem State.trace_fabric {s : State} {t : Nat} {src : Src} {k p : Nat} : (s.trace t src k p).fabric = s.fabric := by
  unfold State.trace; dsimp only; repeat' split
  all_goals rfl
@[simp] theorem State.trace_host {s : State} {t : Nat} {src : Src} {k p : Nat} : (s.trace t src k p).host = s.host := by
  unfold State.trace; dsimp only; repeat' split
  all_goals rfl
@[simp] theorem State.trace_regs {s : State} {t : Nat} {src : Src} {k p : Nat} : (s.trace t src k p).regs = s.regs := by
  unfold State.trace; dsimp only; repeat' split
  all_goals rfl
@[simp] theorem State.trace_sec {s : State} {t : Nat} {src : Src} {k p : Nat} : (s.trace t src k p).sec = s.sec := by
  unfold State.trace; dsimp only; repeat' split
  all_goals rfl
@[simp] theorem State.trace_clk {s : State} {t : Nat} {src : Src} {k p : Nat} : (s.trace t src k p).clk = s.clk := by
  unfold State.trace; dsimp only; repeat' split
  all_goals rfl
@[simp] theorem State.trace_integ {s : State} {t : Nat} {src : Src} {k p : Nat} : (s.trace t src k p).integ = s.integ := by
  unfold State.trace; dsimp only; repeat' split
  all_goals rfl
@[simp] theorem State.trace_recov {s : State} {t : Nat} {src : Src} {k p : Nat} : (s.trace t src k p).recov = s.recov := by
  unfold State.trace; dsimp only; repeat' split
  all_goals rfl
@[simp] theorem State.trace_mesh {s : State} {t : Nat} {src : Src} {k p : Nat} : (s.trace t src k p).mesh = s.mesh := by
  unfold State.trace; dsimp only; repeat' split
  all_goals rfl

@[simp] theorem State.event_pending {s : State} {k : EventKind} {src : Src} {l : List (Nat × Nat)} : (s.event k src l).pending = s.pending := by
  unfold State.event; dsimp only; repeat' split
  all_goals first | rfl | simp
@[simp] theorem State.event_time {s : State} {k : EventKind} {src : Src} {l : List (Nat × Nat)} : (s.event k src l).time = s.time := by
  unfold State.event; dsimp only; repeat' split
  all_goals first | rfl | simp
@[simp] theorem State.event_freeIndex {s : State} {k : EventKind} {src : Src} {l : List (Nat × Nat)} : (s.event k src l).freeIndex = s.freeIndex := by
  unfold State.event; dsimp only; repeat' split
  all_goals first | rfl | simp
@[simp] theorem State.event_build {s : State} {k : EventKind} {src : Src} {l : List (Nat × Nat)} : (s.event k src l).build = s.build := by
  unfold State.event; dsimp only; repeat' split
  all_goals first | rfl | simp
@[simp] theorem State.event_mem {s : State} {k : EventKind} {src : Src} {l : List (Nat × Nat)} : (s.event k src l).mem = s.mem := by
  unfold State.event; dsimp only; repeat' split
  all_goals first | rfl | simp
@[simp] theorem State.event_codeErr {s : State} {k : EventKind} {src : Src} {l : List (Nat × Nat)} : (s.event k src l).codeErr = s.codeErr := by
  unfold State.event; dsimp only; repeat' split
  all_goals first | rfl | simp
@[simp] theorem State.event_interleave {s : State} {k : EventKind} {src : Src} {l : List (Nat × Nat)} : (s.event k src l).interleave = s.interleave := by
  unfold State.event; dsimp only; repeat' split
  all_goals first | rfl | simp
@[simp] theorem State.event_cores {s : State} {k : EventKind} {src : Src} {l : List (Nat × Nat)} : (s.event k src l).cores = s.cores := by
  unfold State.event; dsimp only; repeat' split
  all_goals first | rfl | simp
@[simp] theorem State.event_net {s : State} {k : EventKind} {src : Src} {l : List (Nat × Nat)} : (s.event k src l).net = s.net := by
  unfold State.event; dsimp only; repeat' split
  all_goals first | rfl | simp
@[simp] theorem State.event_wafer {s : State} {k : EventKind} {src : Src} {l : List (Nat × Nat)} : (s.event k src l).wafer = s.wafer := by
  unfold State.event; dsimp only; repeat' split
  all_goals first | rfl | simp
@[simp] theorem State.event_stackSites {s : State} {k : EventKind} {src : Src} {l : List (Nat × Nat)} : (s.event k src l).stackSites = s.stackSites := by
  unfold State.event; dsimp only; repeat' split
  all_goals first | rfl | simp
@[simp] theorem State.event_jobs {s : State} {k : EventKind} {src : Src} {l : List (Nat × Nat)} : (s.event k src l).jobs = s.jobs := by
  unfold State.event; dsimp only; repeat' split
  all_goals first | rfl | simp
@[simp] theorem State.event_fabric {s : State} {k : EventKind} {src : Src} {l : List (Nat × Nat)} : (s.event k src l).fabric = s.fabric := by
  unfold State.event; dsimp only; repeat' split
  all_goals first | rfl | simp
@[simp] theorem State.event_host {s : State} {k : EventKind} {src : Src} {l : List (Nat × Nat)} : (s.event k src l).host = s.host := by
  unfold State.event; dsimp only; repeat' split
  all_goals first | rfl | simp
@[simp] theorem State.event_sec {s : State} {k : EventKind} {src : Src} {l : List (Nat × Nat)} : (s.event k src l).sec = s.sec := by
  unfold State.event; dsimp only; repeat' split
  all_goals first | rfl | simp
@[simp] theorem State.event_clk {s : State} {k : EventKind} {src : Src} {l : List (Nat × Nat)} : (s.event k src l).clk = s.clk := by
  unfold State.event; dsimp only; repeat' split
  all_goals first | rfl | simp
@[simp] theorem State.event_integ {s : State} {k : EventKind} {src : Src} {l : List (Nat × Nat)} : (s.event k src l).integ = s.integ := by
  unfold State.event; dsimp only; repeat' split
  all_goals first | rfl | simp
@[simp] theorem State.event_recov {s : State} {k : EventKind} {src : Src} {l : List (Nat × Nat)} : (s.event k src l).recov = s.recov := by
  unfold State.event; dsimp only; repeat' split
  all_goals first | rfl | simp
@[simp] theorem State.event_mesh {s : State} {k : EventKind} {src : Src} {l : List (Nat × Nat)} : (s.event k src l).mesh = s.mesh := by
  unfold State.event; dsimp only; repeat' split
  all_goals first | rfl | simp

@[simp] theorem State.record_pending {s : State} {k : EventKind} {src : Src} {l : List (Nat × Nat)} : (s.record k src l).pending = s.pending := by
  simp [State.record]
@[simp] theorem State.record_time {s : State} {k : EventKind} {src : Src} {l : List (Nat × Nat)} : (s.record k src l).time = s.time := by
  simp [State.record]
@[simp] theorem State.record_freeIndex {s : State} {k : EventKind} {src : Src} {l : List (Nat × Nat)} : (s.record k src l).freeIndex = s.freeIndex := by
  simp [State.record]
@[simp] theorem State.record_build {s : State} {k : EventKind} {src : Src} {l : List (Nat × Nat)} : (s.record k src l).build = s.build := by
  simp [State.record]
@[simp] theorem State.record_mem {s : State} {k : EventKind} {src : Src} {l : List (Nat × Nat)} : (s.record k src l).mem = s.mem := by
  simp [State.record]
@[simp] theorem State.record_codeErr {s : State} {k : EventKind} {src : Src} {l : List (Nat × Nat)} : (s.record k src l).codeErr = s.codeErr := by
  simp [State.record]
@[simp] theorem State.record_interleave {s : State} {k : EventKind} {src : Src} {l : List (Nat × Nat)} : (s.record k src l).interleave = s.interleave := by
  simp [State.record]
@[simp] theorem State.record_cores {s : State} {k : EventKind} {src : Src} {l : List (Nat × Nat)} : (s.record k src l).cores = s.cores := by
  simp [State.record]
@[simp] theorem State.record_net {s : State} {k : EventKind} {src : Src} {l : List (Nat × Nat)} : (s.record k src l).net = s.net := by
  simp [State.record]
@[simp] theorem State.record_wafer {s : State} {k : EventKind} {src : Src} {l : List (Nat × Nat)} : (s.record k src l).wafer = s.wafer := by
  simp [State.record]
@[simp] theorem State.record_stackSites {s : State} {k : EventKind} {src : Src} {l : List (Nat × Nat)} : (s.record k src l).stackSites = s.stackSites := by
  simp [State.record]
@[simp] theorem State.record_jobs {s : State} {k : EventKind} {src : Src} {l : List (Nat × Nat)} : (s.record k src l).jobs = s.jobs := by
  simp [State.record]
@[simp] theorem State.record_fabric {s : State} {k : EventKind} {src : Src} {l : List (Nat × Nat)} : (s.record k src l).fabric = s.fabric := by
  simp [State.record]
@[simp] theorem State.record_host {s : State} {k : EventKind} {src : Src} {l : List (Nat × Nat)} : (s.record k src l).host = s.host := by
  simp [State.record]
@[simp] theorem State.record_sec {s : State} {k : EventKind} {src : Src} {l : List (Nat × Nat)} : (s.record k src l).sec = s.sec := by
  simp [State.record]
@[simp] theorem State.record_clk {s : State} {k : EventKind} {src : Src} {l : List (Nat × Nat)} : (s.record k src l).clk = s.clk := by
  simp [State.record]
@[simp] theorem State.record_integ {s : State} {k : EventKind} {src : Src} {l : List (Nat × Nat)} : (s.record k src l).integ = s.integ := by
  simp [State.record]
@[simp] theorem State.record_recov {s : State} {k : EventKind} {src : Src} {l : List (Nat × Nat)} : (s.record k src l).recov = s.recov := by
  simp [State.record]
@[simp] theorem State.record_mesh {s : State} {k : EventKind} {src : Src} {l : List (Nat × Nat)} : (s.record k src l).mesh = s.mesh := by
  simp [State.record]

@[simp] theorem State.unmapped_pending {s : State} {src : Src} {a : Nat} {w : Bool} : (s.unmapped src a w).pending = s.pending := by
  simp [State.unmapped]
@[simp] theorem State.unmapped_time {s : State} {src : Src} {a : Nat} {w : Bool} : (s.unmapped src a w).time = s.time := by
  simp [State.unmapped]
@[simp] theorem State.unmapped_freeIndex {s : State} {src : Src} {a : Nat} {w : Bool} : (s.unmapped src a w).freeIndex = s.freeIndex := by
  simp [State.unmapped]
@[simp] theorem State.unmapped_build {s : State} {src : Src} {a : Nat} {w : Bool} : (s.unmapped src a w).build = s.build := by
  simp [State.unmapped]
@[simp] theorem State.unmapped_mem {s : State} {src : Src} {a : Nat} {w : Bool} : (s.unmapped src a w).mem = s.mem := by
  simp [State.unmapped]
@[simp] theorem State.unmapped_codeErr {s : State} {src : Src} {a : Nat} {w : Bool} : (s.unmapped src a w).codeErr = s.codeErr := by
  simp [State.unmapped]
@[simp] theorem State.unmapped_interleave {s : State} {src : Src} {a : Nat} {w : Bool} : (s.unmapped src a w).interleave = s.interleave := by
  simp [State.unmapped]
@[simp] theorem State.unmapped_cores {s : State} {src : Src} {a : Nat} {w : Bool} : (s.unmapped src a w).cores = s.cores := by
  simp [State.unmapped]
@[simp] theorem State.unmapped_net {s : State} {src : Src} {a : Nat} {w : Bool} : (s.unmapped src a w).net = s.net := by
  simp [State.unmapped]
@[simp] theorem State.unmapped_wafer {s : State} {src : Src} {a : Nat} {w : Bool} : (s.unmapped src a w).wafer = s.wafer := by
  simp [State.unmapped]
@[simp] theorem State.unmapped_stackSites {s : State} {src : Src} {a : Nat} {w : Bool} : (s.unmapped src a w).stackSites = s.stackSites := by
  simp [State.unmapped]
@[simp] theorem State.unmapped_jobs {s : State} {src : Src} {a : Nat} {w : Bool} : (s.unmapped src a w).jobs = s.jobs := by
  simp [State.unmapped]
@[simp] theorem State.unmapped_fabric {s : State} {src : Src} {a : Nat} {w : Bool} : (s.unmapped src a w).fabric = s.fabric := by
  simp [State.unmapped]
@[simp] theorem State.unmapped_host {s : State} {src : Src} {a : Nat} {w : Bool} : (s.unmapped src a w).host = s.host := by
  simp [State.unmapped]
@[simp] theorem State.unmapped_sec {s : State} {src : Src} {a : Nat} {w : Bool} : (s.unmapped src a w).sec = s.sec := by
  simp [State.unmapped]
@[simp] theorem State.unmapped_clk {s : State} {src : Src} {a : Nat} {w : Bool} : (s.unmapped src a w).clk = s.clk := by
  simp [State.unmapped]
@[simp] theorem State.unmapped_integ {s : State} {src : Src} {a : Nat} {w : Bool} : (s.unmapped src a w).integ = s.integ := by
  simp [State.unmapped]
@[simp] theorem State.unmapped_recov {s : State} {src : Src} {a : Nat} {w : Bool} : (s.unmapped src a w).recov = s.recov := by
  simp [State.unmapped]
@[simp] theorem State.unmapped_mesh {s : State} {src : Src} {a : Nat} {w : Bool} : (s.unmapped src a w).mesh = s.mesh := by
  simp [State.unmapped]

/-! ### What readers find after an update -/

@[simp] theorem State.core_setCore_same {s : State} {i : Nat} {c : Core} : (s.setCore i c).core i = c := by
  simp [State.core, State.setCore]

theorem State.core_setCore_ne {s : State} {i j : Nat} {c : Core} (h : j ≠ i) : (s.setCore i c).core j = s.core j := by
  simp [State.core, State.setCore, Tab.get_set_other _ _ h]

@[simp] theorem State.core_modCore_same {s : State} {i : Nat} {f : Core → Core} : (s.modCore i f).core i = f (s.core i) := by
  simp [State.modCore]

theorem State.core_modCore_ne {s : State} {i j : Nat} {f : Core → Core} (h : j ≠ i) : (s.modCore i f).core j = s.core j := by
  simp [State.modCore, State.core_setCore_ne h]

@[simp] theorem Core.ctx_setCtx_same {c : Core} {k : Nat} {x : Ctx} : (c.setCtx k x).ctx k = x := by
  simp [Core.ctx, Core.setCtx]

theorem Core.ctx_setCtx_ne {c : Core} {k m : Nat} {x : Ctx} (h : m ≠ k) : (c.setCtx k x).ctx m = c.ctx m := by
  simp [Core.ctx, Core.setCtx, Tab.get_set_other _ _ h]

@[simp] theorem Core.sem_setSem_same {c : Core} {k : Nat} {x : Sem} : (c.setSem k x).sem k = x := by
  simp [Core.sem, Core.setSem]

theorem Core.sem_setSem_ne {c : Core} {k m : Nat} {x : Sem} (h : m ≠ k) : (c.setSem k x).sem m = c.sem m := by
  simp [Core.sem, Core.setSem, Tab.get_set_other _ _ h]

@[simp] theorem Core.stream_setStream_same {c : Core} {k : Nat} {x : Stream} : (c.setStream k x).stream k = x := by
  simp [Core.stream, Core.setStream]

theorem Core.stream_setStream_ne {c : Core} {k m : Nat} {x : Stream} (h : m ≠ k) :
    (c.setStream k x).stream m = c.stream m := by
  simp [Core.stream, Core.setStream, Tab.get_set_other _ _ h]

@[simp] theorem Core.entry_setEntry_same {c : Core} {k : Nat} {x : TqEntry} : (c.setEntry k x).entry k = x := by
  simp [Core.entry, Core.setEntry]

@[simp] theorem Core.join_setJoin_same {c : Core} {k : Nat} {x : Join} : (c.setJoin k x).join k = x := by
  simp [Core.join, Core.setJoin]

@[simp] theorem State.ctx_modCtx_same {s : State} {c k : Nat} {f : Ctx → Ctx} :
    (s.modCtx c k f).ctx c k = f (s.ctx c k) := by
  simp [State.ctx, State.modCtx]

theorem State.ctx_modCtx_ne {s : State} {c k m : Nat} {f : Ctx → Ctx} (h : m ≠ k) :
    (s.modCtx c k f).ctx c m = s.ctx c m := by
  simp [State.ctx, State.modCtx, Core.ctx_setCtx_ne h]

@[simp] theorem State.job_putJob_same {s : State} {j : Nat} {v : Job} : (s.putJob j v).job j = v := by
  simp [State.job, State.putJob]

theorem State.job_putJob_ne {s : State} {i j : Nat} {v : Job} (h : j ≠ i) : (s.putJob i v).job j = s.job j := by
  simp [State.job, State.putJob, Tab.get_set_other _ _ h]

/-- A reader of the cores sees what the cores are. -/
theorem State.core_congr {s t : State} (h : t.cores = s.cores) (i : Nat) : t.core i = s.core i := by
  simp [State.core, h]

theorem State.job_congr {s t : State} (h : t.jobs = s.jobs) (j : Nat) : t.job j = s.job j := by
  simp [State.job, h]

@[simp] theorem State.job_setJob_same {s : State} {j : Nat} {v : Job} : (s.setJob j v).job j = v := by
  unfold State.setJob
  split
  · simp
  · rw [State.job_congr (s := s.putJob j v) (by simp)]
    simp

theorem State.job_setJob_ne {s : State} {i j : Nat} {v : Job} (h : j ≠ i) : (s.setJob i v).job j = s.job j := by
  unfold State.setJob
  split
  · exact State.job_putJob_ne h
  · rw [State.job_congr (s := s.putJob i v) (by simp)]
    exact State.job_putJob_ne h

@[simp] theorem State.job_modJob_same {s : State} {j : Nat} {f : Job → Job} : (s.modJob j f).job j = f (s.job j) := by
  simp [State.modJob]

theorem State.job_modJob_ne {s : State} {i j : Nat} {f : Job → Job} (h : j ≠ i) : (s.modJob i f).job j = s.job j := by
  simp [State.modJob, State.job_setJob_ne h]

@[simp] theorem State.core_record {s : State} {k : EventKind} {src : Src} {l : List (Nat × Nat)} (i : Nat) :
    (s.record k src l).core i = s.core i := State.core_congr (by simp) i

@[simp] theorem State.core_trace {s : State} {t : Nat} {src : Src} {k p : Nat} (i : Nat) :
    (s.trace t src k p).core i = s.core i := State.core_congr (by simp) i

@[simp] theorem State.job_record {s : State} {k : EventKind} {src : Src} {l : List (Nat × Nat)} (j : Nat) :
    (s.record k src l).job j = s.job j := State.job_congr (by simp) j

@[simp] theorem State.job_modCore {s : State} {i : Nat} {f : Core → Core} (j : Nat) :
    (s.modCore i f).job j = s.job j := rfl

@[simp] theorem State.core_setJob {s : State} {j : Nat} {v : Job} (i : Nat) : (s.setJob j v).core i = s.core i :=
  State.core_congr (by simp) i

@[simp] theorem State.core_modJob {s : State} {j : Nat} {f : Job → Job} (i : Nat) : (s.modJob j f).core i = s.core i :=
  State.core_congr (by simp) i

/-! ### Memory -/

/-- A byte outside a store reads as before. -/
theorem State.byte_store_out {s : State} {a b : Nat} {bs : List Byte} (h : b < a ∨ a + bs.length ≤ b) :
    (s.store a bs).byte b = s.byte b := Tab.get_setRange_out _ _ _ _ h

/-- A stored extent reads as stored. -/
theorem State.bytes_store {s : State} {a : Nat} {bs : List Byte} : (s.store a bs).bytes a bs.length = bs :=
  Tab.getRange_setRange _ _ _

theorem State.byte_storeHost_out {s : State} {a b : Nat} {bs : List Byte} (h : b < a ∨ a + bs.length ≤ b) :
    (s.storeHost a bs).byte b = s.byte b := Tab.get_setRange_out _ _ _ _ h

theorem State.bytes_storeHost {s : State} {a : Nat} {bs : List Byte} : (s.storeHost a bs).bytes a bs.length = bs :=
  Tab.getRange_setRange _ _ _

/-! ### Registers of a context (R171) -/

@[simp] theorem Ctx.reg_zero {x : Ctx} : x.reg 0 = 0 := rfl

theorem Ctx.reg_setReg {x : Ctx} {r n : Nat} {v : Word64} :
    (x.setReg r v).reg n = if n = r then (if r = 0 then 0 else v) else x.reg n := by
  unfold Ctx.setReg Ctx.reg
  by_cases h : r = 0
  · subst r
    by_cases e : n = 0 <;> simp [e]
  · by_cases e : n = r
    · subst n
      simp [h]
    · simp [h, e, Tab.get_set_other _ _ e]

/-! ### The event log (R594 to R598) -/

/-- An event is the last one of a log that has room. -/
theorem State.event_last {s : State} {k : EventKind} {src : Src} {l : List (Nat × Nat)} (hf : s.obs.full = false)
    (hl : s.obs.log.length < logCapacity) :
    lastEvent (s.event k src l).obs.log = some (k, src.kind, src.num, payload l) := by
  unfold State.event lastEvent
  simp only [hf, Bool.false_eq_true, if_false]
  split
  · rename_i r hr
    split
    · rename_i hs
      simp only [Record.same, Bool.and_eq_true, decide_eq_true_eq] at hs
      simp [hs]
    · rw [if_neg (Nat.ne_of_lt hl)]
      simp
  · simp

@[simp] theorem State.trace_log {s : State} {t : Nat} {src : Src} {k p : Nat} : (s.trace t src k p).obs.log = s.obs.log := by
  unfold State.trace; dsimp only; repeat' split
  all_goals rfl

@[simp] theorem State.trace_full {s : State} {t : Nat} {src : Src} {k p : Nat} :
    (s.trace t src k p).obs.full = s.obs.full := by
  unfold State.trace; dsimp only; repeat' split
  all_goals rfl

theorem State.record_last {s : State} {k : EventKind} {src : Src} {l : List (Nat × Nat)} (hf : s.obs.full = false)
    (hl : s.obs.log.length < logCapacity) :
    lastEvent (s.record k src l).obs.log = some (k, src.kind, src.num, payload l) := by
  rw [State.record, State.trace_log, State.event_last hf hl]

end Sys2Proof.Machine
end

