-- ==== Sys2Proof/Laws/Issue.lean ====
section
/-! SUPPORT. What taking a head does: a legal head of a context that issues acts, and all that it changes by itself is the
context's PC and a register. -/

set_option Elab.async false

namespace Sys2Proof.Machine

theorem head_issues {s : State} {h : Hart} (e : HasHead s h) : (s.ctx h.core.toNat h.ctx.toNat).issues = true := by
  simp [Ctx.issues, e.1, e.2.1]

theorem head_inCode {s : State} {h : Hart} (e : HasHead s h) :
    (s.ctx h.core.toNat h.ctx.toNat).inCode (s.ctx h.core.toNat h.ctx.toNat).pc = true := by
  simp [Ctx.inCode, e.2.2.1, e.2.2.2]

/-- A legal head acts. -/
theorem State.onHead_acts {s : State} {h : Hart} {w : Word64} {m : Bool} {f : State → Ctx → State} (e : HasHead s h) :
    s.onHead h w true m f = f s (s.ctx h.core.toNat h.ctx.toNat) := by
  simp [State.onHead, head_issues e, head_inCode e, e.2.2.2.2]

/-- An illegal word faults. -/
theorem State.onHead_illegal {s : State} {h : Hart} {w : Word64} {m : Bool} {f : State → Ctx → State} (e : HasHead s h) :
    s.onHead h w false m f = s.illegal h w := by
  simp [State.onHead, head_issues e, head_inCode e, e.2.2.2.2]

theorem State.trace_only {s : State} {t : Nat} {src : Src} {k p : Nat} :
    (s.trace t src k p).obs = { s.obs with
      trace := (s.trace t src k p).obs.trace, trDrop := (s.trace t src k p).obs.trDrop } := by
  unfold State.trace
  dsimp only
  repeat' split
  all_goals rfl

theorem State.trace_state {s : State} {t : Nat} {src : Src} {k p : Nat} :
    s.trace t src k p = { s with obs := (s.trace t src k p).obs } := by
  unfold State.trace
  dsimp only
  repeat' split
  all_goals rfl

@[simp] theorem State.ctx_trace {s : State} {t : Nat} {src : Src} {k p : Nat} (c m : Nat) :
    (s.trace t src k p).ctx c m = s.ctx c m := by
  simp [State.ctx]

@[simp] theorem State.ctx_record {s : State} {e : EventKind} {src : Src} {l : List (Nat × Nat)} (c m : Nat) :
    (s.record e src l).ctx c m = s.ctx c m := by
  simp [State.ctx]

/-! ### A unit takes a head (R178) -/

@[simp] theorem Core.tookHead_scalar {c : Core} {k : Nat} : c.tookHead uScalar k = c := rfl

/-- Only the order of one unit and the refusals of one context change. -/
theorem Core.tookHead_only {c : Core} {u k : Nat} :
    c.tookHead u k = { c with
      ctxs := (c.tookHead u k).ctxs, lastTaken := (c.tookHead u k).lastTaken, turn := (c.tookHead u k).turn } := by
  unfold Core.tookHead
  split <;> rfl

theorem Core.tookHead_shared {c : Core} {u k : Nat} (h : u ≠ uScalar) :
    (c.tookHead u k).ctx k = { c.ctx k with refused := Tab.set 0 (c.ctx k).refused u 0 } := by
  unfold Core.tookHead
  rw [if_neg h]
  exact Core.ctx_setCtx_same

theorem Core.tookHead_ctx {c : Core} {u k : Nat} :
    (c.tookHead u k).ctx k = { c.ctx k with refused := ((c.tookHead u k).ctx k).refused } := by
  by_cases h : u = uScalar
  · subst h; rfl
  · rw [Core.tookHead_shared h]

theorem Core.tookHead_ctx_ne {c : Core} {u k m : Nat} (h : m ≠ k) : (c.tookHead u k).ctx m = c.ctx m := by
  unfold Core.tookHead
  split
  · rfl
  · exact Core.ctx_setCtx_ne h

/-- Taking a head after a change of contexts that leaves the refusals of the taker. -/
theorem Core.tookHead_upd {c : Core} {u k : Nat} {f : Ctx → Ctx} (hf : (f (c.ctx k)).refused = (c.ctx k).refused) :
    ((c.setCtx k (f (c.ctx k))).tookHead u k).ctx k =
        { f (c.ctx k) with refused := ((c.tookHead u k).ctx k).refused } ∧
      (c.setCtx k (f (c.ctx k))).tookHead u k =
        { c.tookHead u k with ctxs := ((c.setCtx k (f (c.ctx k))).tookHead u k).ctxs } := by
  by_cases hu : u = uScalar
  · subst hu
    refine ⟨?_, rfl⟩
    rw [Core.tookHead_scalar, Core.tookHead_scalar, Core.ctx_setCtx_same, ← hf]
  · refine ⟨?_, ?_⟩
    · rw [Core.tookHead_shared hu, Core.tookHead_shared hu, Core.ctx_setCtx_same, hf]
    · unfold Core.tookHead
      rw [if_neg hu, if_neg hu]
      rfl

/-- Trace records, an update of one context, and its unit's order. -/
theorem contextOnly_took {s : State} {h : Hart} {t u : Nat} {src : Src} {k p : Nat} {f : Ctx → Ctx}
    (hf : (f (s.ctx h.core.toNat h.ctx.toNat)).refused = (s.ctx h.core.toNat h.ctx.toNat).refused) :
    ContextOnly s (((s.trace t src k p).modCtx h.core.toNat h.ctx.toNat f).modCore h.core.toNat
      (fun y => y.tookHead u h.ctx.toNat)) h u := by
  refine ⟨⟨?_, ?_, ?_⟩, ?_, ?_⟩
  · unfold State.modCtx State.modCore State.setCore
    rw [State.trace_state]
  · exact State.trace_only
  · intro c hc
    rw [State.core_modCore_ne hc, State.modCtx, State.core_modCore_ne hc, State.core_trace]
  · rw [State.core_modCore_same, State.modCtx, State.core_modCore_same, State.core_trace]
    exact (Core.tookHead_upd hf).2
  · intro m hm
    rw [State.ctx, State.core_modCore_same, Core.tookHead_ctx_ne hm]
    rw [State.modCtx, State.core_modCore_same, State.core_trace, Core.ctx_setCtx_ne hm]
    rfl

theorem State.taken_only {s : State} {h : Hart} {u : Nat} {w : Word64} {f : Ctx → Ctx}
    (hf : (f (s.ctx h.core.toNat h.ctx.toNat)).refused = (s.ctx h.core.toNat h.ctx.toNat).refused) :
    ContextOnly s (s.taken h u w f) h u := by
  unfold State.taken
  exact contextOnly_took hf

/-- The context that has been taken. -/
theorem State.taken_ctx {s : State} {h : Hart} {u : Nat} {w : Word64} {f : Ctx → Ctx}
    (hf : (f (s.ctx h.core.toNat h.ctx.toNat)).refused = (s.ctx h.core.toNat h.ctx.toNat).refused) :
    (s.taken h u w f).ctx h.core.toNat h.ctx.toNat = { f (s.ctx h.core.toNat h.ctx.toNat) with
      pc := (s.ctx h.core.toNat h.ctx.toNat).pc + 8
      refused := ((Issued s h u).ctx h.ctx.toNat).refused } := by
  unfold State.taken State.modCtx
  rw [State.ctx, State.core_modCore_same, State.core_modCore_same, State.core_trace]
  exact (Core.tookHead_upd (c := s.core h.core.toNat) (f := fun x => { f x with pc := x.pc + 8 }) hf).1

theorem Issued_ctx {s : State} {h : Hart} {u : Nat} :
    (Issued s h u).ctx h.ctx.toNat =
      { s.ctx h.core.toNat h.ctx.toNat with refused := ((Issued s h u).ctx h.ctx.toNat).refused } :=
  Core.tookHead_ctx

theorem State.takenTo_only {s : State} {h : Hart} {w : Word64} {pc : Nat} {f : Ctx → Ctx} :
    ContextOnly s (s.takenTo h w pc f) h uScalar := by
  refine ⟨⟨?_, ?_, ?_⟩, ?_, ?_⟩
  · unfold State.takenTo State.modCtx State.modCore State.setCore
    dsimp only
    rw [State.trace_state]
  · exact State.trace_only
  · intro c hc
    rw [State.takenTo, State.modCtx, State.core_modCore_ne hc, State.core_trace]
  · rw [State.takenTo, State.modCtx, State.core_modCore_same, State.core_trace]
    rfl
  · intro m hm
    rw [State.takenTo, State.ctx_modCtx_ne hm, State.ctx_trace]

theorem Ctx.setReg_refused {x : Ctx} {r : Nat} {v : Word64} : (x.setReg r v).refused = x.refused := by
  unfold Ctx.setReg
  split <;> rfl

/-- A register written in a context that goes on. -/
theorem Ctx.wrote {x y : Ctx} {sd : Reg} {v : Word64} {pc : Nat} {q : Tab Nat}
    (e : y = { x.setReg sd.toNat v with pc := pc, refused := q }) :
    y = { x with pc := pc, regs := y.regs, refused := q } ∧ y.reg sd.toNat = (if sd = 0 then 0 else v) ∧
      ∀ r, r ≠ sd.toNat → y.reg r = x.reg r := by
  have hz : (sd.toNat = 0) = (sd = 0) := by simp [BitVec.toNat_eq]
  subst e
  refine ⟨?_, ?_, ?_⟩
  · unfold Ctx.setReg
    split <;> rfl
  · show Ctx.reg (Ctx.setReg _ _ _) _ = _
    rw [Ctx.reg_setReg, if_pos rfl]
    simp only [hz]
  · intro r hr
    show Ctx.reg (Ctx.setReg _ _ _) _ = _
    rw [Ctx.reg_setReg, if_neg hr]

/-- The head is taken with one register written. -/
theorem State.taken_wrote {s : State} {h : Hart} {u : Nat} {w : Word64} {sd : Reg} {v : Word64} :
    Wrote s (s.taken h u w (fun y => y.setReg sd.toNat v)) h u ((s.ctx h.core.toNat h.ctx.toNat).pc + 8) sd v := by
  have k := Ctx.wrote (State.taken_ctx (s := s) (h := h) (u := u) (w := w) (f := fun y => y.setReg sd.toNat v) Ctx.setReg_refused)
  refine ⟨State.taken_only Ctx.setReg_refused, ?_, k.2⟩
  refine k.1.trans ?_
  rw [Issued_ctx (u := u)]

/-- The head is taken and nothing else happens. -/
theorem State.taken_wentTo {s : State} {h : Hart} {u : Nat} {w : Word64} :
    WentTo s (s.taken h u w id) h u ((s.ctx h.core.toNat h.ctx.toNat).pc + 8) := by
  refine ⟨State.taken_only rfl, ?_⟩
  rw [State.taken_ctx rfl, Issued_ctx (u := u)]
  rfl

theorem State.takenTo_wentTo {s : State} {h : Hart} {w : Word64} {pc : Nat} : WentTo s (s.takenTo h w pc id) h uScalar pc := by
  refine ⟨State.takenTo_only, ?_⟩
  dsimp only [State.takenTo]
  rw [State.ctx_modCtx_same, State.ctx_trace]
  rfl

theorem State.takenTo_wrote {s : State} {h : Hart} {w : Word64} {pc : Nat} {sd : Reg} {v : Word64} :
    Wrote s (s.takenTo h w pc (fun y => y.setReg sd.toNat v)) h uScalar pc sd v := by
  have k := Ctx.wrote (x := s.ctx h.core.toNat h.ctx.toNat) (sd := sd) (v := v) (pc := pc)
    (q := (s.ctx h.core.toNat h.ctx.toNat).refused)
    (y := (s.takenTo h w pc (fun y => y.setReg sd.toNat v)).ctx h.core.toNat h.ctx.toNat) (by
      dsimp only [State.takenTo]
      rw [State.ctx_modCtx_same, State.ctx_trace]
      rw [show (s.ctx h.core.toNat h.ctx.toNat).refused = ((s.ctx h.core.toNat h.ctx.toNat).setReg sd.toNat v).refused from
        Ctx.setReg_refused.symm])
  exact ⟨State.takenTo_only, k.1, k.2⟩

end Sys2Proof.Machine
end

