-- ==== Sys2Proof/Laws/Keeps.lean ====
section
/-! SUPPORT. What every operation of the model leaves alone: the build and the queue of commands; and the canonical form of
memory and of its word codes, which every operation keeps. -/

set_option Elab.async false

namespace Sys2Proof.Machine

/-- Memory and the word codes are in canonical form. -/
def MemOk (m : List Host.Cell) (e : Tab (BitVec 288)) : Prop := Memory.wf m = true ∧ Tab.wf 0 e = true

/-- The parts of the state that operations change. -/
inductive Part where
  | time | freeIndex | mem | codeErr | interleave | cores | net | wafer | stackSites | jobs | fabric | host | regs | sec | clk | integ | recov | obs | mesh
  deriving DecidableEq, Repr

/-- A part lies in a set of parts. -/
class Has (μ : Part → Bool) (p : Part) : Prop where
  has : μ p = true

theorem Has.no {μ : Part → Bool} {p : Part} [h : Has μ p] {P : Prop} (e : μ p = false) : P := by
  rw [h.has] at e
  cases e

/-- A state that has come from another by operations of the model that change no part outside a set: the build and the queue
are the same, memory keeps its canonical form, and the registers and the recorder keep their ranges. -/
structure Keeps (μ : Part → Bool) (o t : State) : Prop where
  build : t.build = o.build
  pending : t.pending = o.pending
  mem : MemOk o.mem o.codeErr → MemOk t.mem t.codeErr
  regs : RegsOk o.regs → RegsOk t.regs
  obs : ObsOk o.obs → ObsOk t.obs
  on_time : μ .time = false → t.time = o.time
  on_freeIndex : μ .freeIndex = false → t.freeIndex = o.freeIndex
  on_mem : μ .mem = false → t.mem = o.mem
  on_codeErr : μ .codeErr = false → t.codeErr = o.codeErr
  on_interleave : μ .interleave = false → t.interleave = o.interleave
  on_cores : μ .cores = false → t.cores = o.cores
  on_net : μ .net = false → t.net = o.net
  on_wafer : μ .wafer = false → t.wafer = o.wafer
  on_stackSites : μ .stackSites = false → t.stackSites = o.stackSites
  on_jobs : μ .jobs = false → t.jobs = o.jobs
  on_fabric : μ .fabric = false → t.fabric = o.fabric
  on_host : μ .host = false → t.host = o.host
  on_regs : μ .regs = false → t.regs = o.regs
  on_sec : μ .sec = false → t.sec = o.sec
  on_clk : μ .clk = false → t.clk = o.clk
  on_integ : μ .integ = false → t.integ = o.integ
  on_recov : μ .recov = false → t.recov = o.recov
  on_obs : μ .obs = false → t.obs = o.obs
  on_mesh : μ .mesh = false → t.mesh = o.mesh

theorem Keeps.refl {μ : Part → Bool} (o : State) : Keeps μ o o := by
  constructor <;> intros <;> first | rfl | assumption

/-- A record update of other fields, or of registers and recorder within their ranges. -/
theorem Keeps.upd {μ : Part → Bool} {o t : State} {p ti fi b m ce il co ne wa st jo fa ho re se cl ig rc ob me}
    (h : Keeps μ o t) (hp : p = t.pending) (hb : b = t.build) (hm : m = t.mem) (hc : ce = t.codeErr)
    (hr : RegsOk t.regs → RegsOk re) (hob : ObsOk t.obs → ObsOk ob)
    (k_time : μ .time = false → ti = t.time := by first | exact Has.no | exact fun _ => rfl)
    (k_freeIndex : μ .freeIndex = false → fi = t.freeIndex := by first | exact Has.no | exact fun _ => rfl)
    (k_interleave : μ .interleave = false → il = t.interleave := by first | exact Has.no | exact fun _ => rfl)
    (k_cores : μ .cores = false → co = t.cores := by first | exact Has.no | exact fun _ => rfl)
    (k_net : μ .net = false → ne = t.net := by first | exact Has.no | exact fun _ => rfl)
    (k_wafer : μ .wafer = false → wa = t.wafer := by first | exact Has.no | exact fun _ => rfl)
    (k_stackSites : μ .stackSites = false → st = t.stackSites := by first | exact Has.no | exact fun _ => rfl)
    (k_jobs : μ .jobs = false → jo = t.jobs := by first | exact Has.no | exact fun _ => rfl)
    (k_fabric : μ .fabric = false → fa = t.fabric := by first | exact Has.no | exact fun _ => rfl)
    (k_host : μ .host = false → ho = t.host := by first | exact Has.no | exact fun _ => rfl)
    (k_regs : μ .regs = false → re = t.regs := by first | exact Has.no | exact fun _ => rfl)
    (k_sec : μ .sec = false → se = t.sec := by first | exact Has.no | exact fun _ => rfl)
    (k_clk : μ .clk = false → cl = t.clk := by first | exact Has.no | exact fun _ => rfl)
    (k_integ : μ .integ = false → ig = t.integ := by first | exact Has.no | exact fun _ => rfl)
    (k_recov : μ .recov = false → rc = t.recov := by first | exact Has.no | exact fun _ => rfl)
    (k_obs : μ .obs = false → ob = t.obs := by first | exact Has.no | exact fun _ => rfl)
    (k_mesh : μ .mesh = false → me = t.mesh := by first | exact Has.no | exact fun _ => rfl) :
    Keeps μ o ⟨p, ti, fi, b, m, ce, il, co, ne, wa, st, jo, fa, ho, re, se, cl, ig, rc, ob, me⟩ := by
  subst hp hb hm hc
  exact {
    build := h.build, pending := h.pending, mem := h.mem, regs := fun x => hr (h.regs x), obs := fun x => hob (h.obs x)
    on_mem := h.on_mem, on_codeErr := h.on_codeErr
    on_time := fun e => (k_time e).trans (h.on_time e)
    on_freeIndex := fun e => (k_freeIndex e).trans (h.on_freeIndex e)
    on_interleave := fun e => (k_interleave e).trans (h.on_interleave e)
    on_cores := fun e => (k_cores e).trans (h.on_cores e)
    on_net := fun e => (k_net e).trans (h.on_net e)
    on_wafer := fun e => (k_wafer e).trans (h.on_wafer e)
    on_stackSites := fun e => (k_stackSites e).trans (h.on_stackSites e)
    on_jobs := fun e => (k_jobs e).trans (h.on_jobs e)
    on_fabric := fun e => (k_fabric e).trans (h.on_fabric e)
    on_host := fun e => (k_host e).trans (h.on_host e)
    on_regs := fun e => (k_regs e).trans (h.on_regs e)
    on_sec := fun e => (k_sec e).trans (h.on_sec e)
    on_clk := fun e => (k_clk e).trans (h.on_clk e)
    on_integ := fun e => (k_integ e).trans (h.on_integ e)
    on_recov := fun e => (k_recov e).trans (h.on_recov e)
    on_obs := fun e => (k_obs e).trans (h.on_obs e)
    on_mesh := fun e => (k_mesh e).trans (h.on_mesh e) }

/-- An update of registers that have no range. -/
theorem RegsOk.same {a b : Regs} (h : RegsOk a)
    (e0 : b.opWest = a.opWest := by rfl)
    (e1 : b.opEast = a.opEast := by rfl)
    (e2 : b.pcap = a.pcap := by rfl)
    (e3 : b.tthrottle = a.tthrottle := by rfl)
    (e4 : b.macBase = a.macBase := by rfl)
    (e5 : b.etherType = a.etherType := by rfl)
    (e6 : b.rto = a.rto := by rfl)
    (e7 : b.hbInt = a.hbInt := by rfl)
    (e8 : b.timeout = a.timeout := by rfl)
    (e9 : b.rate = a.rate := by rfl)
    (e10 : b.fsLink = a.fsLink := by rfl)
    (e11 : b.fsCsym = a.fsCsym := by rfl)
    (e12 : b.fsReplay = a.fsReplay := by rfl)
    (e13 : b.fsNear = a.fsNear := by rfl)
    (e14 : b.fsDroop = a.fsDroop := by rfl)
    (e15 : b.fsTherm = a.fsTherm := by rfl)
    (e16 : b.snapInt3 = a.snapInt3 := by rfl)
    (e17 : b.snapInt2 = a.snapInt2 := by rfl)
    (e18 : b.flags = a.flags := by rfl) : RegsOk b := by
  constructor
  · rw [e0]; exact h.opWest
  · rw [e1]; exact h.opEast
  · rw [e2]; exact h.pcap
  · rw [e3]; exact h.tthrottle
  · rw [e4]; exact h.macBase
  · rw [e5]; exact h.etherType
  · rw [e6]; exact h.rto
  · rw [e7]; exact h.hbInt
  · rw [e8]; exact h.timeout
  · rw [e9]; exact h.rate
  · rw [e10, e11, e12, e13, e14]; exact h.scales
  · rw [e15]; exact h.therm
  · rw [e16]; exact h.snap3
  · rw [e17]; exact h.snap2
  · rw [e18]; exact h.counts

/-- An update of recorder state that has no range. -/
theorem ObsOk.same {a b : Obs} (h : ObsOk a)
    (e0 : b.log = a.log := by rfl)
    (e1 : b.nextSeq = a.nextSeq := by rfl)
    (e2 : b.flash = a.flash := by rfl)
    (e3 : b.full = a.full := by rfl)
    (e4 : b.trace.queue = a.trace.queue := by rfl)
    (e5 : b.cores = a.cores := by rfl)
    (e6 : b.routers = a.routers := by rfl)
    (e7 : b.sites = a.sites := by rfl)
    (e8 : b.jobs = a.jobs := by rfl) : ObsOk b := by
  constructor
  · rw [e0, e1]; exact h.log
  · rw [e2, e1]; exact h.flash
  · rw [e3, e0]; exact h.full
  · rw [e4]; exact h.queue
  · rw [e5]; exact h.cores
  · rw [e6]; exact h.routers
  · rw [e7]; exact h.sites
  · rw [e8]; exact h.jobs

/-- A record update of fields that have no range. -/
theorem Keeps.other {μ : Part → Bool} {o t : State} {p ti fi b m ce il co ne wa st jo fa ho re se cl ig rc ob me}
    (h : Keeps μ o t) (hp : p = t.pending) (hb : b = t.build) (hm : m = t.mem) (hc : ce = t.codeErr)
    (e0 : re.opWest = t.regs.opWest)
    (e1 : re.opEast = t.regs.opEast)
    (e2 : re.pcap = t.regs.pcap)
    (e3 : re.tthrottle = t.regs.tthrottle)
    (e4 : re.macBase = t.regs.macBase)
    (e5 : re.etherType = t.regs.etherType)
    (e6 : re.rto = t.regs.rto)
    (e7 : re.hbInt = t.regs.hbInt)
    (e8 : re.timeout = t.regs.timeout)
    (e9 : re.rate = t.regs.rate)
    (e10 : re.fsLink = t.regs.fsLink)
    (e11 : re.fsCsym = t.regs.fsCsym)
    (e12 : re.fsReplay = t.regs.fsReplay)
    (e13 : re.fsNear = t.regs.fsNear)
    (e14 : re.fsDroop = t.regs.fsDroop)
    (e15 : re.fsTherm = t.regs.fsTherm)
    (e16 : re.snapInt3 = t.regs.snapInt3)
    (e17 : re.snapInt2 = t.regs.snapInt2)
    (e18 : re.flags = t.regs.flags)
    (d0 : ob.log = t.obs.log)
    (d1 : ob.nextSeq = t.obs.nextSeq)
    (d2 : ob.flash = t.obs.flash)
    (d3 : ob.full = t.obs.full)
    (d4 : ob.trace.queue = t.obs.trace.queue)
    (d5 : ob.cores = t.obs.cores)
    (d6 : ob.routers = t.obs.routers)
    (d7 : ob.sites = t.obs.sites)
    (d8 : ob.jobs = t.obs.jobs)
    (k_time : μ .time = false → ti = t.time := by first | exact Has.no | exact fun _ => rfl)
    (k_freeIndex : μ .freeIndex = false → fi = t.freeIndex := by first | exact Has.no | exact fun _ => rfl)
    (k_interleave : μ .interleave = false → il = t.interleave := by first | exact Has.no | exact fun _ => rfl)
    (k_cores : μ .cores = false → co = t.cores := by first | exact Has.no | exact fun _ => rfl)
    (k_net : μ .net = false → ne = t.net := by first | exact Has.no | exact fun _ => rfl)
    (k_wafer : μ .wafer = false → wa = t.wafer := by first | exact Has.no | exact fun _ => rfl)
    (k_stackSites : μ .stackSites = false → st = t.stackSites := by first | exact Has.no | exact fun _ => rfl)
    (k_jobs : μ .jobs = false → jo = t.jobs := by first | exact Has.no | exact fun _ => rfl)
    (k_fabric : μ .fabric = false → fa = t.fabric := by first | exact Has.no | exact fun _ => rfl)
    (k_host : μ .host = false → ho = t.host := by first | exact Has.no | exact fun _ => rfl)
    (k_regs : μ .regs = false → re = t.regs := by first | exact Has.no | exact fun _ => rfl)
    (k_sec : μ .sec = false → se = t.sec := by first | exact Has.no | exact fun _ => rfl)
    (k_clk : μ .clk = false → cl = t.clk := by first | exact Has.no | exact fun _ => rfl)
    (k_integ : μ .integ = false → ig = t.integ := by first | exact Has.no | exact fun _ => rfl)
    (k_recov : μ .recov = false → rc = t.recov := by first | exact Has.no | exact fun _ => rfl)
    (k_obs : μ .obs = false → ob = t.obs := by first | exact Has.no | exact fun _ => rfl)
    (k_mesh : μ .mesh = false → me = t.mesh := by first | exact Has.no | exact fun _ => rfl) :
    Keeps μ o ⟨p, ti, fi, b, m, ce, il, co, ne, wa, st, jo, fa, ho, re, se, cl, ig, rc, ob, me⟩ :=
  h.upd hp hb hm hc (fun x => x.same e0 e1 e2 e3 e4 e5 e6 e7 e8 e9 e10 e11 e12 e13 e14 e15 e16 e17 e18)
    (fun x => x.same d0 d1 d2 d3 d4 d5 d6 d7 d8)
    k_time k_freeIndex k_interleave k_cores k_net k_wafer k_stackSites k_jobs k_fabric k_host k_regs k_sec k_clk k_integ k_recov k_obs k_mesh

theorem Keeps.ite {μ : Part → Bool} {o a b : State} {c : Prop} [Decidable c] (ha : c → Keeps μ o a) (hb : ¬c → Keeps μ o b) :
    Keeps μ o (if c then a else b) := by
  split
  · exact ha ‹_›
  · exact hb ‹_›

/-- A fold of an operation that keeps. -/
theorem Keeps.foldl {μ : Part → Bool} {α : Type} {o s : State} {f : State → α → State} {l : List α}
    (h : Keeps μ o s) (hf : ∀ t x, Keeps μ o t → Keeps μ o (f t x)) : Keeps μ o (l.foldl f s) := by
  induction l generalizing s with
  | nil => exact h
  | cons x r ih => exact ih (hf s x h)

/-- A fold that carries a result beside the state. -/
theorem Keeps.foldl1 {μ : Part → Bool} {α β : Type} {o : State} {f : State × β → α → State × β} {s : State × β} {l : List α}
    (h : Keeps μ o s.1) (hf : ∀ q x, Keeps μ o q.1 → Keeps μ o (f q x).1) : Keeps μ o (l.foldl f s).1 := by
  induction l generalizing s with
  | nil => exact h
  | cons x r ih => exact ih (hf s x h)

/-- An outcome, or another state where there is none. -/
theorem Keeps.getD {μ : Part → Bool} {o d : State} {x : Option State} (h : ∀ u, x = some u → Keeps μ o u) (hd : Keeps μ o d) :
    Keeps μ o (x.getD d) := by
  cases x with
  | none => exact hd
  | some u => exact h u rfl

theorem wf_clearErr {e : Tab (BitVec 288)} {ws : List Nat} (h : Tab.wf 0 e = true) : Tab.wf 0 (clearErr e ws) = true := by
  induction ws generalizing e with
  | nil => exact h
  | cons w r ih => exact ih (Tab.wf_set h)

theorem wf_poisonWords {e : Tab (BitVec 288)} {ws : List Nat} (h : Tab.wf 0 e = true) :
    Tab.wf 0 (poisonWords e ws) = true := by
  induction ws generalizing e with
  | nil => exact h
  | cons w r ih => exact ih (Tab.wf_set h)

/-! ### The recorder, the counts and the counters -/

theorem LogOk.nil (n : Nat) : LogOk [] n := ⟨by decide, List.Pairwise.nil, fun _ h => absurd h List.not_mem_nil⟩

/-- Numbers given out later leave a log in range. -/
theorem LogOk.later {l : List Record} {n m : Nat} (h : LogOk l n) (hn : n ≤ m) : LogOk l m :=
  ⟨h.room, h.rising, fun r hr => Nat.lt_of_lt_of_le (h.given r hr) hn⟩

/-- A new record takes the next number. -/
theorem LogOk.push {l : List Record} {n : Nat} {r : Record} (h : LogOk l n) (hl : l.length < 1048576) (hr : r.seq = n) :
    LogOk (l ++ [r]) (n + 1) where
  room := by rw [List.length_append, List.length_singleton]; omega
  rising := by
    rw [List.map_append, List.pairwise_append]
    refine ⟨h.rising, List.pairwise_singleton _ _, ?_⟩
    intro a ha b hb
    obtain ⟨x, hx, rfl⟩ := List.mem_map.mp ha
    rw [List.map_singleton, List.mem_singleton] at hb
    subst hb
    rw [hr]
    exact h.given x hx
  given := by
    intro x hx
    rcases List.mem_append.mp hx with hx | hx
    · exact Nat.lt_succ_of_lt (h.given x hx)
    · rw [List.mem_singleton.mp hx, hr]
      exact Nat.lt_succ_self _

theorem length_again {l : List Record} {r r' : Record} (h : l.getLast? = some r) :
    (l.dropLast ++ [r']).length = l.length := by
  have : l ≠ [] := by
    intro e
    subst e
    cases h
  have := List.length_pos_iff.mpr this
  rw [List.length_append, List.length_singleton, List.length_dropLast]
  omega

/-- A repeat keeps the record's number. -/
theorem LogOk.again {l : List Record} {n : Nat} {r r' : Record} (h : LogOk l n) (hl : l.getLast? = some r)
    (hr : r'.seq = r.seq) : LogOk (l.dropLast ++ [r']) n := by
  have e : l = l.dropLast ++ [r] := by
    rw [List.getLast?_eq_some_iff] at hl
    obtain ⟨q, rfl⟩ := hl
    rw [List.dropLast_concat]
  have m : (l.dropLast ++ [r']).map (·.seq) = l.map (·.seq) := by
    rw [e, List.dropLast_concat, List.map_append, List.map_append, List.map_singleton, List.map_singleton, hr]
  refine ⟨?_, m ▸ h.rising, ?_⟩
  · rw [length_again hl]
    exact h.room
  · intro x hx
    rcases List.mem_append.mp hx with hx | hx
    · exact h.given x (List.mem_of_mem_dropLast hx)
    · rw [List.mem_singleton.mp hx, hr]
      exact h.given r (List.mem_of_getLast? hl)

theorem counts_set {l : Tab Nat} {n v : Nat} (h : ∀ k, Tab.get 0 l k ≤ 0xFFFF) (hv : v ≤ 0xFFFF) :
    ∀ k, Tab.get 0 (Tab.set 0 l n v) k ≤ 0xFFFF := by
  intro k
  rw [Tab.get_set]
  split
  · exact hv
  · exact h k

theorem SetsOk.set {l : Tab CounterSet} {i : Nat} {x : CounterSet} (h : SetsOk l)
    (hx : ∀ w, Tab.get 0 x.vals w ≤ 2 ^ 48 - 1) : SetsOk (Tab.set {} l i x) := by
  intro k w
  rw [Tab.get_set]
  split
  · exact hx w
  · exact h k w

/-- A counter that grows stops at its top. -/
theorem SetsOk.bump {l : Tab CounterSet} {i w n : Nat} (h : SetsOk l) :
    SetsOk (Tab.set {} l i ((Tab.get {} l i).bump w n)) := by
  refine h.set (fun v => ?_)
  unfold CounterSet.bump
  rw [Tab.get_set]
  split
  · exact Nat.min_le_right _ _
  · exact h i v

theorem SetsOk.reset {l : Tab CounterSet} {i : Nat} (h : SetsOk l) :
    SetsOk (Tab.set {} l i (Tab.get {} l i).reset) :=
  h.set (fun _ => Nat.zero_le _)

/-! ### The memory operations -/

theorem State.store_keeps {μ} [Has μ .mem] [Has μ .codeErr] {o s : State} {a : Nat} {bs : List Byte} (h : Keeps μ o s) :
    Keeps μ o (s.store a bs) :=
  { h with
    mem := fun m => ⟨Tab.wf_setRange (h.mem m).1, wf_clearErr (h.mem m).2⟩
    on_mem := Has.no
    on_codeErr := Has.no }

theorem State.storeHost_keeps {μ} [Has μ .mem] [Has μ .host] {o s : State} {a : Nat} {bs : List Byte} (h : Keeps μ o s) :
    Keeps μ o (s.storeHost a bs) :=
  { h with
    mem := fun m => ⟨Tab.wf_setRange (h.mem m).1, (h.mem m).2⟩
    on_mem := Has.no
    on_host := Has.no }

theorem State.poison_keeps {μ} [Has μ .codeErr] {o s : State} {a n : Nat} (h : Keeps μ o s) : Keeps μ o (s.poison a n) :=
  { h with
    mem := fun m => ⟨(h.mem m).1, wf_poisonWords (h.mem m).2⟩
    on_codeErr := Has.no }

end Sys2Proof.Machine
end

