-- ==== Sys2Proof/Laws/KeepsOps.lean ====
section
/-! SUPPORT. Every operation of Machine/Ops.lean keeps the build, the queue and the form of memory. -/

set_option Elab.async false

set_option linter.unreachableTactic false
set_option linter.unusedTactic false

namespace Sys2Proof.Machine

theorem State.trace_keeps {μ} [Has μ .obs] {o s typ src ctx pay} (h : Keeps μ o s) : Keeps μ o (State.trace s typ src ctx pay) := by
  unfold State.trace
  dsimp only
  refine Keeps.ite (fun _ => h) (fun _ => Keeps.ite (fun _ => ?_) (fun hq => ?_))
  · exact Keeps.upd h rfl rfl rfl rfl id (fun q => q.same)
  · refine Keeps.upd h rfl rfl rfl rfl id (fun q => { q with queue := ?_ })
    have : ¬65536 ≤ s.obs.trace.queue.length := hq
    show (s.obs.trace.queue ++ [_]).length ≤ 65536
    rw [List.length_append, List.length_singleton]
    omega

theorem State.raiseFlag_keeps {μ} [Has μ .regs] {o s n} (h : Keeps μ o s) : Keeps μ o (State.raiseFlag s n) := by
  unfold State.raiseFlag
  refine Keeps.ite (fun _ => h) (fun _ => Keeps.upd h rfl rfl rfl rfl (fun q => { q with counts := ?_ }) id)
  exact counts_set q.counts (Nat.min_le_right _ _)

theorem State.event_keeps {μ} [Has μ .regs] [Has μ .obs] {o s k src items} (h : Keeps μ o s) : Keeps μ o (State.event s k src items) := by
  unfold State.event
  dsimp only
  refine Keeps.ite (fun _ => Keeps.upd h rfl rfl rfl rfl id (fun q => q.same)) (fun hf => ?_)
  have hf : s.obs.full = false := by simpa using hf
  split
  · rename_i r hr
    refine Keeps.ite (fun _ => ?_) (fun _ => Keeps.ite (fun hl => ?_) (fun hl => ?_))
    · exact Keeps.upd h rfl rfl rfl rfl id (fun q => { q with
        log := q.log.again hr rfl
        full := fun _ => by rw [length_again hr]; exact q.full hf })
    · refine State.raiseFlag_keeps (Keeps.upd h rfl rfl rfl rfl id (fun q => { q with
        log := q.log.push (by rw [hl]; decide) rfl
        flash := q.flash.later (Nat.le_succ _)
        full := fun e => by cases e }))
    · exact Keeps.upd h rfl rfl rfl rfl id (fun q => { q with
        log := q.log.push (Nat.lt_of_le_of_lt (q.full hf) (by decide)) rfl
        flash := q.flash.later (Nat.le_succ _)
        full := fun e => by
          have := q.full hf
          have : s.obs.log.length ≠ 1048575 := hl
          rw [List.length_append, List.length_singleton]
          omega })
  · rename_i hr
    have e : s.obs.log = [] := List.getLast?_eq_none_iff.mp hr
    exact Keeps.upd h rfl rfl rfl rfl id (fun q => { q with
        log := (LogOk.nil _).push (l := []) (by decide) rfl
        flash := q.flash.later (Nat.le_succ _)
        full := fun _ => (by decide : 1 ≤ 1048575) })

theorem State.record_keeps {μ} [Has μ .regs] [Has μ .obs] {o s k1 src items} (h : Keeps μ o s) :
    Keeps μ o (State.record s k1 src items) := by
  unfold State.record
  try dsimp only
  repeat' (first
    | with_reducible refine Keeps.ite (fun _ => ?_) (fun _ => ?_)
    | with_reducible assumption
    | with_reducible apply State.trace_keeps
    | with_reducible apply State.event_keeps
    | fail_if_no_progress with_reducible refine Keeps.other ?_ rfl rfl rfl rfl rfl rfl rfl rfl rfl rfl rfl rfl rfl rfl rfl rfl rfl rfl rfl rfl rfl rfl rfl rfl rfl rfl rfl rfl rfl rfl rfl rfl
    | with_reducible refine Keeps.foldl ?_ ?_
    | with_reducible refine Keeps.foldl1 ?_ ?_
    | with_reducible refine Keeps.getD (fun _ _ => ?_) ?_
    | intro _
    | dsimp only
    | split)

theorem State.bumpCore_keeps {μ} [Has μ .obs] {o s i w n} (h : Keeps μ o s) : Keeps μ o (State.bumpCore s i w n) :=
  Keeps.upd h rfl rfl rfl rfl id (fun q => { q with cores := q.cores.bump })

theorem State.putJob_keeps {μ} [Has μ .jobs] {o s j v} (h : Keeps μ o s) :
    Keeps μ o (State.putJob s j v) := by
  unfold State.putJob
  try dsimp only
  repeat' (first
    | with_reducible refine Keeps.ite (fun _ => ?_) (fun _ => ?_)
    | with_reducible assumption
    | fail_if_no_progress with_reducible refine Keeps.other ?_ rfl rfl rfl rfl rfl rfl rfl rfl rfl rfl rfl rfl rfl rfl rfl rfl rfl rfl rfl rfl rfl rfl rfl rfl rfl rfl rfl rfl rfl rfl rfl rfl
    | with_reducible refine Keeps.foldl ?_ ?_
    | with_reducible refine Keeps.foldl1 ?_ ?_
    | with_reducible refine Keeps.getD (fun _ _ => ?_) ?_
    | intro _
    | dsimp only
    | split)

theorem State.raiseVector_keeps {μ} [Has μ .host] {o s v} (h : Keeps μ o s) :
    Keeps μ o (State.raiseVector s v) := by
  unfold State.raiseVector
  try dsimp only
  repeat' (first
    | with_reducible refine Keeps.ite (fun _ => ?_) (fun _ => ?_)
    | with_reducible assumption
    | fail_if_no_progress with_reducible refine Keeps.other ?_ rfl rfl rfl rfl rfl rfl rfl rfl rfl rfl rfl rfl rfl rfl rfl rfl rfl rfl rfl rfl rfl rfl rfl rfl rfl rfl rfl rfl rfl rfl rfl rfl
    | with_reducible refine Keeps.foldl ?_ ?_
    | with_reducible refine Keeps.foldl1 ?_ ?_
    | with_reducible refine Keeps.getD (fun _ _ => ?_) ?_
    | intro _
    | dsimp only
    | split)

theorem State.raiseDevice_keeps {μ} [Has μ .host] [Has μ .regs] {o s n} (h : Keeps μ o s) :
    Keeps μ o (State.raiseDevice s n) := by
  unfold State.raiseDevice
  try dsimp only
  repeat' (first
    | with_reducible refine Keeps.ite (fun _ => ?_) (fun _ => ?_)
    | with_reducible assumption
    | with_reducible apply State.raiseFlag_keeps
    | with_reducible apply State.raiseVector_keeps
    | fail_if_no_progress with_reducible refine Keeps.other ?_ rfl rfl rfl rfl rfl rfl rfl rfl rfl rfl rfl rfl rfl rfl rfl rfl rfl rfl rfl rfl rfl rfl rfl rfl rfl rfl rfl rfl rfl rfl rfl rfl
    | with_reducible refine Keeps.foldl ?_ ?_
    | with_reducible refine Keeps.foldl1 ?_ ?_
    | with_reducible refine Keeps.getD (fun _ _ => ?_) ?_
    | intro _
    | dsimp only
    | split)

theorem State.setJob_keeps {μ} [Has μ .jobs] [Has μ .host] [Has μ .regs] {o s j v} (h : Keeps μ o s) :
    Keeps μ o (State.setJob s j v) := by
  unfold State.setJob
  try dsimp only
  repeat' (first
    | with_reducible refine Keeps.ite (fun _ => ?_) (fun _ => ?_)
    | with_reducible assumption
    | with_reducible apply State.putJob_keeps
    | with_reducible apply State.raiseDevice_keeps
    | fail_if_no_progress with_reducible refine Keeps.other ?_ rfl rfl rfl rfl rfl rfl rfl rfl rfl rfl rfl rfl rfl rfl rfl rfl rfl rfl rfl rfl rfl rfl rfl rfl rfl rfl rfl rfl rfl rfl rfl rfl
    | with_reducible refine Keeps.foldl ?_ ?_
    | with_reducible refine Keeps.foldl1 ?_ ?_
    | with_reducible refine Keeps.getD (fun _ _ => ?_) ?_
    | intro _
    | dsimp only
    | split)

theorem State.modJob_keeps {μ} [Has μ .jobs] [Has μ .host] [Has μ .regs] {o s j f} (h : Keeps μ o s) :
    Keeps μ o (State.modJob s j f) := by
  unfold State.modJob
  try dsimp only
  repeat' (first
    | with_reducible refine Keeps.ite (fun _ => ?_) (fun _ => ?_)
    | with_reducible assumption
    | with_reducible apply State.setJob_keeps
    | fail_if_no_progress with_reducible refine Keeps.other ?_ rfl rfl rfl rfl rfl rfl rfl rfl rfl rfl rfl rfl rfl rfl rfl rfl rfl rfl rfl rfl rfl rfl rfl rfl rfl rfl rfl rfl rfl rfl rfl rfl
    | with_reducible refine Keeps.foldl ?_ ?_
    | with_reducible refine Keeps.foldl1 ?_ ?_
    | with_reducible refine Keeps.getD (fun _ _ => ?_) ?_
    | intro _
    | dsimp only
    | split)

theorem State.setSite_keeps {μ} [Has μ .wafer] {o s col prow x} (h : Keeps μ o s) :
    Keeps μ o (State.setSite s col prow x) := by
  unfold State.setSite
  try dsimp only
  repeat' (first
    | with_reducible refine Keeps.ite (fun _ => ?_) (fun _ => ?_)
    | with_reducible assumption
    | fail_if_no_progress with_reducible refine Keeps.other ?_ rfl rfl rfl rfl rfl rfl rfl rfl rfl rfl rfl rfl rfl rfl rfl rfl rfl rfl rfl rfl rfl rfl rfl rfl rfl rfl rfl rfl rfl rfl rfl rfl
    | with_reducible refine Keeps.foldl ?_ ?_
    | with_reducible refine Keeps.foldl1 ?_ ?_
    | with_reducible refine Keeps.getD (fun _ _ => ?_) ?_
    | intro _
    | dsimp only
    | split)

theorem State.setCore_keeps {μ} [Has μ .cores] {o s i c} (h : Keeps μ o s) :
    Keeps μ o (State.setCore s i c) := by
  unfold State.setCore
  try dsimp only
  repeat' (first
    | with_reducible refine Keeps.ite (fun _ => ?_) (fun _ => ?_)
    | with_reducible assumption
    | fail_if_no_progress with_reducible refine Keeps.other ?_ rfl rfl rfl rfl rfl rfl rfl rfl rfl rfl rfl rfl rfl rfl rfl rfl rfl rfl rfl rfl rfl rfl rfl rfl rfl rfl rfl rfl rfl rfl rfl rfl
    | with_reducible refine Keeps.foldl ?_ ?_
    | with_reducible refine Keeps.foldl1 ?_ ?_
    | with_reducible refine Keeps.getD (fun _ _ => ?_) ?_
    | intro _
    | dsimp only
    | split)

theorem State.modCore_keeps {μ} [Has μ .cores] {o s i f} (h : Keeps μ o s) :
    Keeps μ o (State.modCore s i f) := by
  unfold State.modCore
  try dsimp only
  repeat' (first
    | with_reducible refine Keeps.ite (fun _ => ?_) (fun _ => ?_)
    | with_reducible assumption
    | with_reducible apply State.setCore_keeps
    | fail_if_no_progress with_reducible refine Keeps.other ?_ rfl rfl rfl rfl rfl rfl rfl rfl rfl rfl rfl rfl rfl rfl rfl rfl rfl rfl rfl rfl rfl rfl rfl rfl rfl rfl rfl rfl rfl rfl rfl rfl
    | with_reducible refine Keeps.foldl ?_ ?_
    | with_reducible refine Keeps.foldl1 ?_ ?_
    | with_reducible refine Keeps.getD (fun _ _ => ?_) ?_
    | intro _
    | dsimp only
    | split)

theorem State.bumpRouter_keeps {μ} [Has μ .obs] {o s i w n} (h : Keeps μ o s) : Keeps μ o (State.bumpRouter s i w n) :=
  Keeps.upd h rfl rfl rfl rfl id (fun q => { q with routers := q.routers.bump })

theorem State.bumpSite_keeps {μ} [Has μ .obs] {o s i w n} (h : Keeps μ o s) : Keeps μ o (State.bumpSite s i w n) :=
  Keeps.upd h rfl rfl rfl rfl id (fun q => { q with sites := q.sites.bump })

theorem State.modStream_keeps {μ} [Has μ .cores] {o s c n f} (h : Keeps μ o s) :
    Keeps μ o (State.modStream s c n f) := by
  unfold State.modStream
  try dsimp only
  repeat' (first
    | with_reducible refine Keeps.ite (fun _ => ?_) (fun _ => ?_)
    | with_reducible assumption
    | with_reducible apply State.modCore_keeps
    | fail_if_no_progress with_reducible refine Keeps.other ?_ rfl rfl rfl rfl rfl rfl rfl rfl rfl rfl rfl rfl rfl rfl rfl rfl rfl rfl rfl rfl rfl rfl rfl rfl rfl rfl rfl rfl rfl rfl rfl rfl
    | with_reducible refine Keeps.foldl ?_ ?_
    | with_reducible refine Keeps.foldl1 ?_ ?_
    | with_reducible refine Keeps.getD (fun _ _ => ?_) ?_
    | intro _
    | dsimp only
    | split)

theorem State.setStack_keeps {μ} [Has μ .stackSites] {o s i v} (h : Keeps μ o s) :
    Keeps μ o (State.setStack s i v) := by
  unfold State.setStack
  try dsimp only
  repeat' (first
    | with_reducible refine Keeps.ite (fun _ => ?_) (fun _ => ?_)
    | with_reducible assumption
    | fail_if_no_progress with_reducible refine Keeps.other ?_ rfl rfl rfl rfl rfl rfl rfl rfl rfl rfl rfl rfl rfl rfl rfl rfl rfl rfl rfl rfl rfl rfl rfl rfl rfl rfl rfl rfl rfl rfl rfl rfl
    | with_reducible refine Keeps.foldl ?_ ?_
    | with_reducible refine Keeps.foldl1 ?_ ?_
    | with_reducible refine Keeps.getD (fun _ _ => ?_) ?_
    | intro _
    | dsimp only
    | split)

theorem State.modStack_keeps {μ} [Has μ .stackSites] {o s i f} (h : Keeps μ o s) :
    Keeps μ o (State.modStack s i f) := by
  unfold State.modStack
  try dsimp only
  repeat' (first
    | with_reducible refine Keeps.ite (fun _ => ?_) (fun _ => ?_)
    | with_reducible assumption
    | with_reducible apply State.setStack_keeps
    | fail_if_no_progress with_reducible refine Keeps.other ?_ rfl rfl rfl rfl rfl rfl rfl rfl rfl rfl rfl rfl rfl rfl rfl rfl rfl rfl rfl rfl rfl rfl rfl rfl rfl rfl rfl rfl rfl rfl rfl rfl
    | with_reducible refine Keeps.foldl ?_ ?_
    | with_reducible refine Keeps.foldl1 ?_ ?_
    | with_reducible refine Keeps.getD (fun _ _ => ?_) ?_
    | intro _
    | dsimp only
    | split)

theorem State.resetCoreSet_keeps {μ} [Has μ .obs] {o s i} (h : Keeps μ o s) : Keeps μ o (State.resetCoreSet s i) :=
  Keeps.upd h rfl rfl rfl rfl id (fun q => { q with cores := q.cores.reset })

theorem State.health_keeps {μ} [Has μ .integ] {o s input source} (h : Keeps μ o s) :
    Keeps μ o (State.health s input source) := by
  unfold State.health
  try dsimp only
  repeat' (first
    | with_reducible refine Keeps.ite (fun _ => ?_) (fun _ => ?_)
    | with_reducible assumption
    | fail_if_no_progress with_reducible refine Keeps.other ?_ rfl rfl rfl rfl rfl rfl rfl rfl rfl rfl rfl rfl rfl rfl rfl rfl rfl rfl rfl rfl rfl rfl rfl rfl rfl rfl rfl rfl rfl rfl rfl rfl
    | with_reducible refine Keeps.foldl ?_ ?_
    | with_reducible refine Keeps.foldl1 ?_ ?_
    | with_reducible refine Keeps.getD (fun _ _ => ?_) ?_
    | intro _
    | dsimp only
    | split)

theorem State.bumpJob_keeps {μ} [Has μ .obs] {o s i w n} (h : Keeps μ o s) : Keeps μ o (State.bumpJob s i w n) :=
  Keeps.upd h rfl rfl rfl rfl id (fun q => { q with jobs := q.jobs.bump })

theorem State.unmapped_keeps {μ} [Has μ .regs] [Has μ .obs] {o s src addr write} (h : Keeps μ o s) :
    Keeps μ o (State.unmapped s src addr write) := by
  unfold State.unmapped
  try dsimp only
  repeat' (first
    | with_reducible refine Keeps.ite (fun _ => ?_) (fun _ => ?_)
    | with_reducible assumption
    | with_reducible apply State.record_keeps
    | fail_if_no_progress with_reducible refine Keeps.other ?_ rfl rfl rfl rfl rfl rfl rfl rfl rfl rfl rfl rfl rfl rfl rfl rfl rfl rfl rfl rfl rfl rfl rfl rfl rfl rfl rfl rfl rfl rfl rfl rfl
    | with_reducible refine Keeps.foldl ?_ ?_
    | with_reducible refine Keeps.foldl1 ?_ ?_
    | with_reducible refine Keeps.getD (fun _ _ => ?_) ?_
    | intro _
    | dsimp only
    | split)

theorem State.updateAlert_keeps {μ} [Has μ .regs] {o s} (h : Keeps μ o s) :
    Keeps μ o (State.updateAlert s) := by
  unfold State.updateAlert
  try dsimp only
  repeat' (first
    | with_reducible refine Keeps.ite (fun _ => ?_) (fun _ => ?_)
    | with_reducible assumption
    | with_reducible apply State.raiseFlag_keeps
    | fail_if_no_progress with_reducible refine Keeps.other ?_ rfl rfl rfl rfl rfl rfl rfl rfl rfl rfl rfl rfl rfl rfl rfl rfl rfl rfl rfl rfl rfl rfl rfl rfl rfl rfl rfl rfl rfl rfl rfl rfl
    | with_reducible refine Keeps.foldl ?_ ?_
    | with_reducible refine Keeps.foldl1 ?_ ?_
    | with_reducible refine Keeps.getD (fun _ _ => ?_) ?_
    | intro _
    | dsimp only
    | split)

theorem State.setDev_keeps {μ} [Has μ .host] [Has μ .regs] {o s d} (h : Keeps μ o s) :
    Keeps μ o (State.setDev s d) := by
  unfold State.setDev
  try dsimp only
  repeat' (first
    | with_reducible refine Keeps.ite (fun _ => ?_) (fun _ => ?_)
    | with_reducible assumption
    | with_reducible apply State.updateAlert_keeps
    | with_reducible apply State.raiseDevice_keeps
    | fail_if_no_progress with_reducible refine Keeps.other ?_ rfl rfl rfl rfl rfl rfl rfl rfl rfl rfl rfl rfl rfl rfl rfl rfl rfl rfl rfl rfl rfl rfl rfl rfl rfl rfl rfl rfl rfl rfl rfl rfl
    | with_reducible refine Keeps.foldl ?_ ?_
    | with_reducible refine Keeps.foldl1 ?_ ?_
    | with_reducible refine Keeps.getD (fun _ _ => ?_) ?_
    | intro _
    | dsimp only
    | split)

theorem State.modCtx_keeps {μ} [Has μ .cores] {o s c k2 f} (h : Keeps μ o s) :
    Keeps μ o (State.modCtx s c k2 f) := by
  unfold State.modCtx
  try dsimp only
  repeat' (first
    | with_reducible refine Keeps.ite (fun _ => ?_) (fun _ => ?_)
    | with_reducible assumption
    | with_reducible apply State.modCore_keeps
    | fail_if_no_progress with_reducible refine Keeps.other ?_ rfl rfl rfl rfl rfl rfl rfl rfl rfl rfl rfl rfl rfl rfl rfl rfl rfl rfl rfl rfl rfl rfl rfl rfl rfl rfl rfl rfl rfl rfl rfl rfl
    | with_reducible refine Keeps.foldl ?_ ?_
    | with_reducible refine Keeps.foldl1 ?_ ?_
    | with_reducible refine Keeps.getD (fun _ _ => ?_) ?_
    | intro _
    | dsimp only
    | split)

theorem State.resetRouterSet_keeps {μ} [Has μ .obs] {o s i} (h : Keeps μ o s) : Keeps μ o (State.resetRouterSet s i) :=
  Keeps.upd h rfl rfl rfl rfl id (fun q => { q with routers := q.routers.reset })

theorem State.poisonHost_keeps {μ} [Has μ .host] {o s a n} (h : Keeps μ o s) :
    Keeps μ o (State.poisonHost s a n) := by
  unfold State.poisonHost
  try dsimp only
  repeat' (first
    | with_reducible refine Keeps.ite (fun _ => ?_) (fun _ => ?_)
    | with_reducible assumption
    | fail_if_no_progress with_reducible refine Keeps.other ?_ rfl rfl rfl rfl rfl rfl rfl rfl rfl rfl rfl rfl rfl rfl rfl rfl rfl rfl rfl rfl rfl rfl rfl rfl rfl rfl rfl rfl rfl rfl rfl rfl
    | with_reducible refine Keeps.foldl ?_ ?_
    | with_reducible refine Keeps.foldl1 ?_ ?_
    | with_reducible refine Keeps.getD (fun _ _ => ?_) ?_
    | intro _
    | dsimp only
    | split)

end Sys2Proof.Machine
end

