-- ==== Sys2Proof/Laws/KeepsFlags.lean ====
section
/-! SUPPORT. Every operation of Machine/Flags.lean keeps the build, the queue and the form of memory. -/

set_option Elab.async false

set_option linter.unreachableTactic false
set_option linter.unusedTactic false

namespace Sys2Proof.Machine

theorem State.checkSkipped_keeps {μ} [Has μ .regs] [Has μ .obs] {o s c rule} (h : Keeps μ o s) :
    Keeps μ o (State.checkSkipped s c rule) := by
  unfold State.checkSkipped
  try dsimp only
  repeat' (first
    | with_reducible refine Keeps.ite (fun _ => ?_) (fun _ => ?_)
    | with_reducible assumption
    | with_reducible apply State.record_keeps
    | with_reducible apply State.bumpCore_keeps
    | fail_if_no_progress with_reducible refine Keeps.other ?_ rfl rfl rfl rfl rfl rfl rfl rfl rfl rfl rfl rfl rfl rfl rfl rfl rfl rfl rfl rfl rfl rfl rfl rfl rfl rfl rfl rfl rfl rfl rfl rfl
    | with_reducible refine Keeps.foldl ?_ ?_
    | with_reducible refine Keeps.foldl1 ?_ ?_
    | with_reducible refine Keeps.getD (fun _ _ => ?_) ?_
    | intro _
    | dsimp only
    | split)

theorem State.dropCheck_keeps {μ} [Has μ .integ] {o s id} (h : Keeps μ o s) :
    Keeps μ o (State.dropCheck s id) := by
  unfold State.dropCheck
  try dsimp only
  repeat' (first
    | with_reducible refine Keeps.ite (fun _ => ?_) (fun _ => ?_)
    | with_reducible assumption
    | fail_if_no_progress with_reducible refine Keeps.other ?_ rfl rfl rfl rfl rfl rfl rfl rfl rfl rfl rfl rfl rfl rfl rfl rfl rfl rfl rfl rfl rfl rfl rfl rfl rfl rfl rfl rfl rfl rfl rfl rfl
    | with_reducible refine Keeps.foldl ?_ ?_
    | with_reducible refine Keeps.foldl1 ?_ ?_
    | with_reducible refine Keeps.getD (fun _ _ => ?_) ?_
    | intro _
    | dsimp only
    | split)

theorem State.abandonChecks_keeps {μ} [Has μ .regs] [Has μ .integ] [Has μ .obs] {o s checker} (h : Keeps μ o s) :
    Keeps μ o (State.abandonChecks s checker) := by
  unfold State.abandonChecks
  try dsimp only
  repeat' (first
    | with_reducible refine Keeps.ite (fun _ => ?_) (fun _ => ?_)
    | with_reducible assumption
    | with_reducible apply State.checkSkipped_keeps
    | with_reducible apply State.dropCheck_keeps
    | fail_if_no_progress with_reducible refine Keeps.other ?_ rfl rfl rfl rfl rfl rfl rfl rfl rfl rfl rfl rfl rfl rfl rfl rfl rfl rfl rfl rfl rfl rfl rfl rfl rfl rfl rfl rfl rfl rfl rfl rfl
    | with_reducible refine Keeps.foldl ?_ ?_
    | with_reducible refine Keeps.foldl1 ?_ ?_
    | with_reducible refine Keeps.getD (fun _ _ => ?_) ?_
    | intro _
    | dsimp only
    | split)

theorem State.saturation_keeps {μ} [Has μ .regs] [Has μ .obs] {o s j r} (h : Keeps μ o s) :
    Keeps μ o (State.saturation s j r) := by
  unfold State.saturation
  try dsimp only
  repeat' (first
    | with_reducible refine Keeps.ite (fun _ => ?_) (fun _ => ?_)
    | with_reducible assumption
    | with_reducible apply State.record_keeps
    | fail_if_no_progress with_reducible refine Keeps.other ?_ rfl rfl rfl rfl rfl rfl rfl rfl rfl rfl rfl rfl rfl rfl rfl rfl rfl rfl rfl rfl rfl rfl rfl rfl rfl rfl rfl rfl rfl rfl rfl rfl
    | with_reducible refine Keeps.foldl ?_ ?_
    | with_reducible refine Keeps.foldl1 ?_ ?_
    | with_reducible refine Keeps.getD (fun _ _ => ?_) ?_
    | intro _
    | dsimp only
    | split)

theorem State.keepSat_keeps {μ} [Has μ .jobs] [Has μ .host] [Has μ .regs] {o s j t} (h : Keeps μ o s) :
    Keeps μ o (State.keepSat s j t) := by
  unfold State.keepSat
  try dsimp only
  repeat' (first
    | with_reducible refine Keeps.ite (fun _ => ?_) (fun _ => ?_)
    | with_reducible assumption
    | with_reducible apply State.modJob_keeps
    | fail_if_no_progress with_reducible refine Keeps.other ?_ rfl rfl rfl rfl rfl rfl rfl rfl rfl rfl rfl rfl rfl rfl rfl rfl rfl rfl rfl rfl rfl rfl rfl rfl rfl rfl rfl rfl rfl rfl rfl rfl
    | with_reducible refine Keeps.foldl ?_ ?_
    | with_reducible refine Keeps.foldl1 ?_ ?_
    | with_reducible refine Keeps.getD (fun _ _ => ?_) ?_
    | intro _
    | dsimp only
    | split)

theorem State.resetCoreKept_keeps {μ} [Has μ .jobs] [Has μ .host] [Has μ .regs] [Has μ .obs] {o s c} (h : Keeps μ o s) :
    Keeps μ o (State.resetCoreKept s c) := by
  unfold State.resetCoreKept
  try dsimp only
  repeat' (first
    | with_reducible refine Keeps.ite (fun _ => ?_) (fun _ => ?_)
    | with_reducible assumption
    | with_reducible apply State.resetCoreSet_keeps
    | with_reducible apply State.keepSat_keeps
    | fail_if_no_progress with_reducible refine Keeps.other ?_ rfl rfl rfl rfl rfl rfl rfl rfl rfl rfl rfl rfl rfl rfl rfl rfl rfl rfl rfl rfl rfl rfl rfl rfl rfl rfl rfl rfl rfl rfl rfl rfl
    | with_reducible refine Keeps.foldl ?_ ?_
    | with_reducible refine Keeps.foldl1 ?_ ?_
    | with_reducible refine Keeps.getD (fun _ _ => ?_) ?_
    | intro _
    | dsimp only
    | split)

theorem State.noteCheck_keeps {μ} [Has μ .cores] {o s c failed} (h : Keeps μ o s) :
    Keeps μ o (State.noteCheck s c failed) := by
  unfold State.noteCheck
  try dsimp only
  repeat' (first
    | with_reducible refine Keeps.ite (fun _ => ?_) (fun _ => ?_)
    | with_reducible assumption
    | with_reducible apply State.modCore_keeps
    | fail_if_no_progress with_reducible refine Keeps.other ?_ rfl rfl rfl rfl rfl rfl rfl rfl rfl rfl rfl rfl rfl rfl rfl rfl rfl rfl rfl rfl rfl rfl rfl rfl rfl rfl rfl rfl rfl rfl rfl rfl
    | with_reducible refine Keeps.foldl ?_ ?_
    | with_reducible refine Keeps.foldl1 ?_ ?_
    | with_reducible refine Keeps.getD (fun _ _ => ?_) ?_
    | intro _
    | dsimp only
    | split)

theorem State.semTake_keeps {μ} [Has μ .cores] {o s c sem v} (h : Keeps μ o s) :
    Keeps μ o (State.semTake s c sem v) := by
  unfold State.semTake
  try dsimp only
  repeat' (first
    | with_reducible refine Keeps.ite (fun _ => ?_) (fun _ => ?_)
    | with_reducible assumption
    | with_reducible apply State.modCore_keeps
    | fail_if_no_progress with_reducible refine Keeps.other ?_ rfl rfl rfl rfl rfl rfl rfl rfl rfl rfl rfl rfl rfl rfl rfl rfl rfl rfl rfl rfl rfl rfl rfl rfl rfl rfl rfl rfl rfl rfl rfl rfl
    | with_reducible refine Keeps.foldl ?_ ?_
    | with_reducible refine Keeps.foldl1 ?_ ?_
    | with_reducible refine Keeps.getD (fun _ _ => ?_) ?_
    | intro _
    | dsimp only
    | split)

theorem State.countNonfinite_keeps {μ} [Has μ .cores] [Has μ .regs] [Has μ .obs] {o s c k2 pc n} (h : Keeps μ o s) :
    Keeps μ o (State.countNonfinite s c k2 pc n) := by
  unfold State.countNonfinite
  try dsimp only
  repeat' (first
    | with_reducible refine Keeps.ite (fun _ => ?_) (fun _ => ?_)
    | with_reducible assumption
    | with_reducible apply State.bumpCore_keeps
    | with_reducible apply State.modCtx_keeps
    | with_reducible apply State.record_keeps
    | fail_if_no_progress with_reducible refine Keeps.other ?_ rfl rfl rfl rfl rfl rfl rfl rfl rfl rfl rfl rfl rfl rfl rfl rfl rfl rfl rfl rfl rfl rfl rfl rfl rfl rfl rfl rfl rfl rfl rfl rfl
    | with_reducible refine Keeps.foldl ?_ ?_
    | with_reducible refine Keeps.foldl1 ?_ ?_
    | with_reducible refine Keeps.getD (fun _ _ => ?_) ?_
    | intro _
    | dsimp only
    | split)

theorem State.resetRouterKept_keeps {μ} [Has μ .jobs] [Has μ .host] [Has μ .regs] [Has μ .obs] {o s c} (h : Keeps μ o s) :
    Keeps μ o (State.resetRouterKept s c) := by
  unfold State.resetRouterKept
  try dsimp only
  repeat' (first
    | with_reducible refine Keeps.ite (fun _ => ?_) (fun _ => ?_)
    | with_reducible assumption
    | with_reducible apply State.resetRouterSet_keeps
    | with_reducible apply State.keepSat_keeps
    | fail_if_no_progress with_reducible refine Keeps.other ?_ rfl rfl rfl rfl rfl rfl rfl rfl rfl rfl rfl rfl rfl rfl rfl rfl rfl rfl rfl rfl rfl rfl rfl rfl rfl rfl rfl rfl rfl rfl rfl rfl
    | with_reducible refine Keeps.foldl ?_ ?_
    | with_reducible refine Keeps.foldl1 ?_ ?_
    | with_reducible refine Keeps.getD (fun _ _ => ?_) ?_
    | intro _
    | dsimp only
    | split)

theorem State.semAdd_keeps {μ} [Has μ .cores] [Has μ .regs] [Has μ .obs] {o s c sem v} (h : Keeps μ o s) :
    Keeps μ o (State.semAdd s c sem v) := by
  unfold State.semAdd
  try dsimp only
  repeat' (first
    | with_reducible refine Keeps.ite (fun _ => ?_) (fun _ => ?_)
    | with_reducible assumption
    | with_reducible apply State.modCore_keeps
    | with_reducible apply State.record_keeps
    | fail_if_no_progress with_reducible refine Keeps.other ?_ rfl rfl rfl rfl rfl rfl rfl rfl rfl rfl rfl rfl rfl rfl rfl rfl rfl rfl rfl rfl rfl rfl rfl rfl rfl rfl rfl rfl rfl rfl rfl rfl
    | with_reducible refine Keeps.foldl ?_ ?_
    | with_reducible refine Keeps.foldl1 ?_ ?_
    | with_reducible refine Keeps.getD (fun _ _ => ?_) ?_
    | intro _
    | dsimp only
    | split)

theorem State.semInc_keeps {μ} [Has μ .cores] [Has μ .regs] [Has μ .obs] {o s c sem v how} (h : Keeps μ o s) :
    Keeps μ o (State.semInc s c sem v how) := by
  unfold State.semInc
  try dsimp only
  repeat' (first
    | with_reducible refine Keeps.ite (fun _ => ?_) (fun _ => ?_)
    | with_reducible assumption
    | with_reducible apply State.semAdd_keeps
    | with_reducible apply State.trace_keeps
    | fail_if_no_progress with_reducible refine Keeps.other ?_ rfl rfl rfl rfl rfl rfl rfl rfl rfl rfl rfl rfl rfl rfl rfl rfl rfl rfl rfl rfl rfl rfl rfl rfl rfl rfl rfl rfl rfl rfl rfl rfl
    | with_reducible refine Keeps.foldl ?_ ?_
    | with_reducible refine Keeps.foldl1 ?_ ?_
    | with_reducible refine Keeps.getD (fun _ _ => ?_) ?_
    | intro _
    | dsimp only
    | split)

theorem State.semPut_keeps {μ} [Has μ .cores] {o s c sem v} (h : Keeps μ o s) :
    Keeps μ o (State.semPut s c sem v) := by
  unfold State.semPut
  try dsimp only
  repeat' (first
    | with_reducible refine Keeps.ite (fun _ => ?_) (fun _ => ?_)
    | with_reducible assumption
    | with_reducible apply State.modCore_keeps
    | fail_if_no_progress with_reducible refine Keeps.other ?_ rfl rfl rfl rfl rfl rfl rfl rfl rfl rfl rfl rfl rfl rfl rfl rfl rfl rfl rfl rfl rfl rfl rfl rfl rfl rfl rfl rfl rfl rfl rfl rfl
    | with_reducible refine Keeps.foldl ?_ ?_
    | with_reducible refine Keeps.foldl1 ?_ ?_
    | with_reducible refine Keeps.getD (fun _ _ => ?_) ?_
    | intro _
    | dsimp only
    | split)

end Sys2Proof.Machine
end

