-- ==== Sys2Proof/Laws/KeepsJobOps.lean ====
section
/-! SUPPORT. Every operation of Machine/JobOps.lean keeps the build, the queue and the form of memory. -/

set_option Elab.async false

set_option linter.unreachableTactic false
set_option linter.unusedTactic false

namespace Sys2Proof.Machine

theorem State.setRing_keeps {μ} [Has μ .host] {o s r x} (h : Keeps μ o s) :
    Keeps μ o (State.setRing s r x) := by
  unfold State.setRing
  try dsimp only
  repeat' (first
    | with_reducible refine Keeps.ite (fun _ => ?_) (fun _ => ?_)
    | with_reducible assumption
    | fail_if_no_progress with_reducible refine Keeps.other ?_ rfl rfl rfl rfl rfl rfl rfl rfl rfl rfl rfl rfl rfl rfl rfl rfl rfl rfl rfl rfl rfl rfl rfl rfl rfl rfl rfl rfl rfl rfl rfl rfl
    | with_reducible refine Keeps.foldl ?_ ?_
    | with_reducible refine Keeps.foldl1 ?_ ?_
    | with_reducible refine Keeps.getD (fun _ _ => ?_) ?_
    | intro _
    | dsimp only
    | split)

theorem State.finish_keeps {μ} [Has μ .host] [Has μ .regs] [Has μ .obs] {o s ring id st r0 r1} (h : Keeps μ o s) :
    Keeps μ o (State.finish s ring id st r0 r1) := by
  unfold State.finish
  try dsimp only
  repeat' (first
    | with_reducible refine Keeps.ite (fun _ => ?_) (fun _ => ?_)
    | with_reducible assumption
    | with_reducible apply State.record_keeps
    | with_reducible apply State.setRing_keeps
    | fail_if_no_progress with_reducible refine Keeps.other ?_ rfl rfl rfl rfl rfl rfl rfl rfl rfl rfl rfl rfl rfl rfl rfl rfl rfl rfl rfl rfl rfl rfl rfl rfl rfl rfl rfl rfl rfl rfl rfl rfl
    | with_reducible refine Keeps.foldl ?_ ?_
    | with_reducible refine Keeps.foldl1 ?_ ?_
    | with_reducible refine Keeps.getD (fun _ _ => ?_) ?_
    | intro _
    | dsimp only
    | split)

theorem State.endStep_keeps {μ} [Has μ .mem] [Has μ .jobs] [Has μ .host] [Has μ .regs] [Has μ .obs] {o s j r st} (h : Keeps μ o s) :
    Keeps μ o (State.endStep s j r st) := by
  unfold State.endStep
  try dsimp only
  repeat' (first
    | with_reducible refine Keeps.ite (fun _ => ?_) (fun _ => ?_)
    | with_reducible assumption
    | with_reducible apply State.saturation_keeps
    | with_reducible apply State.modJob_keeps
    | with_reducible apply State.storeHost_keeps
    | with_reducible apply State.finish_keeps
    | fail_if_no_progress with_reducible refine Keeps.other ?_ rfl rfl rfl rfl rfl rfl rfl rfl rfl rfl rfl rfl rfl rfl rfl rfl rfl rfl rfl rfl rfl rfl rfl rfl rfl rfl rfl rfl rfl rfl rfl rfl
    | with_reducible refine Keeps.foldl ?_ ?_
    | with_reducible refine Keeps.foldl1 ?_ ?_
    | with_reducible refine Keeps.getD (fun _ _ => ?_) ?_
    | intro _
    | dsimp only
    | split)

theorem State.abortSteps_keeps {μ} [Has μ .mem] [Has μ .jobs] [Has μ .host] [Has μ .regs] [Has μ .obs] {o s j st p} (h : Keeps μ o s) :
    Keeps μ o (State.abortSteps s j st p) := by
  unfold State.abortSteps
  try dsimp only
  repeat' (first
    | with_reducible refine Keeps.ite (fun _ => ?_) (fun _ => ?_)
    | with_reducible assumption
    | with_reducible apply State.endStep_keeps
    | fail_if_no_progress with_reducible refine Keeps.other ?_ rfl rfl rfl rfl rfl rfl rfl rfl rfl rfl rfl rfl rfl rfl rfl rfl rfl rfl rfl rfl rfl rfl rfl rfl rfl rfl rfl rfl rfl rfl rfl rfl
    | with_reducible refine Keeps.foldl ?_ ?_
    | with_reducible refine Keeps.foldl1 ?_ ?_
    | with_reducible refine Keeps.getD (fun _ _ => ?_) ?_
    | intro _
    | dsimp only
    | split)

theorem State.modCores_keeps {μ} [Has μ .cores] {o s cs f} (h : Keeps μ o s) :
    Keeps μ o (State.modCores s cs f) := by
  unfold State.modCores
  try dsimp only
  repeat' (first
    | with_reducible refine Keeps.ite (fun _ => ?_) (fun _ => ?_)
    | with_reducible assumption
    | with_reducible apply State.modCore_keeps
    | fail_if_no_progress with_reducible refine Keeps.other ?_ rfl rfl rfl rfl rfl rfl rfl rfl rfl rfl rfl rfl rfl rfl rfl rfl rfl rfl rfl rfl rfl rfl rfl rfl rfl rfl rfl rfl rfl rfl rfl rfl
    | with_reducible refine Keeps.foldl ?_ ?_
    | with_reducible refine Keeps.foldl1 ?_ ?_
    | with_reducible refine Keeps.getD (fun _ _ => ?_) ?_
    | intro _
    | dsimp only
    | split)

theorem State.releaseHold_keeps {μ} [Has μ .cores] {o s c} (h : Keeps μ o s) :
    Keeps μ o (State.releaseHold s c) := by
  unfold State.releaseHold
  try dsimp only
  repeat' (first
    | with_reducible refine Keeps.ite (fun _ => ?_) (fun _ => ?_)
    | with_reducible assumption
    | with_reducible apply State.modCore_keeps
    | fail_if_no_progress with_reducible refine Keeps.other ?_ rfl rfl rfl rfl rfl rfl rfl rfl rfl rfl rfl rfl rfl rfl rfl rfl rfl rfl rfl rfl rfl rfl rfl rfl rfl rfl rfl rfl rfl rfl rfl rfl
    | with_reducible refine Keeps.foldl ?_ ?_
    | with_reducible refine Keeps.foldl1 ?_ ?_
    | with_reducible refine Keeps.getD (fun _ _ => ?_) ?_
    | intro _
    | dsimp only
    | split)

theorem State.forgetHalted_keeps {μ} [Has μ .clk] {o s cs} (h : Keeps μ o s) :
    Keeps μ o (State.forgetHalted s cs) := by
  unfold State.forgetHalted
  try dsimp only
  repeat' (first
    | with_reducible refine Keeps.ite (fun _ => ?_) (fun _ => ?_)
    | with_reducible assumption
    | fail_if_no_progress with_reducible refine Keeps.other ?_ rfl rfl rfl rfl rfl rfl rfl rfl rfl rfl rfl rfl rfl rfl rfl rfl rfl rfl rfl rfl rfl rfl rfl rfl rfl rfl rfl rfl rfl rfl rfl rfl
    | with_reducible refine Keeps.foldl ?_ ?_
    | with_reducible refine Keeps.foldl1 ?_ ?_
    | with_reducible refine Keeps.getD (fun _ _ => ?_) ?_
    | intro _
    | dsimp only
    | split)

theorem State.startCore_keeps {μ} [Has μ .cores] [Has μ .clk] {o s c} (h : Keeps μ o s) :
    Keeps μ o (State.startCore s c) := by
  unfold State.startCore
  try dsimp only
  repeat' (first
    | with_reducible refine Keeps.ite (fun _ => ?_) (fun _ => ?_)
    | with_reducible assumption
    | with_reducible apply State.releaseHold_keeps
    | with_reducible apply State.modCore_keeps
    | fail_if_no_progress with_reducible refine Keeps.other ?_ rfl rfl rfl rfl rfl rfl rfl rfl rfl rfl rfl rfl rfl rfl rfl rfl rfl rfl rfl rfl rfl rfl rfl rfl rfl rfl rfl rfl rfl rfl rfl rfl
    | with_reducible refine Keeps.foldl ?_ ?_
    | with_reducible refine Keeps.foldl1 ?_ ?_
    | with_reducible refine Keeps.getD (fun _ _ => ?_) ?_
    | intro _
    | dsimp only
    | split)

theorem State.haltJob_keeps {μ} [Has μ .cores] [Has μ .clk] {o s j} (h : Keeps μ o s) :
    Keeps μ o (State.haltJob s j) := by
  unfold State.haltJob
  try dsimp only
  repeat' (first
    | with_reducible refine Keeps.ite (fun _ => ?_) (fun _ => ?_)
    | with_reducible assumption
    | with_reducible apply State.forgetHalted_keeps
    | with_reducible apply State.modCores_keeps
    | fail_if_no_progress with_reducible refine Keeps.other ?_ rfl rfl rfl rfl rfl rfl rfl rfl rfl rfl rfl rfl rfl rfl rfl rfl rfl rfl rfl rfl rfl rfl rfl rfl rfl rfl rfl rfl rfl rfl rfl rfl
    | with_reducible refine Keeps.foldl ?_ ?_
    | with_reducible refine Keeps.foldl1 ?_ ?_
    | with_reducible refine Keeps.getD (fun _ _ => ?_) ?_
    | intro _
    | dsimp only
    | split)

theorem State.finishOn_keeps {μ} [Has μ .host] [Has μ .regs] [Has μ .obs] {o s ring st p} (h : Keeps μ o s) :
    Keeps μ o (State.finishOn s ring st p) := by
  unfold State.finishOn
  try dsimp only
  repeat' (first
    | with_reducible refine Keeps.ite (fun _ => ?_) (fun _ => ?_)
    | with_reducible assumption
    | with_reducible apply State.finish_keeps
    | fail_if_no_progress with_reducible refine Keeps.other ?_ rfl rfl rfl rfl rfl rfl rfl rfl rfl rfl rfl rfl rfl rfl rfl rfl rfl rfl rfl rfl rfl rfl rfl rfl rfl rfl rfl rfl rfl rfl rfl rfl
    | with_reducible refine Keeps.foldl ?_ ?_
    | with_reducible refine Keeps.foldl1 ?_ ?_
    | with_reducible refine Keeps.getD (fun _ _ => ?_) ?_
    | intro _
    | dsimp only
    | split)

theorem State.finishAll_keeps {μ} [Has μ .host] [Has μ .regs] [Has μ .obs] {o s st p} (h : Keeps μ o s) :
    Keeps μ o (State.finishAll s st p) := by
  unfold State.finishAll
  try dsimp only
  repeat' (first
    | with_reducible refine Keeps.ite (fun _ => ?_) (fun _ => ?_)
    | with_reducible assumption
    | with_reducible apply State.finishOn_keeps
    | fail_if_no_progress with_reducible refine Keeps.other ?_ rfl rfl rfl rfl rfl rfl rfl rfl rfl rfl rfl rfl rfl rfl rfl rfl rfl rfl rfl rfl rfl rfl rfl rfl rfl rfl rfl rfl rfl rfl rfl rfl
    | with_reducible refine Keeps.foldl ?_ ?_
    | with_reducible refine Keeps.foldl1 ?_ ?_
    | with_reducible refine Keeps.getD (fun _ _ => ?_) ?_
    | intro _
    | dsimp only
    | split)

theorem State.failJobWith_keeps {μ} [Has μ .mem] [Has μ .cores] [Has μ .jobs] [Has μ .host] [Has μ .regs] [Has μ .clk] [Has μ .obs] {o s j st} (h : Keeps μ o s) :
    Keeps μ o (State.failJobWith s j st) := by
  unfold State.failJobWith
  try dsimp only
  repeat' (first
    | with_reducible refine Keeps.ite (fun _ => ?_) (fun _ => ?_)
    | with_reducible assumption
    | with_reducible apply State.haltJob_keeps
    | with_reducible apply State.abortSteps_keeps
    | with_reducible apply State.finishAll_keeps
    | with_reducible apply State.modJob_keeps
    | fail_if_no_progress with_reducible refine Keeps.other ?_ rfl rfl rfl rfl rfl rfl rfl rfl rfl rfl rfl rfl rfl rfl rfl rfl rfl rfl rfl rfl rfl rfl rfl rfl rfl rfl rfl rfl rfl rfl rfl rfl
    | with_reducible refine Keeps.foldl ?_ ?_
    | with_reducible refine Keeps.foldl1 ?_ ?_
    | with_reducible refine Keeps.getD (fun _ _ => ?_) ?_
    | intro _
    | dsimp only
    | split)

theorem State.failJob_keeps {μ} [Has μ .mem] [Has μ .cores] [Has μ .jobs] [Has μ .host] [Has μ .regs] [Has μ .clk] [Has μ .obs] {o s j} (h : Keeps μ o s) :
    Keeps μ o (State.failJob s j) := by
  unfold State.failJob
  try dsimp only
  repeat' (first
    | with_reducible refine Keeps.ite (fun _ => ?_) (fun _ => ?_)
    | with_reducible assumption
    | with_reducible apply State.failJobWith_keeps
    | fail_if_no_progress with_reducible refine Keeps.other ?_ rfl rfl rfl rfl rfl rfl rfl rfl rfl rfl rfl rfl rfl rfl rfl rfl rfl rfl rfl rfl rfl rfl rfl rfl rfl rfl rfl rfl rfl rfl rfl rfl
    | with_reducible refine Keeps.foldl ?_ ?_
    | with_reducible refine Keeps.foldl1 ?_ ?_
    | with_reducible refine Keeps.getD (fun _ _ => ?_) ?_
    | intro _
    | dsimp only
    | split)

theorem State.resumeJob_keeps {μ} [Has μ .cores] [Has μ .clk] {o s j} (h : Keeps μ o s) :
    Keeps μ o (State.resumeJob s j) := by
  unfold State.resumeJob
  try dsimp only
  repeat' (first
    | with_reducible refine Keeps.ite (fun _ => ?_) (fun _ => ?_)
    | with_reducible assumption
    | with_reducible apply State.startCore_keeps
    | fail_if_no_progress with_reducible refine Keeps.other ?_ rfl rfl rfl rfl rfl rfl rfl rfl rfl rfl rfl rfl rfl rfl rfl rfl rfl rfl rfl rfl rfl rfl rfl rfl rfl rfl rfl rfl rfl rfl rfl rfl
    | with_reducible refine Keeps.foldl ?_ ?_
    | with_reducible refine Keeps.foldl1 ?_ ?_
    | with_reducible refine Keeps.getD (fun _ _ => ?_) ?_
    | intro _
    | dsimp only
    | split)

theorem State.noteAccess_keeps {μ} [Has μ .regs] [Has μ .obs] {o s src a n write} (h : Keeps μ o s) :
    Keeps μ o (State.noteAccess s src a n write) := by
  unfold State.noteAccess
  try dsimp only
  repeat' (first
    | with_reducible refine Keeps.ite (fun _ => ?_) (fun _ => ?_)
    | with_reducible assumption
    | with_reducible apply State.unmapped_keeps
    | fail_if_no_progress with_reducible refine Keeps.other ?_ rfl rfl rfl rfl rfl rfl rfl rfl rfl rfl rfl rfl rfl rfl rfl rfl rfl rfl rfl rfl rfl rfl rfl rfl rfl rfl rfl rfl rfl rfl rfl rfl
    | with_reducible refine Keeps.foldl ?_ ?_
    | with_reducible refine Keeps.foldl1 ?_ ?_
    | with_reducible refine Keeps.getD (fun _ _ => ?_) ?_
    | intro _
    | dsimp only
    | split)

theorem State.failJobOf_keeps {μ} [Has μ .mem] [Has μ .cores] [Has μ .jobs] [Has μ .host] [Has μ .regs] [Has μ .clk] [Has μ .obs] {o s c} (h : Keeps μ o s) :
    Keeps μ o (State.failJobOf s c) := by
  unfold State.failJobOf
  try dsimp only
  repeat' (first
    | with_reducible refine Keeps.ite (fun _ => ?_) (fun _ => ?_)
    | with_reducible assumption
    | with_reducible apply State.failJob_keeps
    | fail_if_no_progress with_reducible refine Keeps.other ?_ rfl rfl rfl rfl rfl rfl rfl rfl rfl rfl rfl rfl rfl rfl rfl rfl rfl rfl rfl rfl rfl rfl rfl rfl rfl rfl rfl rfl rfl rfl rfl rfl
    | with_reducible refine Keeps.foldl ?_ ?_
    | with_reducible refine Keeps.foldl1 ?_ ?_
    | with_reducible refine Keeps.getD (fun _ _ => ?_) ?_
    | intro _
    | dsimp only
    | split)

end Sys2Proof.Machine
end

