-- ==== Sys2Proof/Laws/KeepsNetOps.lean ====
section
/-! SUPPORT. Every operation of Machine/NetOps.lean keeps the build, the queue and the form of memory. -/

set_option Elab.async false

set_option linter.unreachableTactic false
set_option linter.unusedTactic false

namespace Sys2Proof.Machine

theorem State.noteDrains_keeps {μ} [Has μ .wafer] {o s} (h : Keeps μ o s) :
    Keeps μ o (State.noteDrains s) := by
  unfold State.noteDrains
  try dsimp only
  repeat' (first
    | with_reducible refine Keeps.ite (fun _ => ?_) (fun _ => ?_)
    | with_reducible assumption
    | fail_if_no_progress with_reducible refine Keeps.other ?_ rfl rfl rfl rfl rfl rfl rfl rfl rfl rfl rfl rfl rfl rfl rfl rfl rfl rfl rfl rfl rfl rfl rfl rfl rfl rfl rfl rfl rfl rfl rfl rfl
    | with_reducible refine Keeps.foldl ?_ ?_
    | with_reducible refine Keeps.foldl1 ?_ ?_
    | with_reducible refine Keeps.getD (fun _ _ => ?_) ?_
    | intro _
    | dsimp only
    | split)

theorem State.freeSent_keeps {μ} [Has μ .cores] {o s c} (h : Keeps μ o s) :
    Keeps μ o (State.freeSent s c) := by
  unfold State.freeSent
  try dsimp only
  repeat' (first
    | with_reducible refine Keeps.ite (fun _ => ?_) (fun _ => ?_)
    | with_reducible assumption
    | with_reducible apply State.modCore_keeps
    | fail_if_no_progress with_reducible refine Keeps.other ?_ rfl rfl rfl rfl rfl rfl rfl rfl rfl rfl rfl rfl rfl rfl rfl rfl rfl rfl rfl rfl rfl rfl rfl rfl rfl rfl rfl rfl rfl rfl rfl rfl
    | with_reducible refine Keeps.foldl ?_ ?_
    | with_reducible refine Keeps.foldl1 ?_ ?_
    | with_reducible refine Keeps.getD (fun _ _ => ?_) ?_
    | intro _
    | dsimp only
    | split)

theorem State.enter_keeps {μ} [Has μ .net] {o s x} (h : Keeps μ o s) :
    Keeps μ o (State.enter s x) := by
  unfold State.enter
  try dsimp only
  repeat' (first
    | with_reducible refine Keeps.ite (fun _ => ?_) (fun _ => ?_)
    | with_reducible assumption
    | fail_if_no_progress with_reducible refine Keeps.other ?_ rfl rfl rfl rfl rfl rfl rfl rfl rfl rfl rfl rfl rfl rfl rfl rfl rfl rfl rfl rfl rfl rfl rfl rfl rfl rfl rfl rfl rfl rfl rfl rfl
    | with_reducible refine Keeps.foldl ?_ ?_
    | with_reducible refine Keeps.foldl1 ?_ ?_
    | with_reducible refine Keeps.getD (fun _ _ => ?_) ?_
    | intro _
    | dsimp only
    | split)

theorem State.setCapture_keeps {μ} [Has μ .obs] {o s u1 c} (h : Keeps μ o s) :
    Keeps μ o (State.setCapture s u1 c) := by
  unfold State.setCapture
  try dsimp only
  repeat' (first
    | with_reducible refine Keeps.ite (fun _ => ?_) (fun _ => ?_)
    | with_reducible assumption
    | fail_if_no_progress with_reducible refine Keeps.other ?_ rfl rfl rfl rfl rfl rfl rfl rfl rfl rfl rfl rfl rfl rfl rfl rfl rfl rfl rfl rfl rfl rfl rfl rfl rfl rfl rfl rfl rfl rfl rfl rfl
    | with_reducible refine Keeps.foldl ?_ ?_
    | with_reducible refine Keeps.foldl1 ?_ ?_
    | with_reducible refine Keeps.getD (fun _ _ => ?_) ?_
    | intro _
    | dsimp only
    | split)

theorem State.arrive_keeps {μ} [Has μ .obs] {o s u1 link f} (h : Keeps μ o s) :
    Keeps μ o (State.arrive s u1 link f) := by
  unfold State.arrive
  try dsimp only
  repeat' (first
    | with_reducible refine Keeps.ite (fun _ => ?_) (fun _ => ?_)
    | with_reducible assumption
    | with_reducible apply State.setCapture_keeps
    | fail_if_no_progress with_reducible refine Keeps.other ?_ rfl rfl rfl rfl rfl rfl rfl rfl rfl rfl rfl rfl rfl rfl rfl rfl rfl rfl rfl rfl rfl rfl rfl rfl rfl rfl rfl rfl rfl rfl rfl rfl
    | with_reducible refine Keeps.foldl ?_ ?_
    | with_reducible refine Keeps.foldl1 ?_ ?_
    | with_reducible refine Keeps.getD (fun _ _ => ?_) ?_
    | intro _
    | dsimp only
    | split)

theorem State.admitOne_keeps {μ} [Has μ .net] [Has μ .obs] {o s x} (h : Keeps μ o s) :
    Keeps μ o (State.admitOne s x) := by
  unfold State.admitOne
  try dsimp only
  repeat' (first
    | with_reducible refine Keeps.ite (fun _ => ?_) (fun _ => ?_)
    | with_reducible assumption
    | with_reducible apply State.enter_keeps
    | with_reducible apply State.arrive_keeps
    | fail_if_no_progress with_reducible refine Keeps.other ?_ rfl rfl rfl rfl rfl rfl rfl rfl rfl rfl rfl rfl rfl rfl rfl rfl rfl rfl rfl rfl rfl rfl rfl rfl rfl rfl rfl rfl rfl rfl rfl rfl
    | with_reducible refine Keeps.foldl ?_ ?_
    | with_reducible refine Keeps.foldl1 ?_ ?_
    | with_reducible refine Keeps.getD (fun _ _ => ?_) ?_
    | intro _
    | dsimp only
    | split)

theorem State.admit_keeps {μ} [Has μ .cores] [Has μ .net] [Has μ .obs] {o s r} (h : Keeps μ o s) :
    Keeps μ o (State.admitAt s r) := by
  unfold State.admitAt
  try dsimp only
  repeat' (first
    | with_reducible refine Keeps.ite (fun _ => ?_) (fun _ => ?_)
    | with_reducible assumption
    | with_reducible apply State.freeSent_keeps
    | with_reducible apply State.admitOne_keeps
    | fail_if_no_progress with_reducible refine Keeps.other ?_ rfl rfl rfl rfl rfl rfl rfl rfl rfl rfl rfl rfl rfl rfl rfl rfl rfl rfl rfl rfl rfl rfl rfl rfl rfl rfl rfl rfl rfl rfl rfl rfl
    | with_reducible refine Keeps.foldl ?_ ?_
    | with_reducible refine Keeps.foldl1 ?_ ?_
    | with_reducible refine Keeps.getD (fun _ _ => ?_) ?_
    | intro _
    | dsimp only
    | split)

theorem State.leave_keeps {μ} [Has μ .net] {o s x} (h : Keeps μ o s) :
    Keeps μ o (State.leave s x) := by
  unfold State.leave
  try dsimp only
  repeat' (first
    | with_reducible refine Keeps.ite (fun _ => ?_) (fun _ => ?_)
    | with_reducible assumption
    | fail_if_no_progress with_reducible refine Keeps.other ?_ rfl rfl rfl rfl rfl rfl rfl rfl rfl rfl rfl rfl rfl rfl rfl rfl rfl rfl rfl rfl rfl rfl rfl rfl rfl rfl rfl rfl rfl rfl rfl rfl
    | with_reducible refine Keeps.foldl ?_ ?_
    | with_reducible refine Keeps.foldl1 ?_ ?_
    | with_reducible refine Keeps.getD (fun _ _ => ?_) ?_
    | intro _
    | dsimp only
    | split)

theorem State.pullSeam_keeps {μ} [Has μ .net] {o s r} (h : Keeps μ o s) :
    Keeps μ o (State.pullSeam s r) := by
  unfold State.pullSeam
  try dsimp only
  repeat' (first
    | with_reducible refine Keeps.ite (fun _ => ?_) (fun _ => ?_)
    | with_reducible assumption
    | with_reducible apply State.enter_keeps
    | with_reducible apply State.leave_keeps
    | fail_if_no_progress with_reducible refine Keeps.other ?_ rfl rfl rfl rfl rfl rfl rfl rfl rfl rfl rfl rfl rfl rfl rfl rfl rfl rfl rfl rfl rfl rfl rfl rfl rfl rfl rfl rfl rfl rfl rfl rfl
    | with_reducible refine Keeps.foldl ?_ ?_
    | with_reducible refine Keeps.foldl1 ?_ ?_
    | with_reducible refine Keeps.getD (fun _ _ => ?_) ?_
    | intro _
    | dsimp only
    | split)

theorem State.refill_keeps {μ} [Has μ .cores] [Has μ .net] [Has μ .obs] {o s r} (h : Keeps μ o s) :
    Keeps μ o (State.refill s r) := by
  unfold State.refill
  try dsimp only
  repeat' (first
    | with_reducible refine Keeps.ite (fun _ => ?_) (fun _ => ?_)
    | with_reducible assumption
    | with_reducible apply State.admit_keeps
    | with_reducible apply State.pullSeam_keeps
    | fail_if_no_progress with_reducible refine Keeps.other ?_ rfl rfl rfl rfl rfl rfl rfl rfl rfl rfl rfl rfl rfl rfl rfl rfl rfl rfl rfl rfl rfl rfl rfl rfl rfl rfl rfl rfl rfl rfl rfl rfl
    | with_reducible refine Keeps.foldl ?_ ?_
    | with_reducible refine Keeps.foldl1 ?_ ?_
    | with_reducible refine Keeps.getD (fun _ _ => ?_) ?_
    | intro _
    | dsimp only
    | split)

theorem State.absorbAt_keeps {μ} [Has μ .obs] {o s router} (h : Keeps μ o s) :
    Keeps μ o (State.absorbAt s router) := by
  unfold State.absorbAt
  try dsimp only
  repeat' (first
    | with_reducible refine Keeps.ite (fun _ => ?_) (fun _ => ?_)
    | with_reducible assumption
    | with_reducible apply State.bumpRouter_keeps
    | fail_if_no_progress with_reducible refine Keeps.other ?_ rfl rfl rfl rfl rfl rfl rfl rfl rfl rfl rfl rfl rfl rfl rfl rfl rfl rfl rfl rfl rfl rfl rfl rfl rfl rfl rfl rfl rfl rfl rfl rfl
    | with_reducible refine Keeps.foldl ?_ ?_
    | with_reducible refine Keeps.foldl1 ?_ ?_
    | with_reducible refine Keeps.getD (fun _ _ => ?_) ?_
    | intro _
    | dsimp only
    | split)

theorem State.offer_keeps {μ} [Has μ .net] [Has μ .obs] {o s entry at_ f} (h : Keeps μ o s) :
    Keeps μ o (State.offer s entry at_ f) := by
  unfold State.offer
  try dsimp only
  repeat' (first
    | with_reducible refine Keeps.ite (fun _ => ?_) (fun _ => ?_)
    | with_reducible assumption
    | with_reducible apply State.absorbAt_keeps
    | fail_if_no_progress with_reducible refine Keeps.other ?_ rfl rfl rfl rfl rfl rfl rfl rfl rfl rfl rfl rfl rfl rfl rfl rfl rfl rfl rfl rfl rfl rfl rfl rfl rfl rfl rfl rfl rfl rfl rfl rfl
    | with_reducible refine Keeps.foldl ?_ ?_
    | with_reducible refine Keeps.foldl1 ?_ ?_
    | with_reducible refine Keeps.getD (fun _ _ => ?_) ?_
    | intro _
    | dsimp only
    | split)

theorem State.injectAll_keeps {μ} [Has μ .cores] [Has μ .net] [Has μ .obs] {o s entry at_ fs} (h : Keeps μ o s) :
    Keeps μ o (State.injectAll s entry at_ fs) := by
  unfold State.injectAll
  try dsimp only
  repeat' (first
    | with_reducible refine Keeps.ite (fun _ => ?_) (fun _ => ?_)
    | with_reducible assumption
    | with_reducible apply State.admit_keeps
    | with_reducible apply State.offer_keeps
    | fail_if_no_progress with_reducible refine Keeps.other ?_ rfl rfl rfl rfl rfl rfl rfl rfl rfl rfl rfl rfl rfl rfl rfl rfl rfl rfl rfl rfl rfl rfl rfl rfl rfl rfl rfl rfl rfl rfl rfl rfl
    | with_reducible refine Keeps.foldl ?_ ?_
    | with_reducible refine Keeps.foldl1 ?_ ?_
    | with_reducible refine Keeps.getD (fun _ _ => ?_) ?_
    | intro _
    | dsimp only
    | split)

theorem State.inject_keeps {μ} [Has μ .cores] [Has μ .net] [Has μ .obs] {o s at_ f} (h : Keeps μ o s) :
    Keeps μ o (State.inject s at_ f) := by
  unfold State.inject
  try dsimp only
  repeat' (first
    | with_reducible refine Keeps.ite (fun _ => ?_) (fun _ => ?_)
    | with_reducible assumption
    | with_reducible apply State.injectAll_keeps
    | fail_if_no_progress with_reducible refine Keeps.other ?_ rfl rfl rfl rfl rfl rfl rfl rfl rfl rfl rfl rfl rfl rfl rfl rfl rfl rfl rfl rfl rfl rfl rfl rfl rfl rfl rfl rfl rfl rfl rfl rfl
    | with_reducible refine Keeps.foldl ?_ ?_
    | with_reducible refine Keeps.foldl1 ?_ ?_
    | with_reducible refine Keeps.getD (fun _ _ => ?_) ?_
    | intro _
    | dsimp only
    | split)

theorem State.sendFromSite_keeps {μ} [Has μ .cores] [Has μ .net] [Has μ .obs] {o s site f} (h : Keeps μ o s) :
    Keeps μ o (State.sendFromSite s site f) := by
  unfold State.sendFromSite
  try dsimp only
  repeat' (first
    | with_reducible refine Keeps.ite (fun _ => ?_) (fun _ => ?_)
    | with_reducible assumption
    | with_reducible apply State.inject_keeps
    | fail_if_no_progress with_reducible refine Keeps.other ?_ rfl rfl rfl rfl rfl rfl rfl rfl rfl rfl rfl rfl rfl rfl rfl rfl rfl rfl rfl rfl rfl rfl rfl rfl rfl rfl rfl rfl rfl rfl rfl rfl
    | with_reducible refine Keeps.foldl ?_ ?_
    | with_reducible refine Keeps.foldl1 ?_ ?_
    | with_reducible refine Keeps.getD (fun _ _ => ?_) ?_
    | intro _
    | dsimp only
    | split)

theorem State.sendAllFromSite_keeps {μ} [Has μ .cores] [Has μ .net] [Has μ .obs] {o s site fs} (h : Keeps μ o s) :
    Keeps μ o (State.sendAllFromSite s site fs) := by
  unfold State.sendAllFromSite
  try dsimp only
  repeat' (first
    | with_reducible refine Keeps.ite (fun _ => ?_) (fun _ => ?_)
    | with_reducible assumption
    | with_reducible apply State.sendFromSite_keeps
    | fail_if_no_progress with_reducible refine Keeps.other ?_ rfl rfl rfl rfl rfl rfl rfl rfl rfl rfl rfl rfl rfl rfl rfl rfl rfl rfl rfl rfl rfl rfl rfl rfl rfl rfl rfl rfl rfl rfl rfl rfl
    | with_reducible refine Keeps.foldl ?_ ?_
    | with_reducible refine Keeps.foldl1 ?_ ?_
    | with_reducible refine Keeps.getD (fun _ _ => ?_) ?_
    | intro _
    | dsimp only
    | split)

theorem State.sendFromCore_keeps {μ} [Has μ .cores] [Has μ .net] [Has μ .obs] {o s c f} (h : Keeps μ o s) :
    Keeps μ o (State.sendFromCore s c f) := by
  unfold State.sendFromCore
  try dsimp only
  repeat' (first
    | with_reducible refine Keeps.ite (fun _ => ?_) (fun _ => ?_)
    | with_reducible assumption
    | with_reducible apply State.inject_keeps
    | fail_if_no_progress with_reducible refine Keeps.other ?_ rfl rfl rfl rfl rfl rfl rfl rfl rfl rfl rfl rfl rfl rfl rfl rfl rfl rfl rfl rfl rfl rfl rfl rfl rfl rfl rfl rfl rfl rfl rfl rfl
    | with_reducible refine Keeps.foldl ?_ ?_
    | with_reducible refine Keeps.foldl1 ?_ ?_
    | with_reducible refine Keeps.getD (fun _ _ => ?_) ?_
    | intro _
    | dsimp only
    | split)

theorem State.sendFrom_keeps {μ} [Has μ .cores] [Has μ .net] [Has μ .obs] {o s u1 f} (h : Keeps μ o s) :
    Keeps μ o (State.sendFrom s u1 f) := by
  unfold State.sendFrom
  try dsimp only
  repeat' (first
    | with_reducible refine Keeps.ite (fun _ => ?_) (fun _ => ?_)
    | with_reducible assumption
    | with_reducible apply State.sendFromCore_keeps
    | with_reducible apply State.sendFromSite_keeps
    | with_reducible apply State.inject_keeps
    | fail_if_no_progress with_reducible refine Keeps.other ?_ rfl rfl rfl rfl rfl rfl rfl rfl rfl rfl rfl rfl rfl rfl rfl rfl rfl rfl rfl rfl rfl rfl rfl rfl rfl rfl rfl rfl rfl rfl rfl rfl
    | with_reducible refine Keeps.foldl ?_ ?_
    | with_reducible refine Keeps.foldl1 ?_ ?_
    | with_reducible refine Keeps.getD (fun _ _ => ?_) ?_
    | intro _
    | dsimp only
    | split)

theorem State.deliver_keeps {μ} [Has μ .cores] [Has μ .net] [Has μ .obs] {o s u1 c off bs sem} (h : Keeps μ o s) :
    Keeps μ o (State.deliver s u1 c off bs sem) := by
  unfold State.deliver
  try dsimp only
  repeat' (first
    | with_reducible refine Keeps.ite (fun _ => ?_) (fun _ => ?_)
    | with_reducible assumption
    | with_reducible apply State.sendFrom_keeps
    | fail_if_no_progress with_reducible refine Keeps.other ?_ rfl rfl rfl rfl rfl rfl rfl rfl rfl rfl rfl rfl rfl rfl rfl rfl rfl rfl rfl rfl rfl rfl rfl rfl rfl rfl rfl rfl rfl rfl rfl rfl
    | with_reducible refine Keeps.foldl ?_ ?_
    | with_reducible refine Keeps.foldl1 ?_ ?_
    | with_reducible refine Keeps.getD (fun _ _ => ?_) ?_
    | intro _
    | dsimp only
    | split)

theorem State.admitAll_keeps {μ} [Has μ .cores] [Has μ .net] [Has μ .obs] {o s} (h : Keeps μ o s) :
    Keeps μ o (State.admitAll s) := by
  unfold State.admitAll
  try dsimp only
  repeat' (first
    | with_reducible refine Keeps.ite (fun _ => ?_) (fun _ => ?_)
    | with_reducible assumption
    | with_reducible apply State.admit_keeps
    | fail_if_no_progress with_reducible refine Keeps.other ?_ rfl rfl rfl rfl rfl rfl rfl rfl rfl rfl rfl rfl rfl rfl rfl rfl rfl rfl rfl rfl rfl rfl rfl rfl rfl rfl rfl rfl rfl rfl rfl rfl
    | with_reducible refine Keeps.foldl ?_ ?_
    | with_reducible refine Keeps.foldl1 ?_ ?_
    | with_reducible refine Keeps.getD (fun _ _ => ?_) ?_
    | intro _
    | dsimp only
    | split)

theorem State.settleTokens_keeps {μ} [Has μ .host] [Has μ .regs] [Has μ .obs] {o s} (h : Keeps μ o s) :
    Keeps μ o (State.settleTokens s) := by
  unfold State.settleTokens
  try dsimp only
  repeat' (first
    | with_reducible refine Keeps.ite (fun _ => ?_) (fun _ => ?_)
    | with_reducible assumption
    | with_reducible apply State.finish_keeps
    | fail_if_no_progress with_reducible refine Keeps.other ?_ rfl rfl rfl rfl rfl rfl rfl rfl rfl rfl rfl rfl rfl rfl rfl rfl rfl rfl rfl rfl rfl rfl rfl rfl rfl rfl rfl rfl rfl rfl rfl rfl
    | with_reducible refine Keeps.foldl ?_ ?_
    | with_reducible refine Keeps.foldl1 ?_ ?_
    | with_reducible refine Keeps.getD (fun _ _ => ?_) ?_
    | intro _
    | dsimp only
    | split)

theorem State.take_keeps_eq {μ} [Has μ .cores] [Has μ .net] [Has μ .wafer] [Has μ .host] [Has μ .regs] [Has μ .obs] {u o s f} (e : State.take s f = some u) (h : Keeps μ o s) : Keeps μ o u := by
  unfold State.take at e
  obtain ⟨x, -, rfl⟩ := Option.map_eq_some_iff.mp e
  · skip
    try dsimp only
    repeat' (first
      | with_reducible refine Keeps.ite (fun _ => ?_) (fun _ => ?_)
      | with_reducible assumption
      | with_reducible apply State.settleTokens_keeps
      | with_reducible apply State.noteDrains_keeps
      | with_reducible apply State.arrive_keeps
      | with_reducible apply State.refill_keeps
      | with_reducible apply State.leave_keeps
      | fail_if_no_progress with_reducible refine Keeps.other ?_ rfl rfl rfl rfl rfl rfl rfl rfl rfl rfl rfl rfl rfl rfl rfl rfl rfl rfl rfl rfl rfl rfl rfl rfl rfl rfl rfl rfl rfl rfl rfl rfl
      | with_reducible refine Keeps.getD (fun _ _ => ?_) ?_
      | intro _
      | dsimp only
      | split)

theorem State.onArrival_keeps {μ} [Has μ .cores] [Has μ .net] [Has μ .wafer] [Has μ .host] [Has μ .regs] [Has μ .obs] {o s f g} (h : Keeps μ o s) (h2 : ∀ x0, Keeps μ o x0 → Keeps μ o (g x0)) :
    Keeps μ o (State.onArrival s f g) := by
  unfold State.onArrival
  try dsimp only
  repeat' (first
    | with_reducible refine Keeps.ite (fun _ => ?_) (fun _ => ?_)
    | with_reducible assumption
    | with_reducible apply h2
    | with_reducible apply State.take_keeps
    | with_reducible refine State.take_keeps_eq (by assumption) ?_
    | fail_if_no_progress with_reducible refine Keeps.other ?_ rfl rfl rfl rfl rfl rfl rfl rfl rfl rfl rfl rfl rfl rfl rfl rfl rfl rfl rfl rfl rfl rfl rfl rfl rfl rfl rfl rfl rfl rfl rfl rfl
    | with_reducible refine Keeps.foldl ?_ ?_
    | with_reducible refine Keeps.foldl1 ?_ ?_
    | with_reducible refine Keeps.getD (fun _ _ => ?_) ?_
    | intro _
    | dsimp only
    | split)

theorem State.countAbsorbed_keeps {μ} [Has μ .obs] {o s u1} (h : Keeps μ o s) :
    Keeps μ o (State.countAbsorbed s u1) := by
  unfold State.countAbsorbed
  try dsimp only
  repeat' (first
    | with_reducible refine Keeps.ite (fun _ => ?_) (fun _ => ?_)
    | with_reducible assumption
    | with_reducible apply State.bumpRouter_keeps
    | with_reducible apply State.bumpSite_keeps
    | fail_if_no_progress with_reducible refine Keeps.other ?_ rfl rfl rfl rfl rfl rfl rfl rfl rfl rfl rfl rfl rfl rfl rfl rfl rfl rfl rfl rfl rfl rfl rfl rfl rfl rfl rfl rfl rfl rfl rfl rfl
    | with_reducible refine Keeps.foldl ?_ ?_
    | with_reducible refine Keeps.foldl1 ?_ ?_
    | with_reducible refine Keeps.getD (fun _ _ => ?_) ?_
    | intro _
    | dsimp only
    | split)

theorem State.unexpected_keeps {μ} [Has μ .regs] [Has μ .obs] {o s f} (h : Keeps μ o s) :
    Keeps μ o (State.unexpected s f) := by
  unfold State.unexpected
  try dsimp only
  repeat' (first
    | with_reducible refine Keeps.ite (fun _ => ?_) (fun _ => ?_)
    | with_reducible assumption
    | with_reducible apply State.record_keeps
    | with_reducible apply State.countAbsorbed_keeps
    | fail_if_no_progress with_reducible refine Keeps.other ?_ rfl rfl rfl rfl rfl rfl rfl rfl rfl rfl rfl rfl rfl rfl rfl rfl rfl rfl rfl rfl rfl rfl rfl rfl rfl rfl rfl rfl rfl rfl rfl rfl
    | with_reducible refine Keeps.foldl ?_ ?_
    | with_reducible refine Keeps.foldl1 ?_ ?_
    | with_reducible refine Keeps.getD (fun _ _ => ?_) ?_
    | intro _
    | dsimp only
    | split)

theorem countLast_seq {p : Record → Bool} (l : List Record) :
    (countLast p countInFence l).map (·.seq) = l.map (·.seq) := by
  induction l with
  | nil => rfl
  | cons r l ih =>
    unfold countLast
    split
    · rfl
    · rw [List.map_cons, List.map_cons, ih]

theorem LogOk.counted {l : List Record} {n : Nat} {p : Record → Bool} (h : LogOk l n) :
    LogOk (countLast p countInFence l) n := by
  have m := countLast_seq (p := p) l
  have len : (countLast p countInFence l).length = l.length := by
    have := congrArg List.length m
    rwa [List.length_map, List.length_map] at this
  refine ⟨len ▸ h.room, m ▸ h.rising, fun x hx => ?_⟩
  have hx : x.seq ∈ l.map (·.seq) := m ▸ List.mem_map_of_mem hx
  obtain ⟨y, hy, e⟩ := List.mem_map.mp hx
  exact e ▸ h.given y hy

theorem State.countFenced_keeps {μ} [Has μ .obs] {o s c} (h : Keeps μ o s) : Keeps μ o (State.countFenced s c) :=
  Keeps.upd h rfl rfl rfl rfl id (fun q => { q with
    log := q.log.counted
    full := fun f => by
      have m := congrArg List.length (countLast_seq (p := fun r => decide (r.kind = .coreFenced ∧ r.skind = 0 ∧ r.source = c)) s.obs.log)
      rw [List.length_map, List.length_map] at m
      exact m ▸ q.full f })

theorem State.atCore_keeps {μ} [Has μ .cores] [Has μ .net] [Has μ .wafer] [Has μ .host] [Has μ .regs] [Has μ .obs] {o s f op g} (h : Keeps μ o s) (h3 : ∀ x0 x1, Keeps μ o x0 → Keeps μ o (g x0 x1)) :
    Keeps μ o (State.atCore s f op g) := by
  unfold State.atCore
  try dsimp only
  repeat' (first
    | with_reducible refine Keeps.ite (fun _ => ?_) (fun _ => ?_)
    | with_reducible assumption
    | with_reducible apply h3
    | with_reducible apply State.onArrival_keeps
    | with_reducible apply State.unexpected_keeps
    | with_reducible apply State.absorbAt_keeps
    | with_reducible apply State.countFenced_keeps
    | fail_if_no_progress with_reducible refine Keeps.other ?_ rfl rfl rfl rfl rfl rfl rfl rfl rfl rfl rfl rfl rfl rfl rfl rfl rfl rfl rfl rfl rfl rfl rfl rfl rfl rfl rfl rfl rfl rfl rfl rfl
    | with_reducible refine Keeps.foldl ?_ ?_
    | with_reducible refine Keeps.foldl1 ?_ ?_
    | with_reducible refine Keeps.getD (fun _ _ => ?_) ?_
    | intro _
    | dsimp only
    | split)

end Sys2Proof.Machine
end

