-- ==== Sys2Proof/Laws/KeepsFabricOps.lean ====
section
/-! SUPPORT. Every operation of Machine/FabricOps.lean keeps the build, the queue and the form of memory. -/

set_option Elab.async false

set_option linter.unreachableTactic false
set_option linter.unusedTactic false

namespace Sys2Proof.Machine

theorem State.bumpPort_keeps {μ} [Has μ .obs] {o s p k2 n} (h : Keeps μ o s) :
    Keeps μ o (State.bumpPort s p k2 n) := by
  unfold State.bumpPort
  try dsimp only
  repeat' (first
    | with_reducible refine Keeps.ite (fun _ => ?_) (fun _ => ?_)
    | with_reducible assumption
    | with_reducible apply State.bumpSite_keeps
    | fail_if_no_progress with_reducible refine Keeps.other ?_ rfl rfl rfl rfl rfl rfl rfl rfl rfl rfl rfl rfl rfl rfl rfl rfl rfl rfl rfl rfl rfl rfl rfl rfl rfl rfl rfl rfl rfl rfl rfl rfl
    | with_reducible refine Keeps.foldl ?_ ?_
    | with_reducible refine Keeps.foldl1 ?_ ?_
    | with_reducible refine Keeps.getD (fun _ _ => ?_) ?_
    | intro _
    | dsimp only
    | split)

theorem State.setIoSite_keeps {μ} [Has μ .fabric] {o s i x} (h : Keeps μ o s) :
    Keeps μ o (State.setIoSite s i x) := by
  unfold State.setIoSite
  try dsimp only
  repeat' (first
    | with_reducible refine Keeps.ite (fun _ => ?_) (fun _ => ?_)
    | with_reducible assumption
    | fail_if_no_progress with_reducible refine Keeps.other ?_ rfl rfl rfl rfl rfl rfl rfl rfl rfl rfl rfl rfl rfl rfl rfl rfl rfl rfl rfl rfl rfl rfl rfl rfl rfl rfl rfl rfl rfl rfl rfl rfl
    | with_reducible refine Keeps.foldl ?_ ?_
    | with_reducible refine Keeps.foldl1 ?_ ?_
    | with_reducible refine Keeps.getD (fun _ _ => ?_) ?_
    | intro _
    | dsimp only
    | split)

theorem State.modIoSite_keeps {μ} [Has μ .fabric] {o s i f} (h : Keeps μ o s) :
    Keeps μ o (State.modIoSite s i f) := by
  unfold State.modIoSite
  try dsimp only
  repeat' (first
    | with_reducible refine Keeps.ite (fun _ => ?_) (fun _ => ?_)
    | with_reducible assumption
    | with_reducible apply State.setIoSite_keeps
    | fail_if_no_progress with_reducible refine Keeps.other ?_ rfl rfl rfl rfl rfl rfl rfl rfl rfl rfl rfl rfl rfl rfl rfl rfl rfl rfl rfl rfl rfl rfl rfl rfl rfl rfl rfl rfl rfl rfl rfl rfl
    | with_reducible refine Keeps.foldl ?_ ?_
    | with_reducible refine Keeps.foldl1 ?_ ?_
    | with_reducible refine Keeps.getD (fun _ _ => ?_) ?_
    | intro _
    | dsimp only
    | split)

theorem State.noteSender_keeps {μ} [Has μ .fabric] [Has μ .regs] [Has μ .obs] {o s site w} (h : Keeps μ o s) :
    Keeps μ o (State.noteSender s site w) := by
  unfold State.noteSender
  try dsimp only
  repeat' (first
    | with_reducible refine Keeps.ite (fun _ => ?_) (fun _ => ?_)
    | with_reducible assumption
    | with_reducible apply State.modIoSite_keeps
    | with_reducible apply State.record_keeps
    | fail_if_no_progress with_reducible refine Keeps.other ?_ rfl rfl rfl rfl rfl rfl rfl rfl rfl rfl rfl rfl rfl rfl rfl rfl rfl rfl rfl rfl rfl rfl rfl rfl rfl rfl rfl rfl rfl rfl rfl rfl
    | with_reducible refine Keeps.foldl ?_ ?_
    | with_reducible refine Keeps.foldl1 ?_ ?_
    | with_reducible refine Keeps.getD (fun _ _ => ?_) ?_
    | intro _
    | dsimp only
    | split)

theorem State.sendFrame_keeps {μ} [Has μ .fabric] [Has μ .regs] [Has μ .obs] {o s site head t} (h : Keeps μ o s) :
    Keeps μ o (State.sendFrame s site head t) := by
  unfold State.sendFrame
  try dsimp only
  repeat' (first
    | with_reducible refine Keeps.ite (fun _ => ?_) (fun _ => ?_)
    | with_reducible assumption
    | with_reducible apply State.bumpPort_keeps
    | with_reducible apply State.noteSender_keeps
    | fail_if_no_progress with_reducible refine Keeps.other ?_ rfl rfl rfl rfl rfl rfl rfl rfl rfl rfl rfl rfl rfl rfl rfl rfl rfl rfl rfl rfl rfl rfl rfl rfl rfl rfl rfl rfl rfl rfl rfl rfl
    | with_reducible refine Keeps.foldl ?_ ?_
    | with_reducible refine Keeps.foldl1 ?_ ?_
    | with_reducible refine Keeps.getD (fun _ _ => ?_) ?_
    | intro _
    | dsimp only
    | split)

theorem State.setConn_keeps {μ} [Has μ .fabric] {o s x} (h : Keeps μ o s) :
    Keeps μ o (State.setConn s x) := by
  unfold State.setConn
  try dsimp only
  repeat' (first
    | with_reducible refine Keeps.ite (fun _ => ?_) (fun _ => ?_)
    | with_reducible assumption
    | fail_if_no_progress with_reducible refine Keeps.other ?_ rfl rfl rfl rfl rfl rfl rfl rfl rfl rfl rfl rfl rfl rfl rfl rfl rfl rfl rfl rfl rfl rfl rfl rfl rfl rfl rfl rfl rfl rfl rfl rfl
    | with_reducible refine Keeps.foldl ?_ ?_
    | with_reducible refine Keeps.foldl1 ?_ ?_
    | with_reducible refine Keeps.getD (fun _ _ => ?_) ?_
    | intro _
    | dsimp only
    | split)

theorem State.discard_keeps {μ} [Has μ .obs] {o s p} (h : Keeps μ o s) :
    Keeps μ o (State.discard s p) := by
  unfold State.discard
  try dsimp only
  repeat' (first
    | with_reducible refine Keeps.ite (fun _ => ?_) (fun _ => ?_)
    | with_reducible assumption
    | with_reducible apply State.bumpPort_keeps
    | fail_if_no_progress with_reducible refine Keeps.other ?_ rfl rfl rfl rfl rfl rfl rfl rfl rfl rfl rfl rfl rfl rfl rfl rfl rfl rfl rfl rfl rfl rfl rfl rfl rfl rfl rfl rfl rfl rfl rfl rfl
    | with_reducible refine Keeps.foldl ?_ ?_
    | with_reducible refine Keeps.foldl1 ?_ ?_
    | with_reducible refine Keeps.getD (fun _ _ => ?_) ?_
    | intro _
    | dsimp only
    | split)

theorem State.pumpConn_keeps {μ} [Has μ .fabric] [Has μ .regs] [Has μ .obs] {o s site g server n} (h : Keeps μ o s) : Keeps μ o (State.pumpConn s site g server n) := by
  induction n generalizing s with
  | zero => exact h
  | succ n ih =>
    unfold State.pumpConn
    try dsimp only
    repeat' (first
      | with_reducible refine Keeps.ite (fun _ => ?_) (fun _ => ?_)
      | with_reducible assumption
      | with_reducible apply ih
      | with_reducible apply State.sendFrame_keeps
      | with_reducible apply State.setConn_keeps
      | fail_if_no_progress with_reducible refine Keeps.other ?_ rfl rfl rfl rfl rfl rfl rfl rfl rfl rfl rfl rfl rfl rfl rfl rfl rfl rfl rfl rfl rfl rfl rfl rfl rfl rfl rfl rfl rfl rfl rfl rfl
      | with_reducible refine Keeps.getD (fun _ _ => ?_) ?_
      | intro _
      | dsimp only
      | split)

theorem State.sendTo_keeps {μ} [Has μ .fabric] [Has μ .regs] [Has μ .obs] {o s site g server m} (h : Keeps μ o s) :
    Keeps μ o (State.sendTo s site g server m) := by
  unfold State.sendTo
  try dsimp only
  repeat' (first
    | with_reducible refine Keeps.ite (fun _ => ?_) (fun _ => ?_)
    | with_reducible assumption
    | with_reducible apply State.pumpConn_keeps
    | with_reducible apply State.setConn_keeps
    | fail_if_no_progress with_reducible refine Keeps.other ?_ rfl rfl rfl rfl rfl rfl rfl rfl rfl rfl rfl rfl rfl rfl rfl rfl rfl rfl rfl rfl rfl rfl rfl rfl rfl rfl rfl rfl rfl rfl rfl rfl
    | with_reducible refine Keeps.foldl ?_ ?_
    | with_reducible refine Keeps.foldl1 ?_ ?_
    | with_reducible refine Keeps.getD (fun _ _ => ?_) ?_
    | intro _
    | dsimp only
    | split)

theorem State.setStep_keeps {μ} [Has μ .jobs] [Has μ .host] [Has μ .regs] {o s j x} (h : Keeps μ o s) :
    Keeps μ o (State.setStep s j x) := by
  unfold State.setStep
  try dsimp only
  repeat' (first
    | with_reducible refine Keeps.ite (fun _ => ?_) (fun _ => ?_)
    | with_reducible assumption
    | with_reducible apply State.modJob_keeps
    | fail_if_no_progress with_reducible refine Keeps.other ?_ rfl rfl rfl rfl rfl rfl rfl rfl rfl rfl rfl rfl rfl rfl rfl rfl rfl rfl rfl rfl rfl rfl rfl rfl rfl rfl rfl rfl rfl rfl rfl rfl
    | with_reducible refine Keeps.foldl ?_ ?_
    | with_reducible refine Keeps.foldl1 ?_ ?_
    | with_reducible refine Keeps.getD (fun _ _ => ?_) ?_
    | intro _
    | dsimp only
    | split)

theorem State.ioSend_keeps {μ} [Has μ .cores] [Has μ .net] [Has μ .fabric] [Has μ .obs] {o s site xfer wr data p} (h : Keeps μ o s) :
    Keeps μ o (State.ioSend s site xfer wr data p) := by
  unfold State.ioSend
  try dsimp only
  repeat' (first
    | with_reducible refine Keeps.ite (fun _ => ?_) (fun _ => ?_)
    | with_reducible assumption
    | with_reducible apply State.setIoSite_keeps
    | with_reducible apply State.sendFromSite_keeps
    | with_reducible apply State.sendAllFromSite_keeps
    | fail_if_no_progress with_reducible refine Keeps.other ?_ rfl rfl rfl rfl rfl rfl rfl rfl rfl rfl rfl rfl rfl rfl rfl rfl rfl rfl rfl rfl rfl rfl rfl rfl rfl rfl rfl rfl rfl rfl rfl rfl
    | with_reducible refine Keeps.foldl ?_ ?_
    | with_reducible refine Keeps.foldl1 ?_ ?_
    | with_reducible refine Keeps.getD (fun _ _ => ?_) ?_
    | intro _
    | dsimp only
    | split)

theorem State.ioStart_keeps_eq {μ} [Has μ .cores] [Has μ .net] [Has μ .fabric] [Has μ .obs] {u} {o s site j es wr data w} (e : State.ioStart s site j es wr data w = some u) (h : Keeps μ o s) : Keeps μ o u := by
  unfold State.ioStart at e
  try dsimp only at e
  repeat' (split at e)
  all_goals first
    | (cases e; done)
    | (injection e with e
       subst e
       repeat' (first
         | with_reducible refine Keeps.ite (fun _ => ?_) (fun _ => ?_)
         | with_reducible assumption
         | with_reducible apply State.setIoSite_keeps
         | with_reducible apply State.ioSend_keeps
         | fail_if_no_progress with_reducible refine Keeps.other ?_ rfl rfl rfl rfl rfl rfl rfl rfl rfl rfl rfl rfl rfl rfl rfl rfl rfl rfl rfl rfl rfl rfl rfl rfl rfl rfl rfl rfl rfl rfl rfl rfl
         | with_reducible refine Keeps.foldl ?_ ?_
         | with_reducible refine Keeps.foldl1 ?_ ?_
         | with_reducible refine Keeps.getD (fun _ _ => ?_) ?_
         | intro _
         | dsimp only
         | split))

theorem State.ioWrite_keeps_eq {μ} [Has μ .cores] [Has μ .net] [Has μ .fabric] [Has μ .obs] {u o s site j es data w} (e : State.ioWrite s site j es data w = some u) (h : Keeps μ o s) : Keeps μ o u :=
  State.ioStart_keeps_eq e h

theorem State.sendMsg_keeps {μ} [Has μ .fabric] [Has μ .regs] [Has μ .obs] {o s site g key m} (h : Keeps μ o s) :
    Keeps μ o (State.sendMsg s site g key m) := by
  unfold State.sendMsg
  try dsimp only
  repeat' (first
    | with_reducible refine Keeps.ite (fun _ => ?_) (fun _ => ?_)
    | with_reducible assumption
    | with_reducible apply State.sendTo_keeps
    | fail_if_no_progress with_reducible refine Keeps.other ?_ rfl rfl rfl rfl rfl rfl rfl rfl rfl rfl rfl rfl rfl rfl rfl rfl rfl rfl rfl rfl rfl rfl rfl rfl rfl rfl rfl rfl rfl rfl rfl rfl
    | with_reducible refine Keeps.foldl ?_ ?_
    | with_reducible refine Keeps.foldl1 ?_ ?_
    | with_reducible refine Keeps.getD (fun _ _ => ?_) ?_
    | intro _
    | dsimp only
    | split)

theorem State.ioRead_keeps_eq {μ} [Has μ .cores] [Has μ .net] [Has μ .fabric] [Has μ .obs] {u o s site j es w} (e : State.ioRead s site j es w = some u) (h : Keeps μ o s) : Keeps μ o u :=
  State.ioStart_keeps_eq e h

theorem State.dropChunks_keeps {μ} [Has μ .fabric] {o s j} (h : Keeps μ o s) :
    Keeps μ o (State.dropChunks s j) := by
  unfold State.dropChunks
  try dsimp only
  repeat' (first
    | with_reducible refine Keeps.ite (fun _ => ?_) (fun _ => ?_)
    | with_reducible assumption
    | with_reducible apply State.modIoSite_keeps
    | fail_if_no_progress with_reducible refine Keeps.other ?_ rfl rfl rfl rfl rfl rfl rfl rfl rfl rfl rfl rfl rfl rfl rfl rfl rfl rfl rfl rfl rfl rfl rfl rfl rfl rfl rfl rfl rfl rfl rfl rfl
    | with_reducible refine Keeps.foldl ?_ ?_
    | with_reducible refine Keeps.foldl1 ?_ ?_
    | with_reducible refine Keeps.getD (fun _ _ => ?_) ?_
    | intro _
    | dsimp only
    | split)

theorem State.retractBucket_keeps {μ} [Has μ .fabric] [Has μ .regs] [Has μ .obs] {o s j g n b} (h : Keeps μ o s) :
    Keeps μ o (State.retractBucket s j g n b) := by
  unfold State.retractBucket
  try dsimp only
  repeat' (first
    | with_reducible refine Keeps.ite (fun _ => ?_) (fun _ => ?_)
    | with_reducible assumption
    | with_reducible apply State.sendMsg_keeps
    | fail_if_no_progress with_reducible refine Keeps.other ?_ rfl rfl rfl rfl rfl rfl rfl rfl rfl rfl rfl rfl rfl rfl rfl rfl rfl rfl rfl rfl rfl rfl rfl rfl rfl rfl rfl rfl rfl rfl rfl rfl
    | with_reducible refine Keeps.foldl ?_ ?_
    | with_reducible refine Keeps.foldl1 ?_ ?_
    | with_reducible refine Keeps.getD (fun _ _ => ?_) ?_
    | intro _
    | dsimp only
    | split)

theorem State.retractStep_keeps {μ} [Has μ .jobs] [Has μ .fabric] [Has μ .host] [Has μ .regs] [Has μ .obs] {o s j r} (h : Keeps μ o s) :
    Keeps μ o (State.retractStep s j r) := by
  unfold State.retractStep
  try dsimp only
  repeat' (first
    | with_reducible refine Keeps.ite (fun _ => ?_) (fun _ => ?_)
    | with_reducible assumption
    | with_reducible apply State.retractBucket_keeps
    | with_reducible apply State.setStep_keeps
    | with_reducible apply State.dropChunks_keeps
    | fail_if_no_progress with_reducible refine Keeps.other ?_ rfl rfl rfl rfl rfl rfl rfl rfl rfl rfl rfl rfl rfl rfl rfl rfl rfl rfl rfl rfl rfl rfl rfl rfl rfl rfl rfl rfl rfl rfl rfl rfl
    | with_reducible refine Keeps.foldl ?_ ?_
    | with_reducible refine Keeps.foldl1 ?_ ?_
    | with_reducible refine Keeps.getD (fun _ _ => ?_) ?_
    | intro _
    | dsimp only
    | split)

theorem State.cper_keeps {μ} [Has μ .regs] [Has μ .integ] [Has μ .obs] {o s q} (h : Keeps μ o s) :
    Keeps μ o (State.cper s q) := by
  unfold State.cper
  try dsimp only
  repeat' (first
    | with_reducible refine Keeps.ite (fun _ => ?_) (fun _ => ?_)
    | with_reducible assumption
    | with_reducible apply State.record_keeps
    | fail_if_no_progress with_reducible refine Keeps.other ?_ rfl rfl rfl rfl rfl rfl rfl rfl rfl rfl rfl rfl rfl rfl rfl rfl rfl rfl rfl rfl rfl rfl rfl rfl rfl rfl rfl rfl rfl rfl rfl rfl
    | with_reducible refine Keeps.foldl ?_ ?_
    | with_reducible refine Keeps.foldl1 ?_ ?_
    | with_reducible refine Keeps.getD (fun _ _ => ?_) ?_
    | intro _
    | dsimp only
    | split)

theorem State.setPort_keeps {μ} [Has μ .fabric] {o s p x} (h : Keeps μ o s) :
    Keeps μ o (State.setPort s p x) := by
  unfold State.setPort
  try dsimp only
  repeat' (first
    | with_reducible refine Keeps.ite (fun _ => ?_) (fun _ => ?_)
    | with_reducible assumption
    | fail_if_no_progress with_reducible refine Keeps.other ?_ rfl rfl rfl rfl rfl rfl rfl rfl rfl rfl rfl rfl rfl rfl rfl rfl rfl rfl rfl rfl rfl rfl rfl rfl rfl rfl rfl rfl rfl rfl rfl rfl
    | with_reducible refine Keeps.foldl ?_ ?_
    | with_reducible refine Keeps.foldl1 ?_ ?_
    | with_reducible refine Keeps.getD (fun _ _ => ?_) ?_
    | intro _
    | dsimp only
    | split)

end Sys2Proof.Machine
end

