-- ==== Sys2Proof/Laws/KeepsStepOps.lean ====
section
/-! SUPPORT. Every operation of Machine/StepOps.lean keeps the build, the queue and the form of memory. -/

set_option Elab.async false

set_option linter.unreachableTactic false
set_option linter.unusedTactic false

namespace Sys2Proof.Machine

theorem State.deliverRecord_keeps {μ} [Has μ .cores] [Has μ .net] [Has μ .obs] {o s j off sem bs} (h : Keeps μ o s) :
    Keeps μ o (State.deliverRecord s j off sem bs) := by
  unfold State.deliverRecord
  try dsimp only
  repeat' (first
    | with_reducible refine Keeps.ite (fun _ => ?_) (fun _ => ?_)
    | with_reducible assumption
    | with_reducible apply State.deliver_keeps
    | fail_if_no_progress with_reducible refine Keeps.other ?_ rfl rfl rfl rfl rfl rfl rfl rfl rfl rfl rfl rfl rfl rfl rfl rfl rfl rfl rfl rfl rfl rfl rfl rfl rfl rfl rfl rfl rfl rfl rfl rfl
    | with_reducible refine Keeps.foldl ?_ ?_
    | with_reducible refine Keeps.foldl1 ?_ ?_
    | with_reducible refine Keeps.getD (fun _ _ => ?_) ?_
    | intro _
    | dsimp only
    | split)

theorem State.loadImagesOf_keeps {μ} [Has μ .mem] [Has μ .codeErr] [Has μ .cores] {o s j x vs cs} (h : Keeps μ o s) :
    Keeps μ o (State.loadImagesOf s j x vs cs) := by
  unfold State.loadImagesOf
  try dsimp only
  repeat' (first
    | with_reducible refine Keeps.ite (fun _ => ?_) (fun _ => ?_)
    | with_reducible assumption
    | with_reducible apply State.modCore_keeps
    | with_reducible apply State.loadImage_keeps
    | fail_if_no_progress with_reducible refine Keeps.other ?_ rfl rfl rfl rfl rfl rfl rfl rfl rfl rfl rfl rfl rfl rfl rfl rfl rfl rfl rfl rfl rfl rfl rfl rfl rfl rfl rfl rfl rfl rfl rfl rfl
    | with_reducible refine Keeps.foldl ?_ ?_
    | with_reducible refine Keeps.foldl1 ?_ ?_
    | with_reducible refine Keeps.getD (fun _ _ => ?_) ?_
    | intro _
    | dsimp only
    | split)

theorem State.startDrain_keeps {μ} [Has μ .cores] [Has μ .jobs] [Has μ .host] [Has μ .regs] [Has μ .clk] {o s j d} (h : Keeps μ o s) :
    Keeps μ o (State.startDrain s j d) := by
  unfold State.startDrain
  try dsimp only
  repeat' (first
    | with_reducible refine Keeps.ite (fun _ => ?_) (fun _ => ?_)
    | with_reducible assumption
    | with_reducible apply State.modJob_keeps
    | with_reducible apply State.haltJob_keeps
    | fail_if_no_progress with_reducible refine Keeps.other ?_ rfl rfl rfl rfl rfl rfl rfl rfl rfl rfl rfl rfl rfl rfl rfl rfl rfl rfl rfl rfl rfl rfl rfl rfl rfl rfl rfl rfl rfl rfl rfl rfl
    | with_reducible refine Keeps.foldl ?_ ?_
    | with_reducible refine Keeps.foldl1 ?_ ?_
    | with_reducible refine Keeps.getD (fun _ _ => ?_) ?_
    | intro _
    | dsimp only
    | split)

theorem State.updateFault_keeps {μ} [Has μ .mem] [Has μ .cores] [Has μ .jobs] [Has μ .host] [Has μ .regs] [Has μ .clk] [Has μ .obs] {o s j r count site status} (h : Keeps μ o s) :
    Keeps μ o (State.updateFault s j r count site status) := by
  unfold State.updateFault
  try dsimp only
  repeat' (first
    | with_reducible refine Keeps.ite (fun _ => ?_) (fun _ => ?_)
    | with_reducible assumption
    | with_reducible apply State.failJob_keeps
    | with_reducible apply State.record_keeps
    | fail_if_no_progress with_reducible refine Keeps.other ?_ rfl rfl rfl rfl rfl rfl rfl rfl rfl rfl rfl rfl rfl rfl rfl rfl rfl rfl rfl rfl rfl rfl rfl rfl rfl rfl rfl rfl rfl rfl rfl rfl
    | with_reducible refine Keeps.foldl ?_ ?_
    | with_reducible refine Keeps.foldl1 ?_ ?_
    | with_reducible refine Keeps.getD (fun _ _ => ?_) ?_
    | intro _
    | dsimp only
    | split)

theorem State.lost_keeps {μ} [Has μ .mem] [Has μ .cores] [Has μ .jobs] [Has μ .host] [Has μ .regs] [Has μ .clk] [Has μ .integ] [Has μ .obs] {o s j hard} (h : Keeps μ o s) :
    Keeps μ o (State.lost s j hard) := by
  unfold State.lost
  try dsimp only
  repeat' (first
    | with_reducible refine Keeps.ite (fun _ => ?_) (fun _ => ?_)
    | with_reducible assumption
    | with_reducible apply State.health_keeps
    | with_reducible apply State.startDrain_keeps
    | with_reducible apply State.updateFault_keeps
    | with_reducible apply State.failJob_keeps
    | with_reducible apply State.resumeJob_keeps
    | fail_if_no_progress with_reducible refine Keeps.other ?_ rfl rfl rfl rfl rfl rfl rfl rfl rfl rfl rfl rfl rfl rfl rfl rfl rfl rfl rfl rfl rfl rfl rfl rfl rfl rfl rfl rfl rfl rfl rfl rfl
    | with_reducible refine Keeps.foldl ?_ ?_
    | with_reducible refine Keeps.foldl1 ?_ ?_
    | with_reducible refine Keeps.getD (fun _ _ => ?_) ?_
    | intro _
    | dsimp only
    | split)

theorem State.lostCore_keeps {μ} [Has μ .mem] [Has μ .cores] [Has μ .jobs] [Has μ .host] [Has μ .regs] [Has μ .clk] [Has μ .integ] [Has μ .obs] {o s c hard} (h : Keeps μ o s) :
    Keeps μ o (State.lostCore s c hard) := by
  unfold State.lostCore
  try dsimp only
  repeat' (first
    | with_reducible refine Keeps.ite (fun _ => ?_) (fun _ => ?_)
    | with_reducible assumption
    | with_reducible apply State.lost_keeps
    | fail_if_no_progress with_reducible refine Keeps.other ?_ rfl rfl rfl rfl rfl rfl rfl rfl rfl rfl rfl rfl rfl rfl rfl rfl rfl rfl rfl rfl rfl rfl rfl rfl rfl rfl rfl rfl rfl rfl rfl rfl
    | with_reducible refine Keeps.foldl ?_ ?_
    | with_reducible refine Keeps.foldl1 ?_ ?_
    | with_reducible refine Keeps.getD (fun _ _ => ?_) ?_
    | intro _
    | dsimp only
    | split)

theorem State.endDrain_keeps {μ} [Has μ .jobs] [Has μ .host] [Has μ .regs] {o s j} (h : Keeps μ o s) :
    Keeps μ o (State.endDrain s j) := by
  unfold State.endDrain
  try dsimp only
  repeat' (first
    | with_reducible refine Keeps.ite (fun _ => ?_) (fun _ => ?_)
    | with_reducible assumption
    | with_reducible apply State.modJob_keeps
    | fail_if_no_progress with_reducible refine Keeps.other ?_ rfl rfl rfl rfl rfl rfl rfl rfl rfl rfl rfl rfl rfl rfl rfl rfl rfl rfl rfl rfl rfl rfl rfl rfl rfl rfl rfl rfl rfl rfl rfl rfl
    | with_reducible refine Keeps.foldl ?_ ?_
    | with_reducible refine Keeps.foldl1 ?_ ?_
    | with_reducible refine Keeps.getD (fun _ _ => ?_) ?_
    | intro _
    | dsimp only
    | split)

theorem State.dropMicrobatch_keeps {μ} [Has μ .cores] [Has μ .jobs] [Has μ .fabric] [Has μ .host] [Has μ .regs] [Has μ .obs] {o s j r} (h : Keeps μ o s) :
    Keeps μ o (State.dropMicrobatch s j r) := by
  unfold State.dropMicrobatch
  try dsimp only
  repeat' (first
    | with_reducible refine Keeps.ite (fun _ => ?_) (fun _ => ?_)
    | with_reducible assumption
    | with_reducible apply State.modCores_keeps
    | with_reducible apply State.bumpJob_keeps
    | with_reducible apply State.retractStep_keeps
    | with_reducible apply State.modJob_keeps
    | with_reducible apply State.record_keeps
    | with_reducible apply State.setStep_keeps
    | fail_if_no_progress with_reducible refine Keeps.other ?_ rfl rfl rfl rfl rfl rfl rfl rfl rfl rfl rfl rfl rfl rfl rfl rfl rfl rfl rfl rfl rfl rfl rfl rfl rfl rfl rfl rfl rfl rfl rfl rfl
    | with_reducible refine Keeps.foldl ?_ ?_
    | with_reducible refine Keeps.foldl1 ?_ ?_
    | with_reducible refine Keeps.getD (fun _ _ => ?_) ?_
    | intro _
    | dsimp only
    | split)

theorem State.reloadImages_keeps {μ} [Has μ .mem] [Has μ .codeErr] [Has μ .cores] {o s j} (h : Keeps μ o s) :
    Keeps μ o (State.reloadImages s j) := by
  unfold State.reloadImages
  try dsimp only
  repeat' (first
    | with_reducible refine Keeps.ite (fun _ => ?_) (fun _ => ?_)
    | with_reducible assumption
    | with_reducible apply State.loadImagesOf_keeps
    | fail_if_no_progress with_reducible refine Keeps.other ?_ rfl rfl rfl rfl rfl rfl rfl rfl rfl rfl rfl rfl rfl rfl rfl rfl rfl rfl rfl rfl rfl rfl rfl rfl rfl rfl rfl rfl rfl rfl rfl rfl
    | with_reducible refine Keeps.foldl ?_ ?_
    | with_reducible refine Keeps.foldl1 ?_ ?_
    | with_reducible refine Keeps.getD (fun _ _ => ?_) ?_
    | intro _
    | dsimp only
    | split)

theorem State.deliverOpen_keeps {μ} [Has μ .cores] [Has μ .net] [Has μ .obs] {o s j r} (h : Keeps μ o s) :
    Keeps μ o (State.deliverOpen s j r) := by
  unfold State.deliverOpen
  try dsimp only
  repeat' (first
    | with_reducible refine Keeps.ite (fun _ => ?_) (fun _ => ?_)
    | with_reducible assumption
    | with_reducible apply State.deliverRecord_keeps
    | with_reducible apply State.modCores_keeps
    | fail_if_no_progress with_reducible refine Keeps.other ?_ rfl rfl rfl rfl rfl rfl rfl rfl rfl rfl rfl rfl rfl rfl rfl rfl rfl rfl rfl rfl rfl rfl rfl rfl rfl rfl rfl rfl rfl rfl rfl rfl
    | with_reducible refine Keeps.foldl ?_ ?_
    | with_reducible refine Keeps.foldl1 ?_ ?_
    | with_reducible refine Keeps.getD (fun _ _ => ?_) ?_
    | intro _
    | dsimp only
    | split)

theorem State.restartMicrobatch_keeps {μ} [Has μ .mem] [Has μ .codeErr] [Has μ .cores] [Has μ .net] [Has μ .clk] [Has μ .obs] {o s j n} (h : Keeps μ o s) :
    Keeps μ o (State.restartMicrobatch s j n) := by
  unfold State.restartMicrobatch
  try dsimp only
  repeat' (first
    | with_reducible refine Keeps.ite (fun _ => ?_) (fun _ => ?_)
    | with_reducible assumption
    | with_reducible apply State.reloadImages_keeps
    | with_reducible apply State.modCores_keeps
    | with_reducible apply State.deliverOpen_keeps
    | with_reducible apply State.resumeJob_keeps
    | fail_if_no_progress with_reducible refine Keeps.other ?_ rfl rfl rfl rfl rfl rfl rfl rfl rfl rfl rfl rfl rfl rfl rfl rfl rfl rfl rfl rfl rfl rfl rfl rfl rfl rfl rfl rfl rfl rfl rfl rfl
    | with_reducible refine Keeps.foldl ?_ ?_
    | with_reducible refine Keeps.foldl1 ?_ ?_
    | with_reducible refine Keeps.getD (fun _ _ => ?_) ?_
    | intro _
    | dsimp only
    | split)

theorem State.clearNonfinite_keeps {μ} [Has μ .cores] {o s j ks} (h : Keeps μ o s) :
    Keeps μ o (State.clearNonfinite s j ks) := by
  unfold State.clearNonfinite
  try dsimp only
  repeat' (first
    | with_reducible refine Keeps.ite (fun _ => ?_) (fun _ => ?_)
    | with_reducible assumption
    | with_reducible apply State.modCores_keeps
    | fail_if_no_progress with_reducible refine Keeps.other ?_ rfl rfl rfl rfl rfl rfl rfl rfl rfl rfl rfl rfl rfl rfl rfl rfl rfl rfl rfl rfl rfl rfl rfl rfl rfl rfl rfl rfl rfl rfl rfl rfl
    | with_reducible refine Keeps.foldl ?_ ?_
    | with_reducible refine Keeps.foldl1 ?_ ?_
    | with_reducible refine Keeps.getD (fun _ _ => ?_) ?_
    | intro _
    | dsimp only
    | split)

theorem State.versionFault_keeps {μ} [Has μ .cores] [Has μ .jobs] [Has μ .host] [Has μ .regs] [Has μ .clk] {o s j tensor want got} (h : Keeps μ o s) :
    Keeps μ o (State.versionFault s j tensor want got) := by
  unfold State.versionFault
  try dsimp only
  repeat' (first
    | with_reducible refine Keeps.ite (fun _ => ?_) (fun _ => ?_)
    | with_reducible assumption
    | with_reducible apply State.startDrain_keeps
    | with_reducible apply State.modJob_keeps
    | fail_if_no_progress with_reducible refine Keeps.other ?_ rfl rfl rfl rfl rfl rfl rfl rfl rfl rfl rfl rfl rfl rfl rfl rfl rfl rfl rfl rfl rfl rfl rfl rfl rfl rfl rfl rfl rfl rfl rfl rfl
    | with_reducible refine Keeps.foldl ?_ ?_
    | with_reducible refine Keeps.foldl1 ?_ ?_
    | with_reducible refine Keeps.getD (fun _ _ => ?_) ?_
    | intro _
    | dsimp only
    | split)

theorem State.replayNow_keeps {μ} [Has μ .mem] [Has μ .codeErr] [Has μ .cores] [Has μ .net] [Has μ .jobs] [Has μ .fabric] [Has μ .host] [Has μ .regs] [Has μ .clk] [Has μ .integ] [Has μ .obs] {o s j d r} (h : Keeps μ o s) :
    Keeps μ o (State.replayNow s j d r) := by
  unfold State.replayNow
  try dsimp only
  repeat' (first
    | with_reducible refine Keeps.ite (fun _ => ?_) (fun _ => ?_)
    | with_reducible assumption
    | with_reducible apply State.modJob_keeps
    | with_reducible apply State.dropMicrobatch_keeps
    | with_reducible apply State.health_keeps
    | with_reducible apply State.bumpJob_keeps
    | with_reducible apply State.retractStep_keeps
    | with_reducible apply State.restartMicrobatch_keeps
    | with_reducible apply State.record_keeps
    | fail_if_no_progress with_reducible refine Keeps.other ?_ rfl rfl rfl rfl rfl rfl rfl rfl rfl rfl rfl rfl rfl rfl rfl rfl rfl rfl rfl rfl rfl rfl rfl rfl rfl rfl rfl rfl rfl rfl rfl rfl
    | with_reducible refine Keeps.foldl ?_ ?_
    | with_reducible refine Keeps.foldl1 ?_ ?_
    | with_reducible refine Keeps.getD (fun _ _ => ?_) ?_
    | intro _
    | dsimp only
    | split)

end Sys2Proof.Machine
end

