-- ==== Sys2Proof/Laws/KeepsWaferOps.lean ====
section
/-! SUPPORT. Every operation of Machine/WaferOps.lean keeps the build, the queue and the form of memory. -/

set_option Elab.async false

set_option linter.unreachableTactic false
set_option linter.unusedTactic false

namespace Sys2Proof.Machine

theorem State.abortTest_keeps {μ} [Has μ .wafer] [Has μ .integ] {o s col} (h : Keeps μ o s) :
    Keeps μ o (State.abortTest s col) := by
  unfold State.abortTest
  try dsimp only
  repeat' (first
    | with_reducible refine Keeps.ite (fun _ => ?_) (fun _ => ?_)
    | with_reducible assumption
    | with_reducible apply State.setSite_keeps
    | fail_if_no_progress with_reducible refine Keeps.other ?_ rfl rfl rfl rfl rfl rfl rfl rfl rfl rfl rfl rfl rfl rfl rfl rfl rfl rfl rfl rfl rfl rfl rfl rfl rfl rfl rfl rfl rfl rfl rfl rfl
    | with_reducible refine Keeps.foldl ?_ ?_
    | with_reducible refine Keeps.foldl1 ?_ ?_
    | with_reducible refine Keeps.getD (fun _ _ => ?_) ?_
    | intro _
    | dsimp only
    | split)

theorem State.newCheckers_keeps {μ} [Has μ .integ] {o s c} (h : Keeps μ o s) :
    Keeps μ o (State.newCheckers s c) := by
  unfold State.newCheckers
  try dsimp only
  repeat' (first
    | with_reducible refine Keeps.ite (fun _ => ?_) (fun _ => ?_)
    | with_reducible assumption
    | fail_if_no_progress with_reducible refine Keeps.other ?_ rfl rfl rfl rfl rfl rfl rfl rfl rfl rfl rfl rfl rfl rfl rfl rfl rfl rfl rfl rfl rfl rfl rfl rfl rfl rfl rfl rfl rfl rfl rfl rfl
    | with_reducible refine Keeps.foldl ?_ ?_
    | with_reducible refine Keeps.foldl1 ?_ ?_
    | with_reducible refine Keeps.getD (fun _ _ => ?_) ?_
    | intro _
    | dsimp only
    | split)

theorem State.loseCore_keeps {μ} [Has μ .mem] [Has μ .codeErr] [Has μ .cores] [Has μ .jobs] [Has μ .host] [Has μ .regs] [Has μ .obs] {o s c} (h : Keeps μ o s) : Keeps μ o (State.loseCore s c) := by
  unfold State.loseCore
  dsimp only
  have k := State.resetCoreKept_keeps (c := c) (State.setCore_keeps (i := c) (c := {
    rings := (s.core c).rings
    cleanSems := (s.core c).cleanSems
    cleanAdds := (s.core c).cleanAdds
    cleanPairs := (s.core c).cleanPairs
    cleanTime := (s.core c).cleanTime
    cycleBase := (s.core c).cycleBase
    ctxs := (s.core c).ctxs.map (fun p => (p.1, p.2.lost)) }) h)
  exact { k with
    mem := fun m => ⟨Tab.wf_filter (k.mem m).1, Tab.wf_filter (k.mem m).2⟩
    on_mem := Has.no
    on_codeErr := Has.no }

theorem State.coreGone_keeps {μ} [Has μ .mem] [Has μ .codeErr] [Has μ .cores] [Has μ .jobs] [Has μ .host] [Has μ .regs] [Has μ .integ] [Has μ .obs] {o s c} (h : Keeps μ o s) :
    Keeps μ o (State.coreGone s c) := by
  unfold State.coreGone
  try dsimp only
  repeat' (first
    | with_reducible refine Keeps.ite (fun _ => ?_) (fun _ => ?_)
    | with_reducible assumption
    | with_reducible apply State.record_keeps
    | with_reducible apply State.newCheckers_keeps
    | with_reducible apply State.abandonChecks_keeps
    | with_reducible apply State.loseCore_keeps
    | fail_if_no_progress with_reducible refine Keeps.other ?_ rfl rfl rfl rfl rfl rfl rfl rfl rfl rfl rfl rfl rfl rfl rfl rfl rfl rfl rfl rfl rfl rfl rfl rfl rfl rfl rfl rfl rfl rfl rfl rfl
    | with_reducible refine Keeps.foldl ?_ ?_
    | with_reducible refine Keeps.foldl1 ?_ ?_
    | with_reducible refine Keeps.getD (fun _ _ => ?_) ?_
    | intro _
    | dsimp only
    | split)

theorem State.notePass_keeps {μ} [Has μ .jobs] [Has μ .host] [Has μ .regs] {o s j} (h : Keeps μ o s) :
    Keeps μ o (State.notePass s j) := by
  unfold State.notePass
  try dsimp only
  repeat' (first
    | with_reducible refine Keeps.ite (fun _ => ?_) (fun _ => ?_)
    | with_reducible assumption
    | with_reducible apply State.modJob_keeps
    | fail_if_no_progress with_reducible refine Keeps.other ?_ rfl rfl rfl rfl rfl rfl rfl rfl rfl rfl rfl rfl rfl rfl rfl rfl rfl rfl rfl rfl rfl rfl rfl rfl rfl rfl rfl rfl rfl rfl rfl rfl
    | with_reducible refine Keeps.foldl ?_ ?_
    | with_reducible refine Keeps.foldl1 ?_ ?_
    | with_reducible refine Keeps.getD (fun _ _ => ?_) ?_
    | intro _
    | dsimp only
    | split)

theorem State.passReplay_keeps {μ} [Has μ .cores] [Has μ .jobs] [Has μ .host] [Has μ .regs] [Has μ .clk] [Has μ .obs] {o s j core} (h : Keeps μ o s) :
    Keeps μ o (State.passReplay s j core) := by
  unfold State.passReplay
  try dsimp only
  repeat' (first
    | with_reducible refine Keeps.ite (fun _ => ?_) (fun _ => ?_)
    | with_reducible assumption
    | with_reducible apply State.notePass_keeps
    | with_reducible apply State.modCores_keeps
    | with_reducible apply State.resumeJob_keeps
    | with_reducible apply State.record_keeps
    | with_reducible apply State.bumpJob_keeps
    | fail_if_no_progress with_reducible refine Keeps.other ?_ rfl rfl rfl rfl rfl rfl rfl rfl rfl rfl rfl rfl rfl rfl rfl rfl rfl rfl rfl rfl rfl rfl rfl rfl rfl rfl rfl rfl rfl rfl rfl rfl
    | with_reducible refine Keeps.foldl ?_ ?_
    | with_reducible refine Keeps.foldl1 ?_ ?_
    | with_reducible refine Keeps.getD (fun _ _ => ?_) ?_
    | intro _
    | dsimp only
    | split)

theorem State.replayAfterLoss_keeps {μ} [Has μ .mem] [Has μ .codeErr] [Has μ .cores] [Has μ .net] [Has μ .jobs] [Has μ .fabric] [Has μ .host] [Has μ .regs] [Has μ .clk] [Has μ .obs] {o s j core} (h : Keeps μ o s) :
    Keeps μ o (State.replayAfterLoss s j core) := by
  unfold State.replayAfterLoss
  try dsimp only
  repeat' (first
    | with_reducible refine Keeps.ite (fun _ => ?_) (fun _ => ?_)
    | with_reducible assumption
    | with_reducible apply State.modJob_keeps
    | with_reducible apply State.passReplay_keeps
    | with_reducible apply State.dropMicrobatch_keeps
    | with_reducible apply State.restartMicrobatch_keeps
    | with_reducible apply State.record_keeps
    | with_reducible apply State.retractStep_keeps
    | with_reducible apply State.updateFault_keeps
    | with_reducible apply State.resumeJob_keeps
    | with_reducible apply State.reloadImages_keeps
    | with_reducible apply State.modCores_keeps
    | fail_if_no_progress with_reducible refine Keeps.other ?_ rfl rfl rfl rfl rfl rfl rfl rfl rfl rfl rfl rfl rfl rfl rfl rfl rfl rfl rfl rfl rfl rfl rfl rfl rfl rfl rfl rfl rfl rfl rfl rfl
    | with_reducible refine Keeps.foldl ?_ ?_
    | with_reducible refine Keeps.foldl1 ?_ ?_
    | with_reducible refine Keeps.getD (fun _ _ => ?_) ?_
    | intro _
    | dsimp only
    | split)

theorem State.appendRepair_keeps_eq {μ} [Has μ .wafer] {o s limit w u} (e : State.appendRepair s limit w = some u) (h : Keeps μ o s) :
    Keeps μ o u := by
  unfold State.appendRepair at e
  split at e
  · injection e with e
    exact e ▸ Keeps.upd h rfl rfl rfl rfl id id
  · cases e

theorem State.appendFence_keeps {μ} [Has μ .wafer] [Has μ .regs] [Has μ .obs] {o s col prow cause} (h : Keeps μ o s) :
    Keeps μ o (State.appendFence s col prow cause) := by
  unfold State.appendFence
  try dsimp only
  repeat' (first
    | with_reducible refine Keeps.ite (fun _ => ?_) (fun _ => ?_)
    | with_reducible assumption
    | with_reducible apply State.appendRepair_keeps
    | with_reducible refine State.appendRepair_keeps_eq (by assumption) ?_
    | with_reducible apply State.record_keeps
    | fail_if_no_progress with_reducible refine Keeps.other ?_ rfl rfl rfl rfl rfl rfl rfl rfl rfl rfl rfl rfl rfl rfl rfl rfl rfl rfl rfl rfl rfl rfl rfl rfl rfl rfl rfl rfl rfl rfl rfl rfl
    | with_reducible refine Keeps.foldl ?_ ?_
    | with_reducible refine Keeps.foldl1 ?_ ?_
    | with_reducible refine Keeps.getD (fun _ _ => ?_) ?_
    | intro _
    | dsimp only
    | split)

theorem State.dropAt_keeps {μ} [Has μ .net] {o s c router} (h : Keeps μ o s) :
    Keeps μ o (State.dropAt s c router) := by
  unfold State.dropAt
  try dsimp only
  repeat' (first
    | with_reducible refine Keeps.ite (fun _ => ?_) (fun _ => ?_)
    | with_reducible assumption
    | fail_if_no_progress with_reducible refine Keeps.other ?_ rfl rfl rfl rfl rfl rfl rfl rfl rfl rfl rfl rfl rfl rfl rfl rfl rfl rfl rfl rfl rfl rfl rfl rfl rfl rfl rfl rfl rfl rfl rfl rfl
    | with_reducible refine Keeps.foldl ?_ ?_
    | with_reducible refine Keeps.foldl1 ?_ ?_
    | with_reducible refine Keeps.getD (fun _ _ => ?_) ?_
    | intro _
    | dsimp only
    | split)

theorem State.startShift_keeps {μ} [Has μ .mem] [Has μ .codeErr] [Has μ .cores] [Has μ .wafer] [Has μ .jobs] [Has μ .host] [Has μ .regs] [Has μ .clk] [Has μ .integ] [Has μ .obs] {o s col prow cause c} (h : Keeps μ o s) :
    Keeps μ o (State.startShift s col prow cause c) := by
  unfold State.startShift
  try dsimp only
  repeat' (first
    | with_reducible refine Keeps.ite (fun _ => ?_) (fun _ => ?_)
    | with_reducible assumption
    | with_reducible apply State.abortTest_keeps
    | with_reducible apply State.loseCore_keeps
    | with_reducible apply State.noteDrains_keeps
    | with_reducible apply State.startDrain_keeps
    | with_reducible apply State.modJob_keeps
    | fail_if_no_progress with_reducible refine Keeps.other ?_ rfl rfl rfl rfl rfl rfl rfl rfl rfl rfl rfl rfl rfl rfl rfl rfl rfl rfl rfl rfl rfl rfl rfl rfl rfl rfl rfl rfl rfl rfl rfl rfl
    | with_reducible refine Keeps.foldl ?_ ?_
    | with_reducible refine Keeps.foldl1 ?_ ?_
    | with_reducible refine Keeps.getD (fun _ _ => ?_) ?_
    | intro _
    | dsimp only
    | split)

theorem State.wantVariants_keeps {μ} [Has μ .cores] [Has μ .jobs] [Has μ .host] [Has μ .regs] [Has μ .clk] {o s j c vs} (h : Keeps μ o s) :
    Keeps μ o (State.wantVariants s j c vs) := by
  unfold State.wantVariants
  try dsimp only
  repeat' (first
    | with_reducible refine Keeps.ite (fun _ => ?_) (fun _ => ?_)
    | with_reducible assumption
    | with_reducible apply State.startDrain_keeps
    | with_reducible apply State.modJob_keeps
    | fail_if_no_progress with_reducible refine Keeps.other ?_ rfl rfl rfl rfl rfl rfl rfl rfl rfl rfl rfl rfl rfl rfl rfl rfl rfl rfl rfl rfl rfl rfl rfl rfl rfl rfl rfl rfl rfl rfl rfl rfl
    | with_reducible refine Keeps.foldl ?_ ?_
    | with_reducible refine Keeps.foldl1 ?_ ?_
    | with_reducible refine Keeps.getD (fun _ _ => ?_) ?_
    | intro _
    | dsimp only
    | split)

theorem State.outOfService_keeps {μ} [Has μ .mem] [Has μ .codeErr] [Has μ .cores] [Has μ .net] [Has μ .jobs] [Has μ .host] [Has μ .regs] [Has μ .clk] [Has μ .integ] [Has μ .obs] {o s c} (h : Keeps μ o s) :
    Keeps μ o (State.outOfService s c) := by
  unfold State.outOfService
  try dsimp only
  repeat' (first
    | with_reducible refine Keeps.ite (fun _ => ?_) (fun _ => ?_)
    | with_reducible assumption
    | with_reducible apply State.coreGone_keeps
    | with_reducible apply State.wantVariants_keeps
    | with_reducible apply State.failJob_keeps
    | with_reducible apply State.exhausted_keeps
    | fail_if_no_progress with_reducible refine Keeps.other ?_ rfl rfl rfl rfl rfl rfl rfl rfl rfl rfl rfl rfl rfl rfl rfl rfl rfl rfl rfl rfl rfl rfl rfl rfl rfl rfl rfl rfl rfl rfl rfl rfl
    | with_reducible refine Keeps.foldl ?_ ?_
    | with_reducible refine Keeps.foldl1 ?_ ?_
    | with_reducible refine Keeps.getD (fun _ _ => ?_) ?_
    | intro _
    | dsimp only
    | split)

theorem State.fenceSite_keeps {μ} [Has μ .mem] [Has μ .codeErr] [Has μ .cores] [Has μ .net] [Has μ .wafer] [Has μ .jobs] [Has μ .host] [Has μ .regs] [Has μ .clk] [Has μ .integ] [Has μ .obs] {o s col prow cause q} (h : Keeps μ o s) :
    Keeps μ o (State.fenceSite s col prow cause q) := by
  unfold State.fenceSite
  try dsimp only
  repeat' (first
    | with_reducible refine Keeps.ite (fun _ => ?_) (fun _ => ?_)
    | with_reducible assumption
    | with_reducible apply State.appendFence_keeps
    | with_reducible apply State.setSite_keeps
    | with_reducible apply State.cper_keeps
    | with_reducible apply State.record_keeps
    | with_reducible apply State.dropAt_keeps
    | with_reducible apply State.startShift_keeps
    | with_reducible apply State.outOfService_keeps
    | fail_if_no_progress with_reducible refine Keeps.other ?_ rfl rfl rfl rfl rfl rfl rfl rfl rfl rfl rfl rfl rfl rfl rfl rfl rfl rfl rfl rfl rfl rfl rfl rfl rfl rfl rfl rfl rfl rfl rfl rfl
    | with_reducible refine Keeps.foldl ?_ ?_
    | with_reducible refine Keeps.foldl1 ?_ ?_
    | with_reducible refine Keeps.getD (fun _ _ => ?_) ?_
    | intro _
    | dsimp only
    | split)

theorem State.fenceCore_keeps {μ} [Has μ .mem] [Has μ .codeErr] [Has μ .cores] [Has μ .net] [Has μ .wafer] [Has μ .jobs] [Has μ .host] [Has μ .regs] [Has μ .clk] [Has μ .integ] [Has μ .obs] {o s c cause q} (h : Keeps μ o s) :
    Keeps μ o (State.fenceCore s c cause q) := by
  unfold State.fenceCore
  try dsimp only
  repeat' (first
    | with_reducible refine Keeps.ite (fun _ => ?_) (fun _ => ?_)
    | with_reducible assumption
    | with_reducible apply State.fenceSite_keeps
    | fail_if_no_progress with_reducible refine Keeps.other ?_ rfl rfl rfl rfl rfl rfl rfl rfl rfl rfl rfl rfl rfl rfl rfl rfl rfl rfl rfl rfl rfl rfl rfl rfl rfl rfl rfl rfl rfl rfl rfl rfl
    | with_reducible refine Keeps.foldl ?_ ?_
    | with_reducible refine Keeps.foldl1 ?_ ?_
    | with_reducible refine Keeps.getD (fun _ _ => ?_) ?_
    | intro _
    | dsimp only
    | split)

theorem State.fieldLost_keeps {μ} [Has μ .mem] [Has μ .cores] [Has μ .jobs] [Has μ .host] [Has μ .regs] [Has μ .clk] [Has μ .obs] {o s j f} (h : Keeps μ o s) :
    Keeps μ o (State.fieldLost s j f) := by
  unfold State.fieldLost
  try dsimp only
  repeat' (first
    | with_reducible refine Keeps.ite (fun _ => ?_) (fun _ => ?_)
    | with_reducible assumption
    | with_reducible apply State.wantVariants_keeps
    | with_reducible apply State.failJob_keeps
    | with_reducible apply State.exhausted_keeps
    | fail_if_no_progress with_reducible refine Keeps.other ?_ rfl rfl rfl rfl rfl rfl rfl rfl rfl rfl rfl rfl rfl rfl rfl rfl rfl rfl rfl rfl rfl rfl rfl rfl rfl rfl rfl rfl rfl rfl rfl rfl
    | with_reducible refine Keeps.foldl ?_ ?_
    | with_reducible refine Keeps.foldl1 ?_ ?_
    | with_reducible refine Keeps.getD (fun _ _ => ?_) ?_
    | intro _
    | dsimp only
    | split)

end Sys2Proof.Machine
end

