-- ==== Sys2Proof/Laws/KeepsMesh.lean ====
section
/-! SUPPORT. Every operation of Machine/Mesh.lean keeps the build, the queue and the form of memory. -/

set_option Elab.async false

set_option linter.unreachableTactic false
set_option linter.unusedTactic false

namespace Sys2Proof.Machine

theorem State.startAt_keeps {μ} [Has μ .cores] [Has μ .jobs] [Has μ .host] [Has μ .regs] [Has μ .clk] [Has μ .obs] {o s j c} (h : Keeps μ o s) :
    Keeps μ o (State.startAt s j c) := by
  unfold State.startAt
  try dsimp only
  repeat' (first
    | with_reducible refine Keeps.ite (fun _ => ?_) (fun _ => ?_)
    | with_reducible assumption
    | with_reducible apply State.startCore_keeps
    | with_reducible apply State.modCore_keeps
    | with_reducible apply State.resetCoreKept_keeps
    | fail_if_no_progress with_reducible refine Keeps.other ?_ rfl rfl rfl rfl rfl rfl rfl rfl rfl rfl rfl rfl rfl rfl rfl rfl rfl rfl rfl rfl rfl rfl rfl rfl rfl rfl rfl rfl rfl rfl rfl rfl
    | with_reducible refine Keeps.foldl ?_ ?_
    | with_reducible refine Keeps.foldl1 ?_ ?_
    | with_reducible refine Keeps.getD (fun _ _ => ?_) ?_
    | intro _
    | dsimp only
    | split)

theorem State.actOn_keeps {μ} [Has μ .mem] [Has μ .codeErr] [Has μ .cores] [Has μ .wafer] [Has μ .jobs] [Has μ .host] [Has μ .regs] [Has μ .clk] [Has μ .integ] [Has μ .obs] {o s f a__internal_hyg0} (h : Keeps μ o s) :
    Keeps μ o (State.actOn s f a__internal_hyg0) := by
  unfold State.actOn
  try dsimp only
  repeat' (first
    | with_reducible refine Keeps.ite (fun _ => ?_) (fun _ => ?_)
    | with_reducible assumption
    | with_reducible apply State.coreGone_keeps
    | with_reducible apply State.bankField_keeps
    | with_reducible apply State.wakeField_keeps
    | with_reducible apply State.startAt_keeps
    | with_reducible apply State.record_keeps
    | fail_if_no_progress with_reducible refine Keeps.other ?_ rfl rfl rfl rfl rfl rfl rfl rfl rfl rfl rfl rfl rfl rfl rfl rfl rfl rfl rfl rfl rfl rfl rfl rfl rfl rfl rfl rfl rfl rfl rfl rfl
    | with_reducible refine Keeps.foldl ?_ ?_
    | with_reducible refine Keeps.foldl1 ?_ ?_
    | with_reducible refine Keeps.getD (fun _ _ => ?_) ?_
    | intro _
    | dsimp only
    | split)

theorem State.post_keeps {μ} [Has μ .mesh] {o s f m} (h : Keeps μ o s) :
    Keeps μ o (State.post s f m) := by
  unfold State.post
  try dsimp only
  repeat' (first
    | with_reducible refine Keeps.ite (fun _ => ?_) (fun _ => ?_)
    | with_reducible assumption
    | fail_if_no_progress with_reducible refine Keeps.other ?_ rfl rfl rfl rfl rfl rfl rfl rfl rfl rfl rfl rfl rfl rfl rfl rfl rfl rfl rfl rfl rfl rfl rfl rfl rfl rfl rfl rfl rfl rfl rfl rfl
    | with_reducible refine Keeps.foldl ?_ ?_
    | with_reducible refine Keeps.foldl1 ?_ ?_
    | with_reducible refine Keeps.getD (fun _ _ => ?_) ?_
    | intro _
    | dsimp only
    | split)

theorem State.bankAll_keeps {μ} [Has μ .mesh] {o s} (h : Keeps μ o s) :
    Keeps μ o (State.bankAll s) := by
  unfold State.bankAll
  try dsimp only
  repeat' (first
    | with_reducible refine Keeps.ite (fun _ => ?_) (fun _ => ?_)
    | with_reducible assumption
    | with_reducible apply State.post_keeps
    | fail_if_no_progress with_reducible refine Keeps.other ?_ rfl rfl rfl rfl rfl rfl rfl rfl rfl rfl rfl rfl rfl rfl rfl rfl rfl rfl rfl rfl rfl rfl rfl rfl rfl rfl rfl rfl rfl rfl rfl rfl
    | with_reducible refine Keeps.foldl ?_ ?_
    | with_reducible refine Keeps.foldl1 ?_ ?_
    | with_reducible refine Keeps.getD (fun _ _ => ?_) ?_
    | intro _
    | dsimp only
    | split)

theorem State.toAll_keeps {μ} [Has μ .mesh] {o s m} (h : Keeps μ o s) :
    Keeps μ o (State.toAll s m) := by
  unfold State.toAll
  try dsimp only
  repeat' (first
    | with_reducible refine Keeps.ite (fun _ => ?_) (fun _ => ?_)
    | with_reducible assumption
    | with_reducible apply State.post_keeps
    | fail_if_no_progress with_reducible refine Keeps.other ?_ rfl rfl rfl rfl rfl rfl rfl rfl rfl rfl rfl rfl rfl rfl rfl rfl rfl rfl rfl rfl rfl rfl rfl rfl rfl rfl rfl rfl rfl rfl rfl rfl
    | with_reducible refine Keeps.foldl ?_ ?_
    | with_reducible refine Keeps.foldl1 ?_ ?_
    | with_reducible refine Keeps.getD (fun _ _ => ?_) ?_
    | intro _
    | dsimp only
    | split)

theorem State.sendQuench_keeps {μ} [Has μ .mem] [Has μ .jobs] [Has μ .host] [Has μ .regs] [Has μ .clk] [Has μ .obs] [Has μ .mesh] {o s cause cmd} (h : Keeps μ o s) :
    Keeps μ o (State.sendQuench s cause cmd) := by
  unfold State.sendQuench
  try dsimp only
  repeat' (first
    | with_reducible refine Keeps.ite (fun _ => ?_) (fun _ => ?_)
    | with_reducible assumption
    | with_reducible apply State.toAll_keeps
    | with_reducible apply State.quenchJob_keeps
    | fail_if_no_progress with_reducible refine Keeps.other ?_ rfl rfl rfl rfl rfl rfl rfl rfl rfl rfl rfl rfl rfl rfl rfl rfl rfl rfl rfl rfl rfl rfl rfl rfl rfl rfl rfl rfl rfl rfl rfl rfl
    | with_reducible refine Keeps.foldl ?_ ?_
    | with_reducible refine Keeps.foldl1 ?_ ?_
    | with_reducible refine Keeps.getD (fun _ _ => ?_) ?_
    | intro _
    | dsimp only
    | split)

theorem State.serveClass_keeps {μ} [Has μ .mem] [Has μ .codeErr] [Has μ .cores] [Has μ .wafer] [Has μ .jobs] [Has μ .host] [Has μ .regs] [Has μ .clk] [Has μ .integ] [Has μ .obs] {o s f l k3} (h : Keeps μ o s) :
    Keeps μ o (State.serveClass s f l k3) := by
  unfold State.serveClass
  try dsimp only
  repeat' (first
    | with_reducible refine Keeps.ite (fun _ => ?_) (fun _ => ?_)
    | with_reducible assumption
    | with_reducible apply State.actOn_keeps
    | fail_if_no_progress with_reducible refine Keeps.other ?_ rfl rfl rfl rfl rfl rfl rfl rfl rfl rfl rfl rfl rfl rfl rfl rfl rfl rfl rfl rfl rfl rfl rfl rfl rfl rfl rfl rfl rfl rfl rfl rfl
    | with_reducible refine Keeps.foldl ?_ ?_
    | with_reducible refine Keeps.foldl1 ?_ ?_
    | with_reducible refine Keeps.getD (fun _ _ => ?_) ?_
    | intro _
    | dsimp only
    | split)

theorem State.serveField_keeps {μ} [Has μ .mem] [Has μ .codeErr] [Has μ .cores] [Has μ .wafer] [Has μ .jobs] [Has μ .host] [Has μ .regs] [Has μ .clk] [Has μ .integ] [Has μ .obs] [Has μ .mesh] {o s f} (h : Keeps μ o s) :
    Keeps μ o (State.serveField s f) := by
  unfold State.serveField
  try dsimp only
  repeat' (first
    | with_reducible refine Keeps.ite (fun _ => ?_) (fun _ => ?_)
    | with_reducible assumption
    | with_reducible apply State.serveClass_keeps
    | fail_if_no_progress with_reducible refine Keeps.other ?_ rfl rfl rfl rfl rfl rfl rfl rfl rfl rfl rfl rfl rfl rfl rfl rfl rfl rfl rfl rfl rfl rfl rfl rfl rfl rfl rfl rfl rfl rfl rfl rfl
    | with_reducible refine Keeps.foldl ?_ ?_
    | with_reducible refine Keeps.foldl1 ?_ ?_
    | with_reducible refine Keeps.getD (fun _ _ => ?_) ?_
    | intro _
    | dsimp only
    | split)

theorem State.serveMesh_keeps {μ} [Has μ .mem] [Has μ .codeErr] [Has μ .cores] [Has μ .wafer] [Has μ .jobs] [Has μ .host] [Has μ .regs] [Has μ .clk] [Has μ .integ] [Has μ .obs] [Has μ .mesh] {o s} (h : Keeps μ o s) :
    Keeps μ o (State.serveMesh s) := by
  unfold State.serveMesh
  try dsimp only
  repeat' (first
    | with_reducible refine Keeps.ite (fun _ => ?_) (fun _ => ?_)
    | with_reducible assumption
    | with_reducible apply State.serveField_keeps
    | fail_if_no_progress with_reducible refine Keeps.other ?_ rfl rfl rfl rfl rfl rfl rfl rfl rfl rfl rfl rfl rfl rfl rfl rfl rfl rfl rfl rfl rfl rfl rfl rfl rfl rfl rfl rfl rfl rfl rfl rfl
    | with_reducible refine Keeps.foldl ?_ ?_
    | with_reducible refine Keeps.foldl1 ?_ ?_
    | with_reducible refine Keeps.getD (fun _ _ => ?_) ?_
    | intro _
    | dsimp only
    | split)

theorem State.enterSafe_keeps {μ} [Has μ .mem] [Has μ .codeErr] [Has μ .cores] [Has μ .wafer] [Has μ .jobs] [Has μ .host] [Has μ .regs] [Has μ .clk] [Has μ .integ] [Has μ .obs] [Has μ .mesh] {o s cause} (h : Keeps μ o s) :
    Keeps μ o (State.enterSafe s cause) := by
  unfold State.enterSafe
  try dsimp only
  repeat' (first
    | with_reducible refine Keeps.ite (fun _ => ?_) (fun _ => ?_)
    | with_reducible assumption
    | with_reducible apply State.sendQuench_keeps
    | with_reducible apply State.govern_keeps
    | with_reducible apply State.force_keeps
    | with_reducible apply State.bankAll_keeps
    | with_reducible apply State.serveMesh_keeps
    | with_reducible apply State.setDev_keeps
    | fail_if_no_progress with_reducible refine Keeps.other ?_ rfl rfl rfl rfl rfl rfl rfl rfl rfl rfl rfl rfl rfl rfl rfl rfl rfl rfl rfl rfl rfl rfl rfl rfl rfl rfl rfl rfl rfl rfl rfl rfl
    | with_reducible refine Keeps.foldl ?_ ?_
    | with_reducible refine Keeps.foldl1 ?_ ?_
    | with_reducible refine Keeps.getD (fun _ _ => ?_) ?_
    | intro _
    | dsimp only
    | split)

theorem State.startQuench_keeps {μ} [Has μ .mem] [Has μ .codeErr] [Has μ .cores] [Has μ .wafer] [Has μ .jobs] [Has μ .host] [Has μ .regs] [Has μ .clk] [Has μ .integ] [Has μ .obs] [Has μ .mesh] {o s cause cmd} (h : Keeps μ o s) :
    Keeps μ o (State.startQuench s cause cmd) := by
  unfold State.startQuench
  try dsimp only
  repeat' (first
    | with_reducible refine Keeps.ite (fun _ => ?_) (fun _ => ?_)
    | with_reducible assumption
    | with_reducible apply State.serveMesh_keeps
    | with_reducible apply State.sendQuench_keeps
    | fail_if_no_progress with_reducible refine Keeps.other ?_ rfl rfl rfl rfl rfl rfl rfl rfl rfl rfl rfl rfl rfl rfl rfl rfl rfl rfl rfl rfl rfl rfl rfl rfl rfl rfl rfl rfl rfl rfl rfl rfl
    | with_reducible refine Keeps.foldl ?_ ?_
    | with_reducible refine Keeps.foldl1 ?_ ?_
    | with_reducible refine Keeps.getD (fun _ _ => ?_) ?_
    | intro _
    | dsimp only
    | split)

theorem State.tell_keeps {μ} [Has μ .mem] [Has μ .codeErr] [Has μ .cores] [Has μ .wafer] [Has μ .jobs] [Has μ .host] [Has μ .regs] [Has μ .clk] [Has μ .integ] [Has μ .obs] [Has μ .mesh] {o s f m} (h : Keeps μ o s) :
    Keeps μ o (State.tell s f m) := by
  unfold State.tell
  try dsimp only
  repeat' (first
    | with_reducible refine Keeps.ite (fun _ => ?_) (fun _ => ?_)
    | with_reducible assumption
    | with_reducible apply State.serveMesh_keeps
    | with_reducible apply State.post_keeps
    | fail_if_no_progress with_reducible refine Keeps.other ?_ rfl rfl rfl rfl rfl rfl rfl rfl rfl rfl rfl rfl rfl rfl rfl rfl rfl rfl rfl rfl rfl rfl rfl rfl rfl rfl rfl rfl rfl rfl rfl rfl
    | with_reducible refine Keeps.foldl ?_ ?_
    | with_reducible refine Keeps.foldl1 ?_ ?_
    | with_reducible refine Keeps.getD (fun _ _ => ?_) ?_
    | intro _
    | dsimp only
    | split)

end Sys2Proof.Machine
end

