-- ==== Sys2Proof/Laws/KeepsRecorder.lean ====
section
/-! SUPPORT. Every operation of Machine/Recorder.lean keeps the build, the queue and the form of memory. -/

set_option Elab.async false

set_option linter.unreachableTactic false
set_option linter.unusedTactic false

namespace Sys2Proof.Machine

theorem State.flushLog_keeps {μ} [Has μ .obs] {o s} (h : Keeps μ o s) : Keeps μ o (State.flushLog s) := by
  unfold State.flushLog
  exact Keeps.ite (fun _ => Keeps.upd h rfl rfl rfl rfl id (fun q => { q with flash := q.log })) (fun _ => h)

theorem State.refreshField_keeps {μ} [Has μ .regs] {o s f} (h : Keeps μ o s) :
    Keeps μ o (State.refreshField s f) := by
  unfold State.refreshField
  try dsimp only
  repeat' (first
    | with_reducible refine Keeps.ite (fun _ => ?_) (fun _ => ?_)
    | with_reducible assumption
    | fail_if_no_progress with_reducible refine Keeps.other ?_ rfl rfl rfl rfl rfl rfl rfl rfl rfl rfl rfl rfl rfl rfl rfl rfl rfl rfl rfl rfl rfl rfl rfl rfl rfl rfl rfl rfl rfl rfl rfl rfl
    | with_reducible refine Keeps.foldl ?_ ?_
    | with_reducible refine Keeps.foldl1 ?_ ?_
    | with_reducible refine Keeps.getD (fun _ _ => ?_) ?_
    | intro _
    | dsimp only
    | split)

theorem State.setTrace_keeps {μ} [Has μ .obs] {o s t} (h : Keeps μ o s) (ht : s.obs.trace.queue.length ≤ 65536 → t.queue.length ≤ 65536) :
    Keeps μ o (State.setTrace s t) :=
  Keeps.upd h rfl rfl rfl rfl id (fun q => { q with queue := ht q.queue })

theorem execTimesync_keeps {μ} [Has μ .obs] {s} : ∃ t, execTimesync s = .next t ∧ Keeps μ s t :=
  ⟨_, rfl, State.setTrace_keeps (Keeps.refl s) id⟩

theorem Trace.send_room {t : Trace} {now : Nat} (h : t.queue.length ≤ 65536) : (t.send now).queue.length ≤ 65536 := by
  unfold Trace.send
  split
  · exact h
  · split
    · exact h
    · unfold Trace.pop
      split
      · exact h
      · rename_i x l e
        rw [e] at h
        rw [List.length_cons] at h
        dsimp only
        split
        · omega
        · rw [List.length_append, List.length_singleton]
          omega

theorem execTraceSlot_keeps {μ} [Has μ .obs] {s} : ∃ t, execTraceSlot s = .next t ∧ Keeps μ s t :=
  ⟨_, rfl, State.setTrace_keeps (Keeps.refl s) (fun q => Trace.send_room q)⟩

theorem execEventLogFlush_keeps {μ} [Has μ .obs] {s} : ∃ t, execEventLogFlush s = .next t ∧ Keeps μ s t := by
  refine ⟨_, rfl, ?_⟩
  try dsimp only
  have h := Keeps.refl (μ := μ) s
  repeat' (first
    | with_reducible refine Keeps.ite (fun _ => ?_) (fun _ => ?_)
    | with_reducible assumption
    | with_reducible apply State.flushLog_keeps
    | fail_if_no_progress with_reducible refine Keeps.other ?_ rfl rfl rfl rfl rfl rfl rfl rfl rfl rfl rfl rfl rfl rfl rfl rfl rfl rfl rfl rfl rfl rfl rfl rfl rfl rfl rfl rfl rfl rfl rfl rfl
    | with_reducible refine Keeps.foldl ?_ ?_
    | with_reducible refine Keeps.foldl1 ?_ ?_
    | with_reducible refine Keeps.getD (fun _ _ => ?_) ?_
    | intro _
    | dsimp only
    | split)

theorem execSupervisorRefresh_keeps {μ} [Has μ .regs] {field s} : ∃ t, execSupervisorRefresh field s = .next t ∧ Keeps μ s t := by
  refine ⟨_, rfl, ?_⟩
  try dsimp only
  have h := Keeps.refl (μ := μ) s
  repeat' (first
    | with_reducible refine Keeps.ite (fun _ => ?_) (fun _ => ?_)
    | with_reducible assumption
    | with_reducible apply State.refreshField_keeps
    | fail_if_no_progress with_reducible refine Keeps.other ?_ rfl rfl rfl rfl rfl rfl rfl rfl rfl rfl rfl rfl rfl rfl rfl rfl rfl rfl rfl rfl rfl rfl rfl rfl rfl rfl rfl rfl rfl rfl rfl rfl
    | with_reducible refine Keeps.foldl ?_ ?_
    | with_reducible refine Keeps.foldl1 ?_ ?_
    | with_reducible refine Keeps.getD (fun _ _ => ?_) ?_
    | intro _
    | dsimp only
    | split)

end Sys2Proof.Machine
end

