-- ==== Sys2Proof/Laws/KeepsNormMath.lean ====
section
/-! SUPPORT. Every operation of Machine/NormMath.lean keeps the build, the queue and the form of memory. -/

set_option Elab.async false

set_option linter.unreachableTactic false
set_option linter.unusedTactic false

namespace Sys2Proof.Machine

theorem State.writeScales_keeps {μ} [Has μ .mem] [Has μ .codeErr] {o s r} (h : Keeps μ o s) :
    Keeps μ o (State.writeScales s r) := by
  unfold State.writeScales
  try dsimp only
  repeat' (first
    | with_reducible refine Keeps.ite (fun _ => ?_) (fun _ => ?_)
    | with_reducible assumption
    | with_reducible apply State.store_keeps
    | fail_if_no_progress with_reducible refine Keeps.other ?_ rfl rfl rfl rfl rfl rfl rfl rfl rfl rfl rfl rfl rfl rfl rfl rfl rfl rfl rfl rfl rfl rfl rfl rfl rfl rfl rfl rfl rfl rfl rfl rfl
    | with_reducible refine Keeps.foldl ?_ ?_
    | with_reducible refine Keeps.foldl1 ?_ ?_
    | with_reducible refine Keeps.getD (fun _ _ => ?_) ?_
    | intro _
    | dsimp only
    | split)

theorem State.takeDecision_keeps {μ} [Has μ .mem] [Has μ .codeErr] [Has μ .cores] [Has μ .net] [Has μ .jobs] [Has μ .host] [Has μ .regs] [Has μ .obs] {o s j r n} (h : Keeps μ o s) :
    Keeps μ o (State.takeDecision s j r n) := by
  unfold State.takeDecision
  try dsimp only
  repeat' (first
    | with_reducible refine Keeps.ite (fun _ => ?_) (fun _ => ?_)
    | with_reducible assumption
    | with_reducible apply State.setStep_keeps
    | with_reducible apply State.deliverRecord_keeps
    | with_reducible apply State.writeScales_keeps
    | fail_if_no_progress with_reducible refine Keeps.other ?_ rfl rfl rfl rfl rfl rfl rfl rfl rfl rfl rfl rfl rfl rfl rfl rfl rfl rfl rfl rfl rfl rfl rfl rfl rfl rfl rfl rfl rfl rfl rfl rfl
    | with_reducible refine Keeps.foldl ?_ ?_
    | with_reducible refine Keeps.foldl1 ?_ ?_
    | with_reducible refine Keeps.getD (fun _ _ => ?_) ?_
    | intro _
    | dsimp only
    | split)

theorem State.tryDecision_keeps {μ} [Has μ .mem] [Has μ .codeErr] [Has μ .cores] [Has μ .net] [Has μ .jobs] [Has μ .host] [Has μ .regs] [Has μ .obs] {o s j n} (h : Keeps μ o s) :
    Keeps μ o (State.tryDecision s j n) := by
  unfold State.tryDecision
  try dsimp only
  repeat' (first
    | with_reducible refine Keeps.ite (fun _ => ?_) (fun _ => ?_)
    | with_reducible assumption
    | with_reducible apply State.takeDecision_keeps
    | fail_if_no_progress with_reducible refine Keeps.other ?_ rfl rfl rfl rfl rfl rfl rfl rfl rfl rfl rfl rfl rfl rfl rfl rfl rfl rfl rfl rfl rfl rfl rfl rfl rfl rfl rfl rfl rfl rfl rfl rfl
    | with_reducible refine Keeps.foldl ?_ ?_
    | with_reducible refine Keeps.foldl1 ?_ ?_
    | with_reducible refine Keeps.getD (fun _ _ => ?_) ?_
    | intro _
    | dsimp only
    | split)

end Sys2Proof.Machine
end

