-- ==== Sys2Proof/Laws/KeepsFabricRecv.lean ====
section
/-! SUPPORT. Every operation of Machine/FabricRecv.lean keeps the build, the queue and the form of memory. -/

set_option Elab.async false

set_option linter.unreachableTactic false
set_option linter.unusedTactic false

namespace Sys2Proof.Machine

theorem State.sendAck_keeps {μ} [Has μ .fabric] [Has μ .regs] [Has μ .obs] {o s site g server} (h : Keeps μ o s) :
    Keeps μ o (State.sendAck s site g server) := by
  unfold State.sendAck
  try dsimp only
  repeat' (first
    | with_reducible refine Keeps.ite (fun _ => ?_) (fun _ => ?_)
    | with_reducible assumption
    | with_reducible apply State.sendFrame_keeps
    | with_reducible apply State.setConn_keeps
    | fail_if_no_progress with_reducible refine Keeps.other ?_ rfl rfl rfl rfl rfl rfl rfl rfl rfl rfl rfl rfl rfl rfl rfl rfl rfl rfl rfl rfl rfl rfl rfl rfl rfl rfl rfl rfl rfl rfl rfl rfl
    | with_reducible refine Keeps.foldl ?_ ?_
    | with_reducible refine Keeps.foldl1 ?_ ?_
    | with_reducible refine Keeps.getD (fun _ _ => ?_) ?_
    | intro _
    | dsimp only
    | split)

theorem State.replyTo_keeps {μ} [Has μ .fabric] [Has μ .regs] [Has μ .obs] {o s site g server m st} (h : Keeps μ o s) :
    Keeps μ o (State.replyTo s site g server m st) := by
  unfold State.replyTo
  try dsimp only
  repeat' (first
    | with_reducible refine Keeps.ite (fun _ => ?_) (fun _ => ?_)
    | with_reducible assumption
    | with_reducible apply State.sendTo_keeps
    | fail_if_no_progress with_reducible refine Keeps.other ?_ rfl rfl rfl rfl rfl rfl rfl rfl rfl rfl rfl rfl rfl rfl rfl rfl rfl rfl rfl rfl rfl rfl rfl rfl rfl rfl rfl rfl rfl rfl rfl rfl
    | with_reducible refine Keeps.foldl ?_ ?_
    | with_reducible refine Keeps.foldl1 ?_ ?_
    | with_reducible refine Keeps.getD (fun _ _ => ?_) ?_
    | intro _
    | dsimp only
    | split)

theorem State.reply_keeps {μ} [Has μ .fabric] [Has μ .regs] [Has μ .obs] {o s q st} (h : Keeps μ o s) :
    Keeps μ o (State.reply s q st) := by
  unfold State.reply
  try dsimp only
  repeat' (first
    | with_reducible refine Keeps.ite (fun _ => ?_) (fun _ => ?_)
    | with_reducible assumption
    | with_reducible apply State.replyTo_keeps
    | fail_if_no_progress with_reducible refine Keeps.other ?_ rfl rfl rfl rfl rfl rfl rfl rfl rfl rfl rfl rfl rfl rfl rfl rfl rfl rfl rfl rfl rfl rfl rfl rfl rfl rfl rfl rfl rfl rfl rfl rfl
    | with_reducible refine Keeps.foldl ?_ ?_
    | with_reducible refine Keeps.foldl1 ?_ ?_
    | with_reducible refine Keeps.getD (fun _ _ => ?_) ?_
    | intro _
    | dsimp only
    | split)

theorem State.applyMembership_keeps {μ} [Has μ .jobs] [Has μ .fabric] [Has μ .host] [Has μ .regs] [Has μ .obs] {o s g epoch x live rs} (h : Keeps μ o s) :
    Keeps μ o (State.applyMembership s g epoch x live rs) := by
  unfold State.applyMembership
  try dsimp only
  repeat' (first
    | with_reducible refine Keeps.ite (fun _ => ?_) (fun _ => ?_)
    | with_reducible assumption
    | with_reducible apply State.modJob_keeps
    | with_reducible apply State.record_keeps
    | fail_if_no_progress with_reducible refine Keeps.other ?_ rfl rfl rfl rfl rfl rfl rfl rfl rfl rfl rfl rfl rfl rfl rfl rfl rfl rfl rfl rfl rfl rfl rfl rfl rfl rfl rfl rfl rfl rfl rfl rfl
    | with_reducible refine Keeps.foldl ?_ ?_
    | with_reducible refine Keeps.foldl1 ?_ ?_
    | with_reducible refine Keeps.getD (fun _ _ => ?_) ?_
    | intro _
    | dsimp only
    | split)

theorem State.onMembership_keeps {μ} [Has μ .jobs] [Has μ .fabric] [Has μ .host] [Has μ .regs] [Has μ .obs] {o s q} (h : Keeps μ o s) :
    Keeps μ o (State.onMembership s q) := by
  unfold State.onMembership
  try dsimp only
  repeat' (first
    | with_reducible refine Keeps.ite (fun _ => ?_) (fun _ => ?_)
    | with_reducible assumption
    | with_reducible apply State.reply_keeps
    | with_reducible apply State.applyMembership_keeps
    | with_reducible apply State.record_keeps
    | fail_if_no_progress with_reducible refine Keeps.other ?_ rfl rfl rfl rfl rfl rfl rfl rfl rfl rfl rfl rfl rfl rfl rfl rfl rfl rfl rfl rfl rfl rfl rfl rfl rfl rfl rfl rfl rfl rfl rfl rfl
    | with_reducible refine Keeps.foldl ?_ ?_
    | with_reducible refine Keeps.foldl1 ?_ ?_
    | with_reducible refine Keeps.getD (fun _ _ => ?_) ?_
    | intro _
    | dsimp only
    | split)

theorem State.onGatherData_keeps {μ} [Has μ .cores] [Has μ .net] [Has μ .fabric] [Has μ .obs] {o s p q} (h : Keeps μ o s) :
    Keeps μ o (State.onGatherData s p q) := by
  unfold State.onGatherData
  try dsimp only
  repeat' (first
    | with_reducible refine Keeps.ite (fun _ => ?_) (fun _ => ?_)
    | with_reducible assumption
    | with_reducible apply State.discard_keeps
    | with_reducible apply State.setIoSite_keeps
    | with_reducible apply State.sendAllFromSite_keeps
    | with_reducible apply State.sendFromSite_keeps
    | fail_if_no_progress with_reducible refine Keeps.other ?_ rfl rfl rfl rfl rfl rfl rfl rfl rfl rfl rfl rfl rfl rfl rfl rfl rfl rfl rfl rfl rfl rfl rfl rfl rfl rfl rfl rfl rfl rfl rfl rfl
    | with_reducible refine Keeps.foldl ?_ ?_
    | with_reducible refine Keeps.foldl1 ?_ ?_
    | with_reducible refine Keeps.getD (fun _ _ => ?_) ?_
    | intro _
    | dsimp only
    | split)

theorem State.missBucket_keeps {μ} [Has μ .jobs] [Has μ .host] [Has μ .regs] [Has μ .obs] {o s j n bucket} (h : Keeps μ o s) :
    Keeps μ o (State.missBucket s j n bucket) := by
  unfold State.missBucket
  try dsimp only
  repeat' (first
    | with_reducible refine Keeps.ite (fun _ => ?_) (fun _ => ?_)
    | with_reducible assumption
    | with_reducible apply State.setStep_keeps
    | with_reducible apply State.record_keeps
    | fail_if_no_progress with_reducible refine Keeps.other ?_ rfl rfl rfl rfl rfl rfl rfl rfl rfl rfl rfl rfl rfl rfl rfl rfl rfl rfl rfl rfl rfl rfl rfl rfl rfl rfl rfl rfl rfl rfl rfl rfl
    | with_reducible refine Keeps.foldl ?_ ?_
    | with_reducible refine Keeps.foldl1 ?_ ?_
    | with_reducible refine Keeps.getD (fun _ _ => ?_) ?_
    | intro _
    | dsimp only
    | split)

theorem State.reducedSummary_keeps {μ} [Has μ .mem] [Has μ .codeErr] [Has μ .cores] [Has μ .net] [Has μ .jobs] [Has μ .host] [Has μ .regs] [Has μ .obs] {o s p j r q} (h : Keeps μ o s) :
    Keeps μ o (State.reducedSummary s p j r q) := by
  unfold State.reducedSummary
  try dsimp only
  repeat' (first
    | with_reducible refine Keeps.ite (fun _ => ?_) (fun _ => ?_)
    | with_reducible assumption
    | with_reducible apply State.setStep_keeps
    | with_reducible apply State.discard_keeps
    | with_reducible apply State.missBucket_keeps
    | with_reducible apply State.record_keeps
    | with_reducible apply State.tryDecision_keeps
    | fail_if_no_progress with_reducible refine Keeps.other ?_ rfl rfl rfl rfl rfl rfl rfl rfl rfl rfl rfl rfl rfl rfl rfl rfl rfl rfl rfl rfl rfl rfl rfl rfl rfl rfl rfl rfl rfl rfl rfl rfl
    | with_reducible refine Keeps.foldl ?_ ?_
    | with_reducible refine Keeps.foldl1 ?_ ?_
    | with_reducible refine Keeps.getD (fun _ _ => ?_) ?_
    | intro _
    | dsimp only
    | split)

theorem State.reducedData_keeps {μ} [Has μ .cores] [Has μ .net] [Has μ .jobs] [Has μ .fabric] [Has μ .host] [Has μ .regs] [Has μ .obs] {o s p site j r o5 m} (h : Keeps μ o s) :
    Keeps μ o (State.reducedData s p site j r o5 m) := by
  unfold State.reducedData
  try dsimp only
  repeat' (first
    | with_reducible refine Keeps.ite (fun _ => ?_) (fun _ => ?_)
    | with_reducible assumption
    | with_reducible apply State.record_keeps
    | with_reducible apply State.discard_keeps
    | with_reducible apply State.setStep_keeps
    | with_reducible apply State.ioWrite_keeps
    | with_reducible refine State.ioWrite_keeps_eq (by assumption) ?_
    | fail_if_no_progress with_reducible refine Keeps.other ?_ rfl rfl rfl rfl rfl rfl rfl rfl rfl rfl rfl rfl rfl rfl rfl rfl rfl rfl rfl rfl rfl rfl rfl rfl rfl rfl rfl rfl rfl rfl rfl rfl
    | with_reducible refine Keeps.foldl ?_ ?_
    | with_reducible refine Keeps.foldl1 ?_ ?_
    | with_reducible refine Keeps.getD (fun _ _ => ?_) ?_
    | intro _
    | dsimp only
    | split)

theorem State.onReduced_keeps {μ} [Has μ .mem] [Has μ .codeErr] [Has μ .cores] [Has μ .net] [Has μ .jobs] [Has μ .fabric] [Has μ .host] [Has μ .regs] [Has μ .obs] {o s p q} (h : Keeps μ o s) :
    Keeps μ o (State.onReduced s p q) := by
  unfold State.onReduced
  try dsimp only
  repeat' (first
    | with_reducible refine Keeps.ite (fun _ => ?_) (fun _ => ?_)
    | with_reducible assumption
    | with_reducible apply State.discard_keeps
    | with_reducible apply State.reducedSummary_keeps
    | with_reducible apply State.reducedData_keeps
    | fail_if_no_progress with_reducible refine Keeps.other ?_ rfl rfl rfl rfl rfl rfl rfl rfl rfl rfl rfl rfl rfl rfl rfl rfl rfl rfl rfl rfl rfl rfl rfl rfl rfl rfl rfl rfl rfl rfl rfl rfl
    | with_reducible refine Keeps.foldl ?_ ?_
    | with_reducible refine Keeps.foldl1 ?_ ?_
    | with_reducible refine Keeps.getD (fun _ _ => ?_) ?_
    | intro _
    | dsimp only
    | split)

theorem State.onPermute_keeps {μ} [Has μ .cores] [Has μ .net] [Has μ .fabric] [Has μ .regs] [Has μ .obs] {o s q} (h : Keeps μ o s) :
    Keeps μ o (State.onPermute s q) := by
  unfold State.onPermute
  try dsimp only
  repeat' (first
    | with_reducible refine Keeps.ite (fun _ => ?_) (fun _ => ?_)
    | with_reducible assumption
    | with_reducible apply State.reply_keeps
    | with_reducible apply State.ioWrite_keeps
    | with_reducible refine State.ioWrite_keeps_eq (by assumption) ?_
    | fail_if_no_progress with_reducible refine Keeps.other ?_ rfl rfl rfl rfl rfl rfl rfl rfl rfl rfl rfl rfl rfl rfl rfl rfl rfl rfl rfl rfl rfl rfl rfl rfl rfl rfl rfl rfl rfl rfl rfl rfl
    | with_reducible refine Keeps.foldl ?_ ?_
    | with_reducible refine Keeps.foldl1 ?_ ?_
    | with_reducible refine Keeps.getD (fun _ _ => ?_) ?_
    | intro _
    | dsimp only
    | split)

theorem State.restorePiece_keeps {μ} [Has μ .jobs] [Has μ .fabric] [Has μ .host] [Has μ .regs] [Has μ .obs] {o s q j r} (h : Keeps μ o s) :
    Keeps μ o (State.restorePiece s q j r) := by
  unfold State.restorePiece
  try dsimp only
  repeat' (first
    | with_reducible refine Keeps.ite (fun _ => ?_) (fun _ => ?_)
    | with_reducible assumption
    | with_reducible apply State.reply_keeps
    | with_reducible apply State.modJob_keeps
    | with_reducible apply State.sendMsg_keeps
    | fail_if_no_progress with_reducible refine Keeps.other ?_ rfl rfl rfl rfl rfl rfl rfl rfl rfl rfl rfl rfl rfl rfl rfl rfl rfl rfl rfl rfl rfl rfl rfl rfl rfl rfl rfl rfl rfl rfl rfl rfl
    | with_reducible refine Keeps.foldl ?_ ?_
    | with_reducible refine Keeps.foldl1 ?_ ?_
    | with_reducible refine Keeps.getD (fun _ _ => ?_) ?_
    | intro _
    | dsimp only
    | split)

theorem State.partnerStart_keeps {μ} [Has μ .recov] {o s j} (h : Keeps μ o s) :
    Keeps μ o (State.partnerStart s j) := by
  unfold State.partnerStart
  try dsimp only
  repeat' (first
    | with_reducible refine Keeps.ite (fun _ => ?_) (fun _ => ?_)
    | with_reducible assumption
    | fail_if_no_progress with_reducible refine Keeps.other ?_ rfl rfl rfl rfl rfl rfl rfl rfl rfl rfl rfl rfl rfl rfl rfl rfl rfl rfl rfl rfl rfl rfl rfl rfl rfl rfl rfl rfl rfl rfl rfl rfl
    | with_reducible refine Keeps.foldl ?_ ?_
    | with_reducible refine Keeps.foldl1 ?_ ?_
    | with_reducible refine Keeps.getD (fun _ _ => ?_) ?_
    | intro _
    | dsimp only
    | split)

theorem State.onPartnerCopy_keeps {μ} [Has μ .cores] [Has μ .net] [Has μ .fabric] [Has μ .regs] [Has μ .recov] [Has μ .obs] {o s q j} (h : Keeps μ o s) :
    Keeps μ o (State.onPartnerCopy s q j) := by
  unfold State.onPartnerCopy
  try dsimp only
  repeat' (first
    | with_reducible refine Keeps.ite (fun _ => ?_) (fun _ => ?_)
    | with_reducible assumption
    | with_reducible apply State.reply_keeps
    | with_reducible apply State.partnerStart_keeps
    | with_reducible apply State.ioWrite_keeps
    | with_reducible refine State.ioWrite_keeps_eq (by assumption) ?_
    | fail_if_no_progress with_reducible refine Keeps.other ?_ rfl rfl rfl rfl rfl rfl rfl rfl rfl rfl rfl rfl rfl rfl rfl rfl rfl rfl rfl rfl rfl rfl rfl rfl rfl rfl rfl rfl rfl rfl rfl rfl
    | with_reducible refine Keeps.foldl ?_ ?_
    | with_reducible refine Keeps.foldl1 ?_ ?_
    | with_reducible refine Keeps.getD (fun _ _ => ?_) ?_
    | intro _
    | dsimp only
    | split)

theorem State.onPartnerPut_keeps {μ} [Has μ .cores] [Has μ .net] [Has μ .jobs] [Has μ .fabric] [Has μ .host] [Has μ .regs] [Has μ .recov] [Has μ .obs] {o s q} (h : Keeps μ o s) :
    Keeps μ o (State.onPartnerPut s q) := by
  unfold State.onPartnerPut
  try dsimp only
  repeat' (first
    | with_reducible refine Keeps.ite (fun _ => ?_) (fun _ => ?_)
    | with_reducible assumption
    | with_reducible apply State.reply_keeps
    | with_reducible apply State.ioWrite_keeps
    | with_reducible refine State.ioWrite_keeps_eq (by assumption) ?_
    | with_reducible apply State.restorePiece_keeps
    | with_reducible apply State.onPartnerCopy_keeps
    | fail_if_no_progress with_reducible refine Keeps.other ?_ rfl rfl rfl rfl rfl rfl rfl rfl rfl rfl rfl rfl rfl rfl rfl rfl rfl rfl rfl rfl rfl rfl rfl rfl rfl rfl rfl rfl rfl rfl rfl rfl
    | with_reducible refine Keeps.foldl ?_ ?_
    | with_reducible refine Keeps.foldl1 ?_ ?_
    | with_reducible refine Keeps.getD (fun _ _ => ?_) ?_
    | intro _
    | dsimp only
    | split)

theorem State.sendPuts_keeps {μ} [Has μ .fabric] [Has μ .regs] [Has μ .obs] {o s site g m bs off n} (h : Keeps μ o s) :
    Keeps μ o (State.sendPuts s site g m bs off n) := by
  induction n generalizing s bs off with
  | zero => exact h
  | succ n ih =>
    unfold State.sendPuts
    try dsimp only
    repeat' (first
      | with_reducible refine Keeps.ite (fun _ => ?_) (fun _ => ?_)
      | with_reducible assumption
      | with_reducible apply ih
      | with_reducible apply State.sendMsg_keeps
      | fail_if_no_progress with_reducible refine Keeps.other ?_ rfl rfl rfl rfl rfl rfl rfl rfl rfl rfl rfl rfl rfl rfl rfl rfl rfl rfl rfl rfl rfl rfl rfl rfl rfl rfl rfl rfl rfl rfl rfl rfl
      | with_reducible refine Keeps.getD (fun _ _ => ?_) ?_
      | intro _
      | dsimp only
      | split)

theorem State.answerGet_keeps {μ} [Has μ .fabric] [Has μ .regs] [Has μ .obs] {o s site g m bs} (h : Keeps μ o s) :
    Keeps μ o (State.answerGet s site g m bs) := by
  unfold State.answerGet
  try dsimp only
  repeat' (first
    | with_reducible refine Keeps.ite (fun _ => ?_) (fun _ => ?_)
    | with_reducible assumption
    | with_reducible apply State.sendPuts_keeps
    | fail_if_no_progress with_reducible refine Keeps.other ?_ rfl rfl rfl rfl rfl rfl rfl rfl rfl rfl rfl rfl rfl rfl rfl rfl rfl rfl rfl rfl rfl rfl rfl rfl rfl rfl rfl rfl rfl rfl rfl rfl
    | with_reducible refine Keeps.foldl ?_ ?_
    | with_reducible refine Keeps.foldl1 ?_ ?_
    | with_reducible refine Keeps.getD (fun _ _ => ?_) ?_
    | intro _
    | dsimp only
    | split)

theorem State.onPartnerGet_keeps {μ} [Has μ .cores] [Has μ .net] [Has μ .fabric] [Has μ .regs] [Has μ .obs] {o s q} (h : Keeps μ o s) :
    Keeps μ o (State.onPartnerGet s q) := by
  unfold State.onPartnerGet
  try dsimp only
  repeat' (first
    | with_reducible refine Keeps.ite (fun _ => ?_) (fun _ => ?_)
    | with_reducible assumption
    | with_reducible apply State.ioRead_keeps
    | with_reducible refine State.ioRead_keeps_eq (by assumption) ?_
    | with_reducible apply State.reply_keeps
    | with_reducible apply State.answerGet_keeps
    | fail_if_no_progress with_reducible refine Keeps.other ?_ rfl rfl rfl rfl rfl rfl rfl rfl rfl rfl rfl rfl rfl rfl rfl rfl rfl rfl rfl rfl rfl rfl rfl rfl rfl rfl rfl rfl rfl rfl rfl rfl
    | with_reducible refine Keeps.foldl ?_ ?_
    | with_reducible refine Keeps.foldl1 ?_ ?_
    | with_reducible refine Keeps.getD (fun _ _ => ?_) ?_
    | intro _
    | dsimp only
    | split)

theorem State.publishDone_keeps {μ} [Has μ .cores] [Has μ .net] [Has μ .jobs] [Has μ .host] [Has μ .regs] [Has μ .obs] {o s site r} (h : Keeps μ o s) :
    Keeps μ o (State.publishDone s site r) := by
  unfold State.publishDone
  try dsimp only
  repeat' (first
    | with_reducible refine Keeps.ite (fun _ => ?_) (fun _ => ?_)
    | with_reducible assumption
    | with_reducible apply State.deliver_keeps
    | with_reducible apply State.setStep_keeps
    | fail_if_no_progress with_reducible refine Keeps.other ?_ rfl rfl rfl rfl rfl rfl rfl rfl rfl rfl rfl rfl rfl rfl rfl rfl rfl rfl rfl rfl rfl rfl rfl rfl rfl rfl rfl rfl rfl rfl rfl rfl
    | with_reducible refine Keeps.foldl ?_ ?_
    | with_reducible refine Keeps.foldl1 ?_ ?_
    | with_reducible refine Keeps.getD (fun _ _ => ?_) ?_
    | intro _
    | dsimp only
    | split)

theorem State.onShardApplied_keeps {μ} [Has μ .cores] [Has μ .net] [Has μ .jobs] [Has μ .fabric] [Has μ .host] [Has μ .regs] [Has μ .obs] {o s q} (h : Keeps μ o s) :
    Keeps μ o (State.onShardApplied s q) := by
  unfold State.onShardApplied
  try dsimp only
  repeat' (first
    | with_reducible refine Keeps.ite (fun _ => ?_) (fun _ => ?_)
    | with_reducible assumption
    | with_reducible apply State.record_keeps
    | with_reducible apply State.publishDone_keeps
    | with_reducible apply State.setIoSite_keeps
    | fail_if_no_progress with_reducible refine Keeps.other ?_ rfl rfl rfl rfl rfl rfl rfl rfl rfl rfl rfl rfl rfl rfl rfl rfl rfl rfl rfl rfl rfl rfl rfl rfl rfl rfl rfl rfl rfl rfl rfl rfl
    | with_reducible refine Keeps.foldl ?_ ?_
    | with_reducible refine Keeps.foldl1 ?_ ?_
    | with_reducible refine Keeps.getD (fun _ _ => ?_) ?_
    | intro _
    | dsimp only
    | split)

theorem State.onPermuteApplied_keeps {μ} [Has μ .mem] [Has μ .codeErr] [Has μ .cores] [Has μ .net] [Has μ .jobs] [Has μ .fabric] [Has μ .host] [Has μ .regs] [Has μ .obs] {o s q} (h : Keeps μ o s) :
    Keeps μ o (State.onPermuteApplied s q) := by
  unfold State.onPermuteApplied
  try dsimp only
  repeat' (first
    | with_reducible refine Keeps.ite (fun _ => ?_) (fun _ => ?_)
    | with_reducible assumption
    | with_reducible apply State.reshardProgress_keeps
    | with_reducible apply State.modJob_keeps
    | fail_if_no_progress with_reducible refine Keeps.other ?_ rfl rfl rfl rfl rfl rfl rfl rfl rfl rfl rfl rfl rfl rfl rfl rfl rfl rfl rfl rfl rfl rfl rfl rfl rfl rfl rfl rfl rfl rfl rfl rfl
    | with_reducible refine Keeps.foldl ?_ ?_
    | with_reducible refine Keeps.foldl1 ?_ ?_
    | with_reducible refine Keeps.getD (fun _ _ => ?_) ?_
    | intro _
    | dsimp only
    | split)

theorem State.snapEnd_keeps {μ} [Has μ .host] [Has μ .regs] [Has μ .recov] [Has μ .obs] {o s j r st} (h : Keeps μ o s) :
    Keeps μ o (State.snapEnd s j r st) := by
  unfold State.snapEnd
  try dsimp only
  repeat' (first
    | with_reducible refine Keeps.ite (fun _ => ?_) (fun _ => ?_)
    | with_reducible assumption
    | with_reducible apply State.finish_keeps
    | fail_if_no_progress with_reducible refine Keeps.other ?_ rfl rfl rfl rfl rfl rfl rfl rfl rfl rfl rfl rfl rfl rfl rfl rfl rfl rfl rfl rfl rfl rfl rfl rfl rfl rfl rfl rfl rfl rfl rfl rfl
    | with_reducible refine Keeps.foldl ?_ ?_
    | with_reducible refine Keeps.foldl1 ?_ ?_
    | with_reducible refine Keeps.getD (fun _ _ => ?_) ?_
    | intro _
    | dsimp only
    | split)

theorem State.snapFailed_keeps {μ} [Has μ .host] [Has μ .regs] [Has μ .recov] [Has μ .obs] {o s j r st} (h : Keeps μ o s) :
    Keeps μ o (State.snapFailed s j r st) := by
  unfold State.snapFailed
  try dsimp only
  repeat' (first
    | with_reducible refine Keeps.ite (fun _ => ?_) (fun _ => ?_)
    | with_reducible assumption
    | with_reducible apply State.snapEnd_keeps
    | with_reducible apply State.record_keeps
    | fail_if_no_progress with_reducible refine Keeps.other ?_ rfl rfl rfl rfl rfl rfl rfl rfl rfl rfl rfl rfl rfl rfl rfl rfl rfl rfl rfl rfl rfl rfl rfl rfl rfl rfl rfl rfl rfl rfl rfl rfl
    | with_reducible refine Keeps.foldl ?_ ?_
    | with_reducible refine Keeps.foldl1 ?_ ?_
    | with_reducible refine Keeps.getD (fun _ _ => ?_) ?_
    | intro _
    | dsimp only
    | split)

theorem State.snapDone_keeps {μ} [Has μ .host] [Has μ .regs] [Has μ .recov] [Has μ .obs] {o s j r} (h : Keeps μ o s) :
    Keeps μ o (State.snapDone s j r) := by
  unfold State.snapDone
  try dsimp only
  repeat' (first
    | with_reducible refine Keeps.ite (fun _ => ?_) (fun _ => ?_)
    | with_reducible assumption
    | with_reducible apply State.snapEnd_keeps
    | with_reducible apply State.record_keeps
    | fail_if_no_progress with_reducible refine Keeps.other ?_ rfl rfl rfl rfl rfl rfl rfl rfl rfl rfl rfl rfl rfl rfl rfl rfl rfl rfl rfl rfl rfl rfl rfl rfl rfl rfl rfl rfl rfl rfl rfl rfl
    | with_reducible refine Keeps.foldl ?_ ?_
    | with_reducible refine Keeps.foldl1 ?_ ?_
    | with_reducible refine Keeps.getD (fun _ _ => ?_) ?_
    | intro _
    | dsimp only
    | split)

theorem State.onPartnerApplied_keeps {μ} [Has μ .host] [Has μ .regs] [Has μ .recov] [Has μ .obs] {o s q} (h : Keeps μ o s) :
    Keeps μ o (State.onPartnerApplied s q) := by
  unfold State.onPartnerApplied
  try dsimp only
  repeat' (first
    | with_reducible refine Keeps.ite (fun _ => ?_) (fun _ => ?_)
    | with_reducible assumption
    | with_reducible apply State.snapFailed_keeps
    | with_reducible apply State.snapDone_keeps
    | fail_if_no_progress with_reducible refine Keeps.other ?_ rfl rfl rfl rfl rfl rfl rfl rfl rfl rfl rfl rfl rfl rfl rfl rfl rfl rfl rfl rfl rfl rfl rfl rfl rfl rfl rfl rfl rfl rfl rfl rfl
    | with_reducible refine Keeps.foldl ?_ ?_
    | with_reducible refine Keeps.foldl1 ?_ ?_
    | with_reducible refine Keeps.getD (fun _ _ => ?_) ?_
    | intro _
    | dsimp only
    | split)

theorem State.onGetApplied_keeps {μ} [Has μ .jobs] [Has μ .host] [Has μ .regs] {o s q} (h : Keeps μ o s) :
    Keeps μ o (State.onGetApplied s q) := by
  unfold State.onGetApplied
  try dsimp only
  repeat' (first
    | with_reducible refine Keeps.ite (fun _ => ?_) (fun _ => ?_)
    | with_reducible assumption
    | with_reducible apply State.modJob_keeps
    | fail_if_no_progress with_reducible refine Keeps.other ?_ rfl rfl rfl rfl rfl rfl rfl rfl rfl rfl rfl rfl rfl rfl rfl rfl rfl rfl rfl rfl rfl rfl rfl rfl rfl rfl rfl rfl rfl rfl rfl rfl
    | with_reducible refine Keeps.foldl ?_ ?_
    | with_reducible refine Keeps.foldl1 ?_ ?_
    | with_reducible refine Keeps.getD (fun _ _ => ?_) ?_
    | intro _
    | dsimp only
    | split)

theorem State.onApplied_keeps {μ} [Has μ .mem] [Has μ .codeErr] [Has μ .cores] [Has μ .net] [Has μ .jobs] [Has μ .fabric] [Has μ .host] [Has μ .regs] [Has μ .recov] [Has μ .obs] {o s q} (h : Keeps μ o s) :
    Keeps μ o (State.onApplied s q) := by
  unfold State.onApplied
  try dsimp only
  repeat' (first
    | with_reducible refine Keeps.ite (fun _ => ?_) (fun _ => ?_)
    | with_reducible assumption
    | with_reducible apply State.onShardApplied_keeps
    | with_reducible apply State.onPermuteApplied_keeps
    | with_reducible apply State.onPartnerApplied_keeps
    | with_reducible apply State.onGetApplied_keeps
    | fail_if_no_progress with_reducible refine Keeps.other ?_ rfl rfl rfl rfl rfl rfl rfl rfl rfl rfl rfl rfl rfl rfl rfl rfl rfl rfl rfl rfl rfl rfl rfl rfl rfl rfl rfl rfl rfl rfl rfl rfl
    | with_reducible refine Keeps.foldl ?_ ?_
    | with_reducible refine Keeps.foldl1 ?_ ?_
    | with_reducible refine Keeps.getD (fun _ _ => ?_) ?_
    | intro _
    | dsimp only
    | split)

theorem State.consume_keeps {μ} [Has μ .mem] [Has μ .codeErr] [Has μ .cores] [Has μ .net] [Has μ .jobs] [Has μ .fabric] [Has μ .host] [Has μ .regs] [Has μ .recov] [Has μ .obs] {o s p q} (h : Keeps μ o s) :
    Keeps μ o (State.consume s p q) := by
  unfold State.consume
  try dsimp only
  repeat' (first
    | with_reducible refine Keeps.ite (fun _ => ?_) (fun _ => ?_)
    | with_reducible assumption
    | with_reducible apply State.onMembership_keeps
    | with_reducible apply State.discard_keeps
    | with_reducible apply State.onGatherData_keeps
    | with_reducible apply State.onReduced_keeps
    | with_reducible apply State.onPermute_keeps
    | with_reducible apply State.onPartnerPut_keeps
    | with_reducible apply State.onPartnerGet_keeps
    | with_reducible apply State.onApplied_keeps
    | fail_if_no_progress with_reducible refine Keeps.other ?_ rfl rfl rfl rfl rfl rfl rfl rfl rfl rfl rfl rfl rfl rfl rfl rfl rfl rfl rfl rfl rfl rfl rfl rfl rfl rfl rfl rfl rfl rfl rfl rfl
    | with_reducible refine Keeps.foldl ?_ ?_
    | with_reducible refine Keeps.foldl1 ?_ ?_
    | with_reducible refine Keeps.getD (fun _ _ => ?_) ?_
    | intro _
    | dsimp only
    | split)

theorem State.deliverInOrder_keeps {μ} [Has μ .mem] [Has μ .codeErr] [Has μ .cores] [Has μ .net] [Has μ .jobs] [Has μ .fabric] [Has μ .host] [Has μ .regs] [Has μ .recov] [Has μ .obs] {o s q l n} (h : Keeps μ o s) : Keeps μ o (State.deliverInOrder s q l n) := by
  induction n generalizing s l with
  | zero => exact h
  | succ n ih =>
    unfold State.deliverInOrder
    try dsimp only
    repeat' (first
      | with_reducible refine Keeps.ite (fun _ => ?_) (fun _ => ?_)
      | with_reducible assumption
      | with_reducible apply ih
      | with_reducible apply State.consume_keeps
      | with_reducible apply State.setConn_keeps
      | fail_if_no_progress with_reducible refine Keeps.other ?_ rfl rfl rfl rfl rfl rfl rfl rfl rfl rfl rfl rfl rfl rfl rfl rfl rfl rfl rfl rfl rfl rfl rfl rfl rfl rfl rfl rfl rfl rfl rfl rfl
      | with_reducible refine Keeps.getD (fun _ _ => ?_) ?_
      | intro _
      | dsimp only
      | split)

theorem State.acceptSeq_keeps {μ} [Has μ .mem] [Has μ .codeErr] [Has μ .cores] [Has μ .net] [Has μ .jobs] [Has μ .fabric] [Has μ .host] [Has μ .regs] [Has μ .recov] [Has μ .obs] {o s p q} (h : Keeps μ o s) :
    Keeps μ o (State.acceptSeq s p q) := by
  unfold State.acceptSeq
  try dsimp only
  repeat' (first
    | with_reducible refine Keeps.ite (fun _ => ?_) (fun _ => ?_)
    | with_reducible assumption
    | with_reducible apply State.sendAck_keeps
    | with_reducible apply State.discard_keeps
    | with_reducible apply State.deliverInOrder_keeps
    | with_reducible apply State.setConn_keeps
    | fail_if_no_progress with_reducible refine Keeps.other ?_ rfl rfl rfl rfl rfl rfl rfl rfl rfl rfl rfl rfl rfl rfl rfl rfl rfl rfl rfl rfl rfl rfl rfl rfl rfl rfl rfl rfl rfl rfl rfl rfl
    | with_reducible refine Keeps.foldl ?_ ?_
    | with_reducible refine Keeps.foldl1 ?_ ?_
    | with_reducible refine Keeps.getD (fun _ _ => ?_) ?_
    | intro _
    | dsimp only
    | split)

theorem State.notePorts_keeps {μ} [Has μ .fabric] [Has μ .regs] [Has μ .obs] {o s site} (h : Keeps μ o s) :
    Keeps μ o (State.notePorts s site) := by
  unfold State.notePorts
  try dsimp only
  repeat' (first
    | with_reducible refine Keeps.ite (fun _ => ?_) (fun _ => ?_)
    | with_reducible assumption
    | with_reducible apply State.noteSender_keeps
    | fail_if_no_progress with_reducible refine Keeps.other ?_ rfl rfl rfl rfl rfl rfl rfl rfl rfl rfl rfl rfl rfl rfl rfl rfl rfl rfl rfl rfl rfl rfl rfl rfl rfl rfl rfl rfl rfl rfl rfl rfl
    | with_reducible refine Keeps.foldl ?_ ?_
    | with_reducible refine Keeps.foldl1 ?_ ?_
    | with_reducible refine Keeps.getD (fun _ _ => ?_) ?_
    | intro _
    | dsimp only
    | split)

theorem State.beat_keeps {μ} [Has μ .fabric] [Has μ .regs] [Has μ .obs] {o s p} (h : Keeps μ o s) :
    Keeps μ o (State.beat s p) := by
  unfold State.beat
  try dsimp only
  repeat' (first
    | with_reducible refine Keeps.ite (fun _ => ?_) (fun _ => ?_)
    | with_reducible assumption
    | with_reducible apply State.notePorts_keeps
    | with_reducible apply State.record_keeps
    | with_reducible apply State.setPort_keeps
    | fail_if_no_progress with_reducible refine Keeps.other ?_ rfl rfl rfl rfl rfl rfl rfl rfl rfl rfl rfl rfl rfl rfl rfl rfl rfl rfl rfl rfl rfl rfl rfl rfl rfl rfl rfl rfl rfl rfl rfl rfl
    | with_reducible refine Keeps.foldl ?_ ?_
    | with_reducible refine Keeps.foldl1 ?_ ?_
    | with_reducible refine Keeps.getD (fun _ _ => ?_) ?_
    | intro _
    | dsimp only
    | split)

theorem State.permuteWritten_keeps {μ} [Has μ .mem] [Has μ .codeErr] [Has μ .cores] [Has μ .net] [Has μ .jobs] [Has μ .fabric] [Has μ .host] [Has μ .regs] [Has μ .obs] {o s site g server j m n} (h : Keeps μ o s) :
    Keeps μ o (State.permuteWritten s site g server j m n) := by
  unfold State.permuteWritten
  try dsimp only
  repeat' (first
    | with_reducible refine Keeps.ite (fun _ => ?_) (fun _ => ?_)
    | with_reducible assumption
    | with_reducible apply State.replyTo_keeps
    | with_reducible apply State.modJob_keeps
    | with_reducible apply State.reshardProgress_keeps
    | fail_if_no_progress with_reducible refine Keeps.other ?_ rfl rfl rfl rfl rfl rfl rfl rfl rfl rfl rfl rfl rfl rfl rfl rfl rfl rfl rfl rfl rfl rfl rfl rfl rfl rfl rfl rfl rfl rfl rfl rfl
    | with_reducible refine Keeps.foldl ?_ ?_
    | with_reducible refine Keeps.foldl1 ?_ ?_
    | with_reducible refine Keeps.getD (fun _ _ => ?_) ?_
    | intro _
    | dsimp only
    | split)

theorem State.partnerLand_keeps {μ} [Has μ .recov] {o s j base m n} (h : Keeps μ o s) :
    Keeps μ o (State.partnerLand s j base m n) := by
  unfold State.partnerLand
  try dsimp only
  repeat' (first
    | with_reducible refine Keeps.ite (fun _ => ?_) (fun _ => ?_)
    | with_reducible assumption
    | fail_if_no_progress with_reducible refine Keeps.other ?_ rfl rfl rfl rfl rfl rfl rfl rfl rfl rfl rfl rfl rfl rfl rfl rfl rfl rfl rfl rfl rfl rfl rfl rfl rfl rfl rfl rfl rfl rfl rfl rfl
    | with_reducible refine Keeps.foldl ?_ ?_
    | with_reducible refine Keeps.foldl1 ?_ ?_
    | with_reducible refine Keeps.getD (fun _ _ => ?_) ?_
    | intro _
    | dsimp only
    | split)

theorem State.noteFields_keeps {μ} [Has μ .fabric] [Has μ .regs] [Has μ .obs] {o s q} (h : Keeps μ o s) :
    Keeps μ o (State.noteFields s q) := by
  unfold State.noteFields
  try dsimp only
  repeat' (first
    | with_reducible refine Keeps.ite (fun _ => ?_) (fun _ => ?_)
    | with_reducible assumption
    | with_reducible apply State.setConn_keeps
    | with_reducible apply State.pumpConn_keeps
    | fail_if_no_progress with_reducible refine Keeps.other ?_ rfl rfl rfl rfl rfl rfl rfl rfl rfl rfl rfl rfl rfl rfl rfl rfl rfl rfl rfl rfl rfl rfl rfl rfl rfl rfl rfl rfl rfl rfl rfl rfl
    | with_reducible refine Keeps.foldl ?_ ?_
    | with_reducible refine Keeps.foldl1 ?_ ?_
    | with_reducible refine Keeps.getD (fun _ _ => ?_) ?_
    | intro _
    | dsimp only
    | split)

theorem State.resend_keeps {μ} [Has μ .fabric] [Has μ .regs] [Has μ .obs] {o s site g server seq} (h : Keeps μ o s) :
    Keeps μ o (State.resend s site g server seq) := by
  unfold State.resend
  try dsimp only
  repeat' (first
    | with_reducible refine Keeps.ite (fun _ => ?_) (fun _ => ?_)
    | with_reducible assumption
    | with_reducible apply State.setConn_keeps
    | with_reducible apply State.sendFrame_keeps
    | with_reducible apply State.bumpPort_keeps
    | with_reducible apply State.record_keeps
    | fail_if_no_progress with_reducible refine Keeps.other ?_ rfl rfl rfl rfl rfl rfl rfl rfl rfl rfl rfl rfl rfl rfl rfl rfl rfl rfl rfl rfl rfl rfl rfl rfl rfl rfl rfl rfl rfl rfl rfl rfl
    | with_reducible refine Keeps.foldl ?_ ?_
    | with_reducible refine Keeps.foldl1 ?_ ?_
    | with_reducible refine Keeps.getD (fun _ _ => ?_) ?_
    | intro _
    | dsimp only
    | split)

theorem State.receive_keeps {μ} [Has μ .mem] [Has μ .codeErr] [Has μ .cores] [Has μ .net] [Has μ .jobs] [Has μ .fabric] [Has μ .host] [Has μ .regs] [Has μ .integ] [Has μ .recov] [Has μ .obs] {o s p bs} (h : Keeps μ o s) :
    Keeps μ o (State.receive s p bs) := by
  unfold State.receive
  try dsimp only
  repeat' (first
    | with_reducible refine Keeps.ite (fun _ => ?_) (fun _ => ?_)
    | with_reducible assumption
    | with_reducible apply State.bumpPort_keeps
    | with_reducible apply State.setPort_keeps
    | with_reducible apply State.health_keeps
    | with_reducible apply State.discard_keeps
    | with_reducible apply State.beat_keeps
    | with_reducible apply State.noteFields_keeps
    | with_reducible apply State.resend_keeps
    | with_reducible apply State.acceptSeq_keeps
    | fail_if_no_progress with_reducible refine Keeps.other ?_ rfl rfl rfl rfl rfl rfl rfl rfl rfl rfl rfl rfl rfl rfl rfl rfl rfl rfl rfl rfl rfl rfl rfl rfl rfl rfl rfl rfl rfl rfl rfl rfl
    | with_reducible refine Keeps.foldl ?_ ?_
    | with_reducible refine Keeps.foldl1 ?_ ?_
    | with_reducible refine Keeps.getD (fun _ _ => ?_) ?_
    | intro _
    | dsimp only
    | split)

theorem State.receiveTyped_keeps {μ} [Has μ .mem] [Has μ .codeErr] [Has μ .cores] [Has μ .net] [Has μ .jobs] [Has μ .fabric] [Has μ .host] [Has μ .regs] [Has μ .integ] [Has μ .recov] [Has μ .obs] {o s typ p bs} (h : Keeps μ o s) :
    Keeps μ o (State.receiveTyped s typ p bs) := by
  unfold State.receiveTyped
  try dsimp only
  repeat' (first
    | with_reducible refine Keeps.ite (fun _ => ?_) (fun _ => ?_)
    | with_reducible assumption
    | with_reducible apply State.receive_keeps
    | fail_if_no_progress with_reducible refine Keeps.other ?_ rfl rfl rfl rfl rfl rfl rfl rfl rfl rfl rfl rfl rfl rfl rfl rfl rfl rfl rfl rfl rfl rfl rfl rfl rfl rfl rfl rfl rfl rfl rfl rfl
    | with_reducible refine Keeps.foldl ?_ ?_
    | with_reducible refine Keeps.foldl1 ?_ ?_
    | with_reducible refine Keeps.getD (fun _ _ => ?_) ?_
    | intro _
    | dsimp only
    | split)

end Sys2Proof.Machine
end

