-- ==== Sys2Proof/Laws/KeepsFabricSite.lean ====
section
/-! SUPPORT. Every operation of Machine/FabricSite.lean keeps the build, the queue and the form of memory. -/

set_option Elab.async false

set_option linter.unreachableTactic false
set_option linter.unusedTactic false

namespace Sys2Proof.Machine

theorem State.traceSite_keeps {μ} [Has μ .obs] {o s site opc st addr} (h : Keeps μ o s) :
    Keeps μ o (State.traceSite s site opc st addr) := by
  unfold State.traceSite
  try dsimp only
  repeat' (first
    | with_reducible refine Keeps.ite (fun _ => ?_) (fun _ => ?_)
    | with_reducible assumption
    | with_reducible apply State.trace_keeps
    | fail_if_no_progress with_reducible refine Keeps.other ?_ rfl rfl rfl rfl rfl rfl rfl rfl rfl rfl rfl rfl rfl rfl rfl rfl rfl rfl rfl rfl rfl rfl rfl rfl rfl rfl rfl rfl rfl rfl rfl rfl
    | with_reducible refine Keeps.foldl ?_ ?_
    | with_reducible refine Keeps.foldl1 ?_ ?_
    | with_reducible refine Keeps.getD (fun _ _ => ?_) ?_
    | intro _
    | dsimp only
    | split)

theorem State.answer_keeps {μ} [Has μ .cores] [Has μ .net] [Has μ .obs] {o s site core st ctx len id addr version opc} (h : Keeps μ o s) :
    Keeps μ o (State.answer s site core st ctx len id addr version opc) := by
  unfold State.answer
  try dsimp only
  repeat' (first
    | with_reducible refine Keeps.ite (fun _ => ?_) (fun _ => ?_)
    | with_reducible assumption
    | with_reducible apply State.traceSite_keeps
    | with_reducible apply State.sendFromSite_keeps
    | fail_if_no_progress with_reducible refine Keeps.other ?_ rfl rfl rfl rfl rfl rfl rfl rfl rfl rfl rfl rfl rfl rfl rfl rfl rfl rfl rfl rfl rfl rfl rfl rfl rfl rfl rfl rfl rfl rfl rfl rfl
    | with_reducible refine Keeps.foldl ?_ ?_
    | with_reducible refine Keeps.foldl1 ?_ ?_
    | with_reducible refine Keeps.getD (fun _ _ => ?_) ?_
    | intro _
    | dsimp only
    | split)

theorem State.confirmBucket_keeps {μ} [Has μ .jobs] [Has μ .fabric] [Has μ .host] [Has μ .regs] [Has μ .obs] {o s j r b} (h : Keeps μ o s) :
    Keeps μ o (State.confirmBucket s j r b) := by
  unfold State.confirmBucket
  try dsimp only
  repeat' (first
    | with_reducible refine Keeps.ite (fun _ => ?_) (fun _ => ?_)
    | with_reducible assumption
    | with_reducible apply State.setStep_keeps
    | with_reducible apply State.sendMsg_keeps
    | fail_if_no_progress with_reducible refine Keeps.other ?_ rfl rfl rfl rfl rfl rfl rfl rfl rfl rfl rfl rfl rfl rfl rfl rfl rfl rfl rfl rfl rfl rfl rfl rfl rfl rfl rfl rfl rfl rfl rfl rfl
    | with_reducible refine Keeps.foldl ?_ ?_
    | with_reducible refine Keeps.foldl1 ?_ ?_
    | with_reducible refine Keeps.getD (fun _ _ => ?_) ?_
    | intro _
    | dsimp only
    | split)

theorem State.siteSat_keeps {μ} [Has μ .jobs] [Has μ .host] [Has μ .regs] [Has μ .obs] {o s j site n} (h : Keeps μ o s) :
    Keeps μ o (State.siteSat s j site n) := by
  unfold State.siteSat
  try dsimp only
  repeat' (first
    | with_reducible refine Keeps.ite (fun _ => ?_) (fun _ => ?_)
    | with_reducible assumption
    | with_reducible apply State.keepSat_keeps
    | with_reducible apply State.bumpSite_keeps
    | fail_if_no_progress with_reducible refine Keeps.other ?_ rfl rfl rfl rfl rfl rfl rfl rfl rfl rfl rfl rfl rfl rfl rfl rfl rfl rfl rfl rfl rfl rfl rfl rfl rfl rfl rfl rfl rfl rfl rfl rfl
    | with_reducible refine Keeps.foldl ?_ ?_
    | with_reducible refine Keeps.foldl1 ?_ ?_
    | with_reducible refine Keeps.getD (fun _ _ => ?_) ?_
    | intro _
    | dsimp only
    | split)

theorem State.freeSlot_keeps {μ} [Has μ .cores] [Has μ .net] [Has μ .fabric] [Has μ .obs] {o s site core g scred} (h : Keeps μ o s) :
    Keeps μ o (State.freeSlot s site core g scred) := by
  unfold State.freeSlot
  try dsimp only
  repeat' (first
    | with_reducible refine Keeps.ite (fun _ => ?_) (fun _ => ?_)
    | with_reducible assumption
    | with_reducible apply State.sendFromSite_keeps
    | with_reducible apply State.setIoSite_keeps
    | fail_if_no_progress with_reducible refine Keeps.other ?_ rfl rfl rfl rfl rfl rfl rfl rfl rfl rfl rfl rfl rfl rfl rfl rfl rfl rfl rfl rfl rfl rfl rfl rfl rfl rfl rfl rfl rfl rfl rfl rfl
    | with_reducible refine Keeps.foldl ?_ ?_
    | with_reducible refine Keeps.foldl1 ?_ ?_
    | with_reducible refine Keeps.getD (fun _ _ => ?_) ?_
    | intro _
    | dsimp only
    | split)

theorem State.strictGranule_keeps_eq {μ} [Has μ .cores] [Has μ .net] [Has μ .jobs] [Has μ .fabric] [Has μ .host] [Has μ .regs] [Has μ .obs] {u} {o s site y o3 size scred n} (e : State.strictGranule s site y o3 size scred n = some u) (h : Keeps μ o s) : Keeps μ o u := by
  unfold State.strictGranule at e
  try dsimp only at e
  repeat' (split at e)
  all_goals first
    | (cases e; done)
    | (injection e with e
       subst e
       repeat' (first
         | with_reducible refine Keeps.ite (fun _ => ?_) (fun _ => ?_)
         | with_reducible assumption
         | with_reducible apply State.siteSat_keeps
         | with_reducible apply State.setIoSite_keeps
         | with_reducible apply State.freeSlot_keeps
         | fail_if_no_progress with_reducible refine Keeps.other ?_ rfl rfl rfl rfl rfl rfl rfl rfl rfl rfl rfl rfl rfl rfl rfl rfl rfl rfl rfl rfl rfl rfl rfl rfl rfl rfl rfl rfl rfl rfl rfl rfl
         | with_reducible refine Keeps.foldl ?_ ?_
         | with_reducible refine Keeps.foldl1 ?_ ?_
         | with_reducible refine Keeps.getD (fun _ _ => ?_) ?_
         | intro _
         | dsimp only
         | split))

theorem State.standardGranule_keeps {μ} [Has μ .cores] [Has μ .net] [Has μ .fabric] [Has μ .obs] {o s site y o3 size scred} (h : Keeps μ o s) :
    Keeps μ o (State.standardGranule s site y o3 size scred) := by
  unfold State.standardGranule
  try dsimp only
  repeat' (first
    | with_reducible refine Keeps.ite (fun _ => ?_) (fun _ => ?_)
    | with_reducible assumption
    | with_reducible apply State.freeSlot_keeps
    | with_reducible apply State.setIoSite_keeps
    | fail_if_no_progress with_reducible refine Keeps.other ?_ rfl rfl rfl rfl rfl rfl rfl rfl rfl rfl rfl rfl rfl rfl rfl rfl rfl rfl rfl rfl rfl rfl rfl rfl rfl rfl rfl rfl rfl rfl rfl rfl
    | with_reducible refine Keeps.foldl ?_ ?_
    | with_reducible refine Keeps.foldl1 ?_ ?_
    | with_reducible refine Keeps.getD (fun _ _ => ?_) ?_
    | intro _
    | dsimp only
    | split)

theorem State.useGranule_keeps_eq {μ} [Has μ .cores] [Has μ .net] [Has μ .jobs] [Has μ .fabric] [Has μ .host] [Has μ .regs] [Has μ .obs] {u o s site y} (e : State.useGranule s site y = some u) (h : Keeps μ o s) : Keeps μ o u := by
  unfold State.useGranule at e
  split at e
  · cases e
  · split at e
    · dsimp only at e
      split at e
      · exact State.strictGranule_keeps_eq e h
      · injection e with e
        subst e
        exact State.standardGranule_keeps h
    · cases e

theorem State.useLanded_keeps {μ} [Has μ .cores] [Has μ .net] [Has μ .jobs] [Has μ .fabric] [Has μ .host] [Has μ .regs] [Has μ .obs] {o s site kept l} (h : Keeps μ o s) : Keeps μ o (State.useLanded s site kept l) := by
  induction l generalizing s kept with
  | nil => exact State.modIoSite_keeps h
  | cons y r ih =>
    unfold State.useLanded
    refine Keeps.ite (fun _ => ih h) (fun _ => ?_)
    split
    · exact ih (State.useGranule_keeps_eq ‹_› h)
    · exact ih h

theorem State.drainLanding_keeps {μ} [Has μ .cores] [Has μ .net] [Has μ .jobs] [Has μ .fabric] [Has μ .host] [Has μ .regs] [Has μ .obs] {o s site n} (h : Keeps μ o s) : Keeps μ o (State.drainLanding s site n) := by
  induction n generalizing s with
  | zero => exact h
  | succ n ih =>
    unfold State.drainLanding
    try dsimp only
    repeat' (first
      | with_reducible refine Keeps.ite (fun _ => ?_) (fun _ => ?_)
      | with_reducible assumption
      | with_reducible apply ih
      | with_reducible apply State.useLanded_keeps
      | fail_if_no_progress with_reducible refine Keeps.other ?_ rfl rfl rfl rfl rfl rfl rfl rfl rfl rfl rfl rfl rfl rfl rfl rfl rfl rfl rfl rfl rfl rfl rfl rfl rfl rfl rfl rfl rfl rfl rfl rfl
      | with_reducible refine Keeps.getD (fun _ _ => ?_) ?_
      | intro _
      | dsimp only
      | split)

theorem State.fencedGranule_keeps {μ} [Has μ .cores] [Has μ .net] [Has μ .fabric] [Has μ .obs] {o s site f g} (h : Keeps μ o s) :
    Keeps μ o (State.fencedGranule s site f g) := by
  unfold State.fencedGranule
  try dsimp only
  repeat' (first
    | with_reducible refine Keeps.ite (fun _ => ?_) (fun _ => ?_)
    | with_reducible assumption
    | with_reducible apply State.freeSlot_keeps
    | fail_if_no_progress with_reducible refine Keeps.other ?_ rfl rfl rfl rfl rfl rfl rfl rfl rfl rfl rfl rfl rfl rfl rfl rfl rfl rfl rfl rfl rfl rfl rfl rfl rfl rfl rfl rfl rfl rfl rfl rfl
    | with_reducible refine Keeps.foldl ?_ ?_
    | with_reducible refine Keeps.foldl1 ?_ ?_
    | with_reducible refine Keeps.getD (fun _ _ => ?_) ?_
    | intro _
    | dsimp only
    | split)

theorem State.refusePublish_keeps {μ} [Has μ .cores] [Has μ .net] [Has μ .regs] [Has μ .obs] {o s site core j n bucket doff rsem st} (h : Keeps μ o s) :
    Keeps μ o (State.refusePublish s site core j n bucket doff rsem st) := by
  unfold State.refusePublish
  try dsimp only
  repeat' (first
    | with_reducible refine Keeps.ite (fun _ => ?_) (fun _ => ?_)
    | with_reducible assumption
    | with_reducible apply State.traceSite_keeps
    | with_reducible apply State.deliver_keeps
    | with_reducible apply State.record_keeps
    | fail_if_no_progress with_reducible refine Keeps.other ?_ rfl rfl rfl rfl rfl rfl rfl rfl rfl rfl rfl rfl rfl rfl rfl rfl rfl rfl rfl rfl rfl rfl rfl rfl rfl rfl rfl rfl rfl rfl rfl rfl
    | with_reducible refine Keeps.foldl ?_ ?_
    | with_reducible refine Keeps.foldl1 ?_ ?_
    | with_reducible refine Keeps.getD (fun _ _ => ?_) ?_
    | intro _
    | dsimp only
    | split)

theorem State.sendShards_keeps {μ} [Has μ .fabric] [Has μ .regs] [Has μ .obs] {o s site g bucket m bs off n} (h : Keeps μ o s) :
    Keeps μ o (State.sendShards s site g bucket m bs off n) := by
  induction n generalizing s bs off with
  | zero => exact h
  | succ n ih =>
    unfold State.sendShards
    try dsimp only
    repeat' (first
      | with_reducible refine Keeps.ite (fun _ => ?_) (fun _ => ?_)
      | with_reducible assumption
      | with_reducible apply ih
      | with_reducible apply State.sendMsg_keeps
      | fail_if_no_progress with_reducible refine Keeps.other ?_ rfl rfl rfl rfl rfl rfl rfl rfl rfl rfl rfl rfl rfl rfl rfl rfl rfl rfl rfl rfl rfl rfl rfl rfl rfl rfl rfl rfl rfl rfl rfl rfl
      | with_reducible refine Keeps.getD (fun _ _ => ?_) ?_
      | intro _
      | dsimp only
      | split)

theorem State.publishRead_keeps {μ} [Has μ .cores] [Has μ .net] [Has μ .fabric] [Has μ .regs] [Has μ .obs] {o s site q data bad} (h : Keeps μ o s) :
    Keeps μ o (State.publishRead s site q data bad) := by
  unfold State.publishRead
  try dsimp only
  repeat' (first
    | with_reducible refine Keeps.ite (fun _ => ?_) (fun _ => ?_)
    | with_reducible assumption
    | with_reducible apply State.refusePublish_keeps
    | with_reducible apply State.sendShards_keeps
    | with_reducible apply State.modIoSite_keeps
    | fail_if_no_progress with_reducible refine Keeps.other ?_ rfl rfl rfl rfl rfl rfl rfl rfl rfl rfl rfl rfl rfl rfl rfl rfl rfl rfl rfl rfl rfl rfl rfl rfl rfl rfl rfl rfl rfl rfl rfl rfl
    | with_reducible refine Keeps.foldl ?_ ?_
    | with_reducible refine Keeps.foldl1 ?_ ?_
    | with_reducible refine Keeps.getD (fun _ _ => ?_) ?_
    | intro _
    | dsimp only
    | split)

theorem State.markUnsafe_keeps {μ} [Has μ .cores] {o s core ctx} (h : Keeps μ o s) :
    Keeps μ o (State.markUnsafe s core ctx) := by
  unfold State.markUnsafe
  try dsimp only
  repeat' (first
    | with_reducible refine Keeps.ite (fun _ => ?_) (fun _ => ?_)
    | with_reducible assumption
    | with_reducible apply State.modCtx_keeps
    | fail_if_no_progress with_reducible refine Keeps.other ?_ rfl rfl rfl rfl rfl rfl rfl rfl rfl rfl rfl rfl rfl rfl rfl rfl rfl rfl rfl rfl rfl rfl rfl rfl rfl rfl rfl rfl rfl rfl rfl rfl
    | with_reducible refine Keeps.foldl ?_ ?_
    | with_reducible refine Keeps.foldl1 ?_ ?_
    | with_reducible refine Keeps.getD (fun _ _ => ?_) ?_
    | intro _
    | dsimp only
    | split)

theorem State.sendChunk_keeps {μ} [Has μ .mem] [Has μ .cores] [Has μ .jobs] [Has μ .fabric] [Has μ .host] [Has μ .regs] [Has μ .clk] [Has μ .integ] [Has μ .obs] {o s site c} (h : Keeps μ o s) :
    Keeps μ o (State.sendChunk s site c) := by
  unfold State.sendChunk
  try dsimp only
  repeat' (first
    | with_reducible refine Keeps.ite (fun _ => ?_) (fun _ => ?_)
    | with_reducible assumption
    | with_reducible apply State.lost_keeps
    | with_reducible apply State.cper_keeps
    | with_reducible apply State.sendMsg_keeps
    | with_reducible apply State.setStep_keeps
    | with_reducible apply State.record_keeps
    | fail_if_no_progress with_reducible refine Keeps.other ?_ rfl rfl rfl rfl rfl rfl rfl rfl rfl rfl rfl rfl rfl rfl rfl rfl rfl rfl rfl rfl rfl rfl rfl rfl rfl rfl rfl rfl rfl rfl rfl rfl
    | with_reducible refine Keeps.foldl ?_ ?_
    | with_reducible refine Keeps.foldl1 ?_ ?_
    | with_reducible refine Keeps.getD (fun _ _ => ?_) ?_
    | intro _
    | dsimp only
    | split)

theorem State.serveGather_keeps {μ} [Has μ .cores] [Has μ .net] [Has μ .fabric] [Has μ .regs] [Has μ .obs] {o s r} (h : Keeps μ o s) :
    Keeps μ o (State.serveGather s r) := by
  unfold State.serveGather
  try dsimp only
  repeat' (first
    | with_reducible refine Keeps.ite (fun _ => ?_) (fun _ => ?_)
    | with_reducible assumption
    | with_reducible apply State.answer_keeps
    | with_reducible apply State.setIoSite_keeps
    | with_reducible apply State.sendMsg_keeps
    | fail_if_no_progress with_reducible refine Keeps.other ?_ rfl rfl rfl rfl rfl rfl rfl rfl rfl rfl rfl rfl rfl rfl rfl rfl rfl rfl rfl rfl rfl rfl rfl rfl rfl rfl rfl rfl rfl rfl rfl rfl
    | with_reducible refine Keeps.foldl ?_ ?_
    | with_reducible refine Keeps.foldl1 ?_ ?_
    | with_reducible refine Keeps.getD (fun _ _ => ?_) ?_
    | intro _
    | dsimp only
    | split)

theorem State.serveOpen_keeps {μ} [Has μ .cores] [Has μ .net] [Has μ .fabric] [Has μ .obs] {o s r} (h : Keeps μ o s) :
    Keeps μ o (State.serveOpen s r) := by
  unfold State.serveOpen
  try dsimp only
  repeat' (first
    | with_reducible refine Keeps.ite (fun _ => ?_) (fun _ => ?_)
    | with_reducible assumption
    | with_reducible apply State.answer_keeps
    | with_reducible apply State.modIoSite_keeps
    | fail_if_no_progress with_reducible refine Keeps.other ?_ rfl rfl rfl rfl rfl rfl rfl rfl rfl rfl rfl rfl rfl rfl rfl rfl rfl rfl rfl rfl rfl rfl rfl rfl rfl rfl rfl rfl rfl rfl rfl rfl
    | with_reducible refine Keeps.foldl ?_ ?_
    | with_reducible refine Keeps.foldl1 ?_ ?_
    | with_reducible refine Keeps.getD (fun _ _ => ?_) ?_
    | intro _
    | dsimp only
    | split)

theorem State.servePublish_keeps {μ} [Has μ .cores] [Has μ .net] [Has μ .jobs] [Has μ .fabric] [Has μ .host] [Has μ .regs] [Has μ .obs] {o s r} (h : Keeps μ o s) :
    Keeps μ o (State.servePublish s r) := by
  unfold State.servePublish
  try dsimp only
  repeat' (first
    | with_reducible refine Keeps.ite (fun _ => ?_) (fun _ => ?_)
    | with_reducible assumption
    | with_reducible apply State.markUnsafe_keeps
    | with_reducible apply State.refusePublish_keeps
    | with_reducible apply State.publishDone_keeps
    | with_reducible apply State.ioRead_keeps
    | with_reducible refine State.ioRead_keeps_eq (by assumption) ?_
    | fail_if_no_progress with_reducible refine Keeps.other ?_ rfl rfl rfl rfl rfl rfl rfl rfl rfl rfl rfl rfl rfl rfl rfl rfl rfl rfl rfl rfl rfl rfl rfl rfl rfl rfl rfl rfl rfl rfl rfl rfl
    | with_reducible refine Keeps.foldl ?_ ?_
    | with_reducible refine Keeps.foldl1 ?_ ?_
    | with_reducible refine Keeps.getD (fun _ _ => ?_) ?_
    | intro _
    | dsimp only
    | split)

theorem State.workLanding_keeps {μ} [Has μ .cores] [Has μ .net] [Has μ .jobs] [Has μ .fabric] [Has μ .host] [Has μ .regs] [Has μ .obs] {o s site} (h : Keeps μ o s) :
    Keeps μ o (State.workLanding s site) := by
  unfold State.workLanding
  try dsimp only
  repeat' (first
    | with_reducible refine Keeps.ite (fun _ => ?_) (fun _ => ?_)
    | with_reducible assumption
    | with_reducible apply State.drainLanding_keeps
    | fail_if_no_progress with_reducible refine Keeps.other ?_ rfl rfl rfl rfl rfl rfl rfl rfl rfl rfl rfl rfl rfl rfl rfl rfl rfl rfl rfl rfl rfl rfl rfl rfl rfl rfl rfl rfl rfl rfl rfl rfl
    | with_reducible refine Keeps.foldl ?_ ?_
    | with_reducible refine Keeps.foldl1 ?_ ?_
    | with_reducible refine Keeps.getD (fun _ _ => ?_) ?_
    | intro _
    | dsimp only
    | split)

theorem State.siteGranule_keeps {μ} [Has μ .cores] [Has μ .net] [Has μ .jobs] [Has μ .fabric] [Has μ .host] [Has μ .regs] [Has μ .obs] {o s site f strict} (h : Keeps μ o s) :
    Keeps μ o (State.siteGranule s site f strict) := by
  unfold State.siteGranule
  try dsimp only
  repeat' (first
    | with_reducible refine Keeps.ite (fun _ => ?_) (fun _ => ?_)
    | with_reducible assumption
    | with_reducible apply State.unexpected_keeps
    | with_reducible apply State.fencedGranule_keeps
    | with_reducible apply State.workLanding_keeps
    | with_reducible apply State.modIoSite_keeps
    | fail_if_no_progress with_reducible refine Keeps.other ?_ rfl rfl rfl rfl rfl rfl rfl rfl rfl rfl rfl rfl rfl rfl rfl rfl rfl rfl rfl rfl rfl rfl rfl rfl rfl rfl rfl rfl rfl rfl rfl rfl
    | with_reducible refine Keeps.foldl ?_ ?_
    | with_reducible refine Keeps.foldl1 ?_ ?_
    | with_reducible refine Keeps.getD (fun _ _ => ?_) ?_
    | intro _
    | dsimp only
    | split)

end Sys2Proof.Machine
end

