-- ==== Sys2Proof/Laws/KeepsRegisters.lean ====
section
/-! SUPPORT. Every operation of Machine/Registers.lean keeps the build, the queue and the form of memory. -/

set_option Elab.async false

set_option linter.unreachableTactic false
set_option linter.unusedTactic false

namespace Sys2Proof.Machine

theorem State.mboxReply_keeps {μ} [Has μ .regs] {o s bs} (h : Keeps μ o s) :
    Keeps μ o (State.mboxReply s bs) := by
  unfold State.mboxReply
  try dsimp only
  repeat' (first
    | with_reducible refine Keeps.ite (fun _ => ?_) (fun _ => ?_)
    | with_reducible assumption
    | with_reducible apply State.raiseFlag_keeps
    | fail_if_no_progress with_reducible refine Keeps.other ?_ rfl rfl rfl rfl rfl rfl rfl rfl rfl rfl rfl rfl rfl rfl rfl rfl rfl rfl rfl rfl rfl rfl rfl rfl rfl rfl rfl rfl rfl rfl rfl rfl
    | with_reducible refine Keeps.foldl ?_ ?_
    | with_reducible refine Keeps.foldl1 ?_ ?_
    | with_reducible refine Keeps.getD (fun _ _ => ?_) ?_
    | intro _
    | dsimp only
    | split)

theorem State.clearFlag_keeps {μ} [Has μ .regs] {o s n} (h : Keeps μ o s) : Keeps μ o (State.clearFlag s n) := by
  unfold State.clearFlag
  refine Keeps.upd h rfl rfl rfl rfl (fun q => { q with counts := ?_ }) id
  refine counts_set q.counts ?_
  split <;> decide

theorem State.macDown_keeps {μ} [Has μ .fabric] [Has μ .regs] [Has μ .obs] {o s} (h : Keeps μ o s) :
    Keeps μ o (State.macDown s) := by
  unfold State.macDown
  try dsimp only
  repeat' (first
    | with_reducible refine Keeps.ite (fun _ => ?_) (fun _ => ?_)
    | with_reducible assumption
    | with_reducible apply State.setPort_keeps
    | with_reducible apply State.downPort_keeps
    | fail_if_no_progress with_reducible refine Keeps.other ?_ rfl rfl rfl rfl rfl rfl rfl rfl rfl rfl rfl rfl rfl rfl rfl rfl rfl rfl rfl rfl rfl rfl rfl rfl rfl rfl rfl rfl rfl rfl rfl rfl
    | with_reducible refine Keeps.foldl ?_ ?_
    | with_reducible refine Keeps.foldl1 ?_ ?_
    | with_reducible refine Keeps.getD (fun _ _ => ?_) ?_
    | intro _
    | dsimp only
    | split)

theorem State.noteRange_keeps {μ} [Has μ .regs] [Has μ .obs] {o s ok off value} (h : Keeps μ o s) :
    Keeps μ o (State.noteRange s ok off value) := by
  unfold State.noteRange
  try dsimp only
  repeat' (first
    | with_reducible refine Keeps.ite (fun _ => ?_) (fun _ => ?_)
    | with_reducible assumption
    | with_reducible apply State.rejectReg_keeps
    | fail_if_no_progress with_reducible refine Keeps.other ?_ rfl rfl rfl rfl rfl rfl rfl rfl rfl rfl rfl rfl rfl rfl rfl rfl rfl rfl rfl rfl rfl rfl rfl rfl rfl rfl rfl rfl rfl rfl rfl rfl
    | with_reducible refine Keeps.foldl ?_ ?_
    | with_reducible refine Keeps.foldl1 ?_ ?_
    | with_reducible refine Keeps.getD (fun _ _ => ?_) ?_
    | intro _
    | dsimp only
    | split)

theorem State.postRequest_keeps {μ} [Has μ .regs] {o s} (h : Keeps μ o s) :
    Keeps μ o (State.postRequest s) := by
  unfold State.postRequest
  try dsimp only
  repeat' (first
    | with_reducible refine Keeps.ite (fun _ => ?_) (fun _ => ?_)
    | with_reducible assumption
    | with_reducible apply State.raiseFlag_keeps
    | with_reducible apply State.mboxReply_keeps
    | fail_if_no_progress with_reducible refine Keeps.other ?_ rfl rfl rfl rfl rfl rfl rfl rfl rfl rfl rfl rfl rfl rfl rfl rfl rfl rfl rfl rfl rfl rfl rfl rfl rfl rfl rfl rfl rfl rfl rfl rfl
    | with_reducible refine Keeps.foldl ?_ ?_
    | with_reducible refine Keeps.foldl1 ?_ ?_
    | with_reducible refine Keeps.getD (fun _ _ => ?_) ?_
    | intro _
    | dsimp only
    | split)

theorem State.writeFlag_keeps {μ} [Has μ .regs] {o s off v} (h : Keeps μ o s) :
    Keeps μ o (State.writeFlag s off v) := by
  unfold State.writeFlag
  try dsimp only
  repeat' (first
    | with_reducible refine Keeps.ite (fun _ => ?_) (fun _ => ?_)
    | with_reducible assumption
    | with_reducible apply State.clearFlag_keeps
    | fail_if_no_progress with_reducible refine Keeps.other ?_ rfl rfl rfl rfl rfl rfl rfl rfl rfl rfl rfl rfl rfl rfl rfl rfl rfl rfl rfl rfl rfl rfl rfl rfl rfl rfl rfl rfl rfl rfl rfl rfl
    | with_reducible refine Keeps.foldl ?_ ?_
    | with_reducible refine Keeps.foldl1 ?_ ?_
    | with_reducible refine Keeps.getD (fun _ _ => ?_) ?_
    | intro _
    | dsimp only
    | split)

theorem State.writeMsix_keeps {μ} [Has μ .host] {o s i v} (h : Keeps μ o s) :
    Keeps μ o (State.writeMsix s i v) := by
  unfold State.writeMsix
  try dsimp only
  repeat' (first
    | with_reducible refine Keeps.ite (fun _ => ?_) (fun _ => ?_)
    | with_reducible assumption
    | with_reducible apply State.unmask_keeps
    | fail_if_no_progress with_reducible refine Keeps.other ?_ rfl rfl rfl rfl rfl rfl rfl rfl rfl rfl rfl rfl rfl rfl rfl rfl rfl rfl rfl rfl rfl rfl rfl rfl rfl rfl rfl rfl rfl rfl rfl rfl
    | with_reducible refine Keeps.foldl ?_ ?_
    | with_reducible refine Keeps.foldl1 ?_ ?_
    | with_reducible refine Keeps.getD (fun _ _ => ?_) ?_
    | intro _
    | dsimp only
    | split)

theorem State.writePcap_keeps {μ} [Has μ .regs] [Has μ .clk] [Has μ .obs] {o s v} (h : Keeps μ o s) : Keeps μ o (State.writePcap s v) := by
  unfold State.writePcap
  dsimp only
  refine Keeps.ite (fun _ => State.rejectReg_keeps h) (fun _ => Keeps.ite (fun _ => State.rejectReg_keeps h) (fun hw => ?_))
  refine State.setHalf_keeps (State.setHalf_keeps (Keeps.upd h rfl rfl rfl rfl (fun q => { q with pcap := ?_ }) id))
  simp only [Bool.or_eq_true, decide_eq_true_eq, not_or, Nat.not_lt] at hw
  exact hw

theorem pick_ok {p : Nat → Prop} {b : Bool} {x y : Nat} (hx : b = true → p x) (hy : p y) : p (pick b x y) := by
  unfold pick
  split
  · exact hx ‹_›
  · exact hy

theorem State.write32_keeps {μ} [Has μ .host] [Has μ .regs] [Has μ .clk] [Has μ .obs] {o s off v} (h : Keeps μ o s) : Keeps μ o (State.write32 s off v) := by
  unfold State.write32
  dsimp only
  refine Keeps.ite (fun _ => State.writeFlag_keeps h) (fun _ => Keeps.ite (fun _ => ?_) (fun _ => ?_))
  · refine Keeps.ite (fun _ => Keeps.ite (fun _ => State.postRequest_keeps h) (fun _ => h)) (fun _ => ?_)
    refine Keeps.ite (fun _ => h) (fun _ => Keeps.ite (fun _ => ?_) (fun _ => ?_))
    · exact Keeps.ite (fun _ => State.rejectReg_keeps h) (fun _ => Keeps.upd h rfl rfl rfl rfl (fun q => q.same) id)
    · exact Keeps.ite (fun _ => Keeps.upd h rfl rfl rfl rfl (fun q => q.same) id) (fun _ => h)
  · refine Keeps.ite (fun _ => State.writeMsix_keeps h) (fun _ => Keeps.ite (fun _ => State.writePcap_keeps h) (fun _ => ?_))
    refine Keeps.ite (fun _ => h) (fun _ => Keeps.ite (fun _ => State.rejectReg_keeps h) (fun _ => ?_))
    split
    · refine State.noteRange_keeps (Keeps.upd h rfl rfl rfl rfl (fun q => { q with
        opWest := pick_ok (p := (· ≤ 5)) (fun e => of_decide_eq_true e) q.opWest
        opEast := pick_ok (p := (· ≤ 5)) (fun e => of_decide_eq_true e) q.opEast }) id)
    · refine Keeps.ite (fun _ => State.rejectReg_keeps h) (fun ht => State.updateAlert_keeps
        (Keeps.upd h rfl rfl rfl rfl (fun q => { q with tthrottle := ?_ }) id))
      simp only [Bool.or_eq_true, decide_eq_true_eq, not_or, Nat.not_lt] at ht
      exact ht
    · refine Keeps.ite (fun _ => State.rejectReg_keeps h) (fun _ => Keeps.ite (fun _ => State.rejectReg_keeps h) (fun he => ?_))
      exact Keeps.upd h rfl rfl rfl rfl (fun q => { q with etherType := Nat.not_lt.mp he }) id
    · refine State.noteRange_keeps (Keeps.upd h rfl rfl rfl rfl (fun q => { q with
        timeout := pick_ok (p := fun x => 100 ≤ x ∧ x ≤ 65535) (fun e => ⟨of_decide_eq_true e, by omega⟩) q.timeout
        rate := pick_ok (p := (· ≤ 12)) (fun e => of_decide_eq_true e) q.rate }) id)
    · refine Keeps.ite (fun _ => State.rejectReg_keeps h) (fun ht =>
        (Keeps.upd h rfl rfl rfl rfl (fun q => { q with rto := ?_ }) id))
      simp only [Bool.or_eq_true, decide_eq_true_eq, not_or, Nat.not_lt] at ht
      exact ht
    · refine Keeps.ite (fun _ => State.rejectReg_keeps h) (fun ht =>
        (Keeps.upd h rfl rfl rfl rfl (fun q => { q with hbInt := ?_ }) id))
      simp only [Bool.or_eq_true, decide_eq_true_eq, not_or, Nat.not_lt] at ht
      exact ht

theorem State.writeBase_keeps {μ} [Has μ .regs] [Has μ .obs] {o s off v} (h : Keeps μ o s) :
    Keeps μ o (State.writeBase s off v) := by
  unfold State.writeBase
  try dsimp only
  repeat' (first
    | with_reducible refine Keeps.ite (fun _ => ?_) (fun _ => ?_)
    | with_reducible assumption
    | with_reducible apply State.rejectReg_keeps
    | fail_if_no_progress with_reducible refine Keeps.other ?_ rfl rfl rfl rfl rfl rfl rfl rfl rfl rfl rfl rfl rfl rfl rfl rfl rfl rfl rfl rfl rfl rfl rfl rfl rfl rfl rfl rfl rfl rfl rfl rfl
    | with_reducible refine Keeps.foldl ?_ ?_
    | with_reducible refine Keeps.foldl1 ?_ ?_
    | with_reducible refine Keeps.getD (fun _ _ => ?_) ?_
    | intro _
    | dsimp only
    | split)

theorem State.writeR0Cfg_keeps {μ} [Has μ .host] [Has μ .regs] [Has μ .obs] {o s v} (h : Keeps μ o s) : Keeps μ o (State.writeR0Cfg s v) := by
  unfold State.writeR0Cfg
  dsimp only
  refine Keeps.ite (fun _ => State.enableRing0_keeps (State.writeCfg_keeps h)) (fun _ => Keeps.ite (fun _ => ?_) (fun _ => ?_))
  · exact State.deleteRing_keeps (Keeps.upd (State.writeCfg_keeps h) rfl rfl rfl rfl (fun q => q.same) id)
  · exact State.writeCfg_keeps h

theorem State.writeMac_keeps {μ} [Has μ .fabric] [Has μ .regs] [Has μ .obs] {o s v} (h : Keeps μ o s) : Keeps μ o (State.writeMac s v) := by
  unfold State.writeMac
  dsimp only
  refine Keeps.ite (fun _ => State.rejectReg_keeps h) (fun _ => Keeps.ite (fun _ => State.rejectReg_keeps h) (fun _ => ?_))
  refine Keeps.ite (fun _ => State.rejectReg_keeps h) (fun hm => ?_)
  simp only [macOk, Bool.not_eq_true, Bool.not_eq_false', Bool.or_eq_true, decide_eq_true_eq] at hm
  have k : Keeps μ o { s with regs := { s.regs with macBase := v % 2 ^ 48 } } :=
    Keeps.upd h rfl rfl rfl rfl (fun q => { q with macBase := hm }) id
  exact Keeps.ite (fun _ => State.macDown_keeps k) (fun _ => k)

theorem State.write64_keeps {μ} [Has μ .fabric] [Has μ .host] [Has μ .regs] [Has μ .obs] {o s off v} (h : Keeps μ o s) : Keeps μ o (State.write64 s off v) := by
  unfold State.write64
  dsimp only
  split
  · exact State.writeBase_keeps h
  · exact State.writeBase_keeps h
  · exact State.writeR0Cfg_keeps h
  · exact State.writeMac_keeps h
  · refine Keeps.ite (fun _ => State.rejectReg_keeps h) (fun _ => ?_)
    split
    · refine State.noteRange_keeps (Keeps.upd h rfl rfl rfl rfl (fun q => { q with
        scales := ⟨pick_ok (p := (1 ≤ ·)) (fun e => of_decide_eq_true e) q.scales.1,
          pick_ok (p := (1 ≤ ·)) (fun e => of_decide_eq_true e) q.scales.2.1,
          pick_ok (p := (1 ≤ ·)) (fun e => of_decide_eq_true e) q.scales.2.2.1,
          pick_ok (p := (1 ≤ ·)) (fun e => of_decide_eq_true e) q.scales.2.2.2.1, q.scales.2.2.2.2⟩ }) id)
    · refine State.noteRange_keeps (Keeps.upd h rfl rfl rfl rfl (fun q => { q with
        scales := ⟨q.scales.1, q.scales.2.1, q.scales.2.2.1, q.scales.2.2.2.1,
          pick_ok (p := (1 ≤ ·)) (fun e => of_decide_eq_true e) q.scales.2.2.2.2⟩
        therm := pick_ok (p := fun x => 1 ≤ x ∧ x ≤ 63) (fun e => of_decide_eq_true e) q.therm }) id)
    · refine State.noteRange_keeps (Keeps.upd h rfl rfl rfl rfl (fun q => { q with
        snap3 := pick_ok (p := fun x => x = 0 ∨ (60 ≤ x ∧ x ≤ 86400)) (fun e => of_decide_eq_true e) q.snap3
        snap2 := pick_ok (p := fun x => x = 0 ∨ (60 ≤ x ∧ x ≤ 86400)) (fun e => of_decide_eq_true e) q.snap2 }) id)
    · exact h

theorem State.writeHalf_keeps {μ} [Has μ .fabric] [Has μ .host] [Has μ .regs] [Has μ .clk] [Has μ .obs] {o s off v} (h : Keeps μ o s) :
    Keeps μ o (State.writeHalf s off v) := by
  unfold State.writeHalf
  try dsimp only
  repeat' (first
    | with_reducible refine Keeps.ite (fun _ => ?_) (fun _ => ?_)
    | with_reducible assumption
    | with_reducible apply State.write32_keeps
    | with_reducible apply State.write64_keeps
    | fail_if_no_progress with_reducible refine Keeps.other ?_ rfl rfl rfl rfl rfl rfl rfl rfl rfl rfl rfl rfl rfl rfl rfl rfl rfl rfl rfl rfl rfl rfl rfl rfl rfl rfl rfl rfl rfl rfl rfl rfl
    | with_reducible refine Keeps.foldl ?_ ?_
    | with_reducible refine Keeps.foldl1 ?_ ?_
    | with_reducible refine Keeps.getD (fun _ _ => ?_) ?_
    | intro _
    | dsimp only
    | split)

theorem State.writeBar0_keeps {μ} [Has μ .fabric] [Has μ .host] [Has μ .regs] [Has μ .clk] [Has μ .obs] {o s off v width} (h : Keeps μ o s) :
    Keeps μ o (State.writeBar0 s off v width) := by
  unfold State.writeBar0
  try dsimp only
  repeat' (first
    | with_reducible refine Keeps.ite (fun _ => ?_) (fun _ => ?_)
    | with_reducible assumption
    | with_reducible apply State.rejectReg_keeps
    | with_reducible apply State.writeHalf_keeps
    | with_reducible apply State.write64_keeps
    | with_reducible apply State.write32_keeps
    | fail_if_no_progress with_reducible refine Keeps.other ?_ rfl rfl rfl rfl rfl rfl rfl rfl rfl rfl rfl rfl rfl rfl rfl rfl rfl rfl rfl rfl rfl rfl rfl rfl rfl rfl rfl rfl rfl rfl rfl rfl
    | with_reducible refine Keeps.foldl ?_ ?_
    | with_reducible refine Keeps.foldl1 ?_ ?_
    | with_reducible refine Keeps.getD (fun _ _ => ?_) ?_
    | intro _
    | dsimp only
    | split)

theorem execFlagClear_keeps {μ} [Has μ .regs] [Has μ .obs] {offset value width s} : ∃ t, execFlagClear offset value width s = .next t ∧ Keeps μ s t := by
  refine ⟨_, rfl, ?_⟩
  try dsimp only
  have h := Keeps.refl (μ := μ) s
  repeat' (first
    | with_reducible refine Keeps.ite (fun _ => ?_) (fun _ => ?_)
    | with_reducible assumption
    | with_reducible apply State.rejectReg_keeps
    | with_reducible apply State.writeFlag_keeps
    | fail_if_no_progress with_reducible refine Keeps.other ?_ rfl rfl rfl rfl rfl rfl rfl rfl rfl rfl rfl rfl rfl rfl rfl rfl rfl rfl rfl rfl rfl rfl rfl rfl rfl rfl rfl rfl rfl rfl rfl rfl
    | with_reducible refine Keeps.foldl ?_ ?_
    | with_reducible refine Keeps.foldl1 ?_ ?_
    | with_reducible refine Keeps.getD (fun _ _ => ?_) ?_
    | intro _
    | dsimp only
    | split)

theorem execMacbaseWrite_keeps {μ} [Has μ .fabric] [Has μ .regs] [Has μ .obs] {value s} : ∃ t, execMacbaseWrite value s = .next t ∧ Keeps μ s t := by
  refine ⟨_, rfl, ?_⟩
  try dsimp only
  have h := Keeps.refl (μ := μ) s
  repeat' (first
    | with_reducible refine Keeps.ite (fun _ => ?_) (fun _ => ?_)
    | with_reducible assumption
    | with_reducible apply State.writeMac_keeps
    | fail_if_no_progress with_reducible refine Keeps.other ?_ rfl rfl rfl rfl rfl rfl rfl rfl rfl rfl rfl rfl rfl rfl rfl rfl rfl rfl rfl rfl rfl rfl rfl rfl rfl rfl rfl rfl rfl rfl rfl rfl
    | with_reducible refine Keeps.foldl ?_ ?_
    | with_reducible refine Keeps.foldl1 ?_ ?_
    | with_reducible refine Keeps.getD (fun _ _ => ?_) ?_
    | intro _
    | dsimp only
    | split)

theorem execPcapWrite_keeps {μ} [Has μ .regs] [Has μ .clk] [Has μ .obs] {value s} : ∃ t, execPcapWrite value s = .next t ∧ Keeps μ s t := by
  refine ⟨_, rfl, ?_⟩
  try dsimp only
  have h := Keeps.refl (μ := μ) s
  repeat' (first
    | with_reducible refine Keeps.ite (fun _ => ?_) (fun _ => ?_)
    | with_reducible assumption
    | with_reducible apply State.writePcap_keeps
    | fail_if_no_progress with_reducible refine Keeps.other ?_ rfl rfl rfl rfl rfl rfl rfl rfl rfl rfl rfl rfl rfl rfl rfl rfl rfl rfl rfl rfl rfl rfl rfl rfl rfl rfl rfl rfl rfl rfl rfl rfl
    | with_reducible refine Keeps.foldl ?_ ?_
    | with_reducible refine Keeps.foldl1 ?_ ?_
    | with_reducible refine Keeps.getD (fun _ _ => ?_) ?_
    | intro _
    | dsimp only
    | split)

theorem execRegisterWrite_keeps {μ} [Has μ .fabric] [Has μ .host] [Has μ .regs] [Has μ .clk] [Has μ .obs] {offset value width s} : ∃ t, execRegisterWrite offset value width s = .next t ∧ Keeps μ s t := by
  refine ⟨_, rfl, ?_⟩
  try dsimp only
  have h := Keeps.refl (μ := μ) s
  repeat' (first
    | with_reducible refine Keeps.ite (fun _ => ?_) (fun _ => ?_)
    | with_reducible assumption
    | with_reducible apply State.writeBar0_keeps
    | fail_if_no_progress with_reducible refine Keeps.other ?_ rfl rfl rfl rfl rfl rfl rfl rfl rfl rfl rfl rfl rfl rfl rfl rfl rfl rfl rfl rfl rfl rfl rfl rfl rfl rfl rfl rfl rfl rfl rfl rfl
    | with_reducible refine Keeps.foldl ?_ ?_
    | with_reducible refine Keeps.foldl1 ?_ ?_
    | with_reducible refine Keeps.getD (fun _ _ => ?_) ?_
    | intro _
    | dsimp only
    | split)

end Sys2Proof.Machine
end

