-- ==== Sys2Proof/Laws/KeepsBoot.lean ====
section
/-! SUPPORT. Every operation of Machine/Boot.lean keeps the build, the queue and the form of memory. -/

set_option Elab.async false

set_option linter.unreachableTactic false
set_option linter.unusedTactic false

namespace Sys2Proof.Machine

theorem regsOk_default : RegsOk { powerGood := true } := by
  constructor <;> try decide
  intro n
  exact Nat.zero_le _

theorem State.afterReset_keeps {μ} [Has μ .time] [Has μ .mem] [Has μ .codeErr] [Has μ .interleave] [Has μ .cores] [Has μ .net] [Has μ .wafer] [Has μ .stackSites] [Has μ .jobs] [Has μ .fabric] [Has μ .host] [Has μ .regs] [Has μ .sec] [Has μ .clk] [Has μ .integ] [Has μ .recov] [Has μ .obs] [Has μ .mesh] {o s} (h : Keeps μ o s) : Keeps μ o (State.afterReset s) where
  build := h.build
  pending := h.pending
  mem := fun m => ⟨Tab.wf_filter (h.mem m).1, rfl⟩
  regs := fun _ => regsOk_default
  obs := fun q => {
    log := (h.obs q).flash.later (by unfold State.afterReset nextBlock; dsimp only; omega)
    flash := (h.obs q).flash.later (by unfold State.afterReset nextBlock; dsimp only; omega)
    full := fun e => Nat.not_lt.mp (of_decide_eq_false e)
    queue := Nat.zero_le _
    cores := fun _ _ => Nat.zero_le _
    routers := fun _ _ => Nat.zero_le _
    sites := fun _ _ => Nat.zero_le _
    jobs := fun _ _ => Nat.zero_le _ }
  on_time := Has.no
  on_freeIndex := h.on_freeIndex
  on_mem := Has.no
  on_codeErr := Has.no
  on_interleave := Has.no
  on_cores := Has.no
  on_net := Has.no
  on_wafer := Has.no
  on_stackSites := Has.no
  on_jobs := Has.no
  on_fabric := Has.no
  on_host := Has.no
  on_regs := Has.no
  on_sec := Has.no
  on_clk := Has.no
  on_integ := Has.no
  on_recov := Has.no
  on_obs := Has.no
  on_mesh := Has.no

theorem State.applyFence_keeps {μ} [Has μ .wafer] {o s w} (h : Keeps μ o s) :
    Keeps μ o (State.applyFence s w) := by
  unfold State.applyFence
  try dsimp only
  repeat' (first
    | with_reducible refine Keeps.ite (fun _ => ?_) (fun _ => ?_)
    | with_reducible assumption
    | with_reducible apply State.setSite_keeps
    | fail_if_no_progress with_reducible refine Keeps.other ?_ rfl rfl rfl rfl rfl rfl rfl rfl rfl rfl rfl rfl rfl rfl rfl rfl rfl rfl rfl rfl rfl rfl rfl rfl rfl rfl rfl rfl rfl rfl rfl rfl
    | with_reducible refine Keeps.foldl ?_ ?_
    | with_reducible refine Keeps.foldl1 ?_ ?_
    | with_reducible refine Keeps.getD (fun _ _ => ?_) ?_
    | intro _
    | dsimp only
    | split)

theorem State.applyRecords_keeps {μ} [Has μ .regs] [Has μ .obs] {o s} (h : Keeps μ o s) :
    Keeps μ o (State.applyRecords s).1 := by
  unfold State.applyRecords
  try dsimp only
  repeat' (first
    | with_reducible refine Keeps.ite (fun _ => ?_) (fun _ => ?_)
    | with_reducible assumption
    | with_reducible apply State.record_keeps
    | fail_if_no_progress with_reducible refine Keeps.other ?_ rfl rfl rfl rfl rfl rfl rfl rfl rfl rfl rfl rfl rfl rfl rfl rfl rfl rfl rfl rfl rfl rfl rfl rfl rfl rfl rfl rfl rfl rfl rfl rfl
    | with_reducible refine Keeps.foldl ?_ ?_
    | with_reducible refine Keeps.foldl1 ?_ ?_
    | with_reducible refine Keeps.getD (fun _ _ => ?_) ?_
    | intro _
    | dsimp only
    | split)

theorem State.applyRecords_keeps_eq {μ} [Has μ .regs] [Has μ .obs] {u0 v0} {o s} (e : State.applyRecords s = (u0, v0)) (h : Keeps μ o s) : Keeps μ o u0 := by
  have := State.applyRecords_keeps (μ := μ) (o := o) (s := s) h
  rw [e] at this
  exact this

theorem State.bootFence_keeps {μ} [Has μ .wafer] [Has μ .regs] [Has μ .integ] [Has μ .obs] {o s cause p} (h : Keeps μ o s) :
    Keeps μ o (State.bootFence s cause p) := by
  unfold State.bootFence
  try dsimp only
  repeat' (first
    | with_reducible refine Keeps.ite (fun _ => ?_) (fun _ => ?_)
    | with_reducible assumption
    | with_reducible apply State.cper_keeps
    | with_reducible apply State.record_keeps
    | with_reducible apply State.appendFence_keeps
    | with_reducible apply State.setSite_keeps
    | fail_if_no_progress with_reducible refine Keeps.other ?_ rfl rfl rfl rfl rfl rfl rfl rfl rfl rfl rfl rfl rfl rfl rfl rfl rfl rfl rfl rfl rfl rfl rfl rfl rfl rfl rfl rfl rfl rfl rfl rfl
    | with_reducible refine Keeps.foldl ?_ ?_
    | with_reducible refine Keeps.foldl1 ?_ ?_
    | with_reducible refine Keeps.getD (fun _ _ => ?_) ?_
    | intro _
    | dsimp only
    | split)

theorem State.bootColumn_keeps {μ} [Has μ .wafer] [Has μ .regs] [Has μ .integ] [Has μ .obs] {o s x} (h : Keeps μ o s) :
    Keeps μ o (State.bootColumn s x) := by
  unfold State.bootColumn
  try dsimp only
  repeat' (first
    | with_reducible refine Keeps.ite (fun _ => ?_) (fun _ => ?_)
    | with_reducible assumption
    | with_reducible apply State.bootFence_keeps
    | with_reducible apply State.appendRepair_keeps
    | with_reducible refine State.appendRepair_keeps_eq (by assumption) ?_
    | with_reducible apply State.record_keeps
    | fail_if_no_progress with_reducible refine Keeps.other ?_ rfl rfl rfl rfl rfl rfl rfl rfl rfl rfl rfl rfl rfl rfl rfl rfl rfl rfl rfl rfl rfl rfl rfl rfl rfl rfl rfl rfl rfl rfl rfl rfl
    | with_reducible refine Keeps.foldl ?_ ?_
    | with_reducible refine Keeps.foldl1 ?_ ?_
    | with_reducible refine Keeps.getD (fun _ _ => ?_) ?_
    | intro _
    | dsimp only
    | split)

theorem State.bootLose_keeps {μ} [Has μ .net] [Has μ .regs] [Has μ .obs] {o s c} (h : Keeps μ o s) :
    Keeps μ o (State.bootLose s c) := by
  unfold State.bootLose
  try dsimp only
  repeat' (first
    | with_reducible refine Keeps.ite (fun _ => ?_) (fun _ => ?_)
    | with_reducible assumption
    | with_reducible apply State.record_keeps
    | fail_if_no_progress with_reducible refine Keeps.other ?_ rfl rfl rfl rfl rfl rfl rfl rfl rfl rfl rfl rfl rfl rfl rfl rfl rfl rfl rfl rfl rfl rfl rfl rfl rfl rfl rfl rfl rfl rfl rfl rfl
    | with_reducible refine Keeps.foldl ?_ ?_
    | with_reducible refine Keeps.foldl1 ?_ ?_
    | with_reducible refine Keeps.getD (fun _ _ => ?_) ?_
    | intro _
    | dsimp only
    | split)

theorem State.mapColumn_keeps {μ} [Has μ .net] [Has μ .wafer] [Has μ .regs] [Has μ .obs] {o s col} (h : Keeps μ o s) :
    Keeps μ o (State.mapColumn s col) := by
  unfold State.mapColumn
  try dsimp only
  repeat' (first
    | with_reducible refine Keeps.ite (fun _ => ?_) (fun _ => ?_)
    | with_reducible assumption
    | with_reducible apply State.bootLose_keeps
    | fail_if_no_progress with_reducible refine Keeps.other ?_ rfl rfl rfl rfl rfl rfl rfl rfl rfl rfl rfl rfl rfl rfl rfl rfl rfl rfl rfl rfl rfl rfl rfl rfl rfl rfl rfl rfl rfl rfl rfl rfl
    | with_reducible refine Keeps.foldl ?_ ?_
    | with_reducible refine Keeps.foldl1 ?_ ?_
    | with_reducible refine Keeps.getD (fun _ _ => ?_) ?_
    | intro _
    | dsimp only
    | split)

theorem State.bootField_keeps {μ} [Has μ .mem] [Has μ .codeErr] [Has μ .cores] [Has μ .net] [Has μ .wafer] [Has μ .jobs] [Has μ .host] [Has μ .regs] [Has μ .clk] [Has μ .integ] [Has μ .obs] [Has μ .mesh] {o s f} (h : Keeps μ o s) :
    Keeps μ o (State.bootField s f) := by
  unfold State.bootField
  try dsimp only
  repeat' (first
    | with_reducible refine Keeps.ite (fun _ => ?_) (fun _ => ?_)
    | with_reducible assumption
    | with_reducible apply State.bootLose_keeps
    | with_reducible apply State.record_keeps
    | with_reducible apply State.setField_keeps
    | with_reducible apply State.enterSafe_keeps
    | fail_if_no_progress with_reducible refine Keeps.other ?_ rfl rfl rfl rfl rfl rfl rfl rfl rfl rfl rfl rfl rfl rfl rfl rfl rfl rfl rfl rfl rfl rfl rfl rfl rfl rfl rfl rfl rfl rfl rfl rfl
    | with_reducible refine Keeps.foldl ?_ ?_
    | with_reducible refine Keeps.foldl1 ?_ ?_
    | with_reducible refine Keeps.getD (fun _ _ => ?_) ?_
    | intro _
    | dsimp only
    | split)

theorem State.bootLink_keeps {μ} [Has μ .mem] [Has μ .codeErr] [Has μ .cores] [Has μ .net] [Has μ .wafer] [Has μ .jobs] [Has μ .host] [Has μ .regs] [Has μ .clk] [Has μ .integ] [Has μ .obs] [Has μ .mesh] {o s f} (h : Keeps μ o s) :
    Keeps μ o (State.bootLink s f) := by
  unfold State.bootLink
  try dsimp only
  repeat' (first
    | with_reducible refine Keeps.ite (fun _ => ?_) (fun _ => ?_)
    | with_reducible assumption
    | with_reducible apply State.bootField_keeps
    | with_reducible apply State.appendRepair_keeps
    | with_reducible refine State.appendRepair_keeps_eq (by assumption) ?_
    | with_reducible apply State.record_keeps
    | fail_if_no_progress with_reducible refine Keeps.other ?_ rfl rfl rfl rfl rfl rfl rfl rfl rfl rfl rfl rfl rfl rfl rfl rfl rfl rfl rfl rfl rfl rfl rfl rfl rfl rfl rfl rfl rfl rfl rfl rfl
    | with_reducible refine Keeps.foldl ?_ ?_
    | with_reducible refine Keeps.foldl1 ?_ ?_
    | with_reducible refine Keeps.getD (fun _ _ => ?_) ?_
    | intro _
    | dsimp only
    | split)

theorem State.bootDie_keeps {μ} [Has μ .fabric] {o s i} (h : Keeps μ o s) :
    Keeps μ o (State.bootDie s i) := by
  unfold State.bootDie
  try dsimp only
  repeat' (first
    | with_reducible refine Keeps.ite (fun _ => ?_) (fun _ => ?_)
    | with_reducible assumption
    | with_reducible apply State.modIoSite_keeps
    | fail_if_no_progress with_reducible refine Keeps.other ?_ rfl rfl rfl rfl rfl rfl rfl rfl rfl rfl rfl rfl rfl rfl rfl rfl rfl rfl rfl rfl rfl rfl rfl rfl rfl rfl rfl rfl rfl rfl rfl rfl
    | with_reducible refine Keeps.foldl ?_ ?_
    | with_reducible refine Keeps.foldl1 ?_ ?_
    | with_reducible refine Keeps.getD (fun _ _ => ?_) ?_
    | intro _
    | dsimp only
    | split)

theorem State.bootStack_keeps {μ} [Has μ .stackSites] [Has μ .regs] [Has μ .obs] {o s i} (h : Keeps μ o s) :
    Keeps μ o (State.bootStack s i) := by
  unfold State.bootStack
  try dsimp only
  repeat' (first
    | with_reducible refine Keeps.ite (fun _ => ?_) (fun _ => ?_)
    | with_reducible assumption
    | with_reducible apply State.record_keeps
    | with_reducible apply State.modStack_keeps
    | fail_if_no_progress with_reducible refine Keeps.other ?_ rfl rfl rfl rfl rfl rfl rfl rfl rfl rfl rfl rfl rfl rfl rfl rfl rfl rfl rfl rfl rfl rfl rfl rfl rfl rfl rfl rfl rfl rfl rfl rfl
    | with_reducible refine Keeps.foldl ?_ ?_
    | with_reducible refine Keeps.foldl1 ?_ ?_
    | with_reducible refine Keeps.getD (fun _ _ => ?_) ?_
    | intro _
    | dsimp only
    | split)

theorem State.bootStages_keeps {μ} [Has μ .mem] [Has μ .codeErr] [Has μ .interleave] [Has μ .cores] [Has μ .net] [Has μ .wafer] [Has μ .stackSites] [Has μ .jobs] [Has μ .fabric] [Has μ .host] [Has μ .regs] [Has μ .sec] [Has μ .clk] [Has μ .integ] [Has μ .obs] [Has μ .mesh] {o s} (h : Keeps μ o s) :
    Keeps μ o (State.bootStages s) := by
  unfold State.bootStages
  try dsimp only
  repeat' (first
    | with_reducible refine Keeps.ite (fun _ => ?_) (fun _ => ?_)
    | with_reducible assumption
    | with_reducible apply State.runImage_keeps
    | with_reducible apply State.applyRecords_keeps
    | with_reducible refine State.applyRecords_keeps_eq (by assumption) ?_
    | with_reducible apply State.bootColumn_keeps
    | with_reducible apply State.applyFence_keeps
    | with_reducible apply State.bootFence_keeps
    | with_reducible apply State.mapColumn_keeps
    | with_reducible apply State.bootField_keeps
    | with_reducible apply State.bootLink_keeps
    | with_reducible apply State.bootDie_keeps
    | with_reducible apply State.bootStack_keeps
    | fail_if_no_progress with_reducible refine Keeps.other ?_ rfl rfl rfl rfl rfl rfl rfl rfl rfl rfl rfl rfl rfl rfl rfl rfl rfl rfl rfl rfl rfl rfl rfl rfl rfl rfl rfl rfl rfl rfl rfl rfl
    | with_reducible refine Keeps.foldl ?_ ?_
    | with_reducible refine Keeps.foldl1 ?_ ?_
    | with_reducible refine Keeps.getD (fun _ _ => ?_) ?_
    | intro _
    | dsimp only
    | split)

theorem State.boot_keeps {μ} [Has μ .time] [Has μ .mem] [Has μ .codeErr] [Has μ .interleave] [Has μ .cores] [Has μ .net] [Has μ .wafer] [Has μ .stackSites] [Has μ .jobs] [Has μ .fabric] [Has μ .host] [Has μ .regs] [Has μ .sec] [Has μ .clk] [Has μ .integ] [Has μ .recov] [Has μ .obs] [Has μ .mesh] {o s p} (h : Keeps μ o s) :
    Keeps μ o (State.boot s p) := by
  unfold State.boot
  try dsimp only
  repeat' (first
    | with_reducible refine Keeps.ite (fun _ => ?_) (fun _ => ?_)
    | with_reducible assumption
    | with_reducible apply State.afterReset_keeps
    | with_reducible apply State.record_keeps
    | with_reducible apply State.bootStages_keeps
    | fail_if_no_progress with_reducible refine Keeps.other ?_ rfl rfl rfl rfl rfl rfl rfl rfl rfl rfl rfl rfl rfl rfl rfl rfl rfl rfl rfl rfl rfl rfl rfl rfl rfl rfl rfl rfl rfl rfl rfl rfl
    | with_reducible refine Keeps.foldl ?_ ?_
    | with_reducible refine Keeps.foldl1 ?_ ?_
    | with_reducible refine Keeps.getD (fun _ _ => ?_) ?_
    | intro _
    | dsimp only
    | split)

theorem State.pcieReset_keeps {μ} [Has μ .host] [Has μ .regs] [Has μ .sec] [Has μ .obs] {o s} (h : Keeps μ o s) : Keeps μ o (State.pcieReset s) := by
  unfold State.pcieReset
  dsimp only
  refine Keeps.upd (State.endSession_keeps h) rfl rfl rfl rfl (fun q => { q with counts := fun _ => Nat.zero_le _ }) id

theorem State.recoverFails_keeps {μ} [Has μ .regs] [Has μ .obs] {o s p check} (h : Keeps μ o s) :
    Keeps μ o (State.recoverFails s p check) := by
  unfold State.recoverFails
  try dsimp only
  repeat' (first
    | with_reducible refine Keeps.ite (fun _ => ?_) (fun _ => ?_)
    | with_reducible assumption
    | with_reducible apply State.mboxReply_keeps
    | with_reducible apply State.record_keeps
    | fail_if_no_progress with_reducible refine Keeps.other ?_ rfl rfl rfl rfl rfl rfl rfl rfl rfl rfl rfl rfl rfl rfl rfl rfl rfl rfl rfl rfl rfl rfl rfl rfl rfl rfl rfl rfl rfl rfl rfl rfl
    | with_reducible refine Keeps.foldl ?_ ?_
    | with_reducible refine Keeps.foldl1 ?_ ?_
    | with_reducible refine Keeps.getD (fun _ _ => ?_) ?_
    | intro _
    | dsimp only
    | split)

theorem State.recover_keeps {μ} [Has μ .freeIndex] [Has μ .mem] [Has μ .codeErr] [Has μ .interleave] [Has μ .cores] [Has μ .net] [Has μ .wafer] [Has μ .stackSites] [Has μ .jobs] [Has μ .fabric] [Has μ .host] [Has μ .regs] [Has μ .sec] [Has μ .clk] [Has μ .integ] [Has μ .obs] [Has μ .mesh] {o s p h2 n} (h : Keeps μ o s) :
    Keeps μ o (State.recover s p h2 n) := by
  unfold State.recover
  try dsimp only
  repeat' (first
    | with_reducible refine Keeps.ite (fun _ => ?_) (fun _ => ?_)
    | with_reducible assumption
    | with_reducible apply State.recoverFails_keeps
    | with_reducible apply State.hostError_keeps
    | with_reducible apply State.mboxReply_keeps
    | with_reducible apply State.bootStages_keeps
    | fail_if_no_progress with_reducible refine Keeps.other ?_ rfl rfl rfl rfl rfl rfl rfl rfl rfl rfl rfl rfl rfl rfl rfl rfl rfl rfl rfl rfl rfl rfl rfl rfl rfl rfl rfl rfl rfl rfl rfl rfl
    | with_reducible refine Keeps.foldl ?_ ?_
    | with_reducible refine Keeps.foldl1 ?_ ?_
    | with_reducible refine Keeps.getD (fun _ _ => ?_) ?_
    | intro _
    | dsimp only
    | split)

theorem execPowerOn_keeps {μ} [Has μ .time] [Has μ .mem] [Has μ .codeErr] [Has μ .interleave] [Has μ .cores] [Has μ .net] [Has μ .wafer] [Has μ .stackSites] [Has μ .jobs] [Has μ .fabric] [Has μ .host] [Has μ .regs] [Has μ .sec] [Has μ .clk] [Has μ .integ] [Has μ .recov] [Has μ .obs] [Has μ .mesh] {p s} : ∃ t, execPowerOn p s = .next t ∧ Keeps μ s t := by
  refine ⟨_, rfl, ?_⟩
  try dsimp only
  have h := Keeps.refl (μ := μ) s
  repeat' (first
    | with_reducible refine Keeps.ite (fun _ => ?_) (fun _ => ?_)
    | with_reducible assumption
    | with_reducible apply State.boot_keeps
    | fail_if_no_progress with_reducible refine Keeps.other ?_ rfl rfl rfl rfl rfl rfl rfl rfl rfl rfl rfl rfl rfl rfl rfl rfl rfl rfl rfl rfl rfl rfl rfl rfl rfl rfl rfl rfl rfl rfl rfl rfl
    | with_reducible refine Keeps.foldl ?_ ?_
    | with_reducible refine Keeps.foldl1 ?_ ?_
    | with_reducible refine Keeps.getD (fun _ _ => ?_) ?_
    | intro _
    | dsimp only
    | split)

theorem execModuleReset_keeps {μ} [Has μ .time] [Has μ .mem] [Has μ .codeErr] [Has μ .interleave] [Has μ .cores] [Has μ .net] [Has μ .wafer] [Has μ .stackSites] [Has μ .jobs] [Has μ .fabric] [Has μ .host] [Has μ .regs] [Has μ .sec] [Has μ .clk] [Has μ .integ] [Has μ .recov] [Has μ .obs] [Has μ .mesh] {p s} : ∃ t, execModuleReset p s = .next t ∧ Keeps μ s t := by
  refine ⟨_, rfl, ?_⟩
  try dsimp only
  have h := Keeps.refl (μ := μ) s
  repeat' (first
    | with_reducible refine Keeps.ite (fun _ => ?_) (fun _ => ?_)
    | with_reducible assumption
    | with_reducible apply State.boot_keeps
    | with_reducible apply State.flushLog_keeps
    | fail_if_no_progress with_reducible refine Keeps.other ?_ rfl rfl rfl rfl rfl rfl rfl rfl rfl rfl rfl rfl rfl rfl rfl rfl rfl rfl rfl rfl rfl rfl rfl rfl rfl rfl rfl rfl rfl rfl rfl rfl
    | with_reducible refine Keeps.foldl ?_ ?_
    | with_reducible refine Keeps.foldl1 ?_ ?_
    | with_reducible refine Keeps.getD (fun _ _ => ?_) ?_
    | intro _
    | dsimp only
    | split)

theorem execConventionalReset_keeps {μ} [Has μ .host] [Has μ .regs] [Has μ .sec] [Has μ .obs] {s} : ∃ t, execConventionalReset s = .next t ∧ Keeps μ s t := by
  refine ⟨_, rfl, ?_⟩
  try dsimp only
  have h := Keeps.refl (μ := μ) s
  repeat' (first
    | with_reducible refine Keeps.ite (fun _ => ?_) (fun _ => ?_)
    | with_reducible assumption
    | with_reducible apply State.pcieReset_keeps
    | fail_if_no_progress with_reducible refine Keeps.other ?_ rfl rfl rfl rfl rfl rfl rfl rfl rfl rfl rfl rfl rfl rfl rfl rfl rfl rfl rfl rfl rfl rfl rfl rfl rfl rfl rfl rfl rfl rfl rfl rfl
    | with_reducible refine Keeps.foldl ?_ ?_
    | with_reducible refine Keeps.foldl1 ?_ ?_
    | with_reducible refine Keeps.getD (fun _ _ => ?_) ?_
    | intro _
    | dsimp only
    | split)

theorem execFunctionLevelReset_keeps {μ} [Has μ .host] [Has μ .regs] [Has μ .sec] [Has μ .obs] {s} : ∃ t, execFunctionLevelReset s = .next t ∧ Keeps μ s t := by
  refine ⟨_, rfl, ?_⟩
  try dsimp only
  have h := Keeps.refl (μ := μ) s
  repeat' (first
    | with_reducible refine Keeps.ite (fun _ => ?_) (fun _ => ?_)
    | with_reducible assumption
    | with_reducible apply State.pcieReset_keeps
    | fail_if_no_progress with_reducible refine Keeps.other ?_ rfl rfl rfl rfl rfl rfl rfl rfl rfl rfl rfl rfl rfl rfl rfl rfl rfl rfl rfl rfl rfl rfl rfl rfl rfl rfl rfl rfl rfl rfl rfl rfl
    | with_reducible refine Keeps.foldl ?_ ?_
    | with_reducible refine Keeps.foldl1 ?_ ?_
    | with_reducible refine Keeps.getD (fun _ _ => ?_) ?_
    | intro _
    | dsimp only
    | split)

theorem execReady_keeps {μ} [Has μ .host] [Has μ .regs] [Has μ .clk] {s} : ∃ t, execReady s = .next t ∧ Keeps μ s t := by
  refine ⟨_, rfl, ?_⟩
  try dsimp only
  have h := Keeps.refl (μ := μ) s
  repeat' (first
    | with_reducible refine Keeps.ite (fun _ => ?_) (fun _ => ?_)
    | with_reducible assumption
    | with_reducible apply State.govern_keeps
    | with_reducible apply State.setDev_keeps
    | fail_if_no_progress with_reducible refine Keeps.other ?_ rfl rfl rfl rfl rfl rfl rfl rfl rfl rfl rfl rfl rfl rfl rfl rfl rfl rfl rfl rfl rfl rfl rfl rfl rfl rfl rfl rfl rfl rfl rfl rfl
    | with_reducible refine Keeps.foldl ?_ ?_
    | with_reducible refine Keeps.foldl1 ?_ ?_
    | with_reducible refine Keeps.getD (fun _ _ => ?_) ?_
    | intro _
    | dsimp only
    | split)

theorem execBootTimeout_keeps {μ} [Has μ .mem] [Has μ .codeErr] [Has μ .cores] [Has μ .wafer] [Has μ .jobs] [Has μ .host] [Has μ .regs] [Has μ .clk] [Has μ .integ] [Has μ .obs] [Has μ .mesh] {s} : ∃ t, execBootTimeout s = .next t ∧ Keeps μ s t := by
  refine ⟨_, rfl, ?_⟩
  try dsimp only
  have h := Keeps.refl (μ := μ) s
  repeat' (first
    | with_reducible refine Keeps.ite (fun _ => ?_) (fun _ => ?_)
    | with_reducible assumption
    | with_reducible apply State.enterSafe_keeps
    | fail_if_no_progress with_reducible refine Keeps.other ?_ rfl rfl rfl rfl rfl rfl rfl rfl rfl rfl rfl rfl rfl rfl rfl rfl rfl rfl rfl rfl rfl rfl rfl rfl rfl rfl rfl rfl rfl rfl rfl rfl
    | with_reducible refine Keeps.foldl ?_ ?_
    | with_reducible refine Keeps.foldl1 ?_ ?_
    | with_reducible refine Keeps.getD (fun _ _ => ?_) ?_
    | intro _
    | dsimp only
    | split)

theorem execRecover_keeps {μ} [Has μ .freeIndex] [Has μ .mem] [Has μ .codeErr] [Has μ .interleave] [Has μ .cores] [Has μ .net] [Has μ .wafer] [Has μ .stackSites] [Has μ .jobs] [Has μ .fabric] [Has μ .host] [Has μ .regs] [Has μ .sec] [Has μ .clk] [Has μ .integ] [Has μ .obs] [Has μ .mesh] {s} : ∃ t, execRecover s = .next t ∧ Keeps μ s t := by
  refine ⟨_, rfl, ?_⟩
  try dsimp only
  have h := Keeps.refl (μ := μ) s
  repeat' (first
    | with_reducible refine Keeps.ite (fun _ => ?_) (fun _ => ?_)
    | with_reducible assumption
    | with_reducible apply State.onRequest_keeps
    | with_reducible apply State.mboxReply_keeps
    | with_reducible apply State.recover_keeps
    | fail_if_no_progress with_reducible refine Keeps.other ?_ rfl rfl rfl rfl rfl rfl rfl rfl rfl rfl rfl rfl rfl rfl rfl rfl rfl rfl rfl rfl rfl rfl rfl rfl rfl rfl rfl rfl rfl rfl rfl rfl
    | with_reducible refine Keeps.foldl ?_ ?_
    | with_reducible refine Keeps.foldl1 ?_ ?_
    | with_reducible refine Keeps.getD (fun _ _ => ?_) ?_
    | intro _
    | dsimp only
    | split)

end Sys2Proof.Machine
end

