-- ==== Sys2Proof/Laws/KeepsStackOps.lean ====
section
/-! SUPPORT. Every operation of Machine/StackOps.lean keeps the build, the queue and the form of memory. -/

set_option Elab.async false

set_option linter.unreachableTactic false
set_option linter.unusedTactic false

namespace Sys2Proof.Machine

theorem State.correctStack_keeps {μ} [Has μ .mem] [Has μ .codeErr] [Has μ .regs] [Has μ .integ] [Has μ .obs] {o s site a} (h : Keeps μ o s) :
    Keeps μ o (State.correctStack s site a) := by
  unfold State.correctStack
  try dsimp only
  repeat' (first
    | with_reducible refine Keeps.ite (fun _ => ?_) (fun _ => ?_)
    | with_reducible assumption
    | with_reducible apply State.store_keeps
    | with_reducible apply State.health_keeps
    | with_reducible apply State.record_keeps
    | with_reducible apply State.bumpSite_keeps
    | fail_if_no_progress with_reducible refine Keeps.other ?_ rfl rfl rfl rfl rfl rfl rfl rfl rfl rfl rfl rfl rfl rfl rfl rfl rfl rfl rfl rfl rfl rfl rfl rfl rfl rfl rfl rfl rfl rfl rfl rfl
    | with_reducible refine Keeps.foldl ?_ ?_
    | with_reducible refine Keeps.foldl1 ?_ ?_
    | with_reducible refine Keeps.getD (fun _ _ => ?_) ?_
    | intro _
    | dsimp only
    | split)

theorem State.fenceStack_keeps {μ} [Has μ .mem] [Has μ .cores] [Has μ .stackSites] [Has μ .jobs] [Has μ .host] [Has μ .regs] [Has μ .clk] [Has μ .obs] {o s site cause} (h : Keeps μ o s) :
    Keeps μ o (State.fenceStack s site cause) := by
  unfold State.fenceStack
  try dsimp only
  repeat' (first
    | with_reducible refine Keeps.ite (fun _ => ?_) (fun _ => ?_)
    | with_reducible assumption
    | with_reducible apply State.record_keeps
    | with_reducible apply State.modStack_keeps
    | with_reducible apply State.failJob_keeps
    | fail_if_no_progress with_reducible refine Keeps.other ?_ rfl rfl rfl rfl rfl rfl rfl rfl rfl rfl rfl rfl rfl rfl rfl rfl rfl rfl rfl rfl rfl rfl rfl rfl rfl rfl rfl rfl rfl rfl rfl rfl
    | with_reducible refine Keeps.foldl ?_ ?_
    | with_reducible refine Keeps.foldl1 ?_ ?_
    | with_reducible refine Keeps.getD (fun _ _ => ?_) ?_
    | intro _
    | dsimp only
    | split)

theorem State.noteUncorrectable_keeps {μ} [Has μ .mem] [Has μ .cores] [Has μ .stackSites] [Has μ .jobs] [Has μ .host] [Has μ .regs] [Has μ .clk] [Has μ .obs] {o s site a} (h : Keeps μ o s) :
    Keeps μ o (State.noteUncorrectable s site a) := by
  unfold State.noteUncorrectable
  try dsimp only
  repeat' (first
    | with_reducible refine Keeps.ite (fun _ => ?_) (fun _ => ?_)
    | with_reducible assumption
    | with_reducible apply State.record_keeps
    | with_reducible apply State.modStack_keeps
    | with_reducible apply State.fenceStack_keeps
    | fail_if_no_progress with_reducible refine Keeps.other ?_ rfl rfl rfl rfl rfl rfl rfl rfl rfl rfl rfl rfl rfl rfl rfl rfl rfl rfl rfl rfl rfl rfl rfl rfl rfl rfl rfl rfl rfl rfl rfl rfl
    | with_reducible refine Keeps.foldl ?_ ?_
    | with_reducible refine Keeps.foldl1 ?_ ?_
    | with_reducible refine Keeps.getD (fun _ _ => ?_) ?_
    | intro _
    | dsimp only
    | split)

theorem State.readWord_keeps {μ} [Has μ .mem] [Has μ .codeErr] [Has μ .cores] [Has μ .stackSites] [Has μ .jobs] [Has μ .host] [Has μ .regs] [Has μ .clk] [Has μ .integ] [Has μ .obs] {o s a} (h : Keeps μ o s) :
    Keeps μ o (State.readWord s a).1 := by
  unfold State.readWord
  try dsimp only
  repeat' (first
    | with_reducible refine Keeps.ite (fun _ => ?_) (fun _ => ?_)
    | with_reducible assumption
    | with_reducible apply State.correctStack_keeps
    | with_reducible apply State.record_keeps
    | with_reducible apply State.noteUncorrectable_keeps
    | fail_if_no_progress with_reducible refine Keeps.other ?_ rfl rfl rfl rfl rfl rfl rfl rfl rfl rfl rfl rfl rfl rfl rfl rfl rfl rfl rfl rfl rfl rfl rfl rfl rfl rfl rfl rfl rfl rfl rfl rfl
    | with_reducible refine Keeps.foldl ?_ ?_
    | with_reducible refine Keeps.foldl1 ?_ ?_
    | with_reducible refine Keeps.getD (fun _ _ => ?_) ?_
    | intro _
    | dsimp only
    | split)

theorem State.readWord_keeps_eq {μ} [Has μ .mem] [Has μ .codeErr] [Has μ .cores] [Has μ .stackSites] [Has μ .jobs] [Has μ .host] [Has μ .regs] [Has μ .clk] [Has μ .integ] [Has μ .obs] {u0 v0} {o s a} (e : State.readWord s a = (u0, v0)) (h : Keeps μ o s) : Keeps μ o u0 := by
  have := State.readWord_keeps (μ := μ) (o := o) (s := s) (a := a) h
  rw [e] at this
  exact this

theorem State.rowHit_keeps {μ} [Has μ .stackSites] [Has μ .regs] [Has μ .obs] {o s site a} (h : Keeps μ o s) :
    Keeps μ o (State.rowHit s site a) := by
  unfold State.rowHit
  try dsimp only
  repeat' (first
    | with_reducible refine Keeps.ite (fun _ => ?_) (fun _ => ?_)
    | with_reducible assumption
    | with_reducible apply State.setStack_keeps
    | with_reducible apply State.bumpSite_keeps
    | with_reducible apply State.modStack_keeps
    | with_reducible apply State.record_keeps
    | fail_if_no_progress with_reducible refine Keeps.other ?_ rfl rfl rfl rfl rfl rfl rfl rfl rfl rfl rfl rfl rfl rfl rfl rfl rfl rfl rfl rfl rfl rfl rfl rfl rfl rfl rfl rfl rfl rfl rfl rfl
    | with_reducible refine Keeps.foldl ?_ ?_
    | with_reducible refine Keeps.foldl1 ?_ ?_
    | with_reducible refine Keeps.getD (fun _ _ => ?_) ?_
    | intro _
    | dsimp only
    | split)

theorem State.touchRows_keeps {μ} [Has μ .stackSites] [Has μ .regs] [Has μ .obs] {o s a n} (h : Keeps μ o s) :
    Keeps μ o (State.touchRows s a n) := by
  unfold State.touchRows
  try dsimp only
  repeat' (first
    | with_reducible refine Keeps.ite (fun _ => ?_) (fun _ => ?_)
    | with_reducible assumption
    | with_reducible apply State.rowHit_keeps
    | fail_if_no_progress with_reducible refine Keeps.other ?_ rfl rfl rfl rfl rfl rfl rfl rfl rfl rfl rfl rfl rfl rfl rfl rfl rfl rfl rfl rfl rfl rfl rfl rfl rfl rfl rfl rfl rfl rfl rfl rfl
    | with_reducible refine Keeps.foldl ?_ ?_
    | with_reducible refine Keeps.foldl1 ?_ ?_
    | with_reducible refine Keeps.getD (fun _ _ => ?_) ?_
    | intro _
    | dsimp only
    | split)

theorem State.readStack_keeps {μ} [Has μ .mem] [Has μ .codeErr] [Has μ .cores] [Has μ .stackSites] [Has μ .jobs] [Has μ .host] [Has μ .regs] [Has μ .clk] [Has μ .integ] [Has μ .obs] {o s a n} (h : Keeps μ o s) :
    Keeps μ o (State.readStack s a n).1 := by
  unfold State.readStack
  try dsimp only
  repeat' (first
    | with_reducible refine Keeps.ite (fun _ => ?_) (fun _ => ?_)
    | with_reducible assumption
    | with_reducible apply State.readWord_keeps
    | with_reducible refine State.readWord_keeps_eq (by assumption) ?_
    | with_reducible apply State.touchRows_keeps
    | fail_if_no_progress with_reducible refine Keeps.other ?_ rfl rfl rfl rfl rfl rfl rfl rfl rfl rfl rfl rfl rfl rfl rfl rfl rfl rfl rfl rfl rfl rfl rfl rfl rfl rfl rfl rfl rfl rfl rfl rfl
    | with_reducible refine Keeps.foldl ?_ ?_
    | with_reducible refine Keeps.foldl1 ?_ ?_
    | with_reducible refine Keeps.getD (fun _ _ => ?_) ?_
    | intro _
    | dsimp only
    | split)

theorem State.readStack_keeps_eq {μ} [Has μ .mem] [Has μ .codeErr] [Has μ .cores] [Has μ .stackSites] [Has μ .jobs] [Has μ .host] [Has μ .regs] [Has μ .clk] [Has μ .integ] [Has μ .obs] {u0 v0} {o s a n} (e : State.readStack s a n = (u0, v0)) (h : Keeps μ o s) : Keeps μ o u0 := by
  have := State.readStack_keeps (μ := μ) (o := o) (s := s) (a := a) (n := n) h
  rw [e] at this
  exact this

theorem State.stackAnswer_keeps {μ} [Has μ .cores] [Has μ .net] [Has μ .regs] [Has μ .obs] {o s r st} (h : Keeps μ o s) :
    Keeps μ o (State.stackAnswer s r st) := by
  unfold State.stackAnswer
  try dsimp only
  repeat' (first
    | with_reducible refine Keeps.ite (fun _ => ?_) (fun _ => ?_)
    | with_reducible assumption
    | with_reducible apply State.traceSite_keeps
    | with_reducible apply State.sendFromSite_keeps
    | with_reducible apply State.record_keeps
    | fail_if_no_progress with_reducible refine Keeps.other ?_ rfl rfl rfl rfl rfl rfl rfl rfl rfl rfl rfl rfl rfl rfl rfl rfl rfl rfl rfl rfl rfl rfl rfl rfl rfl rfl rfl rfl rfl rfl rfl rfl
    | with_reducible refine Keeps.foldl ?_ ?_
    | with_reducible refine Keeps.foldl1 ?_ ?_
    | with_reducible refine Keeps.getD (fun _ _ => ?_) ?_
    | intro _
    | dsimp only
    | split)

end Sys2Proof.Machine
end

