-- ==== Sys2Proof/Laws/KeepsHostData.lean ====
section
/-! SUPPORT. Every operation of Machine/HostData.lean keeps the build, the queue and the form of memory. -/

set_option Elab.async false

set_option linter.unreachableTactic false
set_option linter.unusedTactic false

namespace Sys2Proof.Machine

theorem State.bar2Refuse_keeps {μ} [Has μ .host] [Has μ .regs] [Has μ .obs] {o s addr n write} (h : Keeps μ o s) :
    Keeps μ o (State.bar2Refuse s addr n write) := by
  unfold State.bar2Refuse
  try dsimp only
  repeat' (first
    | with_reducible refine Keeps.ite (fun _ => ?_) (fun _ => ?_)
    | with_reducible assumption
    | with_reducible apply State.noteAccess_keeps
    | with_reducible apply State.record_keeps
    | fail_if_no_progress with_reducible refine Keeps.other ?_ rfl rfl rfl rfl rfl rfl rfl rfl rfl rfl rfl rfl rfl rfl rfl rfl rfl rfl rfl rfl rfl rfl rfl rfl rfl rfl rfl rfl rfl rfl rfl rfl
    | with_reducible refine Keeps.foldl ?_ ?_
    | with_reducible refine Keeps.foldl1 ?_ ?_
    | with_reducible refine Keeps.getD (fun _ _ => ?_) ?_
    | intro _
    | dsimp only
    | split)

theorem State.clearLog_keeps {μ} [Has μ .regs] [Has μ .obs] {o s} (h : Keeps μ o s) : Keeps μ o (State.clearLog s) := by
  unfold State.clearLog
  dsimp only
  generalize e : State.record _ _ _ _ = u
  have k : Keeps μ o u := by
    subst e
    with_reducible apply State.record_keeps
    exact { h with
      obs := fun q => { h.obs q with log := LogOk.nil _, flash := LogOk.nil _, full := fun _ => Nat.zero_le _ }
      on_obs := Has.no }
  exact { k with obs := fun q => { k.obs q with flash := (k.obs q).log }, on_obs := Has.no }

theorem State.resetCounter_keeps {μ} [Has μ .jobs] [Has μ .host] [Has μ .regs] [Has μ .obs] {o s k i} (h : Keeps μ o s) : Keeps μ o (State.resetCounter s k i) := by
  unfold State.resetCounter
  refine Keeps.ite (fun _ => State.resetRouterKept_keeps h) (fun _ => ?_)
  refine Keeps.ite (fun _ => Keeps.upd h rfl rfl rfl rfl id (fun q => { q with sites := q.sites.reset })) (fun _ => ?_)
  exact h

theorem State.counterRead_keeps {μ} [Has μ .mem] [Has μ .jobs] [Has μ .host] [Has μ .regs] [Has μ .obs] {o s b} (h : Keeps μ o s) :
    Keeps μ o (State.counterRead s b) := by
  unfold State.counterRead
  try dsimp only
  repeat' (first
    | with_reducible refine Keeps.ite (fun _ => ?_) (fun _ => ?_)
    | with_reducible assumption
    | with_reducible apply State.storeHost_keeps
    | with_reducible apply State.resetCounter_keeps
    | fail_if_no_progress with_reducible refine Keeps.other ?_ rfl rfl rfl rfl rfl rfl rfl rfl rfl rfl rfl rfl rfl rfl rfl rfl rfl rfl rfl rfl rfl rfl rfl rfl rfl rfl rfl rfl rfl rfl rfl rfl
    | with_reducible refine Keeps.foldl ?_ ?_
    | with_reducible refine Keeps.foldl1 ?_ ?_
    | with_reducible refine Keeps.getD (fun _ _ => ?_) ?_
    | intro _
    | dsimp only
    | split)

theorem State.getWord_keeps {μ} [Has μ .mem] [Has μ .codeErr] [Has μ .cores] [Has μ .net] [Has μ .wafer] [Has μ .stackSites] [Has μ .jobs] [Has μ .host] [Has μ .regs] [Has μ .clk] [Has μ .integ] [Has μ .obs] {o s stack core d a} (h : Keeps μ o s) :
    Keeps μ o (State.getWord s stack core d a).1 := by
  have k : Keeps μ o (if stack then s.readStack d 32 else s.spadRead core (d - windowAddr core 0) 32).1 := by
    split
    · exact State.readStack_keeps h
    · exact State.spadRead_keeps h
  unfold State.getWord
  dsimp only
  split
  · rename_i e
    rw [e] at k
    exact State.storeHost_keeps k
  · rename_i e
    rw [e] at k
    apply State.poisonHost_keeps
    refine Keeps.ite (fun _ => k) (fun _ => State.record_keeps k)

theorem State.getWord_keeps_eq {μ} [Has μ .mem] [Has μ .codeErr] [Has μ .cores] [Has μ .net] [Has μ .wafer] [Has μ .stackSites] [Has μ .jobs] [Has μ .host] [Has μ .regs] [Has μ .clk] [Has μ .integ] [Has μ .obs] {o u v s stack core d a} (e : State.getWord s stack core d a = (u, v)) (h : Keeps μ o s) : Keeps μ o u := by
  have k := State.getWord_keeps (μ := μ) (o := o) (s := s) (stack := stack) (core := core) (d := d) (a := a) h
  rw [e] at k
  exact k

theorem State.hostGets_keeps {μ} [Has μ .host] {o s bs poisoned} (h : Keeps μ o s) :
    Keeps μ o (State.hostGets s bs poisoned) := by
  unfold State.hostGets
  try dsimp only
  repeat' (first
    | with_reducible refine Keeps.ite (fun _ => ?_) (fun _ => ?_)
    | with_reducible assumption
    | fail_if_no_progress with_reducible refine Keeps.other ?_ rfl rfl rfl rfl rfl rfl rfl rfl rfl rfl rfl rfl rfl rfl rfl rfl rfl rfl rfl rfl rfl rfl rfl rfl rfl rfl rfl rfl rfl rfl rfl rfl
    | with_reducible refine Keeps.foldl ?_ ?_
    | with_reducible refine Keeps.foldl1 ?_ ?_
    | with_reducible refine Keeps.getD (fun _ _ => ?_) ?_
    | intro _
    | dsimp only
    | split)

theorem State.putWord_keeps {μ} [Has μ .mem] [Has μ .codeErr] {o s h1 d} (h : Keeps μ o s) :
    Keeps μ o (State.putWord s h1 d) := by
  unfold State.putWord
  try dsimp only
  repeat' (first
    | with_reducible refine Keeps.ite (fun _ => ?_) (fun _ => ?_)
    | with_reducible assumption
    | with_reducible apply State.store_keeps
    | with_reducible apply State.poison_keeps
    | fail_if_no_progress with_reducible refine Keeps.other ?_ rfl rfl rfl rfl rfl rfl rfl rfl rfl rfl rfl rfl rfl rfl rfl rfl rfl rfl rfl rfl rfl rfl rfl rfl rfl rfl rfl rfl rfl rfl rfl rfl
    | with_reducible refine Keeps.foldl ?_ ?_
    | with_reducible refine Keeps.foldl1 ?_ ?_
    | with_reducible refine Keeps.getD (fun _ _ => ?_) ?_
    | intro _
    | dsimp only
    | split)

theorem State.storeMerged_keeps {μ} [Has μ .mem] [Has μ .codeErr] [Has μ .cores] [Has μ .stackSites] [Has μ .jobs] [Has μ .host] [Has μ .regs] [Has μ .clk] [Has μ .integ] [Has μ .obs] {o s a bs} (h : Keeps μ o s) :
    Keeps μ o (State.storeMerged s a bs) := by
  unfold State.storeMerged
  try dsimp only
  repeat' (first
    | with_reducible refine Keeps.ite (fun _ => ?_) (fun _ => ?_)
    | with_reducible assumption
    | with_reducible apply State.store_keeps
    | with_reducible apply State.readWord_keeps
    | with_reducible refine State.readWord_keeps_eq (by assumption) ?_
    | fail_if_no_progress with_reducible refine Keeps.other ?_ rfl rfl rfl rfl rfl rfl rfl rfl rfl rfl rfl rfl rfl rfl rfl rfl rfl rfl rfl rfl rfl rfl rfl rfl rfl rfl rfl rfl rfl rfl rfl rfl
    | with_reducible refine Keeps.foldl ?_ ?_
    | with_reducible refine Keeps.foldl1 ?_ ?_
    | with_reducible refine Keeps.getD (fun _ _ => ?_) ?_
    | intro _
    | dsimp only
    | split)

theorem State.tokenGet_keeps {μ} [Has μ .mem] [Has μ .codeErr] [Has μ .cores] [Has μ .net] [Has μ .wafer] [Has μ .stackSites] [Has μ .jobs] [Has μ .host] [Has μ .regs] [Has μ .clk] [Has μ .integ] [Has μ .obs] {o s c b} (h : Keeps μ o s) :
    Keeps μ o (State.tokenGet s c b) := by
  unfold State.tokenGet
  try dsimp only
  repeat' (first
    | with_reducible refine Keeps.ite (fun _ => ?_) (fun _ => ?_)
    | with_reducible assumption
    | with_reducible apply State.getWord_keeps
    | with_reducible refine State.getWord_keeps_eq (by assumption) ?_
    | with_reducible apply State.done_keeps
    | fail_if_no_progress with_reducible refine Keeps.other ?_ rfl rfl rfl rfl rfl rfl rfl rfl rfl rfl rfl rfl rfl rfl rfl rfl rfl rfl rfl rfl rfl rfl rfl rfl rfl rfl rfl rfl rfl rfl rfl rfl
    | with_reducible refine Keeps.foldl ?_ ?_
    | with_reducible refine Keeps.foldl1 ?_ ?_
    | with_reducible refine Keeps.getD (fun _ _ => ?_) ?_
    | intro _
    | dsimp only
    | split)

theorem State.tokenToCore_keeps {μ} [Has μ .cores] [Has μ .net] [Has μ .host] [Has μ .obs] {o s c h2 core off n sem st} (h : Keeps μ o s) :
    Keeps μ o (State.tokenToCore s c h2 core off n sem st) := by
  unfold State.tokenToCore
  try dsimp only
  repeat' (first
    | with_reducible refine Keeps.ite (fun _ => ?_) (fun _ => ?_)
    | with_reducible assumption
    | with_reducible apply State.sendFrom_keeps
    | fail_if_no_progress with_reducible refine Keeps.other ?_ rfl rfl rfl rfl rfl rfl rfl rfl rfl rfl rfl rfl rfl rfl rfl rfl rfl rfl rfl rfl rfl rfl rfl rfl rfl rfl rfl rfl rfl rfl rfl rfl
    | with_reducible refine Keeps.foldl ?_ ?_
    | with_reducible refine Keeps.foldl1 ?_ ?_
    | with_reducible refine Keeps.getD (fun _ _ => ?_) ?_
    | intro _
    | dsimp only
    | split)

theorem State.tokenPut_keeps {μ} [Has μ .freeIndex] [Has μ .mem] [Has μ .codeErr] [Has μ .cores] [Has μ .net] [Has μ .stackSites] [Has μ .host] [Has μ .regs] [Has μ .obs] {o s c b} (h : Keeps μ o s) :
    Keeps μ o (State.tokenPut s c b) := by
  unfold State.tokenPut
  try dsimp only
  repeat' (first
    | with_reducible refine Keeps.ite (fun _ => ?_) (fun _ => ?_)
    | with_reducible assumption
    | with_reducible apply State.hostError_keeps
    | with_reducible apply State.tokenToCore_keeps
    | with_reducible apply State.done_keeps
    | with_reducible apply State.putWord_keeps
    | with_reducible apply State.touchRows_keeps
    | fail_if_no_progress with_reducible refine Keeps.other ?_ rfl rfl rfl rfl rfl rfl rfl rfl rfl rfl rfl rfl rfl rfl rfl rfl rfl rfl rfl rfl rfl rfl rfl rfl rfl rfl rfl rfl rfl rfl rfl rfl
    | with_reducible refine Keeps.foldl ?_ ?_
    | with_reducible refine Keeps.foldl1 ?_ ?_
    | with_reducible refine Keeps.getD (fun _ _ => ?_) ?_
    | intro _
    | dsimp only
    | split)

theorem State.tokenRefuse_keeps {μ} [Has μ .host] [Has μ .regs] [Has μ .obs] {o s c b put st} (h : Keeps μ o s) :
    Keeps μ o (State.tokenRefuse s c b put st) := by
  unfold State.tokenRefuse
  try dsimp only
  repeat' (first
    | with_reducible refine Keeps.ite (fun _ => ?_) (fun _ => ?_)
    | with_reducible assumption
    | with_reducible apply State.done_keeps
    | with_reducible apply State.noteAccess_keeps
    | fail_if_no_progress with_reducible refine Keeps.other ?_ rfl rfl rfl rfl rfl rfl rfl rfl rfl rfl rfl rfl rfl rfl rfl rfl rfl rfl rfl rfl rfl rfl rfl rfl rfl rfl rfl rfl rfl rfl rfl rfl
    | with_reducible refine Keeps.foldl ?_ ?_
    | with_reducible refine Keeps.foldl1 ?_ ?_
    | with_reducible refine Keeps.getD (fun _ _ => ?_) ?_
    | intro _
    | dsimp only
    | split)

theorem State.traceConfig_keeps {μ} [Has μ .obs] {o s b} (h : Keeps μ o s) :
    Keeps μ o (State.traceConfig s b) := by
  unfold State.traceConfig
  try dsimp only
  repeat' (first
    | with_reducible refine Keeps.ite (fun _ => ?_) (fun _ => ?_)
    | with_reducible assumption
    | fail_if_no_progress with_reducible refine Keeps.other ?_ rfl rfl rfl rfl rfl rfl rfl rfl rfl rfl rfl rfl rfl rfl rfl rfl rfl rfl rfl rfl rfl rfl rfl rfl rfl rfl rfl rfl rfl rfl rfl rfl
    | with_reducible refine Keeps.foldl ?_ ?_
    | with_reducible refine Keeps.foldl1 ?_ ?_
    | with_reducible refine Keeps.getD (fun _ _ => ?_) ?_
    | intro _
    | dsimp only
    | split)

theorem execBar2Read_keeps {μ} [Has μ .mem] [Has μ .codeErr] [Has μ .cores] [Has μ .stackSites] [Has μ .jobs] [Has μ .host] [Has μ .regs] [Has μ .clk] [Has μ .integ] [Has μ .obs] {offset len s} : ∃ t, execBar2Read offset len s = .next t ∧ Keeps μ s t := by
  refine ⟨_, rfl, ?_⟩
  try dsimp only
  have h := Keeps.refl (μ := μ) s
  repeat' (first
    | with_reducible refine Keeps.ite (fun _ => ?_) (fun _ => ?_)
    | with_reducible assumption
    | with_reducible apply State.hostGets_keeps
    | with_reducible apply State.bar2Refuse_keeps
    | with_reducible apply State.readStack_keeps
    | with_reducible refine State.readStack_keeps_eq (by assumption) ?_
    | fail_if_no_progress with_reducible refine Keeps.other ?_ rfl rfl rfl rfl rfl rfl rfl rfl rfl rfl rfl rfl rfl rfl rfl rfl rfl rfl rfl rfl rfl rfl rfl rfl rfl rfl rfl rfl rfl rfl rfl rfl
    | with_reducible refine Keeps.foldl ?_ ?_
    | with_reducible refine Keeps.foldl1 ?_ ?_
    | with_reducible refine Keeps.getD (fun _ _ => ?_) ?_
    | intro _
    | dsimp only
    | split)

theorem execBar2Write_keeps {μ} [Has μ .mem] [Has μ .codeErr] [Has μ .cores] [Has μ .stackSites] [Has μ .jobs] [Has μ .host] [Has μ .regs] [Has μ .clk] [Has μ .integ] [Has μ .obs] {offset data s} : ∃ t, execBar2Write offset data s = .next t ∧ Keeps μ s t := by
  refine ⟨_, rfl, ?_⟩
  try dsimp only
  have h := Keeps.refl (μ := μ) s
  repeat' (first
    | with_reducible refine Keeps.ite (fun _ => ?_) (fun _ => ?_)
    | with_reducible assumption
    | with_reducible apply State.bar2Refuse_keeps
    | with_reducible apply State.storeMerged_keeps
    | with_reducible apply State.touchRows_keeps
    | fail_if_no_progress with_reducible refine Keeps.other ?_ rfl rfl rfl rfl rfl rfl rfl rfl rfl rfl rfl rfl rfl rfl rfl rfl rfl rfl rfl rfl rfl rfl rfl rfl rfl rfl rfl rfl rfl rfl rfl rfl
    | with_reducible refine Keeps.foldl ?_ ?_
    | with_reducible refine Keeps.foldl1 ?_ ?_
    | with_reducible refine Keeps.getD (fun _ _ => ?_) ?_
    | intro _
    | dsimp only
    | split)

theorem execWindowSet_keeps {μ} [Has μ .freeIndex] [Has μ .host] [Has μ .regs] [Has μ .obs] {ring s} : ∃ t, execWindowSet ring s = .next t ∧ Keeps μ s t := by
  refine ⟨_, rfl, ?_⟩
  try dsimp only
  have h := Keeps.refl (μ := μ) s
  repeat' (first
    | with_reducible refine Keeps.ite (fun _ => ?_) (fun _ => ?_)
    | with_reducible assumption
    | with_reducible apply State.takeCommand_keeps
    | with_reducible apply State.done_keeps
    | fail_if_no_progress with_reducible refine Keeps.other ?_ rfl rfl rfl rfl rfl rfl rfl rfl rfl rfl rfl rfl rfl rfl rfl rfl rfl rfl rfl rfl rfl rfl rfl rfl rfl rfl rfl rfl rfl rfl rfl rfl
    | with_reducible refine Keeps.foldl ?_ ?_
    | with_reducible refine Keeps.foldl1 ?_ ?_
    | with_reducible refine Keeps.getD (fun _ _ => ?_) ?_
    | intro _
    | dsimp only
    | split)

theorem execTokenPut_keeps {μ} [Has μ .freeIndex] [Has μ .mem] [Has μ .codeErr] [Has μ .cores] [Has μ .net] [Has μ .stackSites] [Has μ .host] [Has μ .regs] [Has μ .obs] {ring s} : ∃ t, execTokenPut ring s = .next t ∧ Keeps μ s t := by
  refine ⟨_, rfl, ?_⟩
  try dsimp only
  have h := Keeps.refl (μ := μ) s
  repeat' (first
    | with_reducible refine Keeps.ite (fun _ => ?_) (fun _ => ?_)
    | with_reducible assumption
    | with_reducible apply State.takeCommand_keeps
    | with_reducible apply State.tokenRefuse_keeps
    | with_reducible apply State.tokenPut_keeps
    | fail_if_no_progress with_reducible refine Keeps.other ?_ rfl rfl rfl rfl rfl rfl rfl rfl rfl rfl rfl rfl rfl rfl rfl rfl rfl rfl rfl rfl rfl rfl rfl rfl rfl rfl rfl rfl rfl rfl rfl rfl
    | with_reducible refine Keeps.foldl ?_ ?_
    | with_reducible refine Keeps.foldl1 ?_ ?_
    | with_reducible refine Keeps.getD (fun _ _ => ?_) ?_
    | intro _
    | dsimp only
    | split)

theorem execTokenGet_keeps {μ} [Has μ .freeIndex] [Has μ .mem] [Has μ .codeErr] [Has μ .cores] [Has μ .net] [Has μ .wafer] [Has μ .stackSites] [Has μ .jobs] [Has μ .host] [Has μ .regs] [Has μ .clk] [Has μ .integ] [Has μ .obs] {ring s} : ∃ t, execTokenGet ring s = .next t ∧ Keeps μ s t := by
  refine ⟨_, rfl, ?_⟩
  try dsimp only
  have h := Keeps.refl (μ := μ) s
  repeat' (first
    | with_reducible refine Keeps.ite (fun _ => ?_) (fun _ => ?_)
    | with_reducible assumption
    | with_reducible apply State.takeCommand_keeps
    | with_reducible apply State.tokenRefuse_keeps
    | with_reducible apply State.tokenGet_keeps
    | fail_if_no_progress with_reducible refine Keeps.other ?_ rfl rfl rfl rfl rfl rfl rfl rfl rfl rfl rfl rfl rfl rfl rfl rfl rfl rfl rfl rfl rfl rfl rfl rfl rfl rfl rfl rfl rfl rfl rfl rfl
    | with_reducible refine Keeps.foldl ?_ ?_
    | with_reducible refine Keeps.foldl1 ?_ ?_
    | with_reducible refine Keeps.getD (fun _ _ => ?_) ?_
    | intro _
    | dsimp only
    | split)

theorem execCounterRead_keeps {μ} [Has μ .freeIndex] [Has μ .mem] [Has μ .jobs] [Has μ .host] [Has μ .regs] [Has μ .obs] {ring s} : ∃ t, execCounterRead ring s = .next t ∧ Keeps μ s t := by
  refine ⟨_, rfl, ?_⟩
  try dsimp only
  have h := Keeps.refl (μ := μ) s
  repeat' (first
    | with_reducible refine Keeps.ite (fun _ => ?_) (fun _ => ?_)
    | with_reducible assumption
    | with_reducible apply State.takeCommand_keeps
    | with_reducible apply State.done_keeps
    | with_reducible apply State.counterRead_keeps
    | fail_if_no_progress with_reducible refine Keeps.other ?_ rfl rfl rfl rfl rfl rfl rfl rfl rfl rfl rfl rfl rfl rfl rfl rfl rfl rfl rfl rfl rfl rfl rfl rfl rfl rfl rfl rfl rfl rfl rfl rfl
    | with_reducible refine Keeps.foldl ?_ ?_
    | with_reducible refine Keeps.foldl1 ?_ ?_
    | with_reducible refine Keeps.getD (fun _ _ => ?_) ?_
    | intro _
    | dsimp only
    | split)

theorem execTraceConfig_keeps {μ} [Has μ .freeIndex] [Has μ .host] [Has μ .regs] [Has μ .obs] {ring s} : ∃ t, execTraceConfig ring s = .next t ∧ Keeps μ s t := by
  refine ⟨_, rfl, ?_⟩
  try dsimp only
  have h := Keeps.refl (μ := μ) s
  repeat' (first
    | with_reducible refine Keeps.ite (fun _ => ?_) (fun _ => ?_)
    | with_reducible assumption
    | with_reducible apply State.takeCommand_keeps
    | with_reducible apply State.done_keeps
    | with_reducible apply State.traceConfig_keeps
    | fail_if_no_progress with_reducible refine Keeps.other ?_ rfl rfl rfl rfl rfl rfl rfl rfl rfl rfl rfl rfl rfl rfl rfl rfl rfl rfl rfl rfl rfl rfl rfl rfl rfl rfl rfl rfl rfl rfl rfl rfl
    | with_reducible refine Keeps.foldl ?_ ?_
    | with_reducible refine Keeps.foldl1 ?_ ?_
    | with_reducible refine Keeps.getD (fun _ _ => ?_) ?_
    | intro _
    | dsimp only
    | split)

theorem execEventRead_keeps {μ} [Has μ .freeIndex] [Has μ .mem] [Has μ .host] [Has μ .regs] [Has μ .obs] {ring s} : ∃ t, execEventRead ring s = .next t ∧ Keeps μ s t := by
  refine ⟨_, rfl, ?_⟩
  try dsimp only
  have h := Keeps.refl (μ := μ) s
  repeat' (first
    | with_reducible refine Keeps.ite (fun _ => ?_) (fun _ => ?_)
    | with_reducible assumption
    | with_reducible apply State.takeCommand_keeps
    | with_reducible apply State.done_keeps
    | with_reducible apply State.storeHost_keeps
    | fail_if_no_progress with_reducible refine Keeps.other ?_ rfl rfl rfl rfl rfl rfl rfl rfl rfl rfl rfl rfl rfl rfl rfl rfl rfl rfl rfl rfl rfl rfl rfl rfl rfl rfl rfl rfl rfl rfl rfl rfl
    | with_reducible refine Keeps.foldl ?_ ?_
    | with_reducible refine Keeps.foldl1 ?_ ?_
    | with_reducible refine Keeps.getD (fun _ _ => ?_) ?_
    | intro _
    | dsimp only
    | split)

theorem execEventClear_keeps {μ} [Has μ .freeIndex] [Has μ .host] [Has μ .regs] [Has μ .obs] {ring s} : ∃ t, execEventClear ring s = .next t ∧ Keeps μ s t := by
  refine ⟨_, rfl, ?_⟩
  try dsimp only
  have h := Keeps.refl (μ := μ) s
  repeat' (first
    | with_reducible refine Keeps.ite (fun _ => ?_) (fun _ => ?_)
    | with_reducible assumption
    | with_reducible apply State.takeCommand_keeps
    | with_reducible apply State.done_keeps
    | with_reducible apply State.clearLog_keeps
    | fail_if_no_progress with_reducible refine Keeps.other ?_ rfl rfl rfl rfl rfl rfl rfl rfl rfl rfl rfl rfl rfl rfl rfl rfl rfl rfl rfl rfl rfl rfl rfl rfl rfl rfl rfl rfl rfl rfl rfl rfl
    | with_reducible refine Keeps.foldl ?_ ?_
    | with_reducible refine Keeps.foldl1 ?_ ?_
    | with_reducible refine Keeps.getD (fun _ _ => ?_) ?_
    | intro _
    | dsimp only
    | split)

theorem execCperRead_keeps {μ} [Has μ .freeIndex] [Has μ .mem] [Has μ .host] [Has μ .regs] [Has μ .obs] {ring s} : ∃ t, execCperRead ring s = .next t ∧ Keeps μ s t := by
  refine ⟨_, rfl, ?_⟩
  try dsimp only
  have h := Keeps.refl (μ := μ) s
  repeat' (first
    | with_reducible refine Keeps.ite (fun _ => ?_) (fun _ => ?_)
    | with_reducible assumption
    | with_reducible apply State.takeCommand_keeps
    | with_reducible apply State.done_keeps
    | with_reducible apply State.storeHost_keeps
    | fail_if_no_progress with_reducible refine Keeps.other ?_ rfl rfl rfl rfl rfl rfl rfl rfl rfl rfl rfl rfl rfl rfl rfl rfl rfl rfl rfl rfl rfl rfl rfl rfl rfl rfl rfl rfl rfl rfl rfl rfl
    | with_reducible refine Keeps.foldl ?_ ?_
    | with_reducible refine Keeps.foldl1 ?_ ?_
    | with_reducible refine Keeps.getD (fun _ _ => ?_) ?_
    | intro _
    | dsimp only
    | split)

theorem execRepairRead_keeps {μ} [Has μ .freeIndex] [Has μ .mem] [Has μ .host] [Has μ .regs] [Has μ .obs] {ring s} : ∃ t, execRepairRead ring s = .next t ∧ Keeps μ s t := by
  refine ⟨_, rfl, ?_⟩
  try dsimp only
  have h := Keeps.refl (μ := μ) s
  repeat' (first
    | with_reducible refine Keeps.ite (fun _ => ?_) (fun _ => ?_)
    | with_reducible assumption
    | with_reducible apply State.takeCommand_keeps
    | with_reducible apply State.done_keeps
    | with_reducible apply State.storeHost_keeps
    | fail_if_no_progress with_reducible refine Keeps.other ?_ rfl rfl rfl rfl rfl rfl rfl rfl rfl rfl rfl rfl rfl rfl rfl rfl rfl rfl rfl rfl rfl rfl rfl rfl rfl rfl rfl rfl rfl rfl rfl rfl
    | with_reducible refine Keeps.foldl ?_ ?_
    | with_reducible refine Keeps.foldl1 ?_ ?_
    | with_reducible refine Keeps.getD (fun _ _ => ?_) ?_
    | intro _
    | dsimp only
    | split)

end Sys2Proof.Machine
end

