-- ==== Sys2Proof/Laws/KeepsSampling.lean ====
section
/-! SUPPORT. Every operation of Machine/Sampling.lean keeps the build, the queue and the form of memory. -/

set_option Elab.async false

set_option linter.unreachableTactic false
set_option linter.unusedTactic false

namespace Sys2Proof.Machine

theorem State.copyCheck_keeps {μ} [Has μ .cores] [Has μ .net] [Has μ .integ] [Has μ .obs] {o s core id entry bs} (h : Keeps μ o s) :
    Keeps μ o (State.copyCheck s core id entry bs) := by
  unfold State.copyCheck
  try dsimp only
  repeat' (first
    | with_reducible refine Keeps.ite (fun _ => ?_) (fun _ => ?_)
    | with_reducible assumption
    | with_reducible apply State.injectAll_keeps
    | with_reducible apply State.modCore_keeps
    | fail_if_no_progress with_reducible refine Keeps.other ?_ rfl rfl rfl rfl rfl rfl rfl rfl rfl rfl rfl rfl rfl rfl rfl rfl rfl rfl rfl rfl rfl rfl rfl rfl rfl rfl rfl rfl rfl rfl rfl rfl
    | with_reducible refine Keeps.foldl ?_ ?_
    | with_reducible refine Keeps.foldl1 ?_ ?_
    | with_reducible refine Keeps.getD (fun _ _ => ?_) ?_
    | intro _
    | dsimp only
    | split)

theorem State.copyDrawn_keeps {μ} [Has μ .cores] [Has μ .net] [Has μ .integ] [Has μ .obs] {o c bs} {q : State × Option Nat} (h : Keeps μ o q.1) : Keeps μ o (State.copyDrawn q c bs) := by
  unfold State.copyDrawn
  split
  · exact State.copyCheck_keeps h
  · exact h

theorem State.candidate_keeps {μ} [Has μ .regs] [Has μ .integ] [Has μ .obs] {o s kind sub core ordinal ctx released} (h : Keeps μ o s) :
    Keeps μ o (State.candidate s kind sub core ordinal ctx released).1 := by
  unfold State.candidate
  try dsimp only
  repeat' (first
    | with_reducible refine Keeps.ite (fun _ => ?_) (fun _ => ?_)
    | with_reducible assumption
    | with_reducible apply State.checkSkipped_keeps
    | fail_if_no_progress with_reducible refine Keeps.other ?_ rfl rfl rfl rfl rfl rfl rfl rfl rfl rfl rfl rfl rfl rfl rfl rfl rfl rfl rfl rfl rfl rfl rfl rfl rfl rfl rfl rfl rfl rfl rfl rfl
    | with_reducible refine Keeps.foldl ?_ ?_
    | with_reducible refine Keeps.foldl1 ?_ ?_
    | with_reducible refine Keeps.getD (fun _ _ => ?_) ?_
    | intro _
    | dsimp only
    | split)

theorem State.candidate_keeps_eq {μ} [Has μ .regs] [Has μ .integ] [Has μ .obs] {u0 v0} {o s kind sub core ordinal ctx released} (e : State.candidate s kind sub core ordinal ctx released = (u0, v0)) (h : Keeps μ o s) : Keeps μ o u0 := by
  have := State.candidate_keeps (μ := μ) (o := o) (s := s) (kind := kind) (sub := sub) (core := core) (ordinal := ordinal) (ctx := ctx) (released := released) h
  rw [e] at this
  exact this

theorem State.releaseCheck_keeps {μ} [Has μ .integ] {o s id} (h : Keeps μ o s) :
    Keeps μ o (State.releaseCheck s id) := by
  unfold State.releaseCheck
  try dsimp only
  repeat' (first
    | with_reducible refine Keeps.ite (fun _ => ?_) (fun _ => ?_)
    | with_reducible assumption
    | fail_if_no_progress with_reducible refine Keeps.other ?_ rfl rfl rfl rfl rfl rfl rfl rfl rfl rfl rfl rfl rfl rfl rfl rfl rfl rfl rfl rfl rfl rfl rfl rfl rfl rfl rfl rfl rfl rfl rfl rfl
    | with_reducible refine Keeps.foldl ?_ ?_
    | with_reducible refine Keeps.foldl1 ?_ ?_
    | with_reducible refine Keeps.getD (fun _ _ => ?_) ?_
    | intro _
    | dsimp only
    | split)

theorem State.sendBack_keeps {μ} [Has μ .cores] [Has μ .net] [Has μ .regs] [Has μ .integ] [Has μ .obs] {o s q} (h : Keeps μ o s) :
    Keeps μ o (State.sendBack s q) := by
  unfold State.sendBack
  try dsimp only
  repeat' (first
    | with_reducible refine Keeps.ite (fun _ => ?_) (fun _ => ?_)
    | with_reducible assumption
    | with_reducible apply State.injectAll_keeps
    | with_reducible apply State.abandonChecks_keeps
    | fail_if_no_progress with_reducible refine Keeps.other ?_ rfl rfl rfl rfl rfl rfl rfl rfl rfl rfl rfl rfl rfl rfl rfl rfl rfl rfl rfl rfl rfl rfl rfl rfl rfl rfl rfl rfl rfl rfl rfl rfl
    | with_reducible refine Keeps.foldl ?_ ?_
    | with_reducible refine Keeps.foldl1 ?_ ?_
    | with_reducible refine Keeps.getD (fun _ _ => ?_) ?_
    | intro _
    | dsimp only
    | split)

end Sys2Proof.Machine
end

