-- ==== Sys2Proof/Laws/KeepsMatrix.lean ====
section
/-! SUPPORT. Every operation of Machine/Matrix.lean keeps the build, the queue and the form of memory. -/

set_option Elab.async false

set_option linter.unreachableTactic false
set_option linter.unusedTactic false

namespace Sys2Proof.Machine

theorem State.countVerdict_keeps {μ} [Has μ .obs] {o s c k2 v} (h : Keeps μ o s) :
    Keeps μ o (State.countVerdict s c k2 v) := by
  unfold State.countVerdict
  try dsimp only
  repeat' (first
    | with_reducible refine Keeps.ite (fun _ => ?_) (fun _ => ?_)
    | with_reducible assumption
    | with_reducible apply State.bumpCore_keeps
    | fail_if_no_progress with_reducible refine Keeps.other ?_ rfl rfl rfl rfl rfl rfl rfl rfl rfl rfl rfl rfl rfl rfl rfl rfl rfl rfl rfl rfl rfl rfl rfl rfl rfl rfl rfl rfl rfl rfl rfl rfl
    | with_reducible refine Keeps.foldl ?_ ?_
    | with_reducible refine Keeps.foldl1 ?_ ?_
    | with_reducible refine Keeps.getD (fun _ _ => ?_) ?_
    | intro _
    | dsimp only
    | split)

theorem State.noteVerdict_keeps {μ} [Has μ .regs] [Has μ .integ] [Has μ .obs] {o s c d v} (h : Keeps μ o s) :
    Keeps μ o (State.noteVerdict s c d v) := by
  unfold State.noteVerdict
  try dsimp only
  repeat' (first
    | with_reducible refine Keeps.ite (fun _ => ?_) (fun _ => ?_)
    | with_reducible assumption
    | with_reducible apply State.trace_keeps
    | with_reducible apply State.countVerdict_keeps
    | with_reducible apply State.health_keeps
    | with_reducible apply State.record_keeps
    | fail_if_no_progress with_reducible refine Keeps.other ?_ rfl rfl rfl rfl rfl rfl rfl rfl rfl rfl rfl rfl rfl rfl rfl rfl rfl rfl rfl rfl rfl rfl rfl rfl rfl rfl rfl rfl rfl rfl rfl rfl
    | with_reducible refine Keeps.foldl ?_ ?_
    | with_reducible refine Keeps.foldl1 ?_ ?_
    | with_reducible refine Keeps.getD (fun _ _ => ?_) ?_
    | intro _
    | dsimp only
    | split)

theorem State.judge_keeps {μ} [Has μ .regs] [Has μ .integ] [Has μ .obs] {o s c d} (h : Keeps μ o s) :
    Keeps μ o (State.judge s c d).1 := by
  unfold State.judge
  try dsimp only
  repeat' (first
    | with_reducible refine Keeps.ite (fun _ => ?_) (fun _ => ?_)
    | with_reducible assumption
    | with_reducible apply State.noteVerdict_keeps
    | fail_if_no_progress with_reducible refine Keeps.other ?_ rfl rfl rfl rfl rfl rfl rfl rfl rfl rfl rfl rfl rfl rfl rfl rfl rfl rfl rfl rfl rfl rfl rfl rfl rfl rfl rfl rfl rfl rfl rfl rfl
    | with_reducible refine Keeps.foldl ?_ ?_
    | with_reducible refine Keeps.foldl1 ?_ ?_
    | with_reducible refine Keeps.getD (fun _ _ => ?_) ?_
    | intro _
    | dsimp only
    | split)

theorem State.judge_keeps_eq {μ} [Has μ .regs] [Has μ .integ] [Has μ .obs] {u0 v0} {o s c d} (e : State.judge s c d = (u0, v0)) (h : Keeps μ o s) : Keeps μ o u0 := by
  have := State.judge_keeps (μ := μ) (o := o) (s := s) (c := c) (d := d) h
  rw [e] at this
  exact this

theorem State.failTile_keeps {μ} [Has μ .mem] [Has μ .cores] [Has μ .jobs] [Has μ .host] [Has μ .regs] [Has μ .clk] [Has μ .integ] [Has μ .obs] {o s c d} (h : Keeps μ o s) :
    Keeps μ o (State.failTile s c d) := by
  unfold State.failTile
  try dsimp only
  repeat' (first
    | with_reducible refine Keeps.ite (fun _ => ?_) (fun _ => ?_)
    | with_reducible assumption
    | with_reducible apply State.modCore_keeps
    | with_reducible apply State.noteCheck_keeps
    | with_reducible apply State.lostCore_keeps
    | with_reducible apply State.classify_keeps
    | fail_if_no_progress with_reducible refine Keeps.other ?_ rfl rfl rfl rfl rfl rfl rfl rfl rfl rfl rfl rfl rfl rfl rfl rfl rfl rfl rfl rfl rfl rfl rfl rfl rfl rfl rfl rfl rfl rfl rfl rfl
    | with_reducible refine Keeps.foldl ?_ ?_
    | with_reducible refine Keeps.foldl1 ?_ ?_
    | with_reducible refine Keeps.getD (fun _ _ => ?_) ?_
    | intro _
    | dsimp only
    | split)

theorem State.releaseTile_keeps {μ} [Has μ .cores] [Has μ .net] [Has μ .integ] [Has μ .obs] {o s c t entry} (h : Keeps μ o s) :
    Keeps μ o (State.releaseTile s c t entry) := by
  unfold State.releaseTile
  try dsimp only
  repeat' (first
    | with_reducible refine Keeps.ite (fun _ => ?_) (fun _ => ?_)
    | with_reducible assumption
    | with_reducible apply State.releaseCheck_keeps
    | with_reducible apply State.copyCheck_keeps
    | fail_if_no_progress with_reducible refine Keeps.other ?_ rfl rfl rfl rfl rfl rfl rfl rfl rfl rfl rfl rfl rfl rfl rfl rfl rfl rfl rfl rfl rfl rfl rfl rfl rfl rfl rfl rfl rfl rfl rfl rfl
    | with_reducible refine Keeps.foldl ?_ ?_
    | with_reducible refine Keeps.foldl1 ?_ ?_
    | with_reducible refine Keeps.getD (fun _ _ => ?_) ?_
    | intro _
    | dsimp only
    | split)

theorem State.matCount_keeps {μ} [Has μ .obs] {o s c k2 sat special} (h : Keeps μ o s) :
    Keeps μ o (State.matCount s c k2 sat special) := by
  unfold State.matCount
  try dsimp only
  repeat' (first
    | with_reducible refine Keeps.ite (fun _ => ?_) (fun _ => ?_)
    | with_reducible assumption
    | with_reducible apply State.bumpCore_keeps
    | fail_if_no_progress with_reducible refine Keeps.other ?_ rfl rfl rfl rfl rfl rfl rfl rfl rfl rfl rfl rfl rfl rfl rfl rfl rfl rfl rfl rfl rfl rfl rfl rfl rfl rfl rfl rfl rfl rfl rfl rfl
    | with_reducible refine Keeps.foldl ?_ ?_
    | with_reducible refine Keeps.foldl1 ?_ ?_
    | with_reducible refine Keeps.getD (fun _ _ => ?_) ?_
    | intro _
    | dsimp only
    | split)

theorem State.sendTile_keeps {μ} [Has μ .cores] [Has μ .net] [Has μ .obs] {o s c e2 owner core off sem op ws} (h : Keeps μ o s) :
    Keeps μ o (State.sendTile s c e2 owner core off sem op ws) := by
  unfold State.sendTile
  try dsimp only
  repeat' (first
    | with_reducible refine Keeps.ite (fun _ => ?_) (fun _ => ?_)
    | with_reducible assumption
    | with_reducible apply State.injectAll_keeps
    | with_reducible apply State.modCore_keeps
    | fail_if_no_progress with_reducible refine Keeps.other ?_ rfl rfl rfl rfl rfl rfl rfl rfl rfl rfl rfl rfl rfl rfl rfl rfl rfl rfl rfl rfl rfl rfl rfl rfl rfl rfl rfl rfl rfl rfl rfl rfl
    | with_reducible refine Keeps.foldl ?_ ?_
    | with_reducible refine Keeps.foldl1 ?_ ?_
    | with_reducible refine Keeps.getD (fun _ _ => ?_) ?_
    | intro _
    | dsimp only
    | split)

theorem State.releaseTo_keeps {μ} [Has μ .cores] [Has μ .net] [Has μ .integ] [Has μ .obs] {o s c e2 t target} (h : Keeps μ o s) :
    Keeps μ o (State.releaseTo s c e2 t target) := by
  unfold State.releaseTo
  try dsimp only
  repeat' (first
    | with_reducible refine Keeps.ite (fun _ => ?_) (fun _ => ?_)
    | with_reducible assumption
    | with_reducible apply State.modCore_keeps
    | with_reducible apply State.releaseTile_keeps
    | with_reducible apply State.matCount_keeps
    | with_reducible apply State.sendTile_keeps
    | fail_if_no_progress with_reducible refine Keeps.other ?_ rfl rfl rfl rfl rfl rfl rfl rfl rfl rfl rfl rfl rfl rfl rfl rfl rfl rfl rfl rfl rfl rfl rfl rfl rfl rfl rfl rfl rfl rfl rfl rfl
    | with_reducible refine Keeps.foldl ?_ ?_
    | with_reducible refine Keeps.foldl1 ?_ ?_
    | with_reducible refine Keeps.getD (fun _ _ => ?_) ?_
    | intro _
    | dsimp only
    | split)

theorem State.carryVerdict_keeps {μ} [Has μ .mem] [Has μ .cores] [Has μ .net] [Has μ .jobs] [Has μ .host] [Has μ .regs] [Has μ .clk] [Has μ .integ] [Has μ .obs] {o s c d} (h : Keeps μ o s) :
    Keeps μ o (State.carryVerdict s c d) := by
  unfold State.carryVerdict
  try dsimp only
  repeat' (first
    | with_reducible refine Keeps.ite (fun _ => ?_) (fun _ => ?_)
    | with_reducible assumption
    | with_reducible apply State.judge_keeps
    | with_reducible refine State.judge_keeps_eq (by assumption) ?_
    | with_reducible apply State.setCore_keeps
    | with_reducible apply State.failTile_keeps
    | with_reducible apply State.releaseTo_keeps
    | fail_if_no_progress with_reducible refine Keeps.other ?_ rfl rfl rfl rfl rfl rfl rfl rfl rfl rfl rfl rfl rfl rfl rfl rfl rfl rfl rfl rfl rfl rfl rfl rfl rfl rfl rfl rfl rfl rfl rfl rfl
    | with_reducible refine Keeps.foldl ?_ ?_
    | with_reducible refine Keeps.foldl1 ?_ ?_
    | with_reducible refine Keeps.getD (fun _ _ => ?_) ?_
    | intro _
    | dsimp only
    | split)

theorem State.chainSum_keeps {μ} [Has μ .mem] [Has μ .codeErr] [Has μ .cores] [Has μ .net] [Has μ .wafer] [Has μ .jobs] [Has μ .host] [Has μ .regs] [Has μ .clk] [Has μ .integ] [Has μ .obs] {o s c x isem ioff go} (h : Keeps μ o s) (h5 : ∀ x0 x1, Keeps μ o x0 → Keeps μ o (go x0 x1)) :
    Keeps μ o (State.chainSum s c x isem ioff go) := by
  unfold State.chainSum
  refine Keeps.ite (fun _ => h) (fun _ => ?_)
  split
  · exact State.spadUncorrectable_keeps (State.spadRead_keeps_eq ‹_› h)
  · exact h5 _ _ (State.matCount_keeps (State.semTake_keeps (State.spadRead_keeps_eq ‹_› h)))

theorem State.checkRecord_keeps {μ} [Has μ .freeIndex] [Has μ .cores] [Has μ .net] [Has μ .integ] [Has μ .obs] {o s c} {q : State × Option Nat} (h : Keeps μ o q.1) : Keeps μ o (State.checkRecord s c q) := by
  unfold State.checkRecord
  split
  · exact h
  · exact State.copyCheck_keeps (Keeps.upd h rfl rfl rfl rfl id id)

theorem State.readLines_keeps {μ} [Has μ .mem] [Has μ .codeErr] [Has μ .cores] [Has μ .net] [Has μ .wafer] [Has μ .jobs] [Has μ .host] [Has μ .regs] [Has μ .clk] [Has μ .integ] [Has μ .obs] {o s c p K nb n} (h : Keeps μ o s) : Keeps μ o (State.readLines s c p K nb n).1 := by
  induction n with
  | zero => exact h
  | succ n ih =>
    unfold State.readLines
    split
    · rename_i e
      rw [e] at ih
      exact ih
    · rename_i e
      rw [e] at ih
      split
      · exact State.spadRead_keeps_eq ‹_› ih
      · have h2 := State.spadRead_keeps_eq ‹_› ih
        split
        · exact State.spadRead_keeps_eq ‹_› h2
        · exact State.spadRead_keeps_eq ‹_› h2

theorem State.readLines_keeps_eq {μ} [Has μ .mem] [Has μ .codeErr] [Has μ .cores] [Has μ .net] [Has μ .wafer] [Has μ .jobs] [Has μ .host] [Has μ .regs] [Has μ .clk] [Has μ .integ] [Has μ .obs] {o u v s c p K nb n} (e : State.readLines s c p K nb n = (u, v)) (h : Keeps μ o s) : Keeps μ o u := by
  have k := State.readLines_keeps (μ := μ) (o := o) (s := s) (c := c) (p := p) (K := K) (nb := nb) (n := n) h
  rw [e] at k
  exact k

theorem State.discardTile_keeps {μ} [Has μ .regs] [Has μ .integ] [Has μ .obs] {o s c} (h : Keeps μ o s) :
    Keeps μ o (State.discardTile s c) := by
  unfold State.discardTile
  try dsimp only
  repeat' (first
    | with_reducible refine Keeps.ite (fun _ => ?_) (fun _ => ?_)
    | with_reducible assumption
    | with_reducible apply State.record_keeps
    | with_reducible apply State.dropCheck_keeps
    | fail_if_no_progress with_reducible refine Keeps.other ?_ rfl rfl rfl rfl rfl rfl rfl rfl rfl rfl rfl rfl rfl rfl rfl rfl rfl rfl rfl rfl rfl rfl rfl rfl rfl rfl rfl rfl rfl rfl rfl rfl
    | with_reducible refine Keeps.foldl ?_ ?_
    | with_reducible refine Keeps.foldl1 ?_ ?_
    | with_reducible refine Keeps.getD (fun _ _ => ?_) ?_
    | intro _
    | dsimp only
    | split)

theorem State.openTile_keeps {μ} [Has μ .freeIndex] [Has μ .cores] [Has μ .net] [Has μ .regs] [Has μ .integ] [Has μ .obs] {o s c k2 acc sa sb} (h : Keeps μ o s) :
    Keeps μ o (State.openTile s c k2 acc sa sb).1 := by
  unfold State.openTile
  try dsimp only
  repeat' (first
    | with_reducible refine Keeps.ite (fun _ => ?_) (fun _ => ?_)
    | with_reducible assumption
    | with_reducible apply State.discardTile_keeps
    | with_reducible apply State.candidate_keeps
    | with_reducible refine State.candidate_keeps_eq (by assumption) ?_
    | with_reducible apply State.modCtx_keeps
    | with_reducible apply State.checkRecord_keeps
    | fail_if_no_progress with_reducible refine Keeps.other ?_ rfl rfl rfl rfl rfl rfl rfl rfl rfl rfl rfl rfl rfl rfl rfl rfl rfl rfl rfl rfl rfl rfl rfl rfl rfl rfl rfl rfl rfl rfl rfl rfl
    | with_reducible refine Keeps.foldl ?_ ?_
    | with_reducible refine Keeps.foldl1 ?_ ?_
    | with_reducible refine Keeps.getD (fun _ _ => ?_) ?_
    | intro _
    | dsimp only
    | split)

theorem State.openTile_keeps_eq {μ} [Has μ .freeIndex] [Has μ .cores] [Has μ .net] [Has μ .regs] [Has μ .integ] [Has μ .obs] {u0 v0} {o s c k2 acc sa sb} (e : State.openTile s c k2 acc sa sb = (u0, v0)) (h : Keeps μ o s) : Keeps μ o u0 := by
  have := State.openTile_keeps (μ := μ) (o := o) (s := s) (c := c) (k2 := k2) (acc := acc) (sa := sa) (sb := sb) h
  rw [e] at this
  exact this

theorem State.copyOperands_keeps {μ} [Has μ .cores] [Has μ .net] [Has μ .integ] [Has μ .obs] {o s c t l} (h : Keeps μ o s) :
    Keeps μ o (State.copyOperands s c t l) := by
  unfold State.copyOperands
  try dsimp only
  repeat' (first
    | with_reducible refine Keeps.ite (fun _ => ?_) (fun _ => ?_)
    | with_reducible assumption
    | with_reducible apply State.copyCheck_keeps
    | fail_if_no_progress with_reducible refine Keeps.other ?_ rfl rfl rfl rfl rfl rfl rfl rfl rfl rfl rfl rfl rfl rfl rfl rfl rfl rfl rfl rfl rfl rfl rfl rfl rfl rfl rfl rfl rfl rfl rfl rfl
    | with_reducible refine Keeps.foldl ?_ ?_
    | with_reducible refine Keeps.foldl1 ?_ ?_
    | with_reducible refine Keeps.getD (fun _ _ => ?_) ?_
    | intro _
    | dsimp only
    | split)

theorem State.logTile_keeps {μ} [Has μ .regs] [Has μ .integ] [Has μ .obs] {o s c t w} (h : Keeps μ o s) :
    Keeps μ o (State.logTile s c t w).1 := by
  unfold State.logTile
  try dsimp only
  repeat' (first
    | with_reducible refine Keeps.ite (fun _ => ?_) (fun _ => ?_)
    | with_reducible assumption
    | with_reducible apply State.checkSkipped_keeps
    | with_reducible apply State.dropCheck_keeps
    | fail_if_no_progress with_reducible refine Keeps.other ?_ rfl rfl rfl rfl rfl rfl rfl rfl rfl rfl rfl rfl rfl rfl rfl rfl rfl rfl rfl rfl rfl rfl rfl rfl rfl rfl rfl rfl rfl rfl rfl rfl
    | with_reducible refine Keeps.foldl ?_ ?_
    | with_reducible refine Keeps.foldl1 ?_ ?_
    | with_reducible refine Keeps.getD (fun _ _ => ?_) ?_
    | intro _
    | dsimp only
    | split)

theorem State.logTile_keeps_eq {μ} [Has μ .regs] [Has μ .integ] [Has μ .obs] {u0 v0} {o s c t w} (e : State.logTile s c t w = (u0, v0)) (h : Keeps μ o s) : Keeps μ o u0 := by
  have := State.logTile_keeps (μ := μ) (o := o) (s := s) (c := c) (t := t) (w := w) h
  rw [e] at this
  exact this

theorem State.multiply_keeps {μ} [Has μ .freeIndex] [Has μ .mem] [Has μ .codeErr] [Has μ .cores] [Has μ .net] [Has μ .wafer] [Has μ .jobs] [Has μ .host] [Has μ .regs] [Has μ .clk] [Has μ .integ] [Has μ .obs] {o s c k2 pc w x a b} (h : Keeps μ o s) :
    Keeps μ o (State.multiply s c k2 pc w x a b) := by
  unfold State.multiply
  try dsimp only
  repeat' (first
    | with_reducible refine Keeps.ite (fun _ => ?_) (fun _ => ?_)
    | with_reducible assumption
    | with_reducible apply State.readLines_keeps
    | with_reducible refine State.readLines_keeps_eq (by assumption) ?_
    | with_reducible apply State.spadUncorrectable_keeps
    | with_reducible apply State.openTile_keeps
    | with_reducible refine State.openTile_keeps_eq (by assumption) ?_
    | with_reducible apply State.copyOperands_keeps
    | with_reducible apply State.logTile_keeps
    | with_reducible refine State.logTile_keeps_eq (by assumption) ?_
    | with_reducible apply State.matCount_keeps
    | with_reducible apply State.modCore_keeps
    | fail_if_no_progress with_reducible refine Keeps.other ?_ rfl rfl rfl rfl rfl rfl rfl rfl rfl rfl rfl rfl rfl rfl rfl rfl rfl rfl rfl rfl rfl rfl rfl rfl rfl rfl rfl rfl rfl rfl rfl rfl
    | with_reducible refine Keeps.foldl ?_ ?_
    | with_reducible refine Keeps.foldl1 ?_ ?_
    | with_reducible refine Keeps.getD (fun _ _ => ?_) ?_
    | intro _
    | dsimp only
    | split)

theorem State.drainTile_keeps {μ} [Has μ .cores] [Has μ .regs] [Has μ .integ] [Has μ .obs] {o s c pc target word} (h : Keeps μ o s) :
    Keeps μ o (State.drainTile s c pc target word) := by
  unfold State.drainTile
  try dsimp only
  repeat' (first
    | with_reducible refine Keeps.ite (fun _ => ?_) (fun _ => ?_)
    | with_reducible assumption
    | with_reducible apply State.logTile_keeps
    | with_reducible refine State.logTile_keeps_eq (by assumption) ?_
    | with_reducible apply State.modCore_keeps
    | fail_if_no_progress with_reducible refine Keeps.other ?_ rfl rfl rfl rfl rfl rfl rfl rfl rfl rfl rfl rfl rfl rfl rfl rfl rfl rfl rfl rfl rfl rfl rfl rfl rfl rfl rfl rfl rfl rfl rfl rfl
    | with_reducible refine Keeps.foldl ?_ ?_
    | with_reducible refine Keeps.foldl1 ?_ ?_
    | with_reducible refine Keeps.getD (fun _ _ => ?_) ?_
    | intro _
    | dsimp only
    | split)

theorem State.openResumed_keeps {μ} [Has μ .cores] [Has μ .regs] [Has μ .integ] [Has μ .obs] {o s c k2 w bs} (h : Keeps μ o s) :
    Keeps μ o (State.openResumed s c k2 w bs) := by
  unfold State.openResumed
  try dsimp only
  repeat' (first
    | with_reducible refine Keeps.ite (fun _ => ?_) (fun _ => ?_)
    | with_reducible assumption
    | with_reducible apply State.logTile_keeps
    | with_reducible refine State.logTile_keeps_eq (by assumption) ?_
    | with_reducible apply State.matCount_keeps
    | with_reducible apply State.modCore_keeps
    | fail_if_no_progress with_reducible refine Keeps.other ?_ rfl rfl rfl rfl rfl rfl rfl rfl rfl rfl rfl rfl rfl rfl rfl rfl rfl rfl rfl rfl rfl rfl rfl rfl rfl rfl rfl rfl rfl rfl rfl rfl
    | with_reducible refine Keeps.foldl ?_ ?_
    | with_reducible refine Keeps.foldl1 ?_ ?_
    | with_reducible refine Keeps.getD (fun _ _ => ?_) ?_
    | intro _
    | dsimp only
    | split)

theorem State.resume_keeps {μ} [Has μ .mem] [Has μ .codeErr] [Has μ .cores] [Has μ .net] [Has μ .wafer] [Has μ .jobs] [Has μ .host] [Has μ .regs] [Has μ .clk] [Has μ .integ] [Has μ .obs] {o s c k2 pc w v} (h : Keeps μ o s) :
    Keeps μ o (State.resume s c k2 pc w v) := by
  unfold State.resume
  try dsimp only
  repeat' (first
    | with_reducible refine Keeps.ite (fun _ => ?_) (fun _ => ?_)
    | with_reducible assumption
    | with_reducible apply State.discardTile_keeps
    | with_reducible apply State.spadRead_keeps
    | with_reducible refine State.spadRead_keeps_eq (by assumption) ?_
    | with_reducible apply State.spadUncorrectable_keeps
    | with_reducible apply State.openResumed_keeps
    | with_reducible apply State.coreRead_keeps
    | with_reducible apply State.modCore_keeps
    | fail_if_no_progress with_reducible refine Keeps.other ?_ rfl rfl rfl rfl rfl rfl rfl rfl rfl rfl rfl rfl rfl rfl rfl rfl rfl rfl rfl rfl rfl rfl rfl rfl rfl rfl rfl rfl rfl rfl rfl rfl
    | with_reducible refine Keeps.foldl ?_ ?_
    | with_reducible refine Keeps.foldl1 ?_ ?_
    | with_reducible refine Keeps.getD (fun _ _ => ?_) ?_
    | intro _
    | dsimp only
    | split)

theorem State.runMatrix_keeps {μ} [Has μ .freeIndex] [Has μ .mem] [Has μ .codeErr] [Has μ .cores] [Has μ .net] [Has μ .wafer] [Has μ .jobs] [Has μ .host] [Has μ .regs] [Has μ .clk] [Has μ .integ] [Has μ .obs] {o s c k2 pc op w x} (h : Keeps μ o s) :
    Keeps μ o (State.runMatrix s c k2 pc op w x) := by
  unfold State.runMatrix
  try dsimp only
  repeat' (first
    | with_reducible refine Keeps.ite (fun _ => ?_) (fun _ => ?_)
    | with_reducible assumption
    | with_reducible apply State.multiply_keeps
    | with_reducible apply State.drainTile_keeps
    | with_reducible apply State.resume_keeps
    | fail_if_no_progress with_reducible refine Keeps.other ?_ rfl rfl rfl rfl rfl rfl rfl rfl rfl rfl rfl rfl rfl rfl rfl rfl rfl rfl rfl rfl rfl rfl rfl rfl rfl rfl rfl rfl rfl rfl rfl rfl
    | with_reducible refine Keeps.foldl ?_ ?_
    | with_reducible refine Keeps.foldl1 ?_ ?_
    | with_reducible refine Keeps.getD (fun _ _ => ?_) ?_
    | intro _
    | dsimp only
    | split)

theorem State.startNext_keeps {μ} [Has μ .freeIndex] [Has μ .mem] [Has μ .codeErr] [Has μ .cores] [Has μ .net] [Has μ .wafer] [Has μ .jobs] [Has μ .host] [Has μ .regs] [Has μ .clk] [Has μ .integ] [Has μ .obs] {o s c m} (h : Keeps μ o s) :
    Keeps μ o (State.startNext s c m) := by
  unfold State.startNext
  try dsimp only
  repeat' (first
    | with_reducible refine Keeps.ite (fun _ => ?_) (fun _ => ?_)
    | with_reducible assumption
    | with_reducible apply State.modCore_keeps
    | with_reducible apply State.runMatrix_keeps
    | with_reducible apply State.stateError_keeps
    | with_reducible apply State.modCtx_keeps
    | fail_if_no_progress with_reducible refine Keeps.other ?_ rfl rfl rfl rfl rfl rfl rfl rfl rfl rfl rfl rfl rfl rfl rfl rfl rfl rfl rfl rfl rfl rfl rfl rfl rfl rfl rfl rfl rfl rfl rfl rfl
    | with_reducible refine Keeps.foldl ?_ ?_
    | with_reducible refine Keeps.foldl1 ?_ ?_
    | with_reducible refine Keeps.getD (fun _ _ => ?_) ?_
    | intro _
    | dsimp only
    | split)

theorem State.matSettle_keeps {μ} [Has μ .freeIndex] [Has μ .mem] [Has μ .codeErr] [Has μ .cores] [Has μ .net] [Has μ .wafer] [Has μ .jobs] [Has μ .host] [Has μ .regs] [Has μ .clk] [Has μ .integ] [Has μ .obs] {o s c} (h : Keeps μ o s) :
    Keeps μ o (State.matSettle s c) := by
  unfold State.matSettle
  try dsimp only
  repeat' (first
    | with_reducible refine Keeps.ite (fun _ => ?_) (fun _ => ?_)
    | with_reducible assumption
    | with_reducible apply State.modCore_keeps
    | with_reducible apply State.startNext_keeps
    | fail_if_no_progress with_reducible refine Keeps.other ?_ rfl rfl rfl rfl rfl rfl rfl rfl rfl rfl rfl rfl rfl rfl rfl rfl rfl rfl rfl rfl rfl rfl rfl rfl rfl rfl rfl rfl rfl rfl rfl rfl
    | with_reducible refine Keeps.foldl ?_ ?_
    | with_reducible refine Keeps.foldl1 ?_ ?_
    | with_reducible refine Keeps.getD (fun _ _ => ?_) ?_
    | intro _
    | dsimp only
    | split)

theorem State.spillDone_keeps {μ} [Has μ .cores] [Has μ .net] [Has μ .integ] [Has μ .obs] {o s c t es} (h : Keeps μ o s) :
    Keeps μ o (State.spillDone s c t es) := by
  unfold State.spillDone
  try dsimp only
  repeat' (first
    | with_reducible refine Keeps.ite (fun _ => ?_) (fun _ => ?_)
    | with_reducible assumption
    | with_reducible apply State.releaseTile_keeps
    | with_reducible apply State.matCount_keeps
    | fail_if_no_progress with_reducible refine Keeps.other ?_ rfl rfl rfl rfl rfl rfl rfl rfl rfl rfl rfl rfl rfl rfl rfl rfl rfl rfl rfl rfl rfl rfl rfl rfl rfl rfl rfl rfl rfl rfl rfl rfl
    | with_reducible refine Keeps.foldl ?_ ?_
    | with_reducible refine Keeps.foldl1 ?_ ?_
    | with_reducible refine Keeps.getD (fun _ _ => ?_) ?_
    | intro _
    | dsimp only
    | split)

theorem State.spillToStack_keeps {μ} [Has μ .cores] [Has μ .net] [Has μ .integ] [Has μ .obs] {o s c d add addr old} (h : Keeps μ o s) :
    Keeps μ o (State.spillToStack s c d add addr old) := by
  unfold State.spillToStack
  try dsimp only
  repeat' (first
    | with_reducible refine Keeps.ite (fun _ => ?_) (fun _ => ?_)
    | with_reducible assumption
    | with_reducible apply State.spillDone_keeps
    | with_reducible apply State.coreWrite_keeps
    | fail_if_no_progress with_reducible refine Keeps.other ?_ rfl rfl rfl rfl rfl rfl rfl rfl rfl rfl rfl rfl rfl rfl rfl rfl rfl rfl rfl rfl rfl rfl rfl rfl rfl rfl rfl rfl rfl rfl rfl rfl
    | with_reducible refine Keeps.foldl ?_ ?_
    | with_reducible refine Keeps.foldl1 ?_ ?_
    | with_reducible refine Keeps.getD (fun _ _ => ?_) ?_
    | intro _
    | dsimp only
    | split)

theorem State.releaseSpill_keeps {μ} [Has μ .mem] [Has μ .codeErr] [Has μ .cores] [Has μ .net] [Has μ .wafer] [Has μ .jobs] [Has μ .host] [Has μ .regs] [Has μ .clk] [Has μ .integ] [Has μ .obs] {o s c d loc add addr} (h : Keeps μ o s) : Keeps μ o (State.releaseSpill s c d loc add addr) := by
  unfold State.releaseSpill
  split
  · have k0 := State.modCore_keeps (i := c) (f := fun y => { y with drain := none }) h
    have k1 : Keeps μ o (if add then (s.modCore c (fun y => { y with drain := none })).spadRead c addr 0x8000
        else (s.modCore c (fun y => { y with drain := none }), some [])).1 := by
      split
      · exact State.spadRead_keeps k0
      · exact k0
    dsimp only
    split
    · rename_i e
      rw [e] at k1
      exact State.spadUncorrectable_keeps k1
    · rename_i e
      rw [e] at k1
      exact State.store_keeps (State.spillDone_keeps k1)
  · have k0 := State.modCore_keeps (i := c) (f := fun y => { y with drain := some { d with spilled := true } }) h
    dsimp only
    split
    · exact State.coreRead_keeps k0
    · exact State.spillToStack_keeps k0

theorem State.noteMatrix_keeps {μ} [Has μ .regs] [Has μ .obs] {o s c op w x cause} (h : Keeps μ o s) :
    Keeps μ o (State.noteMatrix s c op w x cause) := by
  unfold State.noteMatrix
  try dsimp only
  repeat' (first
    | with_reducible refine Keeps.ite (fun _ => ?_) (fun _ => ?_)
    | with_reducible assumption
    | with_reducible apply State.noteBuffer_keeps
    | with_reducible apply State.unmapped_keeps
    | fail_if_no_progress with_reducible refine Keeps.other ?_ rfl rfl rfl rfl rfl rfl rfl rfl rfl rfl rfl rfl rfl rfl rfl rfl rfl rfl rfl rfl rfl rfl rfl rfl rfl rfl rfl rfl rfl rfl rfl rfl
    | with_reducible refine Keeps.foldl ?_ ?_
    | with_reducible refine Keeps.foldl1 ?_ ?_
    | with_reducible refine Keeps.getD (fun _ _ => ?_) ?_
    | intro _
    | dsimp only
    | split)

theorem State.matrixHead_keeps {μ} [Has μ .freeIndex] [Has μ .mem] [Has μ .codeErr] [Has μ .cores] [Has μ .net] [Has μ .wafer] [Has μ .jobs] [Has μ .host] [Has μ .regs] [Has μ .clk] [Has μ .integ] [Has μ .obs] {o s h1 op w legal} (h : Keeps μ o s) :
    Keeps μ o (State.matrixHead s h1 op w legal) := by
  unfold State.matrixHead
  try dsimp only
  repeat' (first
    | with_reducible refine Keeps.ite (fun _ => ?_) (fun _ => ?_)
    | with_reducible assumption
    | with_reducible apply State.onHead_keeps
    | with_reducible apply State.matSettle_keeps
    | with_reducible apply State.stateError_keeps
    | with_reducible apply State.noteMatrix_keeps
    | with_reducible apply State.taken_keeps
    | with_reducible apply State.modCore_keeps
    | with_reducible apply State.runMatrix_keeps
    | fail_if_no_progress with_reducible refine Keeps.other ?_ rfl rfl rfl rfl rfl rfl rfl rfl rfl rfl rfl rfl rfl rfl rfl rfl rfl rfl rfl rfl rfl rfl rfl rfl rfl rfl rfl rfl rfl rfl rfl rfl
    | with_reducible refine Keeps.foldl ?_ ?_
    | with_reducible refine Keeps.foldl1 ?_ ?_
    | with_reducible refine Keeps.getD (fun _ _ => ?_) ?_
    | intro _
    | dsimp only
    | split)

theorem State.tileVerdict_keeps {μ} [Has μ .mem] [Has μ .codeErr] [Has μ .cores] [Has μ .net] [Has μ .wafer] [Has μ .jobs] [Has μ .host] [Has μ .regs] [Has μ .clk] [Has μ .integ] [Has μ .obs] {o s c d} (h : Keeps μ o s) :
    Keeps μ o (State.tileVerdict s c d) := by
  unfold State.tileVerdict
  try dsimp only
  repeat' (first
    | with_reducible refine Keeps.ite (fun _ => ?_) (fun _ => ?_)
    | with_reducible assumption
    | with_reducible apply State.judge_keeps
    | with_reducible refine State.judge_keeps_eq (by assumption) ?_
    | with_reducible apply State.failTile_keeps
    | with_reducible apply State.releaseSpill_keeps
    | with_reducible apply State.carryVerdict_keeps
    | fail_if_no_progress with_reducible refine Keeps.other ?_ rfl rfl rfl rfl rfl rfl rfl rfl rfl rfl rfl rfl rfl rfl rfl rfl rfl rfl rfl rfl rfl rfl rfl rfl rfl rfl rfl rfl rfl rfl rfl rfl
    | with_reducible refine Keeps.foldl ?_ ?_
    | with_reducible refine Keeps.foldl1 ?_ ?_
    | with_reducible refine Keeps.getD (fun _ _ => ?_) ?_
    | intro _
    | dsimp only
    | split)

theorem State.xferRead_keeps {μ} [Has μ .freeIndex] [Has μ .mem] [Has μ .codeErr] [Has μ .cores] [Has μ .net] [Has μ .wafer] [Has μ .jobs] [Has μ .host] [Has μ .regs] [Has μ .clk] [Has μ .integ] [Has μ .obs] {o s c x} (h : Keeps μ o s) :
    Keeps μ o (State.xferRead s c x) := by
  unfold State.xferRead
  try dsimp only
  repeat' (first
    | with_reducible refine Keeps.ite (fun _ => ?_) (fun _ => ?_)
    | with_reducible assumption
    | with_reducible apply State.dropXfer_keeps
    | with_reducible apply State.xferLost_keeps
    | with_reducible apply State.matSettle_keeps
    | with_reducible apply State.openResumed_keeps
    | with_reducible apply State.modCore_keeps
    | with_reducible apply State.spillToStack_keeps
    | fail_if_no_progress with_reducible refine Keeps.other ?_ rfl rfl rfl rfl rfl rfl rfl rfl rfl rfl rfl rfl rfl rfl rfl rfl rfl rfl rfl rfl rfl rfl rfl rfl rfl rfl rfl rfl rfl rfl rfl rfl
    | with_reducible refine Keeps.foldl ?_ ?_
    | with_reducible refine Keeps.foldl1 ?_ ?_
    | with_reducible refine Keeps.getD (fun _ _ => ?_) ?_
    | intro _
    | dsimp only
    | split)

theorem State.xferGranule_keeps {μ} [Has μ .freeIndex] [Has μ .mem] [Has μ .codeErr] [Has μ .cores] [Has μ .net] [Has μ .wafer] [Has μ .jobs] [Has μ .host] [Has μ .regs] [Has μ .clk] [Has μ .integ] [Has μ .obs] {o s c x r f} (h : Keeps μ o s) :
    Keeps μ o (State.xferGranule s c x r f) := by
  unfold State.xferGranule
  try dsimp only
  repeat' (first
    | with_reducible refine Keeps.ite (fun _ => ?_) (fun _ => ?_)
    | with_reducible assumption
    | with_reducible apply State.putXfer_keeps
    | with_reducible apply State.xferRead_keeps
    | fail_if_no_progress with_reducible refine Keeps.other ?_ rfl rfl rfl rfl rfl rfl rfl rfl rfl rfl rfl rfl rfl rfl rfl rfl rfl rfl rfl rfl rfl rfl rfl rfl rfl rfl rfl rfl rfl rfl rfl rfl
    | with_reducible refine Keeps.foldl ?_ ?_
    | with_reducible refine Keeps.foldl1 ?_ ?_
    | with_reducible refine Keeps.getD (fun _ _ => ?_) ?_
    | intro _
    | dsimp only
    | split)

theorem State.xferRecord_keeps {μ} [Has μ .mem] [Has μ .cores] [Has μ .jobs] [Has μ .host] [Has μ .regs] [Has μ .clk] [Has μ .integ] [Has μ .obs] {o s c x r st} (h : Keeps μ o s) :
    Keeps μ o (State.xferRecord s c x r st) := by
  unfold State.xferRecord
  try dsimp only
  repeat' (first
    | with_reducible refine Keeps.ite (fun _ => ?_) (fun _ => ?_)
    | with_reducible assumption
    | with_reducible apply State.dropXfer_keeps
    | with_reducible apply State.putXfer_keeps
    | with_reducible apply State.xferLost_keeps
    | with_reducible apply State.stateError_keeps
    | with_reducible apply State.modCtx_keeps
    | fail_if_no_progress with_reducible refine Keeps.other ?_ rfl rfl rfl rfl rfl rfl rfl rfl rfl rfl rfl rfl rfl rfl rfl rfl rfl rfl rfl rfl rfl rfl rfl rfl rfl rfl rfl rfl rfl rfl rfl rfl
    | with_reducible refine Keeps.foldl ?_ ?_
    | with_reducible refine Keeps.foldl1 ?_ ?_
    | with_reducible refine Keeps.getD (fun _ _ => ?_) ?_
    | intro _
    | dsimp only
    | split)

theorem execMmul_keeps {μ} [Has μ .freeIndex] [Has μ .mem] [Has μ .codeErr] [Has μ .cores] [Has μ .net] [Has μ .wafer] [Has μ .jobs] [Has μ .host] [Has μ .regs] [Has μ .clk] [Has μ .integ] [Has μ .obs] {h0 w s} : ∃ t, execMmul h0 w s = .next t ∧ Keeps μ s t := by
  refine ⟨_, rfl, ?_⟩
  try dsimp only
  have h := Keeps.refl (μ := μ) s
  repeat' (first
    | with_reducible refine Keeps.ite (fun _ => ?_) (fun _ => ?_)
    | with_reducible assumption
    | with_reducible apply State.matrixHead_keeps
    | fail_if_no_progress with_reducible refine Keeps.other ?_ rfl rfl rfl rfl rfl rfl rfl rfl rfl rfl rfl rfl rfl rfl rfl rfl rfl rfl rfl rfl rfl rfl rfl rfl rfl rfl rfl rfl rfl rfl rfl rfl
    | with_reducible refine Keeps.foldl ?_ ?_
    | with_reducible refine Keeps.foldl1 ?_ ?_
    | with_reducible refine Keeps.getD (fun _ _ => ?_) ?_
    | intro _
    | dsimp only
    | split)

theorem execDrain_keeps {μ} [Has μ .freeIndex] [Has μ .mem] [Has μ .codeErr] [Has μ .cores] [Has μ .net] [Has μ .wafer] [Has μ .jobs] [Has μ .host] [Has μ .regs] [Has μ .clk] [Has μ .integ] [Has μ .obs] {h0 w s} : ∃ t, execDrain h0 w s = .next t ∧ Keeps μ s t := by
  refine ⟨_, rfl, ?_⟩
  try dsimp only
  have h := Keeps.refl (μ := μ) s
  repeat' (first
    | with_reducible refine Keeps.ite (fun _ => ?_) (fun _ => ?_)
    | with_reducible assumption
    | with_reducible apply State.matrixHead_keeps
    | fail_if_no_progress with_reducible refine Keeps.other ?_ rfl rfl rfl rfl rfl rfl rfl rfl rfl rfl rfl rfl rfl rfl rfl rfl rfl rfl rfl rfl rfl rfl rfl rfl rfl rfl rfl rfl rfl rfl rfl rfl
    | with_reducible refine Keeps.foldl ?_ ?_
    | with_reducible refine Keeps.foldl1 ?_ ?_
    | with_reducible refine Keeps.getD (fun _ _ => ?_) ?_
    | intro _
    | dsimp only
    | split)

theorem execSpill_keeps {μ} [Has μ .freeIndex] [Has μ .mem] [Has μ .codeErr] [Has μ .cores] [Has μ .net] [Has μ .wafer] [Has μ .jobs] [Has μ .host] [Has μ .regs] [Has μ .clk] [Has μ .integ] [Has μ .obs] {h0 w s} : ∃ t, execSpill h0 w s = .next t ∧ Keeps μ s t := by
  refine ⟨_, rfl, ?_⟩
  try dsimp only
  have h := Keeps.refl (μ := μ) s
  repeat' (first
    | with_reducible refine Keeps.ite (fun _ => ?_) (fun _ => ?_)
    | with_reducible assumption
    | with_reducible apply State.matrixHead_keeps
    | fail_if_no_progress with_reducible refine Keeps.other ?_ rfl rfl rfl rfl rfl rfl rfl rfl rfl rfl rfl rfl rfl rfl rfl rfl rfl rfl rfl rfl rfl rfl rfl rfl rfl rfl rfl rfl rfl rfl rfl rfl
    | with_reducible refine Keeps.foldl ?_ ?_
    | with_reducible refine Keeps.foldl1 ?_ ?_
    | with_reducible refine Keeps.getD (fun _ _ => ?_) ?_
    | intro _
    | dsimp only
    | split)

theorem execResume_keeps {μ} [Has μ .freeIndex] [Has μ .mem] [Has μ .codeErr] [Has μ .cores] [Has μ .net] [Has μ .wafer] [Has μ .jobs] [Has μ .host] [Has μ .regs] [Has μ .clk] [Has μ .integ] [Has μ .obs] {h0 w s} : ∃ t, execResume h0 w s = .next t ∧ Keeps μ s t := by
  refine ⟨_, rfl, ?_⟩
  try dsimp only
  have h := Keeps.refl (μ := μ) s
  repeat' (first
    | with_reducible refine Keeps.ite (fun _ => ?_) (fun _ => ?_)
    | with_reducible assumption
    | with_reducible apply State.matrixHead_keeps
    | fail_if_no_progress with_reducible refine Keeps.other ?_ rfl rfl rfl rfl rfl rfl rfl rfl rfl rfl rfl rfl rfl rfl rfl rfl rfl rfl rfl rfl rfl rfl rfl rfl rfl rfl rfl rfl rfl rfl rfl rfl
    | with_reducible refine Keeps.foldl ?_ ?_
    | with_reducible refine Keeps.foldl1 ?_ ?_
    | with_reducible refine Keeps.getD (fun _ _ => ?_) ?_
    | intro _
    | dsimp only
    | split)

theorem execTileVerdict_keeps {μ} [Has μ .freeIndex] [Has μ .mem] [Has μ .codeErr] [Has μ .cores] [Has μ .net] [Has μ .wafer] [Has μ .jobs] [Has μ .host] [Has μ .regs] [Has μ .clk] [Has μ .integ] [Has μ .obs] {core s} : ∃ t, execTileVerdict core s = .next t ∧ Keeps μ s t := by
  refine ⟨_, rfl, ?_⟩
  try dsimp only
  have h := Keeps.refl (μ := μ) s
  repeat' (first
    | with_reducible refine Keeps.ite (fun _ => ?_) (fun _ => ?_)
    | with_reducible assumption
    | with_reducible apply State.matSettle_keeps
    | with_reducible apply State.tileVerdict_keeps
    | fail_if_no_progress with_reducible refine Keeps.other ?_ rfl rfl rfl rfl rfl rfl rfl rfl rfl rfl rfl rfl rfl rfl rfl rfl rfl rfl rfl rfl rfl rfl rfl rfl rfl rfl rfl rfl rfl rfl rfl rfl
    | with_reducible refine Keeps.foldl ?_ ?_
    | with_reducible refine Keeps.foldl1 ?_ ?_
    | with_reducible refine Keeps.getD (fun _ _ => ?_) ?_
    | intro _
    | dsimp only
    | split)

theorem execChainStep_keeps {μ} [Has μ .mem] [Has μ .codeErr] [Has μ .cores] [Has μ .net] [Has μ .wafer] [Has μ .jobs] [Has μ .host] [Has μ .regs] [Has μ .clk] [Has μ .integ] [Has μ .obs] {core entry s} : ∃ t, execChainStep core entry s = .next t ∧ Keeps μ s t := by
  refine ⟨_, rfl, ?_⟩
  try dsimp only
  have h := Keeps.refl (μ := μ) s
  repeat' (first
    | with_reducible refine Keeps.ite (fun _ => ?_) (fun _ => ?_)
    | with_reducible assumption
    | with_reducible apply State.chainSum_keeps
    | with_reducible apply State.modCore_keeps
    | with_reducible apply State.sendTile_keeps
    | fail_if_no_progress with_reducible refine Keeps.other ?_ rfl rfl rfl rfl rfl rfl rfl rfl rfl rfl rfl rfl rfl rfl rfl rfl rfl rfl rfl rfl rfl rfl rfl rfl rfl rfl rfl rfl rfl rfl rfl rfl
    | with_reducible refine Keeps.foldl ?_ ?_
    | with_reducible refine Keeps.foldl1 ?_ ?_
    | with_reducible refine Keeps.getD (fun _ _ => ?_) ?_
    | intro _
    | dsimp only
    | split)

end Sys2Proof.Machine
end

