-- ==== Sys2Proof/Laws/KeepsTemper.lean ====
section
/-! SUPPORT. Every operation of Machine/Temper.lean keeps the build, the queue and the form of memory. -/

set_option Elab.async false

set_option linter.unreachableTactic false
set_option linter.unusedTactic false

namespace Sys2Proof.Machine

theorem State.temperResult_keeps {μ} [Has μ .cores] [Has μ .net] [Has μ .regs] [Has μ .obs] {o s site q st elems sat special} (h : Keeps μ o s) :
    Keeps μ o (State.temperResult s site q st elems sat special) := by
  unfold State.temperResult
  try dsimp only
  repeat' (first
    | with_reducible refine Keeps.ite (fun _ => ?_) (fun _ => ?_)
    | with_reducible assumption
    | with_reducible apply State.deliver_keeps
    | with_reducible apply State.record_keeps
    | fail_if_no_progress with_reducible refine Keeps.other ?_ rfl rfl rfl rfl rfl rfl rfl rfl rfl rfl rfl rfl rfl rfl rfl rfl rfl rfl rfl rfl rfl rfl rfl rfl rfl rfl rfl rfl rfl rfl rfl rfl
    | with_reducible refine Keeps.foldl ?_ ?_
    | with_reducible refine Keeps.foldl1 ?_ ?_
    | with_reducible refine Keeps.getD (fun _ _ => ?_) ?_
    | intro _
    | dsimp only
    | split)

theorem State.temperReport_keeps {μ} [Has μ .jobs] [Has μ .host] [Has μ .regs] {o s site j st special} (h : Keeps μ o s) :
    Keeps μ o (State.temperReport s site j st special) := by
  unfold State.temperReport
  try dsimp only
  repeat' (first
    | with_reducible refine Keeps.ite (fun _ => ?_) (fun _ => ?_)
    | with_reducible assumption
    | with_reducible apply State.setStep_keeps
    | fail_if_no_progress with_reducible refine Keeps.other ?_ rfl rfl rfl rfl rfl rfl rfl rfl rfl rfl rfl rfl rfl rfl rfl rfl rfl rfl rfl rfl rfl rfl rfl rfl rfl rfl rfl rfl rfl rfl rfl rfl
    | with_reducible refine Keeps.foldl ?_ ?_
    | with_reducible refine Keeps.foldl1 ?_ ?_
    | with_reducible refine Keeps.getD (fun _ _ => ?_) ?_
    | intro _
    | dsimp only
    | split)

theorem State.acceptTemper_keeps {μ} [Has μ .cores] [Has μ .net] [Has μ .stackSites] [Has μ .jobs] [Has μ .host] [Has μ .regs] [Has μ .obs] {o s r j} (h : Keeps μ o s) :
    Keeps μ o (State.acceptTemper s r j) := by
  unfold State.acceptTemper
  try dsimp only
  repeat' (first
    | with_reducible refine Keeps.ite (fun _ => ?_) (fun _ => ?_)
    | with_reducible assumption
    | with_reducible apply State.temperResult_keeps
    | with_reducible apply State.temperReport_keeps
    | with_reducible apply State.modStack_keeps
    | fail_if_no_progress with_reducible refine Keeps.other ?_ rfl rfl rfl rfl rfl rfl rfl rfl rfl rfl rfl rfl rfl rfl rfl rfl rfl rfl rfl rfl rfl rfl rfl rfl rfl rfl rfl rfl rfl rfl rfl rfl
    | with_reducible refine Keeps.foldl ?_ ?_
    | with_reducible refine Keeps.foldl1 ?_ ?_
    | with_reducible refine Keeps.getD (fun _ _ => ?_) ?_
    | intro _
    | dsimp only
    | split)

theorem State.plane_keeps {μ} [Has μ .mem] [Has μ .codeErr] [Has μ .cores] [Has μ .stackSites] [Has μ .jobs] [Has μ .host] [Has μ .regs] [Has μ .clk] [Has μ .integ] [Has μ .obs] {o s use a size n} (h : Keeps μ o s) :
    Keeps μ o (State.plane s use a size n).1 := by
  unfold State.plane
  try dsimp only
  repeat' (first
    | with_reducible refine Keeps.ite (fun _ => ?_) (fun _ => ?_)
    | with_reducible assumption
    | with_reducible apply State.readStack_keeps
    | with_reducible refine State.readStack_keeps_eq (by assumption) ?_
    | fail_if_no_progress with_reducible refine Keeps.other ?_ rfl rfl rfl rfl rfl rfl rfl rfl rfl rfl rfl rfl rfl rfl rfl rfl rfl rfl rfl rfl rfl rfl rfl rfl rfl rfl rfl rfl rfl rfl rfl rfl
    | with_reducible refine Keeps.foldl ?_ ?_
    | with_reducible refine Keeps.foldl1 ?_ ?_
    | with_reducible refine Keeps.getD (fun _ _ => ?_) ?_
    | intro _
    | dsimp only
    | split)

theorem State.plane_keeps_eq {μ} [Has μ .mem] [Has μ .codeErr] [Has μ .cores] [Has μ .stackSites] [Has μ .jobs] [Has μ .host] [Has μ .regs] [Has μ .clk] [Has μ .integ] [Has μ .obs] {u0 v0} {o s use a size n} (e : State.plane s use a size n = (u0, v0)) (h : Keeps μ o s) : Keeps μ o u0 := by
  have := State.plane_keeps (μ := μ) (o := o) (s := s) (use := use) (a := a) (size := size) (n := n) h
  rw [e] at this
  exact this

theorem State.publishGranule_keeps {μ} [Has μ .mem] [Has μ .codeErr] {o s b p e3 xs t} (h : Keeps μ o s) :
    Keeps μ o (State.publishGranule s b p e3 xs t).1 := by
  unfold State.publishGranule
  try dsimp only
  repeat' (first
    | with_reducible refine Keeps.ite (fun _ => ?_) (fun _ => ?_)
    | with_reducible assumption
    | with_reducible apply State.store_keeps
    | fail_if_no_progress with_reducible refine Keeps.other ?_ rfl rfl rfl rfl rfl rfl rfl rfl rfl rfl rfl rfl rfl rfl rfl rfl rfl rfl rfl rfl rfl rfl rfl rfl rfl rfl rfl rfl rfl rfl rfl rfl
    | with_reducible refine Keeps.foldl ?_ ?_
    | with_reducible refine Keeps.foldl1 ?_ ?_
    | with_reducible refine Keeps.getD (fun _ _ => ?_) ?_
    | intro _
    | dsimp only
    | split)

theorem State.publishGranule_keeps_eq {μ} [Has μ .mem] [Has μ .codeErr] {u0 v0} {o s b p e3 xs t} (e : State.publishGranule s b p e3 xs t = (u0, v0)) (h : Keeps μ o s) : Keeps μ o u0 := by
  have := State.publishGranule_keeps (μ := μ) (o := o) (s := s) (b := b) (p := p) (e3 := e3) (xs := xs) (t := t) h
  rw [e] at this
  exact this

theorem State.temperGranule_keeps {μ} [Has μ .mem] [Has μ .codeErr] [Has μ .cores] [Has μ .stackSites] [Has μ .jobs] [Has μ .host] [Has μ .regs] [Has μ .clk] [Has μ .integ] [Has μ .obs] {o s q b e3 n t} (h : Keeps μ o s) :
    Keeps μ o (State.temperGranule s q b e3 n t).1 := by
  unfold State.temperGranule
  try dsimp only
  repeat' (first
    | with_reducible refine Keeps.ite (fun _ => ?_) (fun _ => ?_)
    | with_reducible assumption
    | with_reducible apply State.plane_keeps
    | with_reducible refine State.plane_keeps_eq (by assumption) ?_
    | with_reducible apply State.store_keeps
    | with_reducible apply State.publishGranule_keeps
    | with_reducible refine State.publishGranule_keeps_eq (by assumption) ?_
    | fail_if_no_progress with_reducible refine Keeps.other ?_ rfl rfl rfl rfl rfl rfl rfl rfl rfl rfl rfl rfl rfl rfl rfl rfl rfl rfl rfl rfl rfl rfl rfl rfl rfl rfl rfl rfl rfl rfl rfl rfl
    | with_reducible refine Keeps.foldl ?_ ?_
    | with_reducible refine Keeps.foldl1 ?_ ?_
    | with_reducible refine Keeps.getD (fun _ _ => ?_) ?_
    | intro _
    | dsimp only
    | split)

theorem State.temperGranule_keeps_eq {μ} [Has μ .mem] [Has μ .codeErr] [Has μ .cores] [Has μ .stackSites] [Has μ .jobs] [Has μ .host] [Has μ .regs] [Has μ .clk] [Has μ .integ] [Has μ .obs] {u0 v0} {o s q b e3 n t} (e : State.temperGranule s q b e3 n t = (u0, v0)) (h : Keeps μ o s) : Keeps μ o u0 := by
  have := State.temperGranule_keeps (μ := μ) (o := o) (s := s) (q := q) (b := b) (e3 := e3) (n := n) (t := t) h
  rw [e] at this
  exact this

theorem State.temperGranules_keeps {μ} [Has μ .mem] [Has μ .codeErr] [Has μ .cores] [Has μ .stackSites] [Has μ .jobs] [Has μ .host] [Has μ .regs] [Has μ .clk] [Has μ .integ] [Has μ .obs] {o s q b l t k} (h : Keeps μ o s) : Keeps μ o (State.temperGranules s q b l t k).1 := by
  induction l generalizing s t k with
  | nil => exact h
  | cons g r ih =>
    unfold State.temperGranules
    dsimp only
    split
    · exact h
    · split
      · exact State.temperGranule_keeps h
      · exact ih (State.temperGranule_keeps h)

theorem State.temperGranules_keeps_eq {μ} [Has μ .mem] [Has μ .codeErr] [Has μ .cores] [Has μ .stackSites] [Has μ .jobs] [Has μ .host] [Has μ .regs] [Has μ .clk] [Has μ .integ] [Has μ .obs] {o u v s q b l t k} (e : State.temperGranules s q b l t k = (u, v)) (h : Keeps μ o s) : Keeps μ o u := by
  have k := State.temperGranules_keeps (μ := μ) (o := o) (s := s) (q := q) (b := b) (l := l) (t := t) (k := k) h
  rw [e] at k
  exact k

theorem State.temperShare_keeps {μ} [Has μ .mem] [Has μ .codeErr] [Has μ .cores] [Has μ .stackSites] [Has μ .jobs] [Has μ .host] [Has μ .regs] [Has μ .clk] [Has μ .integ] [Has μ .obs] {o s site q limit} (h : Keeps μ o s) :
    Keeps μ o (State.temperShare s site q limit).1 := by
  unfold State.temperShare
  try dsimp only
  repeat' (first
    | with_reducible refine Keeps.ite (fun _ => ?_) (fun _ => ?_)
    | with_reducible assumption
    | with_reducible apply State.readStack_keeps
    | with_reducible refine State.readStack_keeps_eq (by assumption) ?_
    | with_reducible apply State.temperGranules_keeps
    | with_reducible refine State.temperGranules_keeps_eq (by assumption) ?_
    | fail_if_no_progress with_reducible refine Keeps.other ?_ rfl rfl rfl rfl rfl rfl rfl rfl rfl rfl rfl rfl rfl rfl rfl rfl rfl rfl rfl rfl rfl rfl rfl rfl rfl rfl rfl rfl rfl rfl rfl rfl
    | with_reducible refine Keeps.foldl ?_ ?_
    | with_reducible refine Keeps.foldl1 ?_ ?_
    | with_reducible refine Keeps.getD (fun _ _ => ?_) ?_
    | intro _
    | dsimp only
    | split)

theorem State.temperShare_keeps_eq {μ} [Has μ .mem] [Has μ .codeErr] [Has μ .cores] [Has μ .stackSites] [Has μ .jobs] [Has μ .host] [Has μ .regs] [Has μ .clk] [Has μ .integ] [Has μ .obs] {u0 v0} {o s site q limit} (e : State.temperShare s site q limit = (u0, v0)) (h : Keeps μ o s) : Keeps μ o u0 := by
  have := State.temperShare_keeps (μ := μ) (o := o) (s := s) (site := site) (q := q) (limit := limit) h
  rw [e] at this
  exact this

theorem State.temperWaits_keeps {μ} [Has μ .stackSites] {o s site q y} (h : Keeps μ o s) :
    Keeps μ o (State.temperWaits s site q y) := by
  unfold State.temperWaits
  try dsimp only
  repeat' (first
    | with_reducible refine Keeps.ite (fun _ => ?_) (fun _ => ?_)
    | with_reducible assumption
    | with_reducible apply State.modStack_keeps
    | fail_if_no_progress with_reducible refine Keeps.other ?_ rfl rfl rfl rfl rfl rfl rfl rfl rfl rfl rfl rfl rfl rfl rfl rfl rfl rfl rfl rfl rfl rfl rfl rfl rfl rfl rfl rfl rfl rfl rfl rfl
    | with_reducible refine Keeps.foldl ?_ ?_
    | with_reducible refine Keeps.foldl1 ?_ ?_
    | with_reducible refine Keeps.getD (fun _ _ => ?_) ?_
    | intro _
    | dsimp only
    | split)

theorem State.temperStops_keeps {μ} [Has μ .freeIndex] [Has μ .mem] [Has μ .codeErr] [Has μ .cores] [Has μ .stackSites] [Has μ .jobs] [Has μ .host] [Has μ .regs] [Has μ .clk] [Has μ .integ] [Has μ .obs] {o s site} (h : Keeps μ o s) :
    Keeps μ o (State.temperStops s site) := by
  unfold State.temperStops
  try dsimp only
  repeat' (first
    | with_reducible refine Keeps.ite (fun _ => ?_) (fun _ => ?_)
    | with_reducible assumption
    | with_reducible apply State.temperShare_keeps
    | with_reducible refine State.temperShare_keeps_eq (by assumption) ?_
    | with_reducible apply State.temperWaits_keeps
    | fail_if_no_progress with_reducible refine Keeps.other ?_ rfl rfl rfl rfl rfl rfl rfl rfl rfl rfl rfl rfl rfl rfl rfl rfl rfl rfl rfl rfl rfl rfl rfl rfl rfl rfl rfl rfl rfl rfl rfl rfl
    | with_reducible refine Keeps.foldl ?_ ?_
    | with_reducible refine Keeps.foldl1 ?_ ?_
    | with_reducible refine Keeps.getD (fun _ _ => ?_) ?_
    | intro _
    | dsimp only
    | split)

theorem State.serveTemper_keeps {μ} [Has μ .cores] [Has μ .net] [Has μ .stackSites] [Has μ .jobs] [Has μ .host] [Has μ .regs] [Has μ .obs] {o s r} (h : Keeps μ o s) :
    Keeps μ o (State.serveTemper s r) := by
  unfold State.serveTemper
  try dsimp only
  repeat' (first
    | with_reducible refine Keeps.ite (fun _ => ?_) (fun _ => ?_)
    | with_reducible assumption
    | with_reducible apply State.stackAnswer_keeps
    | with_reducible apply State.temperResult_keeps
    | with_reducible apply State.acceptTemper_keeps
    | with_reducible apply State.markUnsafe_keeps
    | fail_if_no_progress with_reducible refine Keeps.other ?_ rfl rfl rfl rfl rfl rfl rfl rfl rfl rfl rfl rfl rfl rfl rfl rfl rfl rfl rfl rfl rfl rfl rfl rfl rfl rfl rfl rfl rfl rfl rfl rfl
    | with_reducible refine Keeps.foldl ?_ ?_
    | with_reducible refine Keeps.foldl1 ?_ ?_
    | with_reducible refine Keeps.getD (fun _ _ => ?_) ?_
    | intro _
    | dsimp only
    | split)

theorem State.temperEnds_keeps {μ} [Has μ .cores] [Has μ .net] [Has μ .stackSites] [Has μ .jobs] [Has μ .host] [Has μ .regs] [Has μ .obs] {o s site q st t} (h : Keeps μ o s) :
    Keeps μ o (State.temperEnds s site q st t) := by
  unfold State.temperEnds
  try dsimp only
  repeat' (first
    | with_reducible refine Keeps.ite (fun _ => ?_) (fun _ => ?_)
    | with_reducible assumption
    | with_reducible apply State.modStack_keeps
    | with_reducible apply State.keepSat_keeps
    | with_reducible apply State.bumpSite_keeps
    | with_reducible apply State.temperResult_keeps
    | with_reducible apply State.temperReport_keeps
    | fail_if_no_progress with_reducible refine Keeps.other ?_ rfl rfl rfl rfl rfl rfl rfl rfl rfl rfl rfl rfl rfl rfl rfl rfl rfl rfl rfl rfl rfl rfl rfl rfl rfl rfl rfl rfl rfl rfl rfl rfl
    | with_reducible refine Keeps.foldl ?_ ?_
    | with_reducible refine Keeps.foldl1 ?_ ?_
    | with_reducible refine Keeps.getD (fun _ _ => ?_) ?_
    | intro _
    | dsimp only
    | split)

theorem State.temperDone_keeps {μ} [Has μ .mem] [Has μ .codeErr] [Has μ .cores] [Has μ .net] [Has μ .stackSites] [Has μ .jobs] [Has μ .host] [Has μ .regs] [Has μ .clk] [Has μ .integ] [Has μ .obs] {o s site q} (h : Keeps μ o s) :
    Keeps μ o (State.temperDone s site q) := by
  unfold State.temperDone
  try dsimp only
  repeat' (first
    | with_reducible refine Keeps.ite (fun _ => ?_) (fun _ => ?_)
    | with_reducible assumption
    | with_reducible apply State.temperShare_keeps
    | with_reducible refine State.temperShare_keeps_eq (by assumption) ?_
    | with_reducible apply State.temperWaits_keeps
    | with_reducible apply State.temperEnds_keeps
    | fail_if_no_progress with_reducible refine Keeps.other ?_ rfl rfl rfl rfl rfl rfl rfl rfl rfl rfl rfl rfl rfl rfl rfl rfl rfl rfl rfl rfl rfl rfl rfl rfl rfl rfl rfl rfl rfl rfl rfl rfl
    | with_reducible refine Keeps.foldl ?_ ?_
    | with_reducible refine Keeps.foldl1 ?_ ?_
    | with_reducible refine Keeps.getD (fun _ _ => ?_) ?_
    | intro _
    | dsimp only
    | split)

theorem execTemper_keeps {μ} [Has μ .cores] [Has μ .net] [Has μ .wafer] [Has μ .stackSites] [Has μ .jobs] [Has μ .host] [Has μ .regs] [Has μ .obs] {f s} : ∃ t, execTemper f s = .next t ∧ Keeps μ s t := by
  refine ⟨_, rfl, ?_⟩
  try dsimp only
  have h := Keeps.refl (μ := μ) s
  repeat' (first
    | with_reducible refine Keeps.ite (fun _ => ?_) (fun _ => ?_)
    | with_reducible assumption
    | with_reducible apply State.onArrival_keeps
    | with_reducible apply State.serveTemper_keeps
    | fail_if_no_progress with_reducible refine Keeps.other ?_ rfl rfl rfl rfl rfl rfl rfl rfl rfl rfl rfl rfl rfl rfl rfl rfl rfl rfl rfl rfl rfl rfl rfl rfl rfl rfl rfl rfl rfl rfl rfl rfl
    | with_reducible refine Keeps.foldl ?_ ?_
    | with_reducible refine Keeps.foldl1 ?_ ?_
    | with_reducible refine Keeps.getD (fun _ _ => ?_) ?_
    | intro _
    | dsimp only
    | split)

theorem execTemperShareDone_keeps {μ} [Has μ .mem] [Has μ .codeErr] [Has μ .cores] [Has μ .net] [Has μ .stackSites] [Has μ .jobs] [Has μ .host] [Has μ .regs] [Has μ .clk] [Has μ .integ] [Has μ .obs] {site s} : ∃ t, execTemperShareDone site s = .next t ∧ Keeps μ s t := by
  refine ⟨_, rfl, ?_⟩
  try dsimp only
  have h := Keeps.refl (μ := μ) s
  repeat' (first
    | with_reducible refine Keeps.ite (fun _ => ?_) (fun _ => ?_)
    | with_reducible assumption
    | with_reducible apply State.temperDone_keeps
    | fail_if_no_progress with_reducible refine Keeps.other ?_ rfl rfl rfl rfl rfl rfl rfl rfl rfl rfl rfl rfl rfl rfl rfl rfl rfl rfl rfl rfl rfl rfl rfl rfl rfl rfl rfl rfl rfl rfl rfl rfl
    | with_reducible refine Keeps.foldl ?_ ?_
    | with_reducible refine Keeps.foldl1 ?_ ?_
    | with_reducible refine Keeps.getD (fun _ _ => ?_) ?_
    | intro _
    | dsimp only
    | split)

end Sys2Proof.Machine
end

