-- ==== Sys2Proof/Laws/Mesh.lean ====
section
/-! SUPPORT. The management mesh: what stands at the field supervisors is served whole, so that an operation that finds the mesh
empty leaves it empty. -/

set_option Elab.async false

namespace Sys2Proof.Machine

/-- All parts of the state but the mesh. -/
def noMesh (p : Part) : Bool := decide (p ≠ .mesh)

/-- An operation that changes other parts alone leaves the mesh. -/
theorem State.mesh_kept {s t : State} (h : ∀ {μ : Part → Bool} [Has μ .time] [Has μ .freeIndex] [Has μ .mem] [Has μ .codeErr]
    [Has μ .interleave] [Has μ .cores] [Has μ .net] [Has μ .wafer] [Has μ .stackSites] [Has μ .jobs] [Has μ .fabric] [Has μ .host]
    [Has μ .regs] [Has μ .sec] [Has μ .clk] [Has μ .integ] [Has μ .recov] [Has μ .obs], Keeps μ s t) : t.mesh = s.mesh :=
  (@h noMesh ⟨rfl⟩ ⟨rfl⟩ ⟨rfl⟩ ⟨rfl⟩ ⟨rfl⟩ ⟨rfl⟩ ⟨rfl⟩ ⟨rfl⟩ ⟨rfl⟩ ⟨rfl⟩ ⟨rfl⟩ ⟨rfl⟩ ⟨rfl⟩ ⟨rfl⟩ ⟨rfl⟩ ⟨rfl⟩ ⟨rfl⟩ ⟨rfl⟩).on_mesh rfl

/-! ### A table whose every key is cleared -/

theorem Tab.get_key {l : Tab (List MeshMsg)} {k : Nat} {v : List MeshMsg} {b : Nat} (h : Tab.wfFrom [] b ((k, v) :: l) = true) :
    Tab.get [] ((k, v) :: l) k ≠ [] := by
  simp only [Tab.wfFrom, Bool.and_eq_true, decide_eq_true_eq] at h
  simp [Tab.get, h.1.2]

/-- A table in canonical form that reads as empty at each of its keys is empty. -/
theorem Tab.nil_of_get {l : Tab (List MeshMsg)} (h : Tab.wf [] l = true) (hg : ∀ k, Tab.get [] l k = []) : l = [] := by
  cases l with
  | nil => rfl
  | cons p r => exact absurd (hg p.1) (Tab.get_key h)

theorem Tab.clear_keys {l m : Tab (List MeshMsg)} {ks : List Nat} (h : Tab.wf [] l = true)
    (hm : m = ks.foldl (fun t k => Tab.set [] t k []) l) :
    Tab.wf [] m = true ∧ ∀ k, Tab.get [] m k = if k ∈ ks then [] else Tab.get [] l k := by
  subst hm
  induction ks generalizing l with
  | nil => exact ⟨h, fun k => by simp⟩
  | cons a r ih =>
    have q := ih (Tab.wf_set (d := []) (i := a) (v := []) h)
    refine ⟨q.1, fun k => ?_⟩
    rw [List.foldl_cons, q.2 k, Tab.get_set]
    by_cases e : k ∈ r
    · simp [e]
    · by_cases e2 : k = a <;> simp [e, e2]

/-- A key that a table does not list reads as the default. -/
theorem Tab.get_unlisted {l : Tab (List MeshMsg)} {k : Nat} (h : k ∉ l.map (·.1)) : Tab.get [] l k = [] := by
  induction l with
  | nil => rfl
  | cons p r ih =>
    rw [List.map_cons, List.mem_cons, not_or] at h
    simp [Tab.get, Ne.symm h.1, ih h.2]

/-! ### The operations of the mesh -/

theorem State.serveField_mesh {s : State} {f : Nat} : (s.serveField f).mesh = Tab.set [] s.mesh f [] := by
  have h : ∀ (u : State) (l : List MeshMsg) (ks : List MeshClass), (ks.foldl (fun a k => State.serveClass a f l k) u).mesh = u.mesh := by
    intro u l ks
    induction ks generalizing u with
    | nil => rfl
    | cons k r ih => exact (ih _).trans (State.mesh_kept (State.serveClass_keeps (Keeps.refl _)))
  exact h _ _ _

theorem State.serveFields_mesh {s : State} {fs : List Nat} :
    (fs.foldl State.serveField s).mesh = fs.foldl (fun t k => Tab.set [] t k []) s.mesh := by
  induction fs generalizing s with
  | nil => rfl
  | cons f r ih => rw [List.foldl_cons, ih, State.serveField_mesh, List.foldl_cons]

/-- Serving the mesh leaves nothing at any supervisor. -/
theorem State.serveMesh_mesh {s : State} (h : Tab.wf [] s.mesh = true) : s.serveMesh.mesh = [] := by
  have q := Tab.clear_keys h (State.serveFields_mesh (s := s) (fs := s.mesh.map (·.1)))
  refine Tab.nil_of_get q.1 (fun k => ?_)
  refine (q.2 k).trans ?_
  split
  · rfl
  · exact Tab.get_unlisted ‹_›

theorem State.post_wf {s : State} {f : Nat} {m : MeshMsg} (h : Tab.wf [] s.mesh = true) : Tab.wf [] (s.post f m).mesh = true :=
  Tab.wf_set h

/-- Messages to some supervisors keep the mesh's form. -/
theorem State.posts_wf {α : Type} {l : List α} {f : α → Nat} {m : α → MeshMsg} {s : State} (h : Tab.wf [] s.mesh = true) :
    Tab.wf [] (l.foldl (fun a x => a.post (f x) (m x)) s).mesh = true := by
  induction l generalizing s with
  | nil => exact h
  | cons x r ih => exact ih (State.post_wf h)

/-- The mesh is empty. -/
theorem State.wf_of_quiet {s : State} (h : s.mesh = []) : Tab.wf [] s.mesh = true := by rw [h]; rfl

theorem State.tell_quiet {s : State} {f : Nat} {m : MeshMsg} (h : s.mesh = []) : (s.tell f m).mesh = [] :=
  State.serveMesh_mesh (State.post_wf (State.wf_of_quiet h))

theorem State.startCores_quiet {s : State} {j : Nat} (h : s.mesh = []) : (s.startCores j).mesh = [] :=
  State.serveMesh_mesh (State.posts_wf (State.wf_of_quiet h))

theorem State.sendQuench_wf {s : State} {cause : Nat} {cmd : Option (Nat × Nat)} (h : Tab.wf [] s.mesh = true) :
    Tab.wf [] (s.sendQuench cause cmd).mesh = true := by
  unfold State.sendQuench
  dsimp only
  refine State.posts_wf ?_
  rw [State.mesh_kept (s := s)]
  · exact h
  · intro μ _ _ _ _ _ _ _ _ _ _ _ _ _ _ _ _ _ _
    refine Keeps.foldl ?_ (fun _ _ k => State.quenchJob_keeps k)
    exact Keeps.other (Keeps.refl s) rfl rfl rfl rfl rfl rfl rfl rfl rfl rfl rfl rfl rfl rfl rfl rfl rfl rfl rfl rfl rfl rfl rfl rfl
      rfl rfl rfl rfl rfl rfl rfl rfl

theorem State.startQuench_quiet {s : State} {cause : Nat} {cmd : Option (Nat × Nat)} (h : s.mesh = []) :
    (s.startQuench cause cmd).mesh = [] :=
  State.serveMesh_mesh (State.sendQuench_wf (State.wf_of_quiet h))

theorem State.bankAll_wf {s : State} (h : Tab.wf [] s.mesh = true) : Tab.wf [] s.bankAll.mesh = true := State.posts_wf h

theorem State.enterSafe_quiet {s : State} {cause : Nat} (h : s.mesh = []) : (s.enterSafe cause).mesh = [] := by
  have g : ∀ u : State, Tab.wf [] u.mesh = true → Tab.wf [] (((u.force 0 64).force 1 64).govern).mesh = true := by
    intro u hu
    rw [State.mesh_kept (State.govern_keeps (State.force_keeps (State.force_keeps (Keeps.refl u))))]
    exact hu
  unfold State.enterSafe
  split
  · exact h
  · dsimp only
    rw [State.mesh_kept (State.setDev_keeps (Keeps.refl _))]
    refine State.serveMesh_mesh ?_
    have w := State.wf_of_quiet h
    have q : Tab.wf [] (if (s.obs.quench.active || !s.obs.flashReady) = true then s else s.sendQuench 2 none).mesh = true := by
      split
      · exact w
      · exact State.sendQuench_wf w
    generalize (if (s.obs.quench.active || !s.obs.flashReady) = true then s else s.sendQuench 2 none) = u at q ⊢
    split
    · exact State.bankAll_wf (g u q)
    · exact g u q

theorem State.fieldOut_quiet {s : State} {f : Nat} (h : s.mesh = []) : (s.fieldOut f).mesh = [] := by
  have a : Tab.wf [] (s.dropField f).mesh = true := by
    rw [State.mesh_kept (State.dropField_keeps (Keeps.refl s))]
    exact State.wf_of_quiet h
  have b : ∀ u : State, u.mesh = [] → ((((List.range 8).foldl (fun a j => a.fieldLost j f) u).pauseFor f).noteDrains).mesh = [] := by
    intro u hu
    rw [State.mesh_kept (s := u)]
    · exact hu
    · intro μ _ _ _ _ _ _ _ _ _ _ _ _ _ _ _ _ _ _
      exact State.noteDrains_keeps (State.pauseFor_keeps (Keeps.foldl (Keeps.refl u) (fun _ _ k => State.fieldLost_keeps k)))
  unfold State.fieldOut
  dsimp only
  split
  · exact b _ (State.serveMesh_mesh (State.posts_wf a))
  · refine State.enterSafe_quiet ?_
    rw [State.mesh_kept (State.record_keeps (Keeps.refl _))]
    exact b _ (State.serveMesh_mesh (State.posts_wf a))

end Sys2Proof.Machine
end

