-- ==== Sys2Proof/Laws/Spad.lean ====
section
/-! SUPPORT. Scratchpad extents whose words are stored as their codewords: they read as they stand, and a store replaces them. -/

set_option Elab.async false

namespace Sys2Proof.Machine

theorem State.checkWords_clean {s : State} {l : List Nat} (h : ∀ w ∈ l, s.errOf w = 0) : s.checkWords l = ⟨[], none⟩ := by
  induction l with
  | nil => rfl
  | cons w r ih =>
    have e : s.errOf w = 0 := h w (List.mem_cons_self ..)
    simp only [State.checkWords, ih (fun v hv => h v (List.mem_cons_of_mem _ hv)), e]
    rfl

/-- Every byte of an extent lies in a word that the extent touches. -/
theorem mem_wordsOf {a n i : Nat} (h : i < n) : (a + i) / 32 ∈ wordsOf a n := by
  unfold wordsOf
  rw [if_neg (by omega)]
  refine List.mem_map.mpr ⟨(a + i) / 32 - a / 32, List.mem_range.mpr (by omega), by omega⟩

theorem State.delivered_clean {s : State} {a n : Nat} (h : ∀ w ∈ wordsOf a n, s.errOf w = 0) :
    s.delivered a n = s.bytes a n := by
  unfold State.delivered State.bytes Tab.getRange
  apply List.map_congr_left
  intro i hi
  have e := h _ (mem_wordsOf (a := a) (List.mem_range.mp hi))
  unfold State.deliveredByte
  rw [e]
  have z : symbolOf (wcDecode 0).2 ((a + i) % 32) = 0 := by
    have : (wcDecode 0).2 = 0 := rfl
    rw [this]
    unfold symbolOf
    simp
  rw [z]
  simp [State.byte]

/-- A clean extent reads as it stands. -/
theorem State.spadRead_clean {s : State} {c off n : Nat} (h : ∀ w ∈ wordsOf (windowAddr c off) n, s.errOf w = 0) :
    s.spadRead c off n = (s, some (s.bytes (windowAddr c off) n)) := by
  unfold State.spadRead
  simp only [State.checkWords_clean h, State.delivered_clean h, List.foldl_nil]

theorem mergeWords_sub {a n w : Nat} (h : w ∈ mergeWords a n) : w ∈ wordsOf a n := (List.mem_filter.mp h).1

theorem State.mergeOk_clean {s : State} {c off n : Nat} (h : ∀ w ∈ wordsOf (windowAddr c off) n, s.errOf w = 0) :
    s.mergeOk c off n = true := by
  unfold State.mergeOk
  rw [State.checkWords_clean (fun w hw => h w (mergeWords_sub hw))]
  rfl

/-- A store over a clean extent is a plain store. -/
theorem State.spadStore_clean {s : State} {c off : Nat} {bs : List Byte}
    (h : ∀ w ∈ wordsOf (windowAddr c off) bs.length, s.errOf w = 0) :
    s.spadStore c off bs = s.store (windowAddr c off) bs := by
  unfold State.spadStore
  simp only [State.checkWords_clean (fun w hw => h w (mergeWords_sub hw)), List.foldl_nil]

/-- An aligned extent of 8 bytes lies in one word. -/
theorem wordsOf_eight {a : Nat} (h : a % 8 = 0) : wordsOf a 8 = [a / 32] := by
  unfold wordsOf
  have e : (a + 8 - 1) / 32 + 1 - a / 32 = 1 := by omega
  rw [if_neg (by decide), e]
  rfl

end Sys2Proof.Machine
end

