-- ==== Sys2Proof/Laws/Vector.lean ====
section
/-! SUPPORT. What a vector instruction leaves: the laws of its counts, its sampled check and its write. -/

set_option Elab.async false

namespace Sys2Proof.Machine

/-- Only records, counters, and two counts of one context have changed. -/
structure Counted (s t : State) (c k : Nat) (nonfin : Nat) : Prop where
  frame : t = { s with cores := t.cores, obs := t.obs, regs := t.regs }
  core : t.core c = { s.core c with ctxs := (t.core c).ctxs }
  others : ∀ d, d ≠ c → t.core d = s.core d
  ctxs : ∀ j, j ≠ k → t.ctx c j = s.ctx c j
  ctx : t.ctx c k = { s.ctx c k with
    firstNonfinite := (t.ctx c k).firstNonfinite
    nonfinite := (if nonfin = 0 then (s.ctx c k).nonfinite else min ((s.ctx c k).nonfinite + nonfin) (2 ^ 32 - 1)) }

theorem Counted.refl {s : State} {c k : Nat} : Counted s s c k 0 := ⟨rfl, rfl, fun _ _ => rfl, fun _ _ => rfl, rfl⟩

theorem Counted.after {s t u : State} {c k n : Nat} (a : Counted s t c k 0) (b : Counted t u c k n) : Counted s u c k n := by
  obtain ⟨f1, c1, o1, x1, y1⟩ := a
  obtain ⟨f2, c2, o2, x2, y2⟩ := b
  refine ⟨by rw [f2, f1], by rw [c2, c1], fun d h => (o2 d h).trans (o1 d h), fun j h => (x2 j h).trans (x1 j h), ?_⟩
  rw [y2, y1]
  rfl

theorem Counted.before {s t u : State} {c k n : Nat} (a : Counted s t c k n) (b : Counted t u c k 0) : Counted s u c k n := by
  obtain ⟨f1, c1, o1, x1, y1⟩ := a
  obtain ⟨f2, c2, o2, x2, y2⟩ := b
  refine ⟨by rw [f2, f1], by rw [c2, c1], fun d h => (o2 d h).trans (o1 d h), fun j h => (x2 j h).trans (x1 j h), ?_⟩
  rw [y2, y1]
  rfl

theorem Counted.of_cores {s t : State} {c k : Nat} (h : t = { s with obs := t.obs, regs := t.regs }) :
    Counted s t c k 0 := by
  have e : ∀ d, t.core d = s.core d := fun d => by rw [h]; rfl
  have f : ∀ d j, t.ctx d j = s.ctx d j := fun d j => by rw [h]; rfl
  refine ⟨by rw [h], by rw [e], fun d _ => e d, fun j _ => f c j, ?_⟩
  rw [f]; rfl

theorem State.record_only {s : State} {e : EventKind} {src : Src} {l : List (Nat × Nat)} :
    s.record e src l = { s with obs := (s.record e src l).obs, regs := (s.record e src l).regs } := by
  have h : ∀ t : State, t.cores = s.cores → t.pending = s.pending → t.time = s.time → t.freeIndex = s.freeIndex →
      t.build = s.build → t.mem = s.mem → t.codeErr = s.codeErr → t.interleave = s.interleave → t.net = s.net →
      t.wafer = s.wafer → t.stackSites = s.stackSites → t.jobs = s.jobs → t.fabric = s.fabric → t.host = s.host →
      t.sec = s.sec → t.clk = s.clk → t.integ = s.integ → t.recov = s.recov → t.mesh = s.mesh →
      t = { s with obs := t.obs, regs := t.regs } := by
    intro t; intros; cases t; cases s; simp_all
  exact h _ (by simp) (by simp) (by simp) (by simp) (by simp) (by simp) (by simp) (by simp) (by simp) (by simp) (by simp)
    (by simp) (by simp) (by simp) (by simp) (by simp) (by simp) (by simp) (by simp)

theorem Counted.bump {s : State} {c k w n : Nat} : Counted s (s.bumpCore c w n) c k 0 := Counted.of_cores rfl

theorem Counted.record {s : State} {c k : Nat} {e : EventKind} {src : Src} {l : List (Nat × Nat)} :
    Counted s (s.record e src l) c k 0 := by
  apply Counted.of_cores
  rw [State.record_only]

theorem Counted.nonfinite {s : State} {c k pc n : Nat} : Counted s (s.countNonfinite c k pc n) c k n := by
  unfold State.countNonfinite
  split
  · rename_i h; subst h; exact Counted.refl
  · rename_i h
    dsimp only
    have step : Counted s ((s.modCtx c k (fun y =>
        { y with nonfinite := min (y.nonfinite + n) 0xFFFFFFFF, firstNonfinite := true })).bumpCore c (vecNonfiniteWord k) n) c k n := by
      refine Counted.before ?_ Counted.bump
      refine ⟨rfl, ?_, ?_, ?_, ?_⟩
      · simp [State.modCtx, Core.setCtx]
      · intro d hd; simp [State.modCtx, State.core_modCore_ne hd]
      · intro j hj; exact State.ctx_modCtx_ne hj
      · rw [State.ctx_modCtx_same, if_neg h]; rfl
    split
    · exact step
    · exact step.before Counted.record

theorem Counted.vecCounts {s : State} {c k pc : Nat} {o : VOut} : Counted s (s.vecCounts c k pc o) c k o.nonfin := by
  unfold State.vecCounts
  dsimp only
  refine Counted.after ?_ Counted.nonfinite
  have h : ∀ (t : State) (w n : Nat), Counted t (if n = 0 then t else t.bumpCore c w n) c k 0 := by
    intro t w n; split
    · exact Counted.refl
    · exact Counted.bump
  exact Counted.after (Counted.after (h _ _ _) (h _ _ _)) (h _ _ _)

/-! ### The sampled check of an instruction (R416, R421) -/

/-- A sample changes of the cores only its own core's check area position, tile queue and drain buffer. -/
structure Sampled (s t : State) (c : Nat) : Prop where
  others : ∀ d, d ≠ c → t.core d = s.core d
  core : t.core c = { s.core c with checkPos := (t.core c).checkPos, tq := (t.core c).tq, drain := (t.core c).drain }

theorem Sampled.of_cores {s t : State} {c : Nat} (h : t.cores = s.cores) : Sampled s t c := by
  have e : ∀ d, t.core d = s.core d := fun d => State.core_congr h d
  exact ⟨fun d _ => e d, by rw [e]⟩

theorem Sampled.trans {s t u : State} {c : Nat} (a : Sampled s t c) (b : Sampled t u c) : Sampled s u c :=
  ⟨fun d h => (b.others d h).trans (a.others d h), by rw [b.core, a.core]⟩

theorem Sampled.mod {s : State} {c : Nat} {f : Core → Core}
    (h : ∀ y, f y = { y with checkPos := (f y).checkPos, tq := (f y).tq, drain := (f y).drain }) : Sampled s (s.modCore c f) c :=
  ⟨fun _ hd => State.core_modCore_ne hd, by rw [State.core_modCore_same]; exact h _⟩

theorem Sampled.foldl {α : Type} {c : Nat} {f : State → α → State} (h : ∀ s x, Sampled s (f s x) c) (l : List α) :
    ∀ s, Sampled s (l.foldl f s) c := by
  induction l with
  | nil => exact fun s => Sampled.of_cores rfl
  | cons x r ih => exact fun s => (h s x).trans (ih (f s x))

theorem Sampled.freeSent {s : State} {c : Nat} : Sampled s (s.freeSent c) c := by
  unfold State.freeSent
  dsimp only
  have k := Sampled.foldl (c := c) (f := fun a e =>
    if ((a.core c).entry e).st = .sending && !a.stillSends c e then a.modCore c (fun k => k.setEntry e {}) else a)
    (fun a e => by
      split
      · exact Sampled.mod (fun _ => rfl)
      · exact Sampled.of_cores rfl) (List.range 4) s
  split
  · exact k.trans (Sampled.mod (fun _ => rfl))
  · exact k

/-- What changes no core at all. -/
def coresFixed : Part → Bool := fun p => decide (p ≠ .cores)

theorem Sampled.admitOne {s : State} {c : Nat} {x : Flight} : Sampled s (s.admitOne x) c := by
  have : Has coresFixed .net := ⟨rfl⟩
  have : Has coresFixed .obs := ⟨rfl⟩
  exact Sampled.of_cores ((State.admitOne_keeps (μ := coresFixed) (Keeps.refl s)).on_cores rfl)

theorem Sampled.offer {s : State} {c : Nat} {entry : Option Nat} {at_ : Nat} {f : Flit} : Sampled s (s.offer entry at_ f) c := by
  have : Has coresFixed .net := ⟨rfl⟩
  have : Has coresFixed .obs := ⟨rfl⟩
  exact Sampled.of_cores ((State.offer_keeps (μ := coresFixed) (Keeps.refl s)).on_cores rfl)

theorem Sampled.injectAll {s : State} {c : Nat} {entry : Option Nat} {fs : List Flit} : Sampled s (s.injectAll entry c fs) c := by
  unfold State.injectAll State.admitAt
  exact ((Sampled.foldl (fun _ _ => Sampled.offer) fs s).trans (Sampled.foldl (fun _ _ => Sampled.admitOne) _ _)).trans
    Sampled.freeSent

theorem Sampled.copyCheck {s : State} {c id : Nat} {entry : Option Nat} {bs : List Byte} :
    Sampled s (s.copyCheck c id entry bs) c := by
  unfold State.copyCheck
  split
  · exact Sampled.of_cores rfl
  · dsimp only
    generalize hn : ({ s with integ := _ } : State) = t
    have k : Sampled s t c := Sampled.of_cores (by rw [← hn])
    exact (k.trans (Sampled.mod (fun _ => rfl))).trans Sampled.injectAll

theorem Sampled.candidate {s : State} {c kind sub core ord x : Nat} {r : Bool} :
    Sampled s (s.candidate kind sub core ord x r).1 c := by
  have : Has coresFixed .regs := ⟨rfl⟩
  have : Has coresFixed .integ := ⟨rfl⟩
  have : Has coresFixed .obs := ⟨rfl⟩
  exact Sampled.of_cores ((State.candidate_keeps (μ := coresFixed) (Keeps.refl s)).on_cores rfl)

theorem Sampled.copySample {q : State × Option Nat} {c : Nat} {bs : List Byte} : Sampled q.1 (State.copySample q c bs) c := by
  have : Has coresFixed .regs := ⟨rfl⟩
  have : Has coresFixed .integ := ⟨rfl⟩
  have : Has coresFixed .obs := ⟨rfl⟩
  unfold State.copySample
  split
  · exact Sampled.of_cores rfl
  · split
    · exact Sampled.of_cores
        ((State.checkSkipped_keeps (μ := coresFixed) (State.dropCheck_keeps (Keeps.refl q.1))).on_cores rfl)
    · exact Sampled.copyCheck

/-- The sampled check of an instruction leaves the tile registers, every scalar register, and the other cores and contexts. -/
theorem State.vecSample_leaves {s : State} {c k : Nat} {bs : List Byte} :
    ((s.vecSample c k bs).core c).tregs = (s.core c).tregs ∧
    (∀ r, ((s.vecSample c k bs).ctx c k).reg r = (s.ctx c k).reg r) ∧
    (∀ d, d ≠ c → (s.vecSample c k bs).core d = s.core d) ∧
    ∀ j, j ≠ k → (s.vecSample c k bs).ctx c j = s.ctx c j := by
  unfold State.vecSample
  split
  · dsimp only
    have a : Sampled s (State.copySample (s.candidate ckVector k c (s.ctx c k).vecOrdinal k true) c bs) c :=
      Sampled.candidate.trans Sampled.copySample
    generalize State.copySample (s.candidate ckVector k c (s.ctx c k).vecOrdinal k true) c bs = t at a
    have x : ∀ j, t.ctx c j = s.ctx c j := fun j => by unfold State.ctx; rw [a.core]; rfl
    refine ⟨?_, ?_, ?_, ?_⟩
    · rw [State.modCtx, State.core_modCore_same, a.core]; rfl
    · intro r
      rw [State.ctx_modCtx_same, x]; rfl
    · intro d hd
      rw [State.modCtx, State.core_modCore_ne hd, a.others d hd]
    · intro j hj
      rw [State.ctx_modCtx_ne hj, x]
  · exact ⟨rfl, fun _ => rfl, fun _ _ => rfl, fun _ _ => rfl⟩

/-! ### Elements of the tile registers -/

/-- What a list of element writes leaves at an index of the table. -/
def elemsAfter (old : Nat → Word32) (tb : Nat) (es : List (Nat × Word32)) (i : Nat) : Word32 :=
  es.foldl (fun v p => if i = 1024 * tb + p.1 then p.2 else v) (old i)

theorem Core.setElems_get {c : Core} {tb : Nat} {es : List (Nat × Word32)} (i : Nat) :
    Tab.get 0 (c.setElems tb es).tregs i = elemsAfter (fun i => Tab.get 0 c.tregs i) tb es i := by
  have h : ∀ (es : List (Nat × Word32)) (t : Tab Word32),
      Tab.get 0 (es.foldl (fun t p => Tab.set 0 t (1024 * tb + p.1) p.2) t) i =
        es.foldl (fun v p => if i = 1024 * tb + p.1 then p.2 else v) (Tab.get 0 t i) := by
    intro es
    induction es with
    | nil => intro t; rfl
    | cons p r ih => intro t; simp only [List.foldl_cons]; rw [ih, Tab.get_set]
  exact h es c.tregs

/-- Writing elements 0 to n - 1 in order is writing a group. -/
theorem elemsAfter_range {old : Nat → Word32} {tb n : Nat} {f : Nat → Word32} :
    elemsAfter old tb ((List.range n).map (fun m => (m, f m))) = withGroup old tb n f := by
  funext i
  unfold elemsAfter withGroup
  induction n with
  | zero => simp
  | succ n ih =>
    rw [List.range_succ, List.map_append, List.foldl_append, ih]
    simp only [List.map_cons, List.map_nil, List.foldl_cons, List.foldl_nil]
    by_cases e : i = 1024 * tb + n
    · subst e
      rw [if_pos rfl, if_pos (by omega)]
      congr 1; omega
    · rw [if_neg e]
      by_cases g : 1024 * tb ≤ i ∧ i < 1024 * tb + n
      · rw [if_pos g, if_pos (by omega)]
      · rw [if_neg g, if_neg (by omega)]

theorem indexed_map {n : Nat} {f : Nat → Word32} : indexed ((List.range n).map f) = (List.range n).map (fun m => (m, f m)) := by
  unfold indexed
  apply List.ext_getElem
  · simp
  · intro i h1 h2; simp

/-! ### The write -/

/-- A popped entry: FREE, or SENDING while flits of it have not been injected. -/
def freedEntry (s : State) (c e : Nat) : TqEntry := if s.stillSends c e then { (s.core c).entry e with st := .sending } else {}

/-- An entry after a pop. -/
def poppedEntry (s : State) (c k : Nat) (pop : Bool) (e : Nat) : TqEntry :=
  if pop = true ∧ (s.core c).headEntry k = some e then freedEntry s c e else (s.core c).entry e

theorem Core.setElems_only {c : Core} {tb : Nat} {es : List (Nat × Word32)} :
    c.setElems tb es = { c with tregs := (c.setElems tb es).tregs } := rfl

/-- The state after a write of elements and a pop. -/
def State.afterWrite (s : State) (c : Nat) (w : VecWord) (n k : Nat) (o : VOut) : State :=
  let t := s.modCore c (fun y => (y.setElems w.d.toNat o.group).setElems (w.d.toNat + ceilDiv n 1024) o.ext)
  if w.pop then t.popHead c k else t

/-- It changes the tile registers and the tile queue of one core. -/
theorem State.afterWrite_core {s : State} {c : Nat} {w : VecWord} {n k : Nat} {o : VOut} :
    s.afterWrite c w n k o = { s with cores := (s.afterWrite c w n k o).cores } ∧
    (∀ d, d ≠ c → (s.afterWrite c w n k o).core d = s.core d) ∧
    (s.afterWrite c w n k o).core c = { s.core c with
      tregs := ((s.core c).setElems w.d.toNat o.group |>.setElems (w.d.toNat + ceilDiv n 1024) o.ext).tregs
      tq := ((s.afterWrite c w n k o).core c).tq } ∧
    ∀ e, ((s.afterWrite c w n k o).core c).entry e = poppedEntry s c k w.pop e := by
  unfold State.afterWrite
  dsimp only
  have hd : ∀ e, ((s.modCore c (fun y => (y.setElems w.d.toNat o.group).setElems (w.d.toNat + ceilDiv n 1024) o.ext)).core c).entry e =
      (s.core c).entry e := fun e => by rw [State.core_modCore_same]; rfl
  cases hp : w.pop with
  | false =>
    simp only [Bool.false_eq_true, if_false]
    refine ⟨rfl, fun d h => State.core_modCore_ne h, ?_, fun e => ?_⟩
    · rw [State.core_modCore_same]; rfl
    · rw [hd]; simp [poppedEntry]
  | true =>
    simp only [if_true]
    unfold State.popHead
    have hh : ((s.modCore c (fun y => (y.setElems w.d.toNat o.group).setElems (w.d.toNat + ceilDiv n 1024) o.ext)).core c).headEntry k =
        (s.core c).headEntry k := by rw [State.core_modCore_same]; rfl
    rw [hh]
    cases hq : (s.core c).headEntry k with
    | none =>
      refine ⟨rfl, fun d h => State.core_modCore_ne h, ?_, fun e => ?_⟩
      · dsimp only; rw [State.core_modCore_same]; rfl
      · dsimp only; rw [hd]; simp [poppedEntry, hq]
    | some f =>
      dsimp only
      unfold State.popEntry
      refine ⟨rfl, fun d h => by rw [State.core_modCore_ne h, State.core_modCore_ne h], ?_, fun e => ?_⟩
      · rw [State.core_modCore_same, State.core_modCore_same]; rfl
      · rw [State.core_modCore_same, State.core_modCore_same]
        by_cases he : e = f
        · subst he
          have same : ∀ (y : Core) (v : TqEntry), (y.setEntry e v).entry e = v := fun y v => by simp [Core.entry, Core.setEntry]
          rw [same, poppedEntry, hq]
          simp only [and_self, if_true]
          rfl
        · have hne : f ≠ e := fun x => he x.symm
          have : ∀ (y : Core) (v : TqEntry), (y.setEntry f v).entry e = y.entry e := fun y v => by
            simp [Core.entry, Core.setEntry, Tab.get_set_other _ _ he]
          rw [this, poppedEntry, if_neg (by rw [hq]; intro h; exact hne (Option.some.inj h.2))]
          rfl

/-- The context after a write. -/
def Ctx.afterScalar (y : Ctx) (r : Option (Nat × Word64)) : Ctx :=
  match r with
  | some (r, x) => y.setReg r x
  | none => y

theorem Ctx.afterScalar_only {y : Ctx} {r : Option (Nat × Word64)} : y.afterScalar r = { y with regs := (y.afterScalar r).regs } := by
  unfold Ctx.afterScalar Ctx.setReg
  split
  · split <;> rfl
  · rfl

/-- The scalar registers after a write. -/
def regsAfter (old : Nat → Word64) (r : Option (Nat × Word64)) : Nat → Word64 :=
  match r with
  | some p => withReg old p.1 p.2
  | none => old

/-- A vector write that stores nothing. -/
theorem State.vecWrite_left {s : State} {h : Hart} {word : Word64} {w : VecWord} {n pc : Nat} {read : Option (List Byte)} {o : VOut}
    (hs : o.stores = []) :
    VecLeft s (s.vecWrite h word w n pc read o) h w o.nonfin
      (elemsAfter (elemsAfter (tilesOf s h) w.d.toNat o.group) (w.d.toNat + ceilDiv n 1024) o.ext)
      (regsAfter (scalarsOf s h) o.scalar) := by
  generalize hu : s.afterWrite h.core.toNat w n h.ctx.toNat o = u
  generalize hv : u.vecCounts h.core.toNat h.ctx.toNat pc o = v
  generalize hr : v.taken h uVector word (fun y => y.afterScalar o.scalar) = r
  have e : s.vecWrite h word w n pc read o =
      match read with
      | some bs => r.vecSample h.core.toNat h.ctx.toNat (bs ++ o.bytes)
      | none => r := by
    subst hr hv hu
    unfold State.vecWrite
    simp only [hs, List.all_nil, List.foldl_nil, if_true]
    rfl
  obtain ⟨uf, uO, uc, ue⟩ := State.afterWrite_core (s := s) (c := h.core.toNat) (w := w) (n := n) (k := h.ctx.toNat) (o := o)
  rw [hu] at uf uO uc ue
  have cu : Counted u v h.core.toNat h.ctx.toNat o.nonfin := hv ▸ Counted.vecCounts
  have href : ∀ y : Ctx, (y.afterScalar o.scalar).refused = y.refused := fun y => by rw [Ctx.afterScalar_only]
  have only := State.taken_only (s := v) (h := h) (u := uVector) (w := word) (f := fun y => y.afterScalar o.scalar) (href _)
  have tx := State.taken_ctx (s := v) (h := h) (u := uVector) (w := word) (f := fun y => y.afterScalar o.scalar) (href _)
  rw [hr] at only tx
  obtain ⟨⟨tf, _, tO⟩, tc, tk⟩ := only
  have ctxu : ∀ j, u.ctx h.core.toNat j = s.ctx h.core.toNat j := by
    intro j; unfold State.ctx; rw [uc]; rfl
  have lt : (v.core h.core.toNat).lastTaken = (s.core h.core.toNat).lastTaken := by rw [cu.core, uc]
  have tn : (v.core h.core.toNat).turn = (s.core h.core.toNat).turn := by rw [cu.core, uc]
  have cx := cu.ctx
  rw [ctxu] at cx
  have rf : ((Issued v h uVector).ctx h.ctx.toNat).refused = ((Issued s h uVector).ctx h.ctx.toNat).refused := by
    unfold Issued
    rw [Core.tookHead_shared (by decide), Core.tookHead_shared (by decide)]
    have e : ((v.core h.core.toNat).ctx h.ctx.toNat).refused = ((s.core h.core.toNat).ctx h.ctx.toNat).refused := by
      have e := congrArg Ctx.refused cx
      exact e
    rw [e]
  have rtr : (r.core h.core.toNat).tregs =
      ((s.core h.core.toNat).setElems w.d.toNat o.group |>.setElems (w.d.toNat + ceilDiv n 1024) o.ext).tregs := by
    rw [tc, Issued, Core.tookHead_only, cu.core, uc]
  have tqe : (r.core h.core.toNat).tq = (u.core h.core.toNat).tq := by
    rw [tc, Issued, Core.tookHead_only, cu.core]
  have elems : ∀ i, Tab.get 0 (r.core h.core.toNat).tregs i =
      elemsAfter (elemsAfter (tilesOf s h) w.d.toNat o.group) (w.d.toNat + ceilDiv n 1024) o.ext i := by
    intro i
    rw [rtr, Core.setElems_get]
    congr 1
    funext j
    exact Core.setElems_get j
  have regs : ∀ q, (r.ctx h.core.toNat h.ctx.toNat).reg q = regsAfter (scalarsOf s h) o.scalar q := by
    intro q
    rw [tx, cx]
    cases o.scalar with
    | none => rfl
    | some p =>
      obtain ⟨a, b⟩ := p
      show Ctx.reg (Ctx.setReg _ a b) q = _
      rw [Ctx.reg_setReg]
      unfold regsAfter withReg scalarsOf
      dsimp only
      by_cases e0 : q = a
      · subst e0
        by_cases z : q = 0
        · subst z; simp [Ctx.reg]
        · simp [z]
      · simp [e0]; rfl
  have others : ∀ d, d ≠ h.core.toNat → r.core d = s.core d := fun d hd => by rw [tO d hd, cu.others d hd, uO d hd]
  have ctxs : ∀ j, j ≠ h.ctx.toNat → r.ctx h.core.toNat j = s.ctx h.core.toNat j := fun j hj => by rw [tk j hj, cu.ctxs j hj, ctxu]
  have left : ∀ t bs, (t = r ∨ t = r.vecSample h.core.toNat h.ctx.toNat bs) → VecLeft s t h w o.nonfin
      (elemsAfter (elemsAfter (tilesOf s h) w.d.toNat o.group) (w.d.toNat + ceilDiv n 1024) o.ext)
      (regsAfter (scalarsOf s h) o.scalar) := by
    intro t bs ht
    have sl := State.vecSample_leaves (s := r) (c := h.core.toNat) (k := h.ctx.toNat) (bs := bs)
    refine ⟨?_, ?_, ?_, ?_, r, bs, ht, ?_, ?_, ?_, ?_⟩
    · intro i
      rcases ht with rfl | rfl
      · exact elems i
      · rw [sl.1]; exact elems i
    · intro q
      rcases ht with rfl | rfl
      · exact regs q
      · rw [sl.2.1]; exact regs q
    · intro d hd
      rcases ht with rfl | rfl
      · exact others d hd
      · rw [sl.2.2.1 d hd]; exact others d hd
    · intro j hj
      rcases ht with rfl | rfl
      · exact ctxs j hj
      · rw [sl.2.2.2 j hj]; exact ctxs j hj
    · intro i
      have := ue i
      unfold Core.entry at this ⊢
      rw [tqe, this]; rfl
    · rw [tx, Issued_ctx (s := s) (u := uVector), rf, Ctx.afterScalar_only, cx]
    · rw [tf, cu.frame, uf]
    · rw [tc]
      unfold Issued Core.tookHead
      rw [if_neg (by decide), if_neg (by decide), cu.core, uc]
      rfl
  rw [e]
  cases read with
  | none => exact left r [] (.inl rfl)
  | some bs => exact left _ (bs ++ o.bytes) (.inr rfl)

/-- A legal vector head whose count stands acts on what the state holds. -/
theorem State.vector_acts {s : State} {h : Hart} {cls : Nat} {o : VOp} {w : VecWord} {extra : State → Ctx → Nat → Nat}
    {f : State → VEnv → State} (hv : VecHead o s h w)
    (he : extra s (s.ctx h.core.toNat h.ctx.toNat) (vecCount (s.ctx h.core.toNat h.ctx.toNat) w) = 0) :
    s.vector h cls o w extra f = f s (vecView s h w) := by
  obtain ⟨hh, hl, hu, hc, hq⟩ := hv
  unfold State.vector
  rw [hl, State.onHead_acts hh]
  dsimp only
  rw [if_neg, if_neg]
  · rfl
  · have e1 : (if (o.updateOnly && decide (h.k < 2)) = true then ceFormat
        else if countCause o w (vecCount (s.ctx h.core.toNat h.ctx.toNat) w) ≠ 0 then ceCount
          else extra s (s.ctx h.core.toNat h.ctx.toNat) (vecCount (s.ctx h.core.toNat h.ctx.toNat) w)) = 0 := by
      rw [if_neg, if_neg (by simp [hc])]
      · exact he
      · intro hx
        simp only [Bool.and_eq_true, decide_eq_true_eq] at hx
        have := hu hx.1
        have : h.k = h.ctx.toNat := rfl
        omega
    simp only [e1]; simp
  · intro hx
    simp only [Bool.and_eq_true] at hx
    have a := hq hx.1
    have b := hx.2
    have : ((s.core h.c).headEntry h.k) = ((s.core h.core.toNat).headEntry h.ctx.toNat) := rfl
    rw [this] at b
    cases hz : (s.core h.core.toNat).headEntry h.ctx.toNat with
    | none => rw [hz] at a; simp at a
    | some e => rw [hz] at b; simp at b

theorem State.plainVector_acts {s : State} {h : Hart} {o : VOp} {w : VecWord} {f : VEnv → VOut} (hv : VecHead o s h w) :
    s.plainVector h o w f = s.vecWrite h (wordV 3 o.code w) w (vecView s h w).n (s.ctx h.core.toNat h.ctx.toNat).pc
      (some ((vecView s h w).operandBytes o)) (f (vecView s h w)) := by
  unfold State.plainVector
  rw [State.vector_acts hv rfl]
  rfl

end Sys2Proof.Machine
end

