-- ==== Sys2Proof/Tests/States.lean ====
section
/-! SUPPORT. Small states on which the hypotheses of the statements meet. -/

set_option Elab.async false

namespace Sys2Proof.Tests

open Sys2Proof Sys2Proof.Machine

/-- Core 0, context 0 of field 0, and context 2 of the update path. -/
def h0 : Hart := ⟨0, 0⟩
def h2 : Hart := ⟨0, 2⟩

/-- A state with one core. -/
def withCore (c : Core) : State := { cores := [(0, c)] }

/-- A context that runs in code of 8 words. -/
def runCtx : Ctx := { st := .running, codeLen := 64 }

/-- A core whose context 0 runs with these registers. -/
def coreWith (regs : Tab Word64) : Core := { ctxs := [(0, { runCtx with regs := regs })] }

/-- A device whose core 0 runs context 0. -/
def sRun : State := withCore (coreWith [])

/-- A layout of phase 3 with one region over field 0, in force in slot 0. -/
def oneRegion : Layout := { phase := 3, regions := [⟨⟨0, 0, 7, 7⟩, 0, false⟩] }
def job0 : Job :=
  { st := .running, fw := 1, fh := 1, slots := [(0, some ⟨0, 1, oneRegion⟩)], active := some 0 }

def zeros : List Byte := List.replicate 64 0

/-- A step in a state of its life, commanded on ring 1. -/
def aStep (n : Nat) (st : StepState) : StepRun where
  n := n
  temper := true
  noclip := false
  osem := 0
  dsem := 1
  noff := 0
  tau := 0
  tokens := 0
  btab := 0
  btabn := 0
  result := 0
  ring := 1
  taking := 0
  st := st

/-- A clean memory has only clean extents. -/
theorem clean_of_nil (s : State) (a n : Nat) (h : s.codeErr = []) : CleanAt s a n := by
  intro q _; unfold State.errOf; rw [h]; rfl

/-- A table of one entry. -/
theorem get_one {α : Type} (d v : α) (k i : Nat) : Tab.get d [(k, v)] i = v ∨ Tab.get d [(k, v)] i = d := by
  simp only [Tab.get]; split
  · exact .inl rfl
  · exact .inr rfl

/-- HasHead and VecHead as tests. -/
def headB (s : State) (h : Hart) : Bool :=
  let x := s.ctx h.core.toNat h.ctx.toNat
  decide (x.st = .running ∧ x.wait = .none ∧ x.codeBase ≤ x.pc ∧ x.pc + 8 ≤ x.codeBase + x.codeLen) &&
    decide ((s.core h.core.toNat).turn = [])

def vecB (o : VOp) (s : State) (h : Hart) (w : VecWord) : Bool :=
  headB s h && vecLegal o w && (!o.updateOnly || decide (2 ≤ h.ctx.toNat)) &&
    decide (countCause o w (vecCount (s.ctx h.core.toNat h.ctx.toNat) w) = 0) &&
    (!usesQueue w || ((s.core h.core.toNat).headEntry h.ctx.toNat).isSome)

theorem hasHead_of {s : State} {h : Hart} (e : headB s h = true) : HasHead s h := by
  simp only [headB, Bool.and_eq_true, decide_eq_true_eq] at e
  obtain ⟨⟨a, b, c, d⟩, f⟩ := e
  refine ⟨a, b, c, d, fun u => ?_⟩
  unfold Core.mayTake
  rw [f]
  rfl

theorem matHead_of {s : State} {h : Hart} (e : headB s h = true) (o : (s.core h.core.toNat).matrixOpen h.ctx.toNat = true)
    (a : (s.core h.core.toNat).atC.isSome = true → (s.core h.core.toNat).drain.isSome = true) : MatHead s h :=
  ⟨hasHead_of e, o, a⟩

theorem vecHead_of {o : VOp} {s : State} {h : Hart} {w : VecWord} (e : vecB o s h w = true) : VecHead o s h w := by
  simp only [vecB, Bool.and_eq_true, Bool.or_eq_true, Bool.not_eq_true', decide_eq_true_eq] at e
  obtain ⟨⟨⟨⟨a, b⟩, c⟩, d⟩, q⟩ := e
  refine ⟨hasHead_of a, b, fun u => ?_, d, fun u => ?_⟩
  · rcases c with c | c
    · rw [c] at u; cases u
    · exact c
  · rcases q with q | q
    · rw [q] at u; cases u
    · exact q

/-- An owned region of the first 16 granules, and a staging region behind it. -/
def memJob : Job := { job0 with regions := [⟨0, 16, rkOwned, 0⟩, ⟨0x10000, 16, rkStaging, 0⟩] }

/-! ### Commands at the head of a ring -/

/-- An entry with an opcode, a job context, a block in host memory and arguments. -/
def entry (op job blk len a0 a1 : Nat) : Entry := ⟨op, 0, 0, job, blk, len, a0, a1, false⟩
/-- A ring of a role that holds one entry. -/
def ringOf (role : Nat) (e : Entry) : Ring := { role := role, job := 7, fetched := [e] }
def blk : Nat := hostBase + 64

/-- Bytes as cells of memory. -/
def cellsAt : Nat → List Byte → List Host.Cell
  | _, [] => []
  | a, b :: l => if b = 0 then cellsAt (a + 1) l else (a, b) :: cellsAt (a + 1) l

/-- A device that is READY, with ring 63 and a job context 7. -/
def sCmd (j : Job) (role : Nat) (e : Entry) (mem : List Host.Cell) : State where
  jobs := [(7, j)]
  mem := mem
  regs := { st := .ready }
  host := { rings := [(63, some (ringOf role e))] }

def admittedB (s : State) (r op : Nat) (x : Ring) (e : Entry) : Bool :=
  decide (s.ring r = some x) && decide (x.fetched = [e]) && decide (e.opcode = op) && s.mayTake x e &&
    x.taken.all (fun u => u.id ≠ s.host.nextId) && decide (s.admission r x e = none)
theorem admitted_of {s : State} {r op : Nat} {x : Ring} {e : Entry} (h : admittedB s r op x e = true) : Admitted s r op x e := by
  simp only [admittedB, Bool.and_eq_true, decide_eq_true_eq, List.all_eq_true] at h
  obtain ⟨⟨⟨⟨⟨a, b⟩, c⟩, d⟩, f⟩, g⟩ := h
  exact ⟨⟨a, ⟨[], b, fun d h => by cases h⟩, c, d, fun u hu => by simpa using f u hu⟩, g⟩

/-! ### Job contexts -/

/-- A loaded job context 7 over the last field. -/
def loadedJob : Job := { st := .loaded, fy0 := 7, fx0 := 7, fh := 1, fw := 1, regions := [⟨0, 16, rkStaging, 7⟩], lsgran := 16 }

/-- A device whose job context 0 runs oneRegion with these steps; ring 1 has taken their STEP command. -/
def stepTaken : Taken := { id := 0, entry := entry 0x19 0 blk 64 0 0 }
def stepRing : Ring := { role := 1, job := 0, taken := [stepTaken] }
def stepJob (l : List StepRun) : Job :=
  { job0 with steps := l, fgroup := some 63, regions := [⟨0, 16, rkStaging, 0⟩] }
def sSteps (l : List StepRun) : State where
  jobs := [(0, stepJob l)]
  regs := { st := .ready }
  host := { rings := [(1, some stepRing)] }
  fabric := { groups := [(63, some { members := 1, live := [0], servers := [0] })] }

/-- No stack of a device without stack state is fenced. -/
theorem stacks_online (s : State) (h : s.stackSites = []) (i : Nat) : (s.stack i).st ≠ .fencedRun := by
  unfold State.stack; rw [h]; exact (nofun : StackState.online ≠ StackState.fencedRun)

/-- A device in READY with these registers and this security state. -/
def sSec (g : Regs) (q : Sec) : State where
  regs := { g with st := .ready }
  sec := q

/-- A device in READY with these clocks at device time n. -/
def sClk (n : Nat) (k : Clk) : State where
  time := n
  regs := { st := .ready }
  clk := k

theorem fit_length (n : Nat) (b : List Byte) : (fit n b).length = n := by
  unfold fit; rw [List.length_take, List.length_append, List.length_replicate]; omega

/-! ### Flits that have come -/

/-- The flit stands at the router where its target attaches. -/
def arriving (s : State) (f : Flit) : State :=
  { s with net := { s.net with flights := [{ at_ := s.routeTarget f, flit := f, link := 1 }] } }
/-- The state once a flit has left the network. -/
def leaving (s : State) (f : Flit) : State := (s.take f).getD s
theorem take_of {s : State} {f : Flit} (h : (s.take f).isSome = true) : s.take f = some (leaving s f) := by
  unfold leaving
  cases e : s.take f with
  | none => rw [e] at h; cases h
  | some u => rfl

/-! ### CRC-32, byte by byte on literals -/

/-- A value computed before it is handed on. -/
def force {α : Type} (n : Nat) (k : Nat → α) : α := Nat.rec (k 0) (fun m _ => k (m + 1)) n
theorem force_eq {α : Type} (n : Nat) (k : Nat → α) : force n k = k n := by cases n <;> rfl

def crcNat : List Byte → Nat → Nat
  | [], c => c
  | b :: l, c => force (crc32Byte (BitVec.ofNat 32 c) b).toNat (crcNat l)
theorem crcNat_eq (l : List Byte) (c : Word32) : crcNat l c.toNat = (l.foldl crc32Byte c).toNat := by
  induction l generalizing c with
  | nil => rfl
  | cons b l ih => simp only [crcNat, force_eq, List.foldl_cons, BitVec.ofNat_toNat, BitVec.setWidth_eq, ih]

/-- The CRC-32 of a list as a number that the kernel computes byte by byte. -/
def crcOf (l : List Byte) : Nat := (BitVec.ofNat 32 (crcNat l 0xFFFFFFFF) ^^^ 0xFFFFFFFF#32).toNat
theorem crcOf_eq (l : List Byte) : (crc32 l).toNat = crcOf l := by
  unfold crcOf crc32
  have h := crcNat_eq l 0xFFFFFFFF#32
  rw [show (0xFFFFFFFF#32).toNat = 0xFFFFFFFF from rfl] at h
  rw [h, BitVec.ofNat_toNat, BitVec.setWidth_eq]

theorem crcOk_of {bs : List Byte} {off : Nat}
    (h : crcOf (bs.take off ++ leBytes 4 0 ++ bs.drop (off + 4)) = fieldAt bs off 4) : crcOk bs off = true := by
  unfold crcOk; rw [crcOf_eq, h]; exact decide_eq_true rfl

end Sys2Proof.Tests
end

