-- ==== Sys2Proof/Tests/Slice0.lean ====
section
/-! SUPPORT. Tests: ill-formed commands are refused, the worked examples of the spec come out as it says, and one command of some families
does what its rule says. -/

set_option Elab.async false

namespace Sys2Proof.Tests

open Sys2Proof Sys2Proof.Machine

/-! ### Well-formedness: an ill-formed operand of each kind is refused -/

/-- A flit of a core to site 1, with these data bytes. -/
def aFlit (payload : List Byte) : Flit := ⟨7, 1, 1, 0, 0, 6, false, 3, 0, 0, 0, payload, 0, 0⟩
theorem test_wf_boot : ([⟨9, [], [], [], [], [], []⟩, ⟨0, [(512, 0)], [], [], [], [], []⟩, ⟨0, [(0, 9)], [], [], [], [], []⟩,
    ⟨0, [], [], [64], [], [], []⟩, ⟨0, [], [], [], [64], [], []⟩, ⟨0, [], [], [], [], [36], []⟩, ⟨0, [], [], [], [], [], [36]⟩,
    ⟨0, [], [⟨512, 0, 0, 0, 0, 0⟩], [], [], [], []⟩, ⟨0, [], [⟨0, 0, 2, 16, 0, 0⟩], [], [], [], []⟩] : List BootInputs).all
      (fun p => !(Instr.powerOn p).wf && !(Instr.moduleReset p).wf) = true := by decide
theorem test_wf_good : (Instr.powerOn ⟨8, [(511, 8)], [⟨511, 8, 3, 15, 8, 255⟩], [63], [63], [35], [35]⟩).wf = true ∧ (Instr.linkDegraded 8 320).wf = true ∧
    (Instr.write (aFlit zeros)).wf = true ∧ (Instr.marker .hid 15).wf = true := by decide
theorem test_wf_link : (Instr.linkDegraded 2 640).wf = false ∧ (Instr.linkDegraded 16 641).wf = false := by decide
theorem test_wf_width : (Instr.doorbell 0 0 3).wf = false ∧ (Instr.cqCiWrite 0 0 16).wf = false ∧ (Instr.flagClear 0 0 0).wf = false ∧
    (Instr.registerWrite 0 0 5).wf = false := by decide
theorem test_wf_bar2 : (Instr.bar2Read 0 0).wf = false ∧ (Instr.bar2Read (2 ^ 34) 1).wf = false ∧ (Instr.bar2Write 0 []).wf = false ∧
    (Instr.bar2Write (2 ^ 34 - 1) [0, 0]).wf = false := by decide
theorem test_wf_flit : ((fun f => [Instr.write f, .add32 f, .seminc f, .red f, .rcredit f, .strict f, .read f, .stackWrite f,
    .stackWriteData f, .temper f, .gather f, .contribOpen f, .publish f, .siteData f, .flitForward 0 0 .clean f])
      (aFlit [])).all (fun i => !i.wf) = true := by decide
theorem test_wf_frame : ((fun x => [Instr.frameReceived 0 x, .ack 0 x, .heartbeat 0 x, .membership 0 x, .gatherData 0 x, .reduced 0 x,
    .permute 0 x, .partnerPut 0 x, .partnerGet 0 x, .applied 0 x]) (⟨List.replicate 63 0⟩ : Frame)).all (fun i => !i.wf) = true := by decide
theorem test_wf_ranges : (Instr.patrolScrub 0 wordsOfStack).wf = false ∧ (Instr.marker (.core 0) 80).wf = false ∧
    (Instr.marker (.site 0) 112).wf = false ∧ (Instr.marker .hid 16).wf = false ∧ (Instr.bucketTableEntry 0 (2 ^ 20)).wf = false ∧
    (Instr.retransmit 0 0 (2 ^ 32)).wf = false ∧ (Instr.portDown 0 0).wf = false ∧ (Instr.coreFenced 0 0 0).wf = false ∧
    (Instr.coreFenced 0 0 7).wf = false ∧ (Instr.sensorSample []).wf = false ∧ (Instr.snapshotInterval 0 0).wf = false := by decide

/-! ### The worked examples of the spec -/

/-- R14 to R16 (spec/01): core 2,345, core (63, 10) at site 25, core (40, 0) at site 30. -/
theorem test_core_2345 : coreRow 2345 = 36 ∧ coreCol 2345 = 41 ∧ fieldOf 2345 = 4 * 8 + 5 ∧ halfOfField (fieldOf 2345) = 1 := by decide
theorem test_attach_cores : ((63 * 64 + 10) ∈ (List.range 7).map (fun i => edgeCore (25 / 9) (7 * (25 % 9) + i))) ∧
    ((40 * 64) ∈ (List.range 7).map (fun i => edgeCore (30 / 9) (7 * (30 % 9) + i))) := by decide

/-- R22 (spec/01): the scratchpad window of core 2,345, and its bank B. -/
theorem test_window_2345 : windowAddr 2345 0 = 0x400494800000 ∧ windowAddr 2345 0x200000 = 0x400494A00000 ∧ bankOf 0x200000 = 1 := by
  decide

/-- R51 (spec/02): bit 100 of word 10,843 lies in macro 5, segment 3, column 37. -/
theorem test_failed_column : columnPlaces 10843 (1#288 <<< 100) = [(5, 3, 37)] := by decide +kernel

/-- R83 (spec/03): 0.91, 0.3 and -0.0123 in a block of E4M3, with an E8M0 scale and with a UE5M3 scale. -/
theorem test_block_e8m0 :
    let xs := [0x3F68F5C3, 0x3E99999A, 0xBC4985F0].map (fun c => (f32 (BitVec.ofNat 32 c), 0))
    let b := writeBlock ⟨.e4m3, 1, 32, false, false⟩ none false xs
    b.scale = 0x76 ∧ b.elems = [0x7E, 0x72, 0xCD] ∧ b.sat = 1 := by decide +kernel
theorem test_block_ue5m3 :
    let xs := [0x3F68F5C3, 0x3E99999A].map (fun c => (f32 (BitVec.ofNat 32 c), 0))
    let b := writeBlock ⟨.e4m3, 2, 32, false, false⟩ none false xs
    b.scale = 0x31 ∧ b.sat = 0 ∧ b.elems.map (fun c => (decodeElem .e4m3 c).1.toIntAt 0) = [416, 144] := by decide +kernel

/-- R86 (spec/03): stochastic rounding of 0x3F80_A5C3 to BF16. -/
theorem test_stochastic : ((f32 0x3F80A5C3#32).toSat fmtBF16 (some 0x5A3C)).1 = 0x3F80 ∧
    ((f32 0x3F80A5C3#32).toSat fmtBF16 (some 0x5A3D)).1 = 0x3F81 := by decide +kernel

/-- R118 (spec/04): four blocks with L = 4 give -68,996 * 2^-15, and with L = 1 the exact sum -68,994 * 2^-15. -/
theorem test_tile_total :
    let vs := [(1000 : Int), 3, -70002, 5].map (fun k => Dy.ofInt k (-15) false)
    let p : Pe := ⟨Dy.zero false, Dy.zero false, 0⟩
    (runBlocks 4 4 0 p vs).t.toIntAt (-40) = -68996 * 2 ^ 25 ∧ (runBlocks 1 4 0 p vs).t.toIntAt (-40) = -68994 * 2 ^ 25 := by decide +kernel

/-- R264 (spec/08): a three-member ring sends 1.0 on, and the other order the exact sum. -/
theorem test_ring_order : ((ringAdd (ringAdd 0x3F80 0x3B80).1 0x3B80).1 = 0x3F80) ∧ (ringAdd (ringAdd 0x3B80 0x3B80).1 0x3F80).1 = 0x3F81 := by
  decide +kernel

/-- R280 (spec/09): stored symbol 4 is corrected by adding 0x5A. -/
theorem test_word_code : gfPow 8 = 0x1D#8 ∧ syndrome (symbolAt 0x5A 4) 0 = 0x5A#8 ∧ syndrome (symbolAt 0x5A 4) 1 = 0x0C#8 ∧
    wcDecode (symbolAt 0x5A 4) = (.corrected, 0) := by decide +kernel

/-- R285 (spec/09): address 0x1234_5678 lies at site 32 of an M24, at pseudo-channel 25. -/
theorem test_interleave :
    let s : State := { interleave := [0, 2, 3, 5, 6, 8, 9, 11, 12, 14, 15, 17, 18, 20, 21, 23, 24, 26, 27, 29, 30, 32, 33, 35] }
    s.stackOf 0x12345678 = 32 ∧ pseudoOf 0x12345678 = 25 ∧ edgeCore (32 / 9) 35 = 28 * 64 := by decide

/-- R355 (spec/11): NORM, CLIP and the update scales of step 1,207. -/
theorem test_norm_and_scales : normOf 0x46100000 = 0x42C00000 ∧ clipOf false 0x3F800000 0x42C00000 = 0x3C2AAAAB ∧
    scaleOf 0x3C2AAAAB (2 ^ 20) = 0x322AAAAB := by decide +kernel
theorem test_norm_contribution :
    sumOfSquares (qOf (3 * 2 ^ 41 * 2 ^ 320) (2 ^ 20) + qOf (2 * 10 ^ 12 * 2 ^ 320) 1040384) = 0x40FB20C0 := by decide +kernel

/-! ### The block's queue -/

/-- A command at the front of the queue is taken, and the rest waits; an empty queue lets a nanosecond pass. -/
theorem test_step_queue : (match step { sRun with pending := [.hello, .ready] } with
    | .next t => decide (t.pending = [.ready])
    | _ => false) = true := by decide +kernel
theorem test_step_idle : (match step State.reset with
    | .next t => decide (t.time = 1 ∧ t.pending = [])
    | _ => false) = true := by decide +kernel

/-! ### One command of a family each -/

/-- What a test asks of the state that a command leaves. -/
def leaves (i : Instr) (s : State) (p : State → Bool) : Bool := match exec i s with | .next t => p t | _ => false

/-- R481: a doorbell within its ring, and one outside it. -/
theorem test_doorbell : leaves (.doorbell 63 15 4) { host := { rings := [(63, some {})] } } (fun t => (t.ring 63).any (·.sqPi = 15)) = true ∧
    leaves (.doorbell 63 16 4) { host := { rings := [(63, some {})] } } (fun t => (t.ring 63).any (·.sqPi = 0) && t.obs.log.length = 1) = true := by
  decide +kernel
/-- R515: RTO takes 5 and refuses 4. -/
theorem test_register : leaves (.registerWrite 0x500C 5 4) {} (fun t => t.regs.rto = 5) = true ∧
    leaves (.registerWrite 0x500C 4 4) {} (fun t => t.regs.rto = 40) = true := by decide +kernel
/-- R557: HELLO before READY is answered STATE. -/
theorem test_hello : leaves .hello { regs := { mboxBusy := true, qlen := 8, mboxReq := [1, 1] } }
    (fun t => !t.regs.mboxBusy && t.regs.mboxRep == icdor 1 1 0 []) = true := by decide +kernel
/-- R538: a field that has been 5 °C above the throttle temperature for 1 ms enters the bank state, and not before. -/
theorem test_field_bank : leaves (.fieldBank 0) { time := 1000000, clk := { hotAt := [(0, some 0)] } } (fun t => t.fieldPower 0 = .bank) = true ∧
    leaves (.fieldBank 0) { time := 999999, clk := { hotAt := [(0, some 0)] } } (fun t => t.fieldPower 0 = .active) = true := by
  decide +kernel
/-- R537: a stack is hot from 95 °C on until it reads below 90 °C. -/
theorem test_stack_hot : (({} : StackSite).warmed 1520).hot = true ∧ (({ hot := true } : StackSite).warmed 1440).hot = true ∧
    (({ hot := true } : StackSite).warmed 1439).hot = false ∧ (({} : StackSite).warmed 1519).hot = false := by decide
/-- R28: a supervisor acts on a quench before a report that came first. -/
theorem test_mesh_order : ((State.reset.post 5 (.report .sensorFault [])).post 5 .quench).serveMesh.mesh = [] ∧
    [MeshMsg.quench, .lost 0, .bank, .start 0, .report .sensorFault []].map (·.cls) =
      [MeshClass.quench, .fault, .thermal, .command, .report] := by decide +kernel
/-- R585: QUENCH takes a running job context to QUENCHED. -/
theorem test_quench : let e := entry 0x30 0xFF 0 0 0 0
    leaves (.quench 63) (sCmd job0 2 e []) (fun t => t.obs.quench.active && decide ((t.job 7).st = .quenched)) = true := by decide +kernel
/-- R607: READY. -/
theorem test_ready : leaves .ready { obs := { flashReady := true } } (fun t => t.regs.st = .ready) = true := by decide +kernel
/-- R185: a shift right of the most negative word, logical and arithmetic. -/
theorem test_shifts : let s := withCore (coreWith [(1, 0x8000000000000000#64), (2, 1#64)])
    leaves (.srl h0 3 1 2) s (fun t => (t.ctx 0 0).regs == [(1, 0x8000000000000000#64), (2, 1#64), (3, 0x4000000000000000#64)]) = true ∧
    leaves (.sra h0 3 1 2) s (fun t => (t.ctx 0 0).regs == [(1, 0x8000000000000000#64), (2, 1#64), (3, 0xC000000000000000#64)]) = true := by
  decide +kernel
/-- R171: S0 reads zero and discards writes. -/
theorem test_s0 : leaves (.add h0 0 1 1) (withCore (coreWith [(1, 5#64)])) (fun t => (t.ctx 0 0).regs == [(1, 5#64)]) = true := by
  decide +kernel

end Sys2Proof.Tests
end

