-- ==== Sys2Proof/Tests/WitBoot.lean ====
section
/-! SUPPORT. Witnesses for the statements about boot, resets and the invariants: states and operands that meet their hypotheses. -/

set_option Elab.async false

namespace Sys2Proof.Tests

open Sys2Proof Sys2Proof.Machine

/-! ### Boot -/

/-- TheModuleBootsRecoversAndResets: a boot with no image known and its check good and bad, with a FENCE record and every kind of failure, a redundancy column with a spare and
without one among them; a
module that has no power; READY with the flash mounted and not; a boot that runs out of time; a reset with a session; RECOVER that is not
posted, outside recovery, ill-formed, of an image that cannot be read and of one whose header is zero. -/
theorem wit_boot :
    let bc : FailedColumn := { col := 511, prow := 8, bank := 3, mac := 15, seg := 8, column := 255 }
    let p : BootInputs := { failedSites := [(511, 8), (0, 0)], failedLinks := [63], failedShims := [7], failedStacks := [35],
                            failedDies := [35], failedColumns := [bc] }
    let b : Word64 := BitVec.ofNat 64 (2 * 2 ^ 60 + 63 * 2 ^ 54 + 8 * 2 ^ 50 + 7 * 2 ^ 47 + 2 ^ 36)
    let w := b ||| (repairCheck b).setWidth 64
    let s : State := { regs := { powerGood := true }, obs := { flashReady := true } }
    let rec_ (g : Regs) (q : Sec) : State := { sSec { g with mboxBusy := true } q with regs := { g with mboxBusy := true } }
    let req (n a : Nat) : Regs := { qlen := n, mboxReq := [1, 5, 0, 0, 0, 0, 0, 0] ++ leBytes 8 a ++ leBytes 4 4096 }
    let on : Sec := { recovery := true }
    let bad : State := { rec_ (req 24 hostBase) on with host := { hostFail := [(hostBase, 1)] } }
    (({} : Sec).image = [] ∧ p.imageCheck = 0 ∧ ({ p with imageCheck := 7 } : BootInputs).imageCheck ≠ 0 ∧ s.obs.flash.length < logCapacity) ∧
    (recordCheckOk w = true ∧ recordFieldsOk w = true ∧ recordType w = 2 ∧ recordRow w = 8 ∧ recordField w * 8 + recordCol w = 511) ∧
    ((511, 8) ∈ p.failedSites ∧ 63 ∈ p.failedLinks ∧ 7 ∈ p.failedShims ∧ 35 ∈ p.failedStacks ∧ 35 ∈ p.failedDies) ∧
    (p.failedColumns = [bc] ∧ validColumns [bc] = [bc] ∧ s.wafer.store = [] ∧
      s.freeSpare (segmentKey (511 * 9 + 8) 3 15 8) = some 0 ∧
      ({ s with wafer := { fuses := [(segmentKey (511 * 9 + 8) 3 15 8, 15)] } } : State).freeSpare (segmentKey (511 * 9 + 8) 3 15 8) = none) ∧
    (({} : BootInputs).failedLinks = [] ∧ ({} : BootInputs).failedShims = [] ∧ s.wafer.store = []) ∧
    (State.reset.regs.powerGood = false ∧ s.regs.powerGood = true ∧ s.regs.st = .boot ∧ s.obs.flashReady = true ∧
      State.reset.obs.flashReady = false ∧ (sSec {} {}).regs.st ≠ .boot) ∧
    ((sSec {} { session := some ⟨1, 1, 1, false, [], []⟩ }).sec.session = some ⟨1, 1, 1, false, [], []⟩ ∧ LogRoom (sSec {} {}) 1) ∧
    (State.reset.regs.mboxBusy = false) ∧
    (∀ t ∈ [rec_ (req 24 hostBase) {}, rec_ (req 8 0) on, rec_ (req 24 hostBase) on, bad],
      t.regs.mboxBusy = true ∧ fieldAt t.request 1 1 = 5 ∧ LogRoom t 1) ∧
    (recoverBodyOk ((rec_ (req 24 hostBase) {}).request.drop 8) = true ∧ recoverBodyOk ((rec_ (req 8 0) on).request.drop 8) = false ∧
      (rec_ (req 24 hostBase) on).sec.recovery = true ∧ (rec_ (req 24 hostBase) on).hostOk hostBase 4096 = true ∧
      fwFirstFail ((rec_ (req 24 hostBase) on).bytes hostBase 4096) 0 = some 1 ∧ bad.hostOk hostBase 4096 = false) := by
  unfold LogRoom; decide +kernel

/-! ### The whole block -/

/-- StepsKeepTheFormOfMemory, StepsKeepRegistersAndRecorderInRange, StepTakesTheFrontCommand: the machine after reset meets the invariants, and a step
is taken there with a command in front and with none. -/
theorem wit_steps_keep :
    MemoryOk State.reset ∧ (∃ t, step State.reset = .next t) ∧ RegsOk State.reset.regs ∧ ObsOk State.reset.obs ∧
    State.reset.mesh = [] ∧ State.reset.pending = [] ∧ (∃ t, step { State.reset with pending := [.ready] } = .next t) := by
  refine ⟨?_, ⟨_, rfl⟩, ?_, ?_, rfl, rfl, ⟨_, rfl⟩⟩
  · unfold MemoryOk; decide +kernel
  · refine ⟨by decide, by decide, by decide, by decide, .inl rfl, by decide, by decide, by decide, by decide, by decide, by decide,
      by decide, .inr (by decide), .inr (by decide), fun n => ?_⟩
    show Tab.get 0 [] n ≤ _
    exact Nat.zero_le _
  · have z : SetsOk [] := fun _ _ => Nat.zero_le _
    have l : LogOk [] 0 := ⟨Nat.zero_le _, .nil, fun r h => by cases h⟩
    exact ⟨l, l, fun _ => Nat.zero_le _, Nat.zero_le _, z, z, z, z⟩

end Sys2Proof.Tests
end

