-- ==== Sys2Proof/Tests/WitClocks.lean ====
section
/-! SUPPORT. Witnesses for the statements about temperature, power and fields: states and operands that meet their hypotheses. -/

set_option Elab.async false

namespace Sys2Proof.Tests

open Sys2Proof Sys2Proof.Machine

/-! ### Clocks, power and temperature -/

/-- What a sample of the sensors leaves. -/
def sampled (n : Nat) (k : Clk) (v : List Int) : State := match exec (.sensorSample v) (sClk n k) with | .next t => t | _ => {}
def everywhere (d : Int) : List Int := List.replicate 293 (16 * 95 + d)
/-- Cool fields beside other parts at 105 °C. -/
def hotPartsAlone : List Int := List.replicate 256 0 ++ List.replicate 37 1680
/-- Half 1 has been cool since a time, half 0 has not; limits exceeded since time 0. -/
def coolClk : Clk := { halves := [(1, { thermal := 3, coolSince := some 0 })], hotWafer := some 0, hotParts := some 0 }

/-- TemperatureAndPowerGovernTheHalves: a short sample; a sample 15 °C above the throttle temperature for 1 ms, and one just below it. -/
theorem wit_hot :
    (everywhere 0).length = 293 ∧ ([] : List Int).length ≠ 293 ∧ ((sClk 1000000 coolClk).half 1).forced = [] ∧
    (sClk 1000000 coolClk).regs.st ≠ .safe ∧ coolClk.hotWafer = some 0 := by decide +kernel
theorem wit_hot_wafer : let t := sampled 1000000 coolClk (everywhere 240)
    16 * 95 ≤ t.halfHot 1 ∧ 16 * 95 + 240 ≤ t.hottestOf (List.range 256) := by decide +kernel
theorem wit_warm : let t := sampled 0 coolClk (everywhere (-1))
    16 * 95 - 80 ≤ t.halfHot 1 ∧ t.halfHot 1 < 16 * 95 := by decide +kernel

/-- TemperatureAndPowerGovernTheHalves: a sample with both halves cool, half 1 for 100 ms, and other parts at their limit. -/
theorem wit_cool : let t := sampled 100000000 coolClk hotPartsAlone
    hotPartsAlone.length = 293 ∧ ((sClk 100000000 coolClk).half 0).coolSince = none ∧
    ((sClk 100000000 coolClk).half 1).coolSince = some 0 ∧ t.halfHot 0 < 16 * 95 - 80 ∧ t.halfHot 1 < 16 * 95 - 80 ∧
    t.hottestOf (List.range 256) < 16 * 95 + 240 ∧ 1680 ≤ t.hottestOf ((List.range 37).map (256 + ·)) := by decide +kernel

/-- TemperatureAndPowerGovernTheHalves: a sample of a field in the bank state that its half keeps warm and that has been cool for 100 ms, with
a cold order deferred for it, a stack at its bound and a sensor out of its bounds. -/
def keptClk : Clk :=
  { halves := [(1, { op := 5, thermal := 5, forced := [62] })], fields := [(62, .bank)], coolAt := [(62, some 0)], deferred := [62] }
def someHot : List Int := List.replicate 256 0 ++ [1520, 4000] ++ List.replicate 35 0
theorem wit_kept : let t := sampled 100000000 keptClk someHot
    someHot.length = 293 ∧ (sClk 100000000 keptClk).isStack 0 = true ∧ badReading someHot 257 = true ∧ 256 ∉ t.clk.ignored ∧
    62 ∈ ((sClk 100000000 keptClk).half 1).forced ∧ halfOfField 62 = 1 ∧ Tab.get none t.clk.coolAt 62 = some 0 ∧
    t.regs.st = (sClk 100000000 keptClk).regs.st ∧ (sClk 100000000 keptClk).switchOver 62 = false := by decide +kernel

/-- TemperatureAndPowerGovernTheHalves: a sample above the fast limit with the limit set and not, at the slowest points and not, in a change
and not; a feed current at its limit for 1 ms; windows above and below the cap with a step that is noted, a held limit and a half that is
lowered; a change that runs and none; droops 1 ms apart and closer; a field out of service and one that is not. -/
theorem wit_power :
    let cap (k : Clk) : Nat := min (1000 * 32000) (600 * k.lowMv)
    let k0 : Clk := {}
    let slow : Clk := { halves := [(0, { op := 5 }), (1, { op := 5 })] }
    let quick : Clk := { halves := [(0, { op := 2, power := 2 }), (1, { op := 3 })] }
    let moving : Clk := { halves := [(0, { op := 2 }), (1, { op := 3, changing := some 4 })] }
    let noted : Clk := { halves := [(0, { op := 3, power := 3, noting := some (2, 9) })] }
    let held : Clk := { k0 with held := 2, heldSaved := [5] }
    let lowered : Clk := { halves := [(0, { op := 3, power := 3 })] }
    let drooped : Clk := { lastDroop := some 0 }
    (cap k0 + 2000000 < 40000000 ∧ ¬ (cap k0 + 2000000 < 0 ∨ 320000 ≤ 0) ∧ k0.fast = false) ∧
    ((sClk 0 slow).atSlowest = true ∧ (sClk 0 quick).atSlowest = false ∧ (sClk 0 quick).changeRunning = false ∧
      (sClk 0 moving).atSlowest = false ∧ (sClk 0 moving).changeRunning = true) ∧
    (let k : Clk := { fast := true, overCurrent := some 0 }
     k.fast = true ∧ (320000 : Nat) ≤ 320000 ∧ k.overCurrent = some 0 ∧ 0 + 1000000 ≤ (sClk 1000000 k).time ∧ (sClk 1000000 k).regs.st ≠ .safe) ∧
    (((sClk 0 noted).half 0).noting = some (2, 9) ∧ ((sClk 0 noted).half 0).changing = none ∧ 2 < ((sClk 0 noted).half 0).op) ∧
    (cap k0 < 40000000 ∧ 0 ≤ cap k0 ∧ held.held ≠ 0 ∧ held.heldNoting = none) ∧
    (lowered.held = 0 ∧ 0 < ((sClk 0 lowered).half 0).power ∧ ((sClk 0 lowered).half 0).noting = none) ∧
    (((sClk 0 moving).half 1).changing = some 4 ∧ LogRoom (sClk 0 moving) 1 ∧ ((sClk 0 moving).half 0).changing = none) ∧
    ((∃ c, drooped.lastDroop = some c ∧ (sClk 999999 drooped).time < c + 1000000) ∧
      (∀ c, drooped.lastDroop = some c → c + 1000000 ≤ (sClk 1000000 drooped).time) ∧ LogRoom (sClk 1000000 drooped) 1) ∧
    (let out := sClk 0 { fields := [(63, .outOfService)] }
     out.fieldPower 63 = .outOfService ∧ out.fieldPower 0 ≠ .outOfService ∧ LogRoom out 1 ∧ out.coldAllowed 0 = false ∧ out.mesh = [] ∧
     out.coldAllowed 9 = true ∧ out.fieldPower 9 ≠ .outOfService ∧ out.net.pause = none ∧ 9 ∉ out.net.cold) := by
  unfold LogRoom
  refine ⟨?_, ?_, ?_, ?_, ?_, ?_, ?_, ⟨⟨0, rfl, ?_⟩, fun c h => ?_, ?_⟩, ?_⟩
  all_goals first
    | decide +kernel
    | (cases h; decide +kernel)


/-! ### Fields -/

/-- Field 62 in the bank state for 10 ms at the throttle temperature, with other clock state. -/
def bankClk (k : Clk) : Clk := { k with fields := [(62, .bank)], sensors := [(248, 16 * 95)] }
def sBank (k : Clk) : State := sClk 200000000 (bankClk k)
/-- Whether a cold order of field 62 may be judged at all, and whether it is. -/
def mayB (s : State) : Bool :=
  decide (s.fieldPower 62 = .bank) && decide (Tab.get 0 s.clk.since 62 + 10000000 ≤ s.time) &&
    decide (16 * (s.regs.tthrottle : Int) ≤ s.fieldHot 62) && !s.obs.quench.active && (Tab.get none s.clk.ordered 62).isNone
def nowB (s : State) : Bool := mayB s && !s.switchOver 62
/-- A job context whose region lies over field 62. -/
def overField : Layout := { phase := 3, regions := [⟨⟨56, 48, 7, 7⟩, 0, false⟩] }
def sOver (l : Layout) (w : Option Switch) : State := { sBank {} with
  jobs := [(7, { loadedJob with fx0 := 6, fw := 2, slots := [(0, some ⟨0, 1, l⟩)], active := some 0, switch := w })] }
def sPause (cold : Bool) (g : Nat) (l : List Flight) : State :=
  { sClk 9 { fields := [(62, .cold)] } with net := { pause := some (g, cold, 0), flights := l } }
def lateFlit : Flight := { at_ := 0, flit := ⟨0, 0, 7, 0, 0, 0, false, 3, 0, 0, 0, zeros, 0, 0⟩ }

/-- FieldsRestAndRoutesChange: a field too hot for 1 ms and one that is not; a field in the bank state that has been cool for 100 ms,
forced to OP5, and neither; cold orders: one that waits, one deferred for a switch, one refused, one whose region has no variant, one
over no region and one over a region with a variant. -/
theorem wit_fields :
    (let hot := sClk 1000000 { hotAt := [(62, some 0)] }
     hot.fieldPower 62 = .active ∧ Tab.get none hot.clk.hotAt 62 = some 0 ∧ 0 + 1000000 ≤ hot.time ∧ hot.mesh = [] ∧ LogRoom hot 1 ∧
      Tab.get none hot.clk.hotAt 0 = none) ∧
    (let cool := sBank { coolAt := [(62, some 0)] }
     cool.fieldPower 62 = .bank ∧ cool.regs.st ≠ .safe ∧ LogRoom cool 1 ∧ cool.mesh = [] ∧ cool.obs.quench.active = false ∧
     Tab.get none cool.clk.coolAt 62 = some 0 ∧ 0 + 100000000 ≤ cool.time) ∧
    (let forced := sBank { halves := [(1, { op := 5, forced := [62] })] }
     forced.fieldPower 62 = .bank ∧ 62 ∈ (forced.half (halfOfField 62)).forced ∧ (forced.half (halfOfField 62)).op = 5) ∧
    (let s := sBank {}
     Tab.get none s.clk.coolAt 62 = none ∧ 62 ∉ (s.half (halfOfField 62)).forced) ∧
    mayB (sBank { ordered := [(62, some 0)] }) = false ∧
    (let w : Switch := { slot := 0, ring := 1, taking := 0, started := 0, variants := [] }
     mayB (sOver overField (some w)) = true ∧ (sOver overField (some w)).switchOver 62 = true) ∧
    (let no : State := { sBank {} with net := { cold := [63] } }
     let ok := sBank {}
     nowB ok = true ∧ ok.coldAllowed 62 = true ∧ ok.coldVariants 62 = [] ∧ ok.net.pause = none ∧ ok.net.pauseNext = [] ∧
     ok.changeRunning = false ∧ 62 ∉ ok.net.cold ∧ ok.variantsReady 62 = true ∧ ok.clk.ordered = [] ∧ nowB no = true ∧
     no.coldAllowed 62 = false ∧ LogRoom no 1) ∧
    (let s := sOver overField none
     nowB s = true ∧ s.coldAllowed 62 = true ∧ (s.coldVariants 62).find? (fun x => x.2.2.isNone) = some (7, 0, none) ∧ LogRoom s 1) ∧
    (let s := sOver { overField with fallbacks := [⟨0, 2, 62, 0, ⟨56, 56, 7, 7⟩, []⟩] } none
     nowB s = true ∧ s.coldAllowed 62 = true ∧ s.coldVariants 62 = [(7, 0, some (0, 0))] ∧ (s.job 7).draining = none) := by
  unfold LogRoom
  refine ⟨?_, ?_, ?_, ?_, ?_, ?_, ?_, ?_, ?_⟩ <;> decide +kernel

/-- FieldsRestAndRoutesChange: a field that is routed out and one not ordered; a cold field that returns and one that is not cold long
enough; a route pause of a field that goes cold and of one that returns, with and without flits, and one of another field. -/
theorem wit_routes :
    (let s : State := { sBank { ordered := [(62, some 5)] } with net := { cold := [62] } }
     Tab.get none s.clk.ordered 62 = some 5 ∧ s.fieldPower 62 = .bank ∧ 62 ∈ s.net.cold ∧ LogRoom s 1 ∧
     Tab.get none (sBank {}).clk.ordered 62 = none) ∧
    (let s := sClk 1000000000 { fields := [(62, .cold)], chillAt := [(62, some 0)] }
     s.fieldPower 62 = .cold ∧ Tab.get none s.clk.chillAt 62 = some 0 ∧ 0 + 1000000000 ≤ s.time ∧ s.net.pause = none ∧
     s.changeRunning = false ∧ ¬ 1 + 1000000000 ≤ s.time) ∧
    (∀ cold ∈ [true, false], (sPause cold 62 []).net.pause = some (62, cold, 0) ∧ LogRoom (sPause cold 62 []) 1 ∧
      (sPause cold 62 []).net.flights = [] ∧ (sPause cold 62 []).fieldPower 62 = .cold ∧
      (sPause cold 62 [lateFlit]).net.flights ≠ [] ∧ (sPause cold 62 [lateFlit]).net.pause = some (62, cold, 0)) ∧
    (sPause true 61 []).net.pause = some (61, true, 0) ∧ (61 : Nat) ≠ 62 ∧ (sBank {}).net.pause = none := by
  unfold LogRoom
  refine ⟨?_, ?_, ?_, ?_, ?_, ?_⟩ <;> decide +kernel

end Sys2Proof.Tests
end

