-- ==== Sys2Proof/Tests/WitControl.lean ====
section
/-! SUPPORT. Witnesses for the statements about contexts, semaphores and scalar words: states and operands that meet their hypotheses. -/

set_option Elab.async false

namespace Sys2Proof.Tests

open Sys2Proof Sys2Proof.Machine

/-- ScalarOperationsWriteTheirResult: a shift by 63. -/
theorem wit_scalar : HasHead sRun h0 ∧ (63#32).toNat < 64 :=
  ⟨hasHead_of (by decide), by decide⟩

/-- ControlOperationsTakeEffect: masks and ranks at the ends of their ranges, a FENCE that goes on and one that waits for its
context's tile, and a core of a job context with a layout in force and a region. -/
theorem wit_control :
    let s : State := { withCore { coreWith [] with drain := some ⟨{}, .queue, 0, none, false, false⟩ } with jobs := [(0, job0)] }
    HasHead s h0 ∧ (3#32).toNat < 4 ∧ (15#32).toNat < 16 ∧ s.fenceOk 0 0 15 = false ∧ s.fenceOk 0 0 14 = true ∧
    s.jobOf 0 = some 0 ∧ (s.job 0).layout = some oneRegion ∧ (s.job 0).regionAt 0 = some (0, ⟨0, 0, 7, 7⟩, 0) := by
  refine ⟨hasHead_of ?_, ?_⟩ <;> decide

/-- BranchesGoToTheirTargets: the last word of the code is a target; a jump by register to it; registers that compare both ways. -/
theorem wit_branches :
    let s := withCore (coreWith [(1, 56), (2, 0xFFFFFFFFFFFFFFFF#64)])
    let x := s.ctx 0 0
    let target := (BitVec.ofNat 64 x.pc + BitVec.ofInt 64 (8 * (7#32).toInt)).toNat
    HasHead s h0 ∧ x.codeBase ≤ target ∧ target + 8 ≤ x.codeBase + x.codeLen ∧ (x.reg 1).toNat % 8 = 0 ∧
    (x.reg 1).toNat + 8 ≤ x.codeBase + x.codeLen ∧ x.reg 1 ≠ x.reg 2 ∧ (x.reg 2).toInt < (x.reg 1).toInt ∧
    (x.reg 1).toNat < (x.reg 2).toNat := by
  refine ⟨hasHead_of ?_, ?_⟩ <;> decide

/-- OwnWindowLoadsAndStores: the last word of the banks. -/
theorem wit_own_window :
    let s := withCore (coreWith [(1, 0x5FFFF8)])
    let off := ((s.ctx 0 0).reg 1 + (0#32).signExtend 64).toNat
    HasHead s h0 ∧ off % 8 = 0 ∧ off + 8 = spadBytes ∧ s.errOf (windowAddr 0 off / 32) = 0 := by
  refine ⟨hasHead_of ?_, ?_⟩ <;> decide

/-- IllegalWordsFault: class 0xB, which R181 does not name, in a job context, with an empty log. -/
theorem wit_illegal_word :
    let s : State := { sRun with jobs := [(0, job0)] }
    HasHead s h0 ∧ legalWord 0xB000000000000000#64 = false ∧ s.jobOf 0 = some 0 ∧ LogRoom s 1 := by
  refine ⟨hasHead_of ?_, ?_, ?_, ?_⟩
  · decide
  · decide
  · decide
  · unfold LogRoom; decide

/-- A core whose semaphore 63 holds 5 and semaphore 1 holds 65,535 with a waiter. -/
def semCore : Core :=
  { coreWith [(1, 65535), (2, 7)] with
    sems := [(1, ⟨65535, false, false⟩), (63, ⟨5, false, false⟩)], waiters := [(1, .ctx 1, 65535)] }

/-- SemaphoresCountAndWait: an immediate at the value, one above it, a listed waiter, register values, and an overflow. -/
theorem wit_semaphores :
    let s := withCore semCore
    let imm : SemWord := ⟨0, 0, 63, false, 0, 5⟩
    let more : SemWord := ⟨0, 0, 63, false, 0, 6⟩
    let listed : SemWord := ⟨0, 0, 1, false, 0, 1⟩
    let reg : SemWord := ⟨0, 0, 63, true, 1, 0⟩
    let read : SemWord := ⟨3, 0, 63, false, 0, 0⟩
    HasHead s h0 ∧ (reg.vr = true ∧ ((s.ctx 0 0).reg reg.sb.toNat).toNat < 65536) ∧
    semLegal .wait imm = true ∧ semLegal .try_ imm = true ∧ semLegal .sig imm = true ∧ semLegal .set imm = true ∧
    semLegal .read read = true ∧ 1 ≤ semValue (s.ctx 0 0) imm ∧ (s.core 0).hasWaiter 63 = false ∧
    semValue (s.ctx 0 0) imm ≤ ((s.core 0).sem 63).value ∧ ((s.core 0).sem 63).value < semValue (s.ctx 0 0) more ∧
    semLegal .wait more = true ∧ semLegal .try_ more = true ∧ semLegal .wait listed = true ∧ semLegal .try_ listed = true ∧
    (s.core 0).hasWaiter 1 = true ∧ semLegal .sig reg = true ∧ semLegal .set reg = true ∧
    ((s.core 0).sem 63).value + semValue (s.ctx 0 0) imm ≤ 65535 ∧
    65535 < ((s.core 0).sem 63).value + semValue (s.ctx 0 0) reg := by
  refine ⟨hasHead_of ?_, ?_⟩ <;> decide

/-- WaitersAreServedInTurn: a context that waits for all of 65,535, and a stream that waits for one. -/
theorem wit_waiters :
    let s := withCore semCore
    let u := withCore { semCore with waiters := [(63, .stream 31, 1)] }
    (s.core 0).waiters.find? (fun w => w.1 = 1) = some (1, .ctx 1, 65535) ∧ 65535 ≤ ((s.core 0).sem 1).value ∧
    (u.core 0).waiters.find? (fun w => w.1 = 63) = some (63, .stream 31, 1) ∧ 1 ≤ ((u.core 0).sem 63).value := by decide

/-- RemoteSignalsAreSent: to another core of the job context's field, in service and out of service. -/
theorem wit_remote_signal :
    let s : State := { withCore semCore with jobs := [(0, job0)] }
    let w : SemWord := ⟨0, 2, 63, true, 1, 0⟩
    HasHead s h0 ∧ ((s.ctx 0 0).reg w.sb.toNat).toNat < 65536 ∧ semLegal .sigr w = true ∧ 1 ≤ semValue (s.ctx 0 0) w ∧
    ((s.ctx 0 0).reg w.sa.toNat).toNat = 7 ∧ s.jobOf 0 = some 0 ∧ (s.job 0).holds 7 = true ∧ s.net.oos.contains 7 = false ∧
    ({ s with net := { oos := [7] } } : State).net.oos.contains 7 = true := by
  refine ⟨hasHead_of ?_, ?_⟩ <;> decide

/-- CheckOperationsTakeEffect: with and without a released check that has no verdict. -/
theorem wit_checks :
    let q : Check := { id := 0, kind := 0, producer := 0, ctx := 0, checker := 1, job := 0, step := 0, released := true, update := false }
    let s : State := { sRun with integ := { checks := [q] } }
    HasHead s h0 ∧ s.checksPending 0 0 = true ∧ HasHead sRun h0 ∧ sRun.checksPending 0 0 = false := by
  refine ⟨hasHead_of ?_, ?_, hasHead_of ?_, ?_⟩ <;> decide

/-- GuardsBoundWaiting: master 4 has been refused for 256 cycles on a port that the owner requests too, and another port where none
has; a scrubber that has waited 4,094 cycles and one that has waited 4,095, each at a clean granule; two ready heads, of which
context 3 has been refused for 4,096 cycles by one unit and none by another. -/
theorem wit_guards :
    let c : Core := { ports := [(0, ⟨0, [(4, 256)]⟩)], scrubs := [(0, ⟨0, 4094⟩), (3, ⟨0, 4095⟩)]
                      ctxs := [(3, { runCtx with refused := [(2, 4096)] })] }
    let s := withCore c
    let runs (u k : Nat) : Nat := Tab.get 0 (s.ctx 0 k).refused u
    ((0b10001#5).getLsbD 4 = true ∧ (0b10001#5).getLsbD 0 = true ∧ (0b10001#5) ≠ 0 ∧
    256 ≤ Tab.get 0 (Tab.get {} (s.core 0).ports 0).waits 4 ∧ Tab.get 0 (Tab.get {} (s.core 0).ports 2).waits 4 < 256 ∧
    (Tab.get {} (s.core 0).scrubs 0).idle < 4095 ∧
    4095 ≤ (Tab.get {} (s.core 0).scrubs 3).idle ∧ (0b1100#4) ≠ 0 ∧ (0b1100#4).getLsbD 3 = true ∧ 4096 ≤ runs 2 3 ∧
    ∀ k, k < 4 → runs 3 k < 4096) ∧ ∀ a n, CleanAt s a n := by
  refine ⟨?_, fun a n => clean_of_nil _ a n rfl⟩
  decide

end Sys2Proof.Tests
end

