-- ==== Sys2Proof/Tests/WitFirmware.lean ====
section
/-! SUPPORT. Witnesses for the statements about firmware, keys and reports: states and operands that meet their hypotheses. -/

set_option Elab.async false

namespace Sys2Proof.Tests

open Sys2Proof Sys2Proof.Machine

/-! ### Firmware, keys and reports -/

/-- FirmwareKeysAndReportsFollowTheirChecks: FIRMWARE_UPDATE of an image that is not aligned, of none, and of one whose header is zero (the
other outcomes are the three cases of the free functions of R549 and R551); SECURITY_VERSION that does not rise, above 63, above an
image, and 63; KEY_PROVISION of slot 16, SET of slot 0 and of slot 15, and ERASE; ATTEST short and long, and at an address that is not
aligned. -/
theorem wit_firmware :
    let s (op len arg : Nat) (b : List Byte) (q : Sec) : State :=
      { sCmd {} 3 (entry op 0xFF (if len = 0 then 0 else blk) len arg 0) (cellsAt blk b) with sec := q }
    let adm (op len arg : Nat) (b : List Byte) (q : Sec) : Bool :=
      admittedB (s op len arg b q) 63 op (ringOf 3 (entry op 0xFF (if len = 0 then 0 else blk) len arg 0))
        (entry op 0xFF (if len = 0 then 0 else blk) len arg 0)
    let read (op len : Nat) (b : List Byte) := (s op len 0 b {}).blockOf (entry op 0xFF blk len 0 0)
    let update (h n : Nat) : List Byte := leBytes 8 h ++ leBytes 4 n ++ leBytes 4 0
    let img : Sec := { secver := 62, imgSecver := 63, image := leBytes 12 0 ++ [63, 0, 0, 0] }
    let key (slot op role jobs wrap : Nat) : List Byte :=
      leBytes 1 slot ++ leBytes 1 op ++ leBytes 1 role ++ leBytes 1 jobs ++ leBytes 1 wrap ++ leBytes 3 0
    let claimed : Sec := { session := some ⟨0, 3, 0xFF, true, [], []⟩ }
    let claim (q : Sec) : Bool := (q.session.map (·.claim)).getD false
    let attest (long a : Nat) : List Byte := leBytes 48 0 ++ leBytes 8 a ++ leBytes 1 long
    (∀ b ∈ [update (hostBase + 1) 4096, update hostBase 0, update hostBase 4096], adm 0x08 16 0 b {} = true) ∧
    ((hostBase + 1) % 4096 ≠ 0 ∧ fieldAt (read 0x08 16 (update hostBase 0)) 8 4 = 0 ∧
      fieldAt (read 0x08 16 (update hostBase 4096)) 0 8 % 4096 = 0 ∧ zeroAt (read 0x08 16 (update hostBase 4096)) 12 4 = true ∧
      inHost hostBase 4096 = true ∧ (s 0x08 16 0 (update hostBase 4096) {}).hostOk hostBase 4096 = true ∧
      fwFirstFail ((s 0x08 16 0 (update hostBase 4096) {}).bytes hostBase 4096) 0 = some 1) ∧
    (∀ v ∈ [62, 63, 64], adm 0x0A 0 v [] img = true) ∧ adm 0x0A 0 63 [] { img with image := [] } = true ∧
    (img.secver < 63 ∧ 63 ≤ img.imgSecver ∧ 63 ≤ fwSecver img.image ∧ fwSecver [] < 63 ∧ LogRoom (s 0x0A 0 63 [] img) 1) ∧
    (adm 0x09 64 0 (key 16 1 3 0 0) {} = true ∧ keyBlockOk (read 0x09 64 (key 16 1 3 0 0)) = false) ∧
    (∀ b ∈ [key 0 1 3 0 0, key 15 1 1 0x80 0, key 0 1 3 0 1], adm 0x09 64 0 b claimed = true ∧ claim claimed = true ∧
      keyBlockOk (read 0x09 64 b) = true) ∧
    (∀ b ∈ [key 15 2 0 0 1, key 15 1 1 0x80 1], adm 0x09 64 0 b {} = true ∧ claim {} = false ∧ keyBlockOk (read 0x09 64 b) = true) ∧
    (∀ p ∈ [(0, hostBase), (1, hostBase), (0, hostBase + 1), (2, hostBase)], adm 0x0B 64 0 (attest p.1 p.2) {} = true ∧
      fieldAt (read 0x0B 64 (attest p.1 p.2)) 0x38 1 = p.1 ∧ fieldAt (read 0x0B 64 (attest p.1 p.2)) 0x30 8 = p.2 ∧
      zeroAt (read 0x0B 64 (attest p.1 p.2)) 0x39 7 = true ∧ inHost p.2 61344 = true) := by
  unfold LogRoom; decide +kernel

end Sys2Proof.Tests
end

