-- ==== Sys2Proof/Tests/WitFrames.lean ====
section
/-! SUPPORT. Witnesses for the statements about frames of the fabric: states and operands that meet their hypotheses. -/

set_option Elab.async false

namespace Sys2Proof.Tests

open Sys2Proof Sys2Proof.Machine

/-! ### The fabric -/

/-- A frame for port 139 from server 0 of fabric group 63, as R377, R382 and R387 lay it out, with a message. -/
def wordsWithParity : List Byte → Nat → List Byte
  | _, 0 => []
  | bs, n + 1 => bs.take 32 ++ wcParity (bs.take 32) ++ wordsWithParity (bs.drop 32) n
def frameBody (m : Msg) : List Byte :=
  let n := m.payload.length / 32
  [0, 0, 0, 0, 0, 139, 0, 0, 0, 0, 0, 0, 0x88, 0xB5] ++ leBytes 1 1 ++ leBytes 1 m.typ ++ leBytes 1 0 ++ leBytes 1 63 ++
    leBytes 2 1 ++ leBytes 1 0 ++ leBytes 1 34 ++ leBytes 4 m.seq ++ leBytes 4 1 ++ leBytes 4 0 ++ leBytes 2 (32 + 36 * n) ++
    leBytes 2 0 ++ leBytes 4 m.tag ++ leBytes 4 m.obj ++ leBytes 8 m.offset ++ leBytes 8 m.count ++ leBytes 4 m.version ++
    leBytes 1 m.mflags ++ leBytes 1 m.status ++ leBytes 1 m.rtype ++ leBytes 1 0 ++ wordsWithParity m.payload n
def withFcs (b : List Byte) : List Byte := b ++ leBytes 4 (crc32 b).toNat
def frameOf (m : Msg) : List Byte := withFcs (frameBody m)
def rxOf (m : Msg) : RxMsg := ⟨63, 1, 0, 34, 1, 0, m, 0, true⟩

/-- The group, its ports and a job context bound to it. -/
def fGroup : FGroup := { member := 1, members := 2, live := [1], servers := [0] }
def sFabric (st : PortState) (beats : Nat) (j : Job) (x : IoSite) (cs : List Conn) : State where
  jobs := [(7, j)]
  fabric := { ports := [(139, ⟨st, beats, 0⟩)], groups := [(63, some fGroup)], conns := cs, sites := [(34, x)] }
def boundJob : Job := { job0 with fgroup := some 63, regions := [⟨0, 0x2000, rkStaging, 7⟩, ⟨0x2000000, 1, rkPartner, 7⟩, ⟨0x2001000, 1, rkOwned, 7⟩] }
def sUp (j : Job) (x : IoSite) : State := sFabric .up 0 j x []

/-- What a port finds behind the FCS of a frame. -/
def behindFcs (s : State) (p : Nat) (bs : List Byte) : RxCheck :=
  let n := bs.length
  let t := bs.drop 14
  let h := bs.drop 38
  let len := fieldAt t 20 2
  let words := (len - 32) / 36
  let g := fieldAt t 3 1
  if bs.take 6 ≠ s.portMac p || decide ((bs.getD 12 0).toNat * 256 + (bs.getD 13 0).toNat ≠ s.regs.etherType) then .discard
  else if fieldAt t 0 1 ≠ 1 || decide (1 < fieldAt t 2 1) || !zeroAt t 22 2 || !serverSends (fieldAt t 1 1) then .refuse
  else if len < 32 ∨ (len - 32) % 36 ≠ 0 ∨ 128 < words ∨ n ≠ 42 + len then .refuse
  else
    match (if g < 64 then s.group g else none) with
    | none => .refuse
    | some x =>
      if fieldAt t 4 2 ≠ x.member ∨ x.servers.length ≤ fieldAt t 6 1 ∨ fieldAt t 7 1 ≠ p / 4 then .refuse
      else
        match rxWords (bs.drop 70) words with
        | none => .lost
        | some q =>
          .ok ⟨g, fieldAt t 4 2, fieldAt t 6 1, fieldAt t 7 1, fieldAt t 12 4, fieldAt t 16 4,
            ⟨fieldAt t 8 4, fieldAt t 1 1, fieldAt h 0 4, fieldAt h 4 4, fieldAt h 8 8, fieldAt h 16 8, fieldAt h 24 4,
              fieldAt h 28 1, fieldAt h 29 1, fieldAt h 30 1, q.1, 0⟩, q.2,
            zeroAt h 3 1 && zeroAt h 31 1 && decide (fieldAt h 28 1 < 32 ∧ fieldAt h 28 1 % 4 ≠ 3 ∧ fieldAt h 29 1 ≤ 4)⟩

theorem four_bytes (w : Word32) : leNat (leBytes 4 w.toNat) = w.toNat := by
  simp only [leBytes, leNat, BitVec.toNat_ofNat]; omega

/-- A frame with an FCS passes that check exactly where the FCS is the CRC of what stands before it. -/
theorem check_tail (s : State) (p : Nat) (b : List Byte) (w : Word32) (h : 60 ≤ b.length) (h' : b.length ≤ 9212) :
    s.checkFrame p (b ++ leBytes 4 w.toNat) = if crc32 b = w then behindFcs s p (b ++ leBytes 4 w.toNat) else .badFcs := by
  have l : (b ++ leBytes 4 w.toNat).length = b.length + 4 := by simp [leBytes]
  unfold State.checkFrame
  simp only [l, Nat.add_sub_cancel, List.take_left]
  have f : fieldAt (b ++ leBytes 4 w.toNat) b.length 4 = w.toNat := by
    unfold fieldAt
    rw [List.drop_left]
    exact four_bytes w
  rw [if_neg (show ¬ b.length + 4 < 4 by omega), f]
  by_cases e : crc32 b = w
  · rw [if_pos e, if_neg (by rw [e]; exact fun x => x rfl), if_neg (by omega)]
    unfold behindFcs; simp only [l] <;> rfl
  · rw [if_neg e, if_pos (by intro x; exact e (BitVec.eq_of_toNat_eq x))]

/-- A frame whose FCS is one too high is refused for it. -/
theorem bad_fcs (s : State) (p : Nat) (b : List Byte) (h : 60 ≤ b.length ∧ b.length ≤ 9212) :
    s.checkFrame p (b ++ leBytes 4 (crc32 b + 1).toNat) = .badFcs := by
  rw [check_tail s p b _ h.1 h.2, if_neg]
  generalize crc32 b = w
  bv_omega

/-- What a good FCS leaves to check. -/
theorem good_fcs (s : State) (p : Nat) (b : List Byte) (h : 60 ≤ b.length ∧ b.length ≤ 9212) {r : RxCheck}
    (e : behindFcs s p (withFcs b) = r) : s.checkFrame p (withFcs b) = r := by
  unfold withFcs at *
  rw [check_tail s p b _ h.1 h.2, if_pos rfl, e]

/-- A message of a type arrives in its order. -/
def arrivesB (s : State) (m : Msg) : Bool :=
  let bs := frameOf m
  decide (60 ≤ (frameBody m).length ∧ (frameBody m).length ≤ 9212) && decide (behindFcs s 139 bs = .ok (rxOf m)) &&
    decide (s.portState 139 = .up) && decide (frameType bs = m.typ) && m.typeOk && decide ((connOf s (rxOf m)).expect = m.seq) &&
    decide ((connOf s (rxOf m)).held = []) && decide ((connOf s (rxOf m)).sentCredit % 2 ^ 32 ≠ m.seq)
theorem arrives_of {s : State} {m : Msg} (h : arrivesB s m = true) : Arrives s 139 (frameOf m) (rxOf m) m.typ := by
  simp only [arrivesB, Bool.and_eq_true, decide_eq_true_eq] at h
  obtain ⟨⟨⟨⟨⟨⟨⟨a, b⟩, c⟩, d⟩, e⟩, f⟩, g⟩, k⟩ := h
  exact ⟨c, good_fcs s 139 _ a b, rfl, d, rfl, e, f, g, k⟩

/-- FramesAreCheckedAndConnectionsKept: ports that are not open, and each verdict on a frame: one of 3 bytes, one of a group that is not
configured, one whose FCS is wrong, and one with two wrong check symbols. -/
theorem wit_frame_checks :
    let s := sUp boundJob {}
    let body := frameBody { msg mPermute with payload := leBytes 32 0 }
    let other := body.set 17 62
    let lost := body.take 102 ++ [1, 2, 3] ++ body.drop 105
    ¬(({} : State).portState 139 = .up ∨ ({} : State).portState 139 = .training) ∧ s.portState 139 = .up ∧
    s.checkFrame 139 [0, 0, 0] = .discard ∧ s.checkFrame 139 (withFcs other) = .refuse ∧
    s.checkFrame 139 (body ++ leBytes 4 (crc32 body + 1).toNat) = .badFcs ∧ s.checkFrame 139 (withFcs lost) = .lost := by
  refine ⟨by decide, by decide, ?_, good_fcs _ _ _ (by decide +kernel) (by decide +kernel), bad_fcs _ _ _ (by decide +kernel),
    good_fcs _ _ _ (by decide +kernel) (by decide +kernel)⟩
  unfold State.checkFrame; simp

/-- FramesAreCheckedAndConnectionsKept: an ACK without and with a NAK, the second and the third HEARTBEAT of a training port, a message
that has been sent 64 times, and connections with something and with nothing to acknowledge. -/
theorem wit_frame_types :
    let nak : Msg := { msg mAck with count := 1, payload := leBytes 4 2 ++ leBytes 28 0 }
    let sent (n : Nat) : Msg := { msg mContrib with seq := n, sends := 64 }
    let conn : Conn := { group := 63, site := 34, server := 0, unacked := [sent 0, sent 2] }
    let u := sFabric .up 0 boundJob {} [conn]
    let train (b : Nat) : State := { sFabric .training b boundJob {} [] with regs := { hbInt := 100 } }
    (∀ m ∈ [nak, msg mAck], u.portState 139 = .up ∧ frameType (frameOf m) = mAck ∧ m.typeOk = true ∧
      (connOf u (rxOf m)).queue = []) ∧
    u.checkFrame 139 (frameOf nak) = .ok (rxOf nak) ∧ u.checkFrame 139 (frameOf (msg mAck)) = .ok (rxOf (msg mAck)) ∧
    (nakSeqs nak = [2] ∧ (msg mAck).count = 0 ∧
      ((connOf u (rxOf nak)).unacked.filter (fun z => !seqBefore z.seq 1)).find? (fun z => z.seq = 2) = some (sent 2)) ∧
    (∀ b ∈ [1, 2], (train b).portState 139 = .training ∧ LogRoom (train b) 2 ∧ ((train b).port 139).beats = b ∧
      ¬((train b).port 139).beatAt + 2000 * (train b).regs.hbInt ≤ (train b).time) ∧
    (train 2).checkFrame 139 (frameOf (msg mHeartbeat)) = .ok (rxOf (msg mHeartbeat)) ∧
    (train 1).checkFrame 139 (frameOf (msg mHeartbeat)) = .ok (rxOf (msg mHeartbeat)) ∧ (msg mHeartbeat).typeOk = true ∧
    frameType (frameOf (msg mHeartbeat)) = mHeartbeat ∧
    (u.siteConn 34 0 = some conn ∧ u.conn 34 63 0 = conn ∧ conn.unacked.find? (fun z => z.seq = 2) = some (sent 2) ∧ LogRoom u 2) ∧
    (conn.sinceAck = 0 ∧ conn.held = [] ∧
      (let due : Conn := { conn with sinceAck := 1 }
       let v := sFabric .up 0 boundJob {} [due]
       v.siteConn 34 0 = some due ∧ v.conn 34 63 0 = due ∧ 0 < due.sinceAck ∧ LogRoom v 1)) ∧
    u.siteConn 34 1 = none := by
  unfold LogRoom
  refine ⟨by decide +kernel, good_fcs _ _ _ (by decide +kernel) (by decide +kernel),
    good_fcs _ _ _ (by decide +kernel) (by decide +kernel), by decide +kernel, by decide +kernel,
    good_fcs _ _ _ (by decide +kernel) (by decide +kernel), good_fcs _ _ _ (by decide +kernel) (by decide +kernel), by decide +kernel⟩

end Sys2Proof.Tests
end

