-- ==== Sys2Proof/Tests/WitHostData.lean ====
section
/-! SUPPORT. Witnesses for the statements about the window, tokens and records: states and operands that meet their hypotheses. -/

set_option Elab.async false

namespace Sys2Proof.Tests

open Sys2Proof Sys2Proof.Machine

/-! ### Host data -/

/-- TheWindowReadsAndWritesItsRegions: the last 64 bytes of a staging region, one byte behind the region, no byte, one past the end of
BAR2, a device in D3hot; WINDOW_SET in stack memory, at an address that is not aligned, and past the stacks. -/
theorem wit_window :
    let j : Job := { job0 with regions := [⟨0, 16, rkStaging, 0⟩] }
    let s : State := { sCmd j 1 (entry 0x03 7 0 0 0 0x1000) [] with
      interleave := [0], host := { windowJob := some 7, windowBase := 0 } }
    let d : State := { s with host := { s.host with d3hot := true } }
    let e (a : Nat) := entry 0x03 7 0 0 0 a
    let w (a : Nat) : State := { sCmd j 1 (e a) [] with interleave := [0] }
    (s.regs.st ≠ .boot ∧ s.host.d3hot = false ∧ (s.bar2Region 0xFFC0 64).isSome = true ∧ 0xFFC0 + 64 ≤ bar2Size ∧ LogRoom s 2) ∧
    (s.bar2Admits 0xFFC0 zeros.length = true ∧ s.bar2Admits 0xFFC1 zeros.length = false ∧ s.bar2Region 0x10000 1 = none ∧
      bar2Size < (bar2Size - 1) + 2) ∧
    ((∀ i, (s.stack i).st ≠ .fencedRun) ∧ ∀ a n, CleanAt s a n) ∧ d.host.d3hot = true ∧
    (∀ a ∈ [0, 0x1001, s.stackEnd], admittedB (w a) 63 ocWindowSet (ringOf 1 (e a)) (e a) = true) ∧
    (0 < (w 0).stackEnd ∧ 0x1001 % 4096 ≠ 0 ∧ (w s.stackEnd).stackEnd ≤ s.stackEnd) := by
  refine ⟨?_, ?_, ⟨stacks_online _ rfl, fun a n => clean_of_nil _ a n rfl⟩, ?_⟩
  · unfold LogRoom; decide +kernel
  all_goals decide +kernel

/-- TokensMoveBetweenHostAndModule: blocks that are all zero, that name a core out of service, and that name the last 64 bytes of a
staging region or of a scratchpad window; a stopped spur and an earlier token command. -/
theorem wit_tokens :
    let j : Job := { job0 with regions := [⟨0, 16, rkStaging, 0⟩] }
    let block (d m : Nat) : List Byte := leBytes 8 (hostBase + 0x1000) ++ leBytes 8 d ++ leBytes 4 64 ++ leBytes 12 m
    let e (op : Nat) := entry op 7 blk 32 0 0
    let s (op d m : Nat) : State := { sCmd j 1 (e op) (cellsAt blk (block d m)) with interleave := [0] }
    let bad (op : Nat) : State := { s op 0 0 with mem := [] }
    let pad := windowAddr 0 (spadBytes - 64)
    let out (op : Nat) : State := { s op pad 0 with net := { oos := [0] } }
    let c (op : Nat) : Cmd := ⟨63, 0, e op⟩
    (∀ p ∈ [(0x20, true), (0x21, false)],
      admittedB (bad p.1) 63 p.1 (ringOf 1 (e p.1)) (e p.1) = true ∧ (bad p.1).tokenOk (c p.1) ((bad p.1).blockOf (e p.1)) p.2 = false ∧
      admittedB (out p.1) 63 p.1 (ringOf 1 (e p.1)) (e p.1) = true ∧ (out p.1).tokenOk (c p.1) ((out p.1).blockOf (e p.1)) p.2 = true ∧
      (out p.1).tokenState (c p.1) ((out p.1).blockOf (e p.1)) p.2 = false ∧
      (bad p.1).tokenWaits 63 = false ∧ (out p.1).tokenWaits 63 = false) ∧
    (∀ p ∈ [(0x20, true, 0xFFC0, 0), (0x20, true, pad, 63), (0x20, true, pad, 127), (0x21, false, 0xFFC0, 0), (0x21, false, pad, 0)],
      let t := s p.1 p.2.2.1 p.2.2.2
      admittedB t 63 p.1 (ringOf 1 (e p.1)) (e p.1) = true ∧ t.tokenOk (c p.1) (t.blockOf (e p.1)) p.2.1 = true ∧
      t.tokenState (c p.1) (t.blockOf (e p.1)) p.2.1 = true ∧ t.firstFail (hostBase + 0x1000) 64 = none ∧ p.2.2.1 + 64 ≤ hostBase ∧
      fieldAt (t.blockOf (e p.1)) 20 1 = p.2.2.2 ∧ t.tokenWaits 63 = false) ∧
    ({ s 0x20 pad 0 with net := { stopped := true } } : State).net.stopped = true ∧
    (∃ y ∈ ({ s 0x20 pad 0 with host := { tokens := [⟨63, 0, 0, 0⟩] } } : State).host.tokens, y.ring = 63) ∧
    (spadTarget 0xFFC0 64 = none ∧ spadTarget pad 64 = some (0, spadBytes - 64)) ∧
    (∀ a n, CleanAt (s 0x21 pad 0) a n) ∧ ∀ i, ((s 0x21 pad 0).stack i).st ≠ .fencedRun := by
  refine ⟨?_, ?_, rfl, ⟨_, List.mem_singleton.mpr rfl, rfl⟩, ?_, fun a n => clean_of_nil _ a n rfl, stacks_online _ rfl⟩
  all_goals decide +kernel

/-- RecordsAreReadAndCleared: COUNTER_READ of no kind, of the last core for the Job ring of another job context, and of the last router
with RESET; TRACE_CONFIG, EVENT_READ good and bad; EVENT_CLEAR, CPER_READ, REPAIR_READ. -/
theorem wit_records :
    let counter (k reset first : Nat) : List Byte := leBytes 1 k ++ leBytes 1 reset ++ leBytes 2 first ++ leBytes 2 1 ++ leBytes 2 0 ++
      leBytes 8 hostBase ++ leBytes 16 0
    let trace : List Byte := leBytes 2 0xFE ++ [1, 15, 63, 63, 0, 0] ++ leBytes 8 (2 ^ 38 - 1) ++ leBytes 16 0
    let event (n : Nat) : List Byte := leBytes 8 hostBase ++ leBytes 4 0 ++ leBytes 4 n ++ leBytes 8 0
    let s (role op len : Nat) (b : List Byte) : State := sCmd job0 role (entry op 0xFF (if len = 0 then 0 else blk) len 0 0) (cellsAt blk b)
    let bad := entry 0x28 7 blk 32 0 0
    let job := sCmd job0 1 bad (cellsAt blk (counter 1 0 4095))
    let adm (role op len : Nat) (b : List Byte) : Bool :=
      admittedB (s role op len b) 63 op (ringOf role (entry op 0xFF (if len = 0 then 0 else blk) len 0 0))
        (entry op 0xFF (if len = 0 then 0 else blk) len 0 0)
    let blockOf (len : Nat) (b : List Byte) := (s 3 0x28 len b).blockOf (entry 0x28 0xFF blk len 0 0)
    (adm 2 0x28 32 (counter 0 0 0) = true ∧ counterBlockOk (blockOf 32 (counter 0 0 0)) = false) ∧
    (Admitted job 63 ocCounterRead (ringOf 1 bad) bad ∧ counterBlockOk (job.blockOf bad) = true ∧
      job.counterPermits ⟨63, 0, bad⟩ (job.blockOf bad) = false) ∧
    (adm 2 0x28 32 (counter 2 1 4095) = true ∧ counterBlockOk (blockOf 32 (counter 2 1 4095)) = true ∧
      (s 2 0x28 32 (counter 2 1 4095)).counterPermits ⟨63, 0, entry 0x28 0xFF blk 32 0 0⟩ (blockOf 32 (counter 2 1 4095)) = true) ∧
    (adm 2 0x29 32 trace = true ∧ traceBlockOk (blockOf 32 trace) = true ∧ adm 2 0x29 32 (leBytes 2 1) = true ∧
      traceBlockOk (blockOf 32 (leBytes 2 1)) = false) ∧
    (adm 2 0x2A 24 (event 65536) = true ∧ eventBlockOk (blockOf 24 (event 65536)) = true ∧ adm 2 0x2A 24 (event 0) = true ∧
      eventBlockOk (blockOf 24 (event 0)) = false) ∧
    (adm 3 0x2B 0 [] = true ∧ adm 2 0x2C 328 [] = true ∧ adm 2 0x2D 8 [] = true) := by
  refine ⟨⟨?_, ?_⟩, ⟨admitted_of ?_, ?_, ?_⟩, ?_⟩ <;> decide +kernel

end Sys2Proof.Tests
end

