-- ==== Sys2Proof/Tests/WitIntegrity.lean ====
section
/-! SUPPORT. Witnesses for the statements about checks, classifications and risk: states and operands that meet their hypotheses. -/

set_option Elab.async false

namespace Sys2Proof.Tests

open Sys2Proof Sys2Proof.Machine

/-! ### Integrity -/

/-- VerdictsAndClassificationsEnd: no check, a check of a tile, one of another kind in a commit window, and a quench; a classification of
a lane whose tile waits for its queue entry, of another kind in an open step, and a second one of a lane. -/
theorem wit_verdicts_of_checks :
    let tile : Check := { id := 5, kind := ckTile, producer := 0, ctx := 3, checker := 7, job := 0, step := 1, released := true, update := false, granules := 16 }
    let add : Check := { tile with id := 6, kind := ckAdd, producer := 4095, checker := 8, released := false, update := true }
    let r := { aStep 1 .normKnown with commit := true }
    let s : State := { sSteps [r] with integ := { checks := [tile, add] } }
    let quench : State := { s with obs := { quench := { active := true } } }
    let lane : Classing := ⟨0, cpLane, 3, 4095, 0, true⟩
    let other : Classing := ⟨4095, cpAdd, 0, 0xFFFF, 0, false⟩
    let d : Drain := { tile := { owner := 3 }, target := .queue, pc := 0, failed := true }
    let core : Core := { ctxs := [(3, { runCtx with st := .halted })], drain := some d, stopped := true, laneFails := 1 }
    let o := aStep 1 .open_
    let c : State := { sSteps [o] with integ := { classings := [lane, other] }, cores := [(0, core)] }
    let second : State := { c with cores := [(0, { core with laneFails := 2 })] }
    (s.checkById 7 = none ∧ quench.obs.quench.active = true ∧ s.obs.quench.active = false) ∧
    (∀ n ∈ s.integ.checks, n.checker ≠ 0 ∧ n.checker ≠ 4095) ∧ s.jobOf 0 = some 0 ∧ s.net.oos.contains 0 = false ∧
    (s.checkById 5 = some tile ∧ tile.kind = ckTile ∧ tile.update = false ∧ (s.job 0).draining = none ∧ LogRoom s 2) ∧
    (s.checkById 6 = some add ∧ add.kind ≠ ckTile ∧ add.update = true ∧ (s.job 0).committing = some r) ∧
    (c.classingOf 7 = none ∧ c.obs.quench.active = false ∧ LogRoom c 3) ∧
    (c.classingOf 0 = some lane ∧ lane.kind < 256 ∧ (c.core 0).laneFails < 2 ∧ lane.lane = true ∧ (c.core 0).drain = some d ∧
      d.target = .queue ∧ (c.core 0).freeEntry = some 0 ∧ (c.core 0).atC = none ∧ (c.core 0).matNext = none) ∧
    (c.classingOf 4095 = some other ∧ other.kind < 256 ∧ other.lane = false ∧ other.kind ≠ cpSpad ∧ (c.job 0).openStep = some o ∧
      (c.job 0).draining = none) ∧
    (second.classingOf 0 = some lane ∧ ¬ (lane.lane = false ∨ (second.core 0).laneFails < 2)) := by
  unfold LogRoom
  refine ⟨?_, ?_, ?_, ?_, ?_, ?_, ?_, ?_, ?_, ?_⟩ <;> decide +kernel

/-- SparesAreTestedAndRiskIsEstimated: an active field with its first spare, one whose spares are used, one that is cold; a test of column 7
that runs, one whose site has been taken, and none; an estimate that reaches every level, and one at which nothing changes. -/
theorem wit_spares_and_risk :
    let s : State := { sCmd { st := .loaded } 1 (entry 0x1A 7 0 0 1 0) [] with time := 5 }
    let used : State := { s with wafer := { sites := (List.range 8).map (fun i => (9 * i + 8, some .fenced)) } }
    let cold : State := { s with clk := { fields := [(63, .cold)] } }
    let run : State := { s with integ := { stress := [(63, some 7)] }, wafer := { sites := [(4607, some .spareTesting)] } }
    let taken : State := { run with wafer := { sites := [(4607, some .inService)] } }
    let hot : State := { s with
      integ := { health := List.replicate 64 (hNear, 0, 5) ++ List.replicate 64 (hReplays, 0, 5) ++ List.replicate 64 (hDroop, 0, 5) }
      clk := { sensors := [(0, 16 * 95)] } }
    let risk (t : State) : Nat := min 255 (t.riskInputs.foldl (· + ·) 0)
    (s.fieldPower 0 = .active ∧ s.testing 0 = none ∧ s.nextSpare 0 = some 0) ∧ used.nextSpare 0 = none ∧ cold.fieldPower 63 ≠ .active ∧
    (run.testing 63 = some 7 ∧ run.siteState (63 * 8 + 7) 8 = .spareTesting ∧ LogRoom run 1) ∧
    (taken.testing 63 = some 7 ∧ taken.siteState (63 * 8 + 7) 8 ≠ .spareTesting) ∧
    (hot.regs.risk / 64 ≠ risk hot / 64 ∧ LogRoom hot 1 ∧ (hot.job 7).st = .loaded ∧ 64 * 3 ≤ risk hot ∧ hot.reachedAt 7 3 = 0) ∧
    (risk s < 64 * 1 ∧ s.regs.risk / 64 = risk s / 64) := by
  unfold LogRoom; decide +kernel

end Sys2Proof.Tests
end

