-- ==== Sys2Proof/Tests/WitJobs.lean ====
section
/-! SUPPORT. Witnesses for the statements about job contexts and layouts: states and operands that meet their hypotheses. -/

set_option Elab.async false

namespace Sys2Proof.Tests

open Sys2Proof Sys2Proof.Machine

/-! ### Job contexts and layouts -/

/-- A manifest of job context 7 over the last field, with one staging region that holds the layout store (R308). -/
def manifest : List Byte :=
  [0x46, 0x4A, 0x44, 0x58, 1, 0, 7, 0, 7, 7, 1, 1, 1, 0, 0, 0] ++ leBytes 8 0 ++ leBytes 4 16 ++ leBytes 4 0x4C875940 ++
    leBytes 32 0 ++ leBytes 8 0 ++ leBytes 4 16 ++ [3, 7, 0, 0]

/-- An image of one section of 64 zero bytes (R211 to R213), and a layout of one region over the last field with it (R313). -/
def imageOf : List Byte :=
  leBytes 4 0x58445046 ++ leBytes 2 1 ++ leBytes 2 1 ++ leBytes 4 128 ++ leBytes 4 0xE8A73E8D ++ leBytes 48 0 ++ leBytes 4 0 ++
    leBytes 4 64 ++ [3, 0, 0, 0] ++ leBytes 4 0 ++ leBytes 48 0
def layoutFile : List Byte :=
  leBytes 4 0x58444C46 ++ leBytes 2 1 ++ [1, 1] ++ leBytes 4 256 ++ leBytes 4 0xB2A13093 ++ leBytes 2 1 ++ leBytes 8 0 ++
    leBytes 2 1 ++ leBytes 4 0 ++ leBytes 4 64 ++ leBytes 16 0 ++ leBytes 4 80 ++ leBytes 8 0 ++
    [56, 56, 7, 7] ++ leBytes 12 0 ++ leBytes 4 128 ++ leBytes 4 128 ++ leBytes 8 0 ++ leBytes 32 0 ++ imageOf

theorem manifest_crc : crcOk manifest 0x1C = true := crcOk_of (by decide +kernel)
theorem layout_crc : crcOk layoutFile 0x0C = true := crcOk_of (by decide +kernel)
theorem image_crc : (crc32 (imageOf.take 12 ++ leBytes 4 0 ++ imageOf.drop 16)).toNat = fieldAt imageOf 12 4 := by
  rw [crcOf_eq]; decide +kernel

theorem manifest_good : firstBad (jobChecks manifest 7 stackGiB72) = none := by
  unfold jobChecks; rw [manifest_crc]; decide +kernel
theorem image_good : (parseImage imageOf).isSome = true := by
  unfold parseImage
  rw [if_neg (by decide +kernel), if_neg]
  · decide +kernel
  · rw [image_crc]; decide +kernel
theorem layout_head : firstBad (layoutHeader layoutFile) = none := by
  unfold layoutHeader; rw [layout_crc]; decide +kernel
theorem layout_places : firstBad (tableChecks layoutFile) = none := by decide +kernel
theorem layout_image : imageBytes layoutFile 80 = imageOf := by decide +kernel
theorem layout_images : imageChecks layoutFile = [(80, imageEntryOk layoutFile [80] 0), (128, true)] := by
  unfold imageChecks
  rw [show entriesOf layoutFile 5 = [80] from by decide +kernel]
  show [(80, imageEntryOk layoutFile [80] 0)] ++ [(fieldAt layoutFile 80 4, (parseImage (imageBytes layoutFile 80)).isSome)] = _
  rw [show fieldAt layoutFile 80 4 = 128 from by decide +kernel, layout_image, image_good]
  rfl
theorem layout_entries :
    firstBad (regionChecks layoutFile loadedJob ++ groupChecks layoutFile 0 (layoutOf layoutFile).regions loadedJob ++
      tensorChecks layoutFile loadedJob ++ streamChecks layoutFile loadedJob ++
      fallbackChecks layoutFile loadedJob (layoutOf layoutFile).regions (layoutOf layoutFile).groups ++
      [(80, imageEntryOk layoutFile [80] 0), (128, true)] ++ reshardChecks layoutFile loadedJob) = none := by decide +kernel
theorem parse_ok {build : Nat} {j : Job} {bs : List Byte} (h : firstBad (layoutHeader bs) = none)
    (p : firstBad (tableChecks bs) = none)
    (e : firstBad (regionChecks bs j ++ groupChecks bs build (layoutOf bs).regions j ++ tensorChecks bs j ++ streamChecks bs j ++
      fallbackChecks bs j (layoutOf bs).regions (layoutOf bs).groups ++ imageChecks bs ++ reshardChecks bs j) = none) :
    parseLayout build j bs = .ok (layoutOf bs) := by
  unfold parseLayout; rw [h, p]; simp only [e]
theorem layout_good : parseLayout 0 loadedJob layoutFile = .ok (layoutOf layoutFile) :=
  parse_ok layout_head layout_places (by rw [layout_images]; exact layout_entries)

/-- Streams of cores that have none are idle. -/
theorem streams_idle (s : State) (j : Nat) (h : s.cores = []) : s.streamsIdle j = true := by
  unfold State.streamsIdle
  refine List.all_eq_true.mpr fun c _ => ?_
  unfold State.core; rw [h]; rfl

/-- JobsAreEmptiedBoundRunAndStopped: JOB_EMPTY of a loaded job context; FABRIC_GROUP of a group with a bound job context, of a record
of member 1 of 1, and of a good record; JOB_FABRIC to a group that is there and to one that is not. -/
theorem wit_job_binding :
    let empty := sCmd loadedJob 2 (entry 0x11 7 0 0 0 0) []
    let group (member : Nat) : List Byte := [63, 1] ++ leBytes 2 member ++ leBytes 2 1 ++ leBytes 10 0 ++ leBytes 128 1 ++ leBytes 8 7
    let ge := entry 0x13 0xFF blk 0x98 0 0
    let gs (member : Nat) (j : Job) := sCmd j 2 ge (cellsAt blk (group member))
    let be := entry 0x12 7 blk 16 0 0
    let bs (g : Nat) : State := { sCmd loadedJob 2 be (cellsAt blk [BitVec.ofNat 8 g, 64]) with
      fabric := { groups := [(63, some { members := 1, live := [0], servers := [7] })] } }
    (Admitted empty 63 ocJobEmpty (ringOf 2 (entry 0x11 7 0 0 0 0)) (entry 0x11 7 0 0 0 0) ∧ (empty.job 7).steps = [] ∧
      empty.snapOrders 7 = []) ∧
    (Admitted (gs 0 { loadedJob with fgroup := some 63 }) 63 ocFabricGroup (ringOf 2 ge) ge ∧
      (gs 0 { loadedJob with fgroup := some 63 }).boundJobs 63 ≠ []) ∧
    (Admitted (gs 1 loadedJob) 63 ocFabricGroup (ringOf 2 ge) ge ∧ (gs 1 loadedJob).boundJobs 63 = [] ∧
      parseGroup ((gs 1 loadedJob).blockOf ge) = none) ∧
    (Admitted (gs 0 loadedJob) 63 ocFabricGroup (ringOf 2 ge) ge ∧ (gs 0 loadedJob).boundJobs 63 = [] ∧
      parseGroup ((gs 0 loadedJob).blockOf ge) = some (63, { members := 1, live := [0], servers := [0x070000000000] })) ∧
    (Admitted (bs 63) 63 ocJobFabric (ringOf 2 be) be ∧ (bs 63).parseBinding loadedJob ((bs 63).blockOf be) = some (63, 64, []) ∧
      Admitted (bs 62) 63 ocJobFabric (ringOf 2 be) be ∧ (bs 62).parseBinding loadedJob ((bs 62).blockOf be) = none) := by
  refine ⟨⟨admitted_of ?_, ?_⟩, ⟨admitted_of ?_, ?_⟩, ⟨admitted_of ?_, ?_⟩, ⟨admitted_of ?_, ?_⟩, admitted_of ?_, ?_, admitted_of ?_, ?_⟩ <;>
    decide +kernel
theorem wit_alone : Alone (sCmd loadedJob 2 (entry 0x11 7 0 0 0 0) []) 7 := by
  intro r x h u hu
  rcases get_one (none : Option Ring) (some (ringOf 2 (entry 0x11 7 0 0 0 0))) 63 r with e | e
  · rw [State.ring, show (sCmd loadedJob 2 (entry 0x11 7 0 0 0 0) []).host.rings = [(63, some (ringOf 2 (entry 0x11 7 0 0 0 0)))] from rfl,
      e] at h
    cases h; cases hu
  · rw [State.ring, show (sCmd loadedJob 2 (entry 0x11 7 0 0 0 0) []).host.rings = [(63, some (ringOf 2 (entry 0x11 7 0 0 0 0)))] from rfl,
      e] at h
    cases h

/-- A job context whose one stream runs with nothing in flight. -/
def still (j : Job) (e : Entry) : State := { sCmd j 1 e [] with cores := [(4095, { streams := [(31, { st := .running })] })] }

/-- JobsAreEmptiedBoundRunAndStopped: JOB_RUN with no layout, in a switch, and after one; JOB_STOP in an open step, with every stream
at rest, and with a granule in flight. -/
theorem wit_job_run :
    let e := entry 0x17 7 0 0 0 0
    let h := entry 0x18 7 0 0 0 0
    let slot : Job := { loadedJob with slots := [(3, some ⟨0, 1, oneRegion⟩)], active := some 3 }
    let fresh : Job := { slot with switchFresh := true }
    let w : Switch := { slot := 3, ring := 1, taking := 0, started := 0, variants := [] }
    let run : Job := { slot with st := .running }
    let busy : State := { sCmd run 1 h [] with cores := [(4095, { streams := [(31, { st := .running, reqs := [⟨0, 0, 1, 0, 0, 0, 0, 32, 0, 1⟩] })] })] }
    (∀ j ∈ [loadedJob, { slot with switch := some w }, fresh], admittedB (sCmd j 1 e []) 63 ocJobRun (ringOf 1 e) e = true) ∧
    (((sCmd loadedJob 1 e []).job 7).activeSlot = none ∧ ((sCmd { slot with switch := some w } 1 e []).job 7).switch.isSome = true ∧
      ((sCmd fresh 1 e []).job 7).activeSlot.isSome = true ∧ ((sCmd fresh 1 e []).job 7).switch = none ∧
      ((sCmd fresh 1 e []).job 7).switchFresh = true ∧ (sCmd fresh 1 e []).mesh = []) ∧
    (∀ j ∈ [run, { run with steps := [aStep 1 .open_] }], admittedB (sCmd j 1 h []) 63 ocJobStop (ringOf 1 h) h = true) ∧
    ({ run with steps := [aStep 1 .open_] }.steps.any (·.holdsJob) = true ∧ run.stopping = none ∧ run.steps.any (·.holdsJob) = false) ∧
    (∀ c ∈ ((still run h).job 7).cores, Tab.wf {} ((still run h).core c).streams = true ∧
      ∀ q ∈ ((still run h).core c).streams, (q.2.st = .running ∨ q.2.st = .held) → q.1 < 32 ∧ q.2.quiet = true) ∧
    Admitted (still run h) 63 ocJobStop (ringOf 1 h) h ∧
    (Admitted busy 63 ocJobStop (ringOf 1 h) h ∧ 4095 ∈ (busy.job 7).cores ∧ ((busy.core 4095).stream 31).st = .running ∧
      ((busy.core 4095).stream 31).reqs ≠ []) := by
  refine ⟨by decide +kernel, by decide +kernel, by decide +kernel, by decide +kernel, by decide +kernel, admitted_of (by decide +kernel),
    admitted_of (by decide +kernel), List.mem_filter.mpr ⟨List.mem_range.mpr (by decide), by decide +kernel⟩, by decide +kernel, by decide +kernel⟩

/-- JobsAndLayoutsAreLoadedAndSwitched: JOB_LOAD of a manifest with no magic, of a good one, and of one whose regions are taken. -/
theorem wit_job_load :
    let e := entry 0x10 7 blk 80 0 0
    let bad := sCmd {} 2 e [(blk + 12, 1)]
    let s : State := { sCmd {} 2 e (cellsAt blk manifest) with interleave := [0] }
    let taken : State := { s with jobs := [(0, { memJob with fy0 := 0 }), (7, {})] }
    (Admitted bad 63 ocJobLoad (ringOf 2 e) e ∧ firstBad (jobChecks (bad.blockOf e) 7 bad.stackEnd) = some 0) ∧
    (Admitted s 63 ocJobLoad (ringOf 2 e) e ∧ firstBad (jobChecks (s.blockOf e) 7 s.stackEnd) = none ∧
      s.manifestClash (manifestOf (s.blockOf e)) = false) ∧
    (Admitted taken 63 ocJobLoad (ringOf 2 e) e ∧ firstBad (jobChecks (taken.blockOf e) 7 taken.stackEnd) = none ∧
      taken.manifestClash (manifestOf (taken.blockOf e)) = true) := by
  refine ⟨⟨admitted_of (by decide +kernel), by decide +kernel⟩, ⟨admitted_of (by decide +kernel), ?_, by decide +kernel⟩,
    ⟨admitted_of (by decide +kernel), ?_, by decide +kernel⟩⟩
  all_goals
    refine Eq.trans (congrArg (fun b => firstBad (jobChecks b 7 stackGiB72)) ?_) manifest_good
    decide +kernel

/-- JobsAndLayoutsAreLoadedAndSwitched: LAYOUT_LOAD into the active slot, with no room in the store, of a manifest with no magic, and of
a good one; LAYOUT_DROP of the active slot and of another. -/
theorem wit_layout_load :
    let e := entry 0x14 7 blk 256 3 0
    let d := entry 0x15 7 0 0 3 0
    let on : Job := { loadedJob with slots := [(3, some ⟨0, 16, oneRegion⟩)], active := some 3 }
    let full : Job := { loadedJob with slots := [(0, some ⟨0, 16, oneRegion⟩)] }
    let file := cellsAt blk layoutFile
    let bad := sCmd loadedJob 1 e [(blk + 9, 1)]
    let s := sCmd loadedJob 1 e file
    (Admitted (sCmd on 1 e file) 63 ocLayoutLoad (ringOf 1 e) e ∧ on.active = some 3 ∧ on.slotBusy 3 = true) ∧
    (Admitted (sCmd full 1 e file) 63 ocLayoutLoad (ringOf 1 e) e ∧ full.active ≠ some 3 ∧ full.slotBusy 3 = false ∧ full.findStore (ceilDiv 256 4096) = none) ∧
    (Admitted bad 63 ocLayoutLoad (ringOf 1 e) e ∧ loadedJob.active ≠ some 3 ∧ loadedJob.findStore 1 = some 0 ∧
      parseLayout 0 loadedJob (bad.blockOf e) = .error 0) ∧
    (Admitted s 63 ocLayoutLoad (ringOf 1 e) e ∧ s.blockOf e = layoutFile) ∧
    (Admitted (sCmd on 1 d []) 63 ocLayoutDrop (ringOf 1 d) d ∧ Admitted (sCmd full 1 d []) 63 ocLayoutDrop (ringOf 1 d) d) := by
  refine ⟨⟨admitted_of ?_, ?_⟩, ⟨admitted_of ?_, ?_⟩, ⟨admitted_of ?_, ?_⟩, ⟨admitted_of ?_, ?_⟩, admitted_of ?_, admitted_of ?_⟩ <;>
    decide +kernel

/-- A slot without regions and streams can be switched to. -/
theorem switch_ok (s : State) (j k : Nat) (q : Slot) (h : s.cores = []) (a : (s.job j).slot k = some q)
    (b : ((s.job j).switch.isSome || !s.streamsEligible q.layout) = false) (m : (s.modeRefused j q.layout || s.groupFenced q.layout) = false)
    (v : s.variantsOf q.layout = .ok []) : s.switchCheck j k = .ok [] := by
  unfold State.switchCheck
  simp only [a]
  rw [streams_idle s j h]
  simp only [Bool.or_eq_false_iff] at b m
  rw [b.1, b.2, m.1, m.2, v]
  rfl

/-- JobsAndLayoutsAreLoadedAndSwitched: PHASE_SWITCH to an empty slot, to a layout at once, to one of seven groups while a flit is in
the network, and with a re-shard. -/
theorem wit_phase_switch :
    let e (a : Nat) := entry 0x16 7 0 0 a 0
    let g (n : Nat) : Group := ⟨n, true, 1, 16, 0, []⟩
    let j (l : Layout) : Job := { loadedJob with slots := [(3, some ⟨0, 1, l⟩)] }
    let plain : Layout := { phase := 1 }
    let wide : Layout := { phase := 1, groups := [g 1, g 2, g 3, g 4, g 5, g 6, g 7] }
    let shard : Layout := { phase := 1, reshards := [⟨true, 5, 0, 64⟩] }
    let s (l : Layout) (a : Nat) : State := sCmd (j l) 1 (e a) []
    let u : State := { s wide 3 with net := { flights := [{ at_ := 0, flit := ⟨0, 0, 7, 0, 0, 0, false, 3, 0, 0, 0, zeros, 0, 0⟩ }] } }
    (Admitted (sCmd loadedJob 1 (e 3) []) 63 ocPhaseSwitch (ringOf 1 (e 3)) (e 3) ∧
      (sCmd loadedJob 1 (e 3) []).switchCheck 7 3 = .error stState) ∧
    (Admitted (s plain 3) 63 ocPhaseSwitch (ringOf 1 (e 3)) (e 3) ∧ (s plain 3).switchCheck 7 3 = .ok [] ∧
      ((s plain 3).job 7).slot 3 = some ⟨0, 1, plain⟩ ∧ (s plain 3).modeReady plain = true ∧ LogRoom (s plain 3) 1) ∧
    (Admitted u 63 ocPhaseSwitch (ringOf 1 (e 3)) (e 3) ∧ u.switchCheck 7 3 = .ok [] ∧ (u.job 7).slot 3 = some ⟨0, 1, wide⟩ ∧
      u.modeReady wide = false) ∧
    (Admitted (s shard 0x103) 63 ocPhaseSwitch (ringOf 1 (e 0x103)) (e 0x103) ∧ (s shard 0x103).switchCheck 7 3 = .ok [] ∧
      shard.blocks true ≠ []) := by
  unfold LogRoom
  refine ⟨⟨admitted_of (by decide +kernel), rfl⟩, ⟨admitted_of (by decide +kernel), switch_ok _ _ _ _ rfl rfl (by decide +kernel) (by decide +kernel) (by decide +kernel), by decide +kernel⟩,
    ⟨admitted_of (by decide +kernel), switch_ok _ _ _ _ rfl rfl (by decide +kernel) (by decide +kernel) (by decide +kernel), by decide +kernel⟩,
    ⟨admitted_of (by decide +kernel), switch_ok _ _ _ _ rfl rfl (by decide +kernel) (by decide +kernel) (by decide +kernel), by decide +kernel⟩⟩

end Sys2Proof.Tests
end

