-- ==== Sys2Proof/Tests/WitMessages.lean ====
section
/-! SUPPORT. Witnesses for the statements about messages of the fabric: states and operands that meet their hypotheses. -/

set_option Elab.async false

namespace Sys2Proof.Tests

open Sys2Proof Sys2Proof.Machine

/-- MessagesActAtTheirConsumers: MEMBERSHIP at and above the group's epoch, with a range that its job context can hold and one that it
cannot. -/
theorem wit_membership :
    let range : OwnedRange := ⟨0, 1, 0, 34⟩
    let m (v : Nat) : Msg :=
      { msg mMembership with count := 1, version := v, payload := leBytes 128 3 ++ range.toBytes ++ leBytes 16 0 }
    let bare : Job := { boundJob with regions := [] }
    let s := sUp boundJob {}
    let u := sUp bare {}
    Arrives s 139 (frameOf (m 0)) (rxOf (m 0)) mMembership ∧ Arrives s 139 (frameOf (m 1)) (rxOf (m 1)) mMembership ∧
    Arrives u 139 (frameOf (m 1)) (rxOf (m 1)) mMembership ∧ s.group 63 = some fGroup ∧ u.group 63 = some fGroup ∧
    (m 0).version ≤ fGroup.epoch ∧ fGroup.epoch < (m 1).version ∧ (m 1).count ≤ 256 ∧
    (m 1).payload.length = 128 + ceilDiv (16 * 1) 32 * 32 ∧ parseRanges ((m 1).payload.drop 128) 1 = some [range] ∧
    (∀ j ∈ s.boundJobs 63, s.rangesOk (s.job j) ((s.job j).owned ++ [range]) = true) ∧
    (∃ j ∈ u.boundJobs 63, u.rangesOk (u.job j) ((u.job j).owned ++ [range]) = false) ∧ LogRoom s 1025 ∧
    fGroup.live.length ≤ 1024 := by
  unfold LogRoom
  refine ⟨arrives_of ?_, arrives_of ?_, arrives_of ?_, ?_, ?_, ?_, ?_, ?_, ?_, ?_, ?_, ⟨7, ?_⟩, ?_, ?_⟩ <;> decide +kernel

/-- MessagesActAtTheirConsumers: GATHER_DATA for a GATHER of the last granule of bank D. -/
theorem wit_gather_data :
    let r : GatherReq := ⟨0, 0, 5, 9, 0, 0, 1, 0x5FFFC0, 3⟩
    let m : Msg := { msg mGatherData with tag := 5, obj := 9, count := 64, version := 3, payload := leBytes 64 1 }
    let s := sUp boundJob { gathers := [r] }
    Arrives s 139 (frameOf m) (rxOf m) mGatherData ∧ (s.ioSite 34).gathers.find? (fun r => r.tag = m.tag) = some r ∧
    s.net.oos.contains 0 = false ∧ (0 : Nat) < 4096 ∧ gatherStatus r m = 0 := by
  refine ⟨arrives_of ?_, ?_⟩ <;> decide +kernel

/-- MessagesActAtTheirConsumers: a REDUCED chunk at the end of its bucket, one behind it, and a summary without this member. -/
theorem wit_reduced :
    let o : OwnedBucket := { bucket := 0xFFFFE, gaddr := 0 }
    let r : StepRun := { aStep 1 .open_ with owned := [o] }
    let j : Job := { boundJob with steps := [r] }
    let tag := 7 * 2 ^ 21 + 2 ^ 20 + 0xFFFFE
    let d (off : Nat) : Msg := { msg mReduced with tag := tag, offset := off, payload := leBytes 32 1 }
    let z : Msg := { msg mReduced with tag := tag, mflags := 8, payload := leBytes 160 1 }
    let s := sUp j {}
    Arrives s 139 (frameOf (d 0x1FFF000)) (rxOf (d 0x1FFF000)) mReduced ∧
    Arrives s 139 (frameOf (d 0x2000000)) (rxOf (d 0x2000000)) mReduced ∧ Arrives s 139 (frameOf z) (rxOf z) mReduced ∧
    s.stepOfTag tag = some (7, r) ∧ (s.job 7).step 1 = some r ∧ (s.job 7).fgroup = some 63 ∧ r.early = true ∧
    r.owned.find? (fun o => o.bucket = tag % 2 ^ 20) = some o ∧ (d 0).summary = false ∧ 0x1FFF000 % 4096 = 0 ∧
    0x1FFF000 + (d 0).payload.length ≤ (s.job 7).z ∧ ((s.job 7).regionOf 0x1FFF000 (d 0).payload.length).isSome = true ∧ (s.job 7).z < 0x2000000 + (d 0).payload.length ∧ LogRoom s 1 ∧
    z.summary = true ∧ tag % 2 ^ 20 ≠ normBucket ∧ 1 ∉ maskMembers ((z.payload.drop 32).take 128) := by
  unfold LogRoom
  refine ⟨arrives_of ?_, arrives_of ?_, arrives_of ?_, ?_⟩ <;> decide +kernel

/-- MessagesActAtTheirConsumers: PERMUTE for no switch, behind its tensor, and for its last block. -/
theorem wit_permute :
    let l : Layout := { oneRegion with reshards := [⟨false, 5, 0x1000, 8192⟩] }
    let w : Switch := { slot := 0, reshard := true, ring := 1, taking := 0, started := 0, variants := [], outLeft := [(5, 0)], inLeft := [(5, 4096)] }
    let j : Job := { boundJob with slots := [(0, some ⟨0, 1, l⟩)], switch := some w }
    let m (off : Nat) : Msg := { msg mPermute with obj := 5, offset := off, payload := leBytes 32 1 }
    let s := sUp boundJob {}
    let u := sUp j {}
    let e := [(0x1000, 8192)]
    Arrives s 139 (frameOf (m 0)) (rxOf (m 0)) mPermute ∧ Arrives u 139 (frameOf (m 8192)) (rxOf (m 8192)) mPermute ∧
    Arrives u 139 (frameOf (m 4096)) (rxOf (m 4096)) mPermute ∧ s.permuteJob 63 5 = none ∧ u.permuteJob 63 5 = some (7, e) ∧
    seqLength e ≤ 8192 ∧ 4096 < seqLength e ∧
    seqPieces e 4096 (min (m 4096).payload.length (seqLength e - 4096)) = some [(0x2000, 32)] ∧
    ((u.job 7).regionOf 0x2000 32).isSome = true := by
  refine ⟨arrives_of ?_, arrives_of ?_, arrives_of ?_, ?_⟩ <;> decide +kernel

/-- MessagesActAtTheirConsumers: PARTNER-PUT into a partner region and behind its end, into an OWNED region during a restore, and into a
region that takes none; PARTNER-GET of a whole region, behind its end, of nothing, and of no region. -/
theorem wit_partner :
    let put (obj off : Nat) : Msg := { msg mPartnerPut with obj := obj, offset := off, payload := leBytes 32 1 }
    let get (obj off n : Nat) : Msg := { msg mPartnerGet with obj := obj, offset := off, count := n }
    let s := sUp boundJob {}
    let u := sUp { boundJob with st := .restoring } {}
    (∀ m ∈ [put 1 0, put 1 4096, put 0 0, put 2 0], Arrives s 139 (frameOf m) (rxOf m) mPartnerPut) ∧
    Arrives u 139 (frameOf (put 2 0)) (rxOf (put 2 0)) mPartnerPut ∧ (u.job 7).st = .restoring ∧
    (∀ m ∈ [get 1 0 4096, get 1 1 4096, get 1 0 0, get 3 0 4096], Arrives s 139 (frameOf m) (rxOf m) mPartnerGet) ∧
    s.groupJob 63 = some 7 ∧ u.groupJob 63 = some 7 ∧ s.group 63 = some fGroup ∧
    (s.job 7).regions[1]? = some ⟨0x2000000, 1, rkPartner, 7⟩ ∧ (s.job 7).regions[0]? = some ⟨0, 0x2000, rkStaging, 7⟩ ∧
    (u.job 7).regions[2]? = some ⟨0x2001000, 1, rkOwned, 7⟩ ∧ (s.job 7).regions[3]? = none ∧
    0 + (put 1 0).payload.length ≤ 1 * 4096 ∧ 1 * 4096 < 4096 + (put 1 0).payload.length ∧ 1 * 4096 < 1 + 4096 ∧
    0 + 4096 ≤ 1 * 4096 := by
  refine ⟨?_, arrives_of (by decide +kernel), by decide, ?_, ?_⟩
  · intro m hm
    have e : m.typ = mPartnerPut := by revert m hm; decide
    rw [← e]; refine arrives_of ?_; clear e; revert m hm; decide +kernel
  · intro m hm
    have e : m.typ = mPartnerGet := by revert m hm; decide
    rw [← e]; refine arrives_of ?_; clear e; revert m hm; decide +kernel
  · decide +kernel

/-- MessagesActAtTheirConsumers: APPLIED for one of two SHARD-PUTs, for the last one, of a final record and of an earlier one, and with
another status. -/
theorem wit_applied :
    let r (left : List Nat) (final : Bool) : PublishReq := ⟨0, 7, 1, 0xFFFFE, 9, 0, final, 0x5FFFC0, 63, left, 2⟩
    let m (st : Nat) : Msg :=
      { msg mApplied with tag := bucketTag 7 1 0xFFFFE, obj := 9, offset := 4096, version := 1, status := st, rtype := mShardPut }
    let s (left : List Nat) (final : Bool) := sUp { boundJob with steps := [aStep 1 .open_] } { publishes := [r left final] }
    (∀ l ∈ [([0, 4096], false), ([4096], false), ([4096], true)],
      Arrives (s l.1 l.2) 139 (frameOf (m fsOk)) (rxOf (m fsOk)) mApplied ∧
      (s l.1 l.2 |>.ioSite 34).publishes.find? (fun r => r.obj = 9 && r.step = 1 && bucketTag r.job r.step r.bucket = (m 0).tag &&
        r.left.contains 4096) = some (r l.1 l.2)) ∧
    Arrives (s [4096] false) 139 (frameOf (m fsRefused)) (rxOf (m fsRefused)) mApplied ∧ [0, 4096] ≠ [4096] ∧
    (m fsOk).rtype = mShardPut ∧ ((s [4096] true).job 7).step 1 = some (aStep 1 .open_) ∧
    (s [4096] false).net.oos.contains 0 = false ∧ fsRefused ≠ fsOk ∧ LogRoom (s [4096] false) 1 := by
  unfold LogRoom
  refine ⟨?_, arrives_of ?_, ?_⟩
  · intro l hl; refine ⟨arrives_of ?_, ?_⟩ <;> revert l hl <;> decide +kernel
  all_goals decide +kernel

end Sys2Proof.Tests
end

