-- ==== Sys2Proof/Tests/WitNetwork.lean ====
section
/-! SUPPORT. Witnesses for the statements about flits, routers and joins: states and operands that meet their hypotheses. -/

set_option Elab.async false

namespace Sys2Proof.Tests

open Sys2Proof Sys2Proof.Machine

/-! ### The wafer network -/

/-- A flit from core 7 to core 0 on VC 1 with both words enabled, and its address at the last granule of bank D. -/
def flitOp (op : BitVec 4) : Flit := ⟨1, 0, 0, 0, 7, op, true, 3, 63, 98303, 0, zeros, 0, 0⟩
def netWith (x : Flight) : Net := { flights := [x] }

/-- A flit that has come to router 0. -/
def sArr (c : Core) (f : Flit) : State := { withCore c with net := netWith { at_ := 0, flit := f, link := 1 } }

/-- The hypotheses that every flit of FlitsActWhereTheyArrive meets at core 0. -/
def flitMeets (c : Core) (f : Flit) : Prop :=
  ((sArr c f).arrival f).isSome = true ∧ (sArr c f).take f = some (leaving (sArr c f) f) ∧ f.dkind.toNat = kCore ∧
  (sArr c f).toLost f = false ∧ (sArr c f).siteFenced f.dest.toNat = false ∧ f.payload.length = 64 ∧ f.err0 = 0 ∧ f.err1 = 0

def headCore : Core := { coreWith [] with joins := [(1, { nextSlot := 15 })], rings := [(1, ⟨2, false, 0, 7, 16, 16, 0x5FFC00⟩)] }
def tailCore : Core := { coreWith [] with rings := [(1, ⟨3, false, 1, 0, 16, 16, 0x5FFC00⟩)] }
def storeReq : Request := ⟨4, 0, 1, 0, 0, 0, 0, 32, 0, 1⟩
def storeCore : Core := { coreWith [] with streams := [(31, { st := .running, desc := { kind := 4 }, reqs := [storeReq] })] }
def loadReq : Request := ⟨4, 0x40, 2, 6291392, 0, 0, 0x40, 64, 6291392, 1⟩
def loadCore : Core := { coreWith [] with streams := [(31, { st := .running, desc := { kind := 3 }, reqs := [loadReq] })] }
def recordFlit : Flit := { flitOp 7 with skind := 1, src := 4, vc := 7 }
def dataFlit : Flit := { flitOp 0 with skind := 1, src := 4, vc := 7, last := false, addr := 98304 }

/-- FlitsActWhereTheyArrive: a flit of each kind from a core, for a ring in role 2 and in role 3. -/
theorem wit_flits_meet : flitMeets headCore (flitOp 0) ∧ flitMeets headCore (flitOp 1) ∧ flitMeets headCore (flitOp 2) ∧
    flitMeets headCore (flitOp 3) ∧ flitMeets tailCore (flitOp 3) ∧ flitMeets headCore (flitOp 5) ∧
    flitMeets storeCore recordFlit ∧ flitMeets loadCore dataFlit := by
  refine ⟨⟨?_, take_of ?_, ?_⟩, ⟨?_, take_of ?_, ?_⟩, ⟨?_, take_of ?_, ?_⟩, ⟨?_, take_of ?_, ?_⟩, ⟨?_, take_of ?_, ?_⟩,
    ⟨?_, take_of ?_, ?_⟩, ⟨?_, take_of ?_, ?_⟩, ⟨?_, take_of ?_, ?_⟩⟩ <;> decide +kernel

/-- FlitsActWhereTheyArrive: the other hypotheses of each; a landing in the last slot of a ring in role 2 and in role 3; credits for
role 1; a success record of a STORE; the last granule of a LOAD; and a flit that has not come. -/
theorem wit_flits :
    let s := sArr headCore (flitOp 3)
    let tail := sArr tailCore (flitOp 3)
    let u := leaving (sArr storeCore recordFlit) recordFlit
    let v := leaving (sArr loadCore dataFlit) dataFlit
    ((flitOp 0).op.toNat = opWrite ∧ (flitOp 0).skind.toNat = kCore ∧ (flitOp 0).addr.toNat = 98303) ∧
    ((flitOp 1).op.toNat = opAdd32 ∧ inBank 3 (64 * (flitOp 1).addr.toNat) 64 = true ∧ ∀ a n, CleanAt s a n) ∧
    (flitOp 2).op.toNat = opSeminc ∧
    ((flitOp 3).op.toNat = opRed ∧ s.groupOfVc 1 = some 1 ∧ (((leaving s (flitOp 3)).core 0).ring 1).role = 2 ∧
      windowAddr 0 (((s.core 0).ring 1).landOff + 64 * ((s.core 0).join 1).nextSlot) % 32 = 0 ∧
      (((leaving tail (flitOp 3)).core 0).ring 1).role = 3) ∧
    ((flitOp 5).op.toNat = opRcredit ∧ ((s.core 0).ring 1).role ≠ 0) ∧
    (recordFlit.op.toNat = opSiteData ∧
      (u.core 0).xferFor recordFlit.peer (recordFlit.field 4 4) (recordFlit.field 8 8) = none ∧
      (u.core 0).requestFor recordFlit.peer (recordFlit.field 4 4) (recordFlit.field 8 8) = some (31, storeReq) ∧
      ((u.core 0).stream 31).desc.kind = dkStore ∧ recordFlit.field 0 1 = 0) ∧
    (dataFlit.op.toNat = opWrite ∧ dataFlit.skind.toNat ≠ kCore ∧ (v.core 0).xferAt dataFlit.peer dataFlit.addr.toNat = none ∧
      (v.core 0).requestAt dataFlit.peer dataFlit.addr.toNat = some (31, loadReq) ∧ ((v.core 0).stream 31).desc.kind = dkLoad) ∧
    State.reset.arrival (flitOp 0) = none := by
  refine ⟨by decide +kernel, ⟨by decide +kernel, by decide +kernel, fun a n => clean_of_nil _ a n rfl⟩, ?_⟩
  decide +kernel

/-- A flit at router 0 for core 7 that heads its buffer, fresh or since 1,024 cycles; for a core out of service; and in a router whose
clock stands still. -/
def onward : Flit := { flitOp 0 with dest := 7, src := 0 }
def sRoute (cycles : Nat) : State := { net := netWith { at_ := 0, flit := onward }, clk := { halves := [(0, { cycles := 10 * cycles })] } }
def sLost : State := { net := { netWith { at_ := 0, flit := onward } with oos := [7] } }
def sTwo : State := { net := { flights := [{ at_ := 0, flit := onward }, { at_ := 0, flit := { onward with vc := 0 } }] } }

/-- RoutersGrantAndForward. -/
theorem wit_routers :
    (∀ n ∈ [0, 1024], let s := sRoute n
      s.forwards 0 = true ∧ (s.refill 0).contenders 0 1 ≠ [] ∧ (s.refill 0).headAt 0 5 onward = some { at_ := 0, flit := onward } ∧
      ((s.refill 0).hopOf { at_ := 0, flit := onward }).isSome = true ∧
      (s.refill 0).granted 0 1 = (s.refill 0).hopOf { at_ := 0, flit := onward } ∧
      ((s.refill 0).granted 0 1).map (fun p => p.1.flit) = some onward ∧
      (s.refill 0).headFor { at_ := 0, flit := onward } = n) ∧
    (sTwo.forwards 0 = true ∧ sTwo.net.expansive = false ∧
      ((sTwo.refill 0).granted 0 1).map (fun p => p.1.flit.vc) = some 0) ∧
    (sRoute 0).toLost onward = false ∧ sLost.forwards 0 = true ∧ (sLost.refill 0).toLost onward = true ∧
    (sLost.refill 0).headAt 0 5 onward = some { at_ := 0, flit := onward } ∧
    (let s : State := { sRoute 0 with time := 60000, clk := { halves := [(0, { changing := some 4 })] } }
     s.forwards 0 = false) ∧
    (let s : State := { net := netWith { at_ := 0, flit := onward, link := 1 } }
     s.forwards 0 = true ∧ (s.refill 0).headAt 0 1 onward = some { at_ := 0, flit := onward, link := 1 } ∧
     flitFieldsOk onward = true ∧ (∀ j, j < 8 → (s.job j).st ≠ .running) ∧ (Tab.get [] s.integ.routerFaults 0).length ≤ 1 ∧
     LogRoom s 1) := by
  unfold LogRoom; decide +kernel

/-- JoinsAccumulatorsAndMarkersAct: a pair at one credit that goes to a core and one that goes to a site, one without credit, and
sequence numbers that differ. -/
def joinCore (skd k credits : Nat) : Core :=
  { coreWith [] with
    rings := [(1, ⟨2, false, skd, 7, 16, 16, 0x5FFC00⟩)]
    joins := [(1, { landed := [(0, 15)], locals := [(k, zeros)], freed := 15, credits := credits })] }
theorem wit_joins :
    let s := withCore (joinCore 0 0 1)
    let u := withCore (joinCore 1 0 1)
    let dry := withCore (joinCore 0 0 0)
    let bad := withCore (joinCore 0 1 1)
    ((s.core 0).join 1).landed = (0, 15) :: [] ∧ ((s.core 0).join 1).locals = (0, zeros) :: [] ∧ 0 = 0 % 2 ^ 17 ∧
    1 ≤ ((s.core 0).join 1).credits ∧ zeros.length = 64 ∧ 16 ≤ ((s.core 0).join 1).freed + 1 ∧ ((s.core 0).ring 1).skd ≠ 1 ∧
    s.net.oos.contains (((s.core 0).ring 1).succ % 4096) = false ∧ s.net.oos.contains (((s.core 0).join 1).pred % 4096) = false ∧
    ((u.core 0).ring 1).skd = 1 ∧ s.jobOf 0 = none ∧ (Tab.get [] s.integ.routerFaults 0).length ≤ 1 ∧
    (({ s with regs := { s.regs with enable := false } } : State).sampling 0).1 = false ∧ LogRoom s 1 ∧
    ((dry.core 0).join 1).credits = 0 ∧
    ((bad.core 0).join 1).landed = (0, 15) :: [] ∧ ((bad.core 0).join 1).locals = (1, zeros) :: [] ∧ 0 ≠ 1 % 2 ^ 17 ∧
    bad.jobOf 0 = none ∧ LogRoom bad 1 ∧ ∀ a n, CleanAt s a n := by
  unfold LogRoom
  refine ⟨?_, ?_, ?_, ?_, ?_, ?_, ?_, ?_, ?_, ?_, ?_, ?_, ?_, ?_, ?_, ?_, ?_, ?_, ?_, ?_, fun a n => clean_of_nil _ a n rfl⟩ <;>
    decide +kernel

/-- A flit of the first member that has come to I/O die site 1 of its group. -/
def siteFlit (op : BitVec 4) : Flit := { flitOp op with dkind := 1, dest := 1, src := 7 }
def siteEntry (strict : Bool) : RingEntry := { role := 1, strict := strict, skd := 1, succ := 1, scred := 16 }
def groupLayout (strict : Bool) : Layout := { oneRegion with groups := [⟨1, strict, 1, 16, 0, [0, 7]⟩] }
def sAtSite (strict : Bool) (f : Flit) (x : IoSite) : State :=
  let g : State := { jobs := [(0, { job0 with slots := [(0, some ⟨0, 1, groupLayout strict⟩)] })]
                     cores := [(0, { rings := [(1, siteEntry strict)] }), (7, { rings := [(1, siteEntry strict)] })]
                     fabric := { sites := [(1, x)] } }
  { g with net := netWith { at_ := g.routeTarget f, flit := f, link := 1 } }

/-- JoinsAccumulatorsAndMarkersAct: a granule at a Standard site, and the first member's at a Strict one; a MARKER at a unit that has
captured and at one that has not; room for NET_BACKPRESSURE. -/
theorem wit_strict_and_markers :
    let o : ContribOpen := ⟨7, 0, 1, 0, 5, 0, 64, 0⟩
    let y : ExactSlot := ⟨0, 1, 5, 0, 0, false, List.replicate 16 {}⟩
    let x : IoSite := { opens := [o], slots := [y] }
    let f := siteFlit 4
    let r := siteFlit 3
    let s := sAtSite true f x
    let u := sAtSite false r x
    let cut : State := { obs := { quench := { active := true, cores := [(1, some { time := 0, cause := 1, record := [], links := [1] })] } } }
    (f.op.toNat = opStrict ∧ f.dkind.toNat = kSite ∧ f.skind.toNat = kCore ∧ s.isIo f.dest.toNat = true ∧ (s.take f).isSome = true ∧
      (leaving s f).groupOfVc f.vc.toNat = some 1 ∧ (leaving s f).siteWindow 1 7 1 = some (0, siteEntry true) ∧
      ((leaving s f).ioSite 1).currentOpen 7 1 = some o ∧ ((leaving s f).job 0).layout.isSome = true ∧ flitPayload f = some zeros ∧
      ((leaving s f).ioSite 1).slots.find? (fun z => z.is_ o.job 1 o.tensor (o.offset + 64 * o.seen)) = some y ∧
      y.count + 1 < (leaving s f).windowMembers 0 1 1) ∧
    (r.op.toNat = opRed ∧ (u.take r).isSome = true ∧ (leaving u r).siteWindow 1 7 1 = some (0, siteEntry false) ∧
      ((leaving u r).ioSite 1).fenced = false ∧ ((leaving u r).ioSite 1).landing = [] ∧ ((leaving u r).ioSite 1).currentOpen 7 1 = some o) ∧
    (cut.cutting = true ∧ cut.hasChannel (.core 1) 16 = true ∧ (cut.captureOf (.core 1)).isSome = true ∧
      cut.hasChannel (.core 64) 0 = true ∧ cut.captures (.core 64) = true ∧ cut.shifting (.core 64) = false) ∧
    LogRoom cut 1 := by
  unfold LogRoom; decide +kernel

end Sys2Proof.Tests
end

