-- ==== Sys2Proof/Tests/WitQuench.lean ====
section
/-! SUPPORT. Witnesses for the statements about the quench and the service ports: states and operands that meet their hypotheses. -/

set_option Elab.async false

namespace Sys2Proof.Tests

open Sys2Proof Sys2Proof.Machine

/-! ### Quench -/

def captured : Capture := { time := 0, cause := 1, record := [], links := [] }
/-- A quench whose sites and HID have captured while every core is out of service. -/
def sCut : State where
  net := { oos := List.range 4096 }
  obs := { quench := {
    active := true, cmd := some (63, 0), hid := some captured, sites := (List.range 36).map (fun i => (i, some captured)) } }

theorem cut_closed : sCut.cutClosed = true := by
  unfold State.cutClosed State.quenchUnits
  refine List.all_eq_true.mpr fun u h => ?_
  obtain ⟨h, k⟩ := List.mem_filter.mp h
  rcases List.mem_append.mp h with h | h
  · rcases List.mem_append.mp h with h | h
    · obtain ⟨c, hc, rfl⟩ := List.mem_map.mp h
      have o : sCut.coreOut c = true := by
        have e : sCut.net.oos = List.range 4096 := by simp only [sCut]
        unfold State.coreOut; rw [e]
        generalize List.range 4096 = l at hc ⊢
        rw [List.contains_iff_mem.mpr hc, Bool.true_or]
      simp [State.captures, o] at k
    · obtain ⟨i, hi, rfl⟩ := List.mem_map.mp h
      have a : ∀ i : Fin 36, ((sCut.captureOf (.site i)).isSome && decide (sCut.openChannels (.site i) = 0)) = true := by decide +kernel
      exact a ⟨i, List.mem_range.mp hi⟩
  · cases List.mem_singleton.mp h; decide +kernel

/-- TheQuenchCapturesReadsAndReleases: QUENCH while one is active, and with a job context that runs, restores and is empty; a core, a site and
the HID that capture, and a core out of service; a cut that is open, closed and complete; QUENCH_RELEASE and QUENCH_READ before and after
completion, and a QUENCH_READ of the last line and past it. -/
theorem wit_quench :
    let q := entry 0x30 0xFF 0 0 0 0
    let rel := entry 0x31 0xFF 0 0 0 0
    let rd := entry 0x32 0xFF blk 24 0 0
    let s (j : Job) (z : Quench) (e : Entry) (m : List Host.Cell) : State := { sCmd j 2 e m with obs := { quench := z } }
    let read (o n : Nat) : List Host.Cell := cellsAt blk (leBytes 8 hostBase ++ leBytes 8 o ++ leBytes 4 n ++ leBytes 4 0)
    let cut : Quench := { active := true, reached := List.range 64 }
    let whole : Quench := { active := true, complete := true, everDone := true }
    let open_ : State := { withCore (coreWith []) with obs := { quench := cut } }
    (∀ z ∈ [cut, ({} : Quench)], ∀ st ∈ [JobState.running, .restoring, .empty], admittedB (s { st := st } z q []) 63 ocQuench (ringOf 2 q) q = true ∧ (s { st := st } z q []).mesh = []) ∧
    (∀ u ∈ [Src.core 4095, .site 35, .hid], open_.captures u = true ∧ open_.captureOf u = none ∧ open_.shifting u = false ∧
      open_.ordered u = true) ∧
    (open_.cutting = true ∧ open_.stackSites = [] ∧
      ({ open_ with obs := { quench := { active := true } } } : State).ordered (.core 0) = false ∧ ({ open_ with net := { oos := [4095] } } : State).captures (.core 4095) = false) ∧
    (sCut.cutting = true ∧ sCut.cutClosed = true ∧ LogRoom sCut 1 ∧ sCut.obs.quench.cmd = some (63, 0)) ∧
    (s {} whole q []).cutting = false ∧
    (∀ z ∈ [cut, whole], admittedB (s { st := .quenched } z rel []) 63 ocQuenchRelease (ringOf 2 rel) rel = true ∧ z.active = true) ∧
    (cut.complete = false ∧ whole.complete = true ∧ LogRoom (s {} whole rel []) 1 ∧ (s {} whole rel []).net.pause = none ∧
      ((s { st := .quenched } whole rel []).job 7).st = .quenched) ∧
    (∀ o ∈ [quenchBytes - 64, quenchBytes], ∀ z ∈ [cut, whole], admittedB (s {} z rd (read o 64)) 63 ocQuenchRead (ringOf 2 rd) rd = true) ∧
    (readBlockOk ((s {} cut rd (read quenchBytes 64)).blockOf rd) = false ∧
      readBlockOk ((s {} cut rd (read (quenchBytes - 64) 64)).blockOf rd) = true ∧ cut.everDone = false ∧ whole.everDone = true) := by
  unfold LogRoom
  refine ⟨?_, ?_, ?_, ⟨rfl, cut_closed, ?_, rfl⟩, ?_⟩
  all_goals decide +kernel

/-- ServicePortsWindowsAndWatchdogsAct: power that is good; a device in SAFE and one that is not; a slot of ALIGN, of TIMESYNC, one with
nothing to send and one with a record and records dropped before it; a supervisor that answers, and one that has missed two refreshes. -/
theorem wit_service :
    let s (t : Trace) : State := { sRun with obs := { trace := t } }
    let dead : State := { sRun with wafer := { deadSups := [63] }, regs := { powerGood := true, st := .safe, missedRefresh := [(63, 2)] } }
    (dead.regs.powerGood = true ∧ sRun.regs.powerGood = false ∧ sRun.regs.st ≠ .safe ∧ LogRoom sRun 1 ∧ dead.regs.st = .safe ∧ LogRoom dead 1) ∧
    (({ slot := 65536 } : Trace).slot % 65536 = 0 ∧ (1 : Nat) % 65536 ≠ 0 ∧ (s { slot := 1, syncDue := true }).obs.trace.syncDue = true ∧
      (s { slot := 65535 }).obs.trace.queue = [] ∧ (s { slot := 65535 }).obs.trace.syncDue = false ∧
      (s { slot := 1, queue := [(1, 2), (3, 4)], dropPending := 2 }).obs.trace.queue = (1, 2) :: [(3, 4)] ∧
      (s { slot := 1, queue := [(1, 2)], dropPending := 2 }).obs.trace.dropPending ≠ 0) ∧
    (63 ∉ sRun.wafer.deadSups ∧ 63 ∈ dead.wafer.deadSups ∧ ¬ Tab.get 0 dead.regs.missedRefresh 63 < 2) := by
  unfold LogRoom; decide +kernel

end Sys2Proof.Tests
end

