-- ==== Sys2Proof/Tests/WitRecovery.lean ====
section
/-! SUPPORT. Witnesses for the statements about snapshots and restores: states and operands that meet their hypotheses. -/

set_option Elab.async false

namespace Sys2Proof.Tests

open Sys2Proof Sys2Proof.Machine

/-! ### Snapshots and restores -/

/-- A loaded job context that owns one granule, is bound to group 63 and has a partner region. -/
def snapJob : Job := { loadedJob with fgroup := some 63, regions := [⟨0, 1, rkOwned, 7⟩, ⟨4096, 1, rkPartner, 7⟩] }
def sSnap (j : Job) (q : Recov) : State where
  jobs := [(7, j)]
  regs := { st := .ready }
  recov := q
  fabric := { groups := [(63, some { members := 1, live := [0], servers := [0] })] }

/-- SnapshotsAreOrderedTakenAndKept: SNAPSHOT of level 0, of a level that the job context permits and of one that it does not; an interval
that is set and one that is not; a job context that may begin one, with room and without, with one running, quenched, and failed; one of
each level in the last place of its order; a flash snapshot that runs and a copy into a slot. -/
theorem wit_snapshots :
    let e (l : Nat) := entry 0x1A 7 0 0 l 5
    let o (l : Nat) : SnapOrder := ⟨l, [(63, 0)]⟩
    let w (l : Nat) : SnapRun := ⟨l, 1, 0, 0, [], [], [(63, 0)]⟩
    let s (l : Nat) := sSnap snapJob { orders := [(7, [o l])] }
    let full (l : Nat) : State := { s l with jobs := [(7, { snapJob with regions := [⟨0, 1, rkOwned, 7⟩, ⟨4096, 2 ^ 31, rkPartner, 7⟩] })] }
    let run (l : Nat) := sSnap snapJob { running := [(7, some (w l))], orders := [(7, [o 2])] }
    let copy := sSnap snapJob { copying := [(7, some 2)], partner := [(7, some ⟨3, 9, [], true⟩)] }
    (∀ l ∈ [0, 1, 2], admittedB (sCmd snapJob 1 (e l) []) 63 ocSnapshot (ringOf 1 (e l)) (e l) = true ∧ (e l).arg0 % 4 = l) ∧
    (admittedB (sCmd loadedJob 1 (e 3) []) 63 ocSnapshot (ringOf 1 (e 3)) (e 3) = true ∧ loadedJob.snapLevelOk 3 = false ∧
      snapJob.snapLevelOk 1 = true ∧ LogRoom (sCmd loadedJob 1 (e 3) []) 1) ∧
    (Tab.get 0 (sSnap snapJob {}).recov.maxInterval 31 = 0 ∧ Tab.get 0 (sSnap snapJob { maxInterval := [(31, 60)] }).recov.maxInterval 31 ≠ 0 ∧
      snapJob.st ∉ [.empty, .failed, .restoring]) ∧
    (∀ l ∈ [1, 2, 3], (s l).snapOrders 7 = o l :: [] ∧ ((s l).job 7).st = .loaded ∧ Tab.get none (s l).recov.running 7 = none ∧
      ((s l).job 7).committing = none ∧ ((s l).job 7).fgroup = some 63 ∧ ((s l).group 63).isSome = true) ∧
    ((∀ a n, CleanAt (s 2) a n) ∧ ∀ k, ((s 2).stack k).st ≠ .fencedRun) ∧
    ((s 2).flashUsed + extentsOf (128 + 4096 + 256) ≤ (s 2).flashExtents ∧ (full 2).flashExtents = 0 ∧
      (full 2).recov.flash = [] ∧ LogRoom (full 2) 1 ∧ (full 2).snapOrders 7 = o 2 :: []) ∧
    ((sSnap { snapJob with st := .quenched } {}).job 7).st = .quenched ∧
    ((run 2).snapOrders 7 ≠ [] ∧ Tab.get none (run 2).recov.running 7 = some (w 2) ∧ ((run 2).job 7).st = .loaded ∧ LogRoom (run 2) 1 ∧
      Tab.get none (run 3).recov.running 7 = some (w 3) ∧ (w 3).level ≠ 2) ∧
    ((sSnap { snapJob with st := .failed } { orders := [(7, [o 2])] }).snapOrders 7 ≠ [] ∧
      JobState.failed ∉ [.loaded, .running, .quenched]) ∧
    (Tab.get none copy.recov.copying 7 = some 2 ∧ Tab.get none copy.recov.partner 7 = some ⟨3, 9, [], true⟩ ∧
      (copy.job 7).partnerRegion = some ⟨4096, 1, rkPartner, 7⟩ ∧ Tab.get none copy.recov.copying 6 ≠ some 2) := by
  unfold LogRoom
  refine ⟨by decide +kernel, by decide +kernel, by decide +kernel, by decide +kernel,
    ⟨fun a n => clean_of_nil _ a n rfl, stacks_online _ rfl⟩, ?_⟩
  decide +kernel

/-! ### A restore with its snapshot -/

/-- The header of a snapshot of one region (R449) up to its digest, the region list, and the whole with a digest. -/
def snapHead : List Byte :=
  leBytes 4 0x58445346 ++ leBytes 2 1 ++ [2, 7] ++ leBytes 4 9 ++ leBytes 4 5 ++ leBytes 8 0 ++ leBytes 2 0 ++ [63, 1] ++ leBytes 4 0 ++
    leBytes 8 4096 ++ leBytes 4 0 ++ leBytes 4 0
def snapBody : List Byte := leBytes 8 0 ++ leBytes 4 1 ++ leBytes 4 0 ++ List.replicate 4096 0
def snapOf (d : List Byte) : List Byte := snapHead ++ (d ++ (leBytes 32 0 ++ snapBody))

theorem snap_low (d : List Byte) (o n : Nat) (h : o + n ≤ 48) : fieldAt (snapOf d) o n = fieldAt snapHead o n := by
  have l : snapHead.length = 48 := rfl
  unfold fieldAt snapOf
  rw [List.drop_append_of_le_length (by omega), List.take_append_of_le_length (by rw [List.length_drop]; omega)]
theorem snap_drop (d : List Byte) (h : d.length = 48) (o : Nat) : (snapOf d).drop (96 + o) = (leBytes 32 0 ++ snapBody).drop o := by
  have l : (snapHead ++ d).length = 96 := by rw [List.length_append, h]; rfl
  unfold snapOf
  rw [← List.append_assoc, ← List.drop_drop, List.drop_left' l]
theorem snap_length (d : List Byte) (h : d.length = 48) : (snapOf d).length = 4240 := by
  simp only [snapOf, snapBody, List.length_append, h, List.length_replicate]; rfl
theorem snap_regions (d : List Byte) (h : d.length = 48) : snapRegions (snapOf d) = [(0, 1)] := by
  unfold snapRegions
  rw [snap_low d 27 1 (by omega), show fieldAt snapHead 27 1 = 1 from by decide +kernel]
  show [(leNat (((snapOf d).drop (96 + 32)).take 8), leNat (((snapOf d).drop (96 + 40)).take 4))] = _
  rw [snap_drop d h, snap_drop d h]; decide +kernel
theorem snap_header (d : List Byte) (h : d.length = 48) : snapHeaderOk (snapOf d) = true := by
  have z : zeroAt (snapOf d) 0x60 32 = true := by
    show allZero (((snapOf d).drop (96 + 0)).take 32) = true
    rw [snap_drop d h]; decide +kernel
  have w : zeroAt (snapOf d) 0x2C 4 = true := by
    unfold zeroAt snapOf
    rw [List.drop_append_of_le_length (by decide), List.take_append_of_le_length (by decide)]; decide +kernel
  have g : fieldAt (snapOf d) (128 + 16 * 0 + 8) 4 = 1 := by
    show leNat (((snapOf d).drop (96 + 40)).take 4) = 1
    rw [snap_drop d h]; decide +kernel
  unfold snapHeaderOk
  rw [z, w, snap_low d 0 4 (by omega), snap_low d 4 2 (by omega), snap_low d 6 1 (by omega), snap_low d 7 1 (by omega),
    snap_low d 0x18 2 (by omega), snap_low d 0x1B 1 (by omega), snap_low d 0x28 4 (by omega), snap_low d 0x20 8 (by omega),
    show fieldAt snapHead 0x1B 1 = 1 from by decide +kernel]
  show (decide _ && true && true && decide (_ = 0 + 4096 * fieldAt (snapOf d) (128 + 16 * 0 + 8) 4)) = true
  rw [g]; decide +kernel
theorem snap_total (d : List Byte) : snapTotal (snapOf d) = 4240 := by
  unfold snapTotal; rw [snap_low d 27 1 (by omega), snap_low d 40 4 (by omega), snap_low d 32 8 (by omega)]; decide +kernel
theorem snap_digest (d : List Byte) (h : d.length = 48) : snapDigestOk (snapOf d) = decide (sha48 snapBody = d) := by
  have a : (snapOf d).drop 128 = snapBody := by
    rw [show 128 = 96 + 32 from rfl, snap_drop d h]
    exact List.drop_left' rfl
  have b : ((snapOf d).drop 48).take 48 = d := by
    have x : (snapOf d).drop 48 = d ++ (leBytes 32 0 ++ snapBody) := List.drop_left' rfl
    rw [x]; exact List.take_left' h
  unfold snapDigestOk; rw [a, b]

/-- A restore of job context 7 to itself whose pieces are given. -/
def restoring (got : List (Nat × List Byte)) (failed : Bool) : RestoreRun := ⟨1, 1, 0, 9, [], 63, 0, got, failed⟩
def sRestoring (r : RestoreRun) : State := sSnap { snapJob with st := .restoring, restore := some r } {}

/-- RestoresAreCheckedAndWritten: a snapshot that passes its checks, with a digest that verifies and with one that does not. -/
theorem wit_restore_write (d : List Byte) (h : d.length = 48) :
    let w := restoring [(0, snapOf d)] false
    let s := sRestoring w
    (s.job 7).restore = some w ∧ w.failed = false ∧ 128 ≤ w.bytes.length ∧ s.restoreCheck 7 w w.bytes = none ∧
    snapTotal w.bytes ≤ w.bytes.length ∧ LogRoom s 1 ∧ snapDigestOk (w.bytes.take (snapTotal w.bytes)) = decide (sha48 snapBody = d) := by
  intro w s
  have b : w.bytes = snapOf d := rfl
  rw [b, snap_total]
  refine ⟨rfl, rfl, by rw [snap_length d h]; omega, ?_, by rw [snap_length d h], ⟨rfl, Nat.le_of_ble_eq_true rfl⟩, ?_⟩
  · unfold State.restoreCheck
    rw [snap_header d h, snap_regions d h, snap_low d 0x18 2 (by omega), snap_low d 0x1A 1 (by omega), snap_low d 12 4 (by omega),
      snap_low d 0x1C 4 (by omega), snap_low d 0x20 8 (by omega)]
    rfl
  · rw [← snap_length d h, List.take_length]; exact snap_digest d h
theorem wit_restore_digests : (sha48 snapBody).length = 48 ∧ ∃ d : List Byte, d.length = 48 ∧ sha48 snapBody ≠ d := by
  refine ⟨fit_length _ _, ?_⟩
  by_cases e : sha48 snapBody = List.replicate 48 0
  · exact ⟨List.replicate 48 1, rfl, by rw [e]; decide⟩
  · exact ⟨List.replicate 48 0, rfl, e⟩

/-- RestoresAreCheckedAndWritten: a block that is all zero; a snapshot that the flash holds, one that it does not hold, one from a partner with
a group and without; no restore; a refused fetch; a header that is not all there; a header that is zero. -/
theorem wit_restores :
    let e := entry 0x1B 7 blk 16 0 0
    let block (source owner : Nat) : List Byte := [1, BitVec.ofNat 8 source] ++ leBytes 2 owner ++ leBytes 4 9 ++ leBytes 8 0
    let s (j : Job) (b : List Byte) : State := { sCmd j 1 e (cellsAt blk b) with
      recov := { flash := [⟨7, 3, 9, 0, []⟩] }, fabric := { groups := [(63, some { members := 1, live := [0], servers := [0] })] } }
    let zero := sRestoring (restoring [(0, List.replicate 128 0)] false)
    let short := sRestoring (restoring [(0, [1])] false)
    (∀ b ∈ [[], block 1 3, block 1 1023, block 2 3], admittedB (s snapJob b) 63 ocRestore (ringOf 1 e) e = true) ∧
    (snapJob.restoreOk ((s snapJob []).blockOf e) = false ∧ snapJob.restoreOk ((s snapJob (block 1 3)).blockOf e) = true ∧
      snapJob.restoreOk ((s snapJob (block 1 1023)).blockOf e) = true ∧ snapJob.restoreOk ((s snapJob (block 2 3)).blockOf e) = true) ∧
    ((s snapJob (block 1 3)).flashSnap 7 3 9 = some ⟨7, 3, 9, 0, []⟩ ∧ (s snapJob (block 1 1023)).flashSnap 7 1023 9 = none) ∧
    (snapJob.fgroup = some 63 ∧ ((s snapJob []).group 63).isSome = true) ∧
    (let j : Job := { snapJob with fgroup := none }
     j.fgroup = none ∧ j.restoreOk ((s j (block 3 3)).blockOf e) = true ∧ admittedB (s j (block 3 3)) 63 ocRestore (ringOf 1 e) e = true) ∧
    snapJob.restore = none ∧ (restoring [] true).failed = true ∧ LogRoom (sRestoring (restoring [] true)) 1 ∧
    (restoring [(0, [1])] false).bytes.length < 128 ∧ (short.job 7).restore = some (restoring [(0, [1])] false) ∧
    (let w := restoring [(0, List.replicate 128 0)] false
     128 ≤ w.bytes.length ∧ zero.restoreCheck 7 w w.bytes = some stMalformed ∧ (zero.job 7).restore = some w) := by
  unfold LogRoom; decide +kernel

end Sys2Proof.Tests
end

