-- ==== Sys2Proof/Tests/WitRegisters.lean ====
section
/-! SUPPORT. Witnesses for the statements about registers and sessions: states and operands that meet their hypotheses. -/

set_option Elab.async false

namespace Sys2Proof.Tests

open Sys2Proof Sys2Proof.Machine

/-! ### Registers and sessions -/

/-- RegistersTakeAdmittedWrites: with no job context, with one that is loaded, with a session of a Job principal, in D3hot; the flag
registers, and values at the ends of the ranges and next to them. -/
theorem wit_registers :
    let s := sSec {} {}
    let busy : State := { s with jobs := [(7, { st := .loaded })] }
    let held : State := { s with sec := { session := some ⟨1, 1, 1, false, [], []⟩ } }
    let off : State := { s with host := { d3hot := true } }
    let post := sSec { qlen := 8, mboxReq := [1, 5] } {}
    let low := sSec { lowHeld := [(0x3000, some 7)] } {}
    (s.host.d3hot = false ∧ LogRoom s 1 ∧ s.mayWrite = true ∧ s.allEmpty = true ∧ s.regs.mboxBusy = false ∧ s.ring 0 = none) ∧
    (busy.host.d3hot = false ∧ busy.mayWrite = true ∧ busy.allEmpty = false ∧ LogRoom busy 1) ∧
    (held.host.d3hot = false ∧ held.mayWrite = false ∧ LogRoom held 1) ∧ off.host.d3hot = true ∧
    (∀ p ∈ [(0x1010, flagState), (0x1020, flagLog), (0x2000, flagDone)], flagAt p.1 = some p.2 ∧ p.1 % 4 = 0) ∧
    (∀ b ∈ [(4, 2), (8, 4)], (b.1 = 4 ∨ b.1 = 8) ∧ b.2 % b.1 ≠ 0) ∧
    (macOk (2 ^ 41) = true ∧ macOk 0 = true ∧ macOk (2 ^ 40) = false ∧ (2 ^ 41) % 2 ^ 48 ≠ 0) ∧
    (∀ v ∈ [8000, 32000], 8000 ≤ v % 2 ^ 16 ∧ v % 2 ^ 16 ≤ 32000) ∧ (∀ v ∈ [7999, 32001], v % 2 ^ 16 < 8000 ∨ 32000 < v % 2 ^ 16) ∧
    (5 % 8 ≤ 5 ∧ 5 * 2 ^ 8 / 2 ^ 8 % 8 ≤ 5) ∧ (∀ v ∈ [70, 105], 70 ≤ v % 2 ^ 8 ∧ v % 2 ^ 8 ≤ 105) ∧
    (∀ v ∈ [69, 106], v % 2 ^ 8 < 70 ∨ 105 < v % 2 ^ 8) ∧ (∀ v ∈ [5, 10000], 5 ≤ v % 2 ^ 16 ∧ v % 2 ^ 16 ≤ 10000) ∧
    (∀ v ∈ [4, 10001], v % 2 ^ 16 < 5 ∨ 10000 < v % 2 ^ 16) ∧
    (1 ≤ 1024 % 2 ^ 16 ∧ 1024 % 2 ^ 16 ≤ 1024 ∧ 0x2BFC % 4 = 0 ∧ 0x2800 ≤ 0x2BFC ∧ 0x2BFC < 0x2C00) ∧
    (post.regs.mboxBusy = false ∧ 1 ≤ post.regs.qlen ∧ post.regs.qlen ≤ 1024 ∧ headerOk post.request = true) ∧
    (100 ≤ 100 * 2 ^ 16 / 2 ^ 16 % 2 ^ 16 ∧ (12 * 2 ^ 8) / 2 ^ 8 % 16 ≤ 12 ∧ snapOk (60 * 2 ^ 32 / 2 ^ 32 % 2 ^ 32) = true ∧
      snapOk 86400 = true ∧ snapOk 0 = true) ∧
    (∀ v ∈ [100 * 2 ^ 16 + 12 * 2 ^ 8], 100 ≤ v / 2 ^ 16 ∧ v / 2 ^ 8 % 16 ≤ 12 ∧ v < 2 ^ 32) ∧
    (∀ v ∈ [99 * 2 ^ 16, 100 * 2 ^ 16 + 13 * 2 ^ 8], (v / 2 ^ 16 < 100 ∨ 12 < v / 2 ^ 8 % 16) ∧ v < 2 ^ 32) ∧
    (∀ o ∈ [0x3000, 0x6020], o % 4 = 0 ∧ o / 8 * 8 ∈ wide64 ∧ o % 8 = 0) ∧
    (0x3004 / 8 * 8 ∈ wide64 ∧ low.ring 0 = none ∧ Tab.get none low.regs.lowHeld 0x3000 = some 7) := by
  unfold LogRoom
  refine ⟨?_, ?_, ?_, ?_, ?_, ?_, ?_, ?_, ?_, ?_, ?_, ?_, ?_, ?_, ?_, ?_, ?_, ?_, ?_, ?_, ?_⟩ <;> decide +kernel

/-- SessionsOpenCloseAndExpire: requests of eight bytes before READY, in recovery, and while none is posted; HELLO, CLOSE and CLAIM with
and without a session, while locked and with a key; a HELLO of nine bytes; a RESPONSE without a challenge, and with the wrong MAC as
the eighth failure. -/
theorem wit_sessions :
    let q : Session := ⟨15, 1, 0x80, false, [], []⟩
    let hdr (typ n : Nat) : Regs := { st := .ready, mboxBusy := true, qlen := n, mboxReq := [1, BitVec.ofNat 8 typ, 0, 15] }
    let s (typ n : Nat) (x : Sec) := sSec (hdr typ n) x
    let boot (typ : Nat) : State := { s typ 8 {} with regs := { hdr typ 8 with st := .boot } }
    let posted (t : State) (typ n : Nat) : Prop := t.regs.mboxBusy = true ∧ fieldAt t.request 1 1 = typ ∧ t.request.length = n
    let key : KeySlot := ⟨1, 0x80, zeros⟩
    let rings (t : State) : State := { t with host := { rings := [(1, some stepRing), (63, some {})] } }
    (∀ typ ∈ [1, 2, 3, 4], posted (boot typ) typ 8 ∧ (boot typ).regs.st = .boot ∧ (boot typ).sec.recovery = false ∧
      posted (s typ 8 { recovery := true }) typ 8 ∧ (sSec {} {}).regs.mboxBusy = false ∧ fieldAt (sSec {} {}).request 1 1 ≠ typ) ∧
    (∀ typ ∈ [1, 3, 4], posted (s typ 8 {}) typ 8 ∧ (s typ 8 {}).request.drop 8 = [] ∧ (s typ 8 {}).sec.session = none ∧
      (s typ 8 {}).sec.recovery = false ∧ (s typ 8 {}).regs.st ≠ .boot ∧ (s typ 8 {}).sec.locked = false ∧ LogRoom (s typ 8 {}) 2 ∧
      Tab.get none (s typ 8 {}).sec.keys 0 = none ∧ posted (rings (s typ 8 { session := some q })) typ 8) ∧
    (posted (s 1 8 { locked := true }) 1 8 ∧ posted (s 1 9 {}) 1 9 ∧
      (Tab.get none (s 4 8 { keys := [(0, some ⟨3, 0, zeros⟩)] }).sec.keys 0).isSome = true) ∧
    (let x : Sec := { keys := [(15, some key)], challenges := [(15, some ⟨[]⟩)], auths := 7 }
     posted (s 2 104 x) 2 104 ∧ fieldAt (s 2 104 x).request 3 1 = 15 ∧ (s 2 104 x).sec.recovery = false ∧ (s 2 104 x).regs.st ≠ .boot ∧
     (s 2 104 x).sec.session = none ∧ Tab.get none (s 2 104 x).sec.challenges 15 = some ⟨[]⟩ ∧
     Tab.get none (s 2 104 x).sec.keys 15 = some key ∧ LogRoom (s 2 104 x) 2 ∧ (s 2 104 x).sec.auths = 7) ∧
    (Tab.get none (s 2 104 { auths := 6 }).sec.challenges 15 = none ∧ (s 2 104 { auths := 6 }).sec.auths < 7) := by
  unfold LogRoom
  decide +kernel

/-- SessionsOpenCloseAndExpire: a RESPONSE whose MAC is the one of R558, and one with another in its place. -/
theorem wit_response :
    let hdr : List Byte := [1, 2, 0, 15, 0, 0, 0, 0]
    let nh : List Byte := List.replicate 48 7
    let msg := icdorLabel ++ leBytes 1 15 ++ leBytes 8 Config.serial ++ [] ++ nh
    let good := hmac48 zeros msg
    ∀ mac : List Byte, mac.length = 48 →
      let s := sSec { mboxBusy := true, qlen := 104, mboxReq := hdr ++ nh ++ mac }
        { keys := [(15, some ⟨1, 0x80, zeros⟩)], challenges := [(15, some ⟨[]⟩)] }
      s.request = hdr ++ nh ++ mac ∧ (s.request.drop 8).take 48 = nh ∧ (s.request.drop 8).drop 48 = mac ∧ s.request.length = 104 ∧
      (mac = good → good.length = 48) ∧ ∃ other : List Byte, other.length = 48 ∧ other ≠ good := by
  intro hdr nh msg good mac hm
  have h : (sSec { mboxBusy := true, qlen := 104, mboxReq := hdr ++ nh ++ mac }
      { keys := [(15, some ⟨1, 0x80, zeros⟩)], challenges := [(15, some ⟨[]⟩)] }).request = hdr ++ nh ++ mac := by
    have l : (hdr ++ nh ++ mac).length = 104 := by rw [List.length_append, hm]; rfl
    show (putBytes (hdr ++ nh ++ mac) 0 []).take 104 = _
    simp only [putBytes]
    rw [List.take_zero, List.nil_append, List.nil_append, List.length_nil, List.drop_zero, ← l, List.take_left]
  refine ⟨h, ?_, ?_, ?_, fun _ => fit_length _ _, ?_⟩
  · rw [h]; rfl
  · rw [h]; rfl
  · rw [h, List.length_append, hm]; rfl
  · by_cases e : good = List.replicate 48 0
    · exact ⟨List.replicate 48 1, rfl, by rw [e]; decide⟩
    · exact ⟨List.replicate 48 0, rfl, fun x => e x.symm⟩

end Sys2Proof.Tests
end

