-- ==== Sys2Proof/Tests/WitRings.lean ====
section
/-! SUPPORT. Witnesses for the statements about rings and doorbells: states and operands that meet their hypotheses. -/

set_option Elab.async false

namespace Sys2Proof.Tests

open Sys2Proof Sys2Proof.Machine

/-! ### Rings -/

def sRings (l : Tab (Option Ring)) : State where
  regs := { st := .ready }
  host := { rings := l }

/-- TheFunctionKeepsItsLinkAndVectors: a link at 8 lanes, the present link, a speed that is none; vectors that are pending. -/
theorem wit_function :
    let s : State := { sRings [] with host := { msixPending := [3, 255], unmasked := [3] } }
    (linkOk 8 640 = true ∧ 8 ≠ s.host.width ∧ LogRoom s 1) ∧ (16 = s.host.width ∧ 640 = s.host.speed) ∧ linkOk 8 641 = false ∧
    s.host.msixPending.Nodup ∧ s.host.d3hot = false ∧ ({ s.host with d3hot := true }).d3hot = true := by
  unfold LogRoom; decide +kernel

/-- DoorbellsAndRingZeroTakeEffect: an absent ring and one of 16 entries; its last index and the next value; R0CFG that enables ring 0
with its rings in order and at a base that is not aligned; R0CFG that disables it. -/
theorem wit_doorbells :
    let x : Ring := { cqPi := 15, cqCi := 14 }
    let s := sRings [(63, some x)]
    let w := 2 ^ 63 + 2 ^ 24 + 4 * 2 ^ 16 + 4 * 2 ^ 8
    let r0 (base : Nat) : State := { sRings [] with regs := { st := .ready, r0SqBase := base, r0CqBase := hostBase } }
    let off : State := { sRings [(0, some x)] with regs := { st := .ready, r0Cfg := w } }
    (s.host.d3hot = false ∧ LogRoom s 1 ∧ s.ring 0 = none ∧ s.ring 63 = some x) ∧
    ((15 : Nat) < 2 ^ x.sqLog ∧ 2 ^ x.sqLog ≤ (16 : Nat)) ∧
    ((15 < 2 ^ x.cqLog ∧ (15 + 2 ^ x.cqLog - x.cqCi) % 2 ^ x.cqLog ≤ (x.cqPi + 2 ^ x.cqLog - x.cqCi) % 2 ^ x.cqLog) ∧
      ¬ (13 + 2 ^ x.cqLog - x.cqCi) % 2 ^ x.cqLog ≤ (x.cqPi + 2 ^ x.cqLog - x.cqCi) % 2 ^ x.cqLog) ∧
    (cfgEnable w = true ∧ cfgEnable (r0 hostBase).regs.r0Cfg = false ∧ (r0 hostBase).ring 0 = none ∧ cfgOutOfRange w = false ∧
      baseOk (r0 hostBase).regs.r0SqBase (64 * 2 ^ cfgSqLog w) = true ∧
      baseOk (r0 hostBase).regs.r0CqBase (32 * 2 ^ cfgCqLog w) = true) ∧
    baseOk (r0 (hostBase + 1)).regs.r0SqBase (64 * 2 ^ cfgSqLog w) = false ∧
    (off.host.d3hot = false ∧ cfgEnable (w - 2 ^ 63) = false ∧ cfgEnable off.regs.r0Cfg = true ∧ off.ring 0 = some x ∧
      (w - 2 ^ 63) % 2 ^ 56 / 2 ^ 8 = off.regs.r0Cfg % 2 ^ 56 / 2 ^ 8) := by
  unfold LogRoom; decide +kernel

/-- RingsFetchCompleteAndAreMade: the last ring holds one entry at the end of its submission ring, and entries that fill its completion
ring; a taken command that has its status; interrupts that wait; RING_CREATE of no ring, of a ring that is there, without its role, and
of a new one; RING_DELETE of ring 0, of an absent ring, of an idle one and of one whose command runs. -/
theorem wit_rings :
    let x : Ring := { sqCi := 15, sqBase := hostBase, cqBase := hostBase + 4096 }
    let s := sRings [(63, some x)]
    let u : Taken := { id := 0, entry := entry 0x19 0 blk 64 0 0, status := some 0 }
    let done := { x with taken := [u], ccount := 2, pendingInts := 1, ctime := 1 }
    let full := { x with cqPi := 15 }
    let e := entry 0x01 0xFF blk 32 0 0
    let zero (e : Entry) (l : Tab (Option Ring)) (mem : List Host.Cell) : State :=
      { sCmd {} 2 e mem with sec := { session := some ⟨0, 2, 0, false, [], []⟩ }, host := { rings := (0, some (ringOf 0 e)) :: l } }
    let block (n role : Nat) : List Byte := leBytes 1 n ++ leBytes 1 role ++ [0xFF, 255, 16, 4] ++ leBytes 2 0 ++ leBytes 8 hostBase ++
      leBytes 8 (hostBase + 4096) ++ leBytes 8 0
    let c (n r : Nat) := zero e [(63, some x)] (cellsAt blk (block n r))
    let d (n : Nat) := entry 0x02 0xFF 0 0 n 0
    let del (n : Nat) (l : Tab (Option Ring)) := zero (d n) l []
    (s.regs.st ≠ .boot ∧ s.host.d3hot = false ∧ s.nextRing = some 63 ∧ s.ring 63 = some x ∧ s.fetchOk x = true ∧ LogRoom s 2 ∧
      ∀ b, (x.fetched ++ (List.range 1).map (fun i => entryOf (s.bytes (x.sqBase + 64 * ((x.sqCi + i) % 2 ^ x.sqLog)) 64))).head? = some b →
        b.opcode = 0) ∧
    (min 16 (min x.waiting x.room) = 1 ∧ s.nextRing ≠ some 0) ∧
    (done.taken.head? = some u ∧ u.status = some 0 ∧ done.deleting = false ∧
      (done.ccount ≠ 0 ∧ done.ccount ≤ done.pendingInts + 1) ∧ done.ctime ≠ 0 ∧ done.pendingInts ≠ 0) ∧
    (x.taken.head? = none ∧ x.ctime = 0) ∧ (0 < full.waiting ∧ full.room = 0 ∧ 0 < x.room) ∧
    (∀ b ∈ [c 0 2, c 63 2, c 62 3, c 62 2], admittedB b 0 ocRingCreate (ringOf 0 e) e = true) ∧
    (ringBlockOk ((c 0 2).blockOf e) = false ∧ ringBlockOk ((c 63 2).blockOf e) = true ∧ ((c 63 2).ring 63).isSome = true ∧
      ringBlockOk ((c 62 3).blockOf e) = true ∧ (c 62 3).ring 62 = none ∧ (c 62 3).sessionHolds 3 0xFF = false ∧
      ringBlockOk ((c 62 2).blockOf e) = true ∧ (c 62 2).ring 62 = none ∧ (c 62 2).sessionHolds 2 0xFF = true) ∧
    (∀ n ∈ [0, 62], admittedB (del n []) 0 ocRingDelete (ringOf 0 (d n)) (d n) = true) ∧
    (∀ y ∈ [x, done], admittedB (del 62 [(62, some y)]) 0 ocRingDelete (ringOf 0 (d 62)) (d 62) = true ∧
      (del 62 [(62, some y)]).ring 62 = some y ∧ y.deleting = false) := by
  unfold LogRoom; decide +kernel

end Sys2Proof.Tests
end

