-- ==== Sys2Proof/Tests/WitSites.lean ====
section
/-! SUPPORT. Witnesses for the statements about I/O die sites and ports: states and operands that meet their hypotheses. -/

set_option Elab.async false

namespace Sys2Proof.Tests

open Sys2Proof Sys2Proof.Machine

/-! ### I/O die sites -/

/-- A request of core 0 to site 1 with the fields of R395. -/
def siteReq (opc len obj offset doff version bytes addr bucket pf grp rsem : Nat) : SiteReq :=
  { site := 1, core := 0
    bytes := leBytes 1 opc ++ leBytes 1 0 ++ leBytes 2 len ++ leBytes 4 obj ++ leBytes 8 offset ++ leBytes 4 doff ++
      leBytes 4 version ++ leBytes 8 bytes ++ leBytes 8 addr ++ leBytes 4 bucket ++ leBytes 1 pf ++ leBytes 1 grp ++
      leBytes 1 rsem ++ leBytes 17 0 }
def askFlit (r : SiteReq) : Flit := ⟨7, 1, 1, 0, 0, 6, false, 3, 0, 0, 0, r.bytes, 0, 0⟩

/-- A job context of core 0, bound to group 63, with a gradient tensor and a staging region; a step whose owned buckets are given. -/
def gradient : Tensor := ⟨5, 0, 0, 32, 64, 3, 0, 0xFFFFE, 0⟩
def siteJob (st : StepState) (commit : Bool) (owned : List OwnedBucket) : Job :=
  { job0 with
    slots := [(0, some ⟨0, 1, { oneRegion with tensors := [gradient] }⟩)], fgroup := some 63
    regions := [⟨0, 16, rkStaging, 0⟩], steps := [{ aStep 1 st with commit := commit, owned := owned }] }
def sSite (j : Job) : State :=
  { withCore { coreWith [] with rings := [(1, ⟨3, false, 1, 1, 16, 0, 0⟩)] } with
    jobs := [(0, j)], fabric := { groups := [(63, some { member := 1, members := 2, live := [1], servers := [0, 1] })] } }

/-- The request stands at its site. -/
def sAsk (j : Job) (x : IoSite) (r : SiteReq) : State :=
  arriving { sSite j with fabric := { (sSite j).fabric with sites := [(1, x)] } } (askFlit r)
def askB (s : State) (r : SiteReq) : Bool :=
  decide (siteReqOf (askFlit r) = some r) && s.isIo r.site && (s.take (askFlit r)).isSome && decide (r.core < 4096) &&
    decide (s.jobOf r.core = some 0) && !s.net.oos.contains r.core && decide ((s.job 0).fgroup = some 63) &&
    decide (s.group 63 = some { member := 1, members := 2, live := [1], servers := [0, 1] }) && decide ((s.ioSite 1).landing = [])
def ownedLast : OwnedBucket := { bucket := 0xFFFFE, gaddr := 0 }
def gatherReq (offset : Nat) : SiteReq := siteReq 0x10 64 9 offset 0x5FF000 3 0 0 0 2 0 0
def openReq (t : Nat) : SiteReq := siteReq 0x11 0 t 0 0 0 4096 0 0 0 1 0
def publishReq : SiteReq := siteReq 0x12 0 9 4096 0x5FFFC0 1 4096 0xF000 0xFFFFE 6 0 63

/-- SitesServeCores: GATHER of a whole block and one that crosses a block, CONTRIB_OPEN of a whole tensor and of no tensor, and PUBLISH
outside the step's window, of a bucket that is not owned, and of the last bucket; each at a site in service and at a fenced one. -/
theorem wit_site_requests :
    let j := siteJob .normKnown true [ownedLast]
    let s := sSite j
    (∀ r ∈ [gatherReq 0, gatherReq 64, openReq 5, openReq 6, publishReq],
      askB (sAsk j {} r) r = true ∧ ((sAsk j {} r).ioSite 1).fenced = false ∧ r.fromSite = false ∧
      askB (sAsk j { fenced := true } r) r = true ∧ ((sAsk j { fenced := true } r).ioSite 1).fenced = true) ∧
    (∀ r ∈ [gatherReq 0, gatherReq 64], r.opc = 0x10 ∧ r.ctx < 4 ∧ fieldAt r.bytes 2 2 = 64 ∧ fieldAt r.bytes 44 1 < 3 ∧
      zeroAt r.bytes 24 20 = true ∧ zeroAt r.bytes 45 19 = true ∧ doffOk (fieldAt r.bytes 16 4) (64 * 64) = true) ∧
    fieldAt (gatherReq 0).bytes 8 8 % 4096 + 64 * 64 ≤ 4096 ∧ 4096 < fieldAt (gatherReq 64).bytes 8 8 % 4096 + 64 * 64 ∧
    (openReq 5).opc = 0x11 ∧ s.openOk 0 (openReq 5) 1 5 0 4096 = true ∧ s.openOk 0 (openReq 6) 1 6 0 4096 = false ∧
    (let b := publishReq.bytes
     publishReq.opc = 0x12 ∧ publishReq.ctx < 4 ∧ fieldAt b 24 8 = 4096 ∧ fieldAt b 40 4 < 2 ^ 20 ∧ fieldAt b 44 1 < 8 ∧
     fieldAt b 44 1 % 4 ≠ 3 ∧ fieldAt b 8 8 % 4096 = 0 ∧ zeroAt b 2 2 = true ∧ zeroAt b 45 1 = true ∧ zeroAt b 47 17 = true ∧
     (s.job 0).inKind rkStaging (fieldAt b 32 8) 4096 = true ∧ fieldAt b 32 8 % 32 = 0 ∧ fieldAt b 16 4 % 64 = 0 ∧
     fieldAt b 46 1 < 64 ∧ inBank 3 (fieldAt b 16 4) 64 = true) ∧
    (s.job 0).step 1 = some { aStep 1 .normKnown with commit := true, owned := [ownedLast] } ∧
    (∃ z ∈ [ownedLast], z.bucket = 0xFFFFE) := by
  refine ⟨by decide +kernel, by decide +kernel, by decide +kernel, by decide +kernel, by decide +kernel, by decide +kernel,
    by decide +kernel, by decide +kernel, by decide +kernel, ⟨_, List.mem_singleton.mpr rfl, rfl⟩⟩

/-- SitesServeCores: PUBLISH of a bucket that is not owned, outside the step's window, and of a job context without a fabric group. -/
theorem wit_site_refusals :
    (let u := sAsk (siteJob .normKnown true []) {} publishReq
     askB u publishReq = true ∧ (u.job 0).step 1 = some { aStep 1 .normKnown with commit := true }) ∧
    askB (sAsk (siteJob .open_ false [ownedLast]) {} publishReq) publishReq = true ∧
    (∀ t, ((sAsk (siteJob .open_ false [ownedLast]) {} publishReq).job 0).step 1 = some t → t.st ≠ .normKnown ∨ t.commit = false) ∧
    (let u := sAsk { siteJob .open_ false [] with fgroup := none } {} (gatherReq 0)
     (u.job 0).fgroup = none ∧ u.jobOf 0 = some 0 ∧ (u.take (askFlit (gatherReq 0))).isSome = true) := by
  refine ⟨by decide +kernel, by decide +kernel, fun t h => ?_, by decide +kernel⟩
  cases h; exact .inl (by decide)

/-- A flit of stack site 0 with a request's number for site 1, and the site with the last granule or record of one transfer open. -/
def returnFlit (low : Nat) : Flit := { (askFlit (gatherReq 0)).withTag (128 * 5 + low) with skind := 1, src := 0, op := 7, payload := zeros }
def sReturn (wr : Bool) (low : Nat) (x : IoXfer) (j : Job) : State :=
  let k : IoReq := { no := 5, xfer := 3, write := wr, len := 1, off := 0, bytes := 64, skip := 0 }
  arriving { sSite j with fabric := { (sSite j).fabric with sites := [(1, { reqs := [k], xfers := [x] })] } } (returnFlit low)
def returnB (wr : Bool) (low : Nat) (w : IoWork) (j : Job) : Bool :=
  let x : IoXfer := { id := 3, work := w, data := zeros, left := 1 }
  let s := sReturn wr low x j
  let f := returnFlit low
  let v := (leaving s f).ioSite 1
  decide (f.dkind.toNat = kSite ∧ f.skind.toNat = kSite ∧ f.op.toNat = opSiteData ∧ f.payload.length = 64 ∧ f.err0 = 0 ∧ f.err1 = 0) &&
    decide (f.tag = 128 * 5 + low) && s.isIo 1 && s.isStack 0 && (s.take f).isSome && !v.fenced &&
    (v.reqs.find? (fun q => q.no = f.tag / 128)).any (fun k => decide (k.xfer = 3 ∧ k.got + 1 = k.len ∧ k.write = wr)) &&
    decide (v.xfers.find? (fun q => q.id = 3) = some x)

/-- SitesServeCores: the last record of a transfer for each work that writes, and the last granule of one for each that reads. -/
theorem wit_site_returns :
    let j := siteJob .normKnown true [ownedLast]
    let e : Switch := { slot := 0, ring := 1, taking := 0, started := 0, variants := [], outLeft := [(9, 0)], inLeft := [(9, 0)] }
    let p : PublishReq := ⟨0, 0, 1, 0xFFFFE, 9, 0, false, 0x5FFFC0, 63, [0], 1⟩
    (∀ w ∈ [IoWork.reduced 0 1 0xFFFFE, .entry 0 1 0xFFFFE, .partnerPut 63 0 (msg mPartnerPut)], returnB true 64 w j = true) ∧
    returnB true 64 (.permuteIn 63 0 0 (msg mPermute)) { j with switch := some e } = true ∧ e.outLeft ≠ [] ∧
    (returnFlit 64).field 0 1 = 0 ∧
    (∀ w ∈ [IoWork.publish p, .partnerGet 63 0 (msg mPartnerGet), .permuteOut 63 9 0], returnB false 0 w j = true) ∧
    p.left ≠ [] ∧ 0 < p.sent ∧ spliceBytes zeros (0 + (64 * (1 - 1) - 0)) ((zeros.drop 0).take (64 - (64 * (1 - 1) - 0))) ≠ [] := by
  decide +kernel

/-- ContributionsAreSentConfirmedAndTabled: a complete chunk of a bucket of the open step, one of a job context that has none, one that
is not complete; a bucket that may be confirmed and one that may not; an owned bucket whose data is all there. -/
theorem wit_contributions :
    let c (job left : Nat) : Chunk := ⟨job, 1, 5, 0, false, leBytes 32 1, left, false⟩
    let b (bytes : Nat) : SentBucket := { bucket := 0xFFFFE, bytes := bytes, chunks := [(0, 1, 4096)] }
    let o : OwnedBucket := { bucket := 0xFFFFE, gaddr := 0, landed := 1, summary := some ⟨1, 1, 4096⟩ }
    let r (bytes : Nat) : StepRun := { aStep 1 .open_ with sentBuckets := [b bytes], owned := [o] }
    let j (bytes : Nat) : Job := { siteJob .open_ false [] with steps := [r bytes] }
    let s (bytes : Nat) : State := { sSite (j bytes) with
      fabric := { (sSite (j bytes)).fabric with sites := [(1, { chunks := [c 0 0, c 1 0, c 0 1] })] } }
    let hit (bucket : Nat) (r : StepRun) : Bool := r.early && r.owned.any (fun o => o.bucket = bucket && o.ready)
    (((s 4096).ioSite 1).chunks[0]? = some (c 0 0) ∧ ((s 4096).job 0).chunkStep = some (r 4096) ∧
      ((s 4096).job 0).step 1 = some (r 4096) ∧ ((s 4096).job 0).fgroup = some 63 ∧
      (s 4096).group 63 = some { member := 1, members := 2, live := [1], servers := [0, 1] } ∧
      (r 4096).sentBuckets.find? (fun z => z.bucket = (((s 4096).job 0).chunkBucket (c 0 0)).1) = some (b 4096) ∧
      (c 0 0).bad = false ∧ (b 4096).missed = false ∧ (b 4096).confirmed = false ∧ (r 4096).dropped = false) ∧
    (((s 4096).ioSite 1).chunks[1]? = some (c 1 0) ∧ ((s 4096).job 1).chunkStep = none ∧ LogRoom (s 4096) 1) ∧
    (((s 4096).ioSite 1).chunks[2]? = some (c 0 1) ∧ (c 0 1).left ≠ 0) ∧
    (r 4096).sentBuckets.find? (fun z => (s 4096).confirmable 0 (r 4096) z) = some (b 4096) ∧
    (r 4096).sentBuckets.find? (fun z => z.bucket = (b 4096).bucket) = some (b 4096) ∧
    (∀ z ∈ (r 4097).sentBuckets, (s 4097).confirmable 0 (r 4097) z = false) ∧
    (((s 4096).job 0).steps.find? (hit 0xFFFFE) = some (r 4096) ∧
      (r 4096).owned.find? (fun z => z.bucket = 0xFFFFE && z.ready) = some o ∧ o.summary = some ⟨1, 1, 4096⟩ ∧
      (r 4096).owned.find? (fun z => z.bucket = 0xFFFFE) = some o ∧
      (((s 4096).job 0).regionOf ((r 4096).entryAddr ((r 4096).entryIndex 0xFFFFE)) 32).isSome = true) ∧
    (∀ z ∈ ((s 4096).job 0).steps, hit 7 z = false) := by
  unfold LogRoom; decide +kernel

/-- PortsAndSitesAreWatched: a site with one UP port and one in training; a second site with an UP port; a site that is fenced and one
that carries no I/O die; a DOWN port under a MAC base; a message that waits; a bound job context. -/
theorem wit_ports :
    let c : Conn := { group := 63, site := 34, server := 0, queue := [msg mContrib] }
    let s : State :=
      { regs := { macBase := 0x020000000000 }
        jobs := [(7, { job0 with fgroup := some 63 })]
        fabric := { ports := [(124, ⟨.up, 0, 0⟩), (138, ⟨.training, 2, 1⟩), (139, ⟨.up, 0, 0⟩)]
                    groups := [(63, some { member := 1, members := 2, live := [1], servers := [0] })]
                    conns := [c], sites := [(1, { fenced := true })] } }
    let u : State :=
      { jobs := [(7, { job0 with steps := [{ aStep 9 .backwardDone with normSent := true }] })]
        fabric := { ports := [(138, ⟨.up, 0, 0⟩), (139, ⟨.up, 0, 0⟩)] } }
    s.isIo 34 = true ∧ (s.ioSite 34).fenced = false ∧ s.portState 138 = .training ∧ s.upPorts 34 = [139] ∧
    s.isIo 0 = false ∧ (s.ioSite 1).fenced = true ∧ s.portState 139 = .up ∧ LogRoom s 2 ∧ s.portState 138 ≠ .up ∧
    (∀ d ∈ s.upPorts 34, d = 139) ∧ s.portState 137 = .down ∧ s.regs.macBase ≠ 0 ∧ s.portState 138 ≠ .down ∧
    s.fabric.conns.find? (fun c => c.site = 34 && !c.queue.isEmpty) = some c ∧
    (∀ c ∈ s.fabric.conns, c.site = 31 → c.queue = []) ∧ s.stalled = [] ∧
    u.stalled.getLast? = some (7, 9) ∧ LogRoom u u.stalled.length ∧ u.portState 139 = .up ∧ (∃ d ∈ u.upPorts 34, d ≠ 139) ∧
    s.sender 34 = some 34 ∧ ({ s with fabric := { s.fabric with ports := [(124, ⟨.up, 0, 0⟩)] } } : State).sender 34 = some 31 ∧
    s.upPorts 28 = [] ∧ (s.ioSite 28).fenced = false ∧ s.isIo 28 = true ∧ (63, 0) ∈ s.beatConns ∧
    ((s.job 7).st ≠ .empty ∧ (s.job 7).fgroup.isSome = true ∧ (s.job 6).st = .empty) := by
  unfold LogRoom; decide +kernel

end Sys2Proof.Tests
end

