-- ==== Sys2Proof/Tests/WitStacks.lean ====
section
/-! SUPPORT. Witnesses for the statements about stack and temper sites: states and operands that meet their hypotheses. -/

set_option Elab.async false

namespace Sys2Proof.Tests

open Sys2Proof Sys2Proof.Machine

/-! ### Memory stacks and temper units -/

/-- A request of core 0 to stack site 0: OPC, context 2, one granule. -/
def stackReq (opc : Nat) (addr : Nat) (doff tag : Nat) : List Byte :=
  leBytes 1 opc ++ leBytes 1 2 ++ leBytes 2 1 ++ leBytes 4 0 ++ leBytes 8 addr ++ leBytes 4 doff ++ leBytes 4 tag ++ leBytes 40 0
def reqFlit (bs : List Byte) : Flit := ⟨7, 1, 0, 0, 0, 6, false, 3, 0, 0, 0, bs, 0, 0⟩
def reqOf (bs : List Byte) : SiteReq := { site := 0, core := 0, bytes := bs }

def sStack : State := { jobs := [(0, memJob)], interleave := [0] }
def sRead (rate : Nat) (on : Bool) (x : StackSite) : State :=
  arriving { sStack with regs := { rate := rate, enable := on }, stackSites := [(0, x)] } (reqFlit (stackReq 1 0xFFC0 0x5FFFC0 0))
def sReq (bs : List Byte) : State := arriving sStack (reqFlit bs)

/-- The hypotheses that every request StackSitesServeRequests serves meets. -/
def reqMeets (s : State) (bs : List Byte) : Bool :=
  let r := reqOf bs
  decide (siteReqOf (reqFlit bs) = some r) && s.isStack 0 && (s.take (reqFlit bs)).isSome && !s.requestWaits r &&
    decide ((s.stack 0).st = .online) && !s.net.oos.contains 0
theorem reqMeets_take {s : State} {bs : List Byte} (h : reqMeets s bs = true) :
    s.take (reqFlit bs) = some (leaving s (reqFlit bs)) := by
  simp only [reqMeets, Bool.and_eq_true] at h
  exact take_of h.1.1.1.2

/-- An open WRITE of core 0 to the first granule of 4 KiB that holds 0xF000. -/
def openW (addr len done : Nat) : OpenWrite :=
  { src := 0, tag := 0x7FFFFF, addr := addr, len := len, ctx := 2, done := done, refused := false, uncorrectable := false }

/-- StackSitesServeRequests: a READ that is drawn for a second read, one that is not, one behind an open WRITE to its granule, and one
that waits: at a hot stack, behind 256 accepted requests, and for a blocked bank. -/
theorem wit_stack_reads :
    let bs := stackReq 1 0xFFC0 0x5FFFC0 0
    let r := reqOf bs
    (∀ s ∈ [sRead 0 true {}, sRead 6 false {}], reqMeets s bs = true ∧ r.wellFormed = true ∧ s.stackStatus r false = 0 ∧
      s.windowBytes 0 0xFFC0 64 = none ∧ ((s.stack 0).writes.any (fun y => y.before r)) = false) ∧
    (sRead 0 true {}).doubleRead r = true ∧ (sRead 6 false {}).doubleRead r = false ∧ ((sRead 0 true {}).stack 0).writes = [] ∧
    (let s := sRead 6 false { writes := [openW 0xF000 1 0] }
     reqMeets s bs = true ∧ ((s.stack 0).writes.any (fun y => y.before r)) = true ∧ s.stackStatus r false = 0) ∧
    (∀ x ∈ [({ hot := true, lastAdmit := some 0 } : StackSite), { writes := List.replicate 256 (openW 0xF000 1 0) }],
      (sRead 6 false x).requestWaits r = true) ∧
    siteReqOf (reqFlit bs) = some r ∧ r.opc = 1 := by decide +kernel

/-- StacksAreRefreshedScrubbedAndFenced and StackSitesServeRequests: a bank that takes no activation. -/
theorem wit_row_blocked (s : State) (i a : Nat) :
    ({ s with stackSites := [(i, { blocked := [s.bankOfStack a] })] } : State).rowBlocked i a = true := by
  simp [State.rowBlocked, State.stack, Tab.get, State.bankOfStack, List.contains_cons]

/-- StackSitesServeRequests: a READ and a WRITE that are admitted and refused (outside the regions), one whose payload is malformed, and
a READ of an I/O die site. -/
theorem wit_stack_requests :
    (∀ q ∈ [(1, 0xFFC0, 0x5FFFC0, 0), (1, 0x20000, 0, 0), (2, 0x1FFC0, 0, 0x7FFFFF), (2, 0x20000, 0, 0)],
      let bs := stackReq q.1 q.2.1 q.2.2.1 q.2.2.2
      reqMeets (sReq bs) bs = true ∧ (reqOf bs).opc = q.1 ∧ (reqOf bs).wellFormed = true ∧
        (sReq bs).windowBytes 0 q.2.1 64 = none) ∧
    (∀ q ∈ [(1, 0xFFC1), (2, 0xFFC1)], let bs := stackReq q.1 q.2 0 0
      reqMeets (sReq bs) bs = true ∧ (reqOf bs).opc = q.1 ∧ (reqOf bs).wellFormed = false) ∧
    sStack.stackStatus (reqOf (stackReq 1 0xFFC0 0x5FFFC0 0)) false = 0 ∧
    sStack.stackStatus (reqOf (stackReq 1 0x20000 0 0)) false ≠ 0 ∧
    sStack.stackStatus (reqOf (stackReq 2 0x1FFC0 0 0x7FFFFF)) true = 0 ∧
    sStack.stackStatus (reqOf (stackReq 2 0x20000 0 0)) true ≠ 0 ∧
    (let f := { reqFlit (stackReq 1 0xFFC0 0 0) with skind := 1, src := 1 }
     let r : SiteReq := { reqOf (stackReq 1 0xFFC0 0 0) with core := 1, fromSite := true }
     let s := arriving sStack f
     siteReqOf f = some r ∧ (s.take f).isSome = true ∧ s.requestWaits r = false ∧ s.stackStatus r false = 0) ∧
    ∀ s a n, s.codeErr = [] → CleanAt s a n := by
  refine ⟨?_, ?_, ?_, ?_, ?_, ?_, ?_, fun s a n h => clean_of_nil s a n h⟩ <;> decide +kernel

def writeFlit : Flit := { (reqFlit zeros).withTag 0x7FFFFF with op := 7 }
def sWrite (done : Nat) : State := arriving { sStack with stackSites := [(0, { writes := [openW 0x1FF80 2 done] })] } writeFlit

/-- StackSitesServeRequests: the first and the last data flit of an open WRITE of two granules. -/
theorem wit_stack_write_data :
    writeFlit.dkind.toNat = kSite ∧ writeFlit.op.toNat = opSiteData ∧ writeFlit.skind.toNat ≤ kSite ∧ writeFlit.dest.toNat = 0 ∧
    (sWrite 0).isStack 0 = true ∧ ((sWrite 0).take writeFlit).isSome = true ∧ ((sWrite 1).take writeFlit).isSome = true ∧
    ((sWrite 0).stack 0).writes.find? (fun y => y.is (decide (writeFlit.skind.toNat = kSite)) writeFlit.src.toNat writeFlit.tag) =
      some (openW 0x1FF80 2 0) ∧
    ((sWrite 1).stack 0).writes.find? (fun y => y.is (decide (writeFlit.skind.toNat = kSite)) writeFlit.src.toNat writeFlit.tag) =
      some (openW 0x1FF80 2 1) ∧
    ((sWrite 0).stack 0).st = .online ∧ writeFlit.wen = 3 ∧ writeFlit.err0 = 0 ∧ writeFlit.err1 = 0 ∧ writeFlit.payload.length = 64 ∧
    ((sWrite 1).stack 0).held = [] ∧ (sWrite 1).net.oos.contains 0 = false := by decide +kernel

/-- StacksAreRefreshedScrubbedAndFenced: the last word of the first granule clean, corrected and poisoned, and in a blocked bank; a
stack online and one fenced; a bank below its threshold and one at it, where the thresholds of the stack allow an activation. -/
theorem wit_stack_care :
    let at_ (e : BitVec 288) (x : StackSite) : State := { interleave := [0], codeErr := [(127, e)], stackSites := [(0, x)] }
    let a := (at_ 1 {}).localWord 0 127
    (at_ 1 {}).isStack 0 = true ∧ 127 < stackWords ∧ 0 ∈ (at_ 1 {}).interleave ∧ (at_ 1 {}).stackOf a = 0 ∧
    ((at_ 1 {}).stack 0).st = .online ∧ (at_ 1 {}).rowBlocked 0 a = false ∧
    ({ interleave := [0] } : State).errOf (a / 32) = 0 ∧
    (wcDecode ((at_ 1 {}).errOf (a / 32))).1 = .corrected ∧ (wcDecode ((at_ poisonPattern {}).errOf (a / 32))).1 = .poisoned ∧
    LogRoom (at_ 1 {}) 1 ∧ (∀ j, j < 8 → ((at_ 1 {}).job j).st = .empty) ∧
    (({ stackSites := [(0, { st := .fencedRun })] } : State).stack 0).st ≠ .online := by
  unfold LogRoom; decide +kernel

/-- StacksAreRefreshedScrubbedAndFenced: a bank at its threshold and one below it; TemperUnitsUpdateTheirElements and the scrubber: a
bank of a fresh stack that takes two activations below its maximum. -/
theorem wit_stack_thresholds (i : Nat) :
    let d := (rfmThresholds i).1
    let x : StackSite := { acts := [(3, d)], blocked := [3] }
    d ≤ Tab.get 0 x.acts 3 ∧ Tab.get 0 x.acts 4 < d ∧ Tab.get 0 ({} : StackSite).acts 3 + 2 < (rfmThresholds i).2 := by
  simp only [rfmThresholds, Tab.get]
  refine ⟨by simp, by simp, by omega⟩

def temperBytes : List Byte :=
  leBytes 1 3 ++ leBytes 1 1 ++ leBytes 2 0 ++ leBytes 4 0 ++ leBytes 8 0x10000 ++ leBytes 4 0x5FFFC0 ++ leBytes 44 0
def aTemper (alg : Nat) : TemperCmd :=
  { core := 0, job := 0, alg := alg, flags := 0, rsem := 0, step := 0, paddr := 0x10000, roff := 0x5FFFC0, started := 0 }
def sTemper (x : StackSite) (l : List StepRun) : State :=
  arriving { sStack with jobs := [(0, { memJob with steps := l })], stackSites := [(0, x)] } (reqFlit temperBytes)

/-- TemperUnitsUpdateTheirElements: a request within a commit window and one outside it; one at a full queue and one at a hot stack. -/
theorem wit_temper_requests :
    let r := reqOf temperBytes
    let eight : StackSite := { temper := List.replicate 8 (aTemper 1) }
    (∀ l ∈ [[], [aStep 1 .open_]], let s := sTemper eight l
      siteReqOf (reqFlit temperBytes) = some r ∧ s.isStack 0 = true ∧ r.opc = 3 ∧ (s.stack 0).temper.length < 9 ∧
      s.hotWait 0 = false ∧ (s.take (reqFlit temperBytes)).isSome = true ∧ s.jobOf 0 = some 0 ∧
      s.net.oos.contains 0 = false) ∧
    temperOk r.bytes = true ∧ resultArea (fieldAt r.bytes 16 4) = true ∧
    ((sTemper eight []).job 0).commitOpen = true ∧ ((sTemper eight [aStep 1 .open_]).job 0).commitOpen = false ∧
    9 ≤ ((sTemper { temper := List.replicate 9 (aTemper 1) } []).stack 0).temper.length ∧
    (sTemper { hot := true, lastAdmit := some 0 } []).hotWait 0 = true := by decide +kernel

def sShare (alg : Nat) : State :=
  let mem : List Host.Cell := [(0x10009, 0x10), (0x10011, 0x20), (0x10021, 0x10), (0x10022, 1), (0x10029, 4)]
  let mem1 : List Host.Cell :=
    [(0x10009, 0x10), (0x10011, 0x20), (0x10019, 0x30), (0x10021, 0x10), (0x10022, 1), (0x10029, 4), (0x10052, 0x80)]
  { sStack with mem := if alg = 1 then mem1 else mem, stackSites := [(0, { temper := [aTemper alg] })] }

/-- TemperUnitsUpdateTheirElements: a share of a whole granule by each algorithm that updates; and one that a quench, a drain or a hot
stack holds. -/
theorem wit_temper_share :
    let z : TRes := ⟨0, false⟩
    let b (v eps : Nat) : TBlock := ⟨0, 0x1000, 0x2000, v, 0x11000, 1024, ⟨z, z, z, z, z, z, z, z, ⟨eps, false⟩, z⟩, 0, 0, none⟩
    (∀ alg ∈ [1, 2, 3], ((sShare alg).stack 0).temper = [aTemper alg] ∧ (sShare alg).isStack 0 = true ∧
      (sShare alg).temperHeld 0 0 = false ∧ (aTemper alg).next = 0 ∧ (aTemper alg).share = {} ∧
      ((sShare alg).job 0).inKind rkStaging 0x10000 128 = true ∧
      (let v := if alg = 1 then 0x3000 else 0
       let y := b v (if alg = 1 then 0x800000 else 0)
       temperBlock (aTemper alg) ((sShare alg).bytes 0x10000 128) = some y ∧
       temperRegions ((sShare alg).job 0) (aTemper alg) y = true ∧
       y.pub = none ∧ 1 ≤ y.count ∧ y.count ≤ 1024 ∧ (sShare alg).stackOf y.w = 0 ∧ y.w + 4 * y.count ≤ y.x ∧
       y.x + 2 * y.count ≤ y.m ∧ (alg = 1 → y.m + 4 * y.count ≤ y.v))) ∧
    (∀ alg k, ((sShare alg).stack k).st = .online ∧ ((sShare alg).stack k).blocked = []) ∧
    (∀ alg a n, CleanAt (sShare alg) a n) ∧ resultArea (aTemper 1).roff = true ∧ (sShare 1).net.oos.contains 0 = false ∧
    ({ sShare 1 with obs := { quench := { active := true } } } : State).temperHeld 0 0 = true ∧
    ({ sShare 1 with stackSites := [(0, { temper := [aTemper 1], hot := true })] } : State).temperHeld 0 0 = true := by
  refine ⟨by decide +kernel, fun alg k => ?_, fun alg a n => clean_of_nil _ a n rfl, by decide +kernel, by decide +kernel,
    by decide +kernel, by decide +kernel⟩
  simp only [State.stack, sShare]
  rcases get_one ({} : StackSite) { temper := [aTemper alg] } 0 k with e | e <;> rw [e] <;> exact ⟨rfl, rfl⟩

end Sys2Proof.Tests
end

