-- ==== Sys2Proof/Tests/WitSteps.lean ====
section
/-! SUPPORT. Witnesses for the statements about training steps: states and operands that meet their hypotheses. -/

set_option Elab.async false

namespace Sys2Proof.Tests

open Sys2Proof Sys2Proof.Machine

/-! ### Steps -/

/-- The block of STEP n with its table in staging (R342). -/
def stepBlock (n : Nat) : List Byte :=
  leBytes 4 n ++ [2, 62, 63, 0] ++ leBytes 4 (spadBytes - 128) ++ leBytes 4 0 ++ leBytes 8 1 ++ leBytes 8 0x8000 ++ leBytes 4 1 ++
    leBytes 4 0 ++ leBytes 8 hostBase ++ leBytes 16 0

/-- StepsOpenRunBackAndAreDecided: STEP 1 whose block is all zero, STEP 1 that passes; a step that waits with its table at the end of
its region; one that may not open; an open step with every bucket sent, without and with a norm summary (one that counts a non-finite
value, one that misses a member, and a finite one), and one that waits for a bucket; its norm contribution. -/
theorem wit_steps_open :
    let e := entry 0x19 7 blk 64 0 0
    let bad := sCmd (stepJob []) 1 e [(blk, 9)]
    let good := sCmd (stepJob []) 1 e (cellsAt blk (stepBlock 1))
    let q := { aStep 1 .waiting with noff := spadBytes - 64, btab := 0xF800, btabn := 64 }
    let owned : OwnedBucket := { bucket := 5, gaddr := 0 }
    let a := { aStep 1 .open_ with owned := [owned], noff := spadBytes - 128, btab := 0xFFC0 }
    let b := { a with sentBuckets := [⟨5, 64, [], false, false, 0⟩] }
    let fin (nonfin : Nat) (missed : List Nat) : NormIn := ⟨9, nonfin, 1, missed⟩
    let d := { aStep 1 .backwardDone with owned := [{ owned with written := true }] }
    (Admitted bad 63 opcStep (ringOf 1 e) e ∧
      (bad.job 7).stepCheck (bad.blockOf e) (parseStep (bad.blockOf e) 63 0) = some stMalformed) ∧
    (Admitted good 63 opcStep (ringOf 1 e) e ∧
      (good.job 7).stepCheck (good.blockOf e) (parseStep (good.blockOf e) 63 0) = none) ∧
    ((stepJob [q]).steps.find? (fun z => z.st = .waiting) = some q ∧ (stepJob [q]).step 1 = some q ∧ (stepJob [q]).mayOpen = true ∧
      (stepJob [q]).dropped = false ∧ q.noff + 64 ≤ spadBytes ∧ q.btab + 32 * q.btabn ≤ spadBase) ∧
    (stepJob [a, q]).mayOpen = false ∧
    ((stepJob [a]).openStep = some a ∧ (stepJob [a]).step 1 = some a ∧ a.st = .open_ ∧ a.allSent = true ∧ a.normIn = none) ∧
    (∀ n ∈ [fin 1 [], fin 0 [1], fin 0 []], let w := { a with normIn := some n }
      (stepJob [w]).openStep = some w ∧ (stepJob [w]).step 1 = some w ∧ w.st = .open_ ∧ w.allSent = true ∧ w.normIn = some n ∧
      w.noff + 128 ≤ spadBytes ∧ w.btab + 32 * w.owned.length ≤ spadBase ∧ (w.owned.map (·.bucket)).Nodup) ∧
    ((stepJob [b]).openStep = some b ∧ b.st = .open_ ∧ b.allSent = false) ∧
    ((stepJob [d]).openStep = some d ∧ (stepJob [d]).step 1 = some d ∧ d.st = .backwardDone ∧ (stepJob [d]).fgroup = some 63 ∧
      ((sSteps [d]).group 63).isSome = true ∧ d.normSent = false ∧ ∀ o ∈ d.owned, o.written = true) := by
  refine ⟨⟨admitted_of (by decide +kernel), by decide +kernel⟩, ⟨admitted_of (by decide +kernel), by decide +kernel⟩, ?_⟩
  decide +kernel

/-- A device without cores counts nothing. -/
theorem no_nonfinite (s : State) (j : Nat) (ks : List Nat) (h : s.cores = []) : s.nonfiniteOf j ks = 0 := by
  have ctx0 : ∀ c k, (s.ctx c k).nonfinite = 0 := by intro c k; unfold State.ctx State.core; rw [h]; rfl
  have z : ∀ (f : Nat → Nat) (l : List Nat) (a : Nat), (∀ c, f c = 0) → l.foldl (fun a c => a + f c) a = a := by
    intro f l
    induction l with
    | nil => intro a _; rfl
    | cons x l ih => intro a hf; rw [List.foldl_cons, hf x]; exact ih a hf
  unfold State.nonfiniteOf sumOver
  rw [z _ _ _ (fun c => z _ _ _ (fun k => ctx0 c k))]
  rfl

/-- StepsCommitOrAreSkipped: a step that commits with its last publication acknowledged, one whose temper failed, one with a publication
that is not acknowledged, one that is skipped at the ends of its record and table, and none. -/
theorem wit_steps_end :
    let o : OwnedBucket := { bucket := 5, gaddr := 0, published := true }
    let r := { aStep 1 .normKnown with commit := true, owned := [o] }
    let bad := { r with temperBad := some (0, 1) }
    let wait := { r with owned := [{ o with published := false }] }
    let k := { aStep 1 .normKnown with result := hostBase, noff := spadBytes - 128, owned := [o], btab := spadBase - 32 }
    let held (s : State) (q : StepRun) : Prop :=
      s.ring q.ring = some stepRing ∧ stepRing.taken.find? (fun v => v.id = q.taking && v.status = none) = some stepTaken
    ((stepJob [r]).committing = some r ∧ (sSteps [r]).commitReady 0 r = true ∧ r.temperBad = none ∧
      (sSteps [r]).nonfiniteOf 0 [2] = 0 ∧ held (sSteps [r]) r) ∧
    ((stepJob [bad]).committing = some bad ∧ (sSteps [bad]).commitReady 0 bad = true ∧ bad.temperBad.isSome = true) ∧
    ((stepJob [wait]).committing = some wait ∧ (sSteps [wait]).commitReady 0 wait = false) ∧
    ((stepJob [k]).steps.find? (fun q => q.st = .normKnown && !q.commit) = some k ∧ held (sSteps [k]) k ∧
      k.noff + 128 ≤ spadBytes ∧ hostBase ≤ k.result) ∧
    ∀ q ∈ (stepJob [r]).steps, q.st = .normKnown → q.commit = true := by
  refine ⟨⟨by decide +kernel, by decide +kernel, rfl, no_nonfinite _ _ _ rfl, by decide +kernel⟩, ?_⟩
  decide +kernel

end Sys2Proof.Tests
end

