-- ==== Sys2Proof/Tests/WitStreams.lean ====
section
/-! SUPPORT. Witnesses for the statements about streams: states and operands that meet their hypotheses. -/

set_option Elab.async false

namespace Sys2Proof.Tests

open Sys2Proof Sys2Proof.Machine

/-! ### The stream engine -/

/-- One row of 32 bytes from bank A to the end of bank D, rearmed at its source; the same with an EMPTY wait on semaphore 63; a PUSH to
core 7; a LOAD from the first stack. -/
def localDesc : Desc :=
  { kind := 1, flags := 0x20, dst := 0x5FFFE0, rowLen := 32, rows := 1, sStride := 32, dStride := 32, chunk := 1 }
def emptyDesc : Desc := { localDesc with flags := 0x21, emptySem := 63 }
def pushDesc : Desc := { localDesc with kind := 2, flags := 0x22, dstMode := 3, dst := 0x7005FFFE0, fullSem := 63 }
def loadDesc : Desc := { localDesc with kind := 3, srcMode := 1, src := 0x11FFFFFFE0 }
def running (d : Desc) : Stream := { st := .running, desc := d }
def pendingReq : Request := ⟨0, 0, 1, 0, 0, 0, 0, 32, 0, 1⟩

/-- A job context with a spill region of stack memory, from which a block may come. -/
def blockJob : Job := { job0 with regions := [⟨0x20000, 16, rkSpill, 0⟩] }
def sBlock (c : Core) : State := { withCore c with jobs := [(0, blockJob)], interleave := [0] }
def blockXfer (reqs : List Request) : CoreXfer :=
  { work := .block, ctx := 0, pc := 0, addr := 0x20000, reqs := reqs, data := List.replicate 1024 0 }
def stackFetch : Fetch := ⟨0, 0, true, false, 0x20000⟩

/-- StreamOperationsActOnTheirStreams: SFETCH of the last 1,024 bytes of bank D, and of stack memory; one while a stream of the half is
held; a block of UNSET streams and one whose first KIND is 7; and a block of stack memory that has come, and one that has not. -/
theorem wit_sfetch :
    let s := withCore (coreWith [(1, 0x80000000005FFC00#64)])
    let f : Fetch := ⟨0, 0, true, true, 0x5FFC00⟩
    let u := withCore { coreWith [] with fetch := some f }
    let bad : State := { u with mem := [(windowAddr 0 0x5FFC00, 7)] }
    let a := windowAddr 0 f.addr
    HasHead s h0 ∧ s.blockCause 0 ((s.ctx 0 0).reg 1) = 0 ∧ (s.core 0).fetch = none ∧ (s.core 0).held = false ∧
    (∀ m, m ∈ halfStreams true → ((s.core 0).stream m).st ≠ .running ∧ ((s.core 0).stream m).st ≠ .held) ∧
    (u.core 0).fetch = some f ∧ u.blockFault (u.bytes a 1024) (u.groupsOf 0) = 0 ∧ (∀ a n, CleanAt u a n) ∧
    (bad.core 0).fetch = some f ∧ bad.blockFault (bad.bytes a 1024) (bad.groupsOf 0) ≠ 0 ∧ f.ctx < 4 ∧ bad.jobOf 0 = none ∧
    ∀ a n, CleanAt bad a n := by
  refine ⟨hasHead_of ?_, ?_, ?_, ?_, ?_, ?_, ?_, fun a n => clean_of_nil _ a n rfl, ?_, ?_, ?_, ?_, fun a n => clean_of_nil _ a n rfl⟩ <;>
    decide +kernel
theorem wit_sfetch_stack :
    let s := sBlock (coreWith [(1, 0x20000#64)])
    let held := sBlock { coreWith [(1, 0x20000#64)] with streams := [(31, { st := .held })] }
    let here := sBlock { coreWith [] with fetch := some stackFetch, xfers := [blockXfer []] }
    let still := sBlock { coreWith [] with fetch := some stackFetch, xfers := [blockXfer [⟨0, 0x20000, 16, 0, 0, 0, 0, 0, 0, 16⟩]] }
    HasHead s h0 ∧ s.blockCause 0 ((s.ctx 0 0).reg 1) = 0 ∧ (bufferReg ((s.ctx 0 0).reg 1)).1 = false ∧ (s.core 0).fetch = none ∧
    HasHead held h0 ∧ held.blockCause 0 ((held.ctx 0 0).reg 1) = 0 ∧ 31 ∈ halfStreams true ∧ ((held.core 0).stream 31).st = .held ∧
    (here.core 0).fetch = some stackFetch ∧ (here.core 0).xfers.find? (fun q => q.work = .block) = some (blockXfer []) ∧
    (here.core 0).xfers.all (fun q => q.reqs.isEmpty) = true ∧
    here.blockFault (blockXfer []).data (here.groupsOf 0) = 0 ∧
    (still.core 0).fetch = some stackFetch ∧ (still.core 0).xfers.any (fun q => q.work = .block && !q.reqs.isEmpty) = true := by
  refine ⟨hasHead_of ?_, ?_, ?_, ?_, hasHead_of ?_, ?_, ?_, ?_, ?_, ?_, ?_, ?_, ?_, ?_⟩ <;> decide +kernel

/-- StreamOperationsActOnTheirStreams: stream 31 ARMED and named by the mask's last bit, RUNNING with and without requests outstanding,
HELD, re-armed with and without a count, and UNSET; and stream 31 while its block is fetched. -/
theorem wit_stream_operations :
    let regs : Tab Word64 := [(1, 0x80000000#64), (2, 0x3FFFE0#64), (3, 1)]
    let at_ (x : Stream) : State := withCore { coreWith regs with streams := [(31, x)] }
    let armed := at_ { st := .armed, desc := localDesc }
    (∀ x ∈ [({ st := .armed, desc := localDesc } : Stream), running localDesc, { running localDesc with reqs := [pendingReq] },
        { st := .held, desc := localDesc }, {}],
      HasHead (at_ x) h0) ∧
    ((armed.ctx 0 0).reg 1).toNat < 2 ^ 32 ∧ ((armed.ctx 0 0).reg 1).toNat.testBit 31 = true ∧ (armed.core 0).held = false ∧
    ((armed.core 0).stream 31).eligible = true ∧
    (∀ m, m < 32 → ((armed.ctx 0 0).reg 1).toNat.testBit m = true → ((armed.core 0).stream m).eligible = true →
      armed.startCause 0 0 ((armed.core 0).stream m).desc = 0) ∧
    armed.rearmCause localDesc 0x3FFFE0 none = 0 ∧ armed.rearmCause localDesc 0x3FFFE0 (some 1) = 0 ∧
    (((at_ {}).core 0).stream 31).eligible = false ∧ (((at_ {}).core 0).stream 31).st = .unset ∧
    (running localDesc).quiet = true ∧ ({ running localDesc with reqs := [pendingReq] } : Stream).quiet = false ∧
    (armed.core 0).fetching 31 = false ∧ ({ coreWith regs with fetch := some stackFetch } : Core).fetching 31 = true := by
  refine ⟨?_, ?_⟩
  · intro x hx; refine hasHead_of ?_; revert x hx; decide
  · decide +kernel

def storeDesc : Desc := { localDesc with kind := 4, dstMode := 1, dst := 0x11FFFFFFE0 }
def gatherDesc : Desc := { localDesc with kind := 5, site := 2 }
def contribDesc : Desc := { localDesc with kind := 6, site := 3 }
def sMove (x : Stream) : State := { withCore { coreWith [] with streams := [(31, x)] } with interleave := [0] }

/-- A running stream of a kind is the next of its core, and can act. -/
def movesNext (d : Desc) : Prop :=
  (sMove (running d)).canAct 0 31 = true ∧ (sMove (running d)).servesNext 0 31 = true ∧ (running d).needsEmpty = false
theorem wit_moves_next : movesNext localDesc ∧ movesNext pushDesc ∧ movesNext loadDesc ∧ movesNext storeDesc ∧ movesNext gatherDesc ∧
    movesNext contribDesc := by
  refine ⟨⟨?_, ?_, ?_⟩, ⟨?_, ?_, ?_⟩, ⟨?_, ?_, ?_⟩, ⟨?_, ?_, ?_⟩, ⟨?_, ?_, ?_⟩, ⟨?_, ?_, ?_⟩⟩ <;> decide +kernel

/-- StreamsMoveAndComplete: a piece of every kind, the EMPTY wait with and without a count, a stream of lower priority that waits, a
last chunk and an earlier one that are complete, and one that is not. -/
theorem wit_stream_moves :
    let counted : State := withCore { coreWith [] with streams := [(31, running emptyDesc)], sems := [(63, ⟨1, false, false⟩)] }
    let first := running { localDesc with flags := 0x60 }
    let two : State := withCore { coreWith [] with streams := [(0, first), (31, running localDesc)] }
    let done : Stream := { running { localDesc with flags := 0x22, fullSem := 63 } with row := 1 }
    let half : Stream := { running { localDesc with rows := 2 } with row := 1 }
    (∀ a n x, CleanAt (sMove x) a n) ∧
    ((sMove (running emptyDesc)).canMove 0 31 = true ∧ (running emptyDesc).needsEmpty = true ∧
      (running emptyDesc).emptyListed = false) ∧
    (counted.canMove 0 31 = true ∧ (counted.core 0).hasWaiter 63 = false ∧ 1 ≤ ((counted.core 0).sem 63).value) ∧
    (first.desc.pri = true ∧ two.canAct 0 31 = true ∧ two.servesNext 0 31 = false) ∧
    localDesc.kind = dkLocal ∧ pushDesc.kind = dkPush ∧ loadDesc.kind = dkLoad ∧ storeDesc.kind = dkStore ∧
    gatherDesc.kind = dkGather ∧ contribDesc.kind = dkContrib ∧
    farCore 0 pushDesc.dstMode (pushDesc.dstPos 0) = some (7, 0x5FFFE0) ∧ (sMove {}).net.oos.contains 7 = false ∧
    (sMove (running loadDesc)).inStack (loadDesc.srcPos 0) 32 = true ∧
    (sMove (running storeDesc)).inStack (storeDesc.dstPos 0) 32 = true ∧
    (((sMove {}).core 0).ring contribDesc.site).role ≠ 1 ∧ (((sMove {}).core 0).ring contribDesc.site).skd ≠ 1 ∧
    (done.st = .running ∧ done.chunks < done.metChunks ∧ done.chunks + 1 = done.desc.chunks) ∧
    (half.chunks < half.metChunks ∧ half.chunks + 1 ≠ half.desc.chunks) ∧
    ¬ (running localDesc).chunks < (running localDesc).metChunks := by
  refine ⟨fun a n x => clean_of_nil _ a n rfl, ?_⟩
  decide +kernel

end Sys2Proof.Tests
end

