-- ==== Sys2Proof/Tests/WitTiles.lean ====
section
/-! SUPPORT. Witnesses for the statements about multiplies, spills and verdicts: states and operands that meet their hypotheses. -/

set_option Elab.async false

namespace Sys2Proof.Tests

open Sys2Proof Sys2Proof.Machine

/-! ### The matrix engine -/

/-- Parameters at s1 to s4: E4M3 in blocks of 16 with E8M0 scales, a at bank A and b at bank C, strides of 64; targets at s5 (another
core of the field) and s6, s7 (a chain into this core's queue). -/
def mulRegs : Tab Word64 :=
  [(1, 0x0400100000000000#64), (2, 0x0400280000400000#64), (4, 0x0001000100010001#64), (5, 0x00003F5000000007#64),
   (7, 0x00003F5000000000#64)]
def mulCore : Core := coreWith mulRegs
def sMul (t : Option Tile) : State := { withCore { mulCore with tile := t } with jobs := [(0, job0)] }
def oneTile : Tile := { stA := f32One, stB := f32One, blocks := 4095 }

/-- The operands of an MMUL, as the registers give them. -/
def mulA : MulOperand := ⟨⟨.e4m3, 1, 16, false, false⟩, 0, 0x200000, 64, 64, f32One⟩
def mulB : MulOperand := ⟨⟨.e4m3, 1, 16, false, false⟩, 0x400000, 0x500000, 64, 64, f32One⟩

/-- A tile in the drain buffer, bound for this core's queue. -/
def aDrain : Drain := ⟨{}, .queue, 0, none, false, false⟩

/-- MultipliesBuildTilesAndDrainThem: 4,096 blocks that open a tile, the last block of a tile in progress with END to each target,
and DRAIN; a full drain buffer; and a busy array, in which the next instruction is taken and waits. -/
theorem wit_multiplies :
    let open_ : MatWord := ⟨false, false, 0, 0, 1, 0, 4095⟩
    let endTo (target : BitVec 3) (sd : Reg) : MatWord := ⟨true, true, 15, target, 1, sd, 0⟩
    let s := sMul (some oneTile)
    let full : State := { withCore { mulCore with tile := some oneTile, drain := some aDrain } with jobs := [(0, job0)] }
    let busy : State := { withCore { mulCore with atC := some aDrain, drain := some aDrain } with jobs := [(0, job0)] }
    (∀ t a n, CleanAt (sMul t) a n) ∧ mulOperands ((sMul none).ctx 0 0) 1 = some (mulA, mulB) ∧
    mulOperands (s.ctx 0 0) 1 = some (mulA, mulB) ∧
    MatHead (sMul none) h0 ∧ matLegalMmul open_ = true ∧ ((sMul none).core 0).arrayBusy = false ∧
    (sMul none).mulCause 0 ((sMul none).ctx 0 0) open_ = 0 ∧
    tileStateOk ((sMul none).core 0).tile false false 4096 f32One f32One = true ∧
    MatHead s h0 ∧ (s.core 0).arrayBusy = false ∧ (s.core 0).tile = some oneTile ∧ (s.core 0).drain = none ∧
    oneTile.check = none ∧
    tileStateOk (s.core 0).tile true false 1 f32One f32One = true ∧
    (∀ p ∈ [((0 : BitVec 3), (0 : Reg)), (1, 5), (2, 5), (3, 6)],
      matLegalMmul (endTo p.1 p.2) = true ∧ s.mulCause 0 (s.ctx 0 0) (endTo p.1 p.2) = 0) ∧
    matLegalDrain ⟨false, false, 0, 1, 0, 5, 0⟩ = true ∧ s.targetCause 0 (s.ctx 0 0) 1 5 = 0 ∧
    MatHead full h0 ∧ (full.core 0).drain.isSome = true ∧ (full.core 0).arrayBusy = false ∧
    MatHead busy h0 ∧ (busy.core 0).arrayBusy = true ∧ busy.mulCause 0 (busy.ctx 0 0) open_ = 0 ∧
    busy.targetCause 0 (busy.ctx 0 0) 1 5 = 0 := by
  refine ⟨fun t a n => clean_of_nil _ a n rfl, ?_, ?_, matHead_of ?_ ?_ ?_, ?_, ?_, ?_, ?_, matHead_of ?_ ?_ ?_, ?_, ?_, ?_, ?_, ?_, ?_,
    ?_, ?_, matHead_of ?_ ?_ ?_, ?_, ?_, matHead_of ?_ ?_ ?_, ?_, ?_, ?_⟩ <;> decide +kernel

theorem pad_nil (n : Nat) : padWords n [] = List.replicate n 0 := by simp [padWords]
theorem slice_zeros (n d k : Nat) (h : d + k ≤ n) : ((List.replicate n (0 : Word32)).drop d).take k = List.replicate k 0 := by
  rw [List.drop_replicate, List.take_replicate, Nat.min_eq_left (by omega)]
theorem getD_zeros (n k : Nat) : (List.replicate n (0 : Word32)).getD k 0 = 0 := by
  simp [List.getD, List.getElem?_replicate]; split <;> rfl
theorem sum_zeros : treeSum (List.replicate 64 0) = 0 := by decide
theorem sums_zero (t : Tile) (h : t.t = []) : t.sums = List.replicate 128 ((0 : Word32), (0 : Word32)) := by
  have r : ∀ i, i < 64 → t.row i = List.replicate 64 0 := by
    intro i hi; unfold Tile.row; rw [h, pad_nil, slice_zeros _ _ _ (by omega)]
  have c : ∀ j, t.col j = List.replicate 64 0 := by
    intro j; unfold Tile.col; rw [h, pad_nil]
    refine List.eq_replicate_iff.mpr ⟨by rw [List.length_map, List.length_range], fun x hx => ?_⟩
    obtain ⟨i, -, rfl⟩ := List.mem_map.mp hx
    exact getD_zeros _ _
  have z : ∀ l : List Word32, l = List.replicate 64 0 → (treeSum l, treeSum (l.map abs32)) = ((0 : Word32), (0 : Word32)) := by
    intro l e; subst e; decide
  refine List.eq_replicate_iff.mpr ⟨?_, fun x hx => ?_⟩
  · unfold Tile.sums; simp only [List.length_append, List.length_map, List.length_range]
  · unfold Tile.sums at hx
    rcases List.mem_append.mp hx with hx | hx <;> obtain ⟨i, hi, rfl⟩ := List.mem_map.mp hx
    · exact z _ (r i (List.mem_range.mp hi))
    · exact z _ (c i)

/-- The tile of zeros passes its checks. -/
theorem zero_tile_passes : ({} : Tile).verdict = .pass := by
  unfold Tile.verdict Tile.checks; rw [sums_zero _ rfl]; decide

/-- A tile of zeros whose checksum lane of row 0 holds 1. -/
def badTile : Tile := { c := [f32One] }
theorem bad_tile_fails : badTile.verdict = .fail := by
  unfold Tile.verdict Tile.checks; rw [sums_zero _ rfl]; decide

/-- A job context with a spill region of stack memory. -/
def spillJob : Job := { job0 with regions := [⟨0x20000, 16, rkSpill, 0⟩] }
def sSpill (c : Core) : State := { withCore c with jobs := [(0, spillJob)], interleave := [0] }

/-- A core with a buffer address at s1, its array idle with a tile in progress, or busy; and one with a spill in its drain buffer. -/
def spillIdle (v : Word64) : State := sSpill { coreWith [(1, v)] with tile := some {} }
def spillBusy (v : Word64) : State := sSpill { coreWith [(1, v)] with atC := some aDrain, drain := some aDrain }
def spillHeld (t : Tile) (loc add : Bool) : Drain := ⟨t, .spill loc 0x20000 add, 0, none, false, false⟩
def sHeld (loc add : Bool) : State := sSpill { coreWith [] with drain := some (spillHeld {} loc add) }

/-- A buffer address serves an idle array and a busy one. -/
def spillMeets (v : Word64) : Prop :=
  MatHead (spillIdle v) h0 ∧ (spillIdle v).bufferCause 0 (((spillIdle v).ctx 0 0).reg 1) = 0 ∧
  ((spillIdle v).core 0).arrayBusy = false ∧ ((spillIdle v).core 0).tile = some {} ∧ ((spillIdle v).core 0).drain = none ∧
  MatHead (spillBusy v) h0 ∧ (spillBusy v).bufferCause 0 (((spillBusy v).ctx 0 0).reg 1) = 0 ∧
  ((spillBusy v).core 0).arrayBusy = true
theorem wit_spill_bank : spillMeets 0x8000000000400000#64 := by
  refine ⟨matHead_of ?_ ?_ ?_, ?_, ?_, ?_, ?_, matHead_of ?_ ?_ ?_, ?_, ?_⟩ <;> decide +kernel
theorem wit_spill_stack : spillMeets 0x20000#64 := by
  refine ⟨matHead_of ?_ ?_ ?_, ?_, ?_, ?_, ?_, matHead_of ?_ ?_ ?_, ?_, ?_⟩ <;> decide +kernel

/-- SpillsAndResumesMoveTiles: the bank C buffer of a core and one of stack memory, an idle array and a busy one; and tiles in the drain
buffer that pass or fail, for a bank and for stack memory, with and without the buffer's old values. -/
theorem wit_spills :
    spillMeets 0x8000000000400000#64 ∧ (bufferReg 0x8000000000400000#64).1 = true ∧
    spillMeets 0x20000#64 ∧ (bufferReg 0x20000#64).1 = false ∧
    matLegalSpill ⟨false, false, 0, 0, 1, 0, 0⟩ = true ∧ matLegalSpill ⟨true, false, 0, 0, 1, 0, 0⟩ = true ∧
    matLegalResume ⟨false, false, 0, 0, 1, 0, 0⟩ = true ∧
    (∀ loc add, ((sHeld loc add).core 0).drain = some (spillHeld {} loc add) ∧
      ((sHeld loc add).core 0).atC = none ∧ ((sHeld loc add).core 0).matNext = none) ∧
    ({} : Tile).verdict ≠ .fail ∧ badTile.verdict = .fail ∧ badTile.log.length ≤ 64 ∧
    ∀ c a n, CleanAt (sSpill c) a n :=
  ⟨wit_spill_bank, by decide, wit_spill_stack, by decide, by decide, by decide, by decide, fun _ _ => ⟨rfl, rfl, rfl⟩,
    by rw [zero_tile_passes]; decide, bad_tile_fails, by decide, fun c a n => clean_of_nil _ a n rfl⟩

/-- A core with a tile in its drain buffer, an entry for it or none, and a tile at C behind it or none; and one with a chain step. -/
def verdictCore (t : Tile) (g : Target) (e : Option Nat) (c : Option Drain) : Core :=
  { coreWith [] with
    drain := some ⟨t, g, 0, e, false, false⟩, atC := c
    tq := [(0, { st := .ready }), (1, { st := .ready }), (2, { st := .ready })] }
def chainCore (g : Target) : Core := { coreWith [] with
  sems := [(63, ⟨1, false, false⟩)]
  tq := [(3, { st := .reserved, data := [f32One], chain := some g })] }

/-- VerdictsReleaseTilesOrStopTheEngine: a passing tile with an entry reserved and one that takes the last free entry, for every
target; one with a tile at C behind it; a failing one with a log of 64; and chain steps into the queue and onward. -/
theorem wit_verdicts :
    let log : Tile := { badTile with log := List.replicate 64 0 }
    (∀ g c, ((withCore (verdictCore {} g none c)).core 0).drain = some ⟨{}, g, 0, none, false, false⟩ ∧
      ((withCore (verdictCore {} g none c)).core 0).freeEntry = some 3 ∧ ((withCore (verdictCore {} g none c)).core 0).atC = c ∧
      ((withCore (verdictCore {} g none c)).core 0).matNext = none ∧
      ((withCore (verdictCore {} g (some 3) c)).core 0).drain = some ⟨{}, g, 0, some 3, false, false⟩) ∧
    ({} : Tile).verdict ≠ .fail ∧ log.verdict = .fail ∧ log.log.length = 64 ∧
    (∀ g, let s := withCore (chainCore g)
      ((s.core 0).entry 3).chain = some g ∧ 1 ≤ ((s.core 0).sem 63).value ∧
      (s.core 0).hasWaiter 63 = false ∧ (s.core 0).drain.any (fun q => q.spilled) = false) ∧
    ∀ c a n, CleanAt (withCore c) a n :=
  ⟨fun _ _ => ⟨rfl, rfl, rfl, rfl, rfl⟩, by rw [zero_tile_passes]; decide, bad_tile_fails, rfl,
    fun _ => ⟨rfl, Nat.le_refl 1, rfl, rfl⟩, fun c a n => clean_of_nil _ a n rfl⟩

end Sys2Proof.Tests
end

