-- ==== Sys2Proof/Tests/WitVectors.lean ====
section
/-! SUPPORT. Witnesses for the statements about vector words: states and operands that meet their hypotheses. -/

set_option Elab.async false

namespace Sys2Proof.Tests

open Sys2Proof Sys2Proof.Machine

/-! ### The vector engine -/

/-- Words of 4,096 elements: t28 to t31 from t0 to t3, t4 to t7 and t8 to t11; then of 1,024 elements. -/
def word1 (et : Nat) : VecWord := ⟨BitVec.ofNat 2 et, 4095, false, 28, 0, 0, 0, 0, 0, 0, 0, false, false, 0⟩
def word2 (et : Nat) : VecWord := ⟨BitVec.ofNat 2 et, 4095, false, 28, 0, 0, 0, 4, 0, 0, 0, false, false, 0⟩
def word3 (et : Nat) : VecWord := ⟨BitVec.ofNat 2 et, 4095, false, 28, 0, 0, 0, 4, 0, 8, 0, false, false, 0⟩

/-- Context 2 of the update path, with the parameters of a stochastic BF16 write at s1. -/
def sUpdate : State := withCore { ctxs := [(2, { runCtx with regs := [(1, 0x8020000000000000#64)] })] }

/-- ElementwiseOperationsWriteTheirElements: every operation with each of its types, a context's queue and the smallest count. -/
theorem wit_elementwise :
    (∀ o ∈ [VOp.add, .sub, .mul, .min, .max, .cmpeq, .cmpne, .cmplt, .cmple], ∀ et ∈ [0, 1, 2], VecHead o sRun h0 (word2 et)) ∧
    (∀ et ∈ [0, 1, 2], VecHead .fma sRun h0 (word3 et) ∧ VecHead .sel sRun h0 (word3 et)) ∧
    (∀ o ∈ [VOp.abs, .neg], ∀ et ∈ [0, 1, 2], VecHead o sRun h0 (word1 et)) ∧
    (∀ o ∈ [VOp.and, .or, .xor], VecHead o sRun h0 (word2 2)) ∧
    VecHead .iota sRun h0 ⟨2, 4095, false, 28, 1, 1, 0, 0, 0, 0, 0, false, false, 0⟩ ∧
    VecHead .add (withCore { coreWith [] with tq := [(3, { st := .ready })] }) h0
      ⟨0, 0, false, 31, 4, 0, 0, 4, 0, 0, 0, true, false, 0⟩ := by
  refine ⟨?_, ?_, ?_, ?_, ?_, ?_⟩
  · intro o ho et he; refine vecHead_of ?_; revert et he; revert o ho; decide
  · intro et he; refine ⟨vecHead_of ?_, vecHead_of ?_⟩ <;> revert et he <;> decide
  · intro o ho et he; refine vecHead_of ?_; revert et he; revert o ho; decide
  · intro o ho; refine vecHead_of ?_; revert o ho; decide
  · exact vecHead_of (by decide)
  · exact vecHead_of (by decide)

/-- ConversionsWriteTheirElements. -/
theorem wit_conversions :
    (∀ o ∈ [VOp.cvtHf, .cvtFb, .cvtFh, .cvtFi, .cvtIf], VecHead o sRun h0 (word1 0)) ∧
    (let s := withCore (coreWith [(1, 0x8020000000000000#64)])
     let w : VecWord := ⟨0, 4095, false, 28, 0, 0, 0, 0, 1, 1, 6, false, false, 0⟩
     VecHead .cvtBf s h0 w ∧ paramCause .cvtBf 0 (s.ctx 0 0) 1 4096 = 0 ∧ (vecParams .cvtBf 0 (s.ctx 0 0) 1).isSome = true) ∧
    (let w : VecWord := ⟨0, 4095, false, 28, 0, 0, 0, 0, 1, 1, 12, false, false, 0⟩
     VecHead .cvtWb sUpdate h2 w ∧ paramCause .cvtWb 2 (sUpdate.ctx 0 2) 1 4096 = 0 ∧
     (vecParams .cvtWb 2 (sUpdate.ctx 0 2) 1).isSome = true) := by
  refine ⟨?_, ⟨vecHead_of ?_, ?_, ?_⟩, ⟨vecHead_of ?_, ?_, ?_⟩⟩
  · intro o ho; refine vecHead_of ?_; revert o ho; decide
  all_goals decide

/-- ReductionsMovesAndFunctionsWriteTheirResults: one segment into a scalar register, and 4,096 segments of one element. -/
theorem wit_reductions :
    (∀ o ∈ [VOp.rsum, .rsumsq, .rmax, .rmin, .rargmax, .rargmin],
      VecHead o sRun h0 ⟨0, 4095, false, 31, 0, 0, 0, 0, 0, 0, 12, false, false, 0⟩ ∧
      VecHead o sRun h0 ⟨0, 4095, false, 28, 0, 0, 0, 0, 0, 0, 0, false, false, 0⟩) ∧
    VecHead .rsum sRun h0 ⟨0, 4095, false, 31, 0, 0, 0, 0, 0, 0, 12, false, true, 0⟩ ∧
    (∀ o ∈ [VOp.compress, .expand], VecHead o sRun h0 ⟨0, 4095, false, 28, 0, 0, 0, 3, 0, 8, 0, false, false, 0⟩) ∧
    (∀ o ∈ [VOp.exp2, .log2, .rcp, .rsqrt, .tanh], VecHead o sRun h0 (word1 0)) ∧
    VecHead .wfma sUpdate h2 ⟨0, 4095, false, 24, 0, 0, 0, 8, 0, 12, 0, false, false, 0⟩ ∧
    VecHead .wadd sUpdate h2 ⟨0, 4095, false, 24, 0, 0, 0, 0, 0, 12, 0, false, false, 0⟩ := by
  refine ⟨?_, vecHead_of (by decide), ?_, ?_, vecHead_of (by decide), vecHead_of (by decide)⟩
  · intro o ho; refine ⟨vecHead_of ?_, vecHead_of ?_⟩ <;> revert o ho <;> decide
  · intro o ho; refine vecHead_of ?_; revert o ho; decide
  · intro o ho; refine vecHead_of ?_; revert o ho; decide

/-- VectorMemoryOperationsMoveTheirBytes: the last 4,096 words of bank D, codes at offset 0 with scales behind them, and a head entry. -/
theorem wit_vector_memory :
    let s := withCore { coreWith [(2, 0x5FC000), (4, 0x5FE000), (8, 0x0400000000800000#64 * 1 + 0x10000000000#64)] with
      tq := [(3, { st := .ready })] }
    let ld : VecWord := ⟨0, 4095, false, 28, 0, 0, 1, 2, 0, 0, 0, false, false, 0⟩
    let ldH : VecWord := ⟨0, 4095, false, 28, 0, 0, 1, 4, 0, 0, 0, false, false, 0⟩
    let st : VecWord := ⟨0, 4095, false, 0, 0, 0, 1, 2, 0, 0, 0, false, false, 0⟩
    let stH : VecWord := ⟨0, 4095, false, 0, 0, 0, 1, 4, 0, 0, 0, false, false, 0⟩
    VecHead .vld s h0 ld ∧ VecHead .vldH s h0 ldH ∧ VecHead .vst s h0 st ∧ VecHead .vstH s h0 stH ∧
    memOffset (s.ctx 0 0) ld % 4 = 0 ∧ memOffset (s.ctx 0 0) ld + 4 * 4096 = spadBytes ∧
    memOffset (s.ctx 0 0) ldH % 2 = 0 ∧ memOffset (s.ctx 0 0) ldH + 2 * 4096 = spadBytes ∧
    (∀ a n, CleanAt s a n) ∧
    VecHead .ckcmp s h0 ⟨0, 4095, false, 5, 0, 0, 0, 4, 0, 8, 0, false, false, 15⟩ ∧
    HasHead s h0 ∧ (s.core 0).headEntry 0 = some 3 := by
  refine ⟨vecHead_of ?_, vecHead_of ?_, vecHead_of ?_, vecHead_of ?_, ?_, ?_, ?_, ?_, fun a n => clean_of_nil _ a n rfl,
    vecHead_of ?_, hasHead_of ?_, ?_⟩ <;> decide

/-- VectorMemoryOperationsMoveTheirBytes: PACK and UNPACK of E4M3 in blocks of 16 with E8M0 scales and a per-tensor scale, and
PACK_W in context 2. -/
theorem wit_pack :
    let regs : Tab Word64 := [(1, 0x0480080000000000#64), (2, 0x3F800000#64)]
    let s := withCore { ctxs := [(0, { runCtx with regs := regs }), (2, { runCtx with regs := regs })] }
    let w : VecWord := ⟨0, 4095, false, 0, 0, 0, 0, 0, 1, 1, 0, false, false, 0⟩
    let u : VecWord := ⟨0, 4095, false, 28, 0, 0, 0, 0, 1, 1, 0, false, false, 0⟩
    (VecHead .pack s h0 w ∧ paramCause .pack 0 (s.ctx 0 0) 1 4096 = 0 ∧ (vecParams .pack 0 (s.ctx 0 0) 1).isSome = true) ∧
    (VecHead .packW s h2 w ∧ paramCause .packW 2 (s.ctx 0 2) 1 4096 = 0 ∧ (vecParams .packW 2 (s.ctx 0 2) 1).isSome = true) ∧
    (VecHead .unpack s h0 u ∧ paramCause .unpack 0 (s.ctx 0 0) 1 4096 = 0 ∧ (vecParams .unpack 0 (s.ctx 0 0) 1).isSome = true) ∧
    ∀ a n, CleanAt s a n := by
  refine ⟨⟨vecHead_of ?_, ?_, ?_⟩, ⟨vecHead_of ?_, ?_, ?_⟩, ⟨vecHead_of ?_, ?_, ?_⟩, fun a n => clean_of_nil _ a n rfl⟩ <;>
    decide

end Sys2Proof.Tests
end

