-- ==== Sys2Proof/Tests/WitWafer.lean ====
section
/-! SUPPORT. Witnesses for the statements about fences, links and drains: states and operands that meet their hypotheses. -/

set_option Elab.async false

namespace Sys2Proof.Tests

open Sys2Proof Sys2Proof.Machine

/-! ### Wafer and repair -/

/-- Column 511 with a shift under way from row 7 that began at time 0: of cause ROUTER with its drain running, and one whose drain has
ended. -/
def sShift (router : Bool) (drained : Option Nat) : State :=
  { wafer := { shifts := [(511, some { row := 7, started := 0, router := router, drained := drained })] } }

/-- SitesAreFencedAndColumnsShift: a site already fenced, the spare row's site that hosts no core, a site whose column can shift, with
its spare under test and without, one whose column has shifted, and shifts that end, with empty job contexts and an empty memory. -/
theorem wit_sites_fenced :
    let s : State := {}
    let fenced : State := { wafer := { sites := [(0, some .fenced)] } }
    let shifted : State := { wafer := { shifted := [(511, some 0)] } }
    let tested : State := { integ := { stress := [(63, some 7)] } }
    fenced.siteState 0 0 = .fenced ∧
    (∀ p ∈ [7, 8], s.siteState 511 p ≠ .fenced) ∧ (1 ≤ 6 ∧ 6 ≤ 6) ∧ s.wafer.store.length < 16384 ∧ s.integ.cper.length < 256 ∧
    s.coreOfSite 511 8 = none ∧ s.coreOfSite 511 7 = some (coreAt 511 7) ∧ (∀ j, j < 8 → (s.job j).st = .empty) ∧
    s.canShift 511 7 = true ∧ LogRoom s 2 ∧
    (Tab.get none tested.integ.stress (511 / 8) = some (511 % 8) ∧ tested.canShift 511 7 = true ∧ tested.siteState 511 7 ≠ .fenced ∧
      tested.coreOfSite 511 7 = some (coreAt 511 7) ∧ LogRoom tested 1) ∧
    shifted.siteState 511 8 ≠ .fenced ∧ (shifted.coreOfSite 511 8).isSome = true ∧ shifted.canShift 511 8 = false ∧
    shifted.integ.checks = [] ∧ (∀ j, j < 8 → (shifted.job j).st = .empty) ∧
    (∀ q ∈ [(true, none), (true, some 500), (false, none)], let t := sShift q.1 q.2
      Tab.get none t.wafer.shifts 511 = some { row := 7, started := 0, router := q.1, drained := q.2 } ∧ LogRoom t 2 ∧ MemoryOk t ∧
      t.integ.checks = [] ∧ t.time < 0 + 20000 ∧ ∀ j, j < 8 → (t.job j).st = .empty) ∧
    Tab.get none s.wafer.shifts 511 = none := by
  unfold LogRoom MemoryOk; decide +kernel

/-- LinkStageFailuresTakeFieldsOut: a field out of service already, one that may go cold, alone and beside a pause under way, and a
corner outside SAFE. -/
theorem wit_link_stage :
    let s : State := {}
    let p : State := { net := { pause := some (20, true, 0), cold := [20] } }
    ({ wafer := { linkOut := [63] } } : State).wafer.linkOut.contains 63 = true ∧ s.wafer.linkOut.contains 9 = false ∧
    (∀ j, j < 8 → (s.job j).st = .empty ∧ (s.job j).layout = none) ∧ s.mesh = [] ∧ s.coldAllowed 9 = true ∧
    s.coldAllowed 63 = false ∧ s.regs.st ≠ .safe ∧ s.wafer.linkOut.contains 63 = false ∧ s.wafer.store.length < 16384 ∧
    s.net.pause = none ∧ 9 ∉ s.net.cold ∧
    (p.coldAllowed 9 = true ∧ p.net.pause = some (20, true, 0) ∧ (20 : Nat) ≠ 9 ∧ p.wafer.linkOut.contains 9 = false ∧ p.mesh = [] ∧
      ∀ j, j < 8 → (p.job j).st = .empty ∧ (p.job j).layout = none) := by decide +kernel

/-- A job context with a drain of a reason and its step, quiet or with a flit of its core 0 in flight. -/
def sDrain (d : DrainFor) (st : StepState) (quiet : Bool) (x : Job) : State :=
  { jobs := [(7, { x with draining := some d, steps := [aStep 9 st] })]
    net := { flights := if quiet then [] else [{ at_ := 1, flit := ⟨1, 0, 0, 9, 0, 0, true, 3, 63, 0, 0, zeros, 0, 0⟩, link := 1 }] } }
def patched2 : Fallback := ⟨0, 0, 5, 1, ⟨0, 0, 7, 7⟩, [⟨0, 1, 0⟩, ⟨7, 1, 0⟩]⟩
def forField : Fallback := ⟨0, 2, 5, 1, ⟨0, 0, 7, 7⟩, []⟩
def withFallback (st : JobState) (f : Fallback) : Job :=
  { job0 with st := st, slots := [(0, some ⟨0, 1, { oneRegion with fallbacks := [f] }⟩)], wanted := [(0, 0)] }

/-- DrainsEndInVariantsReplaysOrFailure: each reason of a drain with its step in flight, a variant that waits, one of a cold order, and
no drain; with nothing of the job context in flight and with a flit of it. -/
theorem wit_drains :
    (∀ d ∈ [DrainFor.replay, .integrity, .drop], ∀ st ∈ [StepState.open_, .backwardDone],
      let s := sDrain d st true job0
      (s.job 7).draining = some d ∧ (s.job 7).openStep = some (aStep 9 st) ∧
      (s.job 7).step 9 = some (aStep 9 st) ∧ s.jobQuiet 7 = true ∧ (s.job 7).wanted = []) ∧
    (∀ d ∈ [DrainFor.replay, .integrity, .drop, .fallback, .shift, .classify],
      let s := sDrain d .open_ false job0
      (s.job 7).draining = some d ∧ s.jobQuiet 7 = false ∧ (s.job 7).wanted = []) ∧
    (let s := sDrain .fallback .open_ false (withFallback .running patched2)
     s.jobQuiet 7 = false ∧ (s.job 7).wanted ≠ []) ∧
    (let s : State := { sDrain .fallback .open_ false (withFallback .running forField) with clk := { ordered := [(5, some 0)] } }
     (s.job 7).draining = some .fallback ∧ s.jobQuiet 7 = false ∧ (s.job 7).wanted = [(0, 0)] ∧
     ((s.job 7).layout.map (fun l => l.fallbacks[0]?)) = some (some forField) ∧ forField.trigger = 2 ∧
     (Tab.get none s.clk.ordered forField.id).isSome = true ∧ LogRoom s 1) ∧
    (∀ d ∈ [DrainFor.fallback, .replay], let v := sDrain d .open_ true (withFallback .loaded patched2)
     (v.job 7).draining = some d ∧ v.jobQuiet 7 = true ∧ ((v.job 7).activeSlot.map (fun x => x.layout.fallbacks[0]?)) = some (some patched2) ∧
      (v.job 7).st = .loaded ∧ (v.job 7).wanted = [(0, 0)] ∧ v.clk.ordered = [] ∧ LogRoom v 1) ∧
    (patched2.patches.map (fun p => (p.core, p.group))).Nodup ∧
    (({} : State).job 7).draining = none := by
  unfold LogRoom; decide +kernel

end Sys2Proof.Tests
end

/-! # Core programs: scalar operations and illegal words (spec/06 R171, R182 to R185, R208, R210) -/

namespace Sys2Proof.Machine

/-! ## Scalar operations (R185) -/

/-- An arithmetic shift right is a division that rounds down. -/
theorem sshiftRight_eq_ofInt_div (a : Word64) (n : Nat) : a.sshiftRight n = BitVec.ofInt 64 (a.toInt / 2 ^ n) := by
  simp [BitVec.sshiftRight, Int.shiftRight_eq_div_pow]

theorem boolWord_slt (a b : Word64) : boolWord (a.slt b) = if a.toInt < b.toInt then 1 else 0 := by
  simp [boolWord, BitVec.slt_iff_toInt_lt]

theorem boolWord_ult (a b : Word64) : boolWord (a.ult b) = if a.toNat < b.toNat then 1 else 0 := by
  simp [boolWord, BitVec.ult_eq_decide]

/-- LIH joins the immediate to the low half of its register. -/
theorem lowHalf_or_shifted_imm (a : Word64) (imm : BitVec 32) :
    (a &&& 0xFFFFFFFF#64) ||| (zextImm imm <<< 32) = imm ++ a.extractLsb' 0 32 := by
  apply BitVec.eq_of_getLsbD_eq
  intro i hi
  have hmask : (0xFFFFFFFF#64).getLsbD i = decide (i < 32) := Nat.testBit_two_pow_sub_one 32 i
  rw [BitVec.getLsbD_append, BitVec.getLsbD_or, BitVec.getLsbD_and, hmask]
  by_cases h : i < 32
  · simp [h, zextImm]
  · simp [h, hi, zextImm]

theorem legalShift_of_lt {imm : BitVec 32} (h : imm.toNat < 64) : legalShift imm = true := by
  simp only [legalShift, decide_eq_true_eq]
  omega

/-- An instruction that is a register operation writes what the operation gives on its two registers. -/
theorem State.scalarR_gives {s : State} {h : Hart} {i : Instr} {w : Word64} {sd sa sb : Reg} {v : Word64}
    {f : Word64 → Word64 → Word64} (e : HasHead s h) (hi : exec i s = .next (s.scalarR h w sd sa sb f))
    (hv : f ((s.ctx h.core.toNat h.ctx.toNat).reg sa.toNat) ((s.ctx h.core.toNat h.ctx.toNat).reg sb.toNat) = v) :
    ∃ t, exec i s = .next t ∧ Wrote s t h uScalar ((s.ctx h.core.toNat h.ctx.toNat).pc + 8) sd v := by
  refine ⟨_, hi, ?_⟩
  rw [State.scalarR, State.onHead_acts e, hv]
  exact State.taken_wrote

/-- An instruction that is a legal immediate operation writes what the operation gives on its register. -/
theorem State.scalarI_gives {s : State} {h : Hart} {i : Instr} {w : Word64} {legal : Bool} {sd sa : Reg} {v : Word64}
    {f : Word64 → Word64} (e : HasHead s h) (hl : legal = true) (hi : exec i s = .next (s.scalarI h w legal sd sa f))
    (hv : f ((s.ctx h.core.toNat h.ctx.toNat).reg sa.toNat) = v) :
    ∃ t, exec i s = .next t ∧ Wrote s t h uScalar ((s.ctx h.core.toNat h.ctx.toNat).pc + 8) sd v := by
  refine ⟨_, hi, ?_⟩
  rw [State.scalarI, hl, State.onHead_acts e, hv]
  exact State.taken_wrote

/-! ## A context that does not run stays as it is when the supervisors halt its core (R174, R210, R236) -/

section
variable {x : Ctx} {c k : Nat}

theorem Core.ctx_haltCtx {y : Core} {m : Nat} (hx : x.st ≠ .running) (h : y.ctx k = x) : (y.haltCtx m).ctx k = x := by
  unfold Core.haltCtx
  dsimp only
  split
  next hm =>
    have hk : k ≠ m := fun e => hx (h ▸ e ▸ hm)
    simpa [Core.ctx, Core.setCtx, Tab.get_set_other _ _ hk] using h
  next => exact h

theorem Core.ctx_haltAll {y : Core} (hx : x.st ≠ .running) (h : y.ctx k = x) : y.haltAll.ctx k = x :=
  ctx_haltCtx hx (ctx_haltCtx hx (ctx_haltCtx hx (ctx_haltCtx hx h)))

theorem Core.ctx_hold (y : Core) (k : Nat) : y.hold.ctx k = y.ctx k := rfl

/-- A change that leaves a context as it is in one core leaves it so when made in a list of cores. -/
theorem State.ctx_modCores {s : State} {cs : List Nat} {f : Core → Core} (h : s.ctx c k = x)
    (hf : ∀ y : Core, y.ctx k = x → (f y).ctx k = x) : (s.modCores cs f).ctx c k = x := by
  refine List.foldlRecOn (motive := fun a : State => a.ctx c k = x) cs _ h fun a ha d _ => ?_
  by_cases hd : c = d
  · subst hd
    rw [State.ctx, State.core_modCore_same]
    exact hf _ ha
  · rw [State.ctx, State.core_modCore_ne hd]
    exact ha

theorem State.ctx_forgetHalted (s : State) (cs : List Nat) : (s.forgetHalted cs).ctx c k = s.ctx c k := rfl

theorem State.ctx_haltJob {s : State} {j : Nat} (hx : x.st ≠ .running) (h : s.ctx c k = x) :
    (s.haltJob j).ctx c k = x := by
  unfold State.haltJob
  rw [State.ctx_forgetHalted]
  exact State.ctx_modCores h fun y hy => (Core.ctx_hold y.haltAll k).trans (Core.ctx_haltAll hx hy)

end

/-! ## A fault (R208 to R210) -/

/-- What the supervisors' halt changes: the cores, and what the clocks keep of them. -/
def haltParts : Part → Bool := fun p => decide (p = .cores ∨ p = .clk)

theorem State.haltJob_obs {s : State} {j : Nat} : (s.haltJob j).obs = s.obs := by
  have : Has haltParts .cores := ⟨rfl⟩
  have : Has haltParts .clk := ⟨rfl⟩
  exact (State.haltJob_keeps (μ := haltParts) (Keeps.refl s)).on_obs rfl

/-- A job context that fails changes its running contexts alone. -/
theorem State.ctx_failJobWith {s : State} {j st c k : Nat} (h : (s.ctx c k).st ≠ .running) :
    (s.failJobWith j st).ctx c k = s.ctx c k := by
  have : Has coresFixed .mem := ⟨rfl⟩
  have : Has coresFixed .jobs := ⟨rfl⟩
  have : Has coresFixed .host := ⟨rfl⟩
  have : Has coresFixed .regs := ⟨rfl⟩
  have : Has coresFixed .obs := ⟨rfl⟩
  have hcores : (s.failJobWith j st).cores = (s.haltJob j).cores := by
    unfold State.failJobWith
    exact (State.modJob_keeps (State.finishAll_keeps (State.abortSteps_keeps (Keeps.refl (μ := coresFixed) _)))).on_cores rfl
  rw [State.ctx, State.core_congr hcores]
  exact State.ctx_haltJob h rfl

theorem State.failJobWith_failed {s : State} {j st : Nat} : ((s.failJobWith j st).job j).st = .failed := by
  simp [State.failJobWith]

theorem State.jobOf_congr {s t : State} (h : t.jobs = s.jobs) (c : Nat) : t.jobOf c = s.jobOf c := by
  simp [State.jobOf, State.job_congr h]

/-- The faulted context keeps its PC and registers: it is FAULTED and waits for nothing. -/
theorem State.ctx_faultCtx {s : State} {c k : Nat} :
    (s.faultCtx c k).ctx c k = { s.ctx c k with st := .faulted, wait := .none } := by
  unfold State.faultCtx State.failJobOf
  split
  · rw [State.failJob, State.ctx_failJobWith] <;> simp
  · simp

theorem State.faultCtx_failed {s : State} {c k j : Nat} (h : s.jobOf c = some j) :
    ((s.faultCtx c k).job j).st = .failed := by
  have hj : (s.modCtx c k (fun x => { x with st := .faulted, wait := .none })).jobOf c = some j := h
  simp only [State.faultCtx, State.failJobOf, hj]
  exact State.failJobWith_failed

/-- All parts of the state but the word codes. -/
def codesFixed : Part → Bool := fun p => decide (p ≠ .codeErr)

theorem State.faultCtx_codeErr {s : State} {c k : Nat} : (s.faultCtx c k).codeErr = s.codeErr := by
  have : Has codesFixed .mem := ⟨rfl⟩
  have : Has codesFixed .cores := ⟨rfl⟩
  have : Has codesFixed .jobs := ⟨rfl⟩
  have : Has codesFixed .host := ⟨rfl⟩
  have : Has codesFixed .regs := ⟨rfl⟩
  have : Has codesFixed .clk := ⟨rfl⟩
  have : Has codesFixed .obs := ⟨rfl⟩
  exact (State.faultCtx_keeps (μ := codesFixed) (Keeps.refl s)).on_codeErr rfl

/-- What acts on a word that R182 calls illegal is the fault alone (R208). -/
theorem exec_programIllegal {s : State} {h : Hart} {w : Word64} (e : HasHead s h) (hw : legalWord w = false) :
    exec (.programIllegal h w) s = .next (s.illegal h w) := by
  show Host.Outcome.next (s.onHead h w (legalWord w) false _) = _
  rw [hw, State.onHead_illegal e]

/-- The context of an illegal word keeps its PC and registers. -/
theorem State.ctx_illegal {s : State} {h : Hart} {w : Word64} :
    (s.illegal h w).ctx h.core.toNat h.ctx.toNat =
      { s.ctx h.core.toNat h.ctx.toNat with st := .faulted, wait := .none } := by
  rw [State.illegal, State.ctx_faultCtx, State.ctx_record]

theorem State.illegal_failed {s : State} {h : Hart} {w : Word64} {j : Nat} (hj : s.jobOf h.core.toNat = some j) :
    ((s.illegal h w).job j).st = .failed :=
  State.faultCtx_failed ((State.jobOf_congr State.record_jobs _).trans hj)

theorem State.illegal_codeErr {s : State} {h : Hart} {w : Word64} : (s.illegal h w).codeErr = s.codeErr := by
  rw [State.illegal, State.faultCtx_codeErr, State.record_codeErr]

end Sys2Proof.Machine

namespace Sys2Proof

open Sys2Proof.Machine

/-! ## Records stay in the log (R594 to R598) -/

section
variable {s t : State} {k : EventKind} {src : Src} {l : List (Nat × Nat)}

/-- What the log says of its last record stands in it. -/
theorem Recorded.of_last (h : lastEvent s.obs.log = some (k, src.kind, src.num, payload l)) : Recorded s k src l := by
  obtain ⟨r, hr, he⟩ := Option.map_eq_some_iff.mp h
  exact ⟨r, List.mem_of_getLast? hr, he⟩

theorem Recorded.congr (h : t.obs.log = s.obs.log) (hr : Recorded s k src l) : Recorded t k src l := by
  unfold Recorded
  rw [h]
  exact hr

/-- An event repeats the last record, with its event and payload as they were, or leaves all records in place. -/
theorem Recorded.event {k' : EventKind} {src' : Src} {l' : List (Nat × Nat)} (hr : Recorded s k src l) :
    Recorded (s.event k' src' l') k src l := by
  obtain ⟨r, hm, he⟩ := hr
  unfold State.event
  dsimp only
  split
  · exact ⟨r, hm, he⟩
  · split
    next q hq =>
      split
      · have hlog : s.obs.log = s.obs.log.dropLast ++ [q] := (List.dropLast_append_getLast? q hq).symm
        rw [hlog, List.mem_append, List.mem_singleton] at hm
        rcases hm with hm | rfl
        · exact ⟨r, List.mem_append_left _ hm, he⟩
        · exact ⟨_, List.mem_append_right _ (List.mem_singleton_self _), he⟩
      · split
        · exact .congr (congrArg Obs.log State.raiseFlag_obs) ⟨r, List.mem_append_left _ hm, he⟩
        · exact ⟨r, List.mem_append_left _ hm, he⟩
    next hq => simp [List.getLast?_eq_none_iff.mp hq] at hm

theorem Recorded.record {k' : EventKind} {src' : Src} {l' : List (Nat × Nat)} (hr : Recorded s k src l) :
    Recorded (s.record k' src' l') k src l :=
  hr.event.congr State.trace_log

theorem Recorded.of_record (h : LogRoom s 1) : Recorded (s.record k src l) k src l :=
  .of_last (State.record_last h.1 h.2)

theorem Recorded.foldl {α : Type} {xs : List α} {f : State → α → State} (hr : Recorded s k src l)
    (hf : ∀ a x, Recorded a k src l → Recorded (f a x) k src l) : Recorded (xs.foldl f s) k src l :=
  List.foldlRecOn (motive := fun a => Recorded a k src l) xs f hr fun a ha x _ => hf a x ha

/-! ### What fails a job context takes no record out (R210) -/

theorem Recorded.finish {ring id st r0 r1 : Nat} (hr : Recorded s k src l) :
    Recorded (s.finish ring id st r0 r1) k src l := by
  unfold State.finish
  split
  · exact hr
  · split
    · exact hr
    · refine Recorded.congr (s := if _ then s else if _ then _ else _) rfl ?_
      split
      · exact hr
      · split <;> exact hr.record

theorem Recorded.finishOn {ring st : Nat} {p : Taken → Bool} (hr : Recorded s k src l) :
    Recorded (s.finishOn ring st p) k src l := by
  unfold State.finishOn
  split
  · exact hr
  · exact hr.foldl fun _ _ ha => ha.finish

theorem Recorded.finishAll {st : Nat} {p : Taken → Bool} (hr : Recorded s k src l) :
    Recorded (s.finishAll st p) k src l := by
  unfold State.finishAll
  exact hr.foldl fun _ _ ha => ha.finishOn

theorem Recorded.saturation {j : Nat} {r : StepRun} (hr : Recorded s k src l) : Recorded (s.saturation j r) k src l := by
  unfold State.saturation
  dsimp only
  split
  · exact hr
  · exact hr.record

theorem Recorded.endStep {j st : Nat} {r : StepRun} (hr : Recorded s k src l) : Recorded (s.endStep j r st) k src l := by
  unfold State.endStep
  dsimp only
  have hs : Recorded (if r.st = .waiting then s else s.saturation j r) k src l := by
    split
    · exact hr
    · exact hr.saturation
  apply Recorded.finish
  split <;> exact hs.congr (by simp)

theorem Recorded.abortSteps {j st : Nat} {p : StepRun → Bool} (hr : Recorded s k src l) :
    Recorded (s.abortSteps j st p) k src l := by
  unfold State.abortSteps
  exact hr.foldl fun _ _ ha => ha.endStep

theorem Recorded.failJobWith {j st : Nat} (hr : Recorded s k src l) : Recorded (s.failJobWith j st) k src l := by
  have hh : Recorded (s.haltJob j) k src l := hr.congr (congrArg Obs.log State.haltJob_obs)
  unfold State.failJobWith
  exact hh.abortSteps.finishAll.congr (congrArg Obs.log State.modJob_obs)

theorem Recorded.faultCtx {c m : Nat} (hr : Recorded s k src l) : Recorded (s.faultCtx c m) k src l := by
  have hm : Recorded (s.modCtx c m (fun x => { x with st := .faulted, wait := .none })) k src l := hr
  unfold State.faultCtx State.failJobOf
  split
  · exact hm.failJobWith
  · exact hm

end

/-! ## The obligations -/

/-- Settles O1: every operation is a register or an immediate operation, and its function is R185's. -/
theorem scalarOperationsWriteTheirResult : Obligations.ScalarOperationsWriteTheirResult := by
  intro s h sd sa sb imm e x a b gives
  have reg {i : Instr} {w : Word64} {v : Word64} {f : Word64 → Word64 → Word64}
      (hi : exec i s = .next (s.scalarR h w sd sa sb f)) (hv : f a b = v) : gives i v := State.scalarR_gives e hi hv
  have immed {i : Instr} {w : Word64} {v : Word64} {f : Word64 → Word64}
      (hi : exec i s = .next (s.scalarI h w true sd sa f)) (hv : f a = v) : gives i v := State.scalarI_gives e rfl hi hv
  refine ⟨Ctx.reg_zero, reg rfl rfl, reg rfl rfl, reg rfl rfl, reg rfl rfl, reg rfl rfl, reg rfl rfl, reg rfl rfl,
    reg rfl (sshiftRight_eq_ofInt_div a _), reg rfl rfl, reg rfl (boolWord_slt a b), reg rfl (boolWord_ult a b),
    immed rfl rfl, immed rfl rfl, immed rfl rfl, immed rfl rfl, immed rfl (lowHalf_or_shifted_imm a imm), fun hlt => ?_⟩
  have hl := legalShift_of_lt hlt
  exact ⟨State.scalarI_gives e hl rfl rfl, State.scalarI_gives e hl rfl rfl,
    State.scalarI_gives e hl rfl (sshiftRight_eq_ofInt_div a _)⟩

/-- Settles O5: an illegal word records its event and faults its context; all that follows keeps the record. -/
theorem illegalWordsFault : Obligations.IllegalWordsFault := by
  intro s h w e hw
  have hc := State.ctx_illegal (s := s) (h := h) (w := w)
  exact ⟨s.illegal h w, exec_programIllegal e hw, by rw [hc], by rw [hc], by rw [hc], State.illegal_codeErr,
    fun _ hj => State.illegal_failed hj, fun room => (Recorded.of_record room).faultCtx⟩

end Sys2Proof
